-- ==== Sys2Proof/Word.lean ====
section
/-! DEFINITION. The word types of the D512: 32-bit registers, 64-bit pairs, bytes and 96-bit instruction
words (01 R13, 02 R33). -/

namespace Sys2Proof

/-- A vector or uniform register (R13). -/
abbrev Word := BitVec 32

/-- A register pair, an address or a program counter (R13, R21, R42). -/
abbrev DWord := BitVec 64

/-- One byte of memory (R3). -/
abbrev Byte := BitVec 8

/-- One instruction word (R33). -/
abbrev IWord := BitVec 96

end Sys2Proof
end

