-- ==== Sys2Proof/Machine/Bits.lean ====
section
/-! DEFINITION. Bit fields, sign extension and byte order (00 R2, R3), written over natural numbers so that one
definition serves every width. -/

namespace Sys2Proof.Bits

/-- Bits [lo + w - 1 : lo] of `n` (R2). -/
def field (n lo w : Nat) : Nat := (n >>> lo) % 2 ^ w

/-- Bit `i` of `n`. -/
def bit (n i : Nat) : Bool := n.testBit i

/-- 1 for true. -/
def b2n (b : Bool) : Nat := if b then 1 else 0

/-- The value of a `w`-bit two's-complement pattern. -/
def sext (w n : Nat) : Int :=
  let m := n % 2 ^ w
  if m < 2 ^ (w - 1) then (m : Int) else (m : Int) - (2 ^ w : Nat)

/-- An integer taken modulo 2^w, as a natural number. -/
def wrap (w : Nat) (x : Int) : Nat := (x % ((2 ^ w : Nat) : Int)).toNat

/-- `n` bytes of `v`, lowest address first (R3). -/
def toBytes : Nat → Nat → List Byte
  | 0, _ => []
  | n + 1, v => BitVec.ofNat 8 v :: toBytes n (v >>> 8)

/-- The value of a byte string, lowest address first (R3). -/
def ofBytes : List Byte → Nat
  | [] => 0
  | b :: bs => b.toNat + 256 * ofBytes bs

/-- The number of set bits among the low `w` bits. -/
def popcount : Nat → Nat → Nat
  | 0, _ => 0
  | w + 1, n => b2n (n % 2 == 1) + popcount w (n / 2)

/-- Is the number of set bits among the low `w` bits odd? -/
def odd (w n : Nat) : Bool := popcount w n % 2 == 1

/-- The numbers 0 to n - 1 in ascending order. -/
def upto (n : Nat) : List Nat := List.range n

/-- A number assembled from a function of its bit positions 0 to w - 1. -/
def ofBitFn (w : Nat) (f : Nat → Bool) : Nat :=
  (upto w).foldl (fun acc i => acc + b2n (f i) * 2 ^ i) 0

/-- The lanes of an 8-bit mask, in ascending order. -/
def lanesOf (mask : Nat) : List Nat := (upto 8).filter (fun l => mask.testBit l)

/-- The 8-bit mask of a list of lanes. -/
def maskOf (ls : List Nat) : Nat := (upto 8).foldl (fun acc l => acc + b2n (ls.contains l) * 2 ^ l) 0

/-- Round up to a multiple of `k`. -/
def ceilDiv (n k : Nat) : Nat := (n + k - 1) / k

end Sys2Proof.Bits
end

