-- ==== Sys2Proof/Syntax.lean ====
section
/-! DEFINITION. The instructions and events of the D512: one constructor per row of spec/opcode_table.json.
Instruction rows carry the common fields (02 R44) and the operand area of their format (02 R54 to R60); event rows
carry what names the unit they happen at. -/

namespace Sys2Proof

/-- The common fields below the opcode, bits [85:64] (R44); REUSE has no effect (R49; DEDUCED, log entry 131). -/
structure Hdr where
  /-- lookahead count -/
  la : BitVec 4
  /-- guard negate -/
  gn : Bool
  /-- guard predicate -/
  gp : BitVec 3
  /-- scope code, or a modifier of the class -/
  sc : BitVec 3
  /-- reuse hints for A, B and C -/
  reuse : BitVec 3
  /-- modifier byte -/
  mod : BitVec 8
  deriving DecidableEq, Repr, Inhabited

/-- Format R (R54). -/
structure OpR where
  aux : BitVec 8
  pn : Bool
  p : BitVec 3
  c : BitVec 9
  b : BitVec 9
  a : BitVec 9
  d : BitVec 9
  deriving DecidableEq, Repr, Inhabited

/-- Format I (R55). -/
structure OpI where
  imm : BitVec 32
  pn : Bool
  p : BitVec 3
  a : BitVec 9
  d : BitVec 9
  deriving DecidableEq, Repr, Inhabited

/-- Format M (R56). -/
structure OpM where
  member : BitVec 3
  space : BitVec 3
  offset : BitVec 24
  scale : BitVec 2
  ix : Bool
  index : BitVec 9
  base : BitVec 9
  data : BitVec 9
  deriving DecidableEq, Repr, Inhabited

/-- Format B (R57). -/
structure OpB where
  disp : BitVec 32
  tslot : BitVec 3
  l : BitVec 9
  a : BitVec 9
  deriving DecidableEq, Repr, Inhabited

/-- Format X (R58). -/
structure OpX where
  cnt : BitVec 8
  y : BitVec 24
  w : BitVec 16
  sl : BitVec 3
  rpe : Bool
  rp : BitVec 5
  tile : BitVec 4
  deriving DecidableEq, Repr, Inhabited

/-- Format G (R59). -/
structure OpG where
  imm16 : BitVec 16
  sub : BitVec 3
  set : BitVec 9
  c : BitVec 9
  b : BitVec 9
  a : BitVec 9
  d : BitVec 9
  deriving DecidableEq, Repr, Inhabited

/-- Format S (R60). -/
structure OpS where
  imm : BitVec 32
  sreg : BitVec 8
  a : BitVec 9
  deriving DecidableEq, Repr, Inhabited

/-- The units whose detected errors R444 retries. -/
inductive EccUnit where
  | talusLine | sramBank | core | l2Slice | port
  deriving DecidableEq, Repr, Inhabited

/-- A detected array error (R444): where, in which unit, whether its retry failed, and the context of the access. -/
structure EccError where
  die : Nat
  /-- the index of the error counter of R444 that a transient error of the unit raises, 0 to 5 -/
  counter : Nat
  unit : EccUnit
  /-- a physical line, a cluster number times 32 plus a bank, a core, a die, or a port -/
  index : Nat
  lasting : Bool
  ctx : Nat
  deriving DecidableEq, Repr, Inhabited

/-- What a start finds (R446). -/
structure BootChecks where
  rsaOk : Bool
  slhOk : Bool
  imageOk : Bool
  selfTestOk : Bool
  talusOk : Bool
  versionOk : Bool
  deriving DecidableEq, Repr, Inhabited

/-- An access that arrives from a Phoath peer (R443). -/
inductive RemoteAccess where
  | load (addr count : Nat)
  | store (addr : Nat) (bytes : List Byte)
  /-- an integer atomic of R245 on a word of `bytes` bytes -/
  | atomic (addr bytes op operand : Nat) (signed : Bool)
  /-- a compare and swap of R247 -/
  | compare (addr bytes expected new : Nat)
  /-- a float operation of R245: two bf16 elements, or one f32 -/
  | float (addr : Nat) (bf : Bool) (op operand : Nat)
  deriving DecidableEq, Repr, Inhabited

/-- One row of spec/opcode_table.json each, in the table's order. -/
inductive Instr where
  /-- `NOP` (R61, 0x0:0x00, format S): No-operation instruction that still counts for lookahead and program-counter advance. -/
  | nop (h : Hdr) (o : OpS)
  /-- `BRK` (R135, 0x0:0x01, format S): Raises the breakpoint trap with IMM as trap information, saving the next slot. -/
  | brk (h : Hdr) (o : OpS)
  /-- `SREAD` (R136, 0x0:0x02, format S): Reads a special register into a vector or uniform register. -/
  | sread (h : Hdr) (o : OpS)
  /-- `SWRITE` (R136, 0x0:0x03, format S): Writes a special register from a register under the field rules of R18 to R20. -/
  | swrite (h : Hdr) (o : OpS)
  /-- `CYCRD` (R137, 0x0:0x04, format R): Reads the 64-bit core cycle counter into a register pair. -/
  | cycrd (h : Hdr) (o : OpR)
  /-- `HINT` (R135, 0x0:0x05, format S): Accepts any immediate and has no architectural effect. -/
  | hint (h : Hdr) (o : OpS)
  /-- `TRAP` (R412, 0x0:0x06, format S): Raises the SOFTWARE trap with IMM as trap information. -/
  | trap (h : Hdr) (o : OpS)
  /-- `RETT` (R412, 0x0:0x07, format S): Returns from a trap handler to the saved program counter and clears INH. -/
  | rett (h : Hdr) (o : OpS)
  /-- `RGN` (R412, 0x0:0x08, format S): Reads a region-table entry, writes pending results and opens idempotent region n. -/
  | rgn (h : Hdr) (o : OpS)
  /-- `RGNEND` (R412, 0x0:0x09, format S): Closes any open idempotent region. -/
  | rgnend (h : Hdr) (o : OpS)
  /-- `BRA` (R129, 0x1:0x00, format B): Sends each guarded active lane to the target, splitting the fragment if lanes disagree. -/
  | bra (h : Hdr) (o : OpB)
  /-- `BRALL` (R129, 0x1:0x01, format B): Branches the whole fragment when the guard holds in every active lane. -/
  | brall (h : Hdr) (o : OpB)
  /-- `BRANY` (R129, 0x1:0x02, format B): Branches the whole fragment when the guard holds in at least one active lane. -/
  | brany (h : Hdr) (o : OpB)
  /-- `BRX` (R130, 0x1:0x03, format B): Indirect branch to a target held in a uniform or per-lane register pair. -/
  | brx (h : Hdr) (o : OpB)
  /-- `CALL` (R131, 0x1:0x04, format B): Writes the return program counter to the link pair and branches to a direct target. -/
  | call (h : Hdr) (o : OpB)
  /-- `CALLX` (R131, 0x1:0x05, format B): Writes the link pair and branches to a target held in a register pair. -/
  | callx (h : Hdr) (o : OpB)
  /-- `RET` (R130, 0x1:0x06, format B): Returns to the program counter held in a register pair, as brx. -/
  | ret (h : Hdr) (o : OpB)
  /-- `LOOP` (R132, 0x1:0x07, format B): Decrements a counter register and branches back while the count stays non-zero. -/
  | loop (h : Hdr) (o : OpB)
  /-- `MRG` (R133, 0x1:0x08, format B): Sets the fragment's pending reconvergence address for its next split. -/
  | mrg (h : Hdr) (o : OpB)
  /-- `MRGX` (R133, 0x1:0x09, format B): Sets the pending reconvergence address from a uniform pair. -/
  | mrgx (h : Hdr) (o : OpB)
  /-- `ADD` (R115, 0x2:0x00, format R): Integer add with wrap or saturation. -/
  | add (h : Hdr) (o : OpR)
  /-- `ADDC` (R116, 0x2:0x01, format R): Unsigned add with carry in and carry out through a predicate. -/
  | addc (h : Hdr) (o : OpR)
  /-- `SUB` (R115, 0x2:0x02, format R): Integer subtract with wrap or saturation. -/
  | sub (h : Hdr) (o : OpR)
  /-- `SUBB` (R116, 0x2:0x03, format R): Unsigned subtract with borrow in and borrow out through a predicate. -/
  | subb (h : Hdr) (o : OpR)
  /-- `ADDI` (R115, 0x2:0x04, format I): Integer add of a 32-bit immediate. -/
  | addi (h : Hdr) (o : OpI)
  /-- `MUL` (R115, 0x2:0x05, format R): Integer multiply, low bits, with wrap or saturation. -/
  | mul (h : Hdr) (o : OpR)
  /-- `MULHI` (R115, 0x2:0x06, format R): High half of the integer product. -/
  | mulhi (h : Hdr) (o : OpR)
  /-- `MULW` (R115, 0x2:0x07, format R): 32 by 32 multiply written as a 64-bit result. -/
  | mulw (h : Hdr) (o : OpR)
  /-- `MAD` (R115, 0x2:0x08, format R): Integer multiply-add. -/
  | mad (h : Hdr) (o : OpR)
  /-- `MADW` (R115, 0x2:0x09, format R): Widening multiply-add into a 64-bit accumulator pair. -/
  | madw (h : Hdr) (o : OpR)
  /-- `DIV` (R117, 0x2:0x0A, format R): Long-latency integer quotient with DIVZ handling. -/
  | div (h : Hdr) (o : OpR)
  /-- `REM` (R117, 0x2:0x0B, format R): Long-latency integer remainder with DIVZ handling. -/
  | rem (h : Hdr) (o : OpR)
  /-- `DIVREM` (R117, 0x2:0x0C, format R): Long-latency quotient and remainder into two destinations. -/
  | divrem (h : Hdr) (o : OpR)
  /-- `MIN` (R115, 0x2:0x0D, format R): Integer minimum. -/
  | min (h : Hdr) (o : OpR)
  /-- `MAX` (R115, 0x2:0x0E, format R): Integer maximum. -/
  | max (h : Hdr) (o : OpR)
  /-- `CLAMP` (R115, 0x2:0x0F, format R): Integer clamp min(max(a, b), c). -/
  | clamp (h : Hdr) (o : OpR)
  /-- `ABS` (R115, 0x2:0x10, format R): Integer absolute value. -/
  | abs (h : Hdr) (o : OpR)
  /-- `SAD` (R115, 0x2:0x11, format R): Absolute difference plus accumulator. -/
  | sad (h : Hdr) (o : OpR)
  /-- `DOT4` (R114, 0x2:0x12, format R): Four-way byte dot product plus accumulator. -/
  | dot4 (h : Hdr) (o : OpR)
  /-- `DOT2` (R114, 0x2:0x13, format R): Two-way halfword dot product plus accumulator. -/
  | dot2 (h : Hdr) (o : OpR)
  /-- `LEA` (R118, 0x2:0x14, format R): 64-bit address of base plus shifted extended index. -/
  | lea (h : Hdr) (o : OpR)
  /-- `LEAI` (R118, 0x2:0x15, format I): 64-bit address of base plus sign-extended immediate. -/
  | leai (h : Hdr) (o : OpI)
  /-- `AND` (R119, 0x3:0x00, format R): Bitwise AND. -/
  | and (h : Hdr) (o : OpR)
  /-- `OR` (R119, 0x3:0x01, format R): Bitwise OR. -/
  | or (h : Hdr) (o : OpR)
  /-- `XOR` (R119, 0x3:0x02, format R): Bitwise XOR. -/
  | xor (h : Hdr) (o : OpR)
  /-- `NOT` (R119, 0x3:0x03, format R): Bitwise NOT. -/
  | not (h : Hdr) (o : OpR)
  /-- `TERN` (R120, 0x3:0x04, format R): Three-input bitwise function given by a function byte. -/
  | tern (h : Hdr) (o : OpR)
  /-- `BINI` (R120, 0x3:0x05, format I): Two-input bitwise function of a register and an immediate. -/
  | bini (h : Hdr) (o : OpI)
  /-- `SHL` (R121, 0x3:0x06, format R): Logical shift left. -/
  | shl (h : Hdr) (o : OpR)
  /-- `SHR` (R121, 0x3:0x07, format R): Logical shift right. -/
  | shr (h : Hdr) (o : OpR)
  /-- `SRA` (R121, 0x3:0x08, format R): Arithmetic shift right. -/
  | sra (h : Hdr) (o : OpR)
  /-- `FSL` (R121, 0x3:0x09, format R): Funnel shift left of a 64-bit concatenation. -/
  | fsl (h : Hdr) (o : OpR)
  /-- `FSR` (R121, 0x3:0x0A, format R): Funnel shift right of a 64-bit concatenation. -/
  | fsr (h : Hdr) (o : OpR)
  /-- `POPC` (R119, 0x3:0x0B, format R): Population count. -/
  | popc (h : Hdr) (o : OpR)
  /-- `CLZ` (R119, 0x3:0x0C, format R): Count of leading zeros. -/
  | clz (h : Hdr) (o : OpR)
  /-- `BREV` (R119, 0x3:0x0D, format R): Bit reversal. -/
  | brev (h : Hdr) (o : OpR)
  /-- `BFX` (R122, 0x3:0x0E, format R): Bit-field extract with sign or zero extension. -/
  | bfx (h : Hdr) (o : OpR)
  /-- `BFI` (R122, 0x3:0x0F, format R): Bit-field insert. -/
  | bfi (h : Hdr) (o : OpR)
  /-- `PERM` (R123, 0x3:0x10, format R): Byte permute from an eight-byte pool with optional sign replication. -/
  | perm (h : Hdr) (o : OpR)
  /-- `SETP` (R124, 0x4:0x00, format R): Integer compare writing a predicate. -/
  | setp (h : Hdr) (o : OpR)
  /-- `SETPI` (R124, 0x4:0x01, format I): Integer compare with an immediate writing a predicate. -/
  | setpi (h : Hdr) (o : OpI)
  /-- `FSETP` (R124, 0x4:0x02, format R): Floating compare writing a predicate. -/
  | fsetp (h : Hdr) (o : OpR)
  /-- `PLOP` (R125, 0x4:0x03, format R): Three-input predicate logic function. -/
  | plop (h : Hdr) (o : OpR)
  /-- `SEL` (R126, 0x4:0x04, format R): Selects A or B by a predicate. -/
  | sel (h : Hdr) (o : OpR)
  /-- `SELI` (R126, 0x4:0x05, format I): Selects A or an immediate by a predicate. -/
  | seli (h : Hdr) (o : OpI)
  /-- `MOV` (R126, 0x4:0x06, format R): Register move, including broadcast and lowest-lane forms. -/
  | mov (h : Hdr) (o : OpR)
  /-- `MOVI` (R126, 0x4:0x07, format I): Moves an immediate into a register. -/
  | movi (h : Hdr) (o : OpI)
  /-- `P2R` (R127, 0x4:0x08, format R): Packs predicates p0 to p7 into a register. -/
  | p2r (h : Hdr) (o : OpR)
  /-- `REG_TO_PRED` (R127, 0x4:0x09, format R): Writes selected predicates from register bits under a mask. -/
  | regToPred (h : Hdr) (o : OpR)
  /-- `FADD` (R142, 0x5:0x00, format R): f32 add rounded once. -/
  | fadd (h : Hdr) (o : OpR)
  /-- `FSUB` (R142, 0x5:0x01, format R): f32 subtract rounded once. -/
  | fsub (h : Hdr) (o : OpR)
  /-- `FMUL` (R142, 0x5:0x02, format R): f32 multiply rounded once. -/
  | fmul (h : Hdr) (o : OpR)
  /-- `FMA` (R142, 0x5:0x03, format R): f32 fused multiply-add rounded once. -/
  | fma (h : Hdr) (o : OpR)
  /-- `FMIN` (R144, 0x5:0x04, format R): f32 minimum with NaN and signed-zero rules. -/
  | fmin (h : Hdr) (o : OpR)
  /-- `FMAX` (R144, 0x5:0x05, format R): f32 maximum with NaN and signed-zero rules. -/
  | fmax (h : Hdr) (o : OpR)
  /-- `FRND` (R145, 0x5:0x06, format R): Rounds an f32 value to an integral value. -/
  | frnd (h : Hdr) (o : OpR)
  /-- `FCLASS` (R146, 0x5:0x07, format R): Writes the class mask of an f32 value. -/
  | fclass (h : Hdr) (o : OpR)
  /-- `FADD2` (R142, 0x5:0x08, format R): Packed f16 or bf16 add. -/
  | fadd2 (h : Hdr) (o : OpR)
  /-- `FMUL2` (R142, 0x5:0x09, format R): Packed f16 or bf16 multiply. -/
  | fmul2 (h : Hdr) (o : OpR)
  /-- `FMA2` (R142, 0x5:0x0A, format R): Packed f16 or bf16 fused multiply-add. -/
  | fma2 (h : Hdr) (o : OpR)
  /-- `FDOT2` (R142, 0x5:0x0B, format R): Two-element packed dot product accumulated into f32. -/
  | fdot2 (h : Hdr) (o : OpR)
  /-- `FEX2` (R148, 0x5:0x0C, format R): Long-latency base-2 exponential by a fixed algorithm. -/
  | fex2 (h : Hdr) (o : OpR)
  /-- `FLG2` (R149, 0x5:0x0D, format R): Long-latency base-2 logarithm by a fixed algorithm. -/
  | flg2 (h : Hdr) (o : OpR)
  /-- `FRCP` (R150, 0x5:0x0E, format R): Long-latency correctly rounded reciprocal. -/
  | frcp (h : Hdr) (o : OpR)
  /-- `FRSQ` (R150, 0x5:0x0F, format R): Long-latency correctly rounded reciprocal square root. -/
  | frsq (h : Hdr) (o : OpR)
  /-- `FSIN` (R151, 0x5:0x10, format R): Long-latency sine with exact range reduction. -/
  | fsin (h : Hdr) (o : OpR)
  /-- `FCOS` (R151, 0x5:0x11, format R): Long-latency cosine with exact range reduction. -/
  | fcos (h : Hdr) (o : OpR)
  /-- `CVT` (R153, 0x6:0x00, format R): Converts between formats through an internal f32 value. -/
  | cvt (h : Hdr) (o : OpR)
  /-- `PACK` (R154, 0x6:0x01, format R): Rounds two f32 values into a packed f16 or bf16 register. -/
  | pack (h : Hdr) (o : OpR)
  /-- `UNPACK` (R154, 0x6:0x02, format R): Expands a packed f16 or bf16 register into two f32 registers. -/
  | unpack (h : Hdr) (o : OpR)
  /-- `QUANT` (R155, 0x6:0x03, format R): Quantises a value to a q8 or q4 code. -/
  | quant (h : Hdr) (o : OpR)
  /-- `DEQUANT` (R155, 0x6:0x04, format R): Dequantises a q8 or q4 code to a float. -/
  | dequant (h : Hdr) (o : OpR)
  /-- `PACK4` (R156, 0x6:0x05, format R): Packs the low nibbles of eight bytes into eight q4 codes. -/
  | pack4 (h : Hdr) (o : OpR)
  /-- `SHFL` (R177, 0x7:0x00, format R): Exchanges values between lanes by a register-supplied source rule. -/
  | shfl (h : Hdr) (o : OpR)
  /-- `SHFLI` (R177, 0x7:0x01, format I): Exchanges values between lanes by an immediate source rule. -/
  | shfli (h : Hdr) (o : OpI)
  /-- `VOTE` (R179, 0x7:0x02, format R): Writes an every, some or same vote of a predicate. -/
  | vote (h : Hdr) (o : OpR)
  /-- `PMASK` (R179, 0x7:0x03, format R): Writes the lane mask of a predicate. -/
  | pmask (h : Hdr) (o : OpR)
  /-- `LFOLD` (R179, 0x7:0x04, format R): Reduces a register across participating lanes. -/
  | lfold (h : Hdr) (o : OpR)
  /-- `MATCH` (R179, 0x7:0x05, format R): Writes in each lane the mask of lanes holding an equal value. -/
  | matchLanes (h : Hdr) (o : OpR)
  /-- `RDLANE` (R179, 0x7:0x06, format R): Reads one lane's value into all participants. -/
  | rdlane (h : Hdr) (o : OpR)
  /-- `DDX` (R181, 0x7:0x07, format R): Horizontal quad derivative. -/
  | ddx (h : Hdr) (o : OpR)
  /-- `DDY` (R181, 0x7:0x08, format R): Vertical quad derivative. -/
  | ddy (h : Hdr) (o : OpR)
  /-- `RPINIT` (R184, 0x8:0x00, format I): Sets the arrival count of a rendezvous point. -/
  | rpinit (h : Hdr) (o : OpI)
  /-- `RPARR` (R185, 0x8:0x01, format R): Arrives at a rendezvous point, returning the phase and last-arriver flag. -/
  | rparr (h : Hdr) (o : OpR)
  /-- `RPWAIT` (R188, 0x8:0x02, format R): Waits until a phase of a rendezvous point has completed, then acquires. -/
  | rpwait (h : Hdr) (o : OpR)
  /-- `RPARW` (R188, 0x8:0x03, format R): Arrives at a rendezvous point and waits for its own phase. -/
  | rparw (h : Hdr) (o : OpR)
  /-- `RPBYTES` (R189, 0x8:0x04, format R): Adds byte counts to a rendezvous point's PEND. -/
  | rpbytes (h : Hdr) (o : OpR)
  /-- `YIELD` (R190, 0x8:0x05, format S): Resets the group's wait age for issue. -/
  | yield (h : Hdr) (o : OpS)
  /-- `YIELDTO` (R191, 0x8:0x06, format B): Continues at a target when a buffer handle becomes FULL. -/
  | yieldto (h : Hdr) (o : OpB)
  /-- `SLEEP` (R190, 0x8:0x07, format S): Makes the group not ready for a number of cycles. -/
  | sleep (h : Hdr) (o : OpS)
  /-- `EXIT` (R32, 0x8:0x08, format S): Clears LIVE in guarded lanes and ends the group when no lane is live. -/
  | exit (h : Hdr) (o : OpS)
  /-- `RENDEZVOUS_ARRIVAL_COUNT` (R185): An arrival is counted into ARR or NEXT once its release holds. -/
  | rendezvousArrivalCount (arrival : Nat)
  /-- `SLEEP_EXPIRY` (R190): A sleeping group becomes ready again after its cycle count. -/
  | sleepExpiry (group : Nat)
  /-- `LD` (R238, 0x9:0x00, format M): Per-lane load from a memory space. -/
  | ld (h : Hdr) (o : OpM)
  /-- `ST` (R238, 0x9:0x01, format M): Per-lane store to a memory space. -/
  | st (h : Hdr) (o : OpM)
  /-- `LDACQ` (R240, 0x9:0x02, format M): Load followed by an acquire at a scope. -/
  | ldacq (h : Hdr) (o : OpM)
  /-- `STREL` (R240, 0x9:0x03, format M): Release at a scope followed by a store. -/
  | strel (h : Hdr) (o : OpM)
  /-- `LDK` (R238, 0x9:0x04, format M): One uniform load into a uniform register. -/
  | ldk (h : Hdr) (o : OpM)
  /-- `STK` (R238, 0x9:0x05, format M): One uniform store from a uniform register. -/
  | stk (h : Hdr) (o : OpM)
  /-- `LDW` (R239, 0x9:0x06, format M): Wide 8- or 16-byte load into 2 or 4 registers. -/
  | ldw (h : Hdr) (o : OpM)
  /-- `STW` (R239, 0x9:0x07, format M): Wide 8- or 16-byte store from 2 or 4 registers. -/
  | stw (h : Hdr) (o : OpM)
  /-- `FPUSH` (R242, 0x9:0x08, format M): Appends one entry per guarded lane to a FIFO bank. -/
  | fpush (h : Hdr) (o : OpM)
  /-- `FPOP` (R242, 0x9:0x09, format M): Removes one entry per guarded lane from a FIFO bank. -/
  | fpop (h : Hdr) (o : OpM)
  /-- `FPEEK` (R242, 0x9:0x0A, format M): Reads FIFO entries without removing them. -/
  | fpeek (h : Hdr) (o : OpM)
  /-- `PREF` (R243, 0x9:0x0B, format M): Prefetches lines into caches, dropping any failing request silently. -/
  | pref (h : Hdr) (o : OpM)
  /-- `FIFO_WAIT_SERVED` (R202): A waiting push or pop is served once room or entries are present. -/
  | fifoWaitServed (cluster : Nat) (bank : Nat)
  /-- `ATOM` (R246, 0xA:0x00, format M): Integer atomic read-modify-write at the home returning the old value. -/
  | atom (h : Hdr) (o : OpM)
  /-- `ATOMCAS` (R247, 0xA:0x01, format M): Atomic compare-and-swap at the home. -/
  | atomcas (h : Hdr) (o : OpM)
  /-- `ATOMF` (R246, 0xA:0x02, format M): Floating atomic read-modify-write at the home. -/
  | atomf (h : Hdr) (o : OpM)
  /-- `RED` (R248, 0xA:0x03, format M): Integer reduction at the home with no returned value. -/
  | red (h : Hdr) (o : OpM)
  /-- `RED_DET` (R249, 0xA:0x03, format M): Deterministic integer reduction appended to the core's sorted buffer. -/
  | redDet (h : Hdr) (o : OpM)
  /-- `REDF` (R248, 0xA:0x04, format M): Floating reduction at the home with no returned value. -/
  | redf (h : Hdr) (o : OpM)
  /-- `REDF_DET` (R249, 0xA:0x04, format M): Deterministic floating reduction appended to the core's sorted buffer. -/
  | redfDet (h : Hdr) (o : OpM)
  /-- `DFLUSH` (R250, 0xA:0x05, format S): Drains the team's deterministic reduction entries in key order. -/
  | dflush (h : Hdr) (o : OpS)
  /-- `FENCE_ACQ` (R222, 0xA:0x06, format S): Acquire fence ordering earlier loads before later accesses. -/
  | fenceAcq (h : Hdr) (o : OpS)
  /-- `FENCE_REL` (R222, 0xA:0x06, format S): Release fence with no effect of its own. -/
  | fenceRel (h : Hdr) (o : OpS)
  /-- `FENCE_AR` (R222, 0xA:0x06, format S): Acquire-release fence. -/
  | fenceAr (h : Hdr) (o : OpS)
  /-- `FENCE_SMP` (R225, 0xA:0x06, format S): Drops sampler cache lines in scope and waits for completion times. -/
  | fenceSmp (h : Hdr) (o : OpS)
  /-- `FWAIT` (R251, 0xA:0x07, format S): Stops all issue until the release conditions hold at a scope. -/
  | fwait (h : Hdr) (o : OpS)
  /-- `NGATH` (R252, 0xA:0x08, format M): Gathers 8 indexed words per lane through the near-data ALUs. -/
  | ngath (h : Hdr) (o : OpM)
  /-- `NSCAT` (R253, 0xA:0x09, format M): Scatters 8 indexed words per lane as separate stores. -/
  | nscat (h : Hdr) (o : OpM)
  /-- `CWB` (R254, 0xA:0x0A, format M): Waits until dirty copies of a line or block in scope are clean. -/
  | cwb (h : Hdr) (o : OpM)
  /-- `CINV` (R254, 0xA:0x0B, format M): Cleans and drops cached or sampler copies of a line or block. -/
  | cinv (h : Hdr) (o : OpM)
  /-- `CDISC` (R254, 0xA:0x0C, format M): Discards a line or block, leaving earlier-written values. -/
  | cdisc (h : Hdr) (o : OpM)
  /-- `ICINV` (R254, 0xA:0x0D, format M): Drops instruction-fetch copies of a line or block in scope. -/
  | icinv (h : Hdr) (o : OpM)
  /-- `STORE_PERFORM` (R211): A store, atomic or reduction takes effect at its home and returns completion times. -/
  | storePerform (store : Nat)
  /-- `RELEASE_COMPLETE` (R219): A waiting release completes once the die's E exceeds the scope's completion register. -/
  | releaseComplete (release : Nat)
  /-- `LONG_LATENCY_RESULT_LAND` (R30): A long-latency result and its flags are written when its lookahead window closes. -/
  | longLatencyResultLand (group : Nat)
  /-- `CPY` (R265, 0xB:0x00, format R): Issues one copy command from uniform registers. -/
  | cpy (h : Hdr) (o : OpR)
  /-- `CPYO` (R265, 0xB:0x01, format R): Issues one strided multi-row copy command. -/
  | cpyo (h : Hdr) (o : OpR)
  /-- `CPYQ` (R264, 0xB:0x02, format R): Reads a 64-byte command packet and issues it as a copy. -/
  | cpyq (h : Hdr) (o : OpR)
  /-- `HALLOC` (R272, 0xB:0x03, format R): Allocates a buffer handle in FILLING state. -/
  | halloc (h : Hdr) (o : OpR)
  /-- `HFREE` (R272, 0xB:0x04, format R): Frees a FULL or DRAINING buffer handle. -/
  | hfree (h : Hdr) (o : OpR)
  /-- `HWAIT_TAKE` (R272, 0xB:0x05, format R): Waits for a FULL handle and moves it to DRAINING. -/
  | hwaitTake (h : Hdr) (o : OpR)
  /-- `HWAIT_PEEK` (R272, 0xB:0x05, format R): Waits while a handle is FILLING without changing it. -/
  | hwaitPeek (h : Hdr) (o : OpR)
  /-- `HSTAT` (R272, 0xB:0x06, format R): Reads a handle's state and landed byte count. -/
  | hstat (h : Hdr) (o : OpR)
  /-- `PUBLISH` (R274, 0xB:0x07, format R): Swaps the visible and shadow backings of a publishable range at a stamp. -/
  | publish (h : Hdr) (o : OpR)
  /-- `PUBLISH_SWAP` (R229): The hub inverts VIS in every leaf of the range and sweeps translations. -/
  | publishSwap (publish : Nat)
  /-- `COPY_COMMAND_START` (R259): The copy engine starts the next accepted command when fewer than 8 are active. -/
  | copyCommandStart (cluster : Nat)
  /-- `COPY_CHUNK_LAND` (R260): A chunk lands, reducing PEND and adding to the handle's LANDED. -/
  | copyChunkLand (cluster : Nat) (command : Nat)
  /-- `COPY_SIGNAL_WRITE` (R262): After all chunks land and E passes CT_system, the signal word is stored. -/
  | copySignalWrite (cluster : Nat) (command : Nat)
  /-- `SPILL_RING_REFILL` (R266): Spilled copy commands are refilled into the engine queue in order. -/
  | spillRingRefill (cluster : Nat)
  /-- `CESPILLB_WRITE` (R266): Write of the spill ring base, ignored while commands are spilled. -/
  | cespillbWrite (cluster : Nat) (value : Nat)
  /-- `QUEUE_SLOT_DISPATCH` (R268): The queue watcher reads a ready slot, checks and dispatches it, then clears kind and advances ridx. -/
  | queueSlotDispatch (queue : Nat)
  /-- `TEAM_START` (R164): A team is placed on a core when room exists and its groups and sequencer start. -/
  | teamStart (launch : Nat) (team : Nat) (core : Nat) (base : Nat)
  /-- `LAUNCH_COMPLETION_RECORD` (R163): The completion record is written after all teams end and store completion times pass. -/
  | launchCompletionRecord (launch : Nat)
  /-- `ISSUE_CYCLE` (R168): Each quarter selects up to two instructions per cycle by class, age and port conflicts. -/
  | issueCycle (core : Nat) (quarter : Nat)
  /-- `ISSUE_PRIORITY_PROMOTION` (R168): A group ready for 1,024 cycles without issuing is promoted to class 3. -/
  | issuePriorityPromotion (group : Nat)
  /-- `XF_PIPE_GRANT` (R170): The transform pipe accepts one request per cycle round-robin. -/
  | xfPipeGrant (core : Nat)
  /-- `XF_PIPE_REPLY` (R291): The transform pipe returns a reply in acceptance order, writing destinations. -/
  | xfPipeReply (core : Nat)
  /-- `XF_CVT` (R303, 0xC:0x00, format R): Converts a run of elements. -/
  | xfCvt (h : Hdr) (o : OpR)
  /-- `XF_QUANT` (R303, 0xC:0x01, format R): Quantises a run of elements. -/
  | xfQuant (h : Hdr) (o : OpR)
  /-- `XF_DEQUANT` (R303, 0xC:0x02, format R): Dequantises a run of elements. -/
  | xfDequant (h : Hdr) (o : OpR)
  /-- `XF_RKEY` (R304, 0xC:0x03, format R): Forms order-preserving radix keys or digits. -/
  | xfRkey (h : Hdr) (o : OpR)
  /-- `XF_HASH` (R305, 0xC:0x04, format R): Hashes a run of words into one masked word. -/
  | xfHash (h : Hdr) (o : OpR)
  /-- `XF_PENC` (R306, 0xC:0x05, format R): Writes sine and cosine positional encodings. -/
  | xfPenc (h : Hdr) (o : OpR)
  /-- `MLDA` (R295, 0xD:0x00, format X): Sets the sequencer's A source offset, stride and format. -/
  | mlda (h : Hdr) (o : OpX)
  /-- `MLDB` (R296, 0xD:0x01, format X): Latches a dense B tile from four groups' registers. -/
  | mldb (h : Hdr) (o : OpX)
  /-- `MLDBS` (R296, 0xD:0x02, format X): Latches a dense or batched B tile from team scratch. -/
  | mldbs (h : Hdr) (o : OpX)
  /-- `MSCALE` (R295, 0xD:0x03, format X): Loads the A scale table from a scale block. -/
  | mscale (h : Hdr) (o : OpX)
  /-- `MMA` (R297, 0xD:0x04, format X): One dense matrix multiply-accumulate into an accumulator tile. -/
  | mma (h : Hdr) (o : OpX)
  /-- `MMA_BAT` (R297, 0xD:0x05, format X): One batched multiply-accumulate of sixteen 16x16 products. -/
  | mmaBat (h : Hdr) (o : OpX)
  /-- `MZERO` (R298, 0xD:0x06, format X): Zeroes an accumulator tile. -/
  | mzero (h : Hdr) (o : OpX)
  /-- `MSTACC` (R298, 0xD:0x07, format X): Stores an accumulator tile to team scratch. -/
  | mstacc (h : Hdr) (o : OpX)
  /-- `MLDACC` (R298, 0xD:0x08, format X): Loads an accumulator tile from team scratch. -/
  | mldacc (h : Hdr) (o : OpX)
  /-- `MLOOP` (R299, 0xD:0x09, format X): Closes a counted stream loop at a nesting level. -/
  | mloop (h : Hdr) (o : OpX)
  /-- `MARR` (R300, 0xD:0x0A, format X): Sequencer arrival at a rendezvous point. -/
  | marr (h : Hdr) (o : OpX)
  /-- `MWAIT` (R300, 0xD:0x0B, format X): Sequencer wait on a rendezvous phase. -/
  | mwait (h : Hdr) (o : OpX)
  /-- `MEND` (R300, 0xD:0x0C, format X): Completes earlier operations and ends the sequencer. -/
  | mend (h : Hdr) (o : OpX)
  /-- `MATRIX_ARBITER_GRANT` (R290): At each operation boundary the arbiter grants the next matrix operation. -/
  | matrixArbiterGrant (core : Nat)
  /-- `ACCTAG_WRITE` (R284): System software writes a tile tag, taking effect at the next operation boundary. -/
  | acctagWrite (core : Nat) (tile : Nat) (value : Nat)
  /-- `ACC_WINDOW_WRITE` (R284): System software writes tile contents through the window at an operation boundary. -/
  | accWindowWrite (core : Nat) (tile : Nat) (offset : Nat) (value : Nat)
  /-- `NEVAL` (R316, 0xD:0x0D, format R): Enters per-lane network evaluation requests into the gather station. -/
  | neval (h : Hdr) (o : OpR)
  /-- `NEVSTAT_CNT` (R328, 0xD:0x0E, format R): Returns the group's unlanded neval request count. -/
  | nevstatCnt (h : Hdr) (o : OpR)
  /-- `NEVSTAT_KICK` (R328, 0xD:0x0E, format R): Returns the count and makes the group's slots eligible. -/
  | nevstatKick (h : Hdr) (o : OpR)
  /-- `NEVAL_TIMER_EXPIRY` (R322): A slot whose oldest request waited TIMER cycles becomes eligible. -/
  | nevalTimerExpiry (core : Nat) (slot : Nat)
  /-- `NEVAL_TILE_FIRE` (R322): An eligible slot fires a tile of up to 64 rows when a station tile is free. -/
  | nevalTileFire (core : Nat)
  /-- `NEVAL_LAYER` (R323): One layer of a station tile runs as one matrix operation. -/
  | nevalLayer (core : Nat) (tile : Nat)
  /-- `NEVAL_LANDING` (R316): A tile's results land into the lanes' output runs when windows close. -/
  | nevalLanding (core : Nat) (tile : Nat)
  /-- `NVSPILLB_WRITE` (R321): Write of the station spill ring base, ignored while requests are spilled. -/
  | nvspillbWrite (core : Nat) (value : Nat)
  /-- `SSNEW` (R367, 0xE:0x00, format G): Initialises a FREE sample-set record, building a GRID set at once. -/
  | ssnew (h : Hdr) (o : OpG)
  /-- `SSADD` (R368, 0xE:0x01, format G): Appends samples to a set, main or late segment. -/
  | ssadd (h : Hdr) (o : OpG)
  /-- `SSBUILD` (R369, 0xE:0x02, format G): Merges the late segment and builds the set's index. -/
  | ssbuild (h : Hdr) (o : OpG)
  /-- `SSBIND` (R370, 0xE:0x03, format G): Binds a BUILT set for one pass. -/
  | ssbind (h : Hdr) (o : OpG)
  /-- `SSREBIND` (R370, 0xE:0x04, format G): Merges, rebuilds and binds a set for a pass. -/
  | ssrebind (h : Hdr) (o : OpG)
  /-- `SSFREE` (R372, 0xE:0x05, format G): Frees a set, waiting for a bound pass to end. -/
  | ssfree (h : Hdr) (o : OpG)
  /-- `SSGET` (R373, 0xE:0x06, format G): Reads one record field as an acquire at device scope. -/
  | ssget (h : Hdr) (o : OpG)
  /-- `EMITV` (R374, 0xE:0x07, format G): Appends vertices to the group's vertex store. -/
  | emitv (h : Hdr) (o : OpG)
  /-- `EMIT` (R374, 0xE:0x08, format G): Emits triangles from stored vertices to the binner. -/
  | emit (h : Hdr) (o : OpG)
  /-- `EMITSP` (R374, 0xE:0x09, format G): Emits splats to the binner. -/
  | emitsp (h : Hdr) (o : OpG)
  /-- `RFLUSH` (R376, 0xE:0x0A, format G): Flushes the pool's lists and, with END, ends the pass. -/
  | rflush (h : Hdr) (o : OpG)
  /-- `FIN` (R377, 0xE:0x0B, format G): Reads a fragment input such as position, barycentrics or attributes. -/
  | fin (h : Hdr) (o : OpG)
  /-- `FOUT` (R378, 0xE:0x0C, format G): Records a fragment result channel. -/
  | fout (h : Hdr) (o : OpG)
  /-- `FDEP` (R378, 0xE:0x0D, format G): Records the fragment depth. -/
  | fdep (h : Hdr) (o : OpG)
  /-- `DISC` (R378, 0xE:0x0E, format G): Demotes guarded lanes to helpers. -/
  | disc (h : Hdr) (o : OpG)
  /-- `BINNER_INSERT` (R349): The binner claims blocks and appends an arriving primitive to its cells' lists. -/
  | binnerInsert (die : Nat)
  /-- `FLUSH_COMPLETE` (R350): A flush completes once its results are applied, resetting the pool. -/
  | flushComplete (set : Nat)
  /-- `FRAGMENT_LAUNCH` (R356): Fragment groups for covered samples start on the leaf's cluster. -/
  | fragmentLaunch (set : Nat) (core : Nat) (base : Nat)
  /-- `BLEND_APPLY` (R359): The blend unit applies a sample's results in primitive order. -/
  | blendApply (set : Nat) (sample : Nat)
  /-- `PASS_END` (R344): After the ending flush and completion times pass, STATE is stored BUILT. -/
  | passEnd (set : Nat)
  /-- `ALM` (R430, 0xF:0x00, format R): Reads the die's Almanac interval E and L. -/
  | alm (h : Hdr) (o : OpR)
  /-- `ALMHZ` (R430, 0xF:0x01, format R): Reads the die's copy of the horizon. -/
  | almhz (h : Hdr) (o : OpR)
  /-- `STCM` (R431, 0xF:0x02, format M): Stamped commit of 8-byte words with a commit wait until visible. -/
  | stcm (h : Hdr) (o : OpM)
  /-- `LDASOF` (R432, 0xF:0x03, format R): Reads a stamped word and its stamp as of a past time. -/
  | ldasof (h : Hdr) (o : OpR)
  /-- `ALMWAIT` (R433, 0xF:0x04, format S): Waits until the die's E exceeds T. -/
  | almwait (h : Hdr) (o : OpS)
  /-- `STCM_RECORD` (R422): A stcm lane arrives at its home and forms a version of its line. -/
  | stcmRecord (lane : Nat)
  /-- `HORIZON_UPDATE` (R420): The hub forms H from die floors and distributes it, making versions visible. -/
  | horizonUpdate (copies : List Nat)
  /-- `ALMANAC_ADVANCE` (R418): A die's E and L advance, releasing waits that depend on them. -/
  | almanacAdvance (time : Nat) (die : Nat) (e : Nat) (l : Nat)
  /-- `ALM_WIDE_TIMEOUT` (R426): A stamped instruction whose width wait exceeds CYCLES traps ALM_WIDE. -/
  | almWideTimeout (group : Nat)
  /-- `DIE_SILENT_TIMEOUT` (R445): A die silent for 2^20 hub cycles is marked unavailable and its contexts terminated. -/
  | dieSilentTimeout (die : Nat)
  /-- `LINE_PARITY_REFETCH` (R39): A fetch parity mismatch discards core copies and refetches the line once from L2. -/
  | lineParityRefetch (core : Nat) (line : Nat)
  /-- `EVENT_RECORD_WRITE` (R388): A source writes a record once the event ring has room. -/
  | eventRecordWrite (ctx : Nat)
  /-- `REPLAY_RECORD` (R398): A REPLAY write makes the parked agent translate again and continue. -/
  | replayRecord (ctx : Nat) (seq : Nat)
  /-- `ABANDON_RECORD` (R398): An abandon terminates the context, or ends only a queue copy. -/
  | abandonRecord (ctx : Nat) (seq : Nat)
  /-- `TLB_SWEEP_START` (R394): INVCTL GO starts a translation sweep for a page, range or context. -/
  | tlbSweepStart (value : Nat)
  /-- `TLB_SWEEP_DONE` (R394): A sweep completes and sets DONE, starting any queued sweep. -/
  | tlbSweepDone
  /-- `PREEMPT_REQUEST` (R406): PREEMPT GO starts switching out every team of a context. -/
  | preemptRequest (value : Nat)
  /-- `TEAM_SWITCH_OUT` (R407): A team stops, drains, saves its image and frees its slots. -/
  | teamSwitchOut (team : Nat)
  /-- `RESUME_REQUEST` (R406): RESUME GO makes switched-out teams eligible to run again. -/
  | resumeRequest (value : Nat)
  /-- `TEAM_RESUME` (R409): A switched-out team is placed and restored, regions restarting at rgn. -/
  | teamResume (team : Nat) (core : Nat) (base : Nat)
  /-- `MIGRATION_GO` (R227): MIGCTL GO checks and starts a page migration. -/
  | migrationGo (value : Nat)
  /-- `MIGRATION_SWAP` (R226): After leases expire the new leaf is written, TLBs swept and waiting accesses released. -/
  | migrationSwap
  /-- `BANK_MODE_REQUEST` (R198): A mode request on BANKMODE is checked and waits for the bank to be free. -/
  | bankModeRequest (cluster : Nat) (bank : Nat) (value : Nat)
  /-- `BANK_MODE_CHANGE` (R199): A free bank changes mode in one step, writing back cache lines as needed. -/
  | bankModeChange (cluster : Nat) (bank : Nat)
  /-- `BANK_MODE_TIMEOUT` (R198): A mode request not served within CYCLES is abandoned and traps BANK_BUSY. -/
  | bankModeTimeout (cluster : Nat) (bank : Nat)
  /-- `L2CLS_WRITE` (R207): Write of an L2 class register, rejected if quotas would exceed 16. -/
  | l2clsWrite (die : Nat) (cls : Nat) (value : Nat)
  /-- `CONTEXT_REGISTER` (R439): CTXCMD register command checks and registers a context descriptor. -/
  | contextRegister (value : Nat)
  /-- `CONTEXT_UNREGISTER` (R439): CTXCMD unregister command, terminating the context first if busy. -/
  | contextUnregister (value : Nat)
  /-- `QUEUE_REGISTER` (R440): QCMD register command checks and copies a queue descriptor. -/
  | queueRegister (value : Nat)
  /-- `QUEUE_UNREGISTER` (R440): QCMD unregister command removes a queue after its current slot. -/
  | queueUnregister (value : Nat)
  /-- `MEMMAP_WRITE` (R437): Write of a memory-map entry, accepted only without registered contexts. -/
  | memmapWrite (entry : Nat) (value : Nat)
  /-- `ERROR_COUNTER_CLEAR` (R444): Any write to a die error counter clears it. -/
  | errorCounterClear (die : Nat) (counter : Nat)
  /-- `HOST_MEM_WRITE` (R231): A host write over CXL.mem to device memory with back-invalidation. -/
  | hostMemWrite (addr : Nat) (bytes : List Byte)
  /-- `HOST_MEM_READ` (R231): A host read over CXL.mem of device memory. -/
  | hostMemRead (addr : Nat) (count : Nat)
  /-- `HOST_CACHE_INVALIDATE` (R224): A host write to host memory invalidates the device's CXL.cache copy. -/
  | hostCacheInvalidate (addr : Nat) (bytes : List Byte)
  /-- `PHOATH_FLIT_RESEND` (R443): A flit failing its CRC is resent, and the eighth resend takes the port down. -/
  | phoathFlitResend (port : Nat)
  /-- `ECC_RETRY` (R444): A detected array error is retried once, marking the unit failed if the retry fails. -/
  | eccRetry (err : EccError)
  /-- `BOOT_START` (R446): Reset starts firmware verification and brings the device to READY or records a failure. -/
  | bootStart (checks : BootChecks)
  /-- `BOOT_WATCHDOG` (R446): The boot watchdog expires before READY and records a failed start. -/
  | bootWatchdog
  /-- `BOOTCTL_RESTART` (R447): Host write to BOOTCTL clears FAILS and restarts from minimal mode. -/
  | bootctlRestart (value : Nat)
  /-- `POWER_STATE_REQUEST` (R448): Host write to PWRCTL requests a power state and cap. -/
  | powerStateRequest (value : Nat)
  /-- `REGISTER_WRITE` (R438): Write to a control register with no behaviour of its own. -/
  | registerWrite (offset : Nat) (size : Nat) (value : Nat)
  /-- `PHOATH_REMOTE_ACCESS` (R443): A remote load, store or atomic from a Phoath-linked peer arrives at this device and is served at its home under the lease and horizon rules. -/
  | phoathRemoteAccess (access : RemoteAccess)
  deriving DecidableEq, Repr, Inhabited

end Sys2Proof
end

