-- ==== Sys2Proof/Machine/Checks.lean ====
section
/-! DEFINITION. The checks of decode, order 5 of 02 R53: reserved and unused fields, LA, SC, MOD, REUSE and guard
values (R46 to R50, R52). A failure traps ILLEGAL_ENCODING. Register operands (order 6) are checked at execution,
where the role's register counts are known. -/

namespace Sys2Proof.Checks

/-! ### Common fields -/

/-- No LA and no SC. -/
def hPlain (h : Hdr) : Bool := h.la == 0 && h.sc == 0

/-- A long-latency opcode without scope: any LA (R47). -/
def hLong (h : Hdr) : Bool := h.sc == 0

/-- A synchronising opcode: a scope code 0 to 6 (R48). -/
def hSync (h : Hdr) : Bool := h.la == 0 && h.sc != 7

/-- A long-latency synchronising opcode. -/
def hLongSync (h : Hdr) : Bool := h.sc != 7

/-- A matrix-stream opcode: the always guard and no other common field (R46, R58, R292). -/
def hStream (h : Hdr) : Bool := h.la == 0 && !h.gn && h.gp == 7 && h.sc == 0 && h.reuse == 0

/-- The modifier byte is zero. -/
def m0 (h : Hdr) : Bool := h.mod == 0

/-- The format code in MOD[7:4]. -/
def fmt (h : Hdr) : Nat := Bits.field h.mod.toNat 4 4

/-- The low four bits of MOD. -/
def lo4 (h : Hdr) : Nat := Bits.field h.mod.toNat 0 4

/-! ### Unused fields of the formats (R52) -/

/-- Format R: the fields not named as used are zero. -/
def useR (o : OpR) (aux pnp c b a d : Bool) : Bool :=
  (aux || o.aux == 0) && (pnp || (!o.pn && o.p == 0)) && (c || o.c == 0) && (b || o.b == 0) && (a || o.a == 0) &&
    (d || o.d == 0)

/-- D, A and B. -/
def rDAB (o : OpR) : Bool := useR o false false false true true true

/-- D, A, B and C. -/
def rDABC (o : OpR) : Bool := useR o false false true true true true

/-- D and A. -/
def rDA (o : OpR) : Bool := useR o false false false false true true

/-- D alone. -/
def rD (o : OpR) : Bool := useR o false false false false false true

/-- Format I: IMM and D are used. -/
def useI (o : OpI) (pnp a : Bool) : Bool := (pnp || (!o.pn && o.p == 0)) && (a || o.a == 0)

/-- Format S: the fields not named as used are zero. -/
def useS (o : OpS) (imm sreg a : Bool) : Bool := (imm || o.imm == 0) && (sreg || o.sreg == 0) && (a || o.a == 0)

/-- Format B: a direct target, or DISP and TSLOT zero; L and A. TSLOT 5 to 7 is illegal (R57). -/
def useB (o : OpB) (target l a : Bool) : Bool :=
  o.tslot.toNat ≤ 4 && (target || (o.disp == 0 && o.tslot == 0)) && (l || o.l == 0) && (a || o.a == 0)

/-- Format G: the fields not named as used are zero. -/
def useG (o : OpG) (imm sub set c b a d : Bool) : Bool :=
  (imm || o.imm16 == 0) && (sub || o.sub == 0) && (set || o.set == 0) && (c || o.c == 0) && (b || o.b == 0) &&
    (a || o.a == 0) && (d || o.d == 0)

/-- Format X: RP is zero without RPE, SL at most 4 (R58, R292). -/
def useX (o : OpX) (cnt y w sl tile : Bool) : Bool :=
  (o.rpe || o.rp == 0) && o.sl.toNat ≤ 4 && (cnt || o.cnt == 0) && (y || o.y == 0) && (w || o.w == 0) &&
    (sl || o.sl == 0) && (tile || o.tile == 0)

/-! ### Classes 0x2 to 0x4 (R114, R119, R124, R126) -/

/-- Class 0x2: the format code is among `fs`, MOD[2:0] is zero, SAT only where it is allowed. -/
def mInt (h : Hdr) (fs : List Nat) (sat : Bool) : Bool :=
  fs.contains (fmt h) && (lo4 h == 0 || (sat && lo4 h == 8))

/-- All eight integer formats. -/
def all8 : List Nat := [0, 1, 2, 3, 4, 5, 6, 7]

/-- The format code is among `fs` and MOD[3:0] is zero. -/
def mFmt (h : Hdr) (fs : List Nat) : Bool := fs.contains (fmt h) && lo4 h == 0

/-- The count operand of a shift: AUX[7] selects the literal (R121). -/
def shiftAux (aux : BitVec 8) (reg : BitVec 9) : Bool := if aux.getLsbD 7 then reg == 0 else aux == 0

/-- A compare: the format is among `fs`, the code among `cs`. -/
def mCmp (h : Hdr) (fs cs : List Nat) : Bool := fs.contains (fmt h) && cs.contains (lo4 h)

/-- A predicate selector in a register field: bits [8:4] are zero (R125). -/
def predSel (r : BitVec 9) : Bool := r.toNat < 16

/-! ### Class 0x5 (R141) -/

/-- TY among `tys`, [5:3] zero, the mode rn unless all are allowed, SAT only where it is allowed. -/
def mFloat (h : Hdr) (tys : List Nat) (modes sat : Bool) : Bool :=
  let m := h.mod.toNat
  tys.contains (Bits.field m 6 2) && Bits.field m 3 3 == 0 && (modes || Bits.field m 0 2 == 0) &&
    (sat || !m.testBit 2)

/-! ### Class 0x6 (R152) -/

/-- LA is zero; SC holds SAT and the mode. -/
def hConv (h : Hdr) (modes sat : Bool) : Bool :=
  h.la == 0 && (modes || Bits.field h.sc.toNat 0 2 == 0) && (sat || !h.sc.getLsbD 2)

/-- A floating-point format code. -/
def isFloat (c : Nat) : Bool := c == 8 || c == 9 || c == 10

/-- A code of q8 or q4. -/
def isQuant (c : Nat) : Bool := c == 11 || c == 12

/-- The pairs of `cvt`: not both integers; SAT only with a float destination. -/
def cvtOk (h : Hdr) : Bool :=
  fmt h ≤ 10 && lo4 h ≤ 10 && (isFloat (fmt h) || (isFloat (lo4 h) && !h.sc.getLsbD 2))

/-! ### Class 0x7 (R176, R178, R180) -/

/-- MOD[7:4] among `fs`, MOD[3] zero, the mode among `ms`. -/
def mExch (h : Hdr) (fs ms : List Nat) : Bool := fs.contains (fmt h) && ms.contains (lo4 h)

/-! ### Class 0x8 (R183) -/

/-- RP in AUX[4:0], AUX[7:5] zero. -/
def rpAux (o : OpR) : Bool := o.aux.toNat < 32

/-! ### Classes 0x9 and 0xA (R56, R236, R244) -/

/-- The fields of format M: SPACE at most 4, MEMBER only with SPACE 2, INDEX and SCALE only with IX (R56). -/
def fM (o : OpM) : Bool :=
  o.space.toNat ≤ 4 && (o.space == 2 || o.member == 0) && (o.ix || (o.index == 0 && o.scale == 0))

/-- Class 0x9: the format is among `fs`; CH at most 2, and 0 for SPACE 1 to 3; CNT as allowed. -/
def mLd (h : Hdr) (o : OpM) (fs : List Nat) (cnt : Bool) : Bool :=
  let ch := Bits.field h.mod.toNat 2 2
  let n := Bits.field h.mod.toNat 0 2
  fs.contains (fmt h) && ch ≤ 2 && (o.space == 0 || o.space == 4 || ch == 0) && (if cnt then n ≤ 1 else n == 0) && fM o

/-- The format codes 0 to 10. -/
def upTo10 : List Nat := [0, 1, 2, 3, 4, 5, 6, 7, 8, 9, 10]

/-- Integer operations 0 to 6, and `.incw` on unsigned formats (R245). -/
def atomOk (h : Hdr) : Bool :=
  let op := Bits.field h.mod.toNat 0 3
  [2, 3, 6, 7].contains (fmt h) && (op != 7 || fmt h ≥ 6)

/-- Integer reductions: operations 0 to 5. -/
def redOk (h : Hdr) (det : Bool) : Bool :=
  [2, 3, 6, 7].contains (fmt h) && Bits.field h.mod.toNat 0 3 ≤ 5 && (h.mod.getLsbD 3 == det)

/-- Float atomics and reductions: operations 0 to 2, MOD[2] zero. -/
def floatOp (h : Hdr) : Bool := [9, 10].contains (fmt h) && Bits.field h.mod.toNat 0 3 ≤ 2

/-- Cache control: MOD[7:4] and DATA zero, `.ln` or `.blk` (R254). -/
def cacheOk (h : Hdr) (o : OpM) : Bool := fmt h == 0 && lo4 h ≤ 1 && o.data == 0 && fM o

/-! ### Class 0xB (R257, R263, R272) -/

/-- The format pairs of a copy (R257). -/
def copyPair (d s : Nat) : Bool :=
  (d == s && d ≤ 12) || (s ≤ 7 && isFloat d) || (isFloat s && (d ≤ 10 || isQuant d)) || (isQuant s && isFloat d)

/-! ### Class 0xC (R302) -/

/-- The element formats of `xf.cvt`. -/
def xfElem (c : Nat) : Bool := [0, 1, 2, 4, 5, 6, 8, 9, 10].contains c

/-- The count n in AUX. -/
def auxIn (o : OpR) (hi : Nat) : Bool := 1 ≤ o.aux.toNat && o.aux.toNat ≤ hi

/-! ### The table -/

/-- Order 5 of R53 for each instruction; events have no word. A REUSE bit of `trap`, `rett`, `rgn` and `rgnend`, which R411 gives as
zero, stands for a position that they do not read and is ignored (R49). DEDUCED, log entry 173. -/
def legal : Instr → Bool
  | .nop h o => hPlain h && m0 h && useS o false false false
  | .brk h o => hPlain h && m0 h && useS o true false false
  | .sread h o => hPlain h && m0 h && useS o false true true
  | .swrite h o => hPlain h && m0 h && useS o false true true
  | .cycrd h o => hPlain h && m0 h && rD o
  | .hint h o => hPlain h && m0 h && useS o true false false
  | .trap h o => hPlain h && m0 h && useS o true false false
  | .rett h o => hPlain h && m0 h && useS o false false false
  | .rgn h o => hPlain h && m0 h && useS o true false false && o.imm.toNat < 4096
  | .rgnend h o => hPlain h && m0 h && useS o false false false
  | .bra h o => hPlain h && m0 h && useB o true false false
  | .brall h o => hPlain h && m0 h && useB o true false false
  | .brany h o => hPlain h && m0 h && useB o true false false
  | .brx h o => hPlain h && m0 h && useB o false false true
  | .call h o => hPlain h && m0 h && useB o true true false
  | .callx h o => hPlain h && m0 h && useB o false true true
  | .ret h o => hPlain h && m0 h && useB o false false true
  | .loop h o => hPlain h && m0 h && useB o true false true
  | .mrg h o => hPlain h && m0 h && useB o true false false
  | .mrgx h o => hPlain h && m0 h && useB o false false true
  | .add h o => hPlain h && mInt h all8 true && rDAB o
  | .addc h o => hPlain h && mInt h [6, 7] false && useR o false true false true true true
  | .sub h o => hPlain h && mInt h all8 true && rDAB o
  | .subb h o => hPlain h && mInt h [6, 7] false && useR o false true false true true true
  | .addi h o => hPlain h && mInt h all8 true && useI o false true
  | .mul h o => hPlain h && mInt h all8 true && rDAB o
  | .mulhi h o => hPlain h && mInt h [2, 3, 6, 7] false && rDAB o
  | .mulw h o => hPlain h && mInt h [2, 6] false && rDAB o
  | .mad h o => hPlain h && mInt h all8 true && rDABC o
  | .madw h o => hPlain h && mInt h [2, 6] false && rDABC o
  | .div h o => hLong h && mInt h [2, 3, 6, 7] false && rDAB o
  | .rem h o => hLong h && mInt h [2, 3, 6, 7] false && rDAB o
  | .divrem h o => hLong h && mInt h [2, 3, 6, 7] false && rDABC o
  | .min h o => hPlain h && mInt h all8 false && rDAB o
  | .max h o => hPlain h && mInt h all8 false && rDAB o
  | .clamp h o => hPlain h && mInt h all8 false && rDABC o
  | .abs h o => hPlain h && mInt h [0, 1, 2, 3] true && rDA o
  | .sad h o => hPlain h && mInt h all8 true && rDABC o
  | .dot4 h o => hPlain h && mInt h [0, 4] true && rDABC o
  | .dot2 h o => hPlain h && mInt h [1, 5] true && rDABC o
  | .lea h o => hPlain h && mInt h [2, 6] false && useR o true false false true true true && o.aux.toNat ≤ 31
  | .leai h o => hPlain h && mInt h [3] false && useI o false true
  | .and h o => hPlain h && mFmt h [6, 7] && rDAB o
  | .or h o => hPlain h && mFmt h [6, 7] && rDAB o
  | .xor h o => hPlain h && mFmt h [6, 7] && rDAB o
  | .not h o => hPlain h && mFmt h [6, 7] && rDA o
  | .tern h o => hPlain h && mFmt h [6, 7] && useR o true false true true true true
  | .bini h o => hPlain h && mFmt h [6, 7] && useI o true true
  | .shl h o => hPlain h && mFmt h [6, 7] && useR o true false false true true true && shiftAux o.aux o.b
  | .shr h o => hPlain h && mFmt h [6, 7] && useR o true false false true true true && shiftAux o.aux o.b
  | .sra h o => hPlain h && mFmt h [6, 7] && useR o true false false true true true && shiftAux o.aux o.b
  | .fsl h o => hPlain h && mFmt h [6] && useR o true false true true true true && shiftAux o.aux o.c
  | .fsr h o => hPlain h && mFmt h [6] && useR o true false true true true true && shiftAux o.aux o.c
  | .popc h o => hPlain h && mFmt h [6, 7] && rDA o
  | .clz h o => hPlain h && mFmt h [6, 7] && rDA o
  | .brev h o => hPlain h && mFmt h [6, 7] && rDA o
  | .bfx h o => hPlain h && mFmt h [2, 3, 6, 7] && rDAB o
  | .bfi h o => hPlain h && mFmt h [6, 7] && rDABC o
  | .perm h o => hPlain h && mFmt h [6] && rDABC o
  | .setp h o => hPlain h && mCmp h all8 [0, 1, 2, 3, 4, 5] && !o.pn && useR o false true false true true false
  | .setpi h o => hPlain h && mCmp h all8 [0, 1, 2, 3, 4, 5] && !o.pn && o.d == 0 && useI o true true
  | .fsetp h o => hPlain h && mCmp h [8, 9, 10] [0, 1, 2, 3, 4, 5, 6, 8, 9, 10, 11, 12, 13, 14] && !o.pn &&
      useR o false true false true true false
  | .plop h o => hPlain h && m0 h && !o.pn && predSel o.a && predSel o.b && predSel o.c && o.d == 0
  | .sel h o => hPlain h && mFmt h [2, 3, 6, 7, 10] && useR o false true false true true true
  | .seli h o => hPlain h && mFmt h [2, 6, 10] && useI o true true
  | .mov h o => hPlain h && mFmt h [2, 3, 6, 7, 10] && rDA o
  | .movi h o => hPlain h && mFmt h [2, 3, 6, 7, 10] && useI o false false
  | .p2r h o => hPlain h && m0 h && rD o
  | .regToPred h o => hPlain h && m0 h && useR o true false false false true false
  | .fadd h o => hPlain h && mFloat h [0] true true && rDAB o
  | .fsub h o => hPlain h && mFloat h [0] true true && rDAB o
  | .fmul h o => hPlain h && mFloat h [0] true true && rDAB o
  | .fma h o => hPlain h && mFloat h [0] true true && rDABC o
  | .fmin h o => hPlain h && mFloat h [0] false true && rDAB o
  | .fmax h o => hPlain h && mFloat h [0] false true && rDAB o
  | .frnd h o => hPlain h && mFloat h [0] true false && rDA o
  | .fclass h o => hPlain h && mFloat h [0] false false && rDA o
  | .fadd2 h o => hPlain h && mFloat h [1, 2] true true && rDAB o
  | .fmul2 h o => hPlain h && mFloat h [1, 2] true true && rDAB o
  | .fma2 h o => hPlain h && mFloat h [1, 2] true true && rDABC o
  | .fdot2 h o => hPlain h && mFloat h [1, 2] true true && rDABC o
  | .fex2 h o => hLong h && mFloat h [0] false true && rDA o
  | .flg2 h o => hLong h && mFloat h [0] false true && rDA o
  | .frcp h o => hLong h && mFloat h [0] false true && rDA o
  | .frsq h o => hLong h && mFloat h [0] false true && rDA o
  | .fsin h o => hLong h && mFloat h [0] false true && rDA o
  | .fcos h o => hLong h && mFloat h [0] false true && rDA o
  | .cvt h o => hConv h true true && cvtOk h && rDA o
  | .pack h o => hConv h true true && [8, 9].contains (fmt h) && lo4 h == 10 && rDAB o
  | .unpack h o => hConv h false true && fmt h == 10 && [8, 9].contains (lo4 h) && useR o false false true false true true
  | .quant h o => hConv h true false && isQuant (fmt h) && isFloat (lo4 h) && rDABC o
  | .dequant h o => hConv h true true && isFloat (fmt h) && isQuant (lo4 h) && rDABC o
  | .pack4 h o => hConv h false false && fmt h == 12 && lo4 h == 4 && rDAB o
  | .shfl h o => hPlain h && mExch h [6, 7] [0, 1, 2, 3] && !o.pn && useR o false true true true true true
  | .shfli h o => hPlain h && mExch h [6, 7] [0, 1, 2, 3] && !o.pn && useI o true true &&
      Bits.field o.imm.toNat 4 4 == 0 && o.imm.toNat < 65536
  | .vote h o => hPlain h && mExch h [0] [0, 1, 2] && !o.pn && predSel o.a && useR o false true false false true false
  | .pmask h o => hPlain h && m0 h && predSel o.a && rDA o
  | .lfold h o => hPlain h && mExch h [2, 3, 6, 7] [0, 1, 2, 3, 4, 5] && rDA o
  | .matchLanes h o => hPlain h && mExch h [6, 7] [0] && rDA o
  | .rdlane h o => hPlain h && mExch h [6, 7] [0] && !o.pn && o.aux.toNat < 8 && useR o true true false false true true
  | .ddx h o => hPlain h && mExch h [10] [0, 1] && rDA o
  | .ddy h o => hPlain h && mExch h [10] [0, 1] && rDA o
  | .rpinit h o => hPlain h && m0 h && useI o false false && o.d == 0 && Bits.field o.imm.toNat 10 6 == 0 &&
      Bits.field o.imm.toNat 21 11 == 0
  | .rparr h o => hSync h && m0 h && !o.pn && rpAux o && useR o true true false false false true
  | .rpwait h o => hSync h && m0 h && rpAux o && useR o true false false false true false
  | .rparw h o => hSync h && m0 h && !o.pn && rpAux o && useR o true true false false false true
  | .rpbytes h o => hPlain h && m0 h && rpAux o && useR o true false false false true false
  | .yield h o => hPlain h && m0 h && useS o false false false
  | .yieldto h o => hPlain h && m0 h && useB o true false true
  | .sleep h o => hPlain h && m0 h && useS o true false false
  | .exit h o => hPlain h && m0 h && useS o false false false
  | .ld h o => hLong h && mLd h o upTo10 false
  | .st h o => hPlain h && mLd h o upTo10 false
  | .ldacq h o => hLongSync h && mLd h o upTo10 false
  | .strel h o => hSync h && mLd h o upTo10 false
  | .ldk h o => hLong h && mLd h o upTo10 false
  | .stk h o => hPlain h && mLd h o upTo10 false
  | .ldw h o => hLong h && mLd h o [6] true
  | .stw h o => hPlain h && mLd h o [6] true
  | .fpush h o => hPlain h && mLd h o [6] false
  | .fpop h o => hLong h && mLd h o [6] false
  | .fpeek h o => hLong h && mLd h o [6] false
  | .pref h o => hPlain h && mLd h o [6] false && o.data == 0
  | .atom h o => hLongSync h && atomOk h && fM o
  | .atomcas h o => hLongSync h && [6, 7].contains (fmt h) && Bits.field h.mod.toNat 0 3 == 0 && fM o
  | .atomf h o => hLongSync h && floatOp h && fM o
  | .red h o => hSync h && redOk h false && fM o
  | .redDet h o => hSync h && redOk h true && fM o
  | .redf h o => hSync h && floatOp h && !h.mod.getLsbD 3 && fM o
  | .redfDet h o => hSync h && floatOp h && h.mod.getLsbD 3 && fM o
  | .dflush h o => hPlain h && m0 h && useS o false false false
  | .fenceAcq h o => hSync h && h.mod == 0 && useS o false false false
  | .fenceRel h o => hSync h && h.mod == 1 && useS o false false false
  | .fenceAr h o => hSync h && h.mod == 2 && useS o false false false
  | .fenceSmp h o => hSync h && h.mod == 3 && useS o false false false
  | .fwait h o => hSync h && m0 h && useS o false false false
  | .ngath h o => hLong h && mFmt h [6] && !o.ix && fM o
  | .nscat h o => hPlain h && mFmt h [6] && !o.ix && fM o
  | .cwb h o => hSync h && cacheOk h o
  | .cinv h o => hSync h && cacheOk h o
  | .cdisc h o => hSync h && cacheOk h o
  | .icinv h o => hSync h && cacheOk h o
  | .cpy h o => hPlain h && copyPair (fmt h) (lo4 h) && rDABC o
  | .cpyo h o => hPlain h && copyPair (fmt h) (lo4 h) && rDABC o
  | .cpyq h o => hPlain h && m0 h && useR o false false false false true false
  | .halloc h o => hPlain h && m0 h && o.aux.toNat ≤ 1 && useR o true false true true true false
  | .hfree h o => hPlain h && m0 h && useR o false false false false true false
  | .hwaitTake h o => hPlain h && m0 h && o.aux == 0 && useR o true false false false true false
  | .hwaitPeek h o => hPlain h && m0 h && o.aux == 1 && useR o true false false false true false
  | .hstat h o => hPlain h && m0 h && rDA o
  | .publish h o => hSync h && m0 h && rDAB o
  | .xfCvt h o => hLong h && xfElem (fmt h) && xfElem (lo4 h) && copyPair (fmt h) (lo4 h) && auxIn o 64 &&
      useR o true false false false true true
  | .xfQuant h o => hLong h && isQuant (fmt h) && isFloat (lo4 h) && auxIn o 64 && useR o true false true true true true
  | .xfDequant h o => hLong h && isFloat (fmt h) && isQuant (lo4 h) && auxIn o 64 && useR o true false true true true true
  | .xfRkey h o => hLong h && fmt h == 6 && xfElem (lo4 h) && auxIn o 64 && useR o true false false true true true
  | .xfHash h o => hLong h && fmt h == 6 && lo4 h == 6 && auxIn o 32 && useR o true false true true true true
  | .xfPenc h o => hLong h && isFloat (fmt h) && lo4 h == 10 && auxIn o 16 && useR o true false false false true true
  | .mlda h o => hStream h && mFmt h [9, 11] && useX o false true true false false
  | .mldb h o => hStream h && mFmt h [9, 11, 12] && o.cnt.toNat ≤ 31 && o.w.toNat < 256 && (fmt h != 9 || o.y == 0) &&
      useX o true true true false false
  | .mldbs h o => hStream h && mFmt h [9, 11, 12] && o.cnt.toNat ≤ 1 && useX o true true true false false
  | .mscale h o => hStream h && m0 h && o.cnt.toNat ≤ 1 && useX o true true false false false
  | .mma h o => hStream h && m0 h && useX o false true false false true
  | .mmaBat h o => hStream h && m0 h && useX o false true false false true
  | .mzero h o => hStream h && m0 h && useX o false false false false true
  | .mstacc h o => hStream h && m0 h && o.cnt.toNat ≤ 1 && useX o true true true false true
  | .mldacc h o => hStream h && m0 h && o.cnt.toNat ≤ 1 && useX o true true true false true
  | .mloop h o => hStream h && m0 h && o.cnt != 0 && o.w.toNat ≤ 3 && useX o true true true true false
  | .marr h o => hStream h && m0 h && o.rpe && useX o false false false false false
  | .mwait h o => hStream h && m0 h && o.rpe && useX o false false false false false
  | .mend h o => hStream h && m0 h && useX o false false false false false
  | .neval h o => hLong h && m0 h && rDAB o
  | .nevstatCnt h o => hPlain h && m0 h && o.aux == 0 && rD o
  | .nevstatKick h o => hPlain h && m0 h && o.aux == 1 && useR o true false false false false true
  | .ssnew h o => hLong h && m0 h && useG o false false true false false false true
  | .ssadd h o => hLong h && m0 h && useG o false false true false false true true
  | .ssbuild h o => hPlain h && m0 h && useG o false false true false false false true
  | .ssbind h o => hPlain h && m0 h && useG o false false true true true true true
  | .ssrebind h o => hPlain h && m0 h && useG o false false true true true true true
  | .ssfree h o => hPlain h && m0 h && useG o false false true false false false false
  | .ssget h o => hLong h && m0 h && useG o false true true false false false true
  | .emitv h o => hPlain h && m0 h && o.imm16.toNat ≤ 8 && useG o true false true false false true true
  | .emit h o => hPlain h && m0 h && useG o false false true false true true true
  | .emitsp h o => hPlain h && m0 h && useG o false false true false true true true
  | .rflush h o => hPlain h && m0 h && o.imm16.toNat ≤ 1 && useG o true false true false false false false
  | .fin h o => hLong h && m0 h && useG o true true false false false false true &&
      (if o.sub == 3 || o.sub == 4 then o.imm16.toNat ≤ 7 else o.imm16 == 0)
  | .fout h o => hPlain h && m0 h && useG o false true false false false true false
  | .fdep h o => hPlain h && m0 h && useG o false false false false false true false
  | .disc h o => hPlain h && m0 h && useG o false false false false false false false
  | .alm h o => hPlain h && m0 h && useR o false false true false false true
  | .almhz h o => hPlain h && m0 h && rD o
  | .stcm h o => hPlain h && m0 h && fM o
  | .ldasof h o => hLong h && m0 h && rDAB o
  | .almwait h o => hPlain h && m0 h && useS o false false true
  | .rendezvousArrivalCount _ => true
  | .sleepExpiry _ => true
  | .fifoWaitServed _ _ => true
  | .storePerform _ => true
  | .releaseComplete _ => true
  | .longLatencyResultLand _ => true
  | .publishSwap _ => true
  | .copyCommandStart _ => true
  | .copyChunkLand _ _ => true
  | .copySignalWrite _ _ => true
  | .spillRingRefill _ => true
  | .cespillbWrite _ _ => true
  | .queueSlotDispatch _ => true
  | .teamStart _ _ _ _ => true
  | .launchCompletionRecord _ => true
  | .issueCycle _ _ => true
  | .issuePriorityPromotion _ => true
  | .xfPipeGrant _ => true
  | .xfPipeReply _ => true
  | .matrixArbiterGrant _ => true
  | .acctagWrite _ _ _ => true
  | .accWindowWrite _ _ _ _ => true
  | .nevalTimerExpiry _ _ => true
  | .nevalTileFire _ => true
  | .nevalLayer _ _ => true
  | .nevalLanding _ _ => true
  | .nvspillbWrite _ _ => true
  | .binnerInsert _ => true
  | .flushComplete _ => true
  | .fragmentLaunch _ _ _ => true
  | .blendApply _ _ => true
  | .passEnd _ => true
  | .stcmRecord _ => true
  | .horizonUpdate _ => true
  | .almanacAdvance _ _ _ _ => true
  | .almWideTimeout _ => true
  | .dieSilentTimeout _ => true
  | .lineParityRefetch _ _ => true
  | .eventRecordWrite _ => true
  | .replayRecord _ _ => true
  | .abandonRecord _ _ => true
  | .tlbSweepStart _ => true
  | .tlbSweepDone => true
  | .preemptRequest _ => true
  | .teamSwitchOut _ => true
  | .resumeRequest _ => true
  | .teamResume _ _ _ => true
  | .migrationGo _ => true
  | .migrationSwap => true
  | .bankModeRequest _ _ _ => true
  | .bankModeChange _ _ => true
  | .bankModeTimeout _ _ => true
  | .l2clsWrite _ _ _ => true
  | .contextRegister _ => true
  | .contextUnregister _ => true
  | .queueRegister _ => true
  | .queueUnregister _ => true
  | .memmapWrite _ _ => true
  | .errorCounterClear _ _ => true
  | .hostMemWrite _ _ => true
  | .hostMemRead _ _ => true
  | .hostCacheInvalidate _ _ => true
  | .phoathFlitResend _ => true
  | .eccRetry _ => true
  | .bootStart _ => true
  | .bootWatchdog => true
  | .bootctlRestart _ => true
  | .powerStateRequest _ => true
  | .registerWrite _ _ _ => true
  | .phoathRemoteAccess _ => true

end Sys2Proof.Checks
end

