-- ==== Sys2Proof/WellFormed.lean ====
section
/-! DEFINITION. Well-formed instructions: those whose word decodes without ILLEGAL_ENCODING (02 R44 to R60). The
checks themselves stand in Machine/Checks.lean. -/

namespace Sys2Proof

/-- The fields of an instruction satisfy the checks of decode, order 5 of R53. -/
def Instr.wellFormed (i : Instr) : Bool := Checks.legal i

end Sys2Proof
end

