-- ==== Sys2Proof/Decode.lean ====
section
/-! DEFINITION. Decoding and encoding of the 96-bit instruction words (02 R44 to R60, 05 R103 to R109). Decode is total:
an unassigned opcode or one of the wrong kind is ILLEGAL_OPCODE, a word whose fields are not legal is
ILLEGAL_ENCODING. -/

namespace Sys2Proof

/-! ### Fields of a word -/

/-- The common fields, bits [85:64] (R44). -/
def hdrOf (w : IWord) : Hdr :=
  ⟨w.extractLsb' 82 4, w.getLsbD 81, w.extractLsb' 78 3, w.extractLsb' 75 3, w.extractLsb' 72 3, w.extractLsb' 64 8⟩

/-- Format R (R54). -/
def opROf (w : IWord) : OpR :=
  ⟨w.extractLsb' 40 8, w.getLsbD 39, w.extractLsb' 36 3, w.extractLsb' 27 9, w.extractLsb' 18 9, w.extractLsb' 9 9,
    w.extractLsb' 0 9⟩

/-- Format I (R55). -/
def opIOf (w : IWord) : OpI :=
  ⟨w.extractLsb' 32 32, w.getLsbD 21, w.extractLsb' 18 3, w.extractLsb' 9 9, w.extractLsb' 0 9⟩

/-- Format M (R56). -/
def opMOf (w : IWord) : OpM :=
  ⟨w.extractLsb' 60 3, w.extractLsb' 56 3, w.extractLsb' 32 24, w.extractLsb' 28 2, w.getLsbD 27, w.extractLsb' 18 9,
    w.extractLsb' 9 9, w.extractLsb' 0 9⟩

/-- Format B (R57). -/
def opBOf (w : IWord) : OpB := ⟨w.extractLsb' 32 32, w.extractLsb' 29 3, w.extractLsb' 9 9, w.extractLsb' 0 9⟩

/-- Format X (R58). -/
def opXOf (w : IWord) : OpX :=
  ⟨w.extractLsb' 56 8, w.extractLsb' 32 24, w.extractLsb' 16 16, w.extractLsb' 13 3, w.getLsbD 9, w.extractLsb' 4 5,
    w.extractLsb' 0 4⟩

/-- Format G (R59). -/
def opGOf (w : IWord) : OpG :=
  ⟨w.extractLsb' 48 16, w.extractLsb' 45 3, w.extractLsb' 36 9, w.extractLsb' 27 9, w.extractLsb' 18 9,
    w.extractLsb' 9 9, w.extractLsb' 0 9⟩

/-- Format S (R60). -/
def opSOf (w : IWord) : OpS := ⟨w.extractLsb' 32 32, w.extractLsb' 9 8, w.extractLsb' 0 9⟩

/-! ### Opcodes (R106) -/

/-- Class 0x0 of R106. -/
def rawClass0 (f : Nat) (w : IWord) : Option Instr :=
  match f with
  | 0 => some (.nop (hdrOf w) (opSOf w))
  | 1 => some (.brk (hdrOf w) (opSOf w))
  | 2 => some (.sread (hdrOf w) (opSOf w))
  | 3 => some (.swrite (hdrOf w) (opSOf w))
  | 4 => some (.cycrd (hdrOf w) (opROf w))
  | 5 => some (.hint (hdrOf w) (opSOf w))
  | 6 => some (.trap (hdrOf w) (opSOf w))
  | 7 => some (.rett (hdrOf w) (opSOf w))
  | 8 => some (.rgn (hdrOf w) (opSOf w))
  | 9 => some (.rgnend (hdrOf w) (opSOf w))
  | _ => none

/-- Class 0x1 of R106. -/
def rawClass1 (f : Nat) (w : IWord) : Option Instr :=
  match f with
  | 0 => some (.bra (hdrOf w) (opBOf w))
  | 1 => some (.brall (hdrOf w) (opBOf w))
  | 2 => some (.brany (hdrOf w) (opBOf w))
  | 3 => some (.brx (hdrOf w) (opBOf w))
  | 4 => some (.call (hdrOf w) (opBOf w))
  | 5 => some (.callx (hdrOf w) (opBOf w))
  | 6 => some (.ret (hdrOf w) (opBOf w))
  | 7 => some (.loop (hdrOf w) (opBOf w))
  | 8 => some (.mrg (hdrOf w) (opBOf w))
  | 9 => some (.mrgx (hdrOf w) (opBOf w))
  | _ => none

/-- Class 0x2 of R106. -/
def rawClass2 (f : Nat) (w : IWord) : Option Instr :=
  match f with
  | 0 => some (.add (hdrOf w) (opROf w))
  | 1 => some (.addc (hdrOf w) (opROf w))
  | 2 => some (.sub (hdrOf w) (opROf w))
  | 3 => some (.subb (hdrOf w) (opROf w))
  | 4 => some (.addi (hdrOf w) (opIOf w))
  | 5 => some (.mul (hdrOf w) (opROf w))
  | 6 => some (.mulhi (hdrOf w) (opROf w))
  | 7 => some (.mulw (hdrOf w) (opROf w))
  | 8 => some (.mad (hdrOf w) (opROf w))
  | 9 => some (.madw (hdrOf w) (opROf w))
  | 10 => some (.div (hdrOf w) (opROf w))
  | 11 => some (.rem (hdrOf w) (opROf w))
  | 12 => some (.divrem (hdrOf w) (opROf w))
  | 13 => some (.min (hdrOf w) (opROf w))
  | 14 => some (.max (hdrOf w) (opROf w))
  | 15 => some (.clamp (hdrOf w) (opROf w))
  | 16 => some (.abs (hdrOf w) (opROf w))
  | 17 => some (.sad (hdrOf w) (opROf w))
  | 18 => some (.dot4 (hdrOf w) (opROf w))
  | 19 => some (.dot2 (hdrOf w) (opROf w))
  | 20 => some (.lea (hdrOf w) (opROf w))
  | 21 => some (.leai (hdrOf w) (opIOf w))
  | _ => none

/-- Class 0x3 of R106. -/
def rawClass3 (f : Nat) (w : IWord) : Option Instr :=
  match f with
  | 0 => some (.and (hdrOf w) (opROf w))
  | 1 => some (.or (hdrOf w) (opROf w))
  | 2 => some (.xor (hdrOf w) (opROf w))
  | 3 => some (.not (hdrOf w) (opROf w))
  | 4 => some (.tern (hdrOf w) (opROf w))
  | 5 => some (.bini (hdrOf w) (opIOf w))
  | 6 => some (.shl (hdrOf w) (opROf w))
  | 7 => some (.shr (hdrOf w) (opROf w))
  | 8 => some (.sra (hdrOf w) (opROf w))
  | 9 => some (.fsl (hdrOf w) (opROf w))
  | 10 => some (.fsr (hdrOf w) (opROf w))
  | 11 => some (.popc (hdrOf w) (opROf w))
  | 12 => some (.clz (hdrOf w) (opROf w))
  | 13 => some (.brev (hdrOf w) (opROf w))
  | 14 => some (.bfx (hdrOf w) (opROf w))
  | 15 => some (.bfi (hdrOf w) (opROf w))
  | 16 => some (.perm (hdrOf w) (opROf w))
  | _ => none

/-- Class 0x4 of R106. -/
def rawClass4 (f : Nat) (w : IWord) : Option Instr :=
  match f with
  | 0 => some (.setp (hdrOf w) (opROf w))
  | 1 => some (.setpi (hdrOf w) (opIOf w))
  | 2 => some (.fsetp (hdrOf w) (opROf w))
  | 3 => some (.plop (hdrOf w) (opROf w))
  | 4 => some (.sel (hdrOf w) (opROf w))
  | 5 => some (.seli (hdrOf w) (opIOf w))
  | 6 => some (.mov (hdrOf w) (opROf w))
  | 7 => some (.movi (hdrOf w) (opIOf w))
  | 8 => some (.p2r (hdrOf w) (opROf w))
  | 9 => some (.regToPred (hdrOf w) (opROf w))
  | _ => none

/-- Class 0x5 of R106. -/
def rawClass5 (f : Nat) (w : IWord) : Option Instr :=
  match f with
  | 0 => some (.fadd (hdrOf w) (opROf w))
  | 1 => some (.fsub (hdrOf w) (opROf w))
  | 2 => some (.fmul (hdrOf w) (opROf w))
  | 3 => some (.fma (hdrOf w) (opROf w))
  | 4 => some (.fmin (hdrOf w) (opROf w))
  | 5 => some (.fmax (hdrOf w) (opROf w))
  | 6 => some (.frnd (hdrOf w) (opROf w))
  | 7 => some (.fclass (hdrOf w) (opROf w))
  | 8 => some (.fadd2 (hdrOf w) (opROf w))
  | 9 => some (.fmul2 (hdrOf w) (opROf w))
  | 10 => some (.fma2 (hdrOf w) (opROf w))
  | 11 => some (.fdot2 (hdrOf w) (opROf w))
  | 12 => some (.fex2 (hdrOf w) (opROf w))
  | 13 => some (.flg2 (hdrOf w) (opROf w))
  | 14 => some (.frcp (hdrOf w) (opROf w))
  | 15 => some (.frsq (hdrOf w) (opROf w))
  | 16 => some (.fsin (hdrOf w) (opROf w))
  | 17 => some (.fcos (hdrOf w) (opROf w))
  | _ => none

/-- Class 0x6 of R106. -/
def rawClass6 (f : Nat) (w : IWord) : Option Instr :=
  match f with
  | 0 => some (.cvt (hdrOf w) (opROf w))
  | 1 => some (.pack (hdrOf w) (opROf w))
  | 2 => some (.unpack (hdrOf w) (opROf w))
  | 3 => some (.quant (hdrOf w) (opROf w))
  | 4 => some (.dequant (hdrOf w) (opROf w))
  | 5 => some (.pack4 (hdrOf w) (opROf w))
  | _ => none

/-- Class 0x7 of R106. -/
def rawClass7 (f : Nat) (w : IWord) : Option Instr :=
  match f with
  | 0 => some (.shfl (hdrOf w) (opROf w))
  | 1 => some (.shfli (hdrOf w) (opIOf w))
  | 2 => some (.vote (hdrOf w) (opROf w))
  | 3 => some (.pmask (hdrOf w) (opROf w))
  | 4 => some (.lfold (hdrOf w) (opROf w))
  | 5 => some (.matchLanes (hdrOf w) (opROf w))
  | 6 => some (.rdlane (hdrOf w) (opROf w))
  | 7 => some (.ddx (hdrOf w) (opROf w))
  | 8 => some (.ddy (hdrOf w) (opROf w))
  | _ => none

/-- Class 0x8 of R106. -/
def rawClass8 (f : Nat) (w : IWord) : Option Instr :=
  match f with
  | 0 => some (.rpinit (hdrOf w) (opIOf w))
  | 1 => some (.rparr (hdrOf w) (opROf w))
  | 2 => some (.rpwait (hdrOf w) (opROf w))
  | 3 => some (.rparw (hdrOf w) (opROf w))
  | 4 => some (.rpbytes (hdrOf w) (opROf w))
  | 5 => some (.yield (hdrOf w) (opSOf w))
  | 6 => some (.yieldto (hdrOf w) (opBOf w))
  | 7 => some (.sleep (hdrOf w) (opSOf w))
  | 8 => some (.exit (hdrOf w) (opSOf w))
  | _ => none

/-- Class 0x9 of R106. -/
def rawClass9 (f : Nat) (w : IWord) : Option Instr :=
  match f with
  | 0 => some (.ld (hdrOf w) (opMOf w))
  | 1 => some (.st (hdrOf w) (opMOf w))
  | 2 => some (.ldacq (hdrOf w) (opMOf w))
  | 3 => some (.strel (hdrOf w) (opMOf w))
  | 4 => some (.ldk (hdrOf w) (opMOf w))
  | 5 => some (.stk (hdrOf w) (opMOf w))
  | 6 => some (.ldw (hdrOf w) (opMOf w))
  | 7 => some (.stw (hdrOf w) (opMOf w))
  | 8 => some (.fpush (hdrOf w) (opMOf w))
  | 9 => some (.fpop (hdrOf w) (opMOf w))
  | 10 => some (.fpeek (hdrOf w) (opMOf w))
  | 11 => some (.pref (hdrOf w) (opMOf w))
  | _ => none

/-- Class 0xA of R106. -/
def rawClassA (f : Nat) (w : IWord) : Option Instr :=
  match f with
  | 0 => some (.atom (hdrOf w) (opMOf w))
  | 1 => some (.atomcas (hdrOf w) (opMOf w))
  | 2 => some (.atomf (hdrOf w) (opMOf w))
  | 3 => if w.getLsbD 67 then some (.redDet (hdrOf w) (opMOf w)) else some (.red (hdrOf w) (opMOf w))
  | 4 => if w.getLsbD 67 then some (.redfDet (hdrOf w) (opMOf w)) else some (.redf (hdrOf w) (opMOf w))
  | 5 => some (.dflush (hdrOf w) (opSOf w))
  | 6 => if w.extractLsb' 64 4 == 0 then some (.fenceAcq (hdrOf w) (opSOf w))
    else if w.extractLsb' 64 4 == 1 then some (.fenceRel (hdrOf w) (opSOf w))
    else if w.extractLsb' 64 4 == 2 then some (.fenceAr (hdrOf w) (opSOf w))
    else some (.fenceSmp (hdrOf w) (opSOf w))
  | 7 => some (.fwait (hdrOf w) (opSOf w))
  | 8 => some (.ngath (hdrOf w) (opMOf w))
  | 9 => some (.nscat (hdrOf w) (opMOf w))
  | 10 => some (.cwb (hdrOf w) (opMOf w))
  | 11 => some (.cinv (hdrOf w) (opMOf w))
  | 12 => some (.cdisc (hdrOf w) (opMOf w))
  | 13 => some (.icinv (hdrOf w) (opMOf w))
  | _ => none

/-- Class 0xB of R106. -/
def rawClassB (f : Nat) (w : IWord) : Option Instr :=
  match f with
  | 0 => some (.cpy (hdrOf w) (opROf w))
  | 1 => some (.cpyo (hdrOf w) (opROf w))
  | 2 => some (.cpyq (hdrOf w) (opROf w))
  | 3 => some (.halloc (hdrOf w) (opROf w))
  | 4 => some (.hfree (hdrOf w) (opROf w))
  | 5 => if w.getLsbD 40 then some (.hwaitPeek (hdrOf w) (opROf w)) else some (.hwaitTake (hdrOf w) (opROf w))
  | 6 => some (.hstat (hdrOf w) (opROf w))
  | 7 => some (.publish (hdrOf w) (opROf w))
  | _ => none

/-- Class 0xC of R106. -/
def rawClassC (f : Nat) (w : IWord) : Option Instr :=
  match f with
  | 0 => some (.xfCvt (hdrOf w) (opROf w))
  | 1 => some (.xfQuant (hdrOf w) (opROf w))
  | 2 => some (.xfDequant (hdrOf w) (opROf w))
  | 3 => some (.xfRkey (hdrOf w) (opROf w))
  | 4 => some (.xfHash (hdrOf w) (opROf w))
  | 5 => some (.xfPenc (hdrOf w) (opROf w))
  | _ => none

/-- Class 0xD of R106. -/
def rawClassD (f : Nat) (w : IWord) : Option Instr :=
  match f with
  | 0 => some (.mlda (hdrOf w) (opXOf w))
  | 1 => some (.mldb (hdrOf w) (opXOf w))
  | 2 => some (.mldbs (hdrOf w) (opXOf w))
  | 3 => some (.mscale (hdrOf w) (opXOf w))
  | 4 => some (.mma (hdrOf w) (opXOf w))
  | 5 => some (.mmaBat (hdrOf w) (opXOf w))
  | 6 => some (.mzero (hdrOf w) (opXOf w))
  | 7 => some (.mstacc (hdrOf w) (opXOf w))
  | 8 => some (.mldacc (hdrOf w) (opXOf w))
  | 9 => some (.mloop (hdrOf w) (opXOf w))
  | 10 => some (.marr (hdrOf w) (opXOf w))
  | 11 => some (.mwait (hdrOf w) (opXOf w))
  | 12 => some (.mend (hdrOf w) (opXOf w))
  | 13 => some (.neval (hdrOf w) (opROf w))
  | 14 => if w.getLsbD 40 then some (.nevstatKick (hdrOf w) (opROf w)) else some (.nevstatCnt (hdrOf w) (opROf w))
  | _ => none

/-- Class 0xE of R106. -/
def rawClassE (f : Nat) (w : IWord) : Option Instr :=
  match f with
  | 0 => some (.ssnew (hdrOf w) (opGOf w))
  | 1 => some (.ssadd (hdrOf w) (opGOf w))
  | 2 => some (.ssbuild (hdrOf w) (opGOf w))
  | 3 => some (.ssbind (hdrOf w) (opGOf w))
  | 4 => some (.ssrebind (hdrOf w) (opGOf w))
  | 5 => some (.ssfree (hdrOf w) (opGOf w))
  | 6 => some (.ssget (hdrOf w) (opGOf w))
  | 7 => some (.emitv (hdrOf w) (opGOf w))
  | 8 => some (.emit (hdrOf w) (opGOf w))
  | 9 => some (.emitsp (hdrOf w) (opGOf w))
  | 10 => some (.rflush (hdrOf w) (opGOf w))
  | 11 => some (.fin (hdrOf w) (opGOf w))
  | 12 => some (.fout (hdrOf w) (opGOf w))
  | 13 => some (.fdep (hdrOf w) (opGOf w))
  | 14 => some (.disc (hdrOf w) (opGOf w))
  | _ => none

/-- Class 0xF of R106. -/
def rawClassF (f : Nat) (w : IWord) : Option Instr :=
  match f with
  | 0 => some (.alm (hdrOf w) (opROf w))
  | 1 => some (.almhz (hdrOf w) (opROf w))
  | 2 => some (.stcm (hdrOf w) (opMOf w))
  | 3 => some (.ldasof (hdrOf w) (opROf w))
  | 4 => some (.almwait (hdrOf w) (opSOf w))
  | _ => none

/-- The instruction of a word's opcode, before its fields are checked. -/
def rawDecode (w : IWord) : Option Instr :=
  let f := (w.extractLsb' 86 6).toNat
  match (w.extractLsb' 92 4).toNat with
  | 0 => rawClass0 f w
  | 1 => rawClass1 f w
  | 2 => rawClass2 f w
  | 3 => rawClass3 f w
  | 4 => rawClass4 f w
  | 5 => rawClass5 f w
  | 6 => rawClass6 f w
  | 7 => rawClass7 f w
  | 8 => rawClass8 f w
  | 9 => rawClass9 f w
  | 10 => rawClassA f w
  | 11 => rawClassB f w
  | 12 => rawClassC f w
  | 13 => rawClassD f w
  | 14 => rawClassE f w
  | 15 => rawClassF f w
  | _ => none

/-! ### Encoding -/

/-- The 64 bits of an operand area. -/
def OpR.bits (o : OpR) : BitVec 64 :=
  (0#16 ++ o.aux ++ BitVec.ofBool o.pn ++ o.p ++ o.c ++ o.b ++ o.a ++ o.d).cast (by decide)

/-- Format I. -/
def OpI.bits (o : OpI) : BitVec 64 :=
  (o.imm ++ 0#10 ++ BitVec.ofBool o.pn ++ o.p ++ o.a ++ o.d).cast (by decide)

/-- Format M. -/
def OpM.bits (o : OpM) : BitVec 64 :=
  (0#1 ++ o.member ++ 0#1 ++ o.space ++ o.offset ++ 0#2 ++ o.scale ++ BitVec.ofBool o.ix ++ o.index ++ o.base ++
    o.data).cast (by decide)

/-- Format B. -/
def OpB.bits (o : OpB) : BitVec 64 := (o.disp ++ o.tslot ++ 0#11 ++ o.l ++ o.a).cast (by decide)

/-- Format X. -/
def OpX.bits (o : OpX) : BitVec 64 :=
  (o.cnt ++ o.y ++ o.w ++ o.sl ++ 0#3 ++ BitVec.ofBool o.rpe ++ o.rp ++ o.tile).cast (by decide)

/-- Format G. -/
def OpG.bits (o : OpG) : BitVec 64 :=
  (o.imm16 ++ o.sub ++ o.set ++ o.c ++ o.b ++ o.a ++ o.d).cast (by decide)

/-- Format S. -/
def OpS.bits (o : OpS) : BitVec 64 := (o.imm ++ 0#15 ++ o.sreg ++ o.a).cast (by decide)

/-- Assemble a word from its class, function, common fields and operand area (R44). -/
def assemble (cls : BitVec 4) (fn : BitVec 6) (h : Hdr) (area : BitVec 64) : IWord :=
  (cls ++ fn ++ h.la ++ BitVec.ofBool h.gn ++ h.gp ++ h.sc ++ h.reuse ++ h.mod ++ area).cast (by decide)

/-- The word of an instruction; an event has none. The word stands for the instruction exactly when it is well formed. -/
def encode : Instr → Option IWord
  | .nop h o => some (assemble 0x0 0x00 h o.bits)
  | .brk h o => some (assemble 0x0 0x01 h o.bits)
  | .sread h o => some (assemble 0x0 0x02 h o.bits)
  | .swrite h o => some (assemble 0x0 0x03 h o.bits)
  | .cycrd h o => some (assemble 0x0 0x04 h o.bits)
  | .hint h o => some (assemble 0x0 0x05 h o.bits)
  | .trap h o => some (assemble 0x0 0x06 h o.bits)
  | .rett h o => some (assemble 0x0 0x07 h o.bits)
  | .rgn h o => some (assemble 0x0 0x08 h o.bits)
  | .rgnend h o => some (assemble 0x0 0x09 h o.bits)
  | .bra h o => some (assemble 0x1 0x00 h o.bits)
  | .brall h o => some (assemble 0x1 0x01 h o.bits)
  | .brany h o => some (assemble 0x1 0x02 h o.bits)
  | .brx h o => some (assemble 0x1 0x03 h o.bits)
  | .call h o => some (assemble 0x1 0x04 h o.bits)
  | .callx h o => some (assemble 0x1 0x05 h o.bits)
  | .ret h o => some (assemble 0x1 0x06 h o.bits)
  | .loop h o => some (assemble 0x1 0x07 h o.bits)
  | .mrg h o => some (assemble 0x1 0x08 h o.bits)
  | .mrgx h o => some (assemble 0x1 0x09 h o.bits)
  | .add h o => some (assemble 0x2 0x00 h o.bits)
  | .addc h o => some (assemble 0x2 0x01 h o.bits)
  | .sub h o => some (assemble 0x2 0x02 h o.bits)
  | .subb h o => some (assemble 0x2 0x03 h o.bits)
  | .addi h o => some (assemble 0x2 0x04 h o.bits)
  | .mul h o => some (assemble 0x2 0x05 h o.bits)
  | .mulhi h o => some (assemble 0x2 0x06 h o.bits)
  | .mulw h o => some (assemble 0x2 0x07 h o.bits)
  | .mad h o => some (assemble 0x2 0x08 h o.bits)
  | .madw h o => some (assemble 0x2 0x09 h o.bits)
  | .div h o => some (assemble 0x2 0x0A h o.bits)
  | .rem h o => some (assemble 0x2 0x0B h o.bits)
  | .divrem h o => some (assemble 0x2 0x0C h o.bits)
  | .min h o => some (assemble 0x2 0x0D h o.bits)
  | .max h o => some (assemble 0x2 0x0E h o.bits)
  | .clamp h o => some (assemble 0x2 0x0F h o.bits)
  | .abs h o => some (assemble 0x2 0x10 h o.bits)
  | .sad h o => some (assemble 0x2 0x11 h o.bits)
  | .dot4 h o => some (assemble 0x2 0x12 h o.bits)
  | .dot2 h o => some (assemble 0x2 0x13 h o.bits)
  | .lea h o => some (assemble 0x2 0x14 h o.bits)
  | .leai h o => some (assemble 0x2 0x15 h o.bits)
  | .and h o => some (assemble 0x3 0x00 h o.bits)
  | .or h o => some (assemble 0x3 0x01 h o.bits)
  | .xor h o => some (assemble 0x3 0x02 h o.bits)
  | .not h o => some (assemble 0x3 0x03 h o.bits)
  | .tern h o => some (assemble 0x3 0x04 h o.bits)
  | .bini h o => some (assemble 0x3 0x05 h o.bits)
  | .shl h o => some (assemble 0x3 0x06 h o.bits)
  | .shr h o => some (assemble 0x3 0x07 h o.bits)
  | .sra h o => some (assemble 0x3 0x08 h o.bits)
  | .fsl h o => some (assemble 0x3 0x09 h o.bits)
  | .fsr h o => some (assemble 0x3 0x0A h o.bits)
  | .popc h o => some (assemble 0x3 0x0B h o.bits)
  | .clz h o => some (assemble 0x3 0x0C h o.bits)
  | .brev h o => some (assemble 0x3 0x0D h o.bits)
  | .bfx h o => some (assemble 0x3 0x0E h o.bits)
  | .bfi h o => some (assemble 0x3 0x0F h o.bits)
  | .perm h o => some (assemble 0x3 0x10 h o.bits)
  | .setp h o => some (assemble 0x4 0x00 h o.bits)
  | .setpi h o => some (assemble 0x4 0x01 h o.bits)
  | .fsetp h o => some (assemble 0x4 0x02 h o.bits)
  | .plop h o => some (assemble 0x4 0x03 h o.bits)
  | .sel h o => some (assemble 0x4 0x04 h o.bits)
  | .seli h o => some (assemble 0x4 0x05 h o.bits)
  | .mov h o => some (assemble 0x4 0x06 h o.bits)
  | .movi h o => some (assemble 0x4 0x07 h o.bits)
  | .p2r h o => some (assemble 0x4 0x08 h o.bits)
  | .regToPred h o => some (assemble 0x4 0x09 h o.bits)
  | .fadd h o => some (assemble 0x5 0x00 h o.bits)
  | .fsub h o => some (assemble 0x5 0x01 h o.bits)
  | .fmul h o => some (assemble 0x5 0x02 h o.bits)
  | .fma h o => some (assemble 0x5 0x03 h o.bits)
  | .fmin h o => some (assemble 0x5 0x04 h o.bits)
  | .fmax h o => some (assemble 0x5 0x05 h o.bits)
  | .frnd h o => some (assemble 0x5 0x06 h o.bits)
  | .fclass h o => some (assemble 0x5 0x07 h o.bits)
  | .fadd2 h o => some (assemble 0x5 0x08 h o.bits)
  | .fmul2 h o => some (assemble 0x5 0x09 h o.bits)
  | .fma2 h o => some (assemble 0x5 0x0A h o.bits)
  | .fdot2 h o => some (assemble 0x5 0x0B h o.bits)
  | .fex2 h o => some (assemble 0x5 0x0C h o.bits)
  | .flg2 h o => some (assemble 0x5 0x0D h o.bits)
  | .frcp h o => some (assemble 0x5 0x0E h o.bits)
  | .frsq h o => some (assemble 0x5 0x0F h o.bits)
  | .fsin h o => some (assemble 0x5 0x10 h o.bits)
  | .fcos h o => some (assemble 0x5 0x11 h o.bits)
  | .cvt h o => some (assemble 0x6 0x00 h o.bits)
  | .pack h o => some (assemble 0x6 0x01 h o.bits)
  | .unpack h o => some (assemble 0x6 0x02 h o.bits)
  | .quant h o => some (assemble 0x6 0x03 h o.bits)
  | .dequant h o => some (assemble 0x6 0x04 h o.bits)
  | .pack4 h o => some (assemble 0x6 0x05 h o.bits)
  | .shfl h o => some (assemble 0x7 0x00 h o.bits)
  | .shfli h o => some (assemble 0x7 0x01 h o.bits)
  | .vote h o => some (assemble 0x7 0x02 h o.bits)
  | .pmask h o => some (assemble 0x7 0x03 h o.bits)
  | .lfold h o => some (assemble 0x7 0x04 h o.bits)
  | .matchLanes h o => some (assemble 0x7 0x05 h o.bits)
  | .rdlane h o => some (assemble 0x7 0x06 h o.bits)
  | .ddx h o => some (assemble 0x7 0x07 h o.bits)
  | .ddy h o => some (assemble 0x7 0x08 h o.bits)
  | .rpinit h o => some (assemble 0x8 0x00 h o.bits)
  | .rparr h o => some (assemble 0x8 0x01 h o.bits)
  | .rpwait h o => some (assemble 0x8 0x02 h o.bits)
  | .rparw h o => some (assemble 0x8 0x03 h o.bits)
  | .rpbytes h o => some (assemble 0x8 0x04 h o.bits)
  | .yield h o => some (assemble 0x8 0x05 h o.bits)
  | .yieldto h o => some (assemble 0x8 0x06 h o.bits)
  | .sleep h o => some (assemble 0x8 0x07 h o.bits)
  | .exit h o => some (assemble 0x8 0x08 h o.bits)
  | .rendezvousArrivalCount _ => none
  | .sleepExpiry _ => none
  | .ld h o => some (assemble 0x9 0x00 h o.bits)
  | .st h o => some (assemble 0x9 0x01 h o.bits)
  | .ldacq h o => some (assemble 0x9 0x02 h o.bits)
  | .strel h o => some (assemble 0x9 0x03 h o.bits)
  | .ldk h o => some (assemble 0x9 0x04 h o.bits)
  | .stk h o => some (assemble 0x9 0x05 h o.bits)
  | .ldw h o => some (assemble 0x9 0x06 h o.bits)
  | .stw h o => some (assemble 0x9 0x07 h o.bits)
  | .fpush h o => some (assemble 0x9 0x08 h o.bits)
  | .fpop h o => some (assemble 0x9 0x09 h o.bits)
  | .fpeek h o => some (assemble 0x9 0x0A h o.bits)
  | .pref h o => some (assemble 0x9 0x0B h o.bits)
  | .fifoWaitServed _ _ => none
  | .atom h o => some (assemble 0xA 0x00 h o.bits)
  | .atomcas h o => some (assemble 0xA 0x01 h o.bits)
  | .atomf h o => some (assemble 0xA 0x02 h o.bits)
  | .red h o => some (assemble 0xA 0x03 h o.bits)
  | .redDet h o => some (assemble 0xA 0x03 h o.bits)
  | .redf h o => some (assemble 0xA 0x04 h o.bits)
  | .redfDet h o => some (assemble 0xA 0x04 h o.bits)
  | .dflush h o => some (assemble 0xA 0x05 h o.bits)
  | .fenceAcq h o => some (assemble 0xA 0x06 h o.bits)
  | .fenceRel h o => some (assemble 0xA 0x06 h o.bits)
  | .fenceAr h o => some (assemble 0xA 0x06 h o.bits)
  | .fenceSmp h o => some (assemble 0xA 0x06 h o.bits)
  | .fwait h o => some (assemble 0xA 0x07 h o.bits)
  | .ngath h o => some (assemble 0xA 0x08 h o.bits)
  | .nscat h o => some (assemble 0xA 0x09 h o.bits)
  | .cwb h o => some (assemble 0xA 0x0A h o.bits)
  | .cinv h o => some (assemble 0xA 0x0B h o.bits)
  | .cdisc h o => some (assemble 0xA 0x0C h o.bits)
  | .icinv h o => some (assemble 0xA 0x0D h o.bits)
  | .storePerform _ => none
  | .releaseComplete _ => none
  | .longLatencyResultLand _ => none
  | .cpy h o => some (assemble 0xB 0x00 h o.bits)
  | .cpyo h o => some (assemble 0xB 0x01 h o.bits)
  | .cpyq h o => some (assemble 0xB 0x02 h o.bits)
  | .halloc h o => some (assemble 0xB 0x03 h o.bits)
  | .hfree h o => some (assemble 0xB 0x04 h o.bits)
  | .hwaitTake h o => some (assemble 0xB 0x05 h o.bits)
  | .hwaitPeek h o => some (assemble 0xB 0x05 h o.bits)
  | .hstat h o => some (assemble 0xB 0x06 h o.bits)
  | .publish h o => some (assemble 0xB 0x07 h o.bits)
  | .publishSwap _ => none
  | .copyCommandStart _ => none
  | .copyChunkLand _ _ => none
  | .copySignalWrite _ _ => none
  | .spillRingRefill _ => none
  | .cespillbWrite _ _ => none
  | .queueSlotDispatch _ => none
  | .teamStart _ _ _ _ => none
  | .launchCompletionRecord _ => none
  | .issueCycle _ _ => none
  | .issuePriorityPromotion _ => none
  | .xfPipeGrant _ => none
  | .xfPipeReply _ => none
  | .xfCvt h o => some (assemble 0xC 0x00 h o.bits)
  | .xfQuant h o => some (assemble 0xC 0x01 h o.bits)
  | .xfDequant h o => some (assemble 0xC 0x02 h o.bits)
  | .xfRkey h o => some (assemble 0xC 0x03 h o.bits)
  | .xfHash h o => some (assemble 0xC 0x04 h o.bits)
  | .xfPenc h o => some (assemble 0xC 0x05 h o.bits)
  | .mlda h o => some (assemble 0xD 0x00 h o.bits)
  | .mldb h o => some (assemble 0xD 0x01 h o.bits)
  | .mldbs h o => some (assemble 0xD 0x02 h o.bits)
  | .mscale h o => some (assemble 0xD 0x03 h o.bits)
  | .mma h o => some (assemble 0xD 0x04 h o.bits)
  | .mmaBat h o => some (assemble 0xD 0x05 h o.bits)
  | .mzero h o => some (assemble 0xD 0x06 h o.bits)
  | .mstacc h o => some (assemble 0xD 0x07 h o.bits)
  | .mldacc h o => some (assemble 0xD 0x08 h o.bits)
  | .mloop h o => some (assemble 0xD 0x09 h o.bits)
  | .marr h o => some (assemble 0xD 0x0A h o.bits)
  | .mwait h o => some (assemble 0xD 0x0B h o.bits)
  | .mend h o => some (assemble 0xD 0x0C h o.bits)
  | .matrixArbiterGrant _ => none
  | .acctagWrite _ _ _ => none
  | .accWindowWrite _ _ _ _ => none
  | .neval h o => some (assemble 0xD 0x0D h o.bits)
  | .nevstatCnt h o => some (assemble 0xD 0x0E h o.bits)
  | .nevstatKick h o => some (assemble 0xD 0x0E h o.bits)
  | .nevalTimerExpiry _ _ => none
  | .nevalTileFire _ => none
  | .nevalLayer _ _ => none
  | .nevalLanding _ _ => none
  | .nvspillbWrite _ _ => none
  | .ssnew h o => some (assemble 0xE 0x00 h o.bits)
  | .ssadd h o => some (assemble 0xE 0x01 h o.bits)
  | .ssbuild h o => some (assemble 0xE 0x02 h o.bits)
  | .ssbind h o => some (assemble 0xE 0x03 h o.bits)
  | .ssrebind h o => some (assemble 0xE 0x04 h o.bits)
  | .ssfree h o => some (assemble 0xE 0x05 h o.bits)
  | .ssget h o => some (assemble 0xE 0x06 h o.bits)
  | .emitv h o => some (assemble 0xE 0x07 h o.bits)
  | .emit h o => some (assemble 0xE 0x08 h o.bits)
  | .emitsp h o => some (assemble 0xE 0x09 h o.bits)
  | .rflush h o => some (assemble 0xE 0x0A h o.bits)
  | .fin h o => some (assemble 0xE 0x0B h o.bits)
  | .fout h o => some (assemble 0xE 0x0C h o.bits)
  | .fdep h o => some (assemble 0xE 0x0D h o.bits)
  | .disc h o => some (assemble 0xE 0x0E h o.bits)
  | .binnerInsert _ => none
  | .flushComplete _ => none
  | .fragmentLaunch _ _ _ => none
  | .blendApply _ _ => none
  | .passEnd _ => none
  | .alm h o => some (assemble 0xF 0x00 h o.bits)
  | .almhz h o => some (assemble 0xF 0x01 h o.bits)
  | .stcm h o => some (assemble 0xF 0x02 h o.bits)
  | .ldasof h o => some (assemble 0xF 0x03 h o.bits)
  | .almwait h o => some (assemble 0xF 0x04 h o.bits)
  | .stcmRecord _ => none
  | .horizonUpdate _ => none
  | .almanacAdvance _ _ _ _ => none
  | .almWideTimeout _ => none
  | .dieSilentTimeout _ => none
  | .lineParityRefetch _ _ => none
  | .eventRecordWrite _ => none
  | .replayRecord _ _ => none
  | .abandonRecord _ _ => none
  | .tlbSweepStart _ => none
  | .tlbSweepDone => none
  | .preemptRequest _ => none
  | .teamSwitchOut _ => none
  | .resumeRequest _ => none
  | .teamResume _ _ _ => none
  | .migrationGo _ => none
  | .migrationSwap => none
  | .bankModeRequest _ _ _ => none
  | .bankModeChange _ _ => none
  | .bankModeTimeout _ _ => none
  | .l2clsWrite _ _ _ => none
  | .contextRegister _ => none
  | .contextUnregister _ => none
  | .queueRegister _ => none
  | .queueUnregister _ => none
  | .memmapWrite _ _ => none
  | .errorCounterClear _ _ => none
  | .hostMemWrite _ _ => none
  | .hostMemRead _ _ => none
  | .hostCacheInvalidate _ _ => none
  | .phoathFlitResend _ => none
  | .eccRetry _ => none
  | .bootStart _ => none
  | .bootWatchdog => none
  | .bootctlRestart _ => none
  | .powerStateRequest _ => none
  | .registerWrite _ _ _ => none
  | .phoathRemoteAccess _ => none

/-! ### Decoding -/

/-- Is the opcode a matrix-stream opcode, mark M (R104)? -/
def isStream : Instr → Bool
  | .mlda _ _ => true
  | .mldb _ _ => true
  | .mldbs _ _ => true
  | .mscale _ _ => true
  | .mma _ _ => true
  | .mmaBat _ _ => true
  | .mzero _ _ => true
  | .mstacc _ _ => true
  | .mldacc _ _ => true
  | .mloop _ _ => true
  | .marr _ _ => true
  | .mwait _ _ => true
  | .mend _ _ => true
  | _ => false

/-- Why a word does not decode (R53 orders 4 and 5). -/
inductive DecodeError where
  /-- ILLEGAL_OPCODE: unassigned, or of the wrong kind for its line (R45) -/
  | illegalOpcode
  /-- ILLEGAL_ENCODING: a reserved bit, unused field, LA, SC, MOD or guard value (R47 to R52) -/
  | illegalEncoding
  deriving DecidableEq, Repr

/-- Decode a word in a line of KIND 0 (`stream` false) or KIND 1 (R45, R53). -/
def decode (stream : Bool) (w : IWord) : Except DecodeError Instr :=
  match rawDecode w with
  | none => .error .illegalOpcode
  | some i =>
    if isStream i != stream then .error .illegalOpcode
    else if i.wellFormed && encode i == some w then .ok i
    else .error .illegalEncoding

/-- The instruction that an ordinary or a stream line reads from a table word: bit 0 is the least significant bit of
the slot's 96 bits (R33). -/
def decodeTableWord (nbits w : Nat) : Option Instr :=
  let word := BitVec.ofNat 96 (w % 2 ^ nbits)
  match decode false word with
  | .ok i => some i
  | .error _ =>
    match decode true word with
    | .ok i => some i
    | .error _ => none

end Sys2Proof
end

