-- ==== Sys2Proof/Config.lean ====
section
/-! DEFINITION. What one implementation fixes and the free values: opaque constants without a body, so that no proof
can see them. -/

namespace Sys2Proof

/-- What runs next: a fragment of a group, a team sequencer, or an event of the table. -/
inductive Act where
  /-- the fragment of a group, by the group's key and the fragment's key -/
  | issue (group : Nat) (frag : Nat)
  /-- the same, of a fragment that waits: it goes on with its instruction, and begins none -/
  | wake (group : Nat) (frag : Nat)
  /-- the second half of a marked pair, if its fragment stands there with the same lanes (02 R37) -/
  | pair (group : Nat) (frag : Nat) (pc : Nat) (mask : Nat)
  /-- a parked instruction of a group that a replay lets continue -/
  | replay (group : Nat) (park : Nat)
  /-- the sequencer of a team -/
  | stream (team : Nat)
  /-- the selection of instructions in a quarter of a core (08 R168) -/
  | cycle (core : Nat) (quarter : Nat)
  /-- an event row of the opcode table -/
  | event (i : Instr)
  deriving DecidableEq, Repr, Inhabited

namespace Config

/-- The order in which agents act when the state prescribes none (04 R101): the n-th choice. A free value.
DESIGN CHOICE, log entries 3, 128. -/
opaque schedule : Nat → Act

/-- How far the cycle counter has moved on at its n-th reading (06 R137, 04 R101). A free value. -/
opaque freeCycles : Nat → Nat

/-- The home slice of a line within its die, a fixed hash of the line's address that is not given (10 R204). A free value.
DESIGN CHOICE, log entry 4. -/
opaque homeSlice : Nat → Nat

/-- Does the device read the descriptor of a context again at the n-th step (21 R384)? A free value.
DESIGN CHOICE, log entry 143. -/
opaque rereads : Nat → Nat → Bool

/-- Some byte, drawn with the n-th fresh number. A free value. DESIGN CHOICE, log entry 4. -/
opaque freeByte : Nat → Byte

/-- Some number, drawn with the n-th fresh number. A free value. DESIGN CHOICE, log entry 4. -/
opaque freeNat : Nat → Nat

end Config

end Sys2Proof
end

