-- ==== Sys2Proof/Machine/Maps.lean ====
section
/-! DEFINITION. Finite maps as lists of (key, value) pairs with strictly rising keys, and sparse maps that list no
default value: equal contents are equal data. Memory, register files, scratch and tiles are sparse maps. -/

namespace Sys2Proof.Maps

/-- The value listed at `k`. -/
def find? {α : Type} (k : Nat) : List (Nat × α) → Option α
  | [] => none
  | (j, v) :: m => if j = k then some v else if k < j then none else find? k m

/-- List `v` at `k`, in its rising place. -/
def insert {α : Type} (k : Nat) (v : α) : List (Nat × α) → List (Nat × α)
  | [] => [(k, v)]
  | (j, w) :: m => if k < j then (k, v) :: (j, w) :: m else if j = k then (k, v) :: m else (j, w) :: insert k v m

/-- Remove the entry at `k`. -/
def erase {α : Type} (k : Nat) : List (Nat × α) → List (Nat × α)
  | [] => []
  | (j, w) :: m => if k < j then (j, w) :: m else if j = k then m else (j, w) :: erase k m

/-- Keys rise strictly and all lie above `lo`. -/
def risingFrom {α : Type} : Nat → List (Nat × α) → Bool
  | _, [] => true
  | lo, (j, _) :: m => decide (lo ≤ j) && risingFrom (j + 1) m

/-- Strictly rising keys. -/
def rising {α : Type} (m : List (Nat × α)) : Bool := risingFrom 0 m

/-- Change the value listed at `k`, if there is one. -/
def modify {α : Type} (k : Nat) (f : α → α) (m : List (Nat × α)) : List (Nat × α) :=
  match find? k m with
  | none => m
  | some v => insert k (f v) m

/-- Read a sparse map whose unlisted keys hold `d`. -/
def get {α : Type} (d : α) (k : Nat) (m : List (Nat × α)) : α := (find? k m).getD d

/-- Write a sparse map whose unlisted keys hold `d`: writing `d` removes the entry. -/
def set {α : Type} [DecidableEq α] (d : α) (k : Nat) (v : α) (m : List (Nat × α)) : List (Nat × α) :=
  if v = d then erase k m else insert k v m

/-- No entry holds the default. -/
def noDefault {α : Type} [DecidableEq α] (d : α) (m : List (Nat × α)) : Bool := m.all (fun e => decide (e.2 ≠ d))

/-- The canonical form of a sparse map. -/
def canonical {α : Type} [DecidableEq α] (d : α) (m : List (Nat × α)) : Bool := rising m && noDefault d m

/-- The values at `n` consecutive keys from `k`, of a map whose keys all lie at or above `k`. -/
def sliceFrom {α : Type} (d : α) : Nat → Nat → List (Nat × α) → List α
  | _, 0, _ => []
  | k, n + 1, [] => d :: sliceFrom d (k + 1) n []
  | k, n + 1, (j, v) :: m => if j = k then v :: sliceFrom d (k + 1) n m else d :: sliceFrom d (k + 1) n ((j, v) :: m)

/-- Read `n` consecutive keys from `k` upward in one pass. -/
def slice {α : Type} (d : α) (k n : Nat) (m : List (Nat × α)) : List α := sliceFrom d k n (m.dropWhile (fun e => decide (e.1 < k)))

/-- The entries that list values at consecutive keys from `k` upward. -/
def entriesFrom {α : Type} [DecidableEq α] (d : α) : Nat → List α → List (Nat × α)
  | _, [] => []
  | k, v :: vs => if v = d then entriesFrom d (k + 1) vs else (k, v) :: entriesFrom d (k + 1) vs

/-- Write consecutive keys from `k` upward in one pass. -/
def putAll {α : Type} [DecidableEq α] (d : α) (k : Nat) (vs : List α) (m : List (Nat × α)) : List (Nat × α) :=
  m.takeWhile (fun e => decide (e.1 < k)) ++ (entriesFrom d k vs ++ m.dropWhile (fun e => decide (e.1 < k + vs.length)))

end Sys2Proof.Maps
end

