-- ==== Sys2Proof/Machine/State.lean ====
section
/-! DEFINITION. The state of the D512 as plain data: every register, table, queue and memory that the spec gives the
machine, its reset, and the reasons a step can stop. Sparse maps list (key, value) pairs with rising keys and no default
value (Machine/Maps.lean). Identifiers: core 0 to 511 in the %core layout, cluster = core / 8, die = core / 64; a group's
key is its team's number times 32 plus its index; fragments are keyed by the lowest lane they were formed with. -/

namespace Sys2Proof.Machine

/-- Why a run stops with a fault. -/
inductive Fault where
  /-- raised by the meaning of a group or stream instruction executed while no agent executes, or by one whose agent
  does not exist; no step does so. Safe: the model stops where the hardware never is. -/
  | noAgent
  deriving DecidableEq, Repr

/-- Why an instruction has no meaning. -/
inductive Refusal where
  /-- raised by exec's arm of an instruction that the model does not reach. Safe: the model stops. -/
  | notModelled (mnemonic : String)
  deriving DecidableEq, Repr

/-! ### Lanes and groups -/

/-- A register of a group, for holding it back. -/
inductive RegName where
  | v (r : Nat)
  | k (r : Nat)
  | p (r : Nat)
  deriving DecidableEq, Repr

/-- One write to a register. -/
inductive RegWrite where
  | v (lane r : Nat) (x : Word)
  | k (r : Nat) (x : Word)
  | p (lane r : Nat) (b : Bool)
  deriving DecidableEq, Repr

/-- A result not yet written (01 R30, 02 R47): the instructions still to pass, whether the value is known, the registers
it will write, the writes, and the %lstat bits it sets by lane (07 R139). -/
structure Window where
  id : Nat := 0
  left : Nat := 0
  ready : Bool := true
  dest : List RegName := []
  writes : List RegWrite := []
  flags : List (Nat × Nat) := []
  /-- a result of a rendezvous, which stands in no lookahead window (09 R185) -/
  rp : Bool := false
  /-- a request of `neval`, by its program counter, and its lane; its landing raises NEVAL_FAULT in these lanes (16 R327) -/
  nev : Option DWord := none
  lane : Option Nat := none
  fault : Nat := 0
  deriving DecidableEq, Repr, Inhabited

/-- A join entry of the split table (08 R172). -/
structure Join where
  ra : DWord := 0
  expected : Nat := 0
  arrived : Nat := 0
  parent : Option Nat := none
  /-- when a fragment that has arrived last issued, for R168 -/
  since : Nat := 0
  deriving DecidableEq, Repr, Inhabited

/-- One access of a lane: its effective address and width; `j` numbers the words of a gather or scatter. -/
structure Acc where
  lane : Nat
  j : Nat := 0
  ea : Nat
  n : Nat
  deriving DecidableEq, Repr, Inhabited

/-- Where an access goes, as its address was translated: an access that waits then keeps the place (21 R394). -/
inductive Place where
  | mem (pa leaf : Nat)
  | ctrl (off : Nat)
  | scr (team off : Nat)
  | fifo (bank : Nat)
  | zero
  | poison
  deriving DecidableEq, Repr, Inhabited

/-- The first half of one access of `ldw.x4`: the access, its place, and the bytes read. -/
structure HalfRead where
  acc : Acc := default
  place : Place := .zero
  bytes : List Byte := []
  deriving DecidableEq, Repr, Inhabited

/-- How far a fragment is in an instruction that waits. -/
inductive Stage where
  /-- the instruction at the program counter has not begun -/
  | fresh
  /-- `rparw` after its arrival was made, waiting for the arrival's phase (09 R188) -/
  | own (arrival : Nat)
  /-- `yieldto` waiting for a handle; `full` once the handle has become FULL (09 R191) -/
  | yieldto (handle : Nat) (full : Bool)
  /-- `fwait` waiting for its release (11 R219) -/
  | release (id : Nat)
  /-- `stcm` waiting for its release (24 R431) -/
  | sending (id : Nat)
  /-- an instruction with a place among waiters: a FIFO access or `ssfree` -/
  | ticket (id : Nat)
  /-- `hwait` or `hfree` with a place among the waiters of a handle (13 R271): its group issues nothing meanwhile -/
  | handle (id : Nat)
  /-- `rpwait` waiting for its phase: its group issues nothing meanwhile (08 R168) -/
  | phase
  /-- `halloc` or a copy that waits for its handle: its group issues nothing meanwhile (08 R168) -/
  | blocked
  /-- `publish` under way (13 R274) -/
  | publish (id : Nat)
  /-- `ldasof` waiting for the Almanac width until the time given (24 R426) -/
  | width (deadline : Nat)
  /-- the same of `stcm`, past its release and its checks, with the places of its lanes (24 R431) -/
  | sendWidth (deadline : Nat) (places : List (Acc × Place))
  /-- `hwait` whose wait has been granted (13 R271), and `ssfree` whose set has been freed (18 R372) -/
  | released
  /-- `stcm` whose lanes are sent with this stamp, in the commit wait (24 R431) -/
  | commit (stamp : Nat) (discarded : Nat)
  /-- `sleep` until the time given (09 R190) -/
  | asleep (until_ : Nat)
  /-- `ldw.x4` whose half 0 or 1 has been read, and what each access got (11 R212) -/
  | half (hi : Nat) (got : List HalfRead)
  /-- an `atom` that has made its mode requests (10 R198), when, and the places of its lanes -/
  | mode (id : Nat) (places : List (Acc × Place))
  /-- `ldasof` past its width check, waiting for the horizon (24 R432) -/
  | horizon
  /-- an access that has begun, or an `stcm`, whose trap (code, cause, lanes, information) cannot be delivered yet (21 R386) -/
  | trapping (code cause lanes info : Nat)
  deriving DecidableEq, Repr, Inhabited

/-- An instruction that waits, as decoded, and the registers as it has read them (01 R27): it is not fetched again. -/
structure ReadRegs where
  instr : Instr := default
  v : List (Nat × Word) := []
  k : List (Nat × Word) := []
  p : List (Nat × Bool) := []
  /-- when it began, on the scale of the releases' numbers (11 R219) -/
  began : Nat := 0
  deriving DecidableEq, Repr, Inhabited

/-- A fragment (08 R172). -/
structure Fragment where
  mask : Nat := 0
  pc : DWord := 0
  /-- pending reconvergence address -/
  recon : Option DWord := none
  /-- link to a join entry -/
  link : Option Nat := none
  stage : Stage := .fresh
  /-- what its instruction has read, once that is past `fresh` -/
  read : Option ReadRegs := none
  /-- when it last issued, for R168 -/
  since : Nat := 0
  /-- its next fetch is an arrival whose mark is still to be checked (02 R43): 1 the launch entry, 2 a trap vector -/
  arrival : Nat := 0
  deriving DecidableEq, Repr, Inhabited

/-- The last successful translation of a lane, or an entry of a TLB (21 R393): page base, log2 of its size, leaf bits. -/
structure Xlat where
  base : Nat := 0
  size : Nat := 16
  leaf : Nat := 0
  deriving DecidableEq, Repr, Inhabited

/-- A parked instruction with its operand-log entry (21 R397): the instruction, its guarded lanes, the registers as read. -/
structure Parked where
  id : Nat := 0
  frag : Nat := 0
  pc : DWord := 0
  instr : Instr := default
  pass : Nat := 0
  active : Nat := 0
  dest : List RegName := []
  v : List (Nat × Word) := []
  k : List (Nat × Word) := []
  p : List (Nat × Bool) := []
  window : Nat := 0
  /-- an entry of the operand log was free; else the source registers, which later instructions may not write -/
  logged : Bool := true
  src : List RegName := []
  /-- how far its re-execution is -/
  stage : Stage := .fresh
  /-- the repeat counts of its next records, by address (21 R400); a replay lets it continue -/
  reps : List (Nat × Nat) := []
  go : Bool := false
  /-- when it was issued, on the scale of the releases' numbers (11 R219) -/
  began : Nat := 0
  deriving DecidableEq, Repr, Inhabited

/-- An open idempotent region (21 R404): its number, its live-in masks (R403), the pc of its `rgn`, the recorded split
table, link and LIVE mask. -/
structure Region where
  n : Nat := 0
  vmask : Nat := 0
  kmask : Nat := 0
  pc : DWord := 0
  joins : List (Nat × Join) := []
  link : Option Nat := none
  live : Nat := 0
  deriving DecidableEq, Repr, Inhabited

/-- A stored vertex (17 R345): x, y, z and attribute words. -/
structure Vertex where
  pos : List Word := []
  attrs : List Word := []
  deriving DecidableEq, Repr, Inhabited

/-- A triangle as the raster reads it, P1 and P2 exchanged where R352 says so: snapped vertices, depths, attribute words,
the attribute words of v0, the area, and the primitive key (17 R346, R352). -/
structure Tri where
  pts : List (Int × Int) := []
  z : List Nat := []
  attrs : List (List Word) := []
  area : Int := 0
  batch : Nat := 0
  team : Nat := 0
  group : Nat := 0
  seq : Nat := 0
  deriving DecidableEq, Repr, Inhabited

/-- What a fragment program knows of one lane (17 R355, R356, 18 R377, R378): the number of its sample lane's result, the
snapped position, whether it is a helper or demoted, and what it recorded. -/
structure FragLane where
  result : Nat := 0
  sample : Nat := 0
  tag : Word := 0
  x : Int := 0
  y : Int := 0
  helper : Bool := true
  demoted : Bool := false
  depth : Option Word := none
  channels : List (Nat × Word) := []
  deriving DecidableEq, Repr, Inhabited

/-- A fragment group's data: the set it shades for, its channels, its primitive and its lanes. -/
structure FragInfo where
  set : Nat := 0
  nch : Nat := 0
  tri : Tri := {}
  lanes : List (Nat × FragLane) := []
  deriving DecidableEq, Repr, Inhabited

/-- A deferred trap whose lanes wait at a join: its code, cause, lanes and information, and the active lanes of its instruction
(21 R449). -/
structure LateTrap where
  code : Nat := 0
  cause : Nat := 0
  lanes : Nat := 0
  info : Nat := 0
  active : Nat := 0
  deriving DecidableEq, Repr, Inhabited

/-- A group (01, 08). -/
structure Group where
  /-- number of its team, and its group slot on the core, 0 to 511 -/
  team : Nat := 0
  slot : Nat := 0
  /-- %group, %role, %team, %gridx, %gridy, %gridz (08 R159) -/
  idx : Nat := 0
  role : Nat := 0
  teamIndex : Nat := 0
  gridx : Nat := 0
  gridy : Nat := 0
  gridz : Nat := 0
  /-- declared vector and uniform counts (01 R15), issue priority class (08 R168), NBV (04 R102) -/
  nv : Nat := 0
  nk : Nat := 0
  prio : Nat := 0
  nbv : Nat := 1
  /-- v registers keyed lane * 256 + r, k registers, predicates keyed lane * 8 + r -/
  v : List (Nat × Word) := []
  k : List (Nat × Word) := []
  p : List (Nat × Bool) := []
  /-- %lstat of each lane (01 R19) -/
  lstat : List (Nat × Word) := []
  /-- the sticky bits [18:16] of %gstat (01 R20) -/
  gstat : Nat := 0
  /-- %splatmin (17 R342), %epch:%epcl, %ecode, %einfh:%einfl (21 R385) -/
  splatmin : Word := 0x3B800000
  epc : DWord := 0
  ecode : Word := 0
  einf : DWord := 0
  /-- completion registers (11 R217) -/
  crCluster : Nat := 0
  crDie : Nat := 0
  crDevice : Nat := 0
  crSystem : Nat := 0
  /-- last-page registers (21 R393) -/
  last : List (Nat × Xlat) := []
  frags : List (Nat × Fragment) := []
  joins : List (Nat × Join) := []
  windows : List Window := []
  parked : List Parked := []
  region : Option Region := none
  /-- fragments that do not issue until `rett` (21 R386) -/
  stopped : List Nat := []
  /-- the record of a parked fetch, the fragment whose it is, its repeat count and the address it is for (21 R397, R400) -/
  fetchPark : Option Nat := none
  fetchOwner : Nat := 0
  fetchRep : Nat := 0
  fetchAddr : Nat := 0
  /-- vertex store, Vc and Pc (17 R345) -/
  verts : List (Nat × Vertex) := []
  vc : Nat := 0
  pc : Nat := 0
  /-- DET reductions issued (12 R249) -/
  detSeq : Nat := 0
  /-- when it last issued, the cycles since then in which it was ready and did not, and promotion to class 3 (08 R168) -/
  issuedAt : Nat := 0
  passed : Nat := 0
  promoted : Bool := false
  shade : Option FragInfo := none
  /-- outcomes of the mode requests of an `atom` that waits, by lane: the old BANKMODE, or 2^32 when timed out, 2^32 + 1
  when rejected (10 R198) -/
  modeDone : List (Nat × Nat) := []
  /-- the last E, L and H that `alm` and `almhz` returned (24 R430) -/
  almE : Nat := 0
  almL : Nat := 0
  almH : Nat := 0
  /-- a NEVAL_FAULT to be taken before the next instruction: the `neval` and its substituted lanes (16 R327) -/
  nevTrap : Option (DWord × Nat) := none
  /-- deferred traps to be taken when their lanes stand in a fragment again (21 R449) -/
  late : List LateTrap := []
  deriving DecidableEq, Repr, Inhabited

/-! ### Teams, launches, contexts -/

/-- A kernel header as checked (01 R24). -/
structure Header where
  nbv : Nat := 1
  geomFlag : Bool := false
  fragFlag : Bool := false
  det : Bool := false
  entry : Nat := 0
  mstream : Nat := 0
  rtable : Nat := 0
  rcount : Nat := 0
  acc : Nat := 0
  scratch : Nat := 0
  /-- (vregs, uregs, groups) of roles 0 to roles - 1 -/
  roles : List (Nat × Nat × Nat) := []
  primLimit : Nat := 0
  vertLimit : Nat := 0
  traps : Nat := 0
  deriving DecidableEq, Repr, Inhabited

/-- A rendezvous point (09 R182), and the flags of its last arriver not yet decided under deterministic mode. -/
structure Rp where
  pend : DWord := 0
  phase : Word := 0
  init : Bool := false
  next : Nat := 0
  arr : Nat := 0
  count : Nat := 0
  deriving DecidableEq, Repr, Inhabited

/-- An undrained `red.det` entry (11 R223, 12 R249). DEDUCED, log entry 133. -/
structure DetEntry where
  group : Nat := 0
  lane : Nat := 0
  seq : Nat := 0
  pa : Nat := 0
  float : Bool := false
  fmt : Nat := 0
  op : Nat := 0
  operand : Nat := 0
  deriving DecidableEq, Repr, Inhabited

/-- The B latch (14 R279): bytes of the tile and its scale block. -/
structure BLatch where
  valid : Bool := false
  fmt : Nat := 0
  batched : Bool := false
  data : List (Nat × Byte) := []
  scales : List (Nat × Word) := []
  zeros : List (Nat × Byte) := []
  deriving DecidableEq, Repr, Inhabited

/-- A team sequencer (14 R286). -/
structure Seq where
  slot : Nat := 0
  spc : DWord := 0
  lstk : List (Nat × Nat) := []
  depth : Nat := 0
  sph : List (Nat × Word) := []
  aoff : Word := 0
  astride : Nat := 0
  afmt : Nat := 9
  saScale : List (Nat × Word) := []
  saZero : List (Nat × Byte) := []
  latch : BLatch := {}
  used : List (Nat × Bool) := []
  ended : Bool := false
  /-- the wait of the instruction at SPC has passed (15 R294) -/
  waited : Bool := false
  /-- the slot at SPC is reached by arrival -/
  arrival : Bool := true
  /-- the record that stops the sequencer, the repeat count of its translation and the address it is for (21 R400) -/
  stopped : Option Nat := none
  rep : Nat := 0
  repAddr : Nat := 0
  /-- the arrival of a `marr` being made -/
  arriving : Option Nat := none
  /-- a matrix operation asks for the array; the arbiter has granted it -/
  requesting : Bool := false
  granted : Bool := false
  /-- the instruction at SPC as fetched: a granted operation runs to its end with no other fetch (14 R286, R290) -/
  op : Option Instr := none
  deriving DecidableEq, Repr, Inhabited

/-- A resident or switched-out team (08 R157, R164, R167, 21 R407). -/
structure Team where
  launch : Nat := 0
  ctx : Nat := 0
  index : Nat := 0
  core : Nat := 0
  /-- the quarter of group 0 -/
  base : Nat := 0
  tkey : Nat := 0
  hdr : Header := {}
  det : Bool := false
  /-- co-residence size, 0 for none, and the number of its set -/
  cor : Nat := 0
  set : Nat := 0
  /-- L2 class of the launch queue -/
  cls : Nat := 0
  /-- physical tile of each logical tile -/
  tiles : List Nat := []
  /-- scratch units held, bank * 64 + unit (10 R196) -/
  units : List Nat := []
  scratch : List (Nat × Byte) := []
  rps : List (Nat × Rp) := []
  dets : List DetEntry := []
  seq : Option Seq := none
  /-- stopped for a switch-out; switched out (21 R407) -/
  stopping : Bool := false
  out : Bool := false
  /-- where its image lies in memory while it is out, and its length (21 R407) -/
  image : Nat × Nat := (0, 0)
  /-- groups and sequencer have ended but its storage is kept for its co-resident set -/
  ended : Bool := false
  deriving DecidableEq, Repr, Inhabited

/-- A launch accepted by the dispatcher (08 R160 to R174). -/
structure Launch where
  queue : Nat := 0
  ctx : Nat := 0
  prio : Nat := 0
  waitPrev : Bool := false
  replay : Bool := false
  det : Bool := false
  cor : Nat := 0
  dies : Nat := 0
  header : Nat := 0
  args : Nat := 0
  gx : Nat := 0
  gy : Nat := 0
  gz : Nat := 0
  calendar : Nat := 0
  compl : Nat := 0
  cls : Nat := 0
  hdr : Header := {}
  next : Nat := 0
  started : Nat := 0
  ended : Nat := 0
  status : Nat := 0
  detail : Nat := 0
  /-- the entries of a replayed Calendar, (core, team), and those already started -/
  entries : List (Nat × Nat) := []
  entriesDone : List Nat := []
  /-- teams taken that wait for room, the first of each set, with the core and the base quarter they wait for (08 R166) -/
  taken : List (Nat × Nat × Nat) := []
  /-- greatest CT_system of its stores -/
  ct : Nat := 0
  /-- the dies to which a resume has brought its teams (21 R406) -/
  ran : Nat := 0
  prev : Option Nat := none
  /-- the Calendar's first 64 bytes have been written; the completion record has been written -/
  sealed : Bool := false
  done : Bool := false
  deriving DecidableEq, Repr, Inhabited

/-- A registered context (21 R384). -/
structure Context where
  ptroot : Nat := 0
  tvec : Nat := 0
  evq : Nat := 0
  evidx : Nat := 0
  save : Nat := 0
  ntab : Nat := 0
  ntlen : Nat := 0
  evlog : Nat := 4
  /-- next sequence number; the completion time of the last record, which the store of the write index waits for (21 R388) -/
  seq : Nat := 0
  ringCt : Option Nat := none
  /-- the code that terminated it -/
  dead : Option Nat := none
  /-- terminated before an unregister completes -/
  leaving : Bool := false
  /-- where its descriptor stands -/
  desc : Option Nat := none
  deriving DecidableEq, Repr, Inhabited

/-- A registered queue (13 R267, 26 R440). -/
structure Queue where
  ctx : Nat := 0
  ring : Nat := 0
  widx : Nat := 0
  ridx : Nat := 0
  lslots : Nat := 4
  cls : Nat := 0
  launches : Bool := false
  /-- the record of a parked access and its repeat count -/
  parked : Option Nat := none
  rep : Nat := 0
  /-- the address that the repeat count is for (21 R400); DEDUCED, log entry 108 -/
  repAddr : Nat := 0
  /-- the latest launch taken from it -/
  last : Option Nat := none
  /-- the packet that the watcher has read and not yet dispatched; after the dispatch, the completion time of the store of 0
  to its kind, which the store of the read index waits for (13 R268) -/
  reading : Option (List Byte) := none
  slotCt : Option Nat := none
  /-- the packet has been dispatched; greatest completion time of the watcher's stores so far, which that of 0 waits for -/
  dispatched : Bool := false
  ct : Nat := 0
  /-- an unregister waits for the slot (26 R440) -/
  leaving : Bool := false
  deriving DecidableEq, Repr, Inhabited

/-- Who raised a record and continues at its replay (21 R398). -/
inductive RecAgent where
  | none
  | group (key park : Nat)
  | fetch (key : Nat)
  | seq (team : Nat)
  | copy (cluster command : Nat)
  | queue (queue : Nat)
  | station (core tile : Nat)
  | binner (set : Nat)
  deriving DecidableEq, Repr, Inhabited

/-- An event record (21 R389), waiting for ring space while it has no sequence number, then outstanding on route S. -/
structure Rec where
  id : Nat := 0
  ctx : Nat := 0
  code : Nat := 0
  cause : Nat := 0
  source : Nat := 0
  access : Nat := 0
  place : Nat := 0
  slot : Nat := 0
  rep : Nat := 0
  lanes : Nat := 0
  addr : Nat := 0
  pc : Nat := 0
  e : Nat := 0
  l : Nat := 0
  detail : Nat := 0
  tkey : Nat := 0
  agent : RecAgent := .none
  seq : Option Nat := Option.none
  deriving DecidableEq, Repr, Inhabited

/-! ### Memory and its ordering -/

/-- A store accepted and not yet performed at its home (11 R211, R216): who issued it, where and what, and the release it
waits for. DEDUCED, log entry 8. -/
structure PStore where
  id : Nat := 0
  group : Nat := 0
  lane : Nat := 0
  core : Nat := 0
  pa : Nat := 0
  bytes : List Byte := []
  after : Option Nat := none
  /-- it updated a copy in the issuer's cluster cache, when that die's L was this -/
  updated : Option Nat := none
  /-- the scratch of a team instead of physical memory -/
  scratch : Option Nat := none
  /-- CH 2: it leaves no copy in the cluster cache (10 R206) -/
  l2 : Bool := false
  /-- the lanes whose store of the same instruction to these bytes it stands for (11 R211) -/
  also : Nat := 0
  ctx : Nat := 0
  launch : Nat := 0
  deriving DecidableEq, Repr, Inhabited

/-- A release that waits (11 R219): its group and scope, and what it holds back: 0 nothing, 1 later stores, 2 every later
access of the group. -/
structure Rel where
  id : Nat := 0
  group : Nat := 0
  ctx : Nat := 0
  die : Nat := 0
  scope : Nat := 0
  hold : Nat := 0
  /-- greatest completion time, for its scope, of the stores before it -/
  ct : Nat := 0
  /-- the core of a `fence.smp`, which drops sampler lines once more when it completes (11 R225) -/
  smp : Option Nat := none
  /-- a `fence.acq`, which waits only for the accesses that have begun (11 R220) -/
  acq : Bool := false
  deriving DecidableEq, Repr, Inhabited

/-- An arrival made (09 R185): by a group's fragment or, with no group, by the sequencer of a team. -/
structure Arrival where
  id : Nat := 0
  team : Nat := 0
  group : Option Nat := none
  lanes : Nat := 0
  rp : Nat := 0
  /-- the release it waits for -/
  rel : Nat := 0
  /-- windows of D and P -/
  dwin : Nat := 0
  pwin : Nat := 0
  d : BitVec 9 := 0
  p : Nat := 7
  /-- the phase it was counted into -/
  ph : Option Word := none
  /-- the last-arriver flag is still open (deterministic mode) -/
  open_ : Bool := false
  deriving DecidableEq, Repr, Inhabited

/-- A leased copy of a 128-byte line (11 R215, R216): holder 0 to 63 a cluster cache, 64 to 71 a die's L2, 72
the peers. -/
structure LineCopy where
  holder : Nat := 0
  line : Nat := 0
  bytes : List Byte := []
  expiry : Nat := 0
  /-- stores forwarded and not performed -/
  dirty : List Nat := []
  deriving DecidableEq, Repr, Inhabited

/-- A kept version of a stamped line (24 R422): its place in the order, the line's bytes, and each word's stamp. -/
structure Version where
  stamp : Nat := 0
  die : Nat := 0
  order : Nat := 0
  lane : Nat := 0
  /-- the word it wrote, 16 for version 0 -/
  word : Nat := 16
  bytes : List Byte := []
  stamps : List Nat := []
  /-- the die, the order and the lane of each word's writer -/
  writers : List (Nat × Nat × Nat) := []
  deriving DecidableEq, Repr, Inhabited

/-- A lane of a `stcm` (24 R422, R431). -/
structure StcmLane where
  id : Nat := 0
  group : Nat := 0
  lane : Nat := 0
  die : Nat := 0
  order : Nat := 0
  pa : Nat := 0
  bytes : List Byte := []
  stamp : Nat := 0
  /-- recorded at its home; formed as a version -/
  recorded : Bool := false
  formed : Bool := false
  deriving DecidableEq, Repr, Inhabited

/-- A publish under way or the swap stamp of a page of a range (13 R274, 11 R228, R229). -/
structure Publish where
  id : Nat := 0
  ctx : Nat := 0
  group : Nat := 0
  frag : Nat := 0
  base : Nat := 0
  count : Nat := 0
  scope : Nat := 0
  stamp : Option Nat := none
  deriving DecidableEq, Repr, Inhabited

/-- The swap stamp of a publishable page (11 R228). -/
structure SwapStamp where
  ctx : Nat := 0
  base : Nat := 0
  size : Nat := 16
  stamp : Nat := 0
  /-- the backing visible from the stamp on -/
  vis : Bool := false
  deriving DecidableEq, Repr, Inhabited

/-- A migration under way (11 R226, R227). -/
structure Migration where
  ctx : Nat := 0
  va : Nat := 0
  entry : Nat := 0
  leaf : Nat := 0
  size : Nat := 16
  new : Nat := 0
  /-- writes of the hub to the old frame, in order, which wait at their homes -/
  waits : List (Nat × List Byte) := []
  deriving DecidableEq, Repr, Inhabited

/-! ### Clusters -/

/-- A mode request waiting at a bank (10 R198). -/
structure ModeReq where
  id : Nat := 0
  mode : Nat := 0
  width : Nat := 0
  deadline : Nat := 0
  /-- the lane of the group whose `atom` makes it, none for the host -/
  who : Option (Nat × Nat) := none
  deriving DecidableEq, Repr, Inhabited

/-- A group's place among the waiters of a FIFO bank (10 R202). -/
structure FifoWait where
  id : Nat := 0
  group : Nat := 0
  push : Bool := false
  count : Nat := 0
  deriving DecidableEq, Repr, Inhabited

/-- An SRAM bank (10 R197 to R202). -/
structure Bank where
  mode : Nat := 0
  width : Nat := 0
  result : Nat := 0
  failed : Bool := false
  /-- FIFO entries, oldest first -/
  fifo : List (List Byte) := []
  waits : List FifoWait := []
  reqs : List ModeReq := []
  deriving DecidableEq, Repr, Inhabited

/-- A buffer handle (13 R270), and its waiters in order of arrival: a ticket, with 0 for `hwait.take`, 1 for `hwait.peek`
and 2 for `hfree`. -/
structure Handle where
  landed : Nat := 0
  commit : Nat := 0
  size : Nat := 0
  base : Nat := 0
  owner : Nat := 0
  team : Nat := 0
  space : Nat := 0
  state : Nat := 0
  waits : List (Nat × Nat) := []
  deriving DecidableEq, Repr, Inhabited

/-- A copy command (13 R255 to R262): its fields, who issued it, and how far it is. -/
structure Copy where
  id : Nat := 0
  ctx : Nat := 0
  /-- the issuing group and team, none for a queue copy -/
  group : Option Nat := none
  team : Option Nat := none
  queue : Option Nat := none
  /-- the teams whose scratch the destination and the source name (08 R167) -/
  dteam : Nat := 0
  steam : Nat := 0
  dfmt : Nat := 0
  sfmt : Nat := 0
  dst : Nat := 0
  src : Nat := 0
  count : Nat := 0
  ctl : Nat := 0
  param : Nat := 0
  rows : Nat := 0
  sstride : Nat := 0
  dstride : Nat := 0
  signal : Nat := 0
  /-- the release it waits for before it reads -/
  rel : Nat := 0
  /-- where its packet stands in the spill ring (R266) -/
  ring : Option Nat := none
  active : Bool := false
  /-- chunks landed; the next chunk's stores are performed, with their greatest CT_cluster; greatest CT_system -/
  landed : Nat := 0
  written : Option Nat := none
  ctSystem : Nat := 0
  /-- the record it is suspended on, and the repeat count of the chunk -/
  parked : Option Nat := none
  rep : Nat := 0
  /-- the address that the repeat count is for (21 R400); DEDUCED, log entry 108 -/
  repAddr : Nat := 0
  /-- an abandoned queue copy writes this instead of its signal -/
  failCode : Nat := 0
  deriving DecidableEq, Repr, Inhabited

/-- A cluster (10, 13). -/
structure Cluster where
  banks : List (Nat × Bank) := []
  handles : List (Nat × Handle) := []
  /-- accepted and active commands in order; spilled commands in order -/
  copies : List Copy := []
  spilled : List Copy := []
  /-- the next place of the spill ring -/
  spillNext : Nat := 0
  /-- remap entries in use, by command (21 R408) -/
  remaps : List Nat := []
  deriving DecidableEq, Repr, Inhabited

/-! ### Cores -/

/-- A tag register ACCTAG (14 R284). -/
structure AccTag where
  ctx : Nat := 0
  tkey : Nat := 0
  ltile : Nat := 0
  valid : Bool := false
  deriving DecidableEq, Repr, Inhabited

/-- A transform request accepted by the pipe (14 R291): the window it fills. -/
structure XfReq where
  group : Nat := 0
  window : Nat := 0
  writes : List RegWrite := []
  flags : List (Nat × Nat) := []
  deriving DecidableEq, Repr, Inhabited

/-- A network evaluation request of one lane (16 R316, R320): who asks, the network as read at issue (the table entry, the
descriptor and its layer records), the input registers as read, and the first register of the output run. -/
structure NevReq where
  id : Nat := 0
  ctx : Nat := 0
  group : Nat := 0
  /-- the group slot, for the order of rows -/
  slot : Nat := 0
  lane : Nat := 0
  handle : Nat := 0
  window : Nat := 0
  inputs : List Word := []
  dreg : Nat := 0
  time : Nat := 0
  entry : Nat := 0
  net : List Byte := []
  deriving DecidableEq, Repr, Inhabited

/-- A tile of the gather station in flight (16 R322, R323). -/
structure NevTile where
  tile : Nat := 14
  ctx : Nat := 0
  handle : Nat := 0
  rows : List NevReq := []
  layer : Nat := 0
  /-- activations of each row as bf16 bits; after the last layer its outputs as f32 bits -/
  acts : List (List Nat) := []
  /-- the outputs are substituted: 1 under ZERO, 2 under POISON (16 R326) -/
  subst : Nat := 0
  granted : Bool := false
  parked : Option Nat := none
  /-- the pages on which it is parked; the repeat counts of the next records, by page, which a replay raises (21 R400, 22 R413) -/
  faulted : List Nat := []
  reps : List (Nat × Nat) := []
  deriving DecidableEq, Repr, Inhabited

/-- A handle slot of the station (16 R320 to R322); `eligible` numbers the order in which slots became eligible. -/
structure NevSlot where
  slot : Nat := 0
  ctx : Nat := 0
  handle : Nat := 0
  reqs : List NevReq := []
  eligible : Option Nat := none
  deriving DecidableEq, Repr, Inhabited

/-- A core (08, 14, 16). -/
structure Core where
  failed : Bool := false
  /-- %mxprio (14 R290) -/
  mxprio : Nat := 0x10
  /-- the arbiter: last winner of the high and the low level (0 the station, 1 to 4 a slot), consecutive high grants -/
  lastHigh : Nat := 4
  lastLow : Nat := 4
  highRun : Nat := 0
  tags : List (Nat × AccTag) := []
  /-- tile contents keyed tile * 4096 + 64 m + n -/
  tiles : List (Nat × Word) := []
  tlb : List (Nat × Xlat) := []
  /-- instruction-fetch copies (02 R41) and sampler lines (10 R209), keyed by physical address of the line -/
  ilines : List (Nat × List Byte) := []
  smlines : List (Nat × List Byte) := []
  /-- the transform pipe, oldest first, and the requests not yet granted -/
  xf : List XfReq := []
  xfWait : List XfReq := []
  /-- the last quarter granted by the pipe (08 R170) -/
  xfLast : Nat := 3
  slots : List NevSlot := []
  ntiles : List NevTile := []
  nspill : List NevReq := []
  /-- the next place of the station's spill ring -/
  nspillNext : Nat := 0
  deriving DecidableEq, Repr, Inhabited

/-! ### Graphics -/

/-- A primitive on its way to the binner, or as an entry names it (17 R346, R348): a triangle's three vertices, each x, y,
z and eight attribute words; or a splat's mx, my, a, b, c, opacity, depth, r, g, b. -/
structure Prim where
  splat : Bool := false
  verts : List (List Word) := []
  batch : Nat := 0
  team : Nat := 0
  group : Nat := 0
  seq : Nat := 0
  deriving DecidableEq, Repr, Inhabited

/-- A piece of work of a die's binner, in order of arrival (17 R349, 18 R366, R375, R376): a primitive, or a flush. -/
structure BinWork where
  id : Nat := 0
  ctx : Nat := 0
  set : Nat := 0
  /-- the group that waits until the work is done -/
  owner : Nat := 0
  prim : Option Prim := none
  ending : Bool := false
  /-- the primitive has already made a partial flush -/
  tried : Bool := false
  deriving DecidableEq, Repr, Inhabited

/-- A result to be applied to a sample, in primitive order (17 R358, R359, R361). -/
structure BlendRes where
  id : Nat := 0
  sample : Nat := 0
  cell : Nat := 0
  cluster : Nat := 0
  x : Int := 0
  y : Int := 0
  batch : Nat := 0
  team : Nat := 0
  group : Nat := 0
  seq : Nat := 0
  order : Nat := 0
  splats : Bool := false
  z : Nat := 0
  channels : List (Nat × Word) := []
  ready : Bool := false
  discarded : Bool := false
  deriving DecidableEq, Repr, Inhabited

/-- A fragment group still to be started: its triangle, cell, cluster, and the results of its quads (17 R356). -/
structure FragWork where
  tri : Tri := {}
  cell : Nat := 0
  cluster : Nat := 0
  quads : List (Nat × Nat) := []
  deriving DecidableEq, Repr, Inhabited

/-- A flush under way (17 R350): the results not yet applied, the fragment groups not yet started, the splats of each cell,
and the entries it ignored. -/
structure Flush where
  results : List BlendRes := []
  launches : List FragWork := []
  splats : List (Nat × List Prim) := []
  disc : Nat := 0
  deriving DecidableEq, Repr, Inhabited

/-- A leaf of a built index (17 R339, R341): its key, and its samples in ascending index with their snapped positions. -/
structure Leaf where
  cell : Nat := 0
  path : Nat := 0
  samples : List (Nat × Int × Int) := []
  deriving DecidableEq, Repr, Inhabited

/-- What the device holds of a sample set besides its record (17 R334 to R361), by ctx * 2^64 + handle.
DESIGN CHOICE, log entry 76. -/
structure SetSt where
  ctx : Nat := 0
  handle : Nat := 0
  leaves : List Leaf := []
  /-- the bind: its group, program counter and pass (18 R370, R371), its die and the L2 class of its launch queue -/
  bindGroup : Nat := 0
  bindPc : DWord := 0
  bindPass : Nat := 0
  die : Nat := 0
  /-- the die whose binner slice serves the pass, the home of its pool descriptor at the bind (17 R349) -/
  binner : Nat := 0
  cls : Nat := 0
  /-- the fragment kernel header as checked at the bind -/
  hdr : Header := {}
  /-- the ending `rflush` has been performed; its flush has completed; the group that waits for the end of the pass -/
  ending : Bool := false
  passEnd : Bool := false
  endOwner : Nat := 0
  flush : Option Flush := none
  /-- waiting `ssfree`: ticket and group, in order of arrival (18 R372) -/
  freers : List (Nat × Nat) := []
  /-- the record that its binner work waits for, and the repeat count -/
  parked : Option Nat := none
  rep : Nat := 0
  /-- the address that the repeat count is for (21 R400); DEDUCED, log entry 108 -/
  repAddr : Nat := 0
  /-- greatest CT_device of the blend unit's stores of the pass (17 R344) -/
  ct : Nat := 0
  deriving DecidableEq, Repr, Inhabited

/-! ### Dies -/

/-- A die (11, 24); number 8 stands for the hub's Almanac reference, of which only E and L count (21 R389). -/
structure Die where
  e : Nat := 0
  l : Nat := 0
  /-- copy of the horizon, and the copies of its 16 home slices (24 R420) -/
  h : Nat := 0
  hs : List (Nat × Nat) := []
  almlimit : Word := 0x100
  almtimeout : Word := 0x10000
  available : Bool := true
  /-- when it last sent a floor -/
  floorTime : Nat := 0
  /-- an L2 slice has failed -/
  l2Failed : Bool := false
  /-- work of the binner slice, in order of arrival (17 R349, 18 R366) -/
  binner : List BinWork := []
  deriving DecidableEq, Repr, Inhabited

/-! ### The whole -/

/-- Who executes the instruction that exec is given. -/
inductive Cur where
  | idle
  /-- a fragment of a group -/
  | frag (group frag : Nat)
  /-- a parked instruction, re-executed from its log entry -/
  | replay (group park : Nat)
  /-- the sequencer of a team -/
  | seq (team : Nat)
  deriving DecidableEq, Repr, Inhabited

/-- The machine. -/
structure State where
  /-- the model's own: who executes, what runs next, how many choices and fresh numbers have been
  drawn; DESIGN CHOICE, log entries 3, 4 -/
  cur : Cur := .idle
  agenda : List Act := []
  turn : Nat := 0
  fresh : Nat := 0
  /-- the model's own: the next number for a team, store, release, arrival, record or window; DESIGN CHOICE, log entry 125 -/
  uid : Nat := 1
  /-- true time in ticks of 0.25 ns (24 R418) -/
  now : Nat := 0
  /-- core clock cycles counted since the device's reset, as far as an instruction has read them (06 R137) -/
  cycles : Nat := 0
  /-- physical memory: rising addresses, no listed byte is 0 -/
  mem : List Host.Cell := []
  /-- bytes of the dies' GiB that no entry of the memory map maps (26 R437), keyed die * 2^40 + GiB * 2^30 + offset, and what
  such bytes held before -/
  talus : List Host.Cell := []
  talusHist : List (Nat × List Byte) := []
  /-- the model's own: the different values that a byte of physical memory held before, which a `cdisc` may bring back (12
  R254); DESIGN CHOICE, log entry 140 -/
  hist : List (Nat × List Byte) := []
  /-- control registers that hold what was written, keyed by offset in the control region (26 R438) -/
  ctl : List (Nat × Nat) := []
  dies : List (Nat × Die) := []
  clusters : List (Nat × Cluster) := []
  cores : List (Nat × Core) := []
  teams : List (Nat × Team) := []
  groups : List (Nat × Group) := []
  launches : List (Nat × Launch) := []
  contexts : List (Nat × Context) := []
  queues : List (Nat × Queue) := []
  recs : List Rec := []
  stores : List PStore := []
  rels : List Rel := []
  arrivals : List Arrival := []
  copies : List LineCopy := []
  /-- host-memory lines held by the device, with the die that holds each (11 R224); device lines cached by the host -/
  hostLines : List (Nat × Nat) := []
  hostCached : List Nat := []
  /-- the bytes that the last read by the host or by a peer returned -/
  hostData : List Byte := []
  /-- greatest CT_system of the host's writes (11 R231) -/
  hostCt : Nat := 0
  versions : List (Nat × List Version) := []
  /-- the horizons of the last 64 ticks, with the times from which they held, newest first (24 R420) -/
  hlog : List (Nat × Nat) := []
  stcms : List StcmLane := []
  publishes : List Publish := []
  swaps : List SwapStamp := []
  /-- greatest CT_system of the engine writes to each 64 KiB frame of a publishable page (13 R274) -/
  shadowCt : List (Nat × Nat) := []
  migration : Option Migration := none
  /-- a sweep under way and the waiting ones (21 R394); pre-emption and resume requests (21 R406) -/
  sweeps : List Nat := []
  preempts : List Nat := []
  resumes : List Nat := []
  /-- lines that answer MACHINE_CHECK (26 R444), and those of them that a page mapped when they were marked; ports down;
  resends of the current flit by port -/
  badLines : List Nat := []
  badPages : List Nat := []
  portsDown : List Nat := []
  resends : List (Nat × Nat) := []
  /-- sample sets in the pipeline, by context and handle -/
  sets : List (Nat × SetSt) := []
  /-- BOOTSTAT (26 R446) and the power state (26 R448) -/
  reason : Nat := 0
  fails : Nat := 0
  minimal : Bool := false
  ready : Bool := false
  power : Nat := 0
  deriving DecidableEq, Repr, Inhabited

/-- The value of a stored control register at reset: DONE of INVCTL, PREEMPT, RESUME, MIGCTL, CTXCMD and QCMD (21 R394,
R406, 11 R227, 26 R439, R440); BMTIMEOUT (10 R197); L2CLS (10 R207); LEASE (11 R215); NVCTL (16 R321); else 0.
DESIGN CHOICE, log entry 2. -/
def State.ctlReset (off : Nat) : Nat :=
  if off = 0x48 ∨ off = 0x60 ∨ off = 0x68 then 2
  else if off = 0x88 ∨ off = 0x108 ∨ off = 0x118 then 4
  else if off < 0x04000000 then 0
  else
    let o := off % 0x04000000
    if o = 0x100 then 0x24
    else if o = 0x104 then 0x24
    else if o = 0x108 then 0x12
    else if o = 0x10C then 0x32
    else if o = 0x110 then 0x1000
    else if 0x00100000 ≤ o ∧ o < 0x00900000 ∧ o % 0x00100000 = 0x80 then 0x00100000
    else if 0x01000000 ≤ o ∧ (o - 0x01000000) % 0x00080000 = 0x300 then 0x0100
    else 0

/-- The machine right after reset: every field at the value the spec gives, the others at those of assumption log
entries 1, 2 and 4. DESIGN CHOICE, log entry 2. -/
def State.reset : State := {}

end Sys2Proof.Machine
end

