-- ==== Sys2Proof/Machine/Ops.lean ====
section
/-! DEFINITION. The named operations over the state: accessors, physical memory and its homes, translation, records,
termination, lookahead windows, fragments and the split table, fetching, taking a trap and returning from one. -/

namespace Sys2Proof.Machine

open Sys2Proof.Bits

namespace Ops

/-! ### Accessors -/

def die (s : State) (d : Nat) : Die := Maps.get {} d s.dies
def setDie (s : State) (d : Nat) (x : Die) : State := { s with dies := Maps.insert d x s.dies }
def cluster (s : State) (c : Nat) : Cluster := Maps.get {} c s.clusters
def setCluster (s : State) (c : Nat) (x : Cluster) : State := { s with clusters := Maps.insert c x s.clusters }
def core (s : State) (c : Nat) : Core := Maps.get {} c s.cores
def setCore (s : State) (c : Nat) (x : Core) : State := { s with cores := Maps.insert c x s.cores }
def setTeam (s : State) (t : Nat) (x : Team) : State := { s with teams := Maps.insert t x s.teams }
def setGroup (s : State) (g : Nat) (x : Group) : State := { s with groups := Maps.insert g x s.groups }
def setLaunch (s : State) (l : Nat) (x : Launch) : State := { s with launches := Maps.insert l x s.launches }
def setContext (s : State) (c : Nat) (x : Context) : State := { s with contexts := Maps.insert c x s.contexts }
def setQueue (s : State) (q : Nat) (x : Queue) : State := { s with queues := Maps.insert q x s.queues }
def setSet (s : State) (k : Nat) (x : SetSt) : State := { s with sets := Maps.insert k x s.sets }

def modTeam (s : State) (t : Nat) (f : Team → Team) : State := { s with teams := Maps.modify t f s.teams }
def modGroup (s : State) (g : Nat) (f : Group → Group) : State := { s with groups := Maps.modify g f s.groups }
def modLaunch (s : State) (l : Nat) (f : Launch → Launch) : State := { s with launches := Maps.modify l f s.launches }

/-- A bank; banks 0 to 15 start in cache mode, 16 to 31 in scratch mode (10 R197). -/
def bank (cl : Cluster) (b : Nat) : Bank := Maps.get { mode := if b < 16 then 0 else 1 } b cl.banks

def setBank (s : State) (c b : Nat) (x : Bank) : State :=
  setCluster s c { cluster s c with banks := Maps.insert b x (cluster s c).banks }

/-- Serve the waiting mode requests of a cluster's banks at once (10 R198 step 4). -/
def kickBanks (s : State) (c : Nat) : State :=
  let waiting := (cluster s c).banks.filter (fun e => !e.2.reqs.isEmpty)
  { s with agenda := s.agenda ++ waiting.map (fun e => Act.event (.bankModeChange c e.1)) }

/-- The same for every cluster. -/
def kickAll (s : State) : State := s.clusters.foldl (fun s e => kickBanks s e.1) s

/-- A buffer handle; unlisted handles are FREE (13 R270). -/
def handle (cl : Cluster) (h : Nat) : Handle := Maps.get {} h cl.handles

def setHandle (s : State) (c h : Nat) (x : Handle) : State :=
  setCluster s c { cluster s c with handles := Maps.insert h x (cluster s c).handles }

/-- The team, with its group's key. -/
def groupKey (team idx : Nat) : Nat := team * 32 + idx

def team? (s : State) (t : Nat) : Option Team := Maps.find? t s.teams
def group? (s : State) (g : Nat) : Option Group := Maps.find? g s.groups

/-- The groups of a team, in index order. -/
def groupsOf (s : State) (t : Nat) : List (Nat × Group) := s.groups.filter (fun e => e.2.team == t)

/-- A stored control register, by its offset in the control region. -/
def ctl (s : State) (off : Nat) : Nat := Maps.get (State.ctlReset off) off s.ctl

/-- Store a control register; its reset value is not listed. -/
def setCtl (s : State) (off v : Nat) : State := { s with ctl := Maps.set (State.ctlReset off) off v s.ctl }

/-- Offsets of the die, cluster and core blocks (26 R438). -/
def dieOff (d : Nat) : Nat := (d + 1) * 0x04000000
def clusterOff (c : Nat) : Nat := dieOff (c / 8) + 0x00100000 * (c % 8 + 1)
def coreOff (k : Nat) : Nat := dieOff (k / 64) + 0x01000000 + (k % 64) * 0x00080000

/-- A number never given before. DESIGN CHOICE, log entry 125. -/
def newId (s : State) : Nat × State := (s.uid, { s with uid := s.uid + 1 })

/-- The number of the next free value. -/
def drawFree (s : State) : Nat × State := (s.fresh, { s with fresh := s.fresh + 1 })

/-! ### Physical memory -/

/-- One byte; what nothing has written reads 0 (log entry 1). -/
def readByte (s : State) (a : Nat) : Byte := Maps.get 0 a s.mem

/-- `n` bytes from `a` upward. DESIGN CHOICE, log entry 1. -/
def readBytes (s : State) (a n : Nat) : List Byte := Maps.slice 0 a n s.mem

/-- `n` bytes as a little-endian number (00 R3). -/
def readNat (s : State) (a n : Nat) : Nat := ofBytes (readBytes s a n)

/-- The earlier values of the bytes from `a` upward, once other values are written there. DESIGN CHOICE, log entry 140. -/
def noteOld (s : State) (a : Nat) (bs : List Byte) : List (Nat × List Byte) :=
  (((readBytes s a bs.length).zip bs).zipIdx a).foldl (fun m e =>
    if e.1.1 = e.1.2 ∨ (Maps.get [] e.2 m).contains e.1.1 then m else Maps.insert e.2 (e.1.1 :: Maps.get [] e.2 m) m) s.hist

/-- Write bytes from `a` upward; a byte of 0 is not listed. -/
def writeBytes (s : State) (a : Nat) (bs : List Byte) : State :=
  { s with mem := Maps.putAll 0 a bs s.mem, hist := noteOld s a bs }

/-- Write a little-endian number of `n` bytes. -/
def writeNat (s : State) (a n v : Nat) : State := writeBytes s a (toBytes n v)

/-- The windows of the physical address map (26 R436). -/
inductive Window52 where
  | device | peer (n : Nat) | host | control | none
  deriving DecidableEq, Repr

/-- The window of a physical address. -/
def windowOf (pa : Nat) : Window52 :=
  if pa < 2 ^ 40 then .device
  else if 2 ^ 48 ≤ pa ∧ pa < 2 ^ 48 + 64 * 2 ^ 40 then .peer ((pa - 2 ^ 48) / 2 ^ 40)
  else if 2 ^ 51 ≤ pa ∧ pa < 15 * 2 ^ 48 then .host
  else if 2 ^ 52 - 2 ^ 40 ≤ pa ∧ pa < 2 ^ 52 then .control
  else .none

/-- The map entry of a local region (26 R437). -/
def memmap (s : State) (r : Nat) : Nat := ctl s (0x1000 + 8 * r)

/-- Does some live port reach the peer (26 R443)? -/
def peerReached (s : State) (n : Nat) : Bool :=
  (upto 12).any (fun p => (ctl s (0x3000 + 8 * n)).testBit p && !s.portsDown.contains p)

/-- The home die of a physical address, none when an access raises MACHINE_CHECK: an unmapped region, a failed line, an
unavailable die, or a peer without a live port (10 R204, R210; 26 R437, R443 to R445). -/
def homeDie (s : State) (issuer pa : Nat) : Option Nat :=
  if s.badLines.contains (pa / 128) then none
  else match windowOf pa with
    | .device =>
      let e := memmap s (field pa 30 10)
      let d := if field e 0 2 = 1 then some (field e 2 3) else if field e 0 2 = 2 then some (field pa 12 3) else none
      match d with
      | some d => if (die s d).available then some d else none
      | none => none
    | .peer n => if peerReached s n then some issuer else none
    | .host => some issuer
    | .control => some issuer
    | .none => none

/-- A range cut at the multiples of a size. -/
def cutAt (size va n : Nat) : List (Nat × Nat) :=
  if n = 0 then [] else
  (upto ((va + n - 1) / size - va / size + 1)).map (fun i =>
    let at_ := max va ((va / size + i) * size)
    (at_ % 2 ^ 64, min (va + n) ((va / size + i + 1) * size) - at_))

/-- Every byte of a range of physical memory can be reached: no failed line, and a home for each 4 KiB, in which a stripe does
not change (10 R210; 26 R437, R443 to R445). -/
def reachable (s : State) (d pa n : Nat) : Bool :=
  n == 0 || (s.badLines.all (fun l => !(decide (l * 128 < pa + n) && decide (pa < l * 128 + 128))) &&
    (cutAt 4096 pa n).all (fun p => (homeDie s d p.1).isSome))

/-- Two byte ranges meet. -/
def meets (a n b m : Nat) : Bool := decide (a < b + m) && decide (b < a + n)

/-- The host's cached copies of the lines of a range are invalidated before a store is performed (R224). -/
def backInvalidateSpan (s : State) (pa n : Nat) : State :=
  { s with hostCached := s.hostCached.filter (fun l => !meets (l * 128) 128 pa n) }

/-- The frame of a leaf, and the bytes that it names: twice the page for a publishable page (R229). -/
def frameOf (e : Nat) : Nat := field e 16 36 * 2 ^ 16
def frameLen (leaf size : Nat) : Nat := 2 ^ (if leaf.testBit 60 then size + 1 else size)

/-- A range reaches into the frame that a migration copies; an address lies there (11 R226). -/
def moves (s : State) (pa n : Nat) : Bool :=
  match s.migration with
  | none => false
  | some m => meets (frameOf m.leaf) (frameLen m.leaf m.size) pa n
def migrating (s : State) (pa : Nat) : Bool := moves s pa 1

/-- A write of the hub performed at the home: the host's copies go, and its lines are no longer stamped. -/
def hubPut (s : State) (pa : Nat) (bs : List Byte) : State :=
  let s1 := backInvalidateSpan (writeBytes s pa bs) pa bs.length
  { s1 with versions := s1.versions.filter (fun e => !meets (e.1 * 128) 128 pa bs.length) }

/-- A write of the hub, performed at once; one to a frame that a migration copies waits at its home for step 4 (11 R226). -/
def hubWrite (s : State) (pa : Nat) (bs : List Byte) : State :=
  match s.migration with
  | none => hubPut s pa bs
  | some m =>
    if moves s pa bs.length then { s with migration := some { m with waits := m.waits ++ [(pa, bs)] } } else hubPut s pa bs

/-- A write of the hub waits for a migration; what depends on it waits too. -/
def hubWaits (s : State) : Bool := match s.migration with | none => false | some m => !m.waits.isEmpty

/-! ### Almanac comparisons -/

/-- The die's E exceeds a time (11 R219). -/
def passed (s : State) (d t : Nat) : Bool := decide (t < (die s d).e)

/-! ### Records and the device log (21 R388, R389; 26 R441) -/

/-- Raise a record: it waits for ring space (EVENT_RECORD_WRITE). The interval is that of the raising die, or of the hub's
Almanac reference, number 8 among the dies (21 R389). -/
def raise (s : State) (r : Rec) : Nat × State :=
  let d := if r.source = 5 then 8 else r.place / 64
  (s.uid, { s with uid := s.uid + 1, recs := s.recs ++ [{ r with id := s.uid, e := (die s d).e, l := (die s d).l }] })

/-- The 64 bytes of a record with a sequence number. -/
def recBytes (r : Rec) (seq : Nat) : List Byte :=
  toBytes 4 seq ++ toBytes 1 r.code ++ toBytes 1 r.cause ++ toBytes 1 r.source ++ toBytes 1 r.access ++
    toBytes 2 r.ctx ++ toBytes 2 r.place ++ toBytes 2 r.slot ++ toBytes 1 r.rep ++ toBytes 1 r.lanes ++
    toBytes 8 r.addr ++ toBytes 8 r.pc ++ toBytes 8 r.e ++ toBytes 8 r.l ++ toBytes 8 r.detail ++ toBytes 4 r.tkey ++
    toBytes 4 0

/-- Write a record to the device log, or count it as dropped. DEDUCED, log entry 34. -/
def devlog (s : State) (code ctx place detail : Nat) : State :=
  let reg := ctl s 0x120
  let lg := field reg 0 5
  let w := ctl s 0x128
  let idx := field w 0 32
  let drops := field w 32 32
  if lg < 4 ∨ 16 < lg ∨ 2 ^ lg ≤ (idx + 2 ^ 32 - ctl s 0x130 % 2 ^ 32) % 2 ^ 32 then
    setCtl s 0x128 (idx + ((drops + 1) % 2 ^ 32) * 2 ^ 32)
  else
    let r : Rec := { code := code, ctx := ctx, source := 5, place := place, detail := detail, e := (die s 8).e,
                     l := (die s 8).l }
    let s := hubWrite s (field reg 12 40 * 4096 + 64 * (idx % 2 ^ lg)) (recBytes r idx)
    setCtl s 0x128 ((idx + 1) % 2 ^ 32 + drops * 2 ^ 32)

/-! ### The visible version of a stamped line (24 R420, R424) -/

/-- The address lies in the frame of a stamped page that migrates: every access to it waits (24 R425). -/
def stampedMoves (s : State) (pa : Nat) : Bool :=
  match s.migration with
  | none => false
  | some m => m.leaf.testBit 61 && decide (frameOf m.leaf ≤ pa) && decide (pa < frameOf m.leaf + 2 ^ m.size)

/-- Version 0 of a line: its contents in memory, with stamp 0 in every word. -/
def version0 (s : State) (line : Nat) : Version :=
  { bytes := readBytes s (line * 128) 128, stamps := List.replicate 16 0, writers := List.replicate 16 (0, 0, 0) }

/-- The kept versions of a line, oldest first. -/
def versionsOf (s : State) (line : Nat) : List Version :=
  match Maps.find? line s.versions with
  | some vs => vs
  | none => [version0 s line]

/-- The copy of H that the home slice of a line on a die holds (R420, 10 R204). A line of host or peer memory takes the slice
of the die that asks (10 R204); so that a version of it becomes visible to all agents at one moment (R424), die 0's copy of H
decides for every one. DESIGN CHOICE, log entry 163. -/
def homeH (s : State) (home line : Nat) : Nat :=
  Maps.get 0 (Config.homeSlice line % 16) (die s (if windowOf (line * 128) = .device then home else 0)).hs

/-- A version is visible once the home's copy of H exceeds its stamp; version 0 always is. -/
def visible (s : State) (home line : Nat) (v : Version) : Bool := v.word == 16 || decide (v.stamp < homeH s home line)

/-- The latest visible version. DEDUCED, log entry 101. -/
def latestVisible (s : State) (home line : Nat) : Version :=
  ((versionsOf s line).filter (visible s home line)).getLast?.getD (version0 s line)

/-- Bytes of one line at its home, for an access under a leaf: those of a stamped page are the latest visible version. -/
def homeBytesAt (s : State) (home leaf pa n : Nat) : List Byte :=
  if leaf.testBit 61 then ((latestVisible s home (pa / 128)).bytes.drop (pa % 128)).take n else readBytes s pa n

/-- The bytes of a line as every agent sees them. -/
def seenLine (s : State) (line : Nat) : List Byte :=
  match Maps.find? line s.versions with
  | none => readBytes s (line * 128) 128
  | some _ => (latestVisible s ((homeDie s 0 (line * 128)).getD 0) line).bytes

/-- `n` bytes from `pa` upward as every agent sees them: a stamped line is its latest visible version (24 R424). -/
def seenBytes (s : State) (pa n : Nat) : List Byte :=
  if s.versions.isEmpty then readBytes s pa n
  else (((upto (n / 128 + 2)).flatMap (fun j => seenLine s (pa / 128 + j))).drop (pa % 128)).take n

/-- The same as a little-endian number. -/
def seenNat (s : State) (pa n : Nat) : Nat := ofBytes (seenBytes s pa n)

/-! ### Translation (21 R391 to R396) -/

/-- What a translation finds. -/
inductive Tr where
  /-- a physical address, the leaf bits, the page base and log2 of its size -/
  | ok (pa leaf base size : Nat)
  /-- a non-present page, with its policy FPOL: 0 PARK, 1 ZERO, 2 POISON, 3 KILL, and log2 of the page it leaves open -/
  | absent (fpol size : Nat)
  | malformed (size : Nat)
  /-- a non-canonical address -/
  | noncanon
  /-- the leaf lacks a permission -/
  | denied
  /-- the table or the page cannot be reached: MACHINE_CHECK -/
  | broken
  /-- the backing of a publishable page is undecided on this die (11 R228) -/
  | undecided
  deriving DecidableEq, Repr

/-- Bits [63:57] all equal bit [56] (01 R21). -/
def canonical (va : Nat) : Bool := va < 2 ^ 56 || (2 ^ 64 - 2 ^ 56 ≤ va && va < 2 ^ 64)

/-- A well-formed table entry (R391): its reserved bits, and for a 4 KiB node bits [11:8]. -/
def tableOk (e : Nat) (next : Nat) : Bool := field e 52 12 == 0 && field e 2 6 == 0 && (next == 4 || field e 8 4 == 0)

/-- A well-formed leaf of a page of 2^size bytes (R391, 11 R229, 24 R422, 26 R436). -/
def leafOk (e size : Nat) : Bool :=
  let publ := e.testBit 60
  let frame := frameOf e
  field e 57 2 != 3 && field e 53 4 == 0 && (publ || !e.testBit 52) && field e 5 11 == 0 &&
    frame % 2 ^ (if publ then size + 1 else size) == 0 && !(publ && e.testBit 61) &&
    (match windowOf frame with
     | .host => e.testBit 59
     | .none => false
     | _ => !e.testBit 59)

/-- Some present leaf below a table node satisfies a test and maps a physical address. -/
def leafUnder (s : State) (p : Nat → Bool) (pa : Nat) : Nat → Nat → Nat → Bool
  | 0, _, _ => false
  | fuel + 1, level, node =>
    let size := if level = 4 then 16 else 48 - 9 * level
    (upto (if level = 4 then 32 else 512)).any (fun i =>
      let e := seenNat s (node + 8 * i) 8
      e.testBit 0 && (if e.testBit 1
        then decide (2 ≤ level) && leafOk e size && p e && decide (frameOf e ≤ pa) &&
          decide (pa < frameOf e + 2 ^ (if e.testBit 60 then size + 1 else size))
        else level != 4 && tableOk e (level + 1) && leafUnder s p pa fuel (level + 1) (field e 8 44 * 2 ^ 8)))

/-- The address lies in a page of some context. -/
def mappedPa (s : State) (pa : Nat) : Bool := s.contexts.any (fun e => leafUnder s (fun _ => true) pa 5 0 e.2.ptroot)

/-- The address lies in a stamped page of some context. DEDUCED, log entry 47. -/
def stampedPa (s : State) (pa : Nat) : Bool := s.contexts.any (fun e => leafUnder s (fun l => l.testBit 61) pa 5 0 e.2.ptroot)

/-- Walk the table from a node at a level with fuel for the levels below (R391). DEDUCED, log entry 49. -/
def walk (s : State) (d va : Nat) : Nat → Nat → Nat → Tr
  | 0, _, _ => .malformed 16
  | fuel + 1, level, node =>
    let idx := if level = 4 then field va 16 5 else field va (48 - 9 * level) 9
    let size := if level = 4 then 16 else 48 - 9 * level
    let at_ := node + 8 * idx
    match homeDie s d at_ with
    | none => .broken
    | some _ =>
      let e := seenNat s at_ 8
      if !e.testBit 0 then .absent (field e 62 2) (if 30 < size then 16 else size)
      else if e.testBit 1 then
        if level < 2 ∨ !leafOk e size then .malformed (if 30 < size then 16 else size)
        else .ok (frameOf e + va % 2 ^ size) e (va / 2 ^ size * 2 ^ size) size
      else if level = 4 ∨ !tableOk e (level + 1) then .malformed (if 30 < size then 16 else size)
      else walk s d va fuel (level + 1) (field e 8 44 * 2 ^ 8)

/-- The page of an Xlat holds `va`. -/
def Xlat.covers (x : Xlat) (va : Nat) : Bool := va / 2 ^ x.size * 2 ^ x.size == x.base

/-- The visible backing of a publishable page for a die (11 R228), from its VIS as read and the stamps of its swaps, newest
first: none while E ≤ T ≤ L. -/
def backing (e l : Nat) (vis : Bool) : List SwapStamp → Option Bool
  | [] => some vis
  | r :: rest =>
    if r.stamp < e then some vis
    else if l < r.stamp then backing e l (!r.vis) rest
    else none

/-- Apply the backing of a publishable page: engine writes take the one that VIS does not name (R229). -/
def withBacking (s : State) (ctx d va : Nat) (shadow : Bool) : Tr → Tr
  | .ok pa leaf base size =>
    if !leaf.testBit 60 then .ok pa leaf base size
    else
      let rs := s.swaps.filter (fun r => r.ctx == ctx && va / 2 ^ r.size * 2 ^ r.size == r.base)
      match (if shadow then some (leaf.testBit 52) else backing (die s d).e (die s d).l (leaf.testBit 52) rs) with
      | none => .undecided
      | some v => .ok (pa + b2n (v != shadow) * 2 ^ size) leaf base size
  | t => t

/-- The permissions an access needs, as the leaf's bits X, W, RD (R392). -/
def needs (leaf rd wr ex : Nat) : Bool :=
  (rd == 0 || leaf.testBit 2) && (wr == 0 || leaf.testBit 3) && (ex == 0 || leaf.testBit 4)

/-- Translate: the last-page register, the TLB, then the walker (R393). DEDUCED, log entry 45. -/
def translate (s : State) (ctx d : Nat) (last : Option Xlat) (tlb : List (Nat × Xlat)) (va rd wr ex : Nat)
    (shadow : Bool) : Tr :=
  if !canonical va then .noncanon
  else
    let hit := match last with
      | some x => if Xlat.covers x va then some x else none
      | none => none
    let hit := match hit with
      | some x => some x
      | none => (tlb.find? (fun (e : Nat × Xlat) => e.1 == ctx && Xlat.covers e.2 va)).map Prod.snd
    let t := match hit with
      | some x => Tr.ok (frameOf x.leaf + va % 2 ^ x.size) x.leaf x.base x.size
      | none =>
        match Maps.find? ctx s.contexts with
        | some c => walk s d va 5 0 c.ptroot
        | none => .broken
    match t with
    | .ok pa leaf base size =>
      if !needs leaf rd wr ex then .denied else withBacking s ctx d va shadow (.ok pa leaf base size)
    | t => t

/-- A translation by an engine of a die: no last-page register and no TLB. -/
def translateEngine (s : State) (ctx d va rd wr : Nat) (shadow : Bool) : Tr :=
  translate s ctx d none [] va rd wr 0 shadow

/-! ### Termination of a context (21 R410) -/

/-- Set the tags of a context to VALID = 0. -/
def clearTags (ctx : Nat) (c : Core) : Core :=
  { c with tags := c.tags.map (fun e => if e.2.ctx = ctx then (e.1, { e.2 with valid := false }) else e) }

/-- A handle becomes FREE, and nothing waits on it any more; its other fields keep their values until `halloc` (13 R271,
R272). -/
def freeHandle (h : Handle) : Handle := { h with state := 0, waits := [] }

/-! ### The slots of the gather station (16 R320 to R322) -/

/-- Requests in the table: those of the slots and of the tiles in flight. -/
def nevPending (k : Core) : Nat :=
  (k.slots.map (fun q => q.reqs.length)).foldl (fun a b => a + b) 0 + (k.ntiles.map (fun t => t.rows.length)).foldl (fun a b => a + b) 0

/-- The slot of a key. -/
def slotOfKey (k : Core) (ctx handle : Nat) : Option NevSlot := k.slots.find? (fun q => q.ctx == ctx && q.handle == handle)

/-- A slot that holds 64 requests or more becomes eligible; `n` numbers the order. DEDUCED, log entry 72. -/
def slotFull (n : Nat) (q : NevSlot) : NevSlot := if q.eligible.isNone && decide (64 ≤ q.reqs.length) then { q with eligible := some n } else q

/-- Put a request into its key's slot, or into a free one. -/
def enterSlot (n : Nat) (k : Core) (r : NevReq) : Core :=
  match slotOfKey k r.ctx r.handle with
  | some q => { k with slots := k.slots.map (fun x => if x.slot = q.slot then slotFull n { x with reqs := x.reqs ++ [r] } else x) }
  | none =>
    let free := ((upto 16).find? (fun i => k.slots.all (fun q => q.slot != i))).getD 0
    { k with slots := k.slots ++ [{ slot := free, ctx := r.ctx, handle := r.handle, reqs := [r] }] }

/-- Spilled requests re-enter in arrival order: those of a key that holds a slot as room allows, and the key of the oldest
of the others takes a free slot. Fuel is the number of requests. -/
def refillCore (n : Nat) : Nat → Core → Core
  | 0, k => k
  | fuel + 1, k =>
    if 4096 ≤ nevPending k then k
    else match k.nspill.find? (fun r => (slotOfKey k r.ctx r.handle).isSome || decide (k.slots.length < 16)) with
      | none => k
      | some r => refillCore n fuel (enterSlot n { k with nspill := k.nspill.filter (fun x => x.id != r.id) } r)

/-! ### What a termination drops -/

/-- Drop what a core holds for a context: tags, station requests and tiles, transform requests; the slots that this frees
are taken by spilled requests of other contexts (16 R320), in an order numbered `n`. -/
def dropCore (n ctx : Nat) (gs : List Nat) (c : Core) : Core :=
  refillCore n c.nspill.length { clearTags ctx c with
    slots := c.slots.filter (fun x => x.ctx != ctx)
    ntiles := c.ntiles.filter (fun x => x.ctx != ctx)
    nspill := c.nspill.filter (fun r => r.ctx != ctx)
    xf := c.xf.filter (fun r => !gs.contains r.group)
    xfWait := c.xfWait.filter (fun r => !gs.contains r.group) }

/-- Drop what a cluster holds for a context: copies, handles, places among waiters. -/
def dropCluster (ctx : Nat) (gs : List Nat) (c : Cluster) : Cluster :=
  { c with
    copies := c.copies.filter (fun x => x.ctx != ctx)
    spilled := c.spilled.filter (fun x => x.ctx != ctx)
    remaps := c.remaps.filter (fun i => c.copies.any (fun x => x.id == i && x.ctx != ctx))
    handles := c.handles.map (fun e => if e.2.owner = ctx ∧ e.2.state ≠ 0 then (e.1, freeHandle e.2) else e)
    banks := c.banks.map (fun e => (e.1, { e.2 with
      waits := e.2.waits.filter (fun w => !gs.contains w.group)
      reqs := e.2.reqs.filter (fun r => match r.who with | some w => !gs.contains w.1 | none => true) })) }

/-- Remove the groups in `gs` and everything of theirs that has not been performed. -/
def dropGroups (gs : List Nat) (s : State) : State :=
  { s with
    groups := s.groups.filter (fun e => !gs.contains e.1)
    arrivals := s.arrivals.filter (fun a => match a.group with | some g => !gs.contains g | none => true)
    stcms := s.stcms.filter (fun l => !gs.contains l.group || l.recorded)
    publishes := s.publishes.filter (fun p => !gs.contains p.group) }

/-- The completion record of a launch, its done word last (08 R163). -/
def complBytes (l : Launch) : List Byte :=
  toBytes 4 1 ++ toBytes 2 l.status ++ toBytes 2 0 ++ toBytes 8 l.started ++ toBytes 8 l.ended ++ toBytes 4 l.detail ++
    toBytes 4 0

/-- Is a completion-record address usable: non-zero, 32-byte aligned, translatable for writing? -/
def complTarget (s : State) (l : Launch) : Option Nat :=
  if l.compl = 0 ∨ l.compl % 32 ≠ 0 then none
  else match translateEngine s l.ctx 0 l.compl 0 1 false with
    | .ok pa leaf _ _ =>
      if windowOf pa = .control ∨ leaf.testBit 61 then none else (homeDie s 0 pa).map (fun _ => pa)
    | _ => none

/-- The completion record's page, or its walk, has no home: MACHINE_CHECK for the launch's context (26 R437, R443). -/
def complBroken (s : State) (l : Launch) : Bool :=
  l.compl != 0 && l.compl % 32 == 0 && (match translateEngine s l.ctx 0 l.compl 0 1 false with
    | .ok pa leaf _ _ => windowOf pa != .control && !leaf.testBit 61 && (homeDie s 0 pa).isNone
    | .broken => true
    | _ => false)

/-- Write a launch's completion record, or log a launch-queue error (08 R162); one without a home gets neither. -/
def completeLaunch (s : State) (id : Nat) (l : Launch) : State :=
  let l := { l with done := true }
  let s := setLaunch s id l
  match complTarget s l with
  | some pa => hubWrite s pa (complBytes l)
  | none => if complBroken s l then s else devlog s 0x80 l.ctx 0 l.queue

/-- The completion times of the launch's stores have passed on every die that could have issued one: those of its packet, and
those to which a resume has brought a team of it. DEDUCED, log entry 106. -/
def launchPassed (s : State) (l : Launch) : Bool :=
  (upto 8).all (fun d => !((l.dies ||| l.ran).testBit d && (die s d).available) || passed s d l.ct) && passed s 0 l.ct

/-- The record of a launch would go to a page that is undecided or migrates. -/
def complWaits (s : State) (l : Launch) : Bool :=
  match translateEngine s l.ctx 0 l.compl 0 1 false with
  | .undecided => true
  | .ok pa leaf _ _ => windowOf pa != .control && (homeDie s 0 pa).isSome && !leaf.testBit 61 && migrating s pa
  | _ => false

/-- Step 3 of R410 for one launch: its record reports the code, once the stores that it has performed have passed as for any
completion record (08 R163); until then the launch keeps what the record is to report. DEDUCED, log entry 122. -/
def failLaunch (code ctx : Nat) (s : State) (e : Nat × Launch) : State :=
  if e.2.ctx = ctx ∧ !e.2.done then
    let l : Launch := { e.2 with status := 0x30, detail := code }
    if launchPassed s l && !complWaits s l then completeLaunch s e.1 l else setLaunch s e.1 l
  else s

/-- A launch of a context has no completion record yet. -/
def launchesOpen (s : State) (ctx : Nat) : Bool := s.launches.any (fun e => e.2.ctx == ctx && !e.2.done)

/-- Step 4 of R410, after every record of step 3. -/
def lastRecord (s : State) (ctx code : Nat) : State :=
  if launchesOpen s ctx then s else (raise s { ctx := ctx, code := 0x20, cause := code, source := 5 }).2

/-- Stores that will never be performed leave the copies that they updated: such a copy serves only its other forwards, and
is gone when it has none (11 R216). -/
def dropForwards (s : State) (ids : List Nat) : State :=
  let cs := s.copies.map (fun c => if c.dirty.any (fun i => ids.contains i)
    then { c with dirty := c.dirty.filter (fun i => !ids.contains i), expiry := 0 } else c)
  { s with copies := cs.filter (fun c => c.expiry != 0 || !c.dirty.isEmpty) }

/-! ### Requests to switch teams out and to resume them (21 R406) -/

/-- The fields of INVCTL that are stored: CTX and SIZE, with DONE. -/
def invctlOf (value done : Nat) : Nat := field value 48 16 * 2 ^ 48 + field value 2 2 * 4 + done * 2

/-- A team of a fragment program. DEDUCED, log entry 97. -/
def isFragTeam (s : State) (t : Nat) : Bool := s.groups.any (fun e => e.2.team == t && e.2.shade.isSome)

/-- Every team of a context that is not out stops at its next instruction boundary. Fragment teams run on to their end: a
group waits for the flush that they shade, and its wait is finished first (R407 step 1). DEDUCED, log entry 97. -/
def stopTeams (s : State) (ctx : Nat) : State :=
  { s with teams := s.teams.map (fun (e : Nat × Team) =>
      if e.2.ctx = ctx ∧ !e.2.out ∧ !isFragTeam s e.1 then (e.1, { e.2 with stopping := true }) else e) }

/-- Complete the requests whose teams are all out or ended, and start the next one; fuel is the number of requests. -/
def settlePreempts : Nat → State → State
  | 0, s => s
  | fuel + 1, s =>
    match s.preempts with
    | [] => s
    | ctx :: rest =>
      if s.teams.any (fun (e : Nat × Team) => e.2.ctx == ctx && !e.2.out && (e.2.stopping || isFragTeam s e.1)) then s
      else
        let s1 : State := { s with preempts := rest }
        match rest with
        | [] => setCtl s1 0x60 (invctlOf (ctl s1 0x60) 1)
        | c :: _ => settlePreempts fuel (stopTeams s1 c)

/-- Complete the resume requests whose teams all run again. -/
def settleResumes : Nat → State → State
  | 0, s => s
  | fuel + 1, s =>
    match s.resumes with
    | [] => s
    | ctx :: rest =>
      if s.teams.any (fun (e : Nat × Team) => e.2.ctx == ctx && e.2.out) then s
      else
        let s1 : State := { s with resumes := rest }
        if rest.isEmpty then setCtl s1 0x68 (invctlOf (ctl s1 0x68) 1) else settleResumes fuel s1

/-- Teams have been placed, saved or removed: requests that wait for them alone complete (21 R406). -/
def settleSwitches (s : State) : State :=
  let s1 := settlePreempts (s.preempts.length + 1) s
  settleResumes (s1.resumes.length + 1) s1

/-! ### The end of a context -/

/-- Step 1 of R410: remove the teams of a context with all that is theirs, and what its other agents hold. -/
def dropContext (s : State) (ctx : Nat) : State :=
  let ts : List Nat := (s.teams.filter (fun (e : Nat × Team) => e.2.ctx == ctx)).map Prod.fst
  let gs : List Nat := (s.groups.filter (fun (e : Nat × Group) => ts.contains e.2.team)).map Prod.fst
  let gone : List Nat := (s.stores.filter (fun (p : PStore) => p.ctx == ctx)).map (fun p => p.id)
  let s1 : State := dropForwards (dropGroups gs s) gone
  kickAll { s1 with
    uid := s1.uid + 1
    teams := s1.teams.filter (fun (e : Nat × Team) => e.2.ctx != ctx)
    arrivals := s1.arrivals.filter (fun (a : Arrival) => !ts.contains a.team)
    stores := s1.stores.filter (fun (p : PStore) => p.ctx != ctx)
    rels := s1.rels.filter (fun (r : Rel) => r.ctx != ctx)
    clusters := s1.clusters.map (fun (e : Nat × Cluster) => (e.1, dropCluster ctx gs e.2))
    cores := s1.cores.map (fun (e : Nat × Core) => (e.1, dropCore s1.uid ctx gs e.2))
    sets := s1.sets.filter (fun (e : Nat × SetSt) => e.2.ctx != ctx)
    dies := s1.dies.map (fun (e : Nat × Die) => (e.1, { e.2 with binner := e.2.binner.filter (fun w => w.ctx != ctx) }))
    queues := s1.queues.map (fun (e : Nat × Queue) => if e.2.ctx = ctx
      then (e.1, { e.2 with parked := none, reading := none, dispatched := false, slotCt := none }) else e)
    recs := s1.recs.filter (fun (r : Rec) => r.ctx != ctx || r.agent == RecAgent.none) }

/-- Terminate a context with a code. DEDUCED, log entries 42, 122. -/
def terminate (s : State) (ctx code : Nat) : State :=
  match Maps.find? ctx s.contexts with
  | none => s
  | some c =>
    if c.dead.isSome then s
    else
      let s1 := setContext (settleSwitches (dropContext s ctx)) ctx { c with dead := some code }
      lastRecord (s1.launches.foldl (failLaunch code ctx) s1) ctx code

/-! ### Registers of a group -/

/-- Apply one register write; p7 discards it (01 R16). -/
def writeReg (g : Group) : RegWrite → Group
  | .v lane r x => { g with v := Maps.set 0 (lane * 256 + r) x g.v }
  | .k r x => { g with k := Maps.set 0 r x g.k }
  | .p lane r b => if r = 7 then g else { g with p := Maps.set false (lane * 8 + r) b g.p }

/-- OR bits into %lstat of a lane. -/
def orLstat (g : Group) (e : Nat × Nat) : Group :=
  { g with lstat := Maps.set 0 e.1 (Maps.get 0 e.1 g.lstat ||| BitVec.ofNat 32 e.2) g.lstat }

/-- A landing that substitutes outputs raises NEVAL_FAULT (16 R327). -/
def noteFault (w : Window) (g : Group) : Group :=
  if w.fault = 0 then g
  else match g.nevTrap with
    | some t => { g with nevTrap := some (t.1, t.2 ||| w.fault) }
    | none => { g with nevTrap := some (w.nev.getD 0, w.fault) }

/-- Write a pending result and its flags (07 R139). -/
def landWindow (g : Group) (w : Window) : Group := noteFault w (w.flags.foldl orLstat (w.writes.foldl writeReg g))

/-- The register of a write. -/
def regName : RegWrite → RegName
  | .v _ r _ => .v r
  | .k r _ => .k r
  | .p _ r _ => .p r

/-- The registers of a pending result. -/
def windowNames (w : Window) : List RegName := w.dest ++ w.writes.map regName

/-- Two pending results write a register of one lane: requests of `neval` for different lanes do not (22 R414). -/
def overlaps (a b : Window) : Bool :=
  (a.lane.isNone || b.lane.isNone || a.lane == b.lane) && (windowNames a).any (fun n => (windowNames b).contains n)

/-- Results whose windows have closed stand in the order in which they are written. What can be written now, and what
stays: a closed result waits for one before it that writes a register of its own and is not known yet. -/
def splitClosed : List Window → List Window → List Window × List Window
  | _, [] => ([], [])
  | unknown, w :: ws =>
    if w.left = 0 then
      if w.ready && !unknown.any (overlaps w) then
        let r := splitClosed unknown ws
        (w :: r.1, r.2)
      else
        let r := splitClosed (w :: unknown) ws
        (r.1, w :: r.2)
    else
      let r := splitClosed unknown ws
      (r.1, w :: r.2)

/-- Write the known results whose windows have closed. -/
def landClosed (g : Group) : Group :=
  let r := splitClosed [] g.windows
  r.1.foldl landWindow { g with windows := r.2 }

/-- One executed instruction passes: every open window counts it. Those that close stand behind the closed ones, a result
of an instruction inside another's window before that other's, which is the value that stays (R30).
DEDUCED, log entry 20. -/
def passWindows (g : Group) : Group :=
  let shut := g.windows.filter (fun w => w.left == 0)
  let ticked := (g.windows.filter (fun w => w.left != 0)).map (fun w => { w with left := w.left - 1 })
  landClosed { g with windows := shut ++ (ticked.filter (fun w => w.left == 0)).reverse ++ ticked.filter (fun w => w.left != 0) }

/-- Pending results in the order in which they are written when all are written at one moment. DEDUCED, log entry 20. -/
def landOrder (ws : List Window) : List Window :=
  ws.filter (fun w => w.left == 0) ++ (ws.filter (fun w => w.left != 0)).reverse

/-- Write every pending result (01 R29, 21 R386, R412). DEDUCED, log entry 136. -/
def landAll (g : Group) : Group := (landOrder g.windows).foldl landWindow { g with windows := [] }

/-- Is every pending result known? -/
def allReady (g : Group) : Bool := g.windows.all (fun w => w.ready)

/-- The result of every open lookahead window is known. A result whose window has closed need not be, unless a later one
writes a register of its own. -/
def openKnown : List Window → Bool
  | [] => true
  | w :: ws => (w.ready || (w.left == 0 && (w.rp || !ws.any (overlaps w)))) && openKnown ws

/-- The pending results of a group allow a trap to be delivered. DEDUCED, log entries 17, 21. -/
def openReady (g : Group) : Bool := openKnown g.windows

/-- Write every known pending result (21 R386 step 1). -/
def landReady (g : Group) : Group :=
  (landOrder (g.windows.filter (fun w => w.ready))).foldl landWindow { g with windows := g.windows.filter (fun w => !w.ready) }

/-! ### Program counters, fragments and the split table (02 R42, 08 R172) -/

/-- The next slot (01 R31). -/
def nextSlot (pc : DWord) : DWord := if pc.toNat % 8 < 4 then pc + 1 else pc + 60

/-- The line address of a program counter. -/
def lineOf (pc : DWord) : Nat := pc.toNat / 64 * 64

/-- The slot number. -/
def slotOf (pc : DWord) : Nat := pc.toNat % 8

/-- Bits [5:3] zero and a slot of 0 to 4 (R42). -/
def pcFormOk (pc : DWord) : Bool := field pc.toNat 3 3 == 0 && slotOf pc ≤ 4

/-- The lowest lane of a mask, 8 for none. -/
def lowLane (mask : Nat) : Nat := ((lanesOf mask).head?).getD 8

/-- The fragments that a trap has stopped, with a fused one among them while the handler's is another (21 R386). -/
def fusedStops (g : Group) (key : Nat) : List Nat :=
  if g.frags.all (fun e => g.stopped.contains e.1) then g.stopped.filter (fun x => x != key) else key :: g.stopped

/-- Let fragments that stand at the RA of their own join entry arrive, and free the entries that are complete; each
round lets one fragment arrive or one entry go. A fused fragment last issued when the latest of its arrivals did (08 R168).
DESIGN CHOICE, log entry 174. -/
def settle : Nat → Group → Group
  | 0, g => g
  | fuel + 1, g =>
    match g.frags.find? (fun e => match e.2.link with
        | some j => (match Maps.find? j g.joins with | some x => x.ra == e.2.pc && e.2.stage == .fresh | none => false)
        | none => false) with
    | some e =>
      let j := e.2.link.getD 0
      settle fuel { g with
        frags := Maps.erase e.1 g.frags
        joins := Maps.modify j (fun x => { x with arrived := x.arrived ||| e.2.mask, since := max x.since e.2.since }) g.joins }
    | none =>
      match g.joins.find? (fun e => e.2.arrived == e.2.expected) with
      | some e =>
        let g := { g with joins := Maps.erase e.1 g.joins }
        settle fuel (if e.2.arrived = 0 then g else
          let f : Fragment := { mask := e.2.arrived, pc := e.2.ra, link := e.2.parent, since := e.2.since }
          { g with frags := Maps.insert (lowLane e.2.arrived) f g.frags
                   stopped := if g.stopped.isEmpty then [] else fusedStops g (lowLane e.2.arrived) })
      | none => g

/-- The fuel that settles any group: 8 fragments and 8 entries. -/
def settleFuel : Nat := 32

/-- A fragment that has come to the reconvergence address of its join entry arrives there (R172). -/
def meetJoin (frag : Nat) (g : Group) : Group :=
  match Maps.find? frag g.frags with
  | none => g
  | some f => match f.link.bind (fun j => Maps.find? j g.joins) with
    | some x => if x.ra = f.pc then settle settleFuel g else g
    | none => g

/-- The lowest free join entry. -/
def freeJoin (g : Group) : Option Nat := (upto 8).find? (fun j => (Maps.find? j g.joins).isNone)

/-- The distinct program counters of a list of (lane, pc), in order of their first lane, with their masks. -/
def distinct : List (Nat × DWord) → List (DWord × Nat)
  | [] => []
  | (l, pc) :: rest =>
    let r := distinct rest
    if r.any (fun e => e.1 == pc) then
      let m := ((r.find? (fun e => e.1 == pc)).map Prod.snd).getD 0
      (pc, m + 2 ^ l) :: r.filter (fun e => e.1 != pc)
    else (pc, 2 ^ l) :: r

/-! ### Fetch lines (02 R33 to R40) -/

/-- The line word of a 64-byte line. -/
def lineWord (bs : List Byte) : Nat := ofBytes (bs.drop 60)

/-- The instruction word of a slot. -/
def slotWord (bs : List Byte) (slot : Nat) : IWord := BitVec.ofNat 96 (ofBytes ((bs.drop (12 * slot)).take 12))

/-- The parity bits of the 480 instruction bits (R35). -/
def parityOf (bs : List Byte) : Nat :=
  let n := ofBytes (bs.take 60)
  ofBitFn 16 (fun j => odd 30 (n >>> (30 * j)))

/-- The line passes its parity. -/
def parityOk (bs : List Byte) : Bool := field (lineWord bs) 0 16 == parityOf bs

/-- Order 3 of R53: the line word is legal for a line of ordinary or of stream code (R38). -/
def lineWordOk (stream : Bool) (lw : Nat) : Bool :=
  field lw 20 4 == b2n stream && field lw 16 4 == 0 && (!stream || field lw 24 3 == 0)

/-- The slot is marked as a target (R34). -/
def marked (lw slot : Nat) : Bool := lw.testBit (27 + slot)

/-- What a fetch finds. -/
inductive Fetched where
  | line (bs : List Byte)
  | fault (t : Tr)
  /-- the line fails parity twice, or its memory cannot be reached: MACHINE_CHECK -/
  | check
  deriving DecidableEq, Repr

/-- Count an error in a die's counter, saturating at 32 bits (26 R444). -/
def countError (s : State) (d i : Nat) : State :=
  let off := dieOff d + 0x180 + 4 * i
  setCtl s off (if ctl s off + 1 < 2 ^ 32 then ctl s off + 1 else 2 ^ 32 - 1)

/-- Mark a line of memory as failed (26 R444). -/
def markLine (s : State) (line : Nat) : State :=
  if s.badLines.contains line then s
  else { s with badLines := line :: s.badLines,
                badPages := if mappedPa s (line * 128) then line :: s.badPages else s.badPages }

/-- A line that fails its parity a second time is a lasting error: it is counted, marked and logged at its home (R444); memory
beyond the device's own has no unit to mark. DESIGN CHOICE, log entry 116. -/
def failLine (s : State) (c ctx pa : Nat) : State :=
  let d := (homeDie s (c / 64) pa).getD (c / 64)
  let s1 := countError { s with fresh := s.fresh + 1 } d 6
  devlog (if windowOf pa = .device then markLine s1 (pa / 128) else s1) 0x83 ctx (d * 64) (Config.freeNat s.fresh % 2 ^ 64)

/-- Fetch a line whose physical address is known: the core's copy, refetched once when it fails parity (R39). Until an
`icinv`, R41 allows any mixture of old and new bytes; the model takes the core's whole copy, kept without bound, or the
whole line in memory where the core has none. DESIGN CHOICE, log entry 142. -/
def fetchPhys (s : State) (c pa : Nat) : Fetched × State :=
  let k := core s c
  match Maps.find? pa k.ilines with
  | some bs =>
    if parityOk bs then (.line bs, s)
    else
      let fresh := readBytes s pa 64
      let s := setCore s c { k with ilines := Maps.erase pa k.ilines }
      if parityOk fresh then
        (.line fresh, countError (setCore s c { k with ilines := Maps.insert pa fresh k.ilines }) (c / 64) 0)
      else (.check, s)
  | none =>
    let fresh := readBytes s pa 64
    if parityOk fresh then (.line fresh, setCore s c { k with ilines := Maps.insert pa fresh k.ilines })
    else (.check, s)

/-- Remember a translation in a core's TLB (21 R393). DEDUCED, log entry 45. -/
def noteTlb (s : State) (c ctx base size leaf : Nat) : State :=
  let k := core s c
  if k.tlb.any (fun (e : Nat × Xlat) => e.1 == ctx && e.2 == { base := base, size := size, leaf := leaf }) then s
  else setCore s c { k with tlb := (ctx, { base := base, size := size, leaf := leaf }) :: k.tlb }

/-! ### Fetching (02 R39, R40) -/

/-- A fetched line of a stamped page comes from its home, and no copy of it is kept (24 R422, R424). -/
def fetchStamped (s : State) (home leaf pa : Nat) : Fetched × State :=
  let bs := homeBytesAt s home leaf pa 64
  (if parityOk bs then .line bs else .check, s)

/-- Fetch a line for a core in a context. The parity of a line that a page maps is checked before the page's permission (02
R43, R53; R40); a line of a stamped page that migrates waits, as one of an undecided page does (24 R425). -/
def fetchLine (s : State) (c ctx va : Nat) : Fetched × State :=
  match translate s ctx (c / 64) none (core s c).tlb va 0 0 0 false with
  | .ok pa leaf base size =>
    let line := pa / 64 * 64
    let ex := leaf.testBit 4
    match (if windowOf pa = .control then none else homeDie s (c / 64) pa) with
    | none =>
      (if !ex then .fault .denied else if windowOf pa = .control then .fault (.malformed size) else .check, s)
    | some home =>
      if stampedMoves s pa then (.fault (if ex then .undecided else .denied), s)
      else match (if leaf.testBit 61 then fetchStamped s home leaf line
          else fetchPhys (if ex then noteTlb s c ctx base size leaf else s) c line) with
        | (.check, s) => (.check, failLine s c ctx line)
        | (r, s) => (if ex then r else .fault .denied, s)
  | _ => match translate s ctx (c / 64) none (core s c).tlb va 0 0 1 false with
    | .broken => (.check, s)
    | t => (.fault t, s)

/-! ### Traps (21 R383 to R387) -/

/-- A route-H trap: its code and cause, the lanes in which it arose, and its information. -/
structure Trap where
  code : Nat
  cause : Nat := 0
  lanes : Nat := 0
  info : Nat := 0
  deriving DecidableEq, Repr

/-- ILLEGAL_OPERAND and its relatives, by code. DEDUCED, log entry 13. -/
def trapOf (code lanes : Nat) : Trap := { code := code, lanes := lanes }

/-- BREAKPOINT and SOFTWARE save the next slot (R383). -/
def savedPc (code : Nat) (pc : DWord) : DWord := if code = 0x18 ∨ code = 0x19 then nextSlot pc else pc

/-- Is INH set (R385)? -/
def inh (g : Group) : Bool := g.ecode.toNat.testBit 24

/-- %ecode after delivery. -/
def ecodeOf (t : Trap) (defer : Bool) : Word :=
  BitVec.ofNat 32 (t.code + 2 ^ 8 * t.cause + 2 ^ 16 * t.lanes + 2 ^ 24 + 2 ^ 25 * b2n defer)

/-- The address of the vector entry of a trap code (R384), computed modulo 2^64 (01 R21). -/
def vectorAddr (c : Context) (code : Nat) : Nat := (c.tvec + 8 * code) % 2 ^ 64

/-- The vector entry of a trap code, if it can be read (R384, R386, R387): a stamped page gives its latest visible version
(24 R424). -/
def vectorEntry (s : State) (c : Context) (ctx d code : Nat) : Option Nat :=
  if c.tvec = 0 then none
  else match translateEngine s ctx d (vectorAddr c code) 1 0 false with
    | .ok pa leaf _ _ =>
      if windowOf pa = .control then none
      else (homeDie s d pa).bind (fun home =>
        let e := ofBytes (homeBytesAt s home leaf pa 8)
        if e = 0 then none else some e)
    | _ => none

/-- The vector entry of a trap of a team cannot be read yet: its page's backing is undecided (11 R228), or its stamped page
migrates (24 R425). -/
def vectorWaits (s : State) (tm : Team) (code : Nat) : Bool :=
  match Maps.find? tm.ctx s.contexts with
  | none => false
  | some c =>
    c.tvec != 0 && (match translateEngine s tm.ctx (tm.core / 64) (vectorAddr c code) 1 0 false with
      | .undecided => true
      | .ok pa _ _ _ => stampedMoves s pa
      | _ => false)

/-- Take a route-H trap in one step (R386): every pending result is written, the other fragments stop, the program
counter and the trap state are saved with INH set, and the fragment arrives at its vector entry. A trap under INH, or
without a usable vector, terminates the context with DOUBLE_TRAP (R387). DEDUCED, log entry 136. -/
def takeTrap (s : State) (key frag : Nat) (t : Trap) (saved : DWord) (defer : Bool) : State :=
  match group? s key with
  | none => s
  | some g =>
    match team? s g.team with
    | none => s
    | some tm =>
      match Maps.find? tm.ctx s.contexts with
      | none => s
      | some c =>
        if inh g then terminate s tm.ctx 0x1E
        else match vectorEntry s c tm.ctx (tm.core / 64) t.code with
          | none => terminate s tm.ctx 0x1E
          | some e =>
            let pc : DWord := BitVec.ofNat 64 e
            if !pcFormOk pc || !canonical (lineOf pc) then terminate s tm.ctx 0x1E
            else match fetchLine s tm.core tm.ctx (lineOf pc) with
              | (.check, s1) => terminate s1 tm.ctx 0x1F
              | (.line bs, s1) =>
                if !marked (lineWord bs) (slotOf pc) then terminate s1 tm.ctx 0x1E
                else modGroup s1 key (enter pc)
              | (.fault _, s1) => modGroup s1 key (enter pc)
where
  /-- The group with the trap state saved and the fragment at the handler. -/
  enter (pc : DWord) (g : Group) : Group :=
    let g := landReady g
    meetJoin frag { g with
      epc := saved
      ecode := ecodeOf t defer
      einf := BitVec.ofNat 64 t.info
      fetchRep := 0
      stopped := (g.frags.map Prod.fst).filter (fun k => k != frag)
      frags := Maps.modify frag (fun f => { f with pc := pc, stage := .fresh, read := none, arrival := 2 }) g.frags }

/-- Return from a trap (21 R412): INH is cleared, the fragment continues at the saved program counter, which is no
arrival, and the other fragments resume. -/
def returnFromTrap (key frag : Nat) (s : State) : State :=
  modGroup s key (fun g => { g with
    ecode := g.ecode &&& BitVec.ofNat 32 0xFEFFFFFF
    stopped := []
    frags := Maps.modify frag (fun f => { f with pc := g.epc, stage := .fresh, read := none, arrival := 0 }) g.frags })

end Ops

end Sys2Proof.Machine
end

