-- ==== Sys2Proof/Machine/Operands.lean ====
section
/-! DEFINITION. How one instruction of a group executes: its operands and their checks (02 R51, R53 order 6), the
guard, what holds it back, and every way in which it can end: writing results through its lookahead window, moving
control, waiting, trapping, terminating the context or parking (01 R27 to R31, 08 R172, 21 R386, R397 to R401, R449). -/

namespace Sys2Proof.Machine

open Sys2Proof.Bits

namespace Ops

/-! ### Operands -/

/-- The register files that an operand position accepts (R51). -/
inductive RFile where
  | any | vec | uni
  deriving DecidableEq, Repr, Inhabited

/-- A register operand: its field, how many registers it names, their alignment, and whether it is written. -/
structure Opnd where
  reg : BitVec 9
  count : Nat := 1
  align : Nat := 1
  file : RFile := .any
  dest : Bool := false
  deriving DecidableEq, Repr, Inhabited

/-- Bit [8] selects the uniform file. -/
def isUni (r : BitVec 9) : Bool := r.getLsbD 8

/-- The register number. -/
def regNo (r : BitVec 9) : Nat := field r.toNat 0 8

/-- A source of one register, in either file unless its position is restricted (06 R111). 05 R107 calls B of `neval` the only
position that accepts both files; the model reads it as a remark on the positions that take a handle or an address.
DEDUCED, log entry 148. -/
def src (r : BitVec 9) : Opnd := { reg := r }

/-- A destination of one register. -/
def dst (r : BitVec 9) : Opnd := { reg := r, dest := true }

/-- A source that is a pair for 64-bit formats (06 R112). -/
def srcW (w : Nat) (r : BitVec 9) : Opnd := if w = 64 then { reg := r, count := 2, align := 2 } else { reg := r }

/-- A destination that is a pair for 64-bit formats. -/
def dstW (w : Nat) (r : BitVec 9) : Opnd := { srcW w r with dest := true }

/-- A source pair. -/
def srcP (r : BitVec 9) : Opnd := srcW 64 r

/-- A destination pair. -/
def dstP (r : BitVec 9) : Opnd := dstW 64 r

/-- Restrict an operand to the vector file. -/
def Opnd.inVec (o : Opnd) : Opnd := { o with file := .vec }

/-- Restrict an operand to the uniform file. -/
def Opnd.inUni (o : Opnd) : Opnd := { o with file := .uni }

/-- The registers that an operand names. -/
def Opnd.names (o : Opnd) : List RegName :=
  (upto o.count).map (fun i => if isUni o.reg then .k (regNo o.reg + i) else .v (regNo o.reg + i))

/-- The operand is in an allowed file, aligned, and accessible under the role's counts (01 R14, R15, 02 R51). -/
def Opnd.legal (g : Group) (o : Opnd) : Bool :=
  (match o.file with
   | .any => true
   | .vec => !isUni o.reg
   | .uni => isUni o.reg) &&
    regNo o.reg % o.align == 0 &&
    (if isUni o.reg then decide (regNo o.reg + o.count ≤ g.nk) && decide (regNo o.reg + o.count ≤ 64)
     else decide (regNo o.reg + o.count ≤ g.nv))

/-- The registers of the destinations. -/
def destNames (os : List Opnd) : List RegName := (os.filter (fun o => o.dest)).flatMap Opnd.names

/-- Order 6 of R53: every operand is legal, and no register is the destination of two operands (01 R28).
DEDUCED, log entry 135. -/
def operandsOk (g : Group) (os : List Opnd) : Bool := os.all (Opnd.legal g) && (destNames os).Nodup

/-! ### The context of one execution -/

/-- What an instruction sees: its group and fragment, the registers it reads (one that waits keeps what it has read, a parked
one reads its log entry),
its active lanes and those whose guard holds. -/
structure Ctx where
  s : State
  key : Nat
  g : Group
  tm : Team
  frag : Nat
  f : Fragment
  v : List (Nat × Word)
  k : List (Nat × Word)
  p : List (Nat × Bool)
  active : Nat
  pass : Nat
  h : Hdr
  i : Instr
  park : Option Parked

/-- A predicate of a lane; p7 reads true (01 R16). -/
def predAt (p : List (Nat × Bool)) (lane r : Nat) : Bool := r == 7 || Maps.get false (lane * 8 + r) p

/-- The active lanes whose guard holds (01 R27). -/
def guardMask (h : Hdr) (p : List (Nat × Bool)) (active : Nat) : Nat :=
  maskOf ((lanesOf active).filter (fun l => predAt p l h.gp.toNat != h.gn))

/-- The context of the instruction that executes now. -/
def ctx? (s : State) (i : Instr) (h : Hdr) : Option Ctx :=
  match s.cur with
  | .frag key fr =>
    match group? s key with
    | none => none
    | some g =>
      match team? s g.team with
      | none => none
      | some tm =>
        match Maps.find? fr g.frags with
        | none => none
        | some f =>
          let r := f.read.getD { v := g.v, k := g.k, p := g.p }
          some { s := s, key := key, g := g, tm := tm, frag := fr, f := f, v := r.v, k := r.k, p := r.p,
                 active := f.mask, pass := guardMask h r.p f.mask, h := h, i := i, park := none }
  | .replay key pid =>
    match group? s key with
    | none => none
    | some g =>
      match team? s g.team with
      | none => none
      | some tm =>
        match g.parked.find? (fun q => q.id == pid) with
        | none => none
        | some q => some { s := s, key := key, g := g, tm := tm, frag := q.frag,
                           f := { mask := q.active, pc := q.pc, stage := q.stage }, v := q.v, k := q.k, p := q.p,
                           active := q.active, pass := q.pass, h := h, i := i, park := some q }
  | _ => none

/-- One register as a number; a uniform register is the same in every lane. -/
def rd (c : Ctx) (r : BitVec 9) (lane : Nat) : Nat :=
  if isUni r then (Maps.get 0 (regNo r) c.k).toNat else (Maps.get 0 (lane * 256 + regNo r) c.v).toNat

/-- The register `i` places above an operand's first one. -/
def rdAt (c : Ctx) (r : BitVec 9) (i lane : Nat) : Nat :=
  if isUni r then (Maps.get 0 (regNo r + i) c.k).toNat else (Maps.get 0 (lane * 256 + regNo r + i) c.v).toNat

/-- A pair, low register first (01 R13). -/
def rdPair (c : Ctx) (r : BitVec 9) (lane : Nat) : Nat := rd c r lane + 2 ^ 32 * rdAt c r 1 lane

/-- A register, or a pair for 64-bit formats. -/
def rdW (w : Nat) (c : Ctx) (r : BitVec 9) (lane : Nat) : Nat := if w = 64 then rdPair c r lane else rd c r lane

/-- The lowest active lane (06 R111). -/
def lowActive (c : Ctx) : Nat := lowLane c.active

/-- A predicate operand as a source, read with its negate bit. -/
def rdP (c : Ctx) (pn : Bool) (p : BitVec 3) (lane : Nat) : Bool := predAt c.p lane p.toNat != pn

/-- Does the guard hold in some active lane? -/
def acts (c : Ctx) : Bool := c.pass != 0

/-- %lstat of a lane with its LIVE bit (01 R19). -/
def lstatOf (g : Group) (lane : Nat) : Nat := (Maps.get 0 lane g.lstat).toNat

/-- The lane belongs to the group and has not executed `exit`. -/
def live (g : Group) (lane : Nat) : Bool := (lstatOf g lane).testBit 15

/-- The live lanes of a group. -/
def liveMask (g : Group) : Nat := maskOf ((upto 8).filter (live g))

/-! ### Writes -/

/-- Write `n` registers from the low bits of `x` upward, in one lane or in the uniform file. -/
def wrN (r : BitVec 9) (n lane x : Nat) : List RegWrite :=
  (upto n).map (fun i =>
    if isUni r then .k (regNo r + i) (BitVec.ofNat 32 (x >>> (32 * i)))
    else .v lane (regNo r + i) (BitVec.ofNat 32 (x >>> (32 * i))))

/-- The registers of a result of width `w`. -/
def regsOf (w : Nat) : Nat := if w = 64 then 2 else 1

/-- A result per lane whose guard holds, or once, from the lowest active lane, for a uniform destination (R111). -/
def wrLanes (c : Ctx) (r : BitVec 9) (n : Nat) (x : Nat → Nat) : List RegWrite :=
  if isUni r then (if acts c then wrN r n 0 (x (lowActive c)) else [])
  else (lanesOf c.pass).flatMap (fun l => wrN r n l (x l))

/-- A predicate per lane whose guard holds. -/
def wrPred (c : Ctx) (p : BitVec 3) (b : Nat → Bool) : List RegWrite :=
  (lanesOf c.pass).map (fun l => .p l p.toNat (b l))

/-- Status bits per lane whose guard holds (07 R138). -/
def flagLanes (c : Ctx) (f : Nat → Nat) : List (Nat × Nat) :=
  ((lanesOf c.pass).map (fun l => (l, f l))).filter (fun e => e.2 != 0)

/-! ### The ends of an instruction -/

/-- A page on which lanes of an instruction fault, for a record (21 R397). -/
structure PageFault where
  addr : Nat
  lanes : Nat
  cause : Nat
  access : Nat
  deriving DecidableEq, Repr, Inhabited

/-- How an execution ends. -/
inductive Res where
  /-- it completes: its register writes and status bits go through its lookahead window -/
  | done (s : State) (w : List RegWrite) (fl : List (Nat × Nat))
  /-- it completes, and an engine will supply its result -/
  | issued (s : State)
  /-- it completes and has placed its fragments itself -/
  | moved (s : State)
  /-- it does not complete yet -/
  | wait (s : State)
  | trap (t : Trap) (s : State)
  /-- the context is terminated with a code -/
  | kill (code : Nat) (s : State)
  | park (s : State) (fs : List PageFault)

/-- What an opcode carries besides its operands: it closes a region (05 R104), it waits while an instruction of the
group is parked (21 R397), it accesses memory, and it makes a store, an atomic, a reduction or a copy, which helper lanes
do not (17 R357). -/
structure Marks where
  closes : Bool := false
  waits : Bool := false
  mem : Bool := false
  stores : Bool := false
  deriving DecidableEq, Repr, Inhabited

/-- Classes 0x0 to 0x7 and 0xC without a mark. -/
def mPlain : Marks := {}
/-- Class 0x8, class 0xD, the system functions 0x06 to 0x09, and `fpeek`. -/
def mSys : Marks := { waits := true }
/-- The same with mark C, and `fpop`. -/
def mSysC : Marks := { closes := true, waits := true }
/-- Memory instructions. -/
def mMem : Marks := { waits := true, mem := true }
/-- Memory instructions with mark C. -/
def mMemC : Marks := { closes := true, waits := true, mem := true }

/-- The same for instructions that helper lanes do not perform. -/
def mStore : Marks := { waits := true, mem := true, stores := true }
/-- The same with mark C. -/
def mStoreC : Marks := { closes := true, waits := true, mem := true, stores := true }

/-- Copies, and `fpush`: fences order no FIFO access (10 R202). -/
def mCopy : Marks := { closes := true, waits := true, stores := true }

/-- The lanes of a fragment group that are helpers or demoted. DEDUCED, log entry 134. -/
def helperMask (g : Group) : Nat :=
  match g.shade with
  | none => 0
  | some f => maskOf ((f.lanes.filter (fun e => e.2.helper || e.2.demoted)).map Prod.fst)

/-- The context without the lanes that do not perform the instruction. DEDUCED, log entry 134. -/
def withoutHelpers (m : Marks) (c : Ctx) : Ctx :=
  if m.stores then { c with pass := maskOf ((lanesOf c.pass).filter (fun l => !(helperMask c.g).testBit l)) } else c

/-- The group waits for the binner: its emission or flush is not complete (18 R375, R376, R381).
DEDUCED, log entry 90. -/
def awaitsBinner (s : State) (key : Nat) : Bool :=
  s.dies.any (fun d => d.2.binner.any (fun w => w.owner == key)) || s.sets.any (fun e => e.2.passEnd && e.2.endOwner == key)

/-- A fragment in a stage of its instruction, which keeps the instruction, the registers that it has read and when it began until
it is complete; `now` numbers what begins now. -/
def inStage (c : Ctx) (now : Nat) (st : Stage) (f : Fragment) : Fragment :=
  let began : Nat := match f.read with | some r => r.began | none => now
  { f with stage := st, read := if st = .fresh then none else some { instr := c.i, v := c.v, k := c.k, p := c.p, began := began } }

/-- The instruction's next stage. -/
def setStage (c : Ctx) (s : State) (st : Stage) : State :=
  match c.park with
  | none => modGroup s c.key (fun g => { g with frags := Maps.modify c.frag (inStage c s.uid st) g.frags })
  | some q => modGroup s c.key (fun g => { g with
      parked := g.parked.map (fun x => if x.id = q.id then { x with stage := st } else x) })

/-- Registers whose closed window still waits for its result, and the destinations of parked instructions. -/
def held (g : Group) : List RegName :=
  (g.windows.filter (fun w => w.left == 0)).flatMap windowNames ++ g.parked.flatMap (fun q => q.dest)

/-- Waits that a switch-out lets finish (21 R407 step 1), a load between its halves, which binds its value first (step 3), and an
`atom` whose mode requests have been made, which must not be made again (10 R198). DEDUCED, log entry 132. -/
def finishes : Stage → Bool
  | .commit _ _ => true
  | .publish _ => true
  | .released => true
  | .half _ _ => true
  | .mode _ _ => true
  | _ => false

/-- The instruction itself waits for a release. -/
def inRelease : Stage → Bool
  | .release _ => true
  | _ => false

/-- `stcm` waits: for its release, for the width, for its pages or for its commit (25 R434). -/
def inStcm : Stage → Bool
  | .sending _ => true
  | .sendWidth _ _ => true
  | .commit _ _ => true
  | _ => false

/-- The trap that a stage keeps until it can be delivered. -/
def trapDue : Stage → Option Trap
  | .trapping code cause lanes info => some { code := code, cause := cause, lanes := lanes, info := info }
  | _ => none

/-- Until such an instruction is complete the group issues no other one: `stcm` (25 R434), an emission (19 R381) and
`rflush` (18 R376). -/
def isSole : Instr → Bool
  | .stcm _ _ => true
  | .emitv _ _ => true
  | .emit _ _ => true
  | .emitsp _ _ => true
  | .rflush _ _ => true
  | _ => false

/-- A fragment has issued an `stcm` that has neither written its stamp nor trapped. -/
def stcmOpen (f : Fragment) : Bool := inStcm f.stage || ((trapDue f.stage).isSome && f.read.any (fun r => isSole r.instr))

/-- An instruction that lets no other one issue is under way, in another fragment or parked. -/
def soleHolds (g : Group) (frag : Nat) : Bool :=
  g.frags.any (fun e => e.1 != frag && stcmOpen e.2) || g.parked.any (fun q => isSole q.instr)

/-- `rparw` after its arrival: its own destinations are held by that arrival. -/
def inOwn : Stage → Bool
  | .own _ => true
  | _ => false

/-- An access that has been issued and is not complete, which nothing holds back any more: `ldw.x4` between its halves, an
`atom` that has made its mode requests, and `ldasof`. DEDUCED, log entry 151. -/
def begun : Stage → Bool
  | .half _ _ => true
  | .mode _ _ => true
  | .width _ => true
  | .horizon => true
  | _ => false

/-- A wait that holds the whole group: at a rendezvous or on a handle (08 R168, 13 R271). -/
def holdsGroup : Stage → Bool
  | .own _ => true
  | .phase => true
  | .blocked => true
  | .handle _ => true
  | .released => true
  | _ => false

/-- `rpwait` and `rparw` wait for their phase: acquires that are not complete (09 R188, 11 R220). -/
def inAcquire : Stage → Bool
  | .own _ => true
  | .phase => true
  | _ => false

/-- Another fragment waits at a rendezvous or on a handle. One that a trap has stopped does not keep the handler from issuing (21
R386). -/
def waitsElsewhere (g : Group) (frag : Nat) : Bool :=
  g.frags.any (fun e => e.1 != frag && holdsGroup e.2.stage && !g.stopped.contains e.1)

/-- Some access of a group that a test of its beginning names has begun and is not complete. -/
def accessSince (s : State) (key : Nat) (p : Nat → Bool) : Bool :=
  match group? s key with
  | none => false
  | some g => g.frags.any (fun e => begun e.2.stage && p ((e.2.read.map (fun r => r.began)).getD 0)) ||
      g.parked.any (fun q => begun q.stage && p q.began)

/-- Some access of a group has begun and is not complete (11 R219). -/
def accessOpen (s : State) (key : Nat) : Bool := accessSince s key (fun _ => true)

/-- The same of the accesses that began before the release or publish of a number: R219 names no later one. -/
def accessBefore (s : State) (key id : Nat) : Bool := accessSince s key (fun b => decide (b ≤ id))

/-- An access that is an acquire and may begin without completing: `ldasof` (24 R432), `atom` with ACQ (12 R246). -/
def acquires : Instr → Bool
  | .ldasof _ _ => true
  | .atom h _ => h.mod.getLsbD 3
  | _ => false

/-- Another fragment's acquire has begun and is not complete: no later access comes before it, one of a trap handler that has stopped
that fragment included (11 R220). DEDUCED, log entry 151. -/
def acquireOpen (g : Group) (frag : Nat) : Bool :=
  g.frags.any (fun e => e.1 != frag && (inAcquire e.2.stage || (begun e.2.stage && e.2.read.any (fun r => acquires r.instr))))

/-- The instruction names a sample set (18 R362, R374, R376). -/
def namesSet : Instr → Bool
  | .ssnew _ _ => true
  | .ssadd _ _ => true
  | .ssbuild _ _ => true
  | .ssbind _ _ => true
  | .ssrebind _ _ => true
  | .ssfree _ _ => true
  | .ssget _ _ => true
  | .emitv _ _ => true
  | .emit _ _ => true
  | .emitsp _ _ => true
  | .rflush _ _ => true
  | _ => false

/-- An instruction on a sample set of another fragment has arrived and is not performed: an `ssfree` that waits for the end of a
pass (19 R381). -/
def setOpen (g : Group) (frag : Nat) : Bool :=
  g.frags.any (fun e => e.1 != frag && e.2.stage != .released && e.2.read.any (fun r => namesSet r.instr))

/-- Asleep until after a time (09 R190). -/
def asleepAt (now : Nat) : Stage → Bool
  | .asleep t => decide (now < t)
  | _ => false

/-- The group issues nothing in the fragment now: a handler runs in another one and it waits for no phase, the group sleeps, `fwait` holds it back, the
transform pipe has not accepted its request (15 R301), its emission or flush is not complete, an `stcm` of the group has not
written its stamp (25 R434), or, for a fragment that begins an instruction, another one waits at a rendezvous or on a handle
(08 R168). DEDUCED, log entry 144. -/
def issueHeld (s : State) (key : Nat) (g : Group) (tm : Team) (frag : Nat) (st : Stage) : Bool :=
  (g.stopped.contains frag && !inAcquire st) || s.rels.any (fun r => r.group == key && r.hold == 3 && !inRelease st) ||
    g.frags.any (fun e => asleepAt s.now e.2.stage) || (Ops.core s tm.core).xfWait.any (fun r => r.group == key) ||
    awaitsBinner s key || soleHolds g frag || (st == .fresh && waitsElsewhere g frag)

/-- The fragment cannot go on now, whatever its instruction is: its team is stopped or switched out, its group waits for a
fetch, or its group issues nothing. -/
def groupHeld (s : State) (key : Nat) (g : Group) (tm : Team) (frag : Nat) (st : Stage) : Bool :=
  tm.out || (tm.stopping && !finishes st) || (!begun st && (g.fetchPark.isSome || issueHeld s key g tm frag st))

/-- The general registers of a run that the group has. -/
def runOf (g : Group) (r : BitVec 9) (n : Nat) : List RegName :=
  ((upto n).map (fun i => regNo r + i)).filterMap (fun i => if i < g.nv then some (.v i) else none)

/-- The run that an instruction reads beyond the registers that its operands name: the vertex, indices or splat of an emission
(18 R374), the position that `ssadd` adds (18 R368). -/
def runSrc (g : Group) : Instr → List RegName
  | .emitv _ o => runOf g o.a (3 + o.imm16.toNat)
  | .emit _ o => runOf g o.a 3
  | .emitsp _ o => runOf g o.a 9
  | .ssadd _ o => runOf g o.a 3
  | _ => []

/-- The longest run that it may read, before its network or record is known: the inputs of `neval` (16 R314), position and
footprint of `ssadd`. -/
def longestSrc (g : Group) : Instr → List RegName
  | .neval _ o => runOf g o.a 64
  | .ssadd _ o => runOf g o.a 5
  | i => runSrc g i

/-- The longest run that `neval` may write before its network is known (16 R314). -/
def longestRun (g : Group) : Instr → List RegName
  | .neval _ o => runOf g o.d 64
  | _ => []

/-- The instruction cannot issue now, whatever its group does: a fence or an acquire of another fragment holds its access back (12
R251, 11 R220), an instruction on a set precedes it (19 R381), a register awaits a result, or a parked instruction precedes it.
DEDUCED, log entry 151. -/
def instrHeld (c : Ctx) (m : Marks) (os : List Opnd) (ps : List Nat) : Bool :=
  let names := os.flatMap Opnd.names ++ runSrc c.g c.i ++ (c.h.gp.toNat :: ps).map RegName.p
  c.s.rels.any (fun r => r.group == c.key && r.hold == 2 && m.mem) || (m.mem && acquireOpen c.g c.frag) ||
    (namesSet c.i && setOpen c.g c.frag) ||
    (!inOwn c.f.stage && names.any (fun n => (held c.g).contains n)) || (m.waits && !c.g.parked.isEmpty) ||
    c.g.parked.any (fun q => !q.logged && (destNames os).any (fun n => q.src.contains n))

/-- The instruction cannot issue now. -/
def stalled (c : Ctx) (m : Marks) (os : List Opnd) (ps : List Nat) : Bool :=
  groupHeld c.s c.key c.g c.tm c.frag c.f.stage || (!begun c.f.stage && instrHeld c m os ps)

/-- Complete: results with LA = 0 are written, the open windows count the instruction, results with LA > 0 open a window,
the region is closed under mark C, the fragment moves to `pc`, and joins are met. When it was issued, the cycle has noted
(Machine/Issue.lean). -/
def retire (c : Ctx) (m : Marks) (s : State) (pc : DWord) (w : List RegWrite) (fl : List (Nat × Nat)) : State :=
  modGroup s c.key (fun g =>
    let g1 : Group := if c.h.la = 0 then fl.foldl orLstat (w.foldl writeReg g) else g
    let g2 : Group := passWindows g1
    let own : Window := { left := c.h.la.toNat, writes := w, flags := fl }
    let g3 : Group := if c.h.la = 0 then g2 else { g2 with windows := g2.windows ++ [own] }
    settle settleFuel { g3 with
      region := if m.closes then none else g3.region
      fetchRep := if g3.fetchOwner = c.frag then 0 else g3.fetchRep
      frags := Maps.modify c.frag (fun f => { f with pc := pc, stage := .fresh, read := none, arrival := 0 }) g3.frags })

/-- Complete with the fragments already placed. -/
def retireMoved (c : Ctx) (m : Marks) (s : State) : State :=
  modGroup s c.key (fun g =>
    let g1 : Group := passWindows g
    settle settleFuel { g1 with
      region := if m.closes then none else g1.region
      fetchRep := if g1.fetchOwner = c.frag then 0 else g1.fetchRep })

/-- A parked instruction completes: its window gets its result, its log entry is freed. -/
def unpark (c : Ctx) (m : Marks) (q : Parked) (s : State) (w : List RegWrite) (fl : List (Nat × Nat)) : State :=
  modGroup s c.key (fun g => landClosed { g with
    windows := g.windows.map (fun x => if x.id = q.window then { x with ready := true, writes := w, flags := fl } else x)
    parked := g.parked.filter (fun x => x.id != q.id)
    region := if m.closes then none else g.region })

/-- The records of a park (R397), with the repeat count of each address (R400). -/
def raiseFaults (c : Ctx) (pid : Nat) (reps : List (Nat × Nat)) (s : State) (fs : List PageFault) : State :=
  fs.foldl (fun (s : State) (x : PageFault) => (raise s {
    ctx := c.tm.ctx, code := 0x06, cause := x.cause, source := 0, access := x.access, place := c.tm.core,
    slot := c.g.slot, rep := Maps.get 0 x.addr reps, lanes := x.lanes, addr := x.addr, pc := c.f.pc.toNat, tkey := c.tm.tkey,
    agent := .group c.key pid }).2) s

/-- Entries of the core's operand log in use (R397). -/
def logUse (s : State) (core : Nat) : Nat :=
  (s.groups.map (fun (e : Nat × Group) =>
    if (match team? s e.2.team with | some t => t.core == core && !t.out | none => false)
    then (e.2.parked.filter (fun q => q.logged)).length else 0)).foldl (fun a b => a + b) 0

/-- The repeat counts after faults at their addresses: the next record of an address counts one more (R400). -/
def countFaults (reps : List (Nat × Nat)) (fs : List PageFault) : List (Nat × Nat) :=
  fs.foldl (fun m x => Maps.insert x.addr (Maps.get 0 x.addr m + 1) m) reps

/-- The stage that an instruction has reached in a state. -/
def stageIn (c : Ctx) (s : State) : Stage :=
  let st := (group? s c.key).bind (fun g => match c.park with
    | none => (Maps.find? c.frag g.frags).map (fun f => f.stage)
    | some q => (g.parked.find? (fun x => x.id == q.id)).map (fun x => x.stage))
  st.getD c.f.stage

/-- Park (R397), or fail again after a replay (R400, R401). -/
def parkInstr (c : Ctx) (os : List Opnd) (s : State) (fs : List PageFault) : State :=
  match c.park with
  | some q =>
    if fs.any (fun x => decide (16 ≤ Maps.get 0 x.addr q.reps)) then terminate s c.tm.ctx 0x07
    else
      let s1 := modGroup s c.key (fun g => { g with
        parked := g.parked.map (fun x => if x.id = q.id then { x with reps := countFaults q.reps fs, go := false } else x) })
      raiseFaults c q.id q.reps s1 fs
  | none =>
    let wid := s.uid
    let pid := s.uid + 1
    let names := destNames os ++ longestRun c.g c.i
    let entry : Parked := {
      id := pid, frag := c.frag, pc := c.f.pc, instr := c.i, pass := c.pass, active := c.active, dest := names,
      v := c.v, k := c.k, p := c.p, window := wid, logged := decide (logUse s c.tm.core < 256), stage := stageIn c s,
      src := (os.filter (fun o => !o.dest)).flatMap Opnd.names ++ longestSrc c.g c.i, reps := countFaults [] fs
      began := (c.f.read.map (fun r => r.began)).getD s.uid }
    let s1 := modGroup { s with uid := s.uid + 2 } c.key (fun g => { g with
      windows := g.windows ++ [({ id := wid, left := c.h.la.toNat + 1, ready := false, dest := names } : Window)]
      parked := g.parked ++ [entry] })
    let s2 := retire { c with h := { c.h with la := 0 } } {} s1 (nextSlot c.f.pc) [] []
    raiseFaults c pid [] s2 fs

/-- The group without a parked instruction: its log entry is free, and its destinations keep their values. -/
def withoutPark (q : Parked) (g : Group) : Group :=
  { g with windows := g.windows.filter (fun x => x.id != q.window), parked := g.parked.filter (fun x => x.id != q.id) }

/-- The fragment in which the lanes of a parked instruction stand; none while they wait at a join. -/
def parkFrag (g : Group) (q : Parked) : Option (Nat × Fragment) := g.frags.find? (fun e => e.2.mask.testBit (lowLane q.active))

/-- The deferred trap of a parked instruction cannot be delivered yet to the fragment of its lanes. -/
def deferHeld (s : State) (tm : Team) (g : Group) (q : Parked) (code : Nat) : Bool :=
  (parkFrag g q).isSome && (!openReady (withoutPark q g) || vectorWaits s tm code)

/-- A route-H trap of a re-executed parked instruction (R449): its destinations keep their values, and the saved program
counter is that of its lanes' point of issue. Where those lanes wait at a join, its destinations and its log entry are free
at once, and it is taken when they stand in a fragment again. DEDUCED, log entry 21. -/
def deferTrap (s : State) (key : Nat) (g : Group) (q : Parked) (t : Trap) : State :=
  match parkFrag g q with
  | some e => takeTrap (modGroup s key (withoutPark q)) key e.1 t e.2.pc true
  | none =>
    let x : LateTrap := { code := t.code, cause := t.cause, lanes := t.lanes, info := t.info, active := q.active }
    modGroup s key (fun g => landClosed { withoutPark q g with late := g.late ++ [x] })

/-- A trap of a fragment is not delivered yet: a handler has stopped the fragment, an open window's result is not known, a
parked instruction precedes it, or its vector entry cannot be read yet. DEDUCED, log entries 17, 21. -/
def trapHeld (s : State) (tm : Team) (g : Group) (frag code : Nat) : Bool :=
  g.stopped.contains frag || !openReady g || !g.parked.isEmpty || vectorWaits s tm code

/-- A trap that cannot be delivered yet leaves the state as it was, and the instruction executes again; an access that has begun and
an `stcm` keep the trap, so that nothing waits for them to complete, and no check of theirs is made again (24 R426).
DEDUCED, log entry 152. -/
def keepTrap (c : Ctx) (t : Trap) (s : State) : State :=
  if begun (stageIn c s) || inStcm (stageIn c s) then setStage c c.s (.trapping t.code t.cause t.lanes t.info) else c.s

/-- The instruction must log its registers to park, and one that it may read or write awaits a result: it waits whatever its
guard lets it do (22 R414). DEDUCED, log entries 74, 85. -/
def parkHeld (c : Ctx) : Bool :=
  c.park.isNone && (longestSrc c.g c.i ++ longestRun c.g c.i).any (fun n => (held c.g).contains n)

/-- End an execution. A trap is delivered once every open window's result is known and no parked instruction precedes it. -/
def finish (c : Ctx) (m : Marks) (os : List Opnd) : Res → State
  | .done s w fl =>
    match c.park with
    | none => retire c m s (nextSlot c.f.pc) w fl
    | some q => unpark c m q s w fl
  | .issued s =>
    match c.park with
    | none => retire { c with h := { c.h with la := 0 } } m s (nextSlot c.f.pc) [] []
    | some q => modGroup s c.key (fun g => { g with
        parked := g.parked.filter (fun x => x.id != q.id), region := if m.closes then none else g.region })
  | .moved s => retireMoved c m s
  | .wait s => s
  | .trap t s =>
    match c.park with
    | none =>
      if trapHeld c.s c.tm c.g c.frag t.code then keepTrap c t s
      else takeTrap s c.key c.frag t (savedPc t.code c.f.pc) false
    | some q => if deferHeld c.s c.tm c.g q t.code then keepTrap c t s else deferTrap s c.key c.g q t
  | .kill code s => terminate s c.tm.ctx code
  | .park s fs => if parkHeld c then c.s else parkInstr c os s fs

/-- Execute an instruction of a group from its operands, the predicates it names and its effect (R27).
DEDUCED, log entry 135. -/
def run (i : Instr) (h : Hdr) (m : Marks) (os : List Opnd) (ps : List Nat) (body : Ctx → Res) (s : State) :
    Host.Outcome State Fault Refusal :=
  match ctx? s i h with
  | none => .fault .noAgent
  | some c0 =>
    let c := withoutHelpers m c0
    .next (match c.park with
      | some _ => finish c m os (body c)
      | none =>
        if stalled c m os ps then s
        else if !operandsOk c.g os then finish c m os (.trap (trapOf 0x03 c.active) s)
        else finish c m os (body c))

/-- A result that an engine will supply: its window opens now, unready. The instruction itself still passes, so the
window starts one longer; a parked instruction has its window already. Answers the window's number. -/
def pend (c : Ctx) (s : State) (names : List RegName) : Nat × State :=
  match c.park with
  | some q => (q.window, s)
  | none => (s.uid, modGroup { s with uid := s.uid + 1 } c.key (fun g => { g with
    windows := g.windows ++ [({ id := s.uid, left := c.h.la.toNat + 1, ready := false, dest := names } : Window)] }))

/-- An engine supplies a result; it lands when its window has closed (LONG_LATENCY_RESULT_LAND). -/
def supply (s : State) (key wid : Nat) (w : List RegWrite) (fl : List (Nat × Nat)) : State :=
  let s1 := modGroup s key (fun g => { g with
    windows := g.windows.map (fun x => if x.id = wid then { x with ready := true, writes := w, flags := fl } else x) })
  { s1 with agenda := s1.agenda ++ [.event (.longLatencyResultLand key)] }

/-- ILLEGAL_OPERAND for the whole instruction. DEDUCED, log entry 13. -/
def illegal (c : Ctx) (s : State) : Res := .trap (trapOf 0x03 c.active) s

/-- Nothing but the advance. -/
def noEffect (c : Ctx) : Res := .done c.s [] []

end Ops

end Sys2Proof.Machine
end

