-- ==== Sys2Proof/Machine/Fetch.lean ====
section
/-! DEFINITION. How a fragment comes to its next instruction: the fetch of its line, the checks of the line word, decoding
in the order of 02 R53, and what a fetch that fails does (02 R38 to R43, R45, 18 R364). -/

namespace Sys2Proof.Machine

open Sys2Proof.Bits

namespace Ops

/-- The kind of kernel allows the instruction (18 R364); the check is made on the opcode alone. -/
def kernelAllows (hd : Header) : Instr → Bool
  | .emitv _ _ => hd.geomFlag && !hd.fragFlag
  | .emit _ _ => hd.geomFlag && !hd.fragFlag
  | .emitsp _ _ => hd.geomFlag && !hd.fragFlag
  | .fin _ _ => hd.fragFlag
  | .fout _ _ => hd.fragFlag
  | .fdep _ _ => hd.fragFlag
  | .disc _ _ => hd.fragFlag
  | .ssnew _ _ => !hd.fragFlag
  | .ssadd _ _ => !hd.fragFlag
  | .ssbuild _ _ => !hd.fragFlag
  | .ssbind _ _ => !hd.fragFlag
  | .ssrebind _ _ => !hd.fragFlag
  | .ssfree _ _ => !hd.fragFlag
  | .rflush _ _ => !hd.fragFlag
  | _ => true

/-- Orders 4 and 5 of R53 for a word of an ordinary line: the instruction, or the code of its trap. -/
def decodeFor (hd : Header) (w : IWord) : Except Nat Instr :=
  match rawDecode w with
  | none => .error 0x01
  | some i =>
    if isStream i || !kernelAllows hd i then .error 0x01
    else match decode false w with
      | .ok i => .ok i
      | .error _ => .error 0x02

/-- Deliver a trap that arises before an instruction executes; it waits like any other (Ops.finish). -/
def deliver (s : State) (key frag : Nat) (t : Trap) (saved : DWord) : State :=
  match group? s key with
  | none => s
  | some g => match team? s g.team with
    | none => s
    | some tm => if trapHeld s tm g frag t.code then s else takeTrap s key frag t saved false

/-- A fetch that parks stops the whole group (R43, 21 R397, R400): its record carries the program counter of the
instruction, and the line's address. -/
def parkFetch (s : State) (key frag : Nat) (f : Fragment) (cause line : Nat) : State :=
  match group? s key with
  | none => s
  | some g =>
    match team? s g.team with
    | none => s
    | some tm =>
      let rep := if g.fetchOwner = frag ∧ g.fetchAddr = line then g.fetchRep else 0
      if 16 ≤ rep then terminate s tm.ctx 0x07
      else
        let r : Rec := { ctx := tm.ctx, code := 0x06, cause := cause, source := 0, access := 4, place := tm.core,
                         slot := g.slot, rep := rep, lanes := f.mask, addr := line, pc := f.pc.toNat,
                         tkey := tm.tkey, agent := .fetch key }
        let p := raise s r
        modGroup p.2 key (fun g => { g with fetchPark := some p.1, fetchOwner := frag, fetchRep := rep, fetchAddr := line })

/-- What becomes of a group whose line does not translate (R40, 21 R396). -/
def fetchFault (s : State) (key frag : Nat) (f : Fragment) (ctx line : Nat) : Tr → State
  | .noncanon => deliver s key frag { code := 0x06, cause := 0x00, lanes := f.mask, info := line } f.pc
  | .denied => deliver s key frag { code := 0x06, cause := 0x01, lanes := f.mask, info := line } f.pc
  | .malformed _ => parkFetch s key frag f 0x11 line
  | .absent fpol _ =>
    if fpol = 0 then parkFetch s key frag f 0x10 line
    else if fpol = 3 then terminate s ctx 0x06
    else deliver s key frag { code := 0x06, cause := 0x02, lanes := f.mask, info := line } f.pc
  | .broken => terminate s ctx 0x1F
  | _ => s

/-- An instruction ready to execute, or a state in which none is. -/
inductive Ready where
  | run (i : Instr) (s : State)
  | settled (s : State)

/-- The slot is an arrival whose mark is clear: the launch entry traps ILLEGAL_TARGET, a trap vector is a double trap.
DEDUCED, log entry 121. -/
def badArrival (f : Fragment) (bs : List Byte) : Bool := f.arrival != 0 && !marked (lineWord bs) (slotOf f.pc)

/-- A NEVAL_FAULT is taken before the group's next instruction (16 R327): by the fragment of its lowest lane, where that is
between two instructions, or by the one that is about to issue. DEDUCED, log entry 65. -/
def deliverNev (s : State) (key frag : Nat) (tm : Team) (g : Group) (t : DWord × Nat) : State :=
  if trapHeld s tm g frag 0x0D then s
  else
    let f := match g.frags.find? (fun e => e.2.mask.testBit (lowLane t.2) && e.2.stage == .fresh) with
      | some e => e
      | none => (frag, (Maps.find? frag g.frags).getD {})
    takeTrap (modGroup s key (fun g => { g with nevTrap := none })) key f.1
      { code := 0x0D, lanes := t.2, info := t.1.toNat } f.2.pc false

/-- A deferred trap of lanes that stand in the fragment (21 R449). -/
def lateOf (g : Group) (f : Fragment) : Option LateTrap :=
  if f.stage = .fresh then g.late.find? (fun x => f.mask.testBit (lowLane x.active)) else none

/-- It is taken at the fragment's point of issue. DEDUCED, log entry 21. -/
def deliverLate (s : State) (key frag : Nat) (tm : Team) (g : Group) (pc : DWord) (x : LateTrap) : State :=
  if trapHeld s tm g frag x.code then s
  else takeTrap (modGroup s key (fun g => { g with late := g.late.filter (fun y => y != x) })) key frag
    { code := x.code, cause := x.cause, lanes := x.lanes, info := x.info } pc true

/-- Fetch and decode the instruction of a fragment (R27 steps 1 and 2); one that waits has been fetched, and a trap that it keeps
is delivered. DEDUCED, log entries 121, 152. -/
def fetchFrag (s : State) (key frag : Nat) : Ready :=
  match group? s key with
  | none => .settled s
  | some g =>
    match team? s g.team, Maps.find? frag g.frags with
    | some tm, some f =>
      if groupHeld s key g tm frag f.stage then .settled s
      else if let some x := lateOf g f then .settled (deliverLate s key frag tm g f.pc x)
      else if let some t := (if f.stage = .fresh then g.nevTrap else none) then .settled (deliverNev s key frag tm g t)
      else if let some t := trapDue f.stage then .settled (deliver s key frag t (savedPc t.code f.pc))
      else if let some r := (if f.stage = .fresh then none else f.read) then .run r.instr { s with cur := .frag key frag }
      else match fetchLine s tm.core tm.ctx (lineOf f.pc) with
        | (.check, s) => .settled (terminate s tm.ctx 0x1F)
        | (.fault t, s) => .settled (fetchFault s key frag f tm.ctx (lineOf f.pc) t)
        | (.line bs, s) =>
          if !lineWordOk false (lineWord bs) then .settled (deliver s key frag (trapOf 0x02 f.mask) f.pc)
          else if badArrival f bs then .settled (deliver s key frag (trapOf 0x04 f.mask) f.pc)
          else match decodeFor tm.hdr (slotWord bs (slotOf f.pc)) with
            | .error code => .settled (deliver s key frag (trapOf code f.mask) f.pc)
            | .ok i => .run i { s with cur := .frag key frag }
    | _, _ => .settled s

/-- Re-execute a parked instruction that a replay lets continue (21 R398), or deliver the trap that it keeps. -/
def fetchParked (s : State) (key pid : Nat) : Ready :=
  match group? s key with
  | none => .settled s
  | some g =>
    match g.parked.find? (fun q => q.id == pid), team? s g.team with
    | some q, some tm =>
      if !q.go || tm.out then .settled s
      else match trapDue q.stage with
        | some t => .settled (if deferHeld s tm g q t.code then s else deferTrap s key g q t)
        | none => .run q.instr { s with cur := .replay key pid }
    | _, _ => .settled s

/-! ### Sequencers (14 R286, R288) -/

/-- Change the sequencer of a team. -/
def modSeq (s : State) (team : Nat) (f : Seq → Seq) : State := modTeam s team (fun t => { t with seq := t.seq.map f })

/-- A trap of a sequencer: it stops with a route-S record at SPC (R288, 22 R413, 23 R417). DEDUCED, log entry 61. -/
def stopSeq (s : State) (team code cause access addr detail : Nat) : State :=
  match team? s team with
  | none => s
  | some tm =>
    match tm.seq with
    | none => s
    | some q =>
      let rep := if code = 0x06 ∧ q.repAddr = addr then q.rep else 0
      if 16 ≤ rep then terminate s tm.ctx 0x07
      else
        let r := raise s { ctx := tm.ctx, code := code, cause := cause, source := 1, access := access, place := tm.core,
                           slot := q.slot, rep := rep, addr := addr, pc := q.spc.toNat, detail := detail, tkey := tm.tkey,
                           agent := .seq team }
        modSeq r.2 team (fun q => { q with stopped := some r.1 })

/-- What becomes of a sequencer whose line does not translate (02 R40). DEDUCED, log entry 61. -/
def streamFault (s : State) (team ctx line : Nat) : Tr → State
  | .noncanon => stopSeq s team 0x06 0x00 4 line 0
  | .denied => stopSeq s team 0x06 0x01 4 line 0
  | .malformed _ => stopSeq s team 0x06 0x11 4 line 0
  | .absent fpol _ =>
    if fpol = 0 then stopSeq s team 0x06 0x10 4 line 0
    else if fpol = 3 then terminate s ctx 0x06
    else stopSeq s team 0x06 0x02 4 line 0
  | .broken => stopSeq s team 0x1F 0 0 0 0
  | _ => s

/-- A sequencer that does not execute: ended, stopped by a record, or stopped for a switch-out (R289). -/
def seqIdle (tm : Team) (q : Seq) : Bool := tm.out || q.ended || q.stopped.isSome || (tm.stopping && !q.granted)

/-- Fetch and decode the instruction of a sequencer; one that the array has been granted to is not fetched again. -/
def fetchStream (s : State) (team : Nat) : Ready :=
  match team? s team with
  | none => .settled s
  | some tm =>
    match tm.seq with
    | none => .settled s
    | some q =>
      if seqIdle tm q then .settled s
      else if let some i := (if q.granted then q.op.filter isStream else none) then .run i { s with cur := .seq team }
      else match fetchLine s tm.core tm.ctx (lineOf q.spc) with
        | (.check, s) => .settled (stopSeq s team 0x1F 0 0 0 0)
        | (.fault t, s) => .settled (streamFault s team tm.ctx (lineOf q.spc) t)
        | (.line bs, s) =>
          let w := slotWord bs (slotOf q.spc)
          if !lineWordOk true (lineWord bs) then .settled (stopSeq s team 0x02 0 0 0 0)
          else if q.arrival && !marked (lineWord bs) (slotOf q.spc) then .settled (stopSeq s team 0x04 0 0 0 0)
          else match rawDecode w with
            | none => .settled (stopSeq s team 0x01 0 0 0 0)
            | some i =>
              if !isStream i then .settled (stopSeq s team 0x01 0 0 0 0)
              else match decode true w with
                | .error _ => .settled (stopSeq s team 0x02 0 0 0 0)
                | .ok i => .run i { modSeq s team (fun q => { q with arrival := false, op := some i }) with cur := .seq team }

end Ops

end Sys2Proof.Machine
end

