-- ==== Sys2Proof/Machine/Num.lean ====
section
/-! DEFINITION. Numbers (04): integer and floating-point formats, exact values, the one rounding, the conversion
path, and the window sum of the matrix array. An exact value is an integer times a power of two; a quotient or a
root is held with its low bit sticky, far below the last place that a rounding looks at. -/

namespace Sys2Proof.Num

open Sys2Proof.Bits

/-! ### Integer formats (R80, R108) -/

/-- The width of an integer format code 0 to 7. -/
def intWidth (fmt : Nat) : Nat := 8 * 2 ^ (fmt % 4)

/-- Codes 0 to 3 are signed. -/
def intSigned (fmt : Nat) : Bool := fmt < 4

/-- The value of the low bits of `n` in integer format `fmt` (R80). -/
def intVal (fmt n : Nat) : Int :=
  if intSigned fmt then sext (intWidth fmt) n else ((n % 2 ^ intWidth fmt : Nat) : Int)

/-- The least value of a format. -/
def intMin (fmt : Nat) : Int := if intSigned fmt then -((2 ^ (intWidth fmt - 1) : Nat) : Int) else 0

/-- The greatest value of a format. -/
def intMax (fmt : Nat) : Int :=
  if intSigned fmt then ((2 ^ (intWidth fmt - 1) : Nat) : Int) - 1 else ((2 ^ intWidth fmt : Nat) : Int) - 1

/-- sat_int on a finite integer (R93). -/
def satInt (fmt : Nat) (x : Int) : Int := if x < intMin fmt then intMin fmt else if intMax fmt < x then intMax fmt else x

/-- The register bits of an integer result: 8- and 16-bit results are extended to 32 bits (R80). -/
def intBits (fmt : Nat) (x : Int) : Nat :=
  let w := intWidth fmt
  if w < 32 then wrap 32 (intVal fmt (wrap w x)) else wrap w x

/-! ### Floating-point formats (R83) -/

/-- A floating-point format: bits of the significand with the hidden one, exponent of the least subnormal, largest
exponent, and width. -/
structure FFmt where
  prec : Nat
  qmin : Int
  emax : Int
  width : Nat
  deriving DecidableEq, Repr

def f32 : FFmt := ⟨24, -149, 127, 32⟩
def f16 : FFmt := ⟨11, -24, 15, 16⟩
def bf16 : FFmt := ⟨8, -133, 127, 16⟩

/-- The format of a format code 8, 9 or 10 (R108). -/
def fmtOf (code : Nat) : FFmt := if code = 8 then f16 else if code = 9 then bf16 else f32

/-- The canonical NaN (R89). -/
def FFmt.nan (f : FFmt) : Nat := (2 ^ (f.width - f.prec) - 1) * 2 ^ (f.prec - 1) + 2 ^ (f.prec - 2)

/-- The bits of an infinity. -/
def FFmt.infBits (f : FFmt) (neg : Bool) : Nat :=
  b2n neg * 2 ^ (f.width - 1) + (2 ^ (f.width - f.prec) - 1) * 2 ^ (f.prec - 1)

/-- The bits of the largest finite magnitude. -/
def FFmt.maxBits (f : FFmt) (neg : Bool) : Nat := f.infBits neg - 1

/-- The bits of 1.0. -/
def FFmt.one (f : FFmt) : Nat := (2 ^ (f.width - f.prec - 1) - 1) * 2 ^ (f.prec - 1)

/-- An exact value: NaN, an infinity, or a signed magnitude m times 2^e (m = 0 is a signed zero). -/
inductive Val where
  | nan
  | inf (neg : Bool)
  | num (neg : Bool) (m : Nat) (e : Int)
  deriving DecidableEq, Repr

/-- val(b, fmt) of R93. -/
def val (f : FFmt) (b : Nat) : Val :=
  let neg := bit b (f.width - 1)
  let frac := field b 0 (f.prec - 1)
  let exp := field b (f.prec - 1) (f.width - f.prec)
  if exp = 2 ^ (f.width - f.prec) - 1 then (if frac = 0 then .inf neg else .nan)
  else if exp = 0 then .num neg frac f.qmin
  else .num neg (frac + 2 ^ (f.prec - 1)) (f.qmin + ((exp : Int) - 1))

/-- A NaN pattern. -/
def isNaN (f : FFmt) (b : Nat) : Bool := val f b == .nan

/-- A signalling NaN: a NaN whose most significant fraction bit is 0 (R83). -/
def isSNaN (f : FFmt) (b : Nat) : Bool := isNaN f b && !bit b (f.prec - 2)

/-! ### Status flags, at their places in %lstat (R19) -/

def FNV : Nat := 2 ^ 12
def FDZ : Nat := 2 ^ 11
def FOF : Nat := 2 ^ 10
def FUF : Nat := 2 ^ 9
def FNX : Nat := 2 ^ 8

/-- The flag `f` when `c` holds. -/
def flagIf (c : Bool) (f : Nat) : Nat := if c then f else 0

/-- Result bits with the flags they set. -/
structure FRes where
  bits : Nat
  flags : Nat
  deriving DecidableEq, Repr

/-- FNV for each signalling NaN read (R89). -/
def snanFlags (f : FFmt) (bs : List Nat) : Nat := flagIf (bs.any (isSNaN f)) FNV

/-! ### Rounding (R87, R88) -/

/-- Does a magnitude with remainder `rem` of `2^k` round away from zero? `odd` is the last kept bit. -/
def roundsUp (mode : Nat) (neg odd : Bool) (rem k : Nat) : Bool :=
  if rem = 0 then false
  else match mode with
    | 0 => decide (2 ^ (k - 1) < rem) || (decide (rem = 2 ^ (k - 1)) && odd)
    | 1 => false
    | 2 => neg
    | _ => !neg

/-- m times 2^e in units of 2^q, rounded, and whether that was inexact. -/
def roundSig (mode : Nat) (neg : Bool) (m : Nat) (e q : Int) : Nat × Bool :=
  if q ≤ e then (m * 2 ^ (e - q).toNat, false)
  else
    let k := (q - e).toNat
    let s := m / 2 ^ k
    let rem := m % 2 ^ k
    (s + b2n (roundsUp mode neg (s % 2 == 1) rem k), rem != 0)

/-- The result of an overflow (R88). -/
def overflowBits (f : FFmt) (mode : Nat) (neg : Bool) : Nat :=
  match mode with
  | 0 => f.infBits neg
  | 1 => f.maxBits neg
  | 2 => if neg then f.infBits true else f.maxBits false
  | _ => if neg then f.maxBits true else f.infBits false

/-- Round a non-zero magnitude m times 2^e. -/
def roundNum (f : FFmt) (mode : Nat) (neg : Bool) (m : Nat) (e : Int) : FRes :=
  let top : Int := e + (m.log2 : Int)
  let emin : Int := f.qmin + (f.prec : Int) - 1
  let q0 : Int := top - ((f.prec : Int) - 1)
  let q : Int := max q0 f.qmin
  let r := roundSig mode neg m e q
  let sig := if r.1 = 2 ^ f.prec then 2 ^ (f.prec - 1) else r.1
  let q' : Int := if r.1 = 2 ^ f.prec then q + 1 else q
  if decide (2 ^ (f.prec - 1) ≤ sig) && decide (f.emax < q' + (f.prec : Int) - 1) then
    ⟨overflowBits f mode neg, FOF ||| FNX⟩
  else
    let tiny := decide (top < emin) &&
      !(decide (top = emin - 1) && (roundSig mode neg m e q0).1 == 2 ^ f.prec)
    let mag := if sig < 2 ^ (f.prec - 1) then sig
      else (q' - f.qmin + 1).toNat * 2 ^ (f.prec - 1) + (sig - 2 ^ (f.prec - 1))
    ⟨b2n neg * 2 ^ (f.width - 1) + mag, flagIf (tiny && r.2) FUF ||| flagIf r.2 FNX⟩

/-- round_to(x, fmt, m) of R93. A NaN gives the canonical NaN and no flag here: the flag of the invalid operation or
signalling source that made it is its caller's. -/
def roundTo (f : FFmt) (mode : Nat) (x : Val) : FRes :=
  match x with
  | .nan => ⟨f.nan, 0⟩
  | .inf neg => ⟨f.infBits neg, 0⟩
  | .num neg m e => if m = 0 then ⟨b2n neg * 2 ^ (f.width - 1), 0⟩ else roundNum f mode neg m e

/-- round_int on a finite value (R93). -/
def roundIntNum (mode : Nat) (neg : Bool) (m : Nat) (e : Int) : Int :=
  let s := (roundSig mode neg m e 0).1
  if neg then -(s : Int) else (s : Int)

/-- satf in a format (R91). -/
def satf (f : FFmt) (b : Nat) : Nat :=
  match val f b with
  | .nan => 0
  | .inf neg => if neg then 0 else f.one
  | .num neg m e => if neg || m == 0 then 0 else if (roundSig 3 false m e 0).1 ≤ 1 then b else f.one

/-- satf when SAT is 1. -/
def satIf (f : FFmt) (sat : Bool) (r : FRes) : FRes := if sat then ⟨satf f r.bits, r.flags⟩ else r

/-! ### Exact arithmetic -/

/-- An exact product and whether it is the invalid infinity times zero. -/
def mulVal (a b : Val) : Val × Bool :=
  match a, b with
  | .nan, _ => (.nan, false)
  | _, .nan => (.nan, false)
  | .inf s, .inf t => (.inf (s != t), false)
  | .inf s, .num t m _ => if m = 0 then (.nan, true) else (.inf (s != t), false)
  | .num s m _, .inf t => if m = 0 then (.nan, true) else (.inf (s != t), false)
  | .num s m e, .num t n k => (.num (s != t) (m * n) (e + k), false)

/-- The opposite value. -/
def negVal : Val → Val
  | .nan => .nan
  | .inf s => .inf (!s)
  | .num s m e => .num (!s) m e

/-- A finite value as an integer in units of 2^q, exact when q is at most its exponent. -/
def scaled (q : Int) : Val → Int
  | .num s m e => let v : Int := ((m * 2 ^ (e - q).toNat : Nat) : Int); if s then -v else v
  | _ => 0

/-- The exponent of a value. -/
def expOf : Val → Int
  | .num _ _ e => e
  | _ => 0

/-- The least exponent of a list of values. -/
def minExp : List Val → Int
  | [] => 0
  | [v] => expOf v
  | v :: vs => min (expOf v) (minExp vs)

/-- The exact value of an integer times 2^e; zero is +0. -/
def ofInt (n : Int) (e : Int) : Val := .num (decide (n < 0)) n.natAbs e

/-- Is a value negative, counting -0? -/
def signOf : Val → Bool
  | .num s _ _ => s
  | .inf s => s
  | .nan => false

/-- An exact sum, and whether it is invalid because it holds both infinities, beside a NaN too (R143). An exact zero of terms of both
signs is +0, or -0 under rd (R88). -/
def sumVals (mode : Nat) (ts : List Val) : Val × Bool :=
  let both := ts.contains (.inf true) && ts.contains (.inf false)
  if ts.contains .nan || both then (.nan, both)
  else if ts.contains (.inf true) then (.inf true, false)
  else if ts.contains (.inf false) then (.inf false, false)
  else
    let q := minExp ts
    let n := (ts.map (scaled q)).foldl (· + ·) 0
    if n = 0 then
      (.num (if ts.all signOf && !ts.isEmpty then true else if ts.any signOf then mode == 2 else false) 0 0, false)
    else (ofInt n q, false)

/-- The rounded sum of products and a value, with the flags of R88, R89 and R143. `snan` tells of a signalling source. -/
def fusedSum (f : FFmt) (mode : Nat) (prods : List (Val × Val)) (adds : List Val) (snan : Bool) : FRes :=
  let ps := prods.map (fun p => mulVal p.1 p.2)
  let s := sumVals mode (ps.map Prod.fst ++ adds)
  let r := roundTo f mode s.1
  ⟨r.bits, r.flags ||| flagIf (snan || s.2 || ps.any Prod.snd) FNV⟩

/-- Compare two finite or infinite values: the integers n of a and b in one unit, infinities beyond all. -/
def cmpKey (q : Int) (big : Int) : Val → Int
  | .nan => 0
  | .inf s => if s then -big else big
  | v => scaled q v

/-- a < b, for values that are not NaN; +0 equals -0. -/
def ltVal (a b : Val) : Bool :=
  let q := minExp [a, b]
  let big := 1 + |scaled q a| + |scaled q b|
  decide (cmpKey q big a < cmpKey q big b)

/-- a = b, for values that are not NaN; +0 equals -0. -/
def eqVal (a b : Val) : Bool := !ltVal a b && !ltVal b a

/-! ### Rounded arithmetic inside the algorithms (R140) -/

/-- rne_f32 of an exact value, as bits. -/
def rne (v : Val) : Nat := (roundTo f32 0 v).bits

/-- rne_f32 of an exact value, as a value. -/
def rneV (v : Val) : Val := val f32 (rne v)

/-- An exact product. -/
def mulE (a b : Val) : Val := (mulVal a b).1

/-- An exact sum of two values. -/
def addE (a b : Val) : Val := (sumVals 0 [a, b]).1

/-- p := rne_f32(p * x + c) for each coefficient in order. -/
def horner (x : Val) (p : Val) (cs : List Nat) : Val :=
  cs.foldl (fun p c => rneV (addE (mulE p x) (val f32 c))) p

/-- An exact quotient of finite values, b not zero, with a sticky last bit. -/
def divE (a b : Val) : Val :=
  match a, b with
  | .num s m e, .num t n k =>
    let num := m * 2 ^ 96
    .num (s != t) (2 * (num / n) + b2n (num % n != 0)) (e - k - 97)
  | _, _ => .nan

/-- The integer square root by its bits, from bit `i - 1` down. -/
def isqrtBits : Nat → Nat → Nat → Nat
  | 0, _, r => r
  | i + 1, n, r => if (r + 2 ^ i) * (r + 2 ^ i) ≤ n then isqrtBits i n (r + 2 ^ i) else isqrtBits i n r

/-- 1 / sqrt(m * 2^e) for m > 0, with a sticky last bit. -/
def rsqrtE (m : Nat) (e : Int) : Val :=
  let m := if e % 2 = 0 then m else 2 * m
  let e := if e % 2 = 0 then e else e - 1
  let y := 2 ^ 160 / m
  let r := isqrtBits 81 y 0
  .num false (2 * r + b2n (r * r * m != 2 ^ 160)) (-(e / 2) - 81)

/-- floor(pi * 2^512). -/
def piScaled : Nat :=
  0x3243f6a8885a308d313198a2e03707344a4093822299f31d0082efa98ec4e6c89452821e638d01377be5466cf34e90c6cc0ac29b7c97c50dd3f84d5b5b5470917

/-! ### Transcendental instructions (R147 to R151) -/

/-- The result of a NaN source (R147). -/
def nanRes (b : Nat) : FRes := ⟨f32.nan, flagIf (isSNaN f32 b) FNV⟩

/-- `fex2` (R148). -/
def fex2 (b : Nat) : FRes :=
  match val f32 b with
  | .nan => nanRes b
  | .inf neg => if neg then ⟨0, 0⟩ else ⟨f32.infBits false, 0⟩
  | .num s m e =>
    let x := if ltVal (.num s m e) (ofInt (-256) 0) then ofInt (-256) 0
      else if ltVal (ofInt 256 0) (.num s m e) then ofInt 256 0 else .num s m e
    let n := match x with | .num s m e => roundIntNum 0 s m e | _ => 0
    let f := addE x (ofInt (-n) 0)
    let p := horner f (val f32 0x377FE604)
      [0x39218489, 0x3AAEC3FF, 0x3C1D955B, 0x3D635847, 0x3E75FDF0, 0x3F317218, 0x3F800000]
    roundTo f32 0 (mulE p (.num false 1 n))

/-- `flg2` (R149). -/
def flg2 (b : Nat) : FRes :=
  match val f32 b with
  | .nan => nanRes b
  | .inf neg => if neg then ⟨f32.nan, FNV⟩ else ⟨f32.infBits false, 0⟩
  | .num s m e =>
    if m = 0 then ⟨f32.infBits true, FDZ⟩
    else if s then ⟨f32.nan, FNV⟩
    else
      let k := m.log2
      let mm : Val := .num false m (-(k : Int))
      let big := !ltVal mm (val f32 0x3FB504F3)
      let ex : Int := e + (k : Int) + (if big then 1 else 0)
      let mm : Val := .num false m (-(k : Int) - (if big then 1 else 0))
      let t := rneV (divE (addE mm (ofInt (-1) 0)) (rneV (addE mm (ofInt 1 0))))
      let sq := rneV (mulE t t)
      let q := horner sq (val f32 0x3EA4258D) [0x3ED30BB2, 0x3F13BB62, 0x3F76384D, 0x4038AA3B]
      let r := rneV (mulE q t)
      roundTo f32 0 (addE (ofInt ex 0) r)

/-- `frcp` (R150). -/
def frcp (b : Nat) : FRes :=
  match val f32 b with
  | .nan => nanRes b
  | .inf neg => ⟨b2n neg * 2 ^ 31, 0⟩
  | .num s m e =>
    if m = 0 then ⟨f32.infBits s, FDZ⟩ else roundTo f32 0 (divE (.num s 1 0) (.num false m e))

/-- `frsq` (R150). -/
def frsq (b : Nat) : FRes :=
  match val f32 b with
  | .nan => nanRes b
  | .inf neg => if neg then ⟨f32.nan, FNV⟩ else ⟨0, 0⟩
  | .num s m e =>
    if m = 0 then ⟨f32.infBits s, FDZ⟩
    else if s then ⟨f32.nan, FNV⟩
    else roundTo f32 0 (rsqrtE m e)

/-- The quadrant j and the reduced argument r of a finite x (R151). -/
def trigReduce (s : Bool) (m : Nat) (e : Int) : Nat × Val :=
  let num := 2 * (m * 2 ^ e.toNat) * 2 ^ 512
  let den := piScaled * 2 ^ (-e).toNat
  let k0 : Int := (((2 * num + den) / (2 * den) : Nat) : Int)
  let k : Int := if s then -k0 else k0
  let r := rneV (addE (.num s m e) (.num (decide (0 < k)) (k.natAbs * piScaled) (-513)))
  ((k % 4).toNat, r)

/-- sinpoly (R151). -/
def sinPoly (r : Val) : FRes :=
  let s := rneV (mulE r r)
  let q := horner s (val f32 0x3638EF1D) [0xB9500D01, 0x3C088889, 0xBE2AAAAB]
  let u := rneV (mulE q s)
  roundTo f32 0 (addE r (mulE r u))

/-- cospoly (R151). -/
def cosPoly (r : Val) : FRes :=
  let s := rneV (mulE r r)
  let q := horner s (val f32 0xB493F27E) [0x37D00D01, 0xBAB60B61, 0x3D2AAAAB, 0xBF000000]
  roundTo f32 0 (addE (ofInt 1 0) (mulE s q))

/-- Invert bit 31. -/
def flipSign (r : FRes) : FRes := ⟨r.bits ^^^ 2 ^ 31, r.flags⟩

/-- `fsin` (R151). -/
def fsin (b : Nat) : FRes :=
  match val f32 b with
  | .nan => nanRes b
  | .inf _ => ⟨f32.nan, FNV⟩
  | .num s m e =>
    if m = 0 then ⟨b, 0⟩
    else
      let jr := trigReduce s m e
      match jr.1 with
      | 0 => sinPoly jr.2
      | 1 => cosPoly jr.2
      | 2 => flipSign (sinPoly jr.2)
      | _ => flipSign (cosPoly jr.2)

/-- `fcos` (R151). -/
def fcos (b : Nat) : FRes :=
  match val f32 b with
  | .nan => nanRes b
  | .inf _ => ⟨f32.nan, FNV⟩
  | .num s m e =>
    if m = 0 then ⟨f32.one, 0⟩
    else
      let jr := trigReduce s m e
      match jr.1 with
      | 0 => cosPoly jr.2
      | 1 => flipSign (sinPoly jr.2)
      | 2 => flipSign (cosPoly jr.2)
      | _ => sinPoly jr.2

/-! ### The conversion path (R94, R95) -/

/-- The internal f32 value of a source with format code 0 to 10, in mode m. -/
def toInternal (code mode b : Nat) : FRes :=
  if code < 8 then roundTo f32 mode (ofInt (intVal code b) 0)
  else
    let f := fmtOf code
    let w := b % 2 ^ f.width
    if isNaN f w then ⟨f32.nan, flagIf (isSNaN f w) FNV⟩ else roundTo f32 0 (val f w)

/-- to_f32(b, fmt) of R93. -/
def toF32 (f : FFmt) (b : Nat) : FRes :=
  if isNaN f b then ⟨f32.nan, flagIf (isSNaN f b) FNV⟩ else roundTo f32 0 (val f b)

/-- narrow(x, fmt, m) of R93. -/
def narrow (code mode : Nat) (x : Val) : FRes :=
  let r := roundTo f32 mode x
  if code = 10 then r else
    let q := roundTo (fmtOf code) mode (val f32 r.bits)
    ⟨q.bits, r.flags ||| q.flags⟩

/-- An internal f32 value converted to an integer format (R94, R153). -/
def toInt (code mode : Nat) (v : Val) : FRes :=
  match v with
  | .nan => ⟨0, FNV⟩
  | .inf neg => ⟨intBits code (if neg then intMin code else intMax code), FNV⟩
  | .num s m e =>
    let n := roundIntNum mode s m e
    let r := satInt code n
    ⟨intBits code r, flagIf (decide (r ≠ n)) FNV |||
      flagIf (decide (r = n) && !eqVal (ofInt n 0) (.num s m e)) FNX⟩

/-- `cvt` on one element (R153). -/
def cvt (dest src mode : Nat) (sat : Bool) (b : Nat) : FRes :=
  let v := toInternal src mode b
  let r := if dest < 8 then toInt dest mode (val f32 v.bits)
    else if dest = 10 then satIf f32 sat ⟨v.bits, 0⟩
    else satIf (fmtOf dest) sat (roundTo (fmtOf dest) mode (val f32 v.bits))
  ⟨r.bits, r.flags ||| v.flags⟩

/-- The zero point of a q8 (code 11) or q4 (code 12) element. -/
def qzero (code z : Nat) : Nat := if code = 11 then z % 256 else z % 16

/-- The number of bits of a code. -/
def qbits (code : Nat) : Nat := if code = 11 then 8 else 4

/-- qdiff(q, z) of R86. -/
def qdiff (code q z : Nat) : Int := ((q % 2 ^ qbits code : Nat) : Int) - ((qzero code z : Nat) : Int)

/-- `quant` on one element (R155). R155 gives q = z with FNV for rs = ±0 and v = ±∞; the model gives the same for v = ±0
and rs = ±∞, which it does not name. DEDUCED, log entry 46. -/
def quant (dest src mode : Nat) (a rs z : Nat) : FRes :=
  let v := toInternal src mode a
  let zp := qzero dest z
  let top : Int := 2 ^ qbits dest - 1
  let sn := v.flags ||| flagIf (isSNaN f32 rs) FNV
  if isNaN f32 v.bits || isNaN f32 rs then ⟨zp, sn ||| FNV⟩
  else
    let p := mulVal (val f32 v.bits) (val f32 rs)
    match (sumVals 0 [p.1, ofInt (zp : Int) 0]).1 with
    | .nan => ⟨zp, sn ||| FNV⟩
    | .inf neg => ⟨if neg then 0 else top.toNat, sn ||| FNV⟩
    | .num s m e =>
      let n := roundIntNum mode s m e
      let q := if n < 0 then 0 else if top < n then top else n
      ⟨q.toNat, sn ||| (if q ≠ n then FNV else flagIf (!eqVal (ofInt n 0) (.num s m e)) FNX)⟩

/-- `dequant` on one element (R155). -/
def dequant (dest src mode : Nat) (sat : Bool) (code scale z : Nat) : FRes :=
  let s := scale % 2 ^ 16
  let p := mulVal (val f16 s) (ofInt (qdiff src code z) 0)
  let r := satIf (fmtOf dest) sat (roundTo (fmtOf dest) mode p.1)
  ⟨r.bits, r.flags ||| flagIf (isNaN f16 s || p.2) FNV⟩

/-! ### The matrix window sum (R96 to R98) -/

/-- ftz: a subnormal becomes a zero of its sign (R93, R92). -/
def ftz (f : FFmt) (b : Nat) : Nat :=
  if field b (f.prec - 1) (f.width - f.prec) = 0 then b2n (bit b (f.width - 1)) * 2 ^ (f.width - 1) else b

/-- Is a term a non-zero number? -/
def nonzero : Val → Bool
  | .num _ m _ => m != 0
  | _ => false

/-- floor(log2 |t|) of a non-zero number. -/
def log2Of : Val → Int
  | .num _ m e => e + (m.log2 : Int)
  | _ => 0

/-- align40(t, emax), in units of 2^(emax - 39). -/
def align40 (emax : Int) : Val → Int
  | .num s m e =>
    let k := e + 39 - emax
    let v : Nat := if 0 ≤ k then m * 2 ^ k.toNat else m / 2 ^ (-k).toNat
    if s then -(v : Int) else (v : Int)
  | _ => 0

/-- mma_sum of R97. -/
def mmaSum (ts : List Val) : Nat :=
  if ts.contains .nan || (ts.contains (.inf true) && ts.contains (.inf false)) then 0x7FC00000
  else if ts.contains (.inf false) then f32.infBits false
  else if ts.contains (.inf true) then f32.infBits true
  else
    match ts.filter nonzero with
    | [] => if ts.all signOf && !ts.isEmpty then 0x80000000 else 0
    | t :: rest =>
      let emax := rest.foldl (fun m u => max m (log2Of u)) (log2Of t)
      let s := (t :: rest).foldl (fun acc u => acc + align40 emax u) 0
      if s = 0 then 0 else ftz f32 (rne (ofInt s (emax - 39)))

/-- sat40 of R93. -/
def sat40 (n : Int) : Int := if n < -(2 ^ 39) then -(2 ^ 39) else if 2 ^ 39 - 1 < n then 2 ^ 39 - 1 else n

/-- The accumulator term val(ftz(c), f32) (R96). -/
def accTerm (c : Nat) : Val := val f32 (ftz f32 c)

end Sys2Proof.Num
end

