-- ==== Sys2Proof/Machine/Alu.lean ====
section
/-! DEFINITION. What the integer, logic and floating-point instructions compute from their operands, without any
state (06 R114 to R126, 07 R141 to R156). Operands and results are register bits as natural numbers. -/

namespace Sys2Proof.Alu

open Sys2Proof.Bits
open Sys2Proof.Num

/-! ### Class 0x2 (R114 to R118) -/

/-- An exact result saturated or wrapped into its format and extended (R80, R81, R115). -/
def intResult (fmt : Nat) (sat : Bool) (x : Int) : Nat := intBits fmt (if sat then satInt fmt x else x)

/-- `add` and `addi`. -/
def add (fmt : Nat) (sat : Bool) (a b : Nat) : Nat := intResult fmt sat (intVal fmt a + intVal fmt b)

/-- `sub`. -/
def sub (fmt : Nat) (sat : Bool) (a b : Nat) : Nat := intResult fmt sat (intVal fmt a - intVal fmt b)

/-- `mul`. -/
def mul (fmt : Nat) (sat : Bool) (a b : Nat) : Nat := intResult fmt sat (intVal fmt a * intVal fmt b)

/-- `mulhi`: the high half of the product. -/
def mulhi (fmt a b : Nat) : Nat := intBits fmt (intVal fmt a * intVal fmt b / (2 ^ intWidth fmt : Nat))

/-- `mulw`: the 64-bit product of two 32-bit operands. -/
def mulw (fmt a b : Nat) : Nat := wrap 64 (intVal fmt a * intVal fmt b)

/-- `mad`. -/
def mad (fmt : Nat) (sat : Bool) (a b c : Nat) : Nat :=
  intResult fmt sat (intVal fmt a * intVal fmt b + intVal fmt c)

/-- `madw`: the 64-bit accumulator c is read in the 64-bit format of the same signedness, fmt + 1. -/
def madw (fmt a b c : Nat) : Nat := wrap 64 (intVal fmt a * intVal fmt b + intVal (fmt + 1) c)

/-- `min`. -/
def min (fmt a b : Nat) : Nat := intBits fmt (if intVal fmt a ≤ intVal fmt b then intVal fmt a else intVal fmt b)

/-- `max`. -/
def max (fmt a b : Nat) : Nat := intBits fmt (if intVal fmt a ≤ intVal fmt b then intVal fmt b else intVal fmt a)

/-- `clamp`: min(max(a, b), c). -/
def clamp (fmt a b c : Nat) : Nat :=
  let m := if intVal fmt a ≤ intVal fmt b then intVal fmt b else intVal fmt a
  intBits fmt (if m ≤ intVal fmt c then m else intVal fmt c)

/-- `abs`. -/
def abs (fmt : Nat) (sat : Bool) (a : Nat) : Nat := intResult fmt sat ((intVal fmt a).natAbs : Int)

/-- `sad`. -/
def sad (fmt : Nat) (sat : Bool) (a b c : Nat) : Nat :=
  intResult fmt sat (((intVal fmt a - intVal fmt b).natAbs : Int) + intVal fmt c)

/-- The dot product of `n` elements of format `fmt` plus a 32-bit accumulator: `dot4` and `dot2`. -/
def dot (n fmt : Nat) (sat : Bool) (a b c : Nat) : Nat :=
  let w := intWidth fmt
  let s := (upto n).foldl (fun acc j => acc + intVal fmt (a >>> (w * j)) * intVal fmt (b >>> (w * j))) (0 : Int)
  let wide := if intSigned fmt then 2 else 6
  intResult wide sat (s + intVal wide c)

/-- The sum and the carry out of `addc` (R116). -/
def addc (fmt a b : Nat) (cin : Bool) : Nat × Bool :=
  let w := intWidth fmt
  let x := a % 2 ^ w + b % 2 ^ w + b2n cin
  (x % 2 ^ w, decide (2 ^ w ≤ x))

/-- The difference and the borrow out of `subb` (R116). -/
def subb (fmt a b : Nat) (bin : Bool) : Nat × Bool :=
  let w := intWidth fmt
  let x : Int := ((a % 2 ^ w : Nat) : Int) - ((b % 2 ^ w : Nat) : Int) - (b2n bin : Int)
  (wrap w x, decide (x < 0))

/-- Is the divisor zero (R82)? -/
def divByZero (fmt b : Nat) : Bool := intVal fmt b == 0

/-- The quotient of `div` (R82). -/
def quot (fmt a b : Nat) : Nat :=
  if divByZero fmt b then 0 else intBits fmt ((intVal fmt a).tdiv (intVal fmt b))

/-- The remainder of `rem` (R82). -/
def remd (fmt a b : Nat) : Nat :=
  if divByZero fmt b then intBits fmt (intVal fmt a) else intBits fmt ((intVal fmt a).tmod (intVal fmt b))

/-- `lea`: the index is sign-extended for i32 and zero-extended for n32 (R118). -/
def lea (fmt a b s : Nat) : Nat := wrap 64 ((a : Int) + intVal fmt b * (2 ^ s : Nat))

/-- `leai` (R118). -/
def leai (a imm : Nat) : Nat := wrap 64 ((a : Int) + sext 32 imm)

/-- The immediate of `addi` and `setpi`: its low bits for widths up to 32, else extended by the format. -/
def immVal (fmt imm : Nat) : Nat :=
  if intWidth fmt ≤ 32 then imm else if intSigned fmt then wrap 64 (sext 32 imm) else imm

/-! ### Class 0x3 (R119 to R123) -/

/-- `tern` on w bits: the function byte indexed by the bits of a, b and c (R120). -/
def tern (w fn a b c : Nat) : Nat :=
  ofBitFn w (fun i => fn.testBit (b2n (a.testBit i) + 2 * b2n (b.testBit i) + 4 * b2n (c.testBit i)))

/-- `bini` on w bits (R120). -/
def bini (w fn a m : Nat) : Nat :=
  ofBitFn w (fun i => fn.testBit (b2n (a.testBit i) + 2 * b2n (m.testBit i)))

/-- `not`. -/
def not (w a : Nat) : Nat := 2 ^ w - 1 - a % 2 ^ w

/-- `shl`; a count at or above the width gives 0 (R121). -/
def shl (w a n : Nat) : Nat := if w ≤ n then 0 else (a <<< n) % 2 ^ w

/-- `shr`. -/
def shr (w a n : Nat) : Nat := if w ≤ n then 0 else (a % 2 ^ w) >>> n

/-- `sra`. -/
def sra (w a n : Nat) : Nat := wrap w (sext w a / (2 ^ (if w ≤ n then w else n) : Nat))

/-- `fsl`: bits [63:32] of the concatenation shifted left by at most 32. -/
def fsl (a b n : Nat) : Nat := (((a * 2 ^ 32 + b) <<< (if 32 ≤ n then 32 else n)) >>> 32) % 2 ^ 32

/-- `fsr`: bits [31:0] of the concatenation shifted right by at most 32. -/
def fsr (a b n : Nat) : Nat := ((a * 2 ^ 32 + b) >>> (if 32 ≤ n then 32 else n)) % 2 ^ 32

/-- `clz`: w for zero. -/
def clz (w a : Nat) : Nat := let x := a % 2 ^ w; if x = 0 then w else w - 1 - x.log2

/-- `brev`. -/
def brev (w a : Nat) : Nat := ofBitFn w (fun i => a.testBit (w - 1 - i))

/-- `bfx` (R122). -/
def bfx (fmt a ctl : Nat) : Nat :=
  let w := intWidth fmt
  let pos := field ctl 0 8
  let len := if w < field ctl 8 8 then w else field ctl 8 8
  let sign := intSigned fmt
  let fld := ofBitFn len (fun j => if pos + j < w then a.testBit (pos + j) else sign && a.testBit (w - 1))
  if len = 0 then 0 else if sign then wrap w (sext len fld) else fld

/-- `bfi` (R122). -/
def bfi (w a ctl c : Nat) : Nat :=
  let pos := field ctl 0 8
  let len := if w < field ctl 8 8 then w else field ctl 8 8
  ofBitFn w (fun i => if pos ≤ i ∧ i < pos + len then a.testBit (i - pos) else c.testBit i)

/-- `perm` (R123). -/
def perm (a b c : Nat) : Nat :=
  let pool := a % 2 ^ 32 + b % 2 ^ 32 * 2 ^ 32
  (upto 4).foldl (fun acc i =>
    let nib := field c (4 * i) 4
    let e := field pool (8 * (nib % 8)) 8
    let r := if nib.testBit 3 then (if e.testBit 7 then 0xFF else 0) else e
    acc + r * 2 ^ (8 * i)) 0

/-! ### Compares (R109, R124) -/

/-- The compare codes 0 to 5 on integers. -/
def cmpInt (cc : Nat) (a b : Int) : Bool :=
  match cc with
  | 0 => a == b
  | 1 => a != b
  | 2 => decide (a < b)
  | 3 => decide (a ≤ b)
  | 4 => decide (b < a)
  | _ => decide (b ≤ a)

/-- `setp` and `setpi`. -/
def setp (fmt cc a b : Nat) : Bool := cmpInt cc (intVal fmt a) (intVal fmt b)

/-- The compare codes 0 to 5 on values that are not NaN. -/
def cmpVal (cc : Nat) (a b : Val) : Bool :=
  match cc with
  | 0 => eqVal a b
  | 1 => !eqVal a b
  | 2 => ltVal a b
  | 3 => !ltVal b a
  | 4 => ltVal b a
  | _ => !ltVal a b

/-- `fsetp`: the predicate and the flags (R124). -/
def fsetp (code cc a b : Nat) : Bool × Nat :=
  let f := fmtOf code
  let a := a % 2 ^ f.width
  let b := b % 2 ^ f.width
  let nan := isNaN f a || isNaN f b
  let r := if cc = 6 then !nan
    else if cc = 14 then nan
    else if cc < 6 then !nan && cmpVal cc (val f a) (val f b)
    else nan || cmpVal (cc - 8) (val f a) (val f b)
  (r, flagIf (isSNaN f a || isSNaN f b) FNV)

/-! ### Class 0x5 (R142 to R146) -/

/-- `fadd`. -/
def fadd (f : FFmt) (mode : Nat) (a b : Nat) : FRes :=
  fusedSum f mode [] [val f a, val f b] (isSNaN f a || isSNaN f b)

/-- `fsub`: the sign of b is inverted first (R143). -/
def fsub (f : FFmt) (mode : Nat) (a b : Nat) : FRes :=
  fusedSum f mode [] [val f a, negVal (val f b)] (isSNaN f a || isSNaN f b)

/-- `fmul`. -/
def fmul (f : FFmt) (mode : Nat) (a b : Nat) : FRes :=
  let p := mulVal (val f a) (val f b)
  let r := roundTo f mode p.1
  ⟨r.bits, r.flags ||| flagIf (isSNaN f a || isSNaN f b || p.2) FNV⟩

/-- `fma`. -/
def fma (f : FFmt) (mode : Nat) (a b c : Nat) : FRes :=
  fusedSum f mode [(val f a, val f b)] [val f c] (isSNaN f a || isSNaN f b || isSNaN f c)

/-- The format of a packed type, TY 1 or 2. -/
def packFmt (ty : Nat) : FFmt := if ty = 1 then f16 else bf16

/-- Element e of a packed register (R84). -/
def elem (e v : Nat) : Nat := field v (16 * e) 16

/-- A packed operation from its operation on one element; the flags of both elements are ORed (R142). -/
def packed (op : Nat → FRes) : FRes :=
  let r0 := op 0
  let r1 := op 1
  ⟨r0.bits + r1.bits * 2 ^ 16, r0.flags ||| r1.flags⟩

/-- `fdot2`: one exact sum, one rounding into f32. -/
def fdot2 (f : FFmt) (mode : Nat) (a b c : Nat) : FRes :=
  fusedSum f32 mode [(val f (elem 0 a), val f (elem 0 b)), (val f (elem 1 a), val f (elem 1 b))] [val f32 c]
    (isSNaN f (elem 0 a) || isSNaN f (elem 1 a) || isSNaN f (elem 0 b) || isSNaN f (elem 1 b) || isSNaN f32 c)

/-- a below b in the order of `fmin` and `fmax`, where -0 lies below +0 (R144). -/
def below (a b : Nat) : Bool :=
  ltVal (val f32 a) (val f32 b) || (eqVal (val f32 a) (val f32 b) && bit a 31 && !bit b 31)

/-- `fmin` and `fmax` (R144). -/
def fminmax (wantMax : Bool) (a b : Nat) : FRes :=
  let fl := flagIf (isSNaN f32 a || isSNaN f32 b) FNV
  if isNaN f32 a then (if isNaN f32 b then ⟨f32.nan, fl⟩ else ⟨b, fl⟩)
  else if isNaN f32 b then ⟨a, fl⟩
  else if below a b then ⟨if wantMax then b else a, fl⟩
  else ⟨if wantMax then a else b, fl⟩

/-- `frnd` (R145). -/
def frnd (mode a : Nat) : FRes :=
  match val f32 a with
  | .nan => nanRes a
  | .inf _ => ⟨a, 0⟩
  | .num s m e =>
    let n := (roundSig mode s m e 0).1
    ⟨(roundTo f32 0 (.num s n 0)).bits, 0⟩

/-- `fclass` (R146). -/
def fclass (a : Nat) : Nat :=
  match val f32 a with
  | .nan => if isSNaN f32 a then 1 else 2
  | .inf s => if s then 2 ^ 2 else 2 ^ 9
  | .num s m _ =>
    if m = 0 then (if s then 2 ^ 5 else 2 ^ 6)
    else if m < 2 ^ 23 then (if s then 2 ^ 4 else 2 ^ 7)
    else (if s then 2 ^ 3 else 2 ^ 8)

/-! ### Class 0x6 (R154, R156) -/

/-- `pack`: two internal f32 values, each rounded once. -/
def pack (dest mode : Nat) (sat : Bool) (a b : Nat) : FRes :=
  let r0 := cvt dest 10 mode sat a
  let r1 := cvt dest 10 mode sat b
  ⟨r0.bits + r1.bits * 2 ^ 16, r0.flags ||| r1.flags⟩

/-- `unpack`, one element. -/
def unpack (src : Nat) (sat : Bool) (e a : Nat) : FRes := satIf f32 sat (toF32 (fmtOf src) (elem e a))

/-- `pack4` (R156). -/
def pack4 (a b : Nat) : Nat :=
  (upto 4).foldl (fun acc j => acc + field a (8 * j) 4 * 2 ^ (4 * j) + field b (8 * j) 4 * 2 ^ (4 * j + 16)) 0

end Sys2Proof.Alu
end

