-- ==== Sys2Proof/Machine/Flags.lean ====
section
/-! DEFINITION. The status registers: the bits of %lstat and %gstat, what a read composes and what a write stores
(01 R19, R20), and results that carry floating-point flags (07 R138, R139). -/

namespace Sys2Proof.Machine

open Sys2Proof.Bits
open Sys2Proof.Num

namespace Ops

/-! ### Bits of %lstat (R19) -/

def lsPoison : Nat := 1
def lsFaulted : Nat := 2
def lsDivz : Nat := 4
def lsDeriv : Nat := 8
def lsNeval : Nat := 16
def lsLive : Nat := 0x8000

/-- The bits of %lstat that software stores: [12:8] and [4:0]. -/
def lstatMask : Nat := 0x1F1F

/-- A write to %lstat keeps LIVE and every reserved bit. -/
def lstatStore (old x : Nat) : Nat := (old - (old &&& lstatMask)) ||| (x &&& lstatMask)

/-! ### Bits of %gstat (R20) -/

def gsOverflow : Nat := 2 ^ 16
def gsIndex : Nat := 2 ^ 17
def gsLate : Nat := 2 ^ 18

/-- %gstat as read: the sticky bits, the number of join entries in use (08 R172) and the live lanes. -/
def gstatOf (g : Group) : Nat := g.gstat + g.joins.length * 2 ^ 8 + liveMask g

/-- A write to %gstat stores bits [18:16]. -/
def gstatStore (x : Nat) : Nat := x &&& 0x70000

/-- Set sticky bits of %gstat. -/
def orGstat (s : State) (key bits : Nat) : State := modGroup s key (fun g => { g with gstat := g.gstat ||| bits })

/-- Set sticky bits of %lstat at once, outside any window. -/
def orLanes (s : State) (key : Nat) (lanes : List Nat) (bits : Nat) : State :=
  modGroup s key (fun g => lanes.foldl (fun g l => orLstat g (l, bits)) g)

/-! ### Results with flags -/

/-- One result per lane, with the flags of the lane's own computation. -/
def doneF (c : Ctx) (d : BitVec 9) (f : Nat → FRes) : Res :=
  .done c.s (wrLanes c d 1 (fun l => (f l).bits)) (flagLanes c (fun l => (f l).flags))

/-- One result per lane without flags. -/
def doneN (c : Ctx) (d : BitVec 9) (n : Nat) (f : Nat → Nat) : Res := .done c.s (wrLanes c d n f) []

/-- Two results per lane without flags. -/
def doneN2 (c : Ctx) (d e : BitVec 9) (n : Nat) (f g : Nat → Nat) : Res :=
  .done c.s (wrLanes c d n f ++ wrLanes c e n g) []

end Ops

end Sys2Proof.Machine
end

