-- ==== Sys2Proof/Machine/Memory.lean ====
section
/-! DEFINITION. Memory as a lane meets it: holders and leased copies (11 R215 to R217), pending stores and their perform
at the home (R211, R214), releases (R219), stamped lines (24 R422 to R424), and the address checks of 12 R234. -/

namespace Sys2Proof.Machine

open Sys2Proof.Bits

namespace Ops

/-! ### Formats (12 R237, R239) -/

/-- Bytes of an access of a format code. -/
def fmtBytes (f : Nat) : Nat :=
  if f = 0 ∨ f = 4 then 1 else if f = 1 ∨ f = 5 ∨ f = 8 ∨ f = 9 then 2 else if f = 3 ∨ f = 7 then 8 else 4

/-- Registers of an access of a format code. -/
def fmtRegs (f : Nat) : Nat := if f = 3 ∨ f = 7 then 2 else 1

/-! ### Holders and copies -/

/-- Lay the bytes at `pa` over the bytes read from `at_` upward. -/
def overlay (at_ : Nat) (bs : List Byte) (pa : Nat) (new : List Byte) : List Byte :=
  bs.mapIdx (fun i b => if pa ≤ at_ + i ∧ at_ + i < pa + new.length then new.getD (at_ + i - pa) b else b)

/-- The cluster and the die of a core. -/
def clusterOf (core : Nat) : Nat := core / 8
def dieOf (core : Nat) : Nat := core / 64

/-- The holder that is a die's L2. -/
def l2Holder (d : Nat) : Nat := 64 + d

/-- The copy of a line that a holder has. -/
def copyOf (s : State) (holder line : Nat) : Option LineCopy :=
  s.copies.find? (fun c => c.holder == holder && c.line == line)

/-- The lease of a copy holds: its die's L has not reached its expiry (R215). -/
def leased (s : State) (c : LineCopy) : Bool :=
  decide ((die s (if c.holder < 64 then c.holder / 8 else c.holder - 64)).l < c.expiry)

/-- A holder still has a copy while its lease holds or it is dirty (R215, R216). -/
def usable (s : State) (c : LineCopy) : Bool := !c.dirty.isEmpty || leased s c

/-- Lay over bytes of a copy's line those of its forwards after a store that are not yet performed. -/
def forwardsAfter (s : State) (id : Nat) (c : LineCopy) (bs : List Byte) : List Byte :=
  s.stores.foldl (fun acc (p : PStore) =>
    if decide (id < p.id) && c.dirty.contains p.id then overlay (c.line * 128) acc p.pa p.bytes else acc) bs

/-- A store to a range is still on its way that an agent of the core's cluster or die may already have read in a copy there (11
R216). A read at the home waits for it, so that no lane's reads go backwards (R213). DEDUCED, log entry 138. -/
def ahead (s : State) (core pa n : Nat) : Bool :=
  s.copies.any (fun c => (c.holder == core / 8 || c.holder == 64 + core / 64) && s.stores.any (fun p =>
    p.scratch.isNone && c.dirty.contains p.id && meets p.pa p.bytes.length pa n))

/-- The bytes that a holder reads in its copy: after the expiry, only those of the forwards are its own, and the rest come
from below it (R216, R218). DEDUCED, log entry 137. -/
def copyBytes (s : State) (c : LineCopy) (below : List Byte) : List Byte :=
  if leased s c then c.bytes else forwardsAfter s 0 c below

/-- A usable copy of a holder. DEDUCED, log entry 28. -/
def usableCopy (s : State) (holder line : Nat) : Option LineCopy :=
  match copyOf s holder line with
  | some c => if usable s c then some c else none
  | none => none

/-- Give a holder a copy, in place of any it has. DESIGN CHOICE, log entries 7, 127. -/
def putCopy (s : State) (c : LineCopy) : State :=
  { s with copies := c :: s.copies.filter (fun x => !(x.holder == c.holder && x.line == c.line)) }

/-- Drop a holder's clean copy of a line. -/
def dropClean (s : State) (holder line : Nat) : State :=
  { s with copies := s.copies.filter (fun x => !(x.holder == holder && x.line == line && x.dirty.isEmpty)) }

/-- Is some bank of the cluster in cache mode (10 R195)? -/
def hasCache (s : State) (cl : Nat) : Bool := (upto 32).any (fun b => (bank (cluster s cl) b).mode == 0)

/-- Lease length granted by homes on a die (R215). -/
def leaseTicks (s : State) (d : Nat) : Nat := field (ctl s (dieOff d + 0x110)) 0 20

/-- The cache class CC of a leaf (21 R391). -/
def ccOf (leaf : Nat) : Nat := field leaf 57 2

/-! ### Stamped lines (24 R422 to R424) -/

/-- A place in the order of versions: stamp, die, order of issue on the die, lane (R422). -/
def verBefore (a b : Nat × Nat × Nat × Nat) : Bool :=
  decide (a.1 < b.1) || (a.1 == b.1 && (decide (a.2.1 < b.2.1) || (a.2.1 == b.2.1 &&
    (decide (a.2.2.1 < b.2.2.1) || (a.2.2.1 == b.2.2.1 && decide (a.2.2.2 < b.2.2.2))))))

/-- The place of a version, and of the version that wrote a word of its line last. -/
def verKey (v : Version) : Nat × Nat × Nat × Nat := (v.stamp, v.die, v.order, v.lane)
def wordKey (v : Version) (word : Nat) : Nat × Nat × Nat × Nat := (v.stamps.getD word 0, v.writers.getD word (0, 0, 0))

/-- The line of version `v` with the word that version `x` writes. -/
def verWrite (v x : Version) (bs : List Byte) : Version :=
  { v with bytes := overlay 0 v.bytes (8 * x.word) bs, stamps := v.stamps.set x.word x.stamp,
           writers := v.writers.set x.word (x.die, x.order, x.lane) }

/-- A later version takes the word, unless it has one of a writer after `x`. -/
def verLater (x : Version) (bs : List Byte) (v : Version) : Version :=
  if verBefore (wordKey v x.word) (verKey x) then verWrite v x bs else v

/-- Insert a version in its place; it inherits the line of `prev`, the version before it. DEDUCED, log entry 19. -/
def verInsert (x : Version) (bs : List Byte) (prev : Version) : List Version → List Version
  | [] => [verWrite { x with bytes := prev.bytes, stamps := prev.stamps, writers := prev.writers } x bs]
  | v :: vs =>
    if v.word != 16 && verBefore (verKey x) (verKey v) then
      verWrite { x with bytes := prev.bytes, stamps := prev.stamps, writers := prev.writers } x bs ::
        (v :: vs).map (verLater x bs)
    else v :: verInsert x bs v vs

/-- The version that a lane of a `stcm` makes, but for its contents. -/
def laneVersion (l : StcmLane) : Version :=
  { stamp := l.stamp, die := l.die, order := l.order, lane := l.lane, word := l.pa % 128 / 8 }

/-- The versions of a line with that of a recorded lane: none while a fifth would be kept and no version but the oldest is
visible (R423). -/
def versionsWith (s : State) (home line : Nat) (l : StcmLane) : Option (List Version) :=
  let vs := versionsOf s line
  let five := verInsert (laneVersion l) l.bytes ((vs.head?).getD (version0 s line)) vs
  if five.length ≤ 4 then some five
  else if (five.drop 1).any (visible s home line) then some (five.drop 1)
  else none

/-- A lane of `stcm` whose home cannot be reached any more: MACHINE_CHECK for the context of its group (26 R443 to R445). -/
def lostLane (s : State) (l : StcmLane) : State :=
  let s1 : State := { s with stcms := s.stcms.filter (fun y => y.id != l.id) }
  match (group? s l.group).bind (fun g => team? s g.team) with
  | none => s1
  | some tm => terminate s1 tm.ctx 0x1F

/-- Form a recorded lane's version at its home (R422, R423); the host's copy of the line goes first (11 R224). -/
def formVersion (s : State) (l : StcmLane) : State :=
  let line := l.pa / 128
  if migrating s l.pa then s
  else match homeDie s l.die l.pa with
  | none => lostLane s l
  | some home => match versionsWith s home line l with
    | none => s
    | some vs =>
      let stays := (group? s l.group).isSome
      { backInvalidateSpan s (line * 128) 128 with
        versions := Maps.insert line vs s.versions
        stcms := if stays then s.stcms.map (fun y => if y.id = l.id then { y with formed := true } else y)
          else s.stcms.filter (fun y => y.id != l.id) }

/-- Form the recorded lanes that wait, in order. -/
def formWaiting (s : State) : State :=
  (s.stcms.filter (fun l => l.recorded && !l.formed)).foldl formVersion s

/-- Lines that no page stamps any more hold their latest version as plain contents; the page's next stamping starts from
these (R422). DESIGN CHOICE, log entry 141. -/
def dropStamps (s : State) : State :=
  s.versions.foldl (fun s e =>
    if stampedPa s (e.1 * 128) then s
    else match e.2.getLast? with
      | none => { s with versions := Maps.erase e.1 s.versions }
      | some v => { writeBytes s (e.1 * 128) v.bytes with versions := Maps.erase e.1 s.versions }) s

/-! ### Reading -/

/-- Change the copies of a line range that a core's cluster and die hold: the bytes at `pa` are laid over them, under the
forwards of theirs that come after store `id`; `mark` makes them dirty with it (R216). -/
def updateCopies (s : State) (core : Nat) (id : Nat) (pa : Nat) (bs : List Byte) (mark : Bool) : State :=
  let own (c : LineCopy) : Bool :=
    meets (c.line * 128) 128 pa bs.length && (c.holder == clusterOf core || c.holder == l2Holder (dieOf core)) && usable s c
  { s with copies := s.copies.map (fun c => if own c then
      { c with bytes := forwardsAfter s id c (overlay (c.line * 128) c.bytes pa bs),
               dirty := if mark then id :: c.dirty else c.dirty } else c) }

/-- Bytes read at the home pass by the copies of the reader's cluster and die, so that no later read there goes backwards
(R213). DEDUCED, log entry 138. -/
def noteRead (s : State) (core pa : Nat) (bs : List Byte) : State := updateCopies s core 0 pa bs false

/-- What a die serves of a line that its cluster caches do not: its L2's copy, or the home with a new lease. Answers the copy that a
cluster may take, with the pending stores that the L2's shows and an expiry of 0 for none, and the copies that this leaves (11
R215, R216). -/
def serveDie (s : State) (d home pa : Nat) : LineCopy × State :=
  let line := pa / 128
  let homeBytes := readBytes s (line * 128) 128
  match (if home = d then none else usableCopy s (l2Holder d) line) with
  | some c => ({ line := line, bytes := copyBytes s c homeBytes, expiry := if leased s c then c.expiry else 0, dirty := c.dirty }, s)
  | none =>
    if leaseTicks s home = 0 || migrating s pa then ({ line := line, bytes := homeBytes }, s)
    else
      let x := (die s home).l + leaseTicks s home
      ({ line := line, bytes := homeBytes, expiry := x }, if home = d then s
        else putCopy s { holder := l2Holder d, line := line, bytes := homeBytes, expiry := x })

/-- The 128 bytes of a line as served to a core, and the copies that this leaves (10 R195, R206, 11 R215, R216).
An access that keeps no copy in the cluster cache (`l2only` is CH 2; CC 1; no bank in cache mode) drops a clean copy there and
reads a dirty one (R213). Lines of stamped pages and of host memory are never copied.
DESIGN CHOICE, log entry 7; DEDUCED, log entries 26, 28, 137. -/
def serveLine (s : State) (core home : Nat) (pa leaf : Nat) (l2only : Bool) : List Byte × State :=
  let cl := clusterOf core
  let d := dieOf core
  let line := pa / 128
  let homeBytes := readBytes s (line * 128) 128
  let keeps := !l2only && ccOf leaf == 0 && hasCache s cl
  if leaf.testBit 61 then ((latestVisible s home line).bytes, s)
  else match windowOf pa with
  | .host => (homeBytes, if s.hostLines.contains (line, d) then s else { s with hostLines := (line, d) :: s.hostLines })
  | _ =>
    if ccOf leaf = 2 then (homeBytes, noteRead s core (line * 128) homeBytes)
    else
      let s := if keeps then s else dropClean s cl line
      match usableCopy s cl line with
      | some c =>
        if leased s c then (c.bytes, s)
        else
          let b := serveDie s d home pa
          (forwardsAfter s 0 c b.1.bytes, b.2)
      | none =>
        let b := serveDie s d home pa
        (b.1.bytes, if keeps && b.1.expiry != 0 then putCopy b.2 { b.1 with holder := cl } else b.2)

/-- The pending stores that the copies serving a read of a line show already: every agent of the cluster reads them there, in
the order in which they were accepted (11 R216). -/
def shownTo (s : State) (core pa leaf : Nat) : List Nat :=
  let die := match usableCopy s (l2Holder (dieOf core)) (pa / 128) with
    | some c => if homeDie s (dieOf core) pa = some (dieOf core) then [] else c.dirty
    | none => []
  if leaf.testBit 61 || windowOf pa == .host || ccOf leaf == 2 then []
  else match usableCopy s (clusterOf core) (pa / 128) with
    | some c => if leased s c then c.dirty else c.dirty ++ die
    | none => die

/-- A lane's own store: it made it, or one of the same instruction to the same bytes that this one stands for (11 R211); a
uniform store of the group, which carries lane number 8, is every lane's own (12 R238). DEDUCED, log entry 9. -/
def ownStore (key lane : Nat) (p : PStore) : Bool :=
  p.group == key && (p.lane == lane || p.lane == 8 || p.also.testBit lane)

/-- Lay a lane's own pending stores, in program order, over the bytes read (01 R23), among those that the copies read show
already. DEDUCED, log entry 9. -/
def overlayOwn (s : State) (key lane : Nat) (scr : Option Nat) (shown : List Nat) (at_ : Nat) (bs : List Byte) : List Byte :=
  s.stores.foldl (fun acc (p : PStore) =>
    if p.scratch == scr && (ownStore key lane p || shown.contains p.id) then overlay at_ acc p.pa p.bytes else acc) bs

/-- Lay every pending store of a group over the bytes read: a uniform access is made by no lane (12 R238).
DEDUCED, log entry 9. -/
def overlayGroup (s : State) (key : Nat) (scr : Option Nat) (shown : List Nat) (at_ : Nat) (bs : List Byte) : List Byte :=
  s.stores.foldl (fun acc (p : PStore) =>
    if p.scratch == scr && (p.group == key || shown.contains p.id) then overlay at_ acc p.pa p.bytes else acc) bs

/-- Read `n` bytes of device memory for a core. -/
def loadMem (s : State) (core pa leaf n : Nat) (l2only : Bool) : List Byte × State :=
  match homeDie s (dieOf core) pa with
  | none => (List.replicate n 0, s)
  | some home =>
    let r := serveLine s core home pa leaf l2only
    ((r.1.drop (pa % 128)).take n, r.2)

/-- The sampler lines that stay when one is filled: one of them may be replaced, and one is when 128 KiB are full. Which,
the spec leaves open (10 R209). DESIGN CHOICE, log entry 127. -/
def smReplace (s : State) (xs : List (Nat × List Byte)) : List (Nat × List Byte) :=
  xs.eraseIdx (Config.freeNat s.fresh % (if xs.length < 2048 then xs.length + 1 else xs.length))

/-- Read `n` bytes through the sampler cache of a core (10 R209); a fill reads the home (11 R225: the home or a copy whose
lease holds). A stamped line is read as any load reads it and is not kept (24 R424). DESIGN CHOICE, log entry 139. -/
def loadSampler (s : State) (core pa leaf n : Nat) : List Byte × State :=
  let at_ := pa / 64 * 64
  let k := Ops.core s core
  if leaf.testBit 61 then
    let home := (homeDie s (dieOf core) pa).getD 0
    (((latestVisible s home (pa / 128)).bytes.drop (pa % 128)).take n, s)
  else match Maps.find? at_ k.smlines with
  | some bs => ((bs.drop (pa % 64)).take n, s)
  | none =>
    let bs := readBytes s at_ 64
    ((bs.drop (pa % 64)).take n,
      setCore { s with fresh := s.fresh + 1 } core { k with smlines := Maps.insert at_ bs (smReplace s k.smlines) })

/-- Read `n` bytes of a team's scratch. -/
def loadScratch (s : State) (team off n : Nat) : List Byte :=
  match team? s team with
  | some t => Maps.slice 0 off n t.scratch
  | none => List.replicate n 0

/-- Write bytes of a team's scratch. -/
def storeScratch (s : State) (team off : Nat) (bs : List Byte) : State :=
  modTeam s team (fun t => { t with scratch := Maps.putAll 0 off bs t.scratch })

/-! ### Completion times (R217) -/

/-- Does a holder serve some agent inside scope 3 to 6 of a core's agents? -/
def serves (core scope holder : Nat) : Bool :=
  if scope ≤ 3 then holder == clusterOf core || holder == l2Holder (dieOf core)
  else if scope = 4 then (if holder < 64 then holder / 8 == dieOf core else holder == l2Holder (dieOf core))
  else if scope = 5 then decide (holder < 72)
  else true

/-- CT of a scope for a store performed now. -/
def ctOf (s : State) (core home line scope : Nat) (updated : Option Nat) : Nat :=
  match (if scope ≤ 3 then updated else none) with
  | some l => l
  | none => (s.copies.filter (fun c => c.line == line && serves core scope c.holder)).foldl
      (fun m c => max m c.expiry) (die s home).l

/-- CT of a scope for a write of several lines of one home. -/
def ctSpan (s : State) (core home pa n scope : Nat) : Nat :=
  (s.copies.filter (fun c => decide (c.line * 128 < pa + n) && decide (pa < c.line * 128 + 128) && serves core scope c.holder)).foldl
    (fun m c => max m c.expiry) (die s home).l

/-- Merge completion times into a group's completion registers. -/
def mergeCr (g : Group) (ct : Nat → Nat) : Group :=
  { g with crCluster := max g.crCluster (ct 3), crDie := max g.crDie (ct 4), crDevice := max g.crDevice (ct 5),
           crSystem := max g.crSystem (ct 6) }

/-- The completion register of a scope; lane scope has none (R219). -/
def crOf (g : Group) (scope : Nat) : Option Nat :=
  if scope = 0 then none
  else if scope ≤ 3 then some g.crCluster
  else if scope = 4 then some g.crDie
  else if scope = 5 then some g.crDevice
  else some g.crSystem

/-- Return completion times: to the group, to the releases that the store precedes, and to the launch. -/
def returnCt (s : State) (key id launch : Nat) (ct : Nat → Nat) : State :=
  let s1 := modGroup s key (fun g => mergeCr g ct)
  let s2 := modLaunch s1 launch (fun l => { l with ct := max l.ct (ct 6) })
  { s2 with rels := s2.rels.map (fun r => if r.group == key && decide (id < r.id)
      then { r with ct := max r.ct (ct (max r.scope 3)) } else r) }

/-! ### Stores -/

/-- An earlier pending store of the same die, or of the same scratch, that overlaps a range. -/
def overlapping (s : State) (d : Nat) (scr : Option Nat) (pa n before : Nat) : Bool :=
  s.stores.any (fun p => decide (p.id < before) && p.scratch == scr && dieOf p.core == d &&
    meets p.pa p.bytes.length pa n)

/-- When the copy of a line that the issuer's cluster cache has is updated now, its die's L (R217). -/
def updatedNow (s : State) (core line : Nat) : Option Nat :=
  if (usableCopy s (clusterOf core) line).isSome then some (die s (dieOf core)).l else none

/-- The release of the group that holds later stores back (R222). -/
def storeGate (s : State) (key : Nat) : Option Nat :=
  ((s.rels.filter (fun r => r.group == key && r.hold != 0)).map (fun r => r.id)).getLast?

/-- Accept a store to physical memory: it updates the issuer's copies at once unless it waits for a release, and is
performed at STORE_PERFORM. CH 2 leaves no copy in the cluster cache but a dirty one (10 R206, R216). `also` names the other
lanes that it stands for. DEDUCED, log entries 8, 28. -/
def acceptStore (s : State) (key lane also core ctx launch pa : Nat) (l2 : Bool) (bs : List Byte) (after : Option Nat) : State :=
  let line := pa / 128
  let s := if l2 then dropClean s (clusterOf core) line else s
  let p : PStore := { id := s.uid, group := key, lane := lane, also := also, core := core, pa := pa, bytes := bs, after := after,
                      updated := if after.isNone then updatedNow s core line else none, l2 := l2, ctx := ctx, launch := launch }
  let s1 := { s with uid := s.uid + 1, stores := s.stores ++ [p] }
  if after.isNone then updateCopies s1 core p.id pa bs true else s1

/-- Accept a store to a team's scratch: performed at once unless it waits for a release or follows a store that does.
DEDUCED, log entry 30. -/
def acceptScratch (s : State) (key lane also core ctx launch team off : Nat) (bs : List Byte) (after : Option Nat) : State :=
  if after.isNone && !(s.stores.any (fun p => p.scratch == some team && meets p.pa p.bytes.length off bs.length)) then
    storeScratch s team off bs
  else
    let p : PStore := { id := s.uid, group := key, lane := lane, also := also, core := core, pa := off, bytes := bs, after := after,
                        scratch := some team, ctx := ctx, launch := launch }
    { s with uid := s.uid + 1, stores := s.stores ++ [p] }

/-- Write at the home, and let the copies of the writer's cluster and die hold the bytes (R216); a line of host memory is
then owned by the die (R224). A line written so is no longer stamped: its versions are forgotten. -/
def writeHome (s : State) (core id pa : Nat) (bs : List Byte) : State :=
  let s1 := updateCopies (writeBytes s pa bs) core id pa bs false
  { s1 with
    versions := s1.versions.filter (fun e => !meets (e.1 * 128) 128 pa bs.length)
    hostLines := if windowOf pa = .host ∧ !s1.hostLines.contains (pa / 128, dieOf core)
      then (pa / 128, dieOf core) :: s1.hostLines else s1.hostLines }

/-- A store's own forward is no longer pending: its copies become clean of it. -/
def cleanOf (s : State) (id : Nat) : State :=
  { s with copies := s.copies.map (fun c => { c with dirty := c.dirty.filter (fun x => x != id) }) }

/-- The host's cached copy of a line is invalidated before a store is performed (R224). -/
def backInvalidate (s : State) (pa : Nat) : State := backInvalidateSpan s pa 1

/-- Perform a store at its home. DEDUCED, log entry 8. -/
def performStore (s : State) (p : PStore) : State :=
  let s := { s with stores := s.stores.filter (fun q => q.id != p.id) }
  match p.scratch with
  | some t => storeScratch s t p.pa p.bytes
  | none =>
    match homeDie s (dieOf p.core) p.pa with
    | none => terminate (dropForwards s [p.id]) p.ctx 0x1F
    | some home =>
      let upd := p.updated.or (updatedNow s p.core (p.pa / 128))
      let ct (scope : Nat) := ctOf s p.core home (p.pa / 128) scope upd
      let s := cleanOf (writeHome (backInvalidate s p.pa) p.core p.id p.pa p.bytes) p.id
      let s := if p.l2 then dropClean s (clusterOf p.core) (p.pa / 128) else s
      kickBanks (returnCt s p.group p.id p.launch ct) (clusterOf p.core)

/-- May a store be performed now? Its release has completed, no overlapping store of its die precedes it, and its page does
not migrate. -/
def mayPerform (s : State) (p : PStore) : Bool :=
  (match p.after with | some r => s.rels.all (fun x => x.id != r) | none => true) &&
    !overlapping s (dieOf p.core) p.scratch p.pa p.bytes.length p.id && !(p.scratch.isNone && migrating s p.pa)

/-! ### Releases (R219) -/

/-- Begin a release of a group; answers its number. -/
def beginRelease (s : State) (c : Ctx) (scope hold : Nat) : Nat × State :=
  let r : Rel := { id := s.uid, group := c.key, ctx := c.tm.ctx, die := dieOf c.tm.core, scope := scope, hold := hold,
                   ct := (crOf c.g scope).getD 0 }
  (s.uid, { s with uid := s.uid + 1, rels := s.rels ++ [r] })

/-- Items 1 to 3 of R219 hold for a release. Loads bind at issue, but for those that have begun before it and are not complete; an
acquire fence waits for these alone (R220, R222).
DESIGN CHOICE, log entry 6; DEDUCED, log entry 151. -/
def releaseHolds (s : State) (r : Rel) : Bool :=
  !accessBefore s r.group r.id && (r.acq || s.stores.all (fun p => !(p.group == r.group && decide (p.id < r.id))) &&
    s.stcms.all (fun l => !(l.group == r.group && decide (l.id < r.id))) &&
    s.rels.all (fun x => !(x.group == r.group && x.hold != 0 && decide (x.id < r.id))) &&
    (r.scope == 0 || passed s r.die (max r.ct (match group? s r.group with
      | some g => (crOf g r.scope).getD 0
      | none => 0))))

/-- A release has completed. -/
def released (s : State) (id : Nat) : Bool := s.rels.all (fun r => r.id != id)

/-! ### Address checks (12 R234) -/

/-- What an instruction accepts and needs: spaces, permissions, the access bits of a record, whether a stamped page is
allowed and whether the control region is reached. -/
structure Needs where
  spaces : List Nat
  rd : Nat := 0
  wr : Nat := 0
  access : Nat := 1
  stamped : Bool := true
  ctrl : Bool := true
  deriving DecidableEq, Repr, Inhabited

/-- The effective address of a lane (02 R56): 64 bits for SPACE 0 and 4, 32 bits for the others. -/
def effAddr (c : Ctx) (o : OpM) (lane : Nat) : Nat :=
  let idx : Int := if o.ix then sext 32 (rd c o.index lane) * (2 ^ o.scale.toNat : Nat) else 0
  let off : Int := sext 24 o.offset.toNat
  if o.space == 0 || o.space == 4 then wrap 64 ((rdPair c o.base lane : Int) + idx + off)
  else wrap 32 ((rd c o.base lane : Int) + idx + off)

/-- The base and index operands. -/
def addrOpnds (o : OpM) : List Opnd :=
  [if o.space == 0 || o.space == 4 then srcP o.base else src o.base] ++ if o.ix then [src o.index] else []

/-- The team whose scratch SPACE 1 or 2 reaches (08 R167). -/
def scratchTeam (c : Ctx) (space member : Nat) : Option Nat :=
  if space = 1 then some c.g.team
  else if c.tm.cor ≤ member then none
  else if c.tm.index % c.tm.cor = member then some c.g.team
  else (c.s.teams.find? (fun (e : Nat × Team) =>
    e.2.launch == c.tm.launch && e.2.index == c.tm.index / c.tm.cor * c.tm.cor + member)).map Prod.fst

/-- The accesses that fail a test, as a mask of their lanes. -/
def failing (as : List Acc) (p : Acc → Bool) : Nat := maskOf ((as.filter (fun a => !p a)).map (fun a => a.lane))

/-- The address of the first access that fails a test: that of the lowest failing lane (21 R385). -/
def failAddr (as : List Acc) (p : Acc → Bool) : Nat := ((as.find? (fun a => !p a)).map (fun a => a.ea)).getD 0

/-- Translate one access of a lane, remembering a success in its last-page register and the TLB (21 R393). -/
def translateLane (c : Ctx) (s : State) (nd : Needs) (a : Acc) : Tr × State :=
  let last := match group? s c.key with | some g => Maps.find? a.lane g.last | none => none
  match translate s c.tm.ctx (dieOf c.tm.core) last (Ops.core s c.tm.core).tlb a.ea nd.rd nd.wr 0 false with
  | .ok pa leaf base size =>
    if windowOf pa = .control ∧ !nd.ctrl then (.malformed size, s)
    else if windowOf pa ≠ .control ∧ (homeDie s (dieOf c.tm.core) pa).isNone then (.broken, s)
    else
      let x : Xlat := { base := base, size := size, leaf := leaf }
      (.ok pa leaf base size, modGroup (noteTlb s c.tm.core c.tm.ctx base size leaf) c.key
        (fun g => { g with last := Maps.insert a.lane x g.last }))
  | t => (t, s)

/-- Translate every access in order. -/
def translateAll (c : Ctx) (nd : Needs) : List Acc → State → List (Acc × Tr) × State
  | [], s => ([], s)
  | a :: as, s =>
    let r := translateLane c s nd a
    let rest := translateAll c nd as r.2
    ((a, r.1) :: rest.1, rest.2)

/-- Is the outcome of a translation one that parks? Answers its cause and the size of the page. -/
def parkCause : Tr → Option (Nat × Nat)
  | .absent fpol size => if fpol = 0 then some (0x10, size) else none
  | .malformed size => some (0x11, size)
  | _ => none

/-- One record per faulting page, in order of the first lane that faults on it (21 R397).
DEDUCED, log entries 22, 124. -/
def pageFaults (access : Nat) : List (Acc × Tr) → List ((Nat × Nat) × PageFault) → List PageFault
  | [], acc => (acc.map Prod.snd).reverse
  | (a, t) :: rest, acc =>
    match parkCause t with
    | none => pageFaults access rest acc
    | some (cause, size) =>
      let page := (a.ea / 2 ^ size, size)
      if acc.any (fun e => e.1 == page) then
        pageFaults access rest (acc.map (fun e => if e.1 == page then (e.1, { e.2 with
          lanes := e.2.lanes ||| 2 ^ a.lane }) else e))
      else pageFaults access rest ((page, { addr := a.ea, lanes := 2 ^ a.lane, cause := cause, access := access }) :: acc)

/-- The lanes whose translation satisfies a test. -/
def lanesWhere (ts : List (Acc × Tr)) (p : Tr → Bool) : Nat := maskOf ((ts.filter (fun e => p e.2)).map (fun e => e.1.lane))

/-- The translation fails and its page's policy has no substitute. -/
def trFails (t : Tr) : Bool := t == .denied || t == .broken || (match t with | .absent 3 _ => true | _ => false) || (parkCause t).isSome

/-- Check 5 after every access has been translated: the first failure in ascending lane order decides; then a stamped page
under an instruction that does not accept it; accesses to a stamped page wait while it migrates (24 R425).
DEDUCED, log entry 22. -/
def judge (s : State) (nd : Needs) (ts : List (Acc × Tr)) : Option Res :=
  match ts.find? (fun e => trFails e.2) with
  | some (a, .denied) =>
    some (.trap { code := 0x06, cause := 0x01, lanes := lanesWhere ts (fun t => t == .denied), info := a.ea } s)
  | some (_, .broken) => some (.kill 0x1F s)
  | some (_, .absent 3 _) => some (.kill 0x06 s)
  | some _ => some (.park s (pageFaults nd.access ts []))
  | none =>
  if ts.any (fun e => e.2 == .undecided) then some (.wait s)
  else
    let st := lanesWhere ts (fun t => match t with | .ok _ leaf _ _ => leaf.testBit 61 | _ => false)
    if !nd.stamped && st ≠ 0 then some (.trap (trapOf 0x0F st) s)
    else if ts.any (fun e => match e.2 with | .ok pa leaf _ _ => leaf.testBit 61 && migrating s pa | _ => false) then some (.wait s)
    else none

/-- The place of a translated access. -/
def placeOf : Tr → Place
  | .ok pa leaf _ _ => if windowOf pa = .control then .ctrl (pa % 2 ^ 40) else .mem pa leaf
  | .absent fpol _ => if fpol = 1 then .zero else .poison
  | _ => .zero

/-- The bank number of a FIFO access, when its offset names a FIFO-mode bank (10 R201). -/
def fifoBank (s : State) (core off : Nat) : Bool :=
  decide (off < 32) && (bank (cluster s (clusterOf core)) off).mode == 2 && !(bank (cluster s (clusterOf core)) off).failed

/-- Orders 3 and 4 of R234 for accesses of the global space: canonical addresses, then alignment (01 R21, R22). -/
def addrFault (s : State) (as : List Acc) : Option Res :=
  let bad := failing as (fun a => canonical a.ea)
  let odd := failing as (fun a => a.ea % a.n == 0)
  if bad ≠ 0 then some (.trap { code := 0x06, cause := 0x00, lanes := bad, info := failAddr as (fun a => canonical a.ea) } s)
  else if odd ≠ 0 then some (.trap (trapOf 0x03 odd) s)
  else none

/-- All checks of R234 for a list of accesses in one space; answers the place of each. -/
def resolve (c : Ctx) (s : State) (space member : Nat) (nd : Needs) (as : List Acc) :
    Except Res (List (Acc × Place) × State) :=
  if !nd.spaces.contains space then .error (.trap (trapOf 0x03 c.active) s)
  else if space = 0 ∨ space = 4 then
    match addrFault s as with
    | some e => .error e
    | none =>
      let r := translateAll c nd as s
      match judge r.2 nd r.1 with
      | some e => .error e
      | none => .ok (r.1.map (fun e => (e.1, placeOf e.2)), r.2)
  else if space = 3 then
    let bad := failing as (fun a => fifoBank s c.tm.core a.ea)
    if bad ≠ 0 then .error (.trap (trapOf 0x03 bad) s) else .ok (as.map (fun a => (a, .fifo a.ea)), s)
  else
    let odd := failing as (fun a => a.ea % a.n == 0)
    if odd ≠ 0 then .error (.trap (trapOf 0x03 odd) s)
    else match scratchTeam c space member with
      | none => .error (.trap (trapOf 0x03 c.active) s)
      | some t =>
        let limit := ((team? s t).map (fun t => t.hdr.scratch)).getD 0
        let bad := failing as (fun a => decide (a.ea + a.n ≤ limit))
        if bad ≠ 0 then .error (.trap (trapOf 0x03 bad) s) else .ok (as.map (fun a => (a, .scr t a.ea)), s)

/-- A read of `n` bytes at a translated place waits: its stamped page migrates (24 R425), or it is read at its home, as CC = 2
asks, while a store that agents near the reader may have read is on its way there (11 R213). -/
def readWaits (s : State) (core pa leaf n : Nat) : Bool :=
  if leaf.testBit 61 then migrating s pa else ccOf leaf == 2 && ahead s core pa n

/-- The translation succeeds. -/
def trOk : Tr → Bool
  | .ok _ _ _ _ => true
  | _ => false

/-- What issue-time translations of several pages do to their instruction: the first that fails decides, and a park writes one record
for each faulting page (21 R397). DEDUCED, log entry 59. -/
def issueFails (s : State) (nd : Needs) (lanes : Nat) (ts : List (Acc × Tr)) : Option Res :=
  let trap (cause ea : Nat) : Res := .trap { code := 0x06, cause := cause, lanes := lanes, info := ea } s
  let park : Res := .park s ((pageFaults nd.access ts []).map (fun f => { f with lanes := lanes }))
  (ts.find? (fun e => !trOk e.2)).map (fun e => match e.2 with
    | .absent fpol _ => if fpol = 0 then park else if fpol = 3 then .kill 0x06 s else trap 0x02 e.1.ea
    | .malformed _ => park
    | .broken => .kill 0x1F s
    | .undecided => .wait s
    | .noncanon => trap 0x00 e.1.ea
    | _ => trap 0x01 e.1.ea)

/-- An issue-time translation of one address for the lanes of a mask (21 R397; 13 R264, R274; 16 R315; 18 R365, R368; 21
R412): no policy has a substitute here. Answers the physical address and the leaf. -/
def issueTr (c : Ctx) (s : State) (nd : Needs) (lanes ea : Nat) : Except Res (Nat × Nat × State) :=
  let a : Acc := { lane := lowLane lanes, ea := ea, n := 1 }
  if !canonical ea then .error (.trap { code := 0x06, cause := 0x00, lanes := lanes, info := ea } s)
  else
    let r := translateLane c s nd a
    match r.1 with
    | .ok pa leaf _ _ => .ok (pa, leaf, r.2)
    | t => .error ((issueFails r.2 nd lanes [(a, t)]).getD (.wait r.2))

/-- Read `n` bytes at an issue-time translation, as a load of the group (13 R264, 21 R412). -/
def issueLoad (c : Ctx) (nd : Needs) (lanes ea n : Nat) : Except Res (List Byte × State) :=
  match issueTr c c.s nd lanes ea with
  | .error r => .error r
  | .ok (pa, leaf, s) =>
    if readWaits s c.tm.core pa leaf n then .error (.wait s)
    else
      let r := loadMem s c.tm.core pa leaf n false
      .ok (overlayGroup r.2 c.key none (shownTo s c.tm.core pa leaf) pa r.1, r.2)

end Ops

end Sys2Proof.Machine
end

