-- ==== Sys2Proof/Machine/Chunks.lean ====
section
/-! DEFINITION. The fields of a copy command, its elements and its chunks (13 R255 to R260). -/

namespace Sys2Proof.Machine

open Sys2Proof.Bits
open Sys2Proof.Num

namespace Ops

/-! ### Commands (R255, R256) -/

/-- Fields of the control word. -/
def ctlRp (x : Copy) : Nat := field x.ctl 27 5
def ctlAdd (x : Copy) : Bool := x.ctl.testBit 26
def ctlHv (x : Copy) : Bool := x.ctl.testBit 25
def ctlHandle (x : Copy) : Nat := field x.ctl 19 6
def ctlMember (x : Copy) : Nat := field x.ctl 16 3
def ctlDspace (x : Copy) : Nat := field x.ctl 13 3
def ctlSspace (x : Copy) : Nat := field x.ctl 10 3
def ctlZp (x : Copy) : Nat := field x.ctl 0 8

/-- Bytes of an element, or of two q4 elements (R258). -/
def elemBytes (code : Nat) : Nat := if code = 11 ∨ code = 12 then 1 else fmtBytes code

/-- The offset of an element in its row (04 R85). -/
def elemOff (code e : Nat) : Nat := if code = 12 then e / 2 else e * elemBytes code

/-- Elements that share a destination byte. -/
def unitElems (x : Copy) : Nat := if x.dfmt = 12 then 2 else 1

/-- Bytes of a row. -/
def rowBytes (code count : Nat) : Nat := if code = 12 then count / 2 else count * elemBytes code

/-- Bytes of a row that hold some of its elements: the last one of an odd count of q4 is half a byte. -/
def rowSpan (code count : Nat) : Nat := if code = 12 then (count + 1) / 2 else count * elemBytes code

/-- The command's byte total. -/
def copyTotal (x : Copy) : Nat := x.rows * rowBytes x.dfmt x.count

/-- Does R257 read param? -/
def paramRead (x : Copy) : Bool := (Checks.isQuant x.dfmt || Checks.isQuant x.sfmt) && x.dfmt != x.sfmt

/-- The element written for an element read (R257). -/
def copyElem (x : Copy) (v : Nat) : Nat :=
  if x.dfmt = x.sfmt then v
  else if Checks.isQuant x.dfmt then (quant x.dfmt x.sfmt 0 v x.param (ctlZp x)).bits
  else if Checks.isQuant x.sfmt then (dequant x.dfmt x.sfmt 0 false v x.param (ctlZp x)).bits
  else (cvt x.dfmt x.sfmt 0 false v).bits

/-- The address or scratch offset of byte `off` of a row. -/
def rowAddr (space base stride row off : Nat) : Nat := (base + row * stride + off) % (if space = 0 then 2 ^ 64 else 2 ^ 32)

/-! ### Chunks (R260) -/

/-- The destination units of a command in loop order: (row, unit). -/
def unitsOf (x : Copy) : List (Nat × Nat) :=
  (upto x.rows).flatMap (fun r => (upto (x.count / unitElems x)).map (fun j => (r, j)))

/-- The block of a unit: 4 KiB of destination address, or 4,096 bytes of loop order for a FIFO. -/
def blockOf (x : Copy) (u : Nat × Nat) : Nat :=
  let w := elemBytes x.dfmt
  if ctlDspace x = 3 then (u.1 * rowBytes x.dfmt x.count + u.2 * w) / 4096
  else rowAddr (ctlDspace x) x.dst x.dstride u.1 (u.2 * w) / 4096

/-- The blocks of a command's chunks, in order of their first bytes. -/
def chunkBlocks (x : Copy) : List Nat := ((unitsOf x).map (blockOf x)).eraseDups

/-- The units of the next chunk. -/
def chunkUnits (x : Copy) : List (Nat × Nat) :=
  match (chunkBlocks x)[x.landed]? with
  | none => []
  | some b => (unitsOf x).filter (fun u => blockOf x u == b)

/-- Every chunk has landed. -/
def copyLanded (x : Copy) : Bool := decide ((chunkBlocks x).length ≤ x.landed)

end Ops

end Sys2Proof.Machine
end

