-- ==== Sys2Proof/Machine/Hub.lean ====
section
/-! DEFINITION. The hub's operations: translation sweeps (21 R394), replay and abandon of records (R398), pre-emption and
resume requests (R406), page migration (11 R226, R227), contexts and queues (26 R439, R440), the memory map (R437), power
states (R448) and boot (R446, R447). -/

namespace Sys2Proof.Machine

open Sys2Proof.Bits

namespace Ops

/-! ### Translation sweeps (21 R394) -/

/-- The pages of a translation and of a range meet. -/
def Xlat.meetsRange (x : Xlat) (base len : Nat) : Bool := decide (x.base < base + len) && decide (base < x.base + 2 ^ x.size)

/-- Remove a context's translations of a range from every TLB and every last-page register. -/
def sweepRange (s : State) (ctx base len : Nat) : State :=
  let ofCtx (g : Group) : Bool := match team? s g.team with | some t => t.ctx == ctx | none => false
  { s with
    cores := s.cores.map (fun (e : Nat × Core) => (e.1, { e.2 with
      tlb := e.2.tlb.filter (fun t => !(t.1 == ctx && Xlat.meetsRange t.2 base len)) }))
    groups := s.groups.map (fun (e : Nat × Group) => if ofCtx e.2 then (e.1, { e.2 with
      last := e.2.last.filter (fun t => !Xlat.meetsRange t.2 base len) }) else e) }

/-- A write of INVCTL: GO starts a sweep, or queues it behind the one that runs. The address is that of INVADDR at the
write. DEDUCED, log entry 36. -/
def writeInvctl (s : State) (value : Nat) : State :=
  if value.testBit 0 then
    setCtl { s with sweeps := s.sweeps ++ [invctlOf value 0 + 2 ^ 64 * ctl s 0x40] } 0x48 (invctlOf value 0)
  else setCtl s 0x48 (invctlOf value (b2n s.sweeps.isEmpty))

/-- The range of a sweep. DEDUCED, log entry 36. -/
def sweepOf (s : State) (x : Nat) : State :=
  let ctx := field x 48 16
  let k := field x 2 2
  if k = 3 then sweepRange s ctx 0 (2 ^ 64)
  else
    let size := if k = 0 then 16 else if k = 1 then 21 else 30
    sweepRange s ctx (field x 64 64 / 2 ^ size * 2 ^ size) (2 ^ size)

/-- Marked lines whose page is mapped no more are usable again (26 R444). -/
def unmarkLines (s : State) : State :=
  let gone := s.badPages.filter (fun l => !mappedPa s (l * 128))
  { s with badLines := s.badLines.filter (fun l => !gone.contains l), badPages := s.badPages.filter (fun l => !gone.contains l) }

/-- The physical address, the bits and the page size of the present, well-formed leaf that maps an address. -/
def leafAt (s : State) (va : Nat) : Nat → Nat → Nat → Option (Nat × Nat × Nat)
  | 0, _, _ => none
  | fuel + 1, level, node =>
    let at_ := node + 8 * (if level = 4 then field va 16 5 else field va (48 - 9 * level) 9)
    let size := if level = 4 then 16 else 48 - 9 * level
    let e := seenNat s at_ 8
    if (homeDie s 0 at_).isNone || !e.testBit 0 then none
    else if e.testBit 1 then (if 2 ≤ level ∧ leafOk e size then some (at_, e, size) else none)
    else if level = 4 ∨ !tableOk e (level + 1) then none
    else leafAt s va fuel (level + 1) (field e 8 44 * 2 ^ 8)

/-- The swap stamps of a page go with its publishable leaf (11 R229). -/
def dropSwaps (s : State) : State :=
  { s with swaps := s.swaps.filter (fun r => match Maps.find? r.ctx s.contexts with
      | none => false
      | some c => match leafAt s r.base 5 0 c.ptroot with
        | some (_, leaf, size) => leaf.testBit 60 && size == r.size
        | none => false) }

/-- The running sweep completes: DONE is set once no other is queued. -/
def sweepDone (s : State) : State :=
  match s.sweeps with
  | [] => s
  | x :: rest =>
    let s1 := dropSwaps (unmarkLines (dropStamps (sweepOf { s with sweeps := rest } x)))
    if rest.isEmpty then setCtl s1 0x48 (invctlOf (ctl s1 0x48) 1) else s1

/-! ### Replay and abandon (21 R398 to R402) -/

/-- The outstanding record of a context with a sequence number, if an agent waits for it. -/
def recNamed (s : State) (ctx seq : Nat) : Option Rec :=
  s.recs.find? (fun r => r.ctx == ctx && r.seq == some seq && r.agent != .none)

/-- Let an agent translate again and continue. One replay serves every record of the agent's current fault. -/
def continueAgent (s : State) (r : Rec) : State :=
  match r.agent with
  | .none => s
  | .group key park =>
    let s1 := modGroup s key (fun g => { g with
      parked := g.parked.map (fun q => if q.id = park then { q with go := true } else q) })
    { s1 with agenda := s1.agenda ++ [.replay key park] }
  | .fetch key => modGroup s key (fun g => { g with fetchPark := Option.none, fetchRep := r.rep + 1 })
  | .seq team => modTeam s team (fun t => { t with seq := t.seq.map (fun q => { q with
      stopped := Option.none, rep := if r.code = 0x06 then r.rep + 1 else q.rep,
      repAddr := if r.code = 0x06 then r.addr else q.repAddr }) })
  | .copy c cmd => setCluster s c { cluster s c with
      copies := (cluster s c).copies.map (fun x => if x.id = cmd then { x with parked := Option.none, rep := r.rep + 1, repAddr := r.addr } else x) }
  | .queue q => match Maps.find? q s.queues with
    | some x => setQueue s q { x with parked := Option.none, rep := r.rep + 1, repAddr := r.addr }
    | Option.none => s
  | .station k tile => setCore s k { core s k with
      ntiles := (core s k).ntiles.map (fun x => if x.tile = tile then { x with
        parked := Option.none, reps := x.faulted.foldl (fun m p => Maps.insert p (Maps.get 0 p m + 1) m) x.reps } else x) }
  | .binner k => match Maps.find? k s.sets with
    | some x => setSet s k { x with parked := Option.none, rep := r.rep + 1, repAddr := r.addr }
    | Option.none => s

/-- The agent of a record still waits for it. -/
def agentWaits (s : State) (r : Rec) : Bool :=
  match r.agent with
  | .none => false
  | .group key park => match group? s key with | some g => g.parked.any (fun q => q.id == park) | Option.none => false
  | .fetch key => match group? s key with | some g => g.fetchPark == some r.id | Option.none => false
  | .seq team => match team? s team with | some t => (match t.seq with | some q => q.stopped == some r.id | Option.none => false) | Option.none => false
  | .copy c cmd => (cluster s c).copies.any (fun x => x.id == cmd && x.parked == some r.id)
  | .queue q => match Maps.find? q s.queues with | some x => x.parked == some r.id | Option.none => false
  | .station k tile => (core s k).ntiles.any (fun x => x.tile == tile && x.parked.isSome)
  | .binner k => match Maps.find? k s.sets with | some x => x.parked.isSome | Option.none => false

/-- The records of an agent are served: those in the ring name nobody any more, and those waiting for space are only
written. DEDUCED, log entry 37. -/
def serveRecs (s : State) (a : RecAgent) : State :=
  let kept := s.recs.filter (fun r => !(r.agent == a && r.seq.isSome))
  { s with recs := kept.map (fun r => if r.agent = a then { r with agent := .none } else r) }

/-- A record that its agent no longer waits for is done with; what the agent waits for now stays (R398). -/
def dropRec (s : State) (id : Nat) : State := { s with recs := s.recs.filter (fun r => r.id != id) }

/-- A replay of a record. DEDUCED, log entries 37, 68. -/
def replayRec (s : State) (ctx seq : Nat) : State :=
  match recNamed s ctx seq with
  | none => s
  | some r => if agentWaits s r then continueAgent (serveRecs s r.agent) r else dropRec s r.id

/-- An abandoned queue copy ends, with its failure code in place of its signal if it has one (R402, 13 R269).
DEDUCED, log entry 55. -/
def failCopy (s : State) (c cmd code : Nat) : State :=
  let k := cluster s c
  let kept := k.copies.filter (fun x => !(x.id == cmd && x.signal == 0))
  setCluster s c { k with
    copies := kept.map (fun x =>
      if x.id = cmd then { x with parked := none, failCode := code, landed := x.rows * x.count } else x) }

/-- An abandon of a record. DEDUCED, log entry 55. -/
def abandonRec (s : State) (ctx seq : Nat) : State :=
  match recNamed s ctx seq with
  | none => s
  | some r =>
    if !agentWaits s r then dropRec s r.id
    else match r.agent with
      | .copy c cmd =>
        if (cluster s c).copies.any (fun x => x.id == cmd && x.queue.isSome) then failCopy (serveRecs s r.agent) c cmd 0x47
        else terminate s ctx r.code
      | _ => terminate s ctx r.code

/-- A write of REPLAY. -/
def writeReplay (s : State) (value : Nat) : State :=
  let s1 := setCtl s 0x50 (field value 48 16 * 2 ^ 48 + field value 0 34)
  let act := field value 32 2
  if act = 0 then replayRec s1 (field value 48 16) (field value 0 32)
  else if act = 1 then abandonRec s1 (field value 48 16) (field value 0 32)
  else s1

/-! ### Pre-emption and resume requests (21 R406) -/

/-- A write of PREEMPT. -/
def writePreempt (s : State) (value : Nat) : State :=
  if value.testBit 0 then
    let s1 := setCtl { s with preempts := s.preempts ++ [field value 48 16] } 0x60 (field value 48 16 * 2 ^ 48)
    settlePreempts (s.preempts.length + 1) (if s.preempts.isEmpty then stopTeams s1 (field value 48 16) else s1)
  else setCtl s 0x60 (field value 48 16 * 2 ^ 48 + 2 * b2n s.preempts.isEmpty)

/-- A write of RESUME. -/
def writeResume (s : State) (value : Nat) : State :=
  if value.testBit 0 then
    settleResumes (s.resumes.length + 1)
      (setCtl { s with resumes := s.resumes ++ [field value 48 16] } 0x68 (field value 48 16 * 2 ^ 48))
  else setCtl s 0x68 (field value 48 16 * 2 ^ 48 + 2 * b2n s.resumes.isEmpty)

/-! ### Migration (11 R226, R227) -/

/-- MIGCTL with an outcome: CTX, ERRCODE, ERR and DONE. -/
def migctlOf (ctx err done : Nat) : Nat := ctx * 2 ^ 48 + err * 16 + (if err = 0 then 0 else 8) + done * 4

/-- The new frame lies wholly in a window of the leaf's domain. -/
def sameDomain (leaf new len : Nat) : Bool :=
  windowOf new == windowOf (new + len - 1) && (match windowOf new with
    | .host => leaf.testBit 59
    | .none => false
    | _ => !leaf.testBit 59)

/-- A GO of MIGCTL: the checks, then step 1. A new frame that is misaligned and overlaps the old one reports 2, where the spec
gives no order of 2 and 4. DEDUCED, log entry 35; DESIGN CHOICE, log entry 149. -/
def migrationGo (s : State) (ctx : Nat) : State :=
  let va := ctl s 0x70
  let new := field (ctl s 0x78) 16 36 * 2 ^ 16
  match Maps.find? ctx s.contexts with
  | none => setCtl s 0x88 (migctlOf ctx 3 1)
  | some c =>
    match (if canonical va then leafAt s va 5 0 c.ptroot else none) with
    | none => setCtl s 0x88 (migctlOf ctx 1 1)
    | some (at_, leaf, size) =>
      let len := frameLen leaf size
      if new % len ≠ 0 ∨ !sameDomain leaf new len then setCtl s 0x88 (migctlOf ctx 2 1)
      else if meets new len (frameOf leaf) len then setCtl s 0x88 (migctlOf ctx 4 1)
      else
        let m : Migration := { ctx := ctx, va := va, entry := at_, leaf := leaf, size := size, new := new }
        setCtl { s with migration := some m } 0x88 (migctlOf ctx 0 0)

/-- A write of MIGCTL; a GO while a migration runs is ignored. DEDUCED, log entry 35. -/
def writeMigctl (s : State) (value : Nat) : State :=
  if value.testBit 0 then (if s.migration.isSome then s else migrationGo s (field value 48 16))
  else setCtl s 0x88 (field value 48 16 * 2 ^ 48 + field (ctl s 0x88) 0 8)

/-- An address of the old frame, moved to the new one. -/
def movedPa (m : Migration) (pa : Nat) : Nat :=
  if frameOf m.leaf ≤ pa ∧ pa < frameOf m.leaf + frameLen m.leaf m.size then pa - frameOf m.leaf + m.new else pa

/-- The entries of a map at keys from `lo` on, `len` of them, and the others. -/
def within {α : Type} (lo len : Nat) (m : List (Nat × α)) : List (Nat × α) :=
  m.filter (fun c => decide (lo ≤ c.1) && decide (c.1 < lo + len))
def without {α : Type} (lo len : Nat) (m : List (Nat × α)) : List (Nat × α) :=
  m.filter (fun c => !(decide (lo ≤ c.1) && decide (c.1 < lo + len)))

/-- Copy a range of memory; what the destination held before is noted (log entry 140), and the host's copies of it go first
(R224). -/
def copyRange (s : State) (src dst len : Nat) : State :=
  let moved := within src len s.mem
  let news := moved.foldl (fun m c => Maps.set 0 (c.1 - src + dst) c.2 m) (without dst len s.mem)
  let changed := (within dst len s.mem).map Prod.fst ++ moved.map (fun c => c.1 - src + dst)
  { backInvalidateSpan s dst len with
    mem := news
    hist := changed.foldl (fun m a =>
      let old := readByte s a
      if old = Maps.get 0 a news ∨ (Maps.get [] a m).contains old then m else Maps.insert a (old :: Maps.get [] a m) m) s.hist }

/-- Rebuild a map whose keys move. -/
def rekey {α : Type} (f : Nat → Nat) (m : List (Nat × α)) : List (Nat × α) :=
  m.foldl (fun acc e => Maps.insert (f e.1) e.2 acc) []

/-- The versions of a page move with it, and nothing is left of those that its new frame had (24 R425). -/
def moveVersions (m : Migration) (vs : List (Nat × List Version)) : List (Nat × List Version) :=
  rekey (fun l => movedPa m (l * 128) / 128)
    (vs.filter (fun e => !meets (e.1 * 128) 128 m.new (frameLen m.leaf m.size)))

/-- Every home slice takes the hub's H as its copy, so that a version seen at its old home is visible at the new one (24
R424, R428). -/
def refreshSlices (s : State) : State :=
  (upto 8).foldl (fun s d => setDie s d { die s d with
    hs := (upto 16).foldl (fun m i => Maps.set 0 i (ctl s 0x80) m) (die s d).hs }) s

/-- The copies of lines of the old frame serve their forwards in the new one, so that a store that a lane has read there stays
visible to it (R213); their leases have passed. -/
def moveCopies (m : Migration) (cs : List LineCopy) : List LineCopy :=
  cs.foldl (fun acc c =>
    let line := movedPa m (c.line * 128) / 128
    if line = c.line then acc ++ [c]
    else if c.dirty.isEmpty then acc
    else if acc.any (fun x => x.holder == c.holder && x.line == line) then
      acc.map (fun x => if x.holder == c.holder && x.line == line then { x with dirty := x.dirty ++ c.dirty } else x)
    else acc ++ [{ c with line := line, expiry := 0 }]) []

/-- A place that an access keeps goes with its page: one of an `stcm`, and one of an `atom` that waits (R226 step 4, 24 R425). -/
def movedPlace (m : Migration) (e : Acc × Place) : Acc × Place :=
  match e.2 with
  | .mem pa leaf => (e.1, .mem (movedPa m pa) leaf)
  | _ => e

/-- The stage of an instruction after the swap. A load between its halves reads the second one at the frame that it was translated
to (21 R394), but for one of a stamped page, whose versions have moved (24 R425). -/
def movedStage (m : Migration) : Stage → Stage
  | .sendWidth t ps => .sendWidth t (ps.map (movedPlace m))
  | .mode id ps => .mode id (ps.map (movedPlace m))
  | .half hi got => .half hi (if m.leaf.testBit 61 then got.map (fun x => { x with place := (movedPlace m (x.acc, x.place)).2 }) else got)
  | st => st

/-- The places that the instructions of a group keep, after the swap. -/
def movedGroup (m : Migration) (g : Group) : Group :=
  { g with frags := g.frags.map (fun e => (e.1, { e.2 with stage := movedStage m e.2.stage }))
           parked := g.parked.map (fun q => { q with stage := movedStage m q.stage }) }

/-- Step 4 of R226: the leaf as it stands, with the new frame; the sweep; and the waiting accesses against the new frame. A
stamped page moves with its versions (24 R425). DEDUCED, log entry 138. -/
def swapFrames (s : State) (m : Migration) : State :=
  let len := frameLen m.leaf m.size
  let s1 := copyRange { s with migration := none } (frameOf m.leaf) m.new len
  let leaf := seenNat s1 m.entry 8
  let s2 := hubWrite s1 m.entry (toBytes 8 (leaf - frameOf leaf + m.new))
  let s3 := sweepRange s2 m.ctx (m.va / 2 ^ m.size * 2 ^ m.size) (2 ^ m.size)
  let go := movedPa m
  { s3 with
    stores := s3.stores.map (fun p => if p.scratch.isNone then { p with pa := go p.pa } else p)
    copies := moveCopies m s3.copies
    stcms := s3.stcms.map (fun l => { l with pa := go l.pa })
    groups := s3.groups.map (fun e => (e.1, movedGroup m e.2))
    versions := moveVersions m s3.versions
    shadowCt := rekey (fun f => go (f * 2 ^ 16) / 2 ^ 16)
      (s3.shadowCt.filter (fun e => !(decide (m.new ≤ e.1 * 2 ^ 16) && decide (e.1 * 2 ^ 16 < m.new + len))))
    teams := s3.teams.map (fun (e : Nat × Team) => (e.1, { e.2 with
      dets := e.2.dets.map (fun d => { d with pa := go d.pa }) })) }

/-- Perform, in order of issue, every store in `ps` that may be performed. -/
def performReady (s : State) (ps : List PStore) : State :=
  ps.foldl (fun s p => match s.stores.find? (fun q => q.id == p.id) with
    | some q => if q.scratch.isNone && mayPerform s q then performStore s q else s
    | none => s) s

/-- A write of the hub that waited is performed against the new frame. -/
def putWaiting (m : Migration) (s : State) (w : Nat × List Byte) : State :=
  (w.2.zipIdx w.1).foldl (fun s e => hubPut s (movedPa m e.2) [e.1]) s

/-- Has true time passed every lease on the old frame (R226 step 3), and on what the new frame held before?
DEDUCED, log entry 35. -/
def leasesPassed (s : State) (m : Migration) : Bool :=
  let on (c : LineCopy) (frame : Nat) : Bool := meets (c.line * 128) 128 frame (frameLen m.leaf m.size)
  s.copies.all (fun c => !(on c (frameOf m.leaf) || on c m.new) || decide (c.expiry < s.now))

/-- Both frames and the leaf can be reached. -/
def migrationReaches (s : State) (m : Migration) : Bool :=
  let len := frameLen m.leaf m.size
  reachable s 0 (frameOf m.leaf) len && reachable s 0 m.new len && reachable s 0 m.entry 8

/-- A frame of a migration cannot be reached: its context receives MACHINE_CHECK (26 R437, R443 to R445), and the migration is
over without a swap; the writes that waited are performed where they were to go. DESIGN CHOICE, log entry 165. -/
def lostMigration (s : State) (m : Migration) : State :=
  let s1 := m.waits.foldl (fun s w => hubPut s w.1 w.2) { s with migration := none }
  setCtl (terminate s1 m.ctx 0x1F) 0x88 (migctlOf (field (ctl s1 0x88) 48 16) 0 1)

/-- Steps 2 to 4 of a migration, with its record. -/
def migrationSwap (s : State) : State :=
  match s.migration with
  | none => s
  | some m =>
    if !leasesPassed s m then s
    else if !migrationReaches s m then lostMigration s m
    else
      let waiting := s.stores.filter (fun p => migrating s p.pa && p.after.isNone)
      let s0 := m.waits.foldl (putWaiting m) (swapFrames s m)
      let s1 := performReady (if m.leaf.testBit 61 then formWaiting (refreshSlices s0) else s0) waiting
      let s2 := setCtl s1 0x88 (migctlOf (field (ctl s1 0x88) 48 16) 0 1)
      (raise s2 { ctx := m.ctx, code := 0x21, source := 5, addr := m.va }).2

/-! ### Contexts and queues (26 R439, R440) -/

/-- CTXCMD or QCMD with an outcome; bits [15:4] are QNUM. DEDUCED, log entry 41. -/
def cmdOf (value err done : Nat) : Nat :=
  field value 48 16 * 2 ^ 48 + field value 4 12 * 16 + err * 8 + done * 4 + field value 0 2

/-- A little-endian field of a descriptor. -/
def descField (bs : List Byte) (at_ n : Nat) : Nat := ofBytes ((bs.drop at_).take n)

/-- The checks of a context descriptor; one in memory that cannot be reached fails them. DEDUCED, log entry 44. -/
def contextOk (s : State) (ctx addr : Nat) (d : List Byte) : Bool :=
  reachable s 0 addr 64 && s.ready && ctx != 0 && (Maps.find? ctx s.contexts).isNone && decide (s.contexts.length < 1024) && addr % 64 == 0 &&
    descField d 0x37 9 == 0 && decide (4 ≤ descField d 0x36 1) && decide (descField d 0x36 1 ≤ 16) &&
    descField d 0x34 2 == ctx

/-- The fields of a descriptor (21 R384). A misaligned address among them is used as it stands: 26 R439 does not reject it. DESIGN
CHOICE, log entry 187. -/
def withDescriptor (d : List Byte) (c : Context) : Context :=
  { c with ptroot := descField d 0 8, tvec := descField d 8 8, evq := descField d 0x10 8, evidx := descField d 0x18 8,
           save := descField d 0x20 8, ntab := descField d 0x28 8, ntlen := descField d 0x30 4, evlog := descField d 0x36 1 }

/-- The context that a descriptor at an address describes; its first record has sequence number 1. -/
def contextOf (addr : Nat) (d : List Byte) : Context := withDescriptor d { seq := 1, desc := some addr }

/-- The device reads a registered descriptor when it chooses to; a field changed meanwhile takes effect then (21 R384).
DESIGN CHOICE, log entry 143. -/
def rereadContexts (s : State) : State :=
  { s with contexts := s.contexts.map (fun (e : Nat × Context) => match e.2.desc with
    | none => e
    | some a => if Config.rereads s.turn e.1 && reachable s 0 a 64 then (e.1, withDescriptor (seenBytes s a 64) e.2) else e) }

/-- Register a context. DEDUCED, log entry 44. -/
def registerContext (s : State) (value : Nat) : State :=
  let ctx := field value 48 16
  let addr := ctl s 0x100
  let d := seenBytes s addr 64
  if contextOk s ctx addr d then setContext (setCtl s 0x108 (cmdOf (value - field value 4 12 * 16) 0 1)) ctx (contextOf addr d)
  else setCtl s 0x108 (cmdOf (value - field value 4 12 * 16) 1 1)

/-- Remove a queue that an unregister waits for. -/
def removeQueue (s : State) (q : Nat) : State :=
  setCtl { s with queues := Maps.erase q s.queues } 0x118 (ctl s 0x118 - field (ctl s 0x118) 2 1 * 4 + 4)

/-- Remove a leaving context once its last record has been written, with its queues and the stamps of its pages. A command that
unregisters one of these queues and waits for its slot completes with it (R440). -/
def finishLeaving (s : State) (ctx : Nat) : State :=
  match Maps.find? ctx s.contexts with
  | none => s
  | some c =>
    if !c.leaving || c.ringCt.isSome || s.recs.any (fun r => r.ctx == ctx && r.seq.isNone) || launchesOpen s ctx then s
    else
      let s0 := (s.queues.filter (fun e => e.2.ctx == ctx && e.2.leaving)).foldl (fun s e => removeQueue s e.1) s
      let s1 : State := { s0 with
        contexts := Maps.erase ctx s0.contexts
        queues := s0.queues.filter (fun (e : Nat × Queue) => e.2.ctx != ctx)
        recs := s.recs.filter (fun r => r.ctx != ctx)
        swaps := s.swaps.filter (fun r => r.ctx != ctx) }
      setCtl (dropStamps s1) 0x108 (ctl s1 0x108 - field (ctl s1 0x108) 2 1 * 4 + 4)

/-- The context still has teams, queues or launches. -/
def contextBusy (s : State) (ctx : Nat) : Bool :=
  s.teams.any (fun (e : Nat × Team) => e.2.ctx == ctx) || s.queues.any (fun (e : Nat × Queue) => e.2.ctx == ctx) || launchesOpen s ctx

/-- Unregister a context; a busy one is terminated first with code 0x20. DEDUCED, log entry 42. -/
def unregisterContext (s : State) (value : Nat) : State :=
  let ctx := field value 48 16
  match Maps.find? ctx s.contexts with
  | none => setCtl s 0x108 (cmdOf (value - field value 4 12 * 16) 1 1)
  | some _ =>
    let s1 := setCtl s 0x108 (cmdOf (value - field value 4 12 * 16) 0 0)
    let s2 := if contextBusy s1 ctx then terminate s1 ctx 0x20 else s1
    match Maps.find? ctx s2.contexts with
    | some c => finishLeaving (setContext s2 ctx { c with leaving := true }) ctx
    | none => s2

/-- A write of CTXCMD; operations 0 and 3 are ignored. DEDUCED, log entry 41. -/
def writeCtxcmd (s : State) (value : Nat) : State :=
  if field value 0 2 = 1 then registerContext s value
  else if field value 0 2 = 2 then unregisterContext s value
  else s

/-- The checks of a queue descriptor (13 R267). -/
def queueOk (d : List Byte) : Bool :=
  descField d 0x1B 5 == 0 && decide (4 ≤ descField d 0x18 1) && decide (descField d 0x18 1 ≤ 16) &&
    decide (descField d 0x19 1 ≤ 3) && decide (descField d 0x1A 1 ≤ 1) && descField d 0 8 % 4096 == 0 &&
    descField d 8 8 % 8 == 0 && descField d 0x10 8 % 8 == 0

/-- Register a queue. -/
def registerQueue (s : State) (value : Nat) : State :=
  let ctx := field value 48 16
  let q := field value 4 12
  let addr := ctl s 0x110
  let d := seenBytes s addr 32
  if (Maps.find? ctx s.contexts).isSome && (Maps.find? q s.queues).isNone && addr % 32 == 0 && reachable s 0 addr 32 && queueOk d then
    let x : Queue := { ctx := ctx, ring := descField d 0 8, widx := descField d 8 8, ridx := descField d 0x10 8,
                       lslots := descField d 0x18 1, cls := descField d 0x19 1, launches := descField d 0x1A 1 == 0 }
    setQueue (setCtl s 0x118 (cmdOf value 0 1)) q x
  else setCtl s 0x118 (cmdOf value 1 1)

/-- Unregister a queue: at once, or after the slot that its watcher is reading. -/
def unregisterQueue (s : State) (value : Nat) : State :=
  let q := field value 4 12
  match Maps.find? q s.queues with
  | some x =>
    if x.ctx ≠ field value 48 16 then setCtl s 0x118 (cmdOf value 1 1)
    else if x.reading.isSome || x.slotCt.isSome then setQueue (setCtl s 0x118 (cmdOf value 0 0)) q { x with leaving := true }
    else setCtl { s with queues := Maps.erase q s.queues } 0x118 (cmdOf value 0 1)
  | none => setCtl s 0x118 (cmdOf value 1 1)

/-- A write of QCMD; operations 0 and 3 are ignored. -/
def writeQcmd (s : State) (value : Nat) : State :=
  if field value 0 2 = 1 then registerQueue s value
  else if field value 0 2 = 2 then unregisterQueue s value
  else s

/-! ### The memory map (26 R437) -/

/-- Two entries use the same GiB. -/
def mapsMeet (a b : Nat) : Bool :=
  let idx := field a 8 8 == field b 8 8
  if field a 0 2 = 1 ∧ field b 0 2 = 1 then idx && field a 2 3 == field b 2 3
  else if field a 0 2 = 2 ∧ field b 0 2 = 2 then idx && field a 16 3 == field b 16 3
  else if (field a 0 2 = 1 ∨ field a 0 2 = 2) ∧ (field b 0 2 = 1 ∨ field b 0 2 = 2) then idx
  else false

/-- The byte of a die's GiB at an offset of a region with a map entry: a striped region takes 4 KiB of each die in turn (10
R210). -/
def talusOf (e off : Nat) : Nat :=
  let x := if field e 0 2 = 2 then field e 16 3 * 2 ^ 30 + off else off
  if field e 0 2 = 2 then field x 12 3 * 2 ^ 40 + field e 8 8 * 2 ^ 30 + x / 2 ^ 15 * 2 ^ 12 + x % 2 ^ 12
  else field e 2 3 * 2 ^ 40 + field e 8 8 * 2 ^ 30 + x

/-- The offset in a region with a map entry of a byte of a die's GiB, if it has one. -/
def regionOff (e key : Nat) : Option Nat :=
  if field key 30 10 ≠ field e 8 8 then none
  else if field e 0 2 = 1 then (if key / 2 ^ 40 = field e 2 3 then some (key % 2 ^ 30) else none)
  else if field e 0 2 = 2 then
    let x := key % 2 ^ 30 / 2 ^ 12 * 2 ^ 15 + key / 2 ^ 40 * 2 ^ 12 + key % 2 ^ 12
    if x / 2 ^ 30 = field e 16 3 then some (x % 2 ^ 30) else none
  else none

/-- Entries of a map at region r, moved to the GiB that its entry names; `d` is the value of an unlisted key. -/
def stow {α : Type} [DecidableEq α] (d : α) (r e : Nat) (m talus : List (Nat × α)) : List (Nat × α) :=
  (within (r * 2 ^ 30) (2 ^ 30) m).foldl (fun t c => Maps.set d (talusOf e (c.1 - r * 2 ^ 30)) c.2 t) talus

/-- Entries of the GiB that an entry names, brought to region r. -/
def bring {α : Type} [DecidableEq α] (d : α) (r e : Nat) (talus m : List (Nat × α)) : List (Nat × α) :=
  talus.foldl (fun m c => match regionOff e c.1 with
    | some off => Maps.set d (r * 2 ^ 30 + off) c.2 m
    | none => m) m

/-- Region r gets another map entry: the bytes stay with the dies' GiB (R437). No page maps the region now, so the marks of
its lines are gone (R444), and no line of it is stamped. -/
def remap (s0 : State) (r e : Nat) : State :=
  let s := dropStamps s0
  let old := memmap s r
  let mapped := field old 0 2 = 1 ∨ field old 0 2 = 2
  let t := if mapped then stow 0 r old s.mem s.talus else s.talus
  let th := if mapped then stow [] r old s.hist s.talusHist else s.talusHist
  let inR (l : Nat) : Bool := l * 128 / 2 ^ 30 == r
  { setCtl s (0x1000 + 8 * r) e with
    mem := bring 0 r e t (without (r * 2 ^ 30) (2 ^ 30) s.mem)
    hist := bring [] r e th (without (r * 2 ^ 30) (2 ^ 30) s.hist)
    talus := t.filter (fun c => (regionOff e c.1).isNone)
    talusHist := th.filter (fun c => (regionOff e c.1).isNone)
    badLines := s.badLines.filter (fun l => !inR l)
    badPages := s.badPages.filter (fun l => !inR l) }

/-- A write of an entry of the memory map. -/
def writeMemmap (s : State) (r value : Nat) : State :=
  if !s.contexts.isEmpty then s
  else
    let v := value &&& 0x7FF1F
    let kind := field v 0 2
    let clash := (upto 1024).any (fun q => q != r && mapsMeet v (memmap s q))
    if kind = 3 ∨ (kind ≠ 0 ∧ 88 < field v 8 8) ∨ clash then remap s r (memmap s r - field (memmap s r) 0 2 + 3)
    else remap s r v

/-! ### Boot and power (26 R446 to R448) -/

/-- Every region is unmapped: the bytes of device memory stay with the dies' GiB. -/
def unmapAll (s : State) : State :=
  (within 0x1000 0x2000 s.ctl).foldl (fun s e => remap s ((e.1 - 0x1000) / 8) 0) { s with contexts := [] }

/-- The machine at a start: what a reset leaves, with the host's and the peers' memory, device memory if it is kept, true time,
and the failure record; the controller starts every Almanac, those of dies that were unavailable too, so that E ≤ true time ≤ L
(24 R418). DEDUCED, log entry 40. -/
def restart (s0 : State) (keep : Bool) : State :=
  let s := unmapAll s0
  { State.reset with
    cur := s.cur, agenda := s.agenda, turn := s.turn, fresh := s.fresh, uid := s.uid, now := s.now, mem := s.mem, hist := s.hist
    talus := if keep then s.talus else [], talusHist := if keep then s.talusHist else []
    reason := s.reason, fails := s.fails
    dies := s.dies.map (fun (e : Nat × Die) => (e.1, ({ e := e.2.e, l := max e.2.l s.now, floorTime := s.now } : Die))) }

/-- BOOTSTAT as read. -/
def bootstat (s : State) : Nat := s.reason * 2 ^ 24 + b2n s.minimal * 2 ^ 16 + b2n s.ready * 2 ^ 8 + s.fails

/-- Minimal mode has CD0 only and no Phoath port. DEDUCED, log entry 40. -/
def enterMinimal (s : State) : State :=
  let s1 := (upto 8).foldl (fun s d => if d = 0 then s else setDie s d { die s d with available := false }) s
  { s1 with minimal := true, ready := true, power := 0, portsDown := upto 12 }

/-- The REASON of a start that fails its checks, 0 when it fails none. DEDUCED, log entry 39. -/
def bootReason (c : BootChecks) : Nat :=
  if !c.imageOk then 4
  else if !c.rsaOk && !c.slhOk then 3
  else if !c.rsaOk then 1
  else if !c.slhOk then 2
  else if !c.versionOk then 7
  else if !c.selfTestOk then 5
  else if !c.talusOk then 6
  else 0

/-- A failed start: the device has power, and the host can read BOOTSTAT. -/
def bootFailed (s : State) (reason : Nat) : State := { s with reason := reason, fails := min 255 (s.fails + 1), power := 0 }

/-- A start (R446, R447). DEDUCED, log entry 39. -/
def bootStart (s : State) (c : BootChecks) : State :=
  if s.ready then s
  else if 3 ≤ s.fails then enterMinimal s
  else if bootReason c ≠ 0 then bootFailed s (bootReason c)
  else { s with ready := true, minimal := false, fails := 0, reason := 0, power := 0 }

/-- The watchdog before READY. -/
def bootWatchdog (s : State) : State := if s.ready || decide (3 ≤ s.fails) then s else bootFailed s 8

/-- A write of BOOTCTL: in minimal mode bit 0 clears FAILS and starts again. -/
def writeBootctl (s : State) (value : Nat) : State :=
  if value.testBit 0 && s.minimal then { restart s true with fails := 0 } else s

/-- A write of PWRCTL; PS4 loses the device's memory (R448). -/
def writePwrctl (s : State) (value : Nat) : State :=
  let st := field value 0 3
  let cap := field value 16 16 * 2 ^ 16
  let refused := 4 < st || (st == 2 && s.teams.any (fun (e : Nat × Team) => !e.2.out)) || (st == 3 && !s.contexts.isEmpty)
  if refused then setCtl s 0x140 (cap + field (ctl s 0x140) 0 3)
  else if st = 4 then { restart s false with power := 4 }
  else { setCtl s 0x140 (cap + st) with power := st }

end Ops

end Sys2Proof.Machine
end

