-- ==== Sys2Proof/Machine/Banks.lean ====
section
/-! DEFINITION. The modes of the cluster SRAM banks: BANKMODE and its requests (10 R197 to R200). -/

namespace Sys2Proof.Machine

open Sys2Proof.Bits

namespace Ops

/-- Some team owns a unit of the bank (R196); a switch-out frees those of its team (21 R407). -/
def bankOwned (s : State) (c b : Nat) : Bool :=
  s.teams.any (fun (e : Nat × Team) => clusterOf e.2.core == c && !e.2.out && e.2.units.any (fun u => u / 64 == b))

/-- BANKMODE as read (R197); a failed bank's MODE reads 3 (26 R444), and its EMPTY and OWNED are those of the mode that it had.
DEDUCED, log entry 32. -/
def bankmode (s : State) (c b : Nat) : Nat :=
  let k := bank (cluster s c) b
  (if k.failed then 3 else k.mode) + k.width * 2 ^ 3 + k.result * 2 ^ 8 +
    b2n (k.mode != 2 || k.fifo.isEmpty) * 2 ^ 10 + b2n (k.mode == 1 && bankOwned s c b) * 2 ^ 11

/-- MODE below 3 and WIDTH below 3. -/
def modeLegal (value : Nat) : Bool := field value 0 2 != 3 && decide (field value 3 3 ≤ 2)

/-- The bank is free for a change (R198 step 3). No push of the copy engine waits on an empty bank: its room takes any chunk (R201,
13 R260). DEDUCED, log entry 15. -/
def bankFree (s : State) (c b : Nat) : Bool :=
  let k := bank (cluster s c) b
  if k.mode = 0 then true
  else if k.mode = 1 then !bankOwned s c b
  else k.fifo.isEmpty && k.waits.isEmpty

/-- The cluster cache holds no line whose forward is still to be performed (R199). -/
def writtenBack (s : State) (c : Nat) : Bool := s.copies.all (fun x => x.holder != c || x.dirty.isEmpty)

/-- CYCLES of BMTIMEOUT in ticks (00 R6). -/
def bankTimeout (s : State) (c : Nat) : Nat := 2 * ctl s (clusterOff c + 0x80)

/-- The head request of a bank ends with a RESULT; an `atom` learns the outcome of its lane. -/
def endRequest (s : State) (c b : Nat) (r : ModeReq) (result code : Nat) : State :=
  let k := bank (cluster s c) b
  let s1 := setBank s c b { k with reqs := k.reqs.drop 1, result := result }
  match r.who with
  | none => s1
  | some (key, lane) => modGroup s1 key (fun g => { g with modeDone := g.modeDone ++ [(lane, code)] })

/-- The change itself (R199). Leaving cache mode invalidates the copies of the cluster's cache. -/
def changeBank (s : State) (c b : Nat) (r : ModeReq) : State :=
  let k := bank (cluster s c) b
  let s1 : State := if k.mode = 0 then { s with copies := s.copies.filter (fun x => x.holder != c) } else s
  setBank s1 c b { k with mode := r.mode, width := r.width, fifo := [] }

/-- The head request has waited for more than CYCLES cycles (R198 step 5). -/
def overdue (s : State) (r : ModeReq) : Bool := r.deadline != 0 && decide (r.deadline < s.now)

/-- Serve the waiting requests of a bank in order, until one has to wait; fuel is their number (R198).
DEDUCED, log entries 15, 32. -/
def serveBank (c b : Nat) : Nat → State → State
  | 0, s => s
  | fuel + 1, s =>
    let k := bank (cluster s c) b
    match k.reqs with
    | [] => s
    | r :: rest =>
      let old := bankmode s c b
      if overdue s r then serveBank c b fuel (endRequest s c b r 2 (2 ^ 32))
      else if k.failed ∨ r.mode = 3 ∨ 2 < r.width then serveBank c b fuel (endRequest s c b r 3 (2 ^ 32 + 1))
      else if r.mode = k.mode ∧ r.width = k.width then serveBank c b fuel (endRequest s c b r 1 old)
      else if bankFree s c b then
        if k.mode ≠ 0 ∨ writtenBack s c then serveBank c b fuel (endRequest (changeBank s c b r) c b r 1 old) else s
      else if bankTimeout s c = 0 then serveBank c b fuel (endRequest s c b r 2 (2 ^ 32))
      else if r.deadline = 0 then
        setBank s c b { k with reqs := { r with deadline := s.now + bankTimeout s c } :: rest }
      else s

/-- A mode request arrives at a bank. DEDUCED, log entry 15. -/
def requestMode (s : State) (c b value : Nat) (who : Option (Nat × Nat)) : State :=
  let k := bank (cluster s c) b
  let r : ModeReq := { id := s.uid, mode := field value 0 2, width := field value 3 3, who := who }
  serveBank c b (k.reqs.length + 1) (setBank { s with uid := s.uid + 1 } c b { k with reqs := k.reqs ++ [r] })

/-- The wait of the head request has lasted CYCLES cycles (R198 step 5). -/
def timeoutBank (s : State) (c b : Nat) : State :=
  let k := bank (cluster s c) b
  match k.reqs with
  | [] => s
  | r :: _ =>
    if overdue s r ∨ (r.deadline ≠ 0 ∧ r.deadline ≤ s.now ∧ !bankFree s c b) then
      serveBank c b k.reqs.length (endRequest s c b r 2 (2 ^ 32))
    else s

end Ops

end Sys2Proof.Machine
end

