-- ==== Sys2Proof/Machine/Ctl.lean ====
section
/-! DEFINITION. The control region (26 R438): which register stands at an offset, what a load returns and what a store
does; an access of another width loads 0 and stores nothing. Stores to the region are performed here too. -/

namespace Sys2Proof.Machine

open Sys2Proof.Bits

namespace Ops

/-- The registers of the control region. -/
inductive CtlReg where
  /-- a register that holds what is written under a mask, or a read-only one (mask 0), at its offset -/
  | plain (mask : Nat)
  | invctl | replay | preempt | resume | migctl | bootstat | bootctl | ctxcmd | qcmd | pwrctl
  | memmap (r : Nat)
  | l2cls (d c : Nat)
  | counter
  | bankmode (c b : Nat)
  | cespillb (c : Nat)
  | cestat (c : Nat)
  | nvspillb (k : Nat)
  | nvstat (k : Nat)
  | acctag (k t : Nat)
  | tile (k t o : Nat)
  deriving DecidableEq, Repr

/-- The hub block: a register and its widths (R437 to R448; 11 R227; 21 R394, R398, R406; 24 R420). -/
def hubReg (o : Nat) : Option (List Nat × CtlReg) :=
  if o = 0x40 then some ([8], .plain (2 ^ 64 - 1))
  else if o = 0x48 then some ([8], .invctl)
  else if o = 0x50 then some ([8], .replay)
  else if o = 0x60 then some ([8], .preempt)
  else if o = 0x68 then some ([8], .resume)
  else if o = 0x70 then some ([8], .plain (2 ^ 64 - 1))
  else if o = 0x78 then some ([8], .plain (2 ^ 52 - 2 ^ 16))
  else if o = 0x80 then some ([8], .plain 0)
  else if o = 0x88 then some ([8], .migctl)
  else if o = 0xC0 then some ([4], .bootstat)
  else if o = 0xC8 then some ([4, 8], .bootctl)
  else if o = 0xD0 then some ([4, 8], .plain 1)
  else if o = 0x100 then some ([8], .plain (2 ^ 64 - 1))
  else if o = 0x108 then some ([8], .ctxcmd)
  else if o = 0x110 then some ([8], .plain (2 ^ 64 - 1))
  else if o = 0x118 then some ([8], .qcmd)
  else if o = 0x120 then some ([8], .plain (2 ^ 52 - 2 ^ 12 + 0x1F))
  else if o = 0x128 then some ([8], .plain 0)
  else if o = 0x130 then some ([4, 8], .plain (2 ^ 64 - 1))
  else if o = 0x140 then some ([4, 8], .pwrctl)
  else if 0x1000 ≤ o ∧ o < 0x3000 ∧ o % 8 = 0 then some ([8], .memmap ((o - 0x1000) / 8))
  else if 0x3000 ≤ o ∧ o < 0x3200 ∧ o % 8 = 0 then some ([8], .plain 0xFFF)
  else none

/-- A die block (10 R207, 11 R215, 26 R444). -/
def dieReg (d o : Nat) : Option (List Nat × CtlReg) :=
  if 0x100 ≤ o ∧ o < 0x110 ∧ o % 4 = 0 then some ([4], .l2cls d ((o - 0x100) / 4))
  else if o = 0x110 then some ([4], .plain 0xFFFFF)
  else if 0x180 ≤ o ∧ o < 0x1A0 ∧ o % 4 = 0 then some ([4], .counter)
  else none

/-- A cluster block (10 R197, 13 R266). -/
def clusterReg (c o : Nat) : Option (List Nat × CtlReg) :=
  if o < 0x80 ∧ o % 4 = 0 then some ([4], .bankmode c (o / 4))
  else if o = 0x80 then some ([4], .plain 0xFFFFFFFF)
  else if o = 0x200 then some ([8], .cespillb c)
  else if o = 0x208 then some ([4], .plain 0xFFFF)
  else if o = 0x20C then some ([4], .cestat c)
  else none

/-- A core block (14 R284, 16 R321). -/
def coreReg (k o : Nat) : Option (List Nat × CtlReg) :=
  if o = 0x300 then some ([4], .plain 0xFFFF)
  else if o = 0x308 then some ([8], .nvspillb k)
  else if o = 0x310 then some ([4], .plain 0xFFFF)
  else if o = 0x318 then some ([8], .nvstat k)
  else if 0x400 ≤ o ∧ o < 0x480 ∧ o % 8 = 0 then some ([8], .acctag k ((o - 0x400) / 8))
  else if 0x10000 ≤ o ∧ o < 0x50000 ∧ o % 4 = 0 then
    some ([4], .tile k ((o - 0x10000) / 0x4000) ((o - 0x10000) % 0x4000 / 4))
  else none

/-- The register at an offset of the control region. DEDUCED, log entry 38. -/
def ctlReg (off : Nat) : Option (List Nat × CtlReg) :=
  if off < 0x10000 then hubReg off
  else
    let d := off / 0x04000000 - 1
    let o := off % 0x04000000
    if off < 0x04000000 ∨ 7 < d then none
    else if o < 0x1000 then dieReg d o
    else if 0x00100000 ≤ o ∧ o < 0x00900000 then clusterReg (8 * d + o / 0x00100000 - 1) (o % 0x00100000)
    else if 0x01000000 ≤ o ∧ o < 0x03000000 then coreReg (64 * d + (o - 0x01000000) / 0x00080000) (o % 0x00080000)
    else none

/-- The register at an offset, for an access of its width. DEDUCED, log entry 38. -/
def ctlTarget (off size : Nat) : Option CtlReg :=
  match ctlReg off with
  | some (ws, r) => if ws.contains size then some r else none
  | none => none

/-- HELD: the tile is mapped to a team that is resident and not switched out (14 R284). -/
def tileHeld (s : State) (k t : Nat) : Bool :=
  s.teams.any (fun (e : Nat × Team) => e.2.core == k && !e.2.out && e.2.tiles.contains t)

/-- ACCTAG as read; tiles 14 and 15 read 0 (16 R324). -/
def acctag (s : State) (k t : Nat) : Nat :=
  if 14 ≤ t then 0
  else
    let a := Maps.get {} t (core s k).tags
    a.ctx * 2 ^ 48 + a.tkey * 2 ^ 24 + a.ltile * 2 ^ 20 + b2n (tileHeld s k t) * 2 + b2n a.valid

/-- Write a tag (R284). -/
def writeAcctag (s : State) (k t value : Nat) : State :=
  if 14 ≤ t then s
  else
    let a : AccTag := { ctx := field value 48 16, tkey := field value 24 24, ltile := field value 20 4,
                        valid := value.testBit 0 }
    setCore s k { core s k with tags := Maps.insert t a (core s k).tags }

/-- A word of a tile window. -/
def tileWord (s : State) (k t o : Nat) : Nat := if 14 ≤ t then 0 else (Maps.get 0 (t * 4096 + o) (core s k).tiles).toNat

/-- Write a word of a tile window. -/
def writeTileWord (s : State) (k t o value : Nat) : State :=
  if 14 ≤ t then s
  else setCore s k { core s k with tiles := Maps.set 0 (t * 4096 + o) (BitVec.ofNat 32 value) (core s k).tiles }

/-- CESTAT (13 R266). -/
def cestat (s : State) (c : Nat) : Nat :=
  let x := cluster s c
  x.spilled.length * 2 ^ 16 + (x.copies.filter (fun q => !q.active)).length * 2 ^ 8 + (x.copies.filter (fun q => q.active)).length

/-- NVSTAT (16 R321). DEDUCED, log entry 43. -/
def nvstat (s : State) (k : Nat) : Nat :=
  let x := core s k
  x.nspill.length * 2 ^ 48 + x.slots.length * 2 ^ 32 +
    ((x.slots.map (fun q => q.reqs.length)).foldl (fun a b => a + b) 0 +
      (x.ntiles.map (fun t => t.rows.length)).foldl (fun a b => a + b) 0)

/-- Write a class register of the L2 (10 R207). DESIGN CHOICE, log entry 127. -/
def writeL2cls (s : State) (d c value : Nat) : State :=
  let at_ (x : Nat) : Nat := dieOff d + 0x100 + 4 * x
  let quota (x : Nat) : Nat := if x = c then field value 0 4 else field (ctl s (at_ x)) 0 4
  if 16 < quota 0 + quota 1 + quota 2 + quota 3 then
    (upto 4).foldl (fun s x => setCtl s (at_ x) (field (ctl s (at_ x)) 0 8 + 2 ^ 8)) s
  else
    (upto 4).foldl (fun s x => setCtl s (at_ x) (if x = c then field value 0 6 else field (ctl s (at_ x)) 0 8)) s

/-- What a load of the control region returns. -/
def ctlRead (s : State) (off size : Nat) : Nat :=
  match ctlTarget off size with
  | none => 0
  | some r =>
    match r with
    | .bootstat => bootstat s
    | .bankmode c b => bankmode s c b
    | .cestat c => cestat s c
    | .nvstat k => nvstat s k
    | .acctag k t => acctag s k t
    | .tile k t o => tileWord s k t o
    | _ => field (ctl s off) 0 (8 * size)

/-- What a store of the control region does; a device that is off takes none, and only the host's requests reach BANKMODE
this way. -/
def ctlWrite (s : State) (host : Bool) (off size value : Nat) : State :=
  if s.power = 4 then s
  else match ctlTarget off size with
  | none => s
  | some r =>
    match r with
    | .plain mask => if mask = 0 then s else setCtl s off (value &&& mask)
    | .invctl => writeInvctl s value
    | .replay => writeReplay s value
    | .preempt => writePreempt s value
    | .resume => writeResume s value
    | .migctl => writeMigctl s value
    | .bootstat => s
    | .bootctl => writeBootctl s value
    | .ctxcmd => writeCtxcmd s value
    | .qcmd => writeQcmd s value
    | .pwrctl => writePwrctl s value
    | .memmap r => writeMemmap s r value
    | .l2cls d c => writeL2cls s d c value
    | .counter => setCtl s off 0
    | .bankmode c b => if host then requestMode s c b value none else s
    | .cespillb c => if (cluster s c).spilled.isEmpty then setCtl s off (value &&& (2 ^ 52 - 2 ^ 12)) else s
    | .cestat _ => s
    | .nvspillb k => if (core s k).nspill.isEmpty then setCtl s off (value &&& (2 ^ 52 - 2 ^ 12)) else s
    | .nvstat _ => s
    | .acctag k t => writeAcctag s k t value
    | .tile k t o => writeTileWord s k t o value

/-- The bank that an offset names as BANKMODE. -/
def bankmodeAt (off : Nat) : Option (Nat × Nat) :=
  match ctlTarget off 4 with
  | some (.bankmode c b) => some (c, b)
  | _ => none

/-- The block of the control region that holds an offset (26 R438). -/
def ctlBlock (off : Nat) : Nat :=
  if off % 0x04000000 < 0x01000000 then off / 0x00100000 else 2 ^ 20 + off / 0x00080000

/-- An earlier store of the same lane to the same block is pending: one agent's accesses to one block take effect in issue
order (26 R438). -/
def ctlBehind (s : State) (p : PStore) : Bool :=
  p.scratch.isNone && windowOf p.pa == .control && s.stores.any (fun q => q.scratch.isNone && windowOf q.pa == .control &&
    decide (q.id < p.id) && q.group == p.group && (q.lane == p.lane || q.lane == 8 || p.lane == 8) &&
    ctlBlock (q.pa % 2 ^ 40) == ctlBlock (p.pa % 2 ^ 40))

/-- Perform a store, also one to the control region, which returns no completion time. DEDUCED, log entry 11; DESIGN CHOICE,
log entry 164. -/
def performPending (s : State) (p : PStore) : State :=
  if p.scratch.isNone ∧ windowOf p.pa = .control then
    let s1 := { s with stores := s.stores.filter (fun q => q.id != p.id) }
    ctlWrite s1 false (p.pa % 2 ^ 40) p.bytes.length (ofBytes p.bytes)
  else performStore s p

end Ops

end Sys2Proof.Machine
end

