-- ==== Sys2Proof/Machine/LoadStore.lean ====
section
/-! DEFINITION. The meanings of class 0x9: loads, stores, FIFO accesses and prefetches (12 R233 to R243; 10 R192 to R194,
R201, R202). -/

namespace Sys2Proof.Machine

open Sys2Proof.Bits
open Ops

namespace Ops

/-! ### Formats (12 R237, R239) -/

/-- What a load of a format code leaves in its registers. -/
def fmtLoad (f : Nat) (bs : List Byte) : Nat :=
  if f = 0 then wrap 32 (sext 8 (ofBytes bs)) else if f = 1 then wrap 32 (sext 16 (ofBytes bs)) else ofBytes bs

/-- Registers and bytes of `ldw` and `stw`: CNT 0 is two registers, 1 is four. -/
def wideRegs (h : Hdr) : Nat := if field h.mod.toNat 0 2 = 0 then 2 else 4

/-- CH is 2: L2 only (10 R206). -/
def l2Only (h : Hdr) : Bool := field h.mod.toNat 2 2 == 2

/-! ### Accesses -/

/-- One access per lane whose guard holds. -/
def laneAccs (c : Ctx) (o : OpM) (n : Nat) : List Acc := (lanesOf c.pass).map (fun l => { lane := l, ea := effAddr c o l, n := n })

/-- The one access of a uniform instruction; its translation uses the lowest active lane. DEDUCED, log entry 12. -/
def uniAccs (c : Ctx) (o : OpM) (n : Nat) : List Acc := [{ lane := lowActive c, ea := effAddr c o (lowActive c), n := n }]

/-- Address checks for the accesses of an instruction. DEDUCED, log entry 120. -/
def access (c : Ctx) (o : OpM) (nd : Needs) (as : List Acc) : Except Res (List (Acc × Place) × State) :=
  resolve c c.s o.space.toNat o.member.toNat nd as

/-- A condition of a uniform access arises in every lane whose guard holds (12 R234, R238), unless it is one of the
whole instruction. -/
def wholeMask (c : Ctx) : Res → Res
  | .trap t s => .trap (if t.lanes = c.active then t else { t with lanes := c.pass }) s
  | .park s fs => .park s (fs.map (fun f => { f with lanes := c.pass }))
  | r => r

/-- Needs of loads and of stores; a sampler load does not reach the control region (26 R438). -/
def loadNeeds (o : OpM) (spaces : List Nat) : Needs := { spaces := spaces, rd := 1, access := 1, ctrl := o.space != 4 }
def storeNeeds (spaces : List Nat) : Needs := { spaces := spaces, wr := 1, access := 2, stamped := false }

/-- A store of the group to the control region that has not been performed. -/
def ctrlPending (s : State) (key : Nat) : Bool :=
  s.stores.any (fun p => p.group == key && p.scratch.isNone && windowOf p.pa == .control)

/-- Some access of a load is read at its home, as the leaf's CC asks, while a store that its agents may have read is on its way
there (11 R213). -/
def homeWaits (c : Ctx) (ps : List (Acc × Place)) : Bool :=
  ps.any (fun e => match e.2 with
    | .mem pa leaf => readWaits c.s c.tm.core pa leaf e.1.n
    | _ => false)

/-- A place that an access keeps while it waits has lost its home since (26 R443 to R445). -/
def placesLost (c : Ctx) (ps : List (Acc × Place)) : Bool :=
  ps.any (fun e => match e.2 with
    | .mem pa _ => !reachable c.s (dieOf c.tm.core) pa e.1.n
    | _ => false)

/-- An access reaches the control region while an earlier store of the group to it is pending: accesses to one block take
effect in issue order (26 R438). -/
def ctrlWaits (c : Ctx) (ps : List (Acc × Place)) : Bool :=
  ctrlPending c.s c.key && ps.any (fun e => match e.2 with | .ctrl _ => true | _ => false)

/-! ### Loads -/

/-- The bytes of one access of a load. DESIGN CHOICE, log entry 6. -/
def loadPlace (c : Ctx) (sampler l2 uni : Bool) (s : State) (a : Acc) : Place → List Byte × State
  | .mem pa leaf =>
    if sampler then loadSampler s c.tm.core pa leaf a.n
    else
      let r := loadMem s c.tm.core pa leaf a.n l2
      let shown := shownTo s c.tm.core pa leaf
      (if uni then overlayGroup r.2 c.key none shown pa r.1 else overlayOwn r.2 c.key a.lane none shown pa r.1, r.2)
  | .ctrl off => (toBytes a.n (ctlRead s off a.n), s)
  | .scr t off =>
    let bs := loadScratch s t off a.n
    (if uni then overlayGroup s c.key (some t) [] off bs else overlayOwn s c.key a.lane (some t) [] off bs, s)
  | _ => (List.replicate a.n 0, s)

/-- The bytes of every access, in ascending lane order. DESIGN CHOICE, log entry 6. -/
def loadPlaces (c : Ctx) (sampler l2 uni : Bool) : List (Acc × Place) → State → List (Acc × Place × List Byte) × State
  | [], s => ([], s)
  | (a, p) :: rest, s =>
    let r := loadPlace c sampler l2 uni s a p
    let q := loadPlaces c sampler l2 uni rest r.2
    ((a, p, r.1) :: q.1, q.2)

/-- The poison word in each of `n` registers (04 R90). -/
def poisonRegs (n : Nat) : Nat := if n = 1 then 0x7F800001 else if n = 2 then 0x7F8000017F800001
  else 0x7F8000017F8000017F8000017F800001

/-- What an access leaves in `n` registers, under the policy of its page (12 R234). -/
def loadResult (n : Nat) (value : List Byte → Nat) (p : Place) (bs : List Byte) : Nat :=
  match p with
  | .zero => 0
  | .poison => poisonRegs n
  | _ => value bs

/-- The status bits of an access, under the policy of its page. -/
def policyFlags : Place → Nat
  | .zero => lsFaulted
  | .poison => lsFaulted + lsPoison
  | _ => 0

/-- A load per lane of `n` registers. -/
def loadLanes (c : Ctx) (o : OpM) (spaces : List Nat) (l2 : Bool) (bytes n : Nat) (value : List Byte → Nat) : Res :=
  if !acts c then noEffect c
  else match access c o (loadNeeds o spaces) (laneAccs c o bytes) with
  | .error r => r
  | .ok (ps, s) =>
    if ctrlWaits c ps || homeWaits c ps then .wait c.s
    else
      let r := loadPlaces c (o.space == 4) l2 false ps s
      .done r.2 (r.1.flatMap (fun e => wrN o.data n e.1.lane (loadResult n value e.2.1 e.2.2)))
        ((r.1.map (fun e => (e.1.lane, policyFlags e.2.1))).filter (fun e => e.2 != 0))

/-- One half of a 16-byte access, 0 or 1; a wide access to the control region reads zeros (26 R438). -/
def loadHalf (c : Ctx) (sampler l2 : Bool) (hi : Nat) (s : State) (a : Acc) : Place → List Byte × State
  | .mem pa leaf => loadPlace c sampler l2 false s { a with n := 8 } (.mem (pa + 8 * hi) leaf)
  | .scr t off => loadPlace c sampler l2 false s { a with n := 8 } (.scr t (off + 8 * hi))
  | _ => (List.replicate 8 0, s)

/-- The same half of every access, in ascending lane order. -/
def loadHalves (c : Ctx) (sampler l2 : Bool) (hi : Nat) : List (Acc × Place) → State → List (Acc × Place × List Byte) × State
  | [], s => ([], s)
  | (a, p) :: rest, s =>
    let r := loadHalf c sampler l2 hi s a p
    let q := loadHalves c sampler l2 hi rest r.2
    ((a, p, r.1) :: q.1, q.2)

/-- What the first half of `ldw.x4` got of an access. -/
def halfRead (e : Acc × Place × List Byte) : HalfRead := { acc := e.1, place := e.2.1, bytes := e.2.2 }

/-- The accesses of which the first half has been read, at the places that they were translated to (21 R394). -/
def halfPlaces (got : List HalfRead) : List (Acc × Place) := got.map (fun x => (x.acc, x.place))

/-- Half `hi` of a 16-byte access was read first: its bytes, with those of the other half. -/
def wholeBytes (hi : Nat) (first second : List Byte) : List Byte := if hi = 0 then first ++ second else second ++ first

/-- `ldw.x4` reads its halves one after the other, and other agents may act between them (11 R212); which comes first is left
open. The second half is read at the places of the first, whose policies hold for the whole access (12 R234, R239). DESIGN CHOICE,
log entries 6, 31. -/
def loadTwice (c : Ctx) (o : OpM) (l2 : Bool) : Res :=
  match c.f.stage with
  | .half hi got =>
    if placesLost c (halfPlaces got) then .kill 0x1F c.s
    else if homeWaits c (halfPlaces got) then .wait c.s
    else
      let r := loadHalves c (o.space == 4) l2 (1 - hi) (halfPlaces got) c.s
      .done r.2
        ((r.1.zip got).flatMap (fun e => wrN o.data 4 e.1.1.lane (loadResult 4 ofBytes e.1.2.1 (wholeBytes hi e.2.bytes e.1.2.2))))
        ((r.1.map (fun e => (e.1.lane, policyFlags e.2.1))).filter (fun e => e.2 != 0))
  | _ =>
    if !acts c then noEffect c
    else match access c o (loadNeeds o [0, 1, 2, 4]) (laneAccs c o 16) with
    | .error r => r
    | .ok (ps, s) =>
      if ctrlWaits c ps || homeWaits c ps then .wait c.s
      else
        let hi := Config.freeNat s.fresh % 2
        let r := loadHalves c (o.space == 4) l2 hi ps { s with fresh := s.fresh + 1 }
        .wait (setStage c r.2 (.half hi (r.1.map halfRead)))

/-- A load once, into uniform registers. DEDUCED, log entry 12. -/
def loadOnce (c : Ctx) (o : OpM) (l2 : Bool) (bytes n : Nat) (value : List Byte → Nat) : Res :=
  if !acts c then noEffect c
  else match access c o (loadNeeds o [0, 1, 2, 4]) (uniAccs c o bytes) with
  | .error r => wholeMask c r
  | .ok (ps, s) =>
    if ctrlWaits c ps || homeWaits c ps then .wait c.s
    else
      let r := loadPlaces c (o.space == 4) l2 true ps s
      .done r.2 (r.1.flatMap (fun e => wrN o.data n 0 (loadResult n value e.2.1 e.2.2)))
        (r.1.flatMap (fun e => (lanesOf c.pass).map (fun l => (l, policyFlags e.2.1)))
          |>.filter (fun e => e.2 != 0))

/-- The registers at DATA, as one number. -/
def rdData (c : Ctx) (o : OpM) (n lane : Nat) : Nat :=
  (upto n).foldl (fun acc i => acc + rdAt c o.data i lane * 2 ^ (32 * i)) 0

/-! ### Stores -/

/-- The single-copy atomic pieces of a store: 16 bytes are two halves (11 R212). -/
def pieces (bs : List Byte) : List (Nat × List Byte) :=
  if bs.length = 16 then [(0, bs.take 8), (8, bs.drop 8)] else [(0, bs)]

/-- Accept one store of a lane, which stands for those of the lanes `also`; its page's policy may discard it. A store to a
control register returns no completion time. DEDUCED, log entries 11, 30; DESIGN CHOICE, log entry 164. -/
def storePlace (c : Ctx) (l2 : Bool) (s : State) (lane also : Nat) (bs : List Byte) (after : Option Nat) : Place → State
  | .mem pa _ => (pieces bs).foldl (fun s e =>
      acceptStore s c.key lane also c.tm.core c.tm.ctx c.tm.launch (pa + e.1) l2 e.2 after) s
  | .ctrl off =>
    if after.isNone && !ctrlPending s c.key then ctlWrite s false off bs.length (ofBytes bs)
    else acceptStore s c.key lane also c.tm.core c.tm.ctx c.tm.launch (2 ^ 52 - 2 ^ 40 + off) false bs after
  | .scr t off => (pieces bs).foldl (fun s e =>
      acceptScratch s c.key lane also c.tm.core c.tm.ctx c.tm.launch t (off + e.1) e.2 after) s
  | _ => s

/-- Two accesses of an instruction are to the same bytes of memory or of a scratch. -/
def samePlace : Place → Place → Bool
  | .mem a _, .mem b _ => a == b
  | .scr t a, .scr u b => t == u && a == b
  | _, _ => false

/-- The stores that an instruction makes of its accesses: where several lanes write the same bytes, the last one's value stays,
and its store stands for theirs (11 R211). Answers the lanes that each stands for; `seen` are the accesses before. -/
def lastStores (seen : List (Acc × Place)) : List (Acc × Place) → List (Acc × Place × Nat)
  | [] => []
  | e :: rest =>
    let more := lastStores (seen ++ [e]) rest
    if rest.any (fun x => samePlace e.2 x.2) then more
    else (e.1, e.2, maskOf (((seen.filter (fun x => samePlace x.2 e.2)).map (fun x => x.1.lane)).eraseDups)) :: more

/-- Accept the stores of the lanes, in ascending order (11 R211). -/
def storePlaces (c : Ctx) (l2 : Bool) (after : Option Nat) (bytes : Acc → List Byte) (ps : List (Acc × Place)) (s : State) :
    State :=
  (lastStores [] ps).foldl (fun s e => storePlace c l2 s e.1.lane e.2.2 (bytes e.1) after e.2.1) s

/-- The lanes whose page's policy substitutes, with their status bits; a store under POISON sets FAULTED only. -/
def storeFlags (ps : List (Acc × Place)) : List (Nat × Nat) :=
  (ps.map (fun e => (e.1.lane, policyFlags e.2 &&& lsFaulted))).filter (fun e => e.2 != 0)

/-- A store per lane of `bytes` bytes from DATA. -/
def storeLanes (c : Ctx) (o : OpM) (l2 : Bool) (bytes n : Nat) : Res :=
  if !acts c then noEffect c
  else match access c o (storeNeeds [0, 1, 2]) (laneAccs c o bytes) with
  | .error r => r
  | .ok (ps, s) =>
    .done (storePlaces c l2 (storeGate s c.key) (fun a => toBytes bytes (rdData c o n a.lane)) ps s) [] (storeFlags ps)

/-- A store once, from uniform registers; it is made by no lane. -/
def storeOnce (c : Ctx) (o : OpM) (l2 : Bool) (bytes n : Nat) : Res :=
  if !acts c then noEffect c
  else match access c o (storeNeeds [0, 1, 2]) (uniAccs c o bytes) with
  | .error r => wholeMask c r
  | .ok (ps, s) =>
    let s1 := ps.foldl (fun s e => storePlace c l2 s 8 0 (toBytes bytes (rdData c o n 0)) (storeGate s c.key) e.2) s
    .done s1 [] (ps.flatMap (fun e => (lanesOf c.pass).map (fun l => (l, policyFlags e.2 &&& lsFaulted)))
      |>.filter (fun e => e.2 != 0))

/-- DATA as `n` consecutive registers. -/
def dataOpnd (o : OpM) (n : Nat) : Opnd := { reg := o.data, count := n, align := n }

/-! ### FIFO accesses (10 R201, R202; 12 R242) -/

/-- Bytes of an entry of a bank. -/
def fifoWidth (k : Bank) : Nat := 4 * 2 ^ k.width

/-- The bank that an access names. -/
def fifoOf (c : Ctx) (s : State) (a : Acc) : Bank := bank (cluster s (clusterOf c.tm.core)) a.ea

/-- The distinct banks of the accesses, in order of their first lane, each with its lanes. -/
def fifoBanks : List Acc → List (Nat × List Nat)
  | [] => []
  | a :: rest =>
    let r := fifoBanks rest
    let mine := ((r.find? (fun e => e.1 == a.ea)).map Prod.snd).getD []
    (a.ea, a.lane :: mine) :: r.filter (fun e => e.1 != a.ea)

/-- The DATA operand of a lane, at the width of its bank. -/
def fifoOpnd (c : Ctx) (s : State) (o : OpM) (dest : Bool) (a : Acc) : Opnd :=
  { dataOpnd o (fifoWidth (fifoOf c s a) / 4) with file := .vec, dest := dest }

/-- A waiting pop precedes a place, or any does when there is none; pushes wait for room only (10 R202). -/
def fifoBehind (k : Bank) (push : Bool) (ticket : Option Nat) : Bool :=
  match k.waits.filter (fun w => !push && !w.push) with
  | [] => false
  | w :: _ => some w.id != ticket

/-- The bank has room for, or holds, `n` entries. -/
def fifoReady (k : Bank) (push : Bool) (n : Nat) : Bool :=
  if push then decide (k.fifo.length + n ≤ 262144 / fifoWidth k) else decide (n ≤ k.fifo.length)

/-- Give a place among the waiters of each bank, or take it away. DEDUCED, log entry 14. -/
def fifoEnqueue (c : Ctx) (s : State) (id : Nat) (push : Bool) (bs : List (Nat × List Nat)) : State :=
  bs.foldl (fun s e =>
    let k := bank (cluster s (clusterOf c.tm.core)) e.1
    setBank s (clusterOf c.tm.core) e.1 { k with waits := k.waits ++ [{ id := id, group := c.key, push := push, count := e.2.length }] }) s

def fifoDequeue (c : Ctx) (s : State) (id : Nat) (bs : List (Nat × List Nat)) : State :=
  bs.foldl (fun s e =>
    let k := bank (cluster s (clusterOf c.tm.core)) e.1
    setBank s (clusterOf c.tm.core) e.1 { k with waits := k.waits.filter (fun w => w.id != id) }) s

/-- The ticket of an instruction that waits. -/
def ticketOf : Stage → Option Nat
  | .ticket id => some id
  | _ => none

/-- Append one entry per lane to each bank, ascending. -/
def fifoPushAll (c : Ctx) (o : OpM) (s : State) (bs : List (Nat × List Nat)) : State :=
  bs.foldl (fun s e =>
    let k := bank (cluster s (clusterOf c.tm.core)) e.1
    let w := fifoWidth k
    setBank s (clusterOf c.tm.core) e.1 { k with fifo := k.fifo ++ e.2.map (fun l => toBytes w (rdData c o (w / 4) l)) }) s

/-- The register writes of the oldest entries: the lowest lane receives the oldest. -/
def fifoWrites (c : Ctx) (o : OpM) (s : State) (bs : List (Nat × List Nat)) : List RegWrite :=
  bs.flatMap (fun e =>
    let k := bank (cluster s (clusterOf c.tm.core)) e.1
    (e.2.zip k.fifo).flatMap (fun x => wrN o.data (fifoWidth k / 4) x.1 (ofBytes x.2)))

/-- The registers of a FIFO access, at the widths of the banks that its lanes name (R242). -/
def fifoNames (c : Ctx) (o : OpM) (dest : Bool) : List RegName :=
  match access c o { spaces := [3] } (laneAccs c o 4) with
  | .error _ => []
  | .ok (_, s) => (laneAccs c o 4).flatMap (fun a => (fifoOpnd c s o dest a).names)

/-- Remove as many entries from each bank as it serves lanes. -/
def fifoDropAll (c : Ctx) (s : State) (bs : List (Nat × List Nat)) : State :=
  bs.foldl (fun s e =>
    let k := bank (cluster s (clusterOf c.tm.core)) e.1
    setBank s (clusterOf c.tm.core) e.1 { k with fifo := k.fifo.drop e.2.length }) s

/-- Checks of a FIFO access and its wait; `place` gives it a place among the waiters. Then its effect. DEDUCED, log entry 14. Where
its lanes name several banks, it waits until every one is ready and serves all of them in one step. DESIGN CHOICE, log entry 176. -/
def fifoAccess (c : Ctx) (o : OpM) (push place : Bool) (effect : State → List (Nat × List Nat) → Res) : Res :=
  if !acts c then noEffect c
  else match access c o { spaces := [3] } (laneAccs c o 4) with
  | .error r => r
  | .ok (_, s) =>
    let as := laneAccs c o 4
    let bad := failing as (fun a => (fifoOpnd c s o (!push) a).legal c.g)
    let bs := fifoBanks as
    let kof (e : Nat × List Nat) : Bank := bank (cluster s (clusterOf c.tm.core)) e.1
    let ticket := ticketOf c.f.stage
    if bad ≠ 0 then .trap (trapOf 0x03 bad) s
    else if as.any (fun a => (fifoOpnd c s o (!push) a).names.any (fun n => (held c.g).contains n)) then .wait c.s
    else if bs.all (fun e => fifoReady (kof e) push e.2.length && !(place && fifoBehind (kof e) push ticket)) then
      effect (match ticket with | some id => fifoDequeue c s id bs | none => s) bs
    else if place && ticket.isNone then
      .wait (setStage c (fifoEnqueue c { s with uid := s.uid + 1 } s.uid push bs) (.ticket s.uid))
    else .wait s

end Ops

/-- `ld` (R238). -/
def execLd (h : Hdr) (o : OpM) (s : State) : Host.Outcome State Fault Refusal :=
  let f := Checks.fmt h
  run (.ld h o) h mMem ([{ dataOpnd o (fmtRegs f) with file := .vec, dest := true }] ++ addrOpnds o) []
    (fun c => loadLanes c o [0, 1, 2, 4] (l2Only h) (fmtBytes f) (fmtRegs f) (fmtLoad f)) s

/-- `st` (R238). -/
def execSt (h : Hdr) (o : OpM) (s : State) : Host.Outcome State Fault Refusal :=
  let f := Checks.fmt h
  run (.st h o) h mStore ([dataOpnd o (fmtRegs f)] ++ addrOpnds o) []
    (fun c => storeLanes c o (l2Only h) (fmtBytes f) (fmtRegs f)) s

/-- `ldacq`: its acquire completes with the binding of its reads, which is at issue (R240, 11 R220).
DEDUCED, log entry 29. -/
def execLdacq (h : Hdr) (o : OpM) (s : State) : Host.Outcome State Fault Refusal :=
  let f := Checks.fmt h
  run (.ldacq h o) h mMem ([{ dataOpnd o (fmtRegs f) with file := .vec, dest := true }] ++ addrOpnds o) []
    (fun c => loadLanes c o [0, 1, 2] (l2Only h) (fmtBytes f) (fmtRegs f) (fmtLoad f)) s

/-- `strel`: a release, then the stores of `st` (R240, 11 R219). -/
def execStrel (h : Hdr) (o : OpM) (s : State) : Host.Outcome State Fault Refusal :=
  let f := Checks.fmt h
  run (.strel h o) h mStore ([dataOpnd o (fmtRegs f)] ++ addrOpnds o) [] (fun c =>
    if !acts c then noEffect c
    else match access c o (storeNeeds [0, 1, 2]) (laneAccs c o (fmtBytes f)) with
    | .error r => r
    | .ok (ps, s) =>
      let r := beginRelease s c h.sc.toNat 0
      .done (storePlaces c (l2Only h) (some r.1) (fun a => toBytes (fmtBytes f) (rdData c o (fmtRegs f) a.lane)) ps r.2) []
        (storeFlags ps)) s

/-- `ldk` (R238). -/
def execLdk (h : Hdr) (o : OpM) (s : State) : Host.Outcome State Fault Refusal :=
  let f := Checks.fmt h
  run (.ldk h o) h mMem ([{ dataOpnd o (fmtRegs f) with file := .uni, dest := true }] ++ (addrOpnds o).map Opnd.inUni) []
    (fun c => loadOnce c o (l2Only h) (fmtBytes f) (fmtRegs f) (fmtLoad f)) s

/-- `stk` (R238). -/
def execStk (h : Hdr) (o : OpM) (s : State) : Host.Outcome State Fault Refusal :=
  let f := Checks.fmt h
  run (.stk h o) h mStore ([{ dataOpnd o (fmtRegs f) with file := .uni }] ++ (addrOpnds o).map Opnd.inUni) []
    (fun c => storeOnce c o (l2Only h) (fmtBytes f) (fmtRegs f)) s

/-- `ldw` (R239). -/
def execLdw (h : Hdr) (o : OpM) (s : State) : Host.Outcome State Fault Refusal :=
  let n := wideRegs h
  run (.ldw h o) h mMem ([{ dataOpnd o n with file := .vec, dest := true }] ++ addrOpnds o) []
    (fun c => if n = 2 then loadLanes c o [0, 1, 2, 4] (l2Only h) 8 2 ofBytes else loadTwice c o (l2Only h)) s

/-- `stw` (R239). -/
def execStw (h : Hdr) (o : OpM) (s : State) : Host.Outcome State Fault Refusal :=
  let n := wideRegs h
  run (.stw h o) h mStore ([{ dataOpnd o n with file := .vec }] ++ addrOpnds o) [] (fun c => storeLanes c o (l2Only h) (4 * n) n) s

/-- `fpush` (R242). -/
def execFpush (h : Hdr) (o : OpM) (s : State) : Host.Outcome State Fault Refusal :=
  run (.fpush h o) h mCopy ([(src o.data).inVec] ++ addrOpnds o) []
    (fun c => fifoAccess c o true true (fun s bs => .done (kickBanks (fifoPushAll c o s bs) (clusterOf c.tm.core)) [] [])) s

/-- `fpop` (R242). -/
def execFpop (h : Hdr) (o : OpM) (s : State) : Host.Outcome State Fault Refusal :=
  run (.fpop h o) h mSysC ([(dst o.data).inVec] ++ addrOpnds o) []
    (fun c => fifoAccess c o false true
      (fun s bs => .done (kickBanks (fifoDropAll c s bs) (clusterOf c.tm.core)) (fifoWrites c o s bs) [])) s

/-- `fpeek` (R242). -/
def execFpeek (h : Hdr) (o : OpM) (s : State) : Host.Outcome State Fault Refusal :=
  run (.fpeek h o) h mSys ([(dst o.data).inVec] ++ addrOpnds o) []
    (fun c => fifoAccess c o false false (fun s bs => .done s (fifoWrites c o s bs) [])) s

/-- `pref`: the line is filled where the address serves an aligned word; nothing else happens, and nothing traps (R243).
DEDUCED, log entry 26. -/
def execPref (h : Hdr) (o : OpM) (s : State) : Host.Outcome State Fault Refusal :=
  run (.pref h o) h mMem (addrOpnds o) [] (fun c =>
    if !acts c then noEffect c
    else if o.space != 0 && o.space != 4 then illegal c c.s
    else .done ((laneAccs c o 4).foldl (fun s a =>
      if a.ea % 4 ≠ 0 then s
      else match translate s c.tm.ctx (dieOf c.tm.core) none (core s c.tm.core).tlb a.ea 0 0 0 false with
        | .ok pa leaf _ _ =>
          if windowOf pa = .control ∨ (homeDie s (dieOf c.tm.core) pa).isNone then s
          else if o.space == 4 then (loadSampler s c.tm.core pa leaf 4).2
          else (loadMem s c.tm.core pa leaf 4 (l2Only h)).2
        | _ => s) c.s) [] []) s

/-- FIFO_WAIT_SERVED: the waiting pushes and the first waiting pop of a bank try again (10 R202). -/
def execFifoWaitServed (cluster bank : Nat) (s : State) : Host.Outcome State Fault Refusal :=
  let ws := (Ops.bank (Ops.cluster s cluster) bank).waits
  let acts_ := (ws.filter (fun w => w.push) ++ (ws.filter (fun w => !w.push)).take 1).flatMap (fun w => match group? s w.group with
    | none => []
    | some g => (g.frags.filter (fun e => e.2.stage == .ticket w.id)).map (fun e => Act.wake w.group e.1))
  .next { s with agenda := s.agenda ++ acts_ }

end Sys2Proof.Machine
end

