-- ==== Sys2Proof/Machine/Atomic.lean ====
section
/-! DEFINITION. The meanings of class 0xA: atomics and reductions at the home (12 R244 to R250), fences and waits (R251; 11
R219 to R225), gathers and scatters (R252, R253), cache control (R254), and the memory events: performing a store,
completing a release, landing a result. -/

namespace Sys2Proof.Machine

open Sys2Proof.Bits
open Sys2Proof.Num
open Ops

namespace Ops

/-! ### Operations at the home (12 R245) -/

/-- An integer operation: 0 add to 7 incw. -/
def atomInt (op fmt old b : Nat) : Nat :=
  if op = 0 then Alu.add fmt false old b
  else if op = 1 then Alu.min fmt old b
  else if op = 2 then Alu.max fmt old b
  else if op = 3 then old &&& b
  else if op = 4 then old ||| b
  else if op = 5 then old ^^^ b
  else if op = 6 then b
  else if b ≤ old then 0 else old + 1

/-- A float operation on one element: 0 add, 1 min, 2 max. -/
def atomElem (f : FFmt) (op old b : Nat) : Nat :=
  if op = 0 then (Alu.fadd f 0 old b).bits
  else
    let up := 32 - f.width
    (Alu.fminmax (op == 2) (old * 2 ^ up) (b * 2 ^ up)).bits / 2 ^ up

/-- A float operation: f32, or two bf16 elements. -/
def atomFloat (op fmt old b : Nat) : Nat :=
  if fmt = 10 then atomElem f32 op old b
  else atomElem bf16 op (field old 0 16) (field b 0 16) + 2 ^ 16 * atomElem bf16 op (field old 16 16) (field b 16 16)

/-- One single-copy atomic step at the home: answers the old value and the completion times. It is a store for R217, also
when it writes nothing; then the copies near the issuer take the value read (11 R213). -/
def homeAt (s : State) (core pa n : Nat) (f : Nat → Option Nat) : Nat × (Nat → Nat) × State :=
  match homeDie s (dieOf core) pa with
  | none => (0, fun _ => 0, s)
  | some home =>
    let old := readNat s pa n
    match f old with
    | none => (old, fun scope => ctOf s core home (pa / 128) scope none, noteRead s core pa (toBytes n old))
    | some v => (old, fun scope => ctOf s core home (pa / 128) scope (updatedNow s core (pa / 128)),
        writeHome (backInvalidate s pa) core 0 pa (toBytes n v))

/-- The same for a group, which receives the completion times. -/
def homeStep (s : State) (key core launch pa n : Nat) (f : Nat → Option Nat) : Nat × State :=
  let r := homeAt s core pa n f
  (r.1, returnCt r.2.2 key s.uid launch r.2.1)

/-- The step on one lane's place; a register of the control region is read and written whole, and BANKMODE takes no other
operation than the exchange (R246). DEDUCED, log entry 10. -/
def placeStep (c : Ctx) (s : State) (n : Nat) (f : Nat → Option Nat) : Place → Nat × State
  | .mem pa _ => homeStep s c.key c.tm.core c.tm.launch pa n f
  | .scr t off =>
    let old := ofBytes (loadScratch s t off n)
    (old, match f old with | none => s | some v => storeScratch s t off (toBytes n v))
  | .ctrl off =>
    if (bankmodeAt off).isSome then (0, s)
    else
      let old := ctlRead s off n
      (old, match f old with | none => s | some v => ctlWrite s false off n v)
  | .poison => (poisonRegs (n / 4), s)
  | _ => (0, s)

/-- The steps of the lanes, in ascending order; answers the old values. DEDUCED, log entry 10. -/
def placeSteps (c : Ctx) (n : Nat) (f : Nat → Nat → Option Nat) : List (Acc × Place) → State →
    List (Acc × Place × Nat) × State
  | [], s => ([], s)
  | (a, p) :: rest, s =>
    let r := placeStep c s n (f a.lane) p
    let q := placeSteps c n f rest r.2
    ((a, p, r.1) :: q.1, q.2)

/-- A step at its home cannot be performed yet: an overlapping store of the die from before number `id` is pending, or the page
migrates. -/
def stepsWait (c : Ctx) (s : State) (id : Nat) (ps : List (Acc × Place)) : Bool :=
  ps.any (fun e => match e.2 with
    | .mem pa _ => overlapping s (dieOf c.tm.core) none pa e.1.n id || migrating s pa
    | .scr t off => s.stores.any (fun q => decide (q.id < id) && q.scratch == some t && meets q.pa q.bytes.length off e.1.n)
    | _ => false)

/-- An atomic cannot be performed yet: its steps cannot, an earlier store to the control region is pending, or a release of the
group holds its later stores back. -/
def stepBlocked (c : Ctx) (s : State) (ps : List (Acc × Place)) : Bool :=
  (storeGate s c.key).isSome || ctrlWaits c ps || stepsWait c s s.uid ps

/-- What atomics and reductions need (21 R392). -/
def atomNeeds : Needs := { spaces := [0, 1, 2], rd := 1, wr := 1, access := 11, stamped := false }
def redNeeds (spaces : List Nat) : Needs := { spaces := spaces, wr := 1, access := 10, stamped := false, ctrl := false }

/-- Status bits of the lanes of an atomic. -/
def stepFlags (ps : List (Acc × Place)) : List (Nat × Nat) :=
  (ps.map (fun e => (e.1.lane, policyFlags e.2))).filter (fun e => e.2 != 0)

/-- The old values as register writes. -/
def stepWrites (o : OpM) (regs : Nat) (rs : List (Acc × Place × Nat)) : List RegWrite :=
  rs.flatMap (fun e => wrN o.data regs e.1.lane e.2.2)

/-- An atomic of `n` bytes that returns the old value in `n / 4` registers. -/
def atomLanes (c : Ctx) (o : OpM) (n : Nat) (f : Nat → Nat → Option Nat) : Res :=
  if !acts c then noEffect c
  else match access c o atomNeeds (laneAccs c o n) with
  | .error r => r
  | .ok (ps, s) =>
    if stepBlocked c s ps then .wait s
    else
      let r := placeSteps c n f ps s
      .done r.2 (stepWrites o (n / 4) r.1) (stepFlags ps)

/-! ### The exchange on BANKMODE (10 R198) -/

/-- The bank of an access that is a BANKMODE register. -/
def bankOf : Place → Option (Nat × Nat)
  | .ctrl off => bankmodeAt off
  | _ => none

/-- Make the lanes' mode requests, in ascending lane order. -/
def requestModes (c : Ctx) (v : Nat → Nat) (ps : List (Acc × Place)) (s : State) : State :=
  ps.foldl (fun s e => match bankOf e.2 with
    | some b => requestMode s b.1 b.2 (v e.1.lane) (some (c.key, e.1.lane))
    | none => s) s

/-- Forget the outcomes of the lanes of this instruction; those of other fragments stay. -/
def forgetModes (c : Ctx) (s : State) : State :=
  modGroup s c.key (fun g => { g with modeDone := g.modeDone.filter (fun e => !c.pass.testBit e.1) })

/-- The outcomes of the lanes' requests: a trap, the wait, or completion, when the other lanes' exchanges are made. Where some lanes'
requests were rejected and others timed out, ILLEGAL_OPERAND is the trap, whatever the order of the lanes. DESIGN CHOICE, log entry
170. -/
def modesDone (c : Ctx) (o : OpM) (v : Nat → Nat) (id : Nat) (ps : List (Acc × Place)) (s : State) : Res :=
  let modes := ps.filter (fun e => (bankOf e.2).isSome)
  let others := ps.filter (fun e => (bankOf e.2).isNone)
  let out : List (Nat × Nat) := match group? s c.key with | some g => g.modeDone.filter (fun e => c.pass.testBit e.1) | none => []
  let clear := forgetModes c s
  let of (code : Nat) : Nat := maskOf ((out.filter (fun e => e.2 == code)).map Prod.fst)
  if !modes.all (fun e => out.any (fun x => x.1 == e.1.lane)) then .wait s
  else if of (2 ^ 32 + 1) ≠ 0 then .trap (trapOf 0x03 (of (2 ^ 32 + 1))) clear
  else if of (2 ^ 32) ≠ 0 then .trap (trapOf 0x08 (of (2 ^ 32))) clear
  else if stepsWait c s id others then .wait s
  else
    let r := placeSteps c 4 (fun l _ => some (v l)) others clear
    let olds := modes.flatMap (fun e => wrN o.data 1 e.1.lane (((out.find? (fun x => x.1 == e.1.lane)).map Prod.snd).getD 0))
    .done r.2 (olds ++ stepWrites o 1 r.1) (stepFlags ps)

/-- The 32-bit exchange, which on BANKMODE makes mode requests, behind the group's earlier stores to the control region (26
R438). As any `atom` it closes a region when it completes (05 R104). The other lanes' exchanges are made at the places that they
were translated to (21 R394). -/
def exchange (c : Ctx) (o : OpM) : Res :=
  let v (l : Nat) : Nat := rd c o.data l
  match c.f.stage with
  | .mode id ps => if placesLost c ps then .kill 0x1F c.s else modesDone c o v id ps c.s
  | _ =>
    if !acts c then noEffect c
    else match access c o atomNeeds (laneAccs c o 4) with
    | .error r => r
    | .ok (ps, s) =>
      if !ps.any (fun e => (bankOf e.2).isSome) then atomLanes c o 4 (fun l _ => some (v l))
      else if stepBlocked c s ps then .wait s
      else
        let s1 := forgetModes c { s with uid := s.uid + 1 }
        modesDone c o v s.uid ps (setStage c (requestModes c v ps s1) (.mode s.uid ps))

/-! ### Deterministic reductions (11 R223, 12 R249, R250) -/

/-- Order of two entries: (group, lane, sequence). -/
def detBefore (a b : DetEntry) : Bool :=
  decide (a.group < b.group) || (a.group == b.group && (decide (a.lane < b.lane) || (a.lane == b.lane && decide (a.seq ≤ b.seq))))

/-- Insert an entry in its place. -/
def detInsert (x : DetEntry) : List DetEntry → List DetEntry
  | [] => [x]
  | y :: ys => if detBefore x y then x :: y :: ys else y :: detInsert x ys

/-- Sort entries by key. -/
def detSort (es : List DetEntry) : List DetEntry := es.foldr detInsert []

/-- The value that an entry makes of the old one. -/
def detValue (x : DetEntry) (old : Nat) : Nat :=
  if x.float then atomFloat x.op x.fmt old x.operand else atomInt x.op x.fmt old x.operand

/-- The bytes of an entry's location. -/
def detBytes (x : DetEntry) : Nat := if x.fmt = 3 ∨ x.fmt = 7 then 8 else 4

/-- The drain of a team cannot be performed yet. -/
def detsBlocked (s : State) (tm : Team) : Bool :=
  tm.dets.any (fun x => migrating s x.pa || overlapping s (dieOf tm.core) none x.pa (detBytes x) s.uid)

/-- Drain a team's entries in key order; the completion times of an entry go to its group and to the group that flushes. An
entry whose memory has no home any more ends the context (26 R444, R445). DEDUCED, log entry 133. -/
def drainDets (s : State) (team : Nat) (flusher : Option Nat) : State :=
  match team? s team with
  | none => s
  | some tm =>
    (detSort tm.dets).foldl (fun s x =>
      if (team? s team).isNone then s
      else if (homeDie s (dieOf tm.core) x.pa).isNone then terminate s tm.ctx 0x1F
      else
      let r := homeAt s tm.core x.pa (detBytes x) (fun old => some (detValue x old))
      let s1 := returnCt r.2.2 (groupKey team x.group) s.uid tm.launch r.2.1
      match flusher with
      | some k => modGroup s1 k (fun f => mergeCr f r.2.1)
      | none => s1) (modTeam s team (fun t => { t with dets := [] }))

/-- The group has issued one more DET = 1 reduction (R249). -/
def countDet (s : State) (key : Nat) : State := modGroup s key (fun g => { g with detSeq := g.detSeq + 1 })

/-- `red` or `redf`: at the home, or appended to the buffer with DET. A reduction whose guard holds in no lane is issued too,
and counts for the sequence (R249). -/
def redLanes (c : Ctx) (o : OpM) (h : Hdr) (float det : Bool) : Res :=
  let fmt := Checks.fmt h
  let op := if float then field h.mod.toNat 0 2 else field h.mod.toNat 0 3
  let regs := fmtRegs fmt
  let step (l old : Nat) : Option Nat := some (if float then atomFloat op fmt old (rdData c o regs l) else atomInt op fmt old (rdData c o regs l))
  if !acts c then .done (if det then countDet c.s c.key else c.s) [] []
  else match access c o (redNeeds (if det then [0] else [0, 1, 2])) (laneAccs c o (4 * regs)) with
  | .error r => r
  | .ok (ps, s) =>
    if det then
      let entry (e : Acc × Place) : List DetEntry := match e.2 with
        | .mem pa _ => [{ group := c.g.idx, lane := e.1.lane, seq := c.g.detSeq, pa := pa, float := float, fmt := fmt, op := op,
                          operand := rdData c o regs e.1.lane }]
        | _ => []
      let es := ps.flatMap entry
      if 4096 < c.tm.dets.length + es.length then .trap (trapOf 0x09 c.active) s
      else .done (countDet (modTeam s c.g.team (fun t => { t with dets := t.dets ++ es })) c.key) [] (storeFlags ps)
    else if stepBlocked c s ps then .wait s
    else .done (placeSteps c (4 * regs) step ps s).2 [] (storeFlags ps)

/-! ### Scopes over cores (12 R251, R254) -/

/-- A core lies inside a scope of an issuing core; lane, group and team cover that core only. -/
def coreIn (scope core k : Nat) : Bool :=
  if scope ≤ 2 then k == core
  else if scope = 3 then clusterOf k == clusterOf core
  else if scope = 4 then dieOf k == dieOf core
  else true

/-- Change every core inside a scope. -/
def modCores (s : State) (scope core : Nat) (f : Core → Core) : State :=
  { s with cores := s.cores.map (fun (e : Nat × Core) => if coreIn scope core e.1 then (e.1, f e.2) else e) }

/-- Drop the sampler lines of the cores inside a scope (11 R225). DEDUCED, log entry 27. -/
def dropSampler (s : State) (scope core : Nat) : State := modCores s scope core (fun k => { k with smlines := [] })

/-! ### Cache control (12 R254) -/

/-- A line of 2^size bytes is named by the line or block that holds an address. -/
def namedBy (blk : Bool) (pa at_ : Nat) : Bool := if blk then at_ / 4096 == pa / 4096 else at_ / 128 == pa / 128

/-- A holder inside a scope; the L2 that serves the cluster counts from lane scope on. DEDUCED, log entry 171. -/
def holderIn (scope core holder : Nat) : Bool := serves core scope holder

/-- Translate the lanes' addresses without needs; those that fail are passed over. Answers the physical addresses. -/
def cachePas (c : Ctx) (o : OpM) (spaces : List Nat) : Except Res (List Nat × State) :=
  let as := laneAccs c o 1
  let bad := failing as (fun a => canonical a.ea)
  if !spaces.contains o.space.toNat then .error (.trap (trapOf 0x03 c.active) c.s)
  else if bad ≠ 0 then .error (.trap { code := 0x06, cause := 0x00, lanes := bad, info := failAddr as (fun a => canonical a.ea) } c.s)
  else
    let r := translateAll c { spaces := spaces, ctrl := false } as c.s
    if r.1.any (fun e => e.2 == .broken) then .error (.kill 0x1F r.2)
    else if r.1.any (fun e => e.2 == .undecided) then .error (.wait r.2)
    else .ok (r.1.flatMap (fun e => match e.2 with | .ok pa _ _ _ => [pa] | _ => []), r.2)

/-- Some copy inside the scope of a named line is dirty, or a store to a named host line is under way. -/
def stillDirty (s : State) (scope core : Nat) (blk : Bool) (pas : List Nat) : Bool :=
  s.copies.any (fun x => !x.dirty.isEmpty && holderIn scope core x.holder && pas.any (fun pa => namedBy blk pa (x.line * 128))) ||
    s.stores.any (fun p => p.scratch.isNone && p.after.isNone && windowOf p.pa == .host && coreIn (max scope 4) core p.core &&
      pas.any (fun pa => namedBy blk pa p.pa))

/-- Give up the ownership of named host lines held by the dies inside a scope. -/
def giveUp (s : State) (scope core : Nat) (blk : Bool) (pas : List Nat) : State :=
  { s with hostLines := s.hostLines.filter (fun e =>
      !((5 ≤ scope || e.2 == dieOf core) && pas.any (fun pa => namedBy blk pa (e.1 * 128)))) }

/-- Drop the clean copies of named lines inside a scope. -/
def dropNamed (s : State) (scope core : Nat) (blk : Bool) (pas : List Nat) : State :=
  { s with copies := s.copies.filter (fun x =>
      !(x.dirty.isEmpty && holderIn scope core x.holder && pas.any (fun pa => namedBy blk pa (x.line * 128)))) }

/-- Bytes without a stated value. DESIGN CHOICE, log entry 4. -/
def freeBytes (s : State) (n : Nat) : List Byte × State :=
  ((upto n).map (fun i => Config.freeByte (s.fresh + i)), { s with fresh := s.fresh + n })

/-- A byte that a `cdisc` leaves: the one there, or one that it held before; which, the spec leaves open.
DESIGN CHOICE, log entry 25. -/
def someOld (s : State) (a i : Nat) : Byte :=
  let olds := readByte s a :: Maps.get [] a s.hist
  olds.getD (Config.freeNat (s.fresh + i) % olds.length) 0

/-- Discard the contents of one line. -/
def discardLine (c : Ctx) (s : State) (line : Nat) : State :=
  let bs := (upto 128).map (fun i => someOld s (line * 128 + i) i)
  (homeStep { s with fresh := s.fresh + 128 } c.key c.tm.core c.tm.launch (line * 128) 128 (fun _ => some (ofBytes bs))).2

/-- The lines that the lanes of a `cdisc` name, each once. -/
def namedLines (blk : Bool) (pas : List Nat) : List Nat :=
  ((pas.map (fun pa => if blk then pa / 4096 * 32 else pa / 128)).eraseDups).flatMap
    (fun l => if blk then (upto 32).map (fun i => l + i) else [l])

/-- `.blk` in MOD[3:0]. -/
def isBlk (h : Hdr) : Bool := Checks.lo4 h == 1

/-! ### Gathers and scatters (12 R252, R253) -/

/-- The address of word j of a lane. -/
def gatherEa (c : Ctx) (o : OpM) (lane j : Nat) : Nat :=
  wrap 64 ((rdPair c o.base lane : Int) + 4 * (rdAt c o.data j lane : Int) + sext 24 o.offset.toNat)

/-- The accesses of every lane whose guard holds, word by word. -/
def gatherAccs (c : Ctx) (o : OpM) : List Acc :=
  (lanesOf c.pass).flatMap (fun l => (upto 8).map (fun j => { lane := l, j := j, ea := gatherEa c o l j, n := 4 }))

/-- A word read at its home. -/
def gatherWord (c : Ctx) (s : State) (a : Acc) : Place → Nat
  | .mem pa leaf =>
    let home := (homeDie s (dieOf c.tm.core) pa).getD 0
    let bs := if leaf.testBit 61 then ((latestVisible s home (pa / 128)).bytes.drop (pa % 128)).take 4 else readBytes s pa 4
    ofBytes (overlayOwn s c.key a.lane none [] pa bs)
  | .poison => 0x7F800001
  | _ => 0

/-- A store to a word that an agent near the reader may have read is on its way to the home (11 R213). -/
def wordWaits (c : Ctx) (e : Acc × Place) : Bool :=
  match e.2 with
  | .mem pa leaf => !leaf.testBit 61 && ahead c.s c.tm.core pa 4
  | _ => false

/-- The copies near the reader after a word has been read at its home (11 R213). -/
def noteWord (c : Ctx) (s : State) (e : Acc × Place) : State :=
  match e.2 with
  | .mem pa leaf => if leaf.testBit 61 then s else noteRead s c.tm.core pa (readBytes s pa 4)
  | _ => s

end Ops

/-- `atom` (R246). -/
def execAtom (h : Hdr) (o : OpM) (s : State) : Host.Outcome State Fault Refusal :=
  let f := Checks.fmt h
  let op := field h.mod.toNat 0 3
  run (.atom h o) h mStoreC ([{ dataOpnd o (fmtRegs f) with file := .vec, dest := true }] ++ addrOpnds o) [] (fun c =>
    if op = 6 ∧ fmtRegs f = 1 then exchange c o
    else atomLanes c o (4 * fmtRegs f) (fun l old => some (atomInt op f old (rdData c o (fmtRegs f) l)))) s

/-- `atomcas` (R247). -/
def execAtomcas (h : Hdr) (o : OpM) (s : State) : Host.Outcome State Fault Refusal :=
  let n := fmtRegs (Checks.fmt h)
  run (.atomcas h o) h mStoreC ([{ reg := o.data, count := n, align := 2 * n, file := .vec, dest := true },
      { dataOpnd o (2 * n) with file := .vec }] ++ addrOpnds o) [] (fun c =>
    atomLanes c o (4 * n) (fun l old =>
      let x := rdData c o (2 * n) l
      if old = field x 0 (32 * n) then some (field x (32 * n) (32 * n)) else none)) s

/-- `atomf` (R245, R246). -/
def execAtomf (h : Hdr) (o : OpM) (s : State) : Host.Outcome State Fault Refusal :=
  run (.atomf h o) h mStoreC ([{ dst o.data with file := .vec }] ++ addrOpnds o) []
    (fun c => atomLanes c o 4 (fun l old => some (atomFloat (field h.mod.toNat 0 2) (Checks.fmt h) old (rd c o.data l)))) s

/-- `red` without DET (R248). -/
def execRed (h : Hdr) (o : OpM) (s : State) : Host.Outcome State Fault Refusal :=
  run (.red h o) h mStoreC ([dataOpnd o (fmtRegs (Checks.fmt h))] ++ addrOpnds o) [] (fun c => redLanes c o h false false) s

/-- `red.det` (R249). -/
def execRedDet (h : Hdr) (o : OpM) (s : State) : Host.Outcome State Fault Refusal :=
  run (.redDet h o) h mStoreC ([dataOpnd o (fmtRegs (Checks.fmt h))] ++ addrOpnds o) [] (fun c => redLanes c o h false true) s

/-- `redf` without DET (R248). -/
def execRedf (h : Hdr) (o : OpM) (s : State) : Host.Outcome State Fault Refusal :=
  run (.redf h o) h mStoreC ([src o.data] ++ addrOpnds o) [] (fun c => redLanes c o h true false) s

/-- `redf.det` (R249). -/
def execRedfDet (h : Hdr) (o : OpM) (s : State) : Host.Outcome State Fault Refusal :=
  run (.redfDet h o) h mStoreC ([src o.data] ++ addrOpnds o) [] (fun c => redLanes c o h true true) s

/-- `dflush` (R250). -/
def execDflush (h : Hdr) (o : OpS) (s : State) : Host.Outcome State Fault Refusal :=
  run (.dflush h o) h mMem [] [] (fun c =>
    if !acts c || c.tm.dets.isEmpty then noEffect c
    else if detsBlocked c.s c.tm || (storeGate c.s c.key).isSome then .wait c.s
    else .done (drainDets c.s c.g.team (some c.key)) [] []) s

/-- `fence.acq`: earlier loads have bound their values at issue; where some have begun and are not complete, every later access of
the group waits for them (11 R220, R222), and instructions that are none may issue (R251). DEDUCED, log entries 29, 151. -/
def execFenceAcq (h : Hdr) (o : OpS) (s : State) : Host.Outcome State Fault Refusal :=
  run (.fenceAcq h o) h mMem [] [] (fun c =>
    if acts c && accessOpen c.s c.key then
      let r := beginRelease c.s c h.sc.toNat 2
      .done { r.2 with rels := r.2.rels.map (fun x => if x.id = r.1 then { x with acq := true } else x) } [] []
    else noEffect c) s

/-- `fence.rel`: later stores of the group wait for the release (11 R222). -/
def execFenceRel (h : Hdr) (o : OpS) (s : State) : Host.Outcome State Fault Refusal :=
  run (.fenceRel h o) h mMem [] [] (fun c =>
    if acts c then .done (beginRelease c.s c h.sc.toNat 1).2 [] [] else noEffect c) s

/-- `fence.ar`: every later access of the group waits for the release (11 R222). -/
def execFenceAr (h : Hdr) (o : OpS) (s : State) : Host.Outcome State Fault Refusal :=
  run (.fenceAr h o) h mMem [] [] (fun c =>
    if acts c then .done (beginRelease c.s c h.sc.toNat 2).2 [] [] else noEffect c) s

/-- `fence.smp`: the sampler lines inside the scope are dropped, and the wait of R225 begins. DEDUCED, log entry 27. -/
def execFenceSmp (h : Hdr) (o : OpS) (s : State) : Host.Outcome State Fault Refusal :=
  run (.fenceSmp h o) h mMem [] [] (fun c =>
    if acts c then
      let r := beginRelease (dropSampler c.s h.sc.toNat c.tm.core) c h.sc.toNat 2
      .done { r.2 with rels := r.2.rels.map (fun x => if x.id = r.1 then { x with smp := some c.tm.core } else x) } [] []
    else noEffect c) s

/-- `fwait`: the group issues nothing until the release holds (R251). -/
def execFwait (h : Hdr) (o : OpS) (s : State) : Host.Outcome State Fault Refusal :=
  run (.fwait h o) h { waits := true } [] [] (fun c =>
    match c.f.stage with
    | .release id => if released c.s id then noEffect c else .wait c.s
    | _ =>
      if !acts c then noEffect c
      else
        let r := beginRelease c.s c h.sc.toNat 3
        .wait (setStage c r.2 (.release r.1))) s

/-- `ngath` (R252). -/
def execNgath (h : Hdr) (o : OpM) (s : State) : Host.Outcome State Fault Refusal :=
  let nd : Needs := { spaces := [0], rd := 1, access := 1, ctrl := false }
  run (.ngath h o) h mMem ([{ dataOpnd o 8 with file := .vec, dest := true }] ++ addrOpnds o) [] (fun c =>
    if !acts c then noEffect c
    else match access c o nd (gatherAccs c o) with
    | .error r => r
    | .ok (ps, s) =>
      if ps.any (wordWaits c) then .wait c.s
      else .done (ps.foldl (noteWord c) s) (ps.map (fun e => .v e.1.lane (regNo o.data + e.1.j) (BitVec.ofNat 32 (gatherWord c s e.1 e.2))))
        ((ps.map (fun e => (e.1.lane, policyFlags e.2))).filter (fun e => e.2 != 0))) s

/-- `nscat` (R253). -/
def execNscat (h : Hdr) (o : OpM) (s : State) : Host.Outcome State Fault Refusal :=
  let nd : Needs := { spaces := [0], wr := 1, access := 2, stamped := false, ctrl := false }
  run (.nscat h o) h mStore ([{ dataOpnd o 16 with file := .vec }] ++ addrOpnds o) [] (fun c =>
    if !acts c then noEffect c
    else match access c o nd (gatherAccs c o) with
    | .error r => r
    | .ok (ps, s) =>
      .done (storePlaces c false (storeGate s c.key) (fun a => toBytes 4 (rdAt c o.data (8 + a.j) a.lane)) ps s)
        [] (storeFlags ps)) s

/-- `cwb` (R254). -/
def execCwb (h : Hdr) (o : OpM) (s : State) : Host.Outcome State Fault Refusal :=
  run (.cwb h o) h mMem (addrOpnds o) [] (fun c =>
    if !acts c then noEffect c
    else match cachePas c o [0] with
    | .error r => r
    | .ok (pas, s) =>
      if stillDirty s h.sc.toNat c.tm.core (isBlk h) pas then .wait s
      else .done (giveUp s h.sc.toNat c.tm.core (isBlk h) pas) [] []) s

/-- `cinv` (R254). -/
def execCinv (h : Hdr) (o : OpM) (s : State) : Host.Outcome State Fault Refusal :=
  run (.cinv h o) h mMem (addrOpnds o) [] (fun c =>
    if !acts c then noEffect c
    else match cachePas c o [0, 4] with
    | .error r => r
    | .ok (pas, s) =>
      let scope := h.sc.toNat
      if o.space == 4 then
        .done (modCores s scope c.tm.core (fun k => { k with
          smlines := k.smlines.filter (fun e => !pas.any (fun pa => namedBy (isBlk h) pa e.1)) })) [] []
      else if stillDirty s scope c.tm.core (isBlk h) pas then .wait s
      else .done (dropNamed (giveUp s scope c.tm.core (isBlk h) pas) scope c.tm.core (isBlk h) pas) [] []) s

/-- `cdisc` (R254), which helper lanes do not perform (17 R357); dirty copies inside its scope are written back first, so that
all can be dropped. A line of it that has no home ends the context (26 R443 to R445). -/
def execCdisc (h : Hdr) (o : OpM) (s : State) : Host.Outcome State Fault Refusal :=
  let nd : Needs := { spaces := [0], wr := 1, access := 2, stamped := false, ctrl := false }
  run (.cdisc h o) h mStore (addrOpnds o) [] (fun c =>
    if !acts c then noEffect c
    else match access c o nd (laneAccs c o 1) with
    | .error r => r
    | .ok (ps, s) =>
      let pas := ps.flatMap (fun e => match e.2 with | .mem pa _ => [pa] | _ => [])
      let lines := namedLines (isBlk h) pas
      if lines.any (fun l => !reachable s (dieOf c.tm.core) (l * 128) 128) then .kill 0x1F s
      else if (storeGate s c.key).isSome || stillDirty s h.sc.toNat c.tm.core (isBlk h) pas || lines.any (fun l => migrating s (l * 128) ||
          overlapping s (dieOf c.tm.core) none (l * 128) 128 s.uid) then .wait s
      else .done (dropNamed (lines.foldl (discardLine c) s) h.sc.toNat c.tm.core (isBlk h) pas) [] (storeFlags ps)) s

/-- `icinv` (R254, 02 R41). -/
def execIcinv (h : Hdr) (o : OpM) (s : State) : Host.Outcome State Fault Refusal :=
  run (.icinv h o) h mMem (addrOpnds o) [] (fun c =>
    if !acts c then noEffect c
    else match cachePas c o [0] with
    | .error r => r
    | .ok (pas, s) => .done (modCores s h.sc.toNat c.tm.core (fun k => { k with
        ilines := k.ilines.filter (fun e => !pas.any (fun pa => namedBy (isBlk h) pa e.1)) })) [] []) s

/-- STORE_PERFORM (11 R211): a pending store takes effect at its home. -/
def execStorePerform (store : Nat) (s : State) : Host.Outcome State Fault Refusal :=
  .next (match s.stores.find? (fun p => p.id == store) with
    | some p => if mayPerform s p && !ctlBehind s p then performPending s p else s
    | none => s)

/-- RELEASE_COMPLETE (11 R219, R225). -/
def execReleaseComplete (release : Nat) (s : State) : Host.Outcome State Fault Refusal :=
  .next (match s.rels.find? (fun r => r.id == release) with
    | some r =>
      if releaseHolds s r then
        let s1 : State := { s with rels := s.rels.filter (fun x => x.id != release) }
        match r.smp with | some k => dropSampler s1 r.scope k | none => s1
      else s
    | none => s)

/-- LONG_LATENCY_RESULT_LAND (01 R30): results of closed windows are written. -/
def execLongLatencyResultLand (group : Nat) (s : State) : Host.Outcome State Fault Refusal :=
  .next (modGroup s group landClosed)

end Sys2Proof.Machine
end

