-- ==== Sys2Proof/Machine/Integer.lean ====
section
/-! DEFINITION. The meanings of class 0x2, integer and address arithmetic (06 R111 to R118), over Machine/Alu.lean. -/

namespace Sys2Proof.Machine

open Sys2Proof.Bits
open Sys2Proof.Num
open Ops

namespace Ops

/-- The width of the format in MOD[7:4]. -/
def width (h : Hdr) : Nat := intWidth (Checks.fmt h)

/-- SAT of class 0x2. -/
def sat2 (h : Hdr) : Bool := h.mod.getLsbD 3

/-- D := f(A), both of the format's width. -/
def unaryR (i : Instr) (h : Hdr) (o : OpR) (f : Nat → Nat) (s : State) : Host.Outcome State Fault Refusal :=
  let w := width h
  run i h mPlain [dstW w o.d, srcW w o.a] [] (fun c => doneN c o.d (regsOf w) (fun l => f (rdW w c o.a l))) s

/-- D := f(A, B), all of the format's width. -/
def binaryR (i : Instr) (h : Hdr) (o : OpR) (f : Nat → Nat → Nat) (s : State) : Host.Outcome State Fault Refusal :=
  let w := width h
  run i h mPlain [dstW w o.d, srcW w o.a, srcW w o.b] []
    (fun c => doneN c o.d (regsOf w) (fun l => f (rdW w c o.a l) (rdW w c o.b l))) s

/-- D := f(A, B, C), all of the format's width. -/
def ternaryR (i : Instr) (h : Hdr) (o : OpR) (f : Nat → Nat → Nat → Nat) (s : State) :
    Host.Outcome State Fault Refusal :=
  let w := width h
  run i h mPlain [dstW w o.d, srcW w o.a, srcW w o.b, srcW w o.c] []
    (fun c => doneN c o.d (regsOf w) (fun l => f (rdW w c o.a l) (rdW w c o.b l) (rdW w c o.c l))) s

/-- D := f(A, B, C), all single registers. -/
def ternaryS (i : Instr) (h : Hdr) (o : OpR) (f : Nat → Nat → Nat → Nat) (s : State) :
    Host.Outcome State Fault Refusal :=
  run i h mPlain [dst o.d, src o.a, src o.b, src o.c] []
    (fun c => doneN c o.d 1 (fun l => f (rd c o.a l) (rd c o.b l) (rd c o.c l))) s

/-- A carry or borrow through P (R116). -/
def carryR (i : Instr) (h : Hdr) (o : OpR) (f : Nat → Nat → Bool → Nat × Bool) (s : State) :
    Host.Outcome State Fault Refusal :=
  let w := width h
  run i h mPlain [dstW w o.d, srcW w o.a, srcW w o.b] [o.p.toNat]
    (fun c =>
      let r (l : Nat) := f (rdW w c o.a l) (rdW w c o.b l) (rdP c o.pn o.p l)
      .done c.s (wrLanes c o.d (regsOf w) (fun l => (r l).1) ++ wrPred c o.p (fun l => (r l).2)) []) s

/-- The lanes whose guard holds and whose divisor is zero. -/
def zeroDivisors (c : Ctx) (w fmt : Nat) (b : BitVec 9) : List Nat :=
  (lanesOf c.pass).filter (fun l => Alu.divByZero fmt (rdW w c b l))

/-- Is TDIVZ set (01 R24)? -/
def tdivz (c : Ctx) : Bool := c.tm.hdr.traps.testBit 0

/-- A division (R117): the trap is raised at issue; else results and DIVZ go through the window. -/
def divideR (i : Instr) (h : Hdr) (o : OpR) (os : List Opnd) (res : Ctx → List RegWrite) (s : State) :
    Host.Outcome State Fault Refusal :=
  let w := width h
  run i h mPlain os [] (fun c =>
    let z := zeroDivisors c w (Checks.fmt h) o.b
    if tdivz c && !z.isEmpty then
      .trap (trapOf 0x0B (maskOf z)) (orLanes c.s c.key z lsDivz)
    else .done c.s (res c) (z.map (fun l => (l, lsDivz)))) s

end Ops

/-- `add` (R115). -/
def execAdd (h : Hdr) (o : OpR) (s : State) : Host.Outcome State Fault Refusal :=
  binaryR (.add h o) h o (Alu.add (Checks.fmt h) (sat2 h)) s

/-- `addc` (R116). -/
def execAddc (h : Hdr) (o : OpR) (s : State) : Host.Outcome State Fault Refusal :=
  carryR (.addc h o) h o (Alu.addc (Checks.fmt h)) s

/-- `sub` (R115). -/
def execSub (h : Hdr) (o : OpR) (s : State) : Host.Outcome State Fault Refusal :=
  binaryR (.sub h o) h o (Alu.sub (Checks.fmt h) (sat2 h)) s

/-- `subb` (R116). -/
def execSubb (h : Hdr) (o : OpR) (s : State) : Host.Outcome State Fault Refusal :=
  carryR (.subb h o) h o (Alu.subb (Checks.fmt h)) s

/-- `addi` (R114, R115). -/
def execAddi (h : Hdr) (o : OpI) (s : State) : Host.Outcome State Fault Refusal :=
  let w := width h
  run (.addi h o) h mPlain [dstW w o.d, srcW w o.a] [] (fun c => doneN c o.d (regsOf w)
    (fun l => Alu.add (Checks.fmt h) (sat2 h) (rdW w c o.a l) (Alu.immVal (Checks.fmt h) o.imm.toNat))) s

/-- `mul` (R115). -/
def execMul (h : Hdr) (o : OpR) (s : State) : Host.Outcome State Fault Refusal :=
  binaryR (.mul h o) h o (Alu.mul (Checks.fmt h) (sat2 h)) s

/-- `mulhi` (R115). -/
def execMulhi (h : Hdr) (o : OpR) (s : State) : Host.Outcome State Fault Refusal :=
  binaryR (.mulhi h o) h o (Alu.mulhi (Checks.fmt h)) s

/-- `mulw`: D is a pair (R114). -/
def execMulw (h : Hdr) (o : OpR) (s : State) : Host.Outcome State Fault Refusal :=
  run (.mulw h o) h mPlain [dstP o.d, src o.a, src o.b] []
    (fun c => doneN c o.d 2 (fun l => Alu.mulw (Checks.fmt h) (rd c o.a l) (rd c o.b l))) s

/-- `mad` (R115). -/
def execMad (h : Hdr) (o : OpR) (s : State) : Host.Outcome State Fault Refusal :=
  ternaryR (.mad h o) h o (Alu.mad (Checks.fmt h) (sat2 h)) s

/-- `madw`: D and C are pairs (R114). -/
def execMadw (h : Hdr) (o : OpR) (s : State) : Host.Outcome State Fault Refusal :=
  run (.madw h o) h mPlain [dstP o.d, src o.a, src o.b, srcP o.c] []
    (fun c => doneN c o.d 2 (fun l => Alu.madw (Checks.fmt h) (rd c o.a l) (rd c o.b l) (rdPair c o.c l))) s

/-- `div` (R117). -/
def execDiv (h : Hdr) (o : OpR) (s : State) : Host.Outcome State Fault Refusal :=
  let w := width h
  divideR (.div h o) h o [dstW w o.d, srcW w o.a, srcW w o.b]
    (fun c => wrLanes c o.d (regsOf w) (fun l => Alu.quot (Checks.fmt h) (rdW w c o.a l) (rdW w c o.b l))) s

/-- `rem` (R117). -/
def execRem (h : Hdr) (o : OpR) (s : State) : Host.Outcome State Fault Refusal :=
  let w := width h
  divideR (.rem h o) h o [dstW w o.d, srcW w o.a, srcW w o.b]
    (fun c => wrLanes c o.d (regsOf w) (fun l => Alu.remd (Checks.fmt h) (rdW w c o.a l) (rdW w c o.b l))) s

/-- `divrem`: quotient to D, remainder to C (R117). -/
def execDivrem (h : Hdr) (o : OpR) (s : State) : Host.Outcome State Fault Refusal :=
  let w := width h
  divideR (.divrem h o) h o [dstW w o.d, dstW w o.c, srcW w o.a, srcW w o.b]
    (fun c => wrLanes c o.d (regsOf w) (fun l => Alu.quot (Checks.fmt h) (rdW w c o.a l) (rdW w c o.b l)) ++
      wrLanes c o.c (regsOf w) (fun l => Alu.remd (Checks.fmt h) (rdW w c o.a l) (rdW w c o.b l))) s

/-- `min` (R114). -/
def execMin (h : Hdr) (o : OpR) (s : State) : Host.Outcome State Fault Refusal :=
  binaryR (.min h o) h o (Alu.min (Checks.fmt h)) s

/-- `max` (R114). -/
def execMax (h : Hdr) (o : OpR) (s : State) : Host.Outcome State Fault Refusal :=
  binaryR (.max h o) h o (Alu.max (Checks.fmt h)) s

/-- `clamp` (R114, R115). -/
def execClamp (h : Hdr) (o : OpR) (s : State) : Host.Outcome State Fault Refusal :=
  ternaryR (.clamp h o) h o (Alu.clamp (Checks.fmt h)) s

/-- `abs` (R115). -/
def execAbs (h : Hdr) (o : OpR) (s : State) : Host.Outcome State Fault Refusal :=
  unaryR (.abs h o) h o (Alu.abs (Checks.fmt h) (sat2 h)) s

/-- `sad` (R114). -/
def execSad (h : Hdr) (o : OpR) (s : State) : Host.Outcome State Fault Refusal :=
  ternaryR (.sad h o) h o (Alu.sad (Checks.fmt h) (sat2 h)) s

/-- `dot4` (R114). -/
def execDot4 (h : Hdr) (o : OpR) (s : State) : Host.Outcome State Fault Refusal :=
  ternaryS (.dot4 h o) h o (Alu.dot 4 (Checks.fmt h) (sat2 h)) s

/-- `dot2` (R114). -/
def execDot2 (h : Hdr) (o : OpR) (s : State) : Host.Outcome State Fault Refusal :=
  ternaryS (.dot2 h o) h o (Alu.dot 2 (Checks.fmt h) (sat2 h)) s

/-- `lea` (R118). -/
def execLea (h : Hdr) (o : OpR) (s : State) : Host.Outcome State Fault Refusal :=
  run (.lea h o) h mPlain [dstP o.d, srcP o.a, src o.b] []
    (fun c => doneN c o.d 2 (fun l => Alu.lea (Checks.fmt h) (rdPair c o.a l) (rd c o.b l) o.aux.toNat)) s

/-- `leai` (R118). -/
def execLeai (h : Hdr) (o : OpI) (s : State) : Host.Outcome State Fault Refusal :=
  run (.leai h o) h mPlain [dstP o.d, srcP o.a] []
    (fun c => doneN c o.d 2 (fun l => Alu.leai (rdPair c o.a l) o.imm.toNat)) s

end Sys2Proof.Machine
end

