-- ==== Sys2Proof/Machine/Control.lean ====
section
/-! DEFINITION. The meanings of class 0x1, control flow (06 R128 to R133): target checks at the branch (02 R42, R43) and
the split of a fragment (08 R172). -/

namespace Sys2Proof.Machine

open Sys2Proof.Bits
open Ops

namespace Ops

/-- The direct target of format B (02 R57). -/
def directTarget (pc : DWord) (o : OpB) : DWord :=
  BitVec.ofNat 64 (wrap 64 ((lineOf pc : Int) + 64 * sext 32 o.disp.toNat) + o.tslot.toNat)

/-- What an instruction does when the line of its target does not translate (R40, R43). -/
def targetFault (c : Ctx) (s : State) (line : Nat) : Tr → Res
  | .noncanon => .trap { code := 0x06, cause := 0x00, lanes := c.active, info := line } s
  | .denied => .trap { code := 0x06, cause := 0x01, lanes := c.active, info := line } s
  | .malformed _ => .wait (parkFetch s c.key c.frag c.f 0x11 line)
  | .absent fpol _ =>
    if fpol = 0 then .wait (parkFetch s c.key c.frag c.f 0x10 line)
    else if fpol = 3 then .kill 0x06 s
    else .trap { code := 0x06, cause := 0x02, lanes := c.active, info := line } s
  | .broken => .kill 0x1F s
  | _ => .wait s

/-- R42: the form of a computed program counter, then its canonical line address. -/
def badForm (c : Ctx) (s : State) (pc : DWord) : Option Res :=
  if !pcFormOk pc then some (.trap (trapOf 0x04 c.active) s)
  else if !canonical (lineOf pc) then
    some (.trap { code := 0x06, cause := 0x00, lanes := c.active, info := lineOf pc } s)
  else none

/-- The checks of an arrival, made at the instruction that causes it (R42, R43). Its trap names every active lane, also where the
targets of the others pass: R385 gives LANES as the lanes of the condition or of the whole instruction. DESIGN CHOICE, log entry
147. -/
def checkTarget (c : Ctx) (s : State) (pc : DWord) : Except Res State :=
  match badForm c s pc with
  | some r => .error r
  | none =>
    match fetchLine s c.tm.core c.tm.ctx (lineOf pc) with
    | (.check, s) => .error (.kill 0x1F s)
    | (.fault t, s) => .error (targetFault c s (lineOf pc) t)
    | (.line bs, s) =>
      if !lineWordOk false (lineWord bs) then .error (.trap (trapOf 0x02 c.active) s)
      else if !marked (lineWord bs) (slotOf pc) then .error (.trap (trapOf 0x04 c.active) s)
      else .ok s

/-- The checks of every distinct target, before any fragment forms: target by target, in the order of their first lanes, so
that the first failing target is the one reported. 06 R130 gives no order among them. DESIGN CHOICE, log entry 147. -/
def checkTargets (c : Ctx) : List DWord → State → Except Res State
  | [], s => .ok s
  | pc :: rest, s =>
    match checkTarget c s pc with
    | .error r => .error r
    | .ok s => checkTargets c rest s

/-- The program counter of each active lane after a transfer of the lanes in `moves`. -/
def nextPcs (c : Ctx) (moves : List (Nat × DWord)) : List (Nat × DWord) :=
  (lanesOf c.active).map (fun l => (l, match moves.find? (fun e => e.1 == l) with
    | some e => e.2
    | none => nextSlot c.f.pc))

/-- The children of a split, with the new join entry when the fragment has a pending reconvergence address (R172). -/
def splitInto (c : Ctx) (parts : List (DWord × Nat)) (j : Option Nat) (g : Group) : Group :=
  let link := match j with | some _ => j | none => c.f.link
  let joins := match j, c.f.recon with
    | some j, some ra => Maps.insert j ({ ra := ra, expected := c.f.mask, parent := c.f.link } : Join) g.joins
    | _, _ => g.joins
  let child (e : DWord × Nat) : Fragment := { mask := e.2, pc := e.1, link := link, since := c.f.since }
  { g with joins := joins,
           frags := parts.foldl (fun fs e => Maps.insert (lowLane e.2) (child e) fs) (Maps.erase c.frag g.frags) }

/-- Move the lanes in `moves` to their targets and the other active lanes to the next slot, after the register writes `w`:
the fragment moves as a whole or splits (R129, R130, R172). The targets are checked before SPLIT_OVERFLOW, where a branch
meets both; the spec gives no order. DESIGN CHOICE, log entry 147. -/
def transfer (c : Ctx) (w : List RegWrite) (moves : List (Nat × DWord)) : Res :=
  match checkTargets c ((distinct moves).map Prod.fst) c.s with
  | .error r => r
  | .ok s =>
    let parts := distinct (nextPcs c moves)
    let writes (g : Group) : Group := w.foldl writeReg g
    match parts with
    | [e] => .moved (modGroup s c.key (fun g =>
        let g1 := writes g
        let go (f : Fragment) : Fragment := { f with pc := e.1, stage := .fresh, read := none, arrival := 0 }
        { g1 with frags := Maps.modify c.frag go g1.frags }))
    | _ =>
      if c.f.recon.isSome then
        match freeJoin c.g with
        | none => .trap (trapOf 0x05 c.active) c.s
        | some j => .moved (modGroup s c.key (fun g => splitInto c parts (some j) (writes g)))
      else .moved (modGroup s c.key (fun g => splitInto c parts none (writes g)))

/-- The same target for every lane of a mask. -/
def toAll (mask : Nat) (pc : DWord) : List (Nat × DWord) := (lanesOf mask).map (fun l => (l, pc))

/-- The targets of an indirect transfer: one for a uniform pair, one per lane for a vector pair (R130). -/
def toPair (c : Ctx) (a : BitVec 9) : List (Nat × DWord) :=
  (lanesOf c.pass).map (fun l => (l, BitVec.ofNat 64 (rdPair c a l)))

/-- An indirect branch: `brx` and `ret`. -/
def branchX (i : Instr) (h : Hdr) (o : OpB) (s : State) : Host.Outcome State Fault Refusal :=
  run i h mPlain [srcP o.a] [] (fun c => transfer c [] (toPair c o.a)) s

/-- A branch of the whole fragment. -/
def branchAll (i : Instr) (h : Hdr) (o : OpB) (taken : Ctx → Bool) (s : State) : Host.Outcome State Fault Refusal :=
  run i h mPlain [] []
    (fun c => if taken c then transfer c [] (toAll c.active (directTarget c.f.pc o)) else noEffect c) s

/-- The writes of the link pair. -/
def linkWrites (c : Ctx) (l : BitVec 9) : List RegWrite := wrLanes c l 2 (fun _ => (nextSlot c.f.pc).toNat)

/-- Set the pending reconvergence address (R133). -/
def setRecon (c : Ctx) (pc : DWord) : Res :=
  .done (modGroup c.s c.key (fun g => { g with
    frags := Maps.modify c.frag (fun f => { f with recon := some pc }) g.frags })) [] []

end Ops

/-- `bra` (R129). -/
def execBra (h : Hdr) (o : OpB) (s : State) : Host.Outcome State Fault Refusal :=
  run (.bra h o) h mPlain [] [] (fun c => transfer c [] (toAll c.pass (directTarget c.f.pc o))) s

/-- `brall` (R129). -/
def execBrall (h : Hdr) (o : OpB) (s : State) : Host.Outcome State Fault Refusal :=
  branchAll (.brall h o) h o (fun c => c.pass == c.active) s

/-- `brany` (R129). -/
def execBrany (h : Hdr) (o : OpB) (s : State) : Host.Outcome State Fault Refusal :=
  branchAll (.brany h o) h o (fun c => acts c) s

/-- `brx` (R130). -/
def execBrx (h : Hdr) (o : OpB) (s : State) : Host.Outcome State Fault Refusal := branchX (.brx h o) h o s

/-- `call` (R131). -/
def execCall (h : Hdr) (o : OpB) (s : State) : Host.Outcome State Fault Refusal :=
  run (.call h o) h mPlain [dstP o.l] []
    (fun c => transfer c (linkWrites c o.l) (toAll c.pass (directTarget c.f.pc o))) s

/-- `callx`: the target is read before the link is written (R131). -/
def execCallx (h : Hdr) (o : OpB) (s : State) : Host.Outcome State Fault Refusal :=
  run (.callx h o) h mPlain [dstP o.l, srcP o.a] [] (fun c => transfer c (linkWrites c o.l) (toPair c o.a)) s

/-- `ret` (R130). -/
def execRet (h : Hdr) (o : OpB) (s : State) : Host.Outcome State Fault Refusal := branchX (.ret h o) h o s

/-- `loop` (R132). -/
def execLoop (h : Hdr) (o : OpB) (s : State) : Host.Outcome State Fault Refusal :=
  run (.loop h o) h mPlain [dst o.a] [] (fun c =>
    let counts := (lanesOf c.pass).filter (fun l => rd c o.a l != 0)
    let w := if isUni o.a then (match counts with
        | [] => []
        | l :: _ => wrN o.a 1 0 (rd c o.a l - 1))
      else counts.flatMap (fun l => wrN o.a 1 l (rd c o.a l - 1))
    transfer c w ((counts.filter (fun l => rd c o.a l != 1)).map (fun l => (l, directTarget c.f.pc o)))) s

/-- `mrg` (R133). -/
def execMrg (h : Hdr) (o : OpB) (s : State) : Host.Outcome State Fault Refusal :=
  run (.mrg h o) h mPlain [] [] (fun c => if acts c then setRecon c (directTarget c.f.pc o) else noEffect c) s

/-- `mrgx`: its address is checked under R42 (R133). -/
def execMrgx (h : Hdr) (o : OpB) (s : State) : Host.Outcome State Fault Refusal :=
  run (.mrgx h o) h mPlain [(srcP o.a).inUni] [] (fun c =>
    if acts c then
      let pc : DWord := BitVec.ofNat 64 (rdPair c o.a 0)
      match badForm c c.s pc with
      | some r => r
      | none => setRecon c pc
    else noEffect c) s

end Sys2Proof.Machine
end

