-- ==== Sys2Proof/Machine/Rendezvous.lean ====
section
/-! DEFINITION. The meanings of class 0x8 but for `exit`: rendezvous points (09 R182 to R189; 08 R174), `yield`, `yieldto`,
`sleep` (R190, R191), and the events of arrivals and sleeps. -/

namespace Sys2Proof.Machine

open Sys2Proof.Bits
open Ops

namespace Ops

/-- A rendezvous point of a team; unlisted points hold the reset values (R182). -/
def rp (tm : Team) (n : Nat) : Rp := Maps.get {} n tm.rps

/-- Change a rendezvous point. -/
def setRp (s : State) (team n : Nat) (x : Rp) : State := modTeam s team (fun t => { t with rps := Maps.insert n x t.rps })

/-- The result of an arrival's P window. -/
def supplyP (s : State) (a : Arrival) (flag : Bool) : State :=
  match a.group with
  | none => s
  | some key => supply s key a.pwin ((lanesOf a.lanes).map (fun l => .p l a.p flag)) []

/-- The rank of an arrival for the last-arriver rule of deterministic mode: the group's index, then the latest (R187).
DEDUCED, log entry 18. -/
def arrivalRank (a : Arrival) : Nat :=
  match a.group with
  | none => 0
  | some key => (key % 32 + 1) * 2 ^ 64 + a.id

/-- In deterministic mode the flags of a phase are written when it completes (08 R174, R187). DEDUCED, log entry 18. -/
def decideFlags (s : State) (team n phase : Nat) : State :=
  let mine := s.arrivals.filter (fun a => a.team == team && a.rp == n && a.open_ && a.ph == some (BitVec.ofNat 32 phase))
  let top := mine.foldl (fun m a => max m (arrivalRank a)) 0
  let s1 := mine.foldl (fun s a => supplyP s a (a.group.isSome && arrivalRank a == top)) s
  { s1 with arrivals := s1.arrivals.map (fun a => if mine.any (fun x => x.id == a.id) then { a with open_ := false } else a) }

/-- A phase completes as long as ARR = COUNT and PEND = 0 (R186). A point that was never initialised has no phase.
DEDUCED, log entry 16. -/
def settleRp (team n : Nat) : Nat → State → State
  | 0, s => s
  | fuel + 1, s =>
    match team? s team with
    | none => s
    | some tm =>
      let x := rp tm n
      if x.init && x.arr == x.count && x.pend == 0 then
        settleRp team n fuel (decideFlags (setRp s team n { x with phase := x.phase + 1, arr := x.next, next := 0 }) team n x.phase.toNat)
      else s

/-- Phases that can complete at one moment. -/
def rpFuel : Nat := 3

/-- An arrival whose fragment waits for its own phase (`rparw`). -/
def awaited (s : State) (a : Arrival) : Bool :=
  match a.group with
  | none => false
  | some key => match group? s key with
    | some g => g.frags.any (fun e => e.2.stage == .own a.id)
    | none => false

/-- Forget the arrivals that nobody waits for any more: counted, with their flags decided. -/
def forgetArrivals (s : State) : State :=
  { s with arrivals := s.arrivals.filter (fun a => a.ph.isNone || a.open_ || awaited s a) }

/-- Add to PEND (R186, R189). -/
def addPend (s : State) (team n : Nat) (x : Int) : State :=
  match team? s team with
  | none => s
  | some tm =>
    let p := rp tm n
    forgetArrivals (settleRp team n rpFuel (setRp s team n { p with pend := BitVec.ofNat 64 (wrap 64 ((p.pend.toNat : Int) + x)) }))

/-- The phase and the last-arriver flag of a counted arrival are delivered. -/
def noteArrival (s : State) (a : Arrival) (det : Bool) (phase : Word) (last : Bool) : State :=
  let a1 : Arrival := { a with ph := some phase, open_ := det && a.group.isSome }
  let s1 : State := { s with arrivals := s.arrivals.map (fun x => if x.id = a.id then a1 else x) }
  match a.group with
  | none => modTeam s1 a.team (fun t => { t with seq := t.seq.map (fun q => if q.arriving = some a.id then { q with arriving := none } else q) })
  | some key =>
    let w : List RegWrite := if isUni a.d then [.k (regNo a.d) phase] else (lanesOf a.lanes).map (fun l => .v l (regNo a.d) phase)
    let s2 := supply s1 key a.dwin w []
    if det then s2 else supplyP s2 a last

/-- Count an arrival whose release has completed (R185). DEDUCED, log entry 16. An arrival of a switched-out team that has not
counted yet stays, and counts when it can, also while the team is out. DESIGN CHOICE, log entry 175. -/
def countArrival (s : State) (a : Arrival) : State :=
  match team? s a.team with
  | none => s
  | some tm =>
    let x := rp tm a.rp
    if a.ph.isSome || !released s a.rel || !x.init then s
    else if x.arr < x.count then
      let s1 := setRp s a.team a.rp { x with arr := x.arr + 1 }
      forgetArrivals (settleRp a.team a.rp rpFuel (noteArrival s1 a tm.det x.phase (x.arr + 1 == x.count)))
    else if x.next < x.count then
      let s1 := setRp s a.team a.rp { x with next := x.next + 1 }
      forgetArrivals (settleRp a.team a.rp rpFuel (noteArrival s1 a tm.det (x.phase + 1) (x.next + 1 == x.count)))
    else s

/-- RP in AUX or IMM, 24 to 31 illegal (R183). -/
def rpLegal (n : Nat) : Bool := decide (n < 24)

/-- Phase h has completed (R188). -/
def phaseDone (x : Rp) (h : Word) : Bool := decide ((x.phase - h - 1).toNat < 2 ^ 31)

/-- A result of an arrival, in no lookahead window (R185). -/
def pendClosed (s : State) (key : Nat) (names : List RegName) : Nat × State :=
  (s.uid, modGroup { s with uid := s.uid + 1 } key (fun g => { g with
    windows := g.windows ++ [({ id := s.uid, left := 0, ready := false, dest := names, rp := true } : Window)] }))

/-- The names of P. -/
def pName (p : BitVec 3) : List RegName := if p.toNat = 7 then [] else [.p p.toNat]

/-- Make an arrival: its deterministic reductions are drained first where the scope asks for it (11 R223), its release
begins, and its results are awaited. Answers its number. A drain that ends the context leaves nothing to arrive. DEDUCED, log
entry 17. -/
def arrive (c : Ctx) (o : OpR) (scope : Nat) : Nat × State :=
  let s := if 5 ≤ scope then drainDets c.s c.g.team (some c.key) else c.s
  match group? s c.key with
  | none => (0, s)
  | some g =>
  let r := beginRelease s { c with g := g } scope 0
  let d := pendClosed r.2 c.key (dst o.d).names
  let p := pendClosed d.2 c.key (pName o.p)
  let a : Arrival := { id := p.2.uid, team := c.g.team, group := some c.key, lanes := c.pass, rp := field o.aux.toNat 0 5,
                       rel := r.1, dwin := d.1, pwin := p.1, d := o.d, p := o.p.toNat }
  (a.id, { p.2 with uid := p.2.uid + 1, arrivals := p.2.arrivals ++ [a] })

/-- The drain of an arrival cannot be performed yet. -/
def arriveBlocked (c : Ctx) (scope : Nat) : Bool :=
  5 ≤ scope && !c.tm.dets.isEmpty && (detsBlocked c.s c.tm || (storeGate c.s c.key).isSome)

/-- The wait of `rparw` on the phase of its own arrival. -/
def ownDone (c : Ctx) (id : Nat) : Bool :=
  match c.s.arrivals.find? (fun a => a.id == id) with
  | none => true
  | some a => match a.ph with
    | none => false
    | some ph => !a.open_ && phaseDone (rp c.tm a.rp) ph

/-- The wait age becomes 0 (R190): the group issues in this cycle, which Machine/Issue.lean has noted, and no cycle in which it was
ready is counted any more (08 R168). -/
def yielded (c : Ctx) : Res := .done (modGroup c.s c.key (fun g => { g with passed := 0 })) [] []

/-- The fragment sleeps: `imm` cycles of two ticks (00 R6), in minimal mode too, where 26 R447 names another clock; 0 cycles are
a `yield` (R190). DESIGN CHOICE, log entry 161. -/
def sleepRes (c : Ctx) (imm : Nat) : Res :=
  match c.f.stage with
  | .asleep t => if t ≤ c.s.now then noEffect c else .wait c.s
  | _ =>
    if !acts c then noEffect c
    else if imm = 0 then yielded c
    else .wait (setStage c c.s (.asleep (c.s.now + 2 * imm)))

end Ops

/-- `rpinit` (R184). -/
def execRpinit (h : Hdr) (o : OpI) (s : State) : Host.Outcome State Fault Refusal :=
  run (.rpinit h o) h mSys [] [] (fun c =>
    let n := field o.imm.toNat 16 5
    let x := rp c.tm n
    let count := field o.imm.toNat 0 10
    if !rpLegal n then illegal c c.s
    else if !acts c then noEffect c
    else if count = 0 ∨ x.arr ≠ 0 ∨ x.next ≠ 0 then illegal c c.s
    else .done (setRp c.s c.g.team n { x with count := count, init := true }) [] []) s

/-- `rparr` (R185). -/
def execRparr (h : Hdr) (o : OpR) (s : State) : Host.Outcome State Fault Refusal :=
  run (.rparr h o) h mSysC [dst o.d] [o.p.toNat] (fun c =>
    if !rpLegal (field o.aux.toNat 0 5) then illegal c c.s
    else if !acts c then noEffect c
    else if arriveBlocked c h.sc.toNat then .wait c.s
    else .issued (arrive c o h.sc.toNat).2) s

/-- `rpwait`: its group issues nothing while it waits (08 R168), so no later access of the group comes before the acquire
(R188, 11 R220). -/
def execRpwait (h : Hdr) (o : OpR) (s : State) : Host.Outcome State Fault Refusal :=
  run (.rpwait h o) h mSys [src o.a] [] (fun c =>
    let n := field o.aux.toNat 0 5
    if !rpLegal n then illegal c c.s
    else if !acts c || phaseDone (rp c.tm n) (BitVec.ofNat 32 (rd c o.a (lowActive c))) then noEffect c
    else .wait (setStage c c.s .phase)) s

/-- `rparw`: an arrival, which closes the region, then the wait of its own phase (R188). -/
def execRparw (h : Hdr) (o : OpR) (s : State) : Host.Outcome State Fault Refusal :=
  run (.rparw h o) h mSysC [dst o.d] [o.p.toNat] (fun c =>
    match c.f.stage with
    | .own id => if ownDone c id then .done (forgetArrivals (setStage c c.s .fresh)) [] [] else .wait c.s
    | _ =>
      if !rpLegal (field o.aux.toNat 0 5) then illegal c c.s
      else if !acts c then noEffect c
      else if arriveBlocked c h.sc.toNat then .wait c.s
      else
        let r := arrive c o h.sc.toNat
        .wait (modGroup (setStage c r.2 (.own r.1)) c.key (fun g => { g with region := none }))) s

/-- `rpbytes` (R189). -/
def execRpbytes (h : Hdr) (o : OpR) (s : State) : Host.Outcome State Fault Refusal :=
  run (.rpbytes h o) h mSysC [src o.a] [] (fun c =>
    let n := field o.aux.toNat 0 5
    if !rpLegal n then illegal c c.s
    else if !acts c then noEffect c
    else
      let ls := if isUni o.a then [0] else lanesOf c.pass
      .done (addPend c.s c.g.team n (ls.foldl (fun acc l => acc + sext 32 (rd c o.a l)) 0)) [] []) s

/-- `yield` (R190). -/
def execYield (h : Hdr) (o : OpS) (s : State) : Host.Outcome State Fault Refusal :=
  run (.yield h o) h mSys [] [] (fun c =>
    if acts c then yielded c else noEffect c) s

/-- `yieldto` (R191, 13 R273). Handle states are FREE 0, FILLING 1, FULL 2 and DRAINING 3 (13 R270). -/
def execYieldto (h : Hdr) (o : OpB) (s : State) : Host.Outcome State Fault Refusal :=
  run (.yieldto h o) h mSys [(src o.a).inUni] [] (fun c =>
    let n := rd c o.a 0
    let x := handle (cluster c.s (clusterOf c.tm.core)) n
    let st := x.state
    let go : Res := transfer c [] (toAll c.active (directTarget c.f.pc o))
    match c.f.stage with
    | .yieldto y full => if full then go else if y = 64 then illegal c c.s else .wait c.s
    | _ =>
      if !acts c then noEffect c
      else if 63 < n ∨ st = 0 ∨ x.owner ≠ c.tm.ctx then illegal c c.s
      else if st = 2 then go
      else .wait (setStage c c.s (.yieldto n false))) s

/-- `sleep` (R190). -/
def execSleep (h : Hdr) (o : OpS) (s : State) : Host.Outcome State Fault Refusal :=
  run (.sleep h o) h mSys [] [] (fun c => sleepRes c o.imm.toNat) s

/-- RENDEZVOUS_ARRIVAL_COUNT (R185). -/
def execRendezvousArrivalCount (arrival : Nat) (s : State) : Host.Outcome State Fault Refusal :=
  .next (match s.arrivals.find? (fun a => a.id == arrival) with
    | some a => countArrival s a
    | none => s)

/-- SLEEP_EXPIRY (R190): a sleeping group whose time has passed issues again. -/
def execSleepExpiry (group : Nat) (s : State) : Host.Outcome State Fault Refusal :=
  .next (match group? s group with
    | none => s
    | some g =>
      let due := g.frags.filter (fun e => match e.2.stage with | .asleep t => decide (t ≤ s.now) | _ => false)
      { s with agenda := s.agenda ++ due.map (fun e => Act.wake group e.1) })

end Sys2Proof.Machine
end

