-- ==== Sys2Proof/Machine/Sys.lean ====
section
/-! DEFINITION. The meanings of class 0x0: the simple functions (06 R134 to R137), the special registers (01 R18 to R20, 08
R159, 14 R290, 17 R342, 21 R385, 24 R419), `trap`, `rett` and the idempotent regions (21 R403, R404, R411, R412). -/

namespace Sys2Proof.Machine

open Sys2Proof.Bits
open Ops

namespace Ops

/-! ### Special registers -/

/-- A special register of a lane, none for an unassigned number (01 R18, 21 R385). -/
def sregRead (c : Ctx) (n lane : Nat) : Option Nat :=
  if n = 0x00 then some lane
  else if n = 0x01 then some c.g.idx
  else if n = 0x02 then some c.g.teamIndex
  else if n = 0x03 then some c.g.role
  else if n = 0x04 then some c.g.gridx
  else if n = 0x05 then some c.g.gridy
  else if n = 0x06 then some c.g.gridz
  else if n = 0x08 then some (lstatOf c.g lane)
  else if n = 0x09 then some (gstatOf c.g)
  else if n = 0x0A then some c.g.nbv
  else if n = 0x0B then some c.tm.core
  else if n = 0x10 then some (core c.s c.tm.core).mxprio
  else if n = 0x11 then some c.g.splatmin.toNat
  else if n = 0x18 then some (die c.s (dieOf c.tm.core)).almlimit.toNat
  else if n = 0x19 then some (die c.s (dieOf c.tm.core)).almtimeout.toNat
  else if n = 0x20 then some (field c.g.epc.toNat 0 32)
  else if n = 0x21 then some (field c.g.epc.toNat 32 32)
  else if n = 0x22 then some c.g.ecode.toNat
  else if n = 0x23 then some (field c.g.einf.toNat 0 32)
  else if n = 0x24 then some (field c.g.einf.toNat 32 32)
  else none

/-- The special registers that `swrite` may write. -/
def sregWritable (n : Nat) : Bool := [0x08, 0x09, 0x10, 0x11, 0x18, 0x19, 0x20, 0x21].contains n

/-- Write %lstat of the lanes whose guard holds. -/
def writeLstat (c : Ctx) (x : Nat → Nat) (g : Group) : Group :=
  (lanesOf c.pass).foldl (fun g l =>
    { g with lstat := Maps.set 0 l (BitVec.ofNat 32 (lstatStore (lstatOf g l) (x l))) g.lstat }) g

/-! ### Waits for the Almanac width (24 R426, 25 R435) -/

/-- The end of a width wait. -/
def widthEnd : Stage → Option Nat
  | .width t => some t
  | .sendWidth t _ => some t
  | _ => none

/-- The width waits of a team that runs: the end of each, and the act that makes the check again, of a fragment or of a
parked instruction that a replay lets continue. -/
def widthWaits (s : State) (ofTeam : Team → Bool) : List (Nat × Act) :=
  s.groups.flatMap (fun (e : Nat × Group) =>
    if (match team? s e.2.team with | some t => ofTeam t && !t.out | none => false) then
      e.2.frags.filterMap (fun f => (widthEnd f.2.stage).map (fun t => (t, Act.wake e.1 f.1))) ++
        (e.2.parked.filter (fun q => q.go)).filterMap (fun q => (widthEnd q.stage).map (fun t => (t, Act.replay e.1 q.id)))
    else [])

/-- What waits for the width of a die, to check it again. -/
def widthWaiters (s : State) (d : Nat) : List Act := (widthWaits s (fun t => dieOf t.core == d)).map Prod.snd

/-- Write the width limit of a die; what waits for it compares with the new one (25 R435). -/
def setLimit (s : State) (d v : Nat) : State :=
  let s1 := setDie s d { die s d with almlimit := BitVec.ofNat 32 v }
  { s1 with agenda := widthWaiters s1 d ++ s1.agenda }

/-- Write a special register from the values of the lanes (R136). -/
def sregWrite (c : Ctx) (n : Nat) (x : Nat → Nat) : State :=
  let v := x (lowActive c)
  let d := dieOf c.tm.core
  if n = 0x08 then modGroup c.s c.key (writeLstat c x)
  else if n = 0x09 then modGroup c.s c.key (fun g => { g with gstat := gstatStore v })
  else if n = 0x10 then setCore c.s c.tm.core { core c.s c.tm.core with mxprio := field v 0 5 }
  else if n = 0x11 then modGroup c.s c.key (fun g => { g with splatmin := BitVec.ofNat 32 v })
  else if n = 0x18 then setLimit c.s d v
  else if n = 0x19 then setDie c.s d { die c.s d with almtimeout := BitVec.ofNat 32 v }
  else if n = 0x20 then modGroup c.s c.key (fun g => { g with epc := BitVec.ofNat 64 (field g.epc.toNat 32 32 * 2 ^ 32 + v) })
  else if n = 0x21 then modGroup c.s c.key (fun g => { g with epc := BitVec.ofNat 64 (v * 2 ^ 32 + field g.epc.toNat 0 32) })
  else c.s

/-- %lstat awaits the flags of a result whose window has closed (07 R139), one of a parked instruction excepted (21 R397).
DEDUCED, log entry 24. -/
def lstatAwaits (c : Ctx) (n : Nat) : Bool :=
  n == 0x08 && c.g.windows.any (fun w => w.left == 0 && !w.ready && !w.rp && !c.g.parked.any (fun q => q.window == w.id))

/-! ### Regions -/

/-- Fragments of the group, those that wait at a join included. -/
def fragCount (g : Group) : Nat := g.frags.length + (g.joins.filter (fun e => e.2.arrived != 0)).length

/-- What a region-table read needs: RD, and no register of the control region. -/
def tableNeeds : Needs := { spaces := [0], rd := 1, access := 1, ctrl := false }

/-- Open region n: every pending result is written first. The link is that of the group's only fragment. -/
def openRegion (c : Ctx) (n : Nat) (entry : List Byte) (g : Group) : Group :=
  let g := landAll g
  let r : Region := { n := n, vmask := ofBytes (entry.take 32), kmask := ofBytes ((entry.drop 32).take 8), pc := c.f.pc,
                      joins := g.joins, link := (g.frags.head?).bind (fun e => e.2.link), live := liveMask g }
  { g with region := some r }

/-- Every pending result is known but that of this instruction itself, parked and re-executed. -/
def othersReady (c : Ctx) : Bool :=
  c.g.windows.all (fun w => w.ready || (match c.park with | some q => q.window == w.id | none => false))

/-- The address of a region-table entry (R403), computed modulo 2^64 (01 R21). -/
def tableAddr (c : Ctx) (n : Nat) : Nat := (c.tm.hdr.rtable + 64 * n) % 2 ^ 64

/-- A misaligned region-table entry: it is read as one load of its 64 bytes (R412, 01 R22). A non-canonical one is no matter of
alignment (12 R234). DEDUCED, log entry 154. -/
def tableOdd (c : Ctx) (n : Nat) : Bool := canonical (tableAddr c n) && tableAddr c n % 64 != 0

/-- The effect of `rgn n` (R412). -/
def beginRegion (c : Ctx) (n : Nat) : Res :=
  if 1 < fragCount c.g ∨ c.tm.hdr.rcount ≤ n then illegal c c.s
  else if tableOdd c n then illegal c c.s
  else match issueLoad c tableNeeds c.active (tableAddr c n) 64 with
  | .error r => r
  | .ok (bs, s) =>
    if !((bs.getD 40 0).toNat.testBit 0) then illegal c s
    else if !othersReady c then .wait s
    else .done (modGroup s c.key (openRegion c n bs)) [] []

end Ops

/-- `nop` (02 R61). -/
def execNop (h : Hdr) (o : OpS) (s : State) : Host.Outcome State Fault Refusal :=
  run (.nop h o) h mPlain [] [] noEffect s

/-- `brk`: IMM is the trap information (R135, 21 R385). -/
def execBrk (h : Hdr) (o : OpS) (s : State) : Host.Outcome State Fault Refusal :=
  run (.brk h o) h mPlain [] [] (fun c =>
    if acts c then .trap { code := 0x18, lanes := c.active, info := o.imm.toNat } c.s else noEffect c) s

/-- `sread` (R136). DEDUCED, log entry 23. -/
def execSread (h : Hdr) (o : OpS) (s : State) : Host.Outcome State Fault Refusal :=
  run (.sread h o) h mPlain [dst o.a] [] (fun c =>
    match sregRead c o.sreg.toNat 0 with
    | none => illegal c c.s
    | some _ => if lstatAwaits c o.sreg.toNat then .wait c.s else doneN c o.a 1 (fun l => (sregRead c o.sreg.toNat l).getD 0)) s

/-- `swrite` (R136, 01 R18). DEDUCED, log entry 23. -/
def execSwrite (h : Hdr) (o : OpS) (s : State) : Host.Outcome State Fault Refusal :=
  run (.swrite h o) h mPlain [src o.a] [] (fun c =>
    if !sregWritable o.sreg.toNat then illegal c c.s
    else if lstatAwaits c o.sreg.toNat then .wait c.s
    else if acts c then .done (sregWrite c o.sreg.toNat (fun l => rd c o.a l)) [] []
    else noEffect c) s

/-- `cycrd` (R137): the counter has moved on by a free number of cycles since its last reading. -/
def execCycrd (h : Hdr) (o : OpR) (s : State) : Host.Outcome State Fault Refusal :=
  run (.cycrd h o) h mPlain [dstP o.d] [] (fun c =>
    let draw := drawFree c.s
    let n := c.s.cycles + Config.freeCycles draw.1 % (2 ^ 64 - c.s.cycles)
    .done { draw.2 with cycles := n } (wrLanes c o.d 2 (fun _ => n)) []) s

/-- `hint` (R135). -/
def execHint (h : Hdr) (o : OpS) (s : State) : Host.Outcome State Fault Refusal :=
  run (.hint h o) h mPlain [] [] noEffect s

/-- `trap` (21 R411, R412). -/
def execTrap (h : Hdr) (o : OpS) (s : State) : Host.Outcome State Fault Refusal :=
  run (.trap h o) h mSys [] [] (fun c =>
    if acts c then .trap { code := 0x19, lanes := c.active, info := o.imm.toNat } c.s else noEffect c) s

/-- `rett` (21 R412). -/
def execRett (h : Hdr) (o : OpS) (s : State) : Host.Outcome State Fault Refusal :=
  run (.rett h o) h mSys [] [] (fun c =>
    if !acts c then noEffect c
    else if !inh c.g then illegal c c.s
    else match badForm c c.s c.g.epc with
      | some r => r
      | none => .moved (returnFromTrap c.key c.frag c.s)) s

/-- `rgn` (21 R412). -/
def execRgn (h : Hdr) (o : OpS) (s : State) : Host.Outcome State Fault Refusal :=
  run (.rgn h o) h mMem [] [] (fun c => if acts c then beginRegion c (field o.imm.toNat 0 12) else noEffect c) s

/-- `rgnend` (21 R412). -/
def execRgnend (h : Hdr) (o : OpS) (s : State) : Host.Outcome State Fault Refusal :=
  run (.rgnend h o) h mSys [] [] (fun c =>
    if acts c then .done (modGroup c.s c.key (fun g => { g with region := none })) [] [] else noEffect c) s

end Sys2Proof.Machine
end

