-- ==== Sys2Proof/Machine/Copy.lean ====
section
/-! DEFINITION. The copy engine (13 R255 to R266; 21 R402, R408): commands and their checks, chunks, landings, signals and
the spill ring; the meanings of `cpy`, `cpyo` and `cpyq`; and the waiters of buffer handles (R271). -/

namespace Sys2Proof.Machine

open Sys2Proof.Bits
open Sys2Proof.Num
open Ops

namespace Ops

/-! ### Engine writes -/

/-- The core whose cluster and die an engine of a cluster acts for. -/
def engineCore (cl : Nat) : Nat := cl * 8

/-- An engine of a cluster writes at the home, as a store performed at once; a write to a publishable page is remembered
for `publish` (R274). Answers the completion times. -/
def engineWrite (s : State) (cl pa leaf : Nat) (bs : List Byte) : (Nat → Nat) × State :=
  let core := engineCore cl
  let line := pa / 128
  match homeDie s (dieOf core) pa with
  | none => (fun _ => 0, s)
  | some home =>
    let upd := if ccOf leaf == 0 && (usableCopy s cl line).isSome then some (die s (dieOf core)).l else none
    let ct (scope : Nat) : Nat := ctOf s core home line scope upd
    let s1 := writeHome (backInvalidate s pa) core 0 pa bs
    let frame := pa / 2 ^ 16
    (ct, if leaf.testBit 60 then { s1 with shadowCt := Maps.insert frame (max (Maps.get 0 frame s1.shadowCt) (ct 6)) s1.shadowCt }
      else s1)

/-- Why an engine's access does not go through. -/
inductive Halt where
  | park (addr cause access : Nat)
  | kill (code : Nat)
  | wait
  deriving DecidableEq, Repr

/-- An access of an engine in a context: its place, or why it halts (21 R396, R402; 24 R425; 26 R438).
DEDUCED, log entry 49. -/
def enginePlace (s : State) (ctx d va : Nat) (write : Bool) : Except Halt Place :=
  let acc := if write then 2 else 1
  match translateEngine s ctx d va (b2n !write) (b2n write) write with
  | .ok pa leaf _ _ =>
    if windowOf pa = .control then .error (.park va 0x11 acc)
    else if (homeDie s d pa).isNone then .error (.kill 0x1F)
    else if write && leaf.testBit 61 then .error (.park va 0x12 acc)
    else if (write && migrating s pa) || stampedMoves s pa then .error .wait
    else .ok (.mem pa leaf)
  | .absent fpol _ =>
    if fpol = 0 then .error (.park va 0x10 acc)
    else if fpol = 1 then .ok .zero
    else if fpol = 2 then .ok .poison
    else .error (.kill 0x06)
  | .denied => .error (.park va 0x12 acc)
  | .broken => .error (.kill 0x1F)
  | .undecided => .error .wait
  | _ => .error (.park va 0x11 acc)

/-- The bytes at a source address of a page under POISON (R402). -/
def poisonBytes (va n : Nat) : List Byte := (upto n).map (fun i => BitVec.ofNat 8 (0x7F800001 >>> (8 * ((va + i) % 4))))

/-- Read bytes for an engine of a cluster. -/
def engineRead (s : State) (ctx cl va n : Nat) : Except Halt (List Byte × State) :=
  match enginePlace s ctx (cl / 8) va false with
  | .error e => .error e
  | .ok (.mem pa leaf) => .ok (loadMem s (engineCore cl) pa leaf n false)
  | .ok .poison => .ok (poisonBytes va n, s)
  | .ok _ => .ok (List.replicate n 0, s)

/-- The loop-order position of the next chunk's first byte (R402). -/
def copyCursor (x : Copy) : Nat :=
  match (chunkUnits x).head? with
  | none => 0
  | some u => u.1 * rowBytes x.dfmt x.count + u.2 * elemBytes x.dfmt

/-- Read one source element. -/
def readElem (s : State) (cl : Nat) (x : Copy) (row e : Nat) : Except Halt (Nat × State) :=
  let n := elemBytes x.sfmt
  let at_ := rowAddr (ctlSspace x) x.src x.sstride row (elemOff x.sfmt e)
  let raw (bs : List Byte) : Nat := if x.sfmt = 12 then field (ofBytes bs) (4 * (e % 2)) 4 else ofBytes bs
  if ctlSspace x = 0 then
    match engineRead s x.ctx cl at_ n with
    | .error h => .error h
    | .ok (bs, s) => .ok (raw bs, s)
  else .ok (raw (loadScratch s x.steam at_ n), s)

/-- Read and convert the elements of a unit; answers its destination bytes. -/
def readUnit (s : State) (cl : Nat) (x : Copy) (u : Nat × Nat) : Except Halt (List Byte × State) :=
  match readElem s cl x u.1 (u.2 * unitElems x) with
  | .error h => .error h
  | .ok (a, s) =>
    if x.dfmt != 12 then .ok (toBytes (elemBytes x.dfmt) (copyElem x a), s)
    else match readElem s cl x u.1 (2 * u.2 + 1) with
      | .error h => .error h
      | .ok (b, s) => .ok (toBytes 1 (copyElem x a % 16 + 16 * (copyElem x b % 16)), s)

/-- Where a unit goes. -/
def unitPlace (s : State) (cl : Nat) (x : Copy) (u : Nat × Nat) : Except Halt Place :=
  let at_ := rowAddr (ctlDspace x) x.dst x.dstride u.1 (u.2 * elemBytes x.dfmt)
  if ctlDspace x = 0 then enginePlace s x.ctx (cl / 8) at_ true
  else if ctlDspace x = 3 then .ok (.fifo (x.dst % 2 ^ 32))
  else .ok (.scr x.dteam at_)

/-- Read a chunk and find where it goes. DEDUCED, log entries 48, 54. -/
def planChunk (cl : Nat) (x : Copy) : List (Nat × Nat) → State → Except Halt (List (Place × List Byte) × State)
  | [], s => .ok ([], s)
  | u :: us, s =>
    match readUnit s cl x u with
    | .error h => .error h
    | .ok (bs, s) =>
      match unitPlace s cl x u with
      | .error h => .error h
      | .ok p =>
        match planChunk cl x us s with
        | .error h => .error h
        | .ok (rest, s) => .ok ((p, bs) :: rest, s)

/-- Join a write to memory with the next one when that continues it within a line. -/
def joinWrites : List (Place × List Byte) → List (Place × List Byte)
  | [] => []
  | (p, bs) :: rest =>
    match p, joinWrites rest with
    | .mem pa leaf, (.mem pb lb, cs) :: more =>
      if pb = pa + bs.length ∧ pb / 128 = pa / 128 then (.mem pa leaf, bs ++ cs) :: more
      else (.mem pa leaf, bs) :: (.mem pb lb, cs) :: more
    | _, r => (p, bs) :: r

/-- Write a chunk; answers the greatest CT_cluster and CT_system. -/
def writeChunk (cl : Nat) : List (Place × List Byte) → State → (Nat × Nat) × State
  | [], s => ((0, 0), s)
  | (p, bs) :: rest, s =>
    match p with
    | .mem pa leaf =>
      let r := engineWrite s cl pa leaf bs
      let q := writeChunk cl rest r.2
      ((max (r.1 3) q.1.1, max (r.1 6) q.1.2), q.2)
    | .scr t off => writeChunk cl rest (storeScratch s t off bs)
    | _ => writeChunk cl rest s

/-- Split bytes into entries of a width; fuel is their number. -/
def entriesOf (w : Nat) : Nat → List Byte → List (List Byte)
  | 0, _ => []
  | fuel + 1, bs => if bs.isEmpty then [] else bs.take w :: entriesOf w fuel (bs.drop w)

/-- Push a chunk into a FIFO bank, when it has room (10 R202). A command that finds its bank in another mode waits until it is
a FIFO bank again, and one whose WIDTH has changed cuts its bytes at the new WIDTH: R200 names a trap, and no route for one of
an engine. DEDUCED, log entry 54; DESIGN CHOICE, log entry 162. -/
def pushChunk (s : State) (cl b : Nat) (bs : List Byte) : Option State :=
  let k := bank (cluster s cl) b
  let es := entriesOf (fifoWidth k) bs.length bs
  if k.mode == 2 && !k.failed && fifoReady k true es.length then
    some (setBank s cl b { k with fifo := k.fifo ++ es })
  else none

/-! ### Buffer handles (R271) -/

/-- Put the fragment or the parked instruction that stands in one stage into another, and let it issue. -/
def wakeStage (s : State) (at_ st : Stage) : State :=
  let mine (g : Group) : List Nat := (g.frags.filter (fun e => e.2.stage == at_)).map Prod.fst
  let parked (g : Group) : List Nat := (g.parked.filter (fun q => q.stage == at_)).map (fun q => q.id)
  let who : List Act := s.groups.flatMap (fun e => (mine e.2).map (fun f => Act.wake e.1 f) ++ (parked e.2).map (fun q => Act.replay e.1 q))
  let set (f : Fragment) : Fragment := if f.stage == at_ then { f with stage := st } else f
  let setP (q : Parked) : Parked := if q.stage == at_ then { q with stage := st } else q
  { s with
    groups := s.groups.map (fun e => (e.1, { e.2 with
      frags := e.2.frags.map (fun f => (f.1, set f.2)), parked := e.2.parked.map setP }))
    agenda := s.agenda ++ who }

/-- Put the fragments that wait in `yieldto` on a handle of a cluster into another stage, and let them issue. -/
def wakeYieldto (s : State) (cl h : Nat) (st : Stage) : State :=
  let inCl (g : Group) : Bool := match team? s g.team with | some t => clusterOf t.core == cl | none => false
  let mine (g : Group) : List Nat :=
    if inCl g then (g.frags.filter (fun e => e.2.stage == .yieldto h false)).map Prod.fst else []
  let who : List Act := s.groups.flatMap (fun e => (mine e.2).map (fun f => Act.wake e.1 f))
  let set (f : Fragment) : Fragment := if f.stage == .yieldto h false then { f with stage := st } else f
  { s with
    groups := s.groups.map (fun e => if inCl e.2 then (e.1, { e.2 with frags := e.2.frags.map (fun f => (f.1, set f.2)) }) else e)
    agenda := s.agenda ++ who }

/-- A handle becomes FREE: everything that waits on it traps. DEDUCED, log entry 57. -/
def releaseHandle (s : State) (cl h : Nat) : State :=
  let x := handle (cluster s cl) h
  let s1 := x.waits.foldl (fun s w => wakeStage s (.handle w.1) (.yieldto 64 false)) (setHandle s cl h (freeHandle x))
  wakeYieldto s1 cl h (.yieldto 64 false)

/-- A handle becomes FULL: `yieldto` and `hwait.peek` go on, and one `hwait.take` is granted, in order of arrival, which
drains the handle. DEDUCED, log entry 57. -/
def fillHandle (s : State) (cl h : Nat) : State :=
  let x := handle (cluster s cl) h
  let takes := (x.waits.filter (fun w => w.2 == 0)).take 1
  let peeks := x.waits.filter (fun w => w.2 == 1)
  let s1 := setHandle s cl h { x with
    state := if takes.isEmpty then 2 else 3
    waits := x.waits.filter (fun w => !(takes ++ peeks).contains w) }
  wakeYieldto ((takes ++ peeks).foldl (fun s w => wakeStage s (.handle w.1) .released) s1) cl h (.yieldto h true)

/-- Bytes land in a handle (R260). -/
def landHandle (s : State) (cl h n : Nat) : State :=
  let x := handle (cluster s cl) h
  let y : Handle := { x with landed := x.landed + n }
  let s1 := setHandle s cl h y
  if y.state = 1 ∧ y.landed = y.size then fillHandle s1 cl h else s1

/-! ### The end of a team (08 R157, R165, R167; R261, R270; 14 R285) -/

/-- A copy that a team issued has chunks that have not landed. -/
def copiesPending (s : State) (t : Nat) : Bool :=
  s.clusters.any (fun e => (e.2.copies ++ e.2.spilled).any (fun x => x.team == some t && !copyLanded x))

/-- The team's groups, sequencer and copies have ended. -/
def teamDone (s : State) (t : Nat) (tm : Team) : Bool :=
  (groupsOf s t).isEmpty && (match tm.seq with | some q => q.ended | none => true) && !copiesPending s t

/-- The tags that carry a team's key become invalid; a tile mapped to the team that still carries another owner's tag keeps it
(R285). DEDUCED, log entry 63. -/
def clearTeamTags (ctx tkey : Nat) (k : Core) : Core :=
  { k with tags := k.tags.map (fun e =>
      if e.2.ctx = ctx ∧ e.2.tkey = tkey then (e.1, { e.2 with valid := false }) else e) }

/-- The handles over a team's scratch become FREE, in every cluster in which the team has allocated one. -/
def freeTeamHandles (s : State) (t : Nat) : State :=
  s.clusters.foldl (fun s k => k.2.handles.foldl (fun s e =>
    if e.2.state ≠ 0 ∧ e.2.space = 1 ∧ e.2.team = t then releaseHandle s k.1 e.1 else s) s) s

/-- Remove an ended team, or keep its scratch until the last member of its co-resident set has ended. -/
def dropTeam (s : State) (t : Nat) (tm : Team) : State :=
  if tm.cor = 0 then { s with teams := Maps.erase t s.teams }
  else
    let s1 := setTeam s t { tm with ended := true, tiles := [], seq := none }
    let mine (e : Nat × Team) : Bool := e.2.launch == tm.launch && e.2.set == tm.set && e.2.cor != 0
    if (s1.teams.filter mine).all (fun e => e.2.ended) then { s1 with teams := s1.teams.filter (fun e => !mine e) } else s1

/-- End a team once everything of it has ended. DEDUCED, log entry 63. -/
def settleTeam (s : State) (t : Nat) : State :=
  match team? s t with
  | none => s
  | some tm =>
    if tm.ended || !teamDone s t tm then s
    else
      let drained := drainDets s t none
      if (team? drained t).isNone then drained
      else
      let s1 := freeTeamHandles drained t
      let s2 : State := { s1 with
        cores := s1.cores.map (fun e => (e.1, clearTeamTags tm.ctx tm.tkey e.2))
        arrivals := s1.arrivals.filter (fun a => a.team != t) }
      let s3 := modLaunch (dropTeam s2 t tm) tm.launch (fun l => { l with ended := l.ended + 1 })
      kickBanks (settleSwitches s3) (clusterOf tm.core)

/-! ### Running a command -/

/-- Change a command of a cluster. -/
def modCopy (s : State) (cl id : Nat) (f : Copy → Copy) : State :=
  setCluster s cl { cluster s cl with copies := (cluster s cl).copies.map (fun x => if x.id = id then f x else x) }

/-- Remove a command, with its remap entry (21 R408). -/
def dropCopy (s : State) (cl id : Nat) : State :=
  let k := cluster s cl
  setCluster s cl { k with copies := k.copies.filter (fun x => x.id != id), remaps := k.remaps.filter (fun x => x != id) }

/-- A command with nothing left to do ends; its signal, if any, is still to be stored. -/
def finishCopy (s : State) (cl : Nat) (x : Copy) : State :=
  if copyLanded x ∧ x.signal = 0 then dropCopy s cl x.id else s

/-- Land the next chunk (R260). -/
def landChunk (s : State) (cl : Nat) (x : Copy) : State :=
  let n := (chunkUnits x).length * elemBytes x.dfmt
  let y : Copy := { x with landed := x.landed + 1, written := none, rep := 0 }
  let s1 := modCopy s cl x.id (fun _ => y)
  let s2 := match x.team with
    | some t => if ctlRp x = 31 then s1 else addPend s1 t (ctlRp x) (-(n : Int))
    | none => s1
  let s3 := kickBanks (finishCopy (if ctlHv x then landHandle s2 cl (ctlHandle x) n else s2) cl y) cl
  match x.team with
  | some t => settleTeam s3 t
  | none => s3

/-- A chunk halts: a record, a wait, or the end of the context (21 R400, R402). -/
def haltChunk (s : State) (cl : Nat) (x : Copy) : Halt → State
  | .wait => s
  | .kill code => terminate s x.ctx code
  | .park addr cause access =>
    let rep := if x.repAddr = addr then x.rep else 0
    if 16 ≤ rep then terminate s x.ctx 0x07
    else
      let tkey := match x.team with
        | some t => ((team? s t).map (fun t => t.tkey)).getD 0
        | none => 0
      let r := raise s { ctx := x.ctx, code := 0x06, cause := cause, source := 2, access := access, place := engineCore cl,
                         rep := rep, addr := addr, detail := copyCursor x, tkey := tkey, agent := .copy cl x.id }
      modCopy r.2 cl x.id (fun y => { y with parked := some r.1 })

/-- The chunk's stores have been performed, with these completion times. -/
def noteWritten (s : State) (cl : Nat) (x : Copy) (ct : Nat × Nat) : State :=
  let y : Copy := { x with written := some ct.1, ctSystem := max x.ctSystem ct.2 }
  let s1 := modCopy s cl x.id (fun _ => y)
  let s2 := match x.team with
    | some t => modLaunch s1 (((team? s1 t).map (fun t => t.launch)).getD 0) (fun l => { l with ct := max l.ct ct.2 })
    | none => s1
  if ctlDspace x ≠ 0 ∨ passed s2 (cl / 8) ct.1 then landChunk s2 cl y else s2

/-- Perform the next chunk's stores. DEDUCED, log entry 48. -/
def runChunk (s : State) (cl : Nat) (x : Copy) : State :=
  match planChunk cl x (chunkUnits x) s with
  | .error h => haltChunk s cl x h
  | .ok (ws, s1) =>
    if ctlDspace x = 3 then
      match pushChunk s1 cl (x.dst % 2 ^ 32) (ws.flatMap Prod.snd) with
      | none => s
      | some s2 => noteWritten s2 cl x (0, 0)
    else
      let r := writeChunk cl (joinWrites ws) s1
      noteWritten r.2 cl x r.1

/-- A suspended copy whose record still waits for ring space has no record to serve: it goes on by itself once its page is
present (21 R398). DEDUCED, log entries 54, 118. -/
def retryChunk (s : State) (cl : Nat) (x : Copy) (id : Nat) : State :=
  if s.recs.any (fun r => r.id == id && r.seq.isNone) then
    match planChunk cl x (chunkUnits x) s with
    | .error _ => s
    | .ok _ =>
      let y : Copy := { x with parked := none }
      runChunk (modCopy { s with recs := s.recs.filter (fun r => r.id != id) } cl x.id (fun _ => y)) cl y
  else s

/-- One advance of an active command. -/
def advanceCopy (s : State) (cl : Nat) (x : Copy) : State :=
  if !x.active || copyLanded x || !released s x.rel then s
  else if let some id := x.parked then retryChunk s cl x id
  else match x.written with
    | some ct => if passed s (cl / 8) ct then landChunk s cl x else s
    | none => runChunk s cl x

/-- The place of a signal word; a misaligned one has none (R262). -/
def signalPlace (s : State) (cl ctx addr : Nat) : Except Halt Place :=
  if addr % 8 ≠ 0 then .error (.park addr 0x11 2) else enginePlace s ctx (cl / 8) addr true

/-- Store a signal word, or log its address as bad (R262; 26 R441); memory without a home ends the context (26 R437, R443).
Answers CT_system. -/
def writeSignal (s : State) (cl ctx addr value : Nat) (queue : Option Nat) : Nat × State :=
  match signalPlace s cl ctx addr with
  | .ok (.mem pa leaf) => let r := engineWrite s cl pa leaf (toBytes 8 value); (r.1 6, r.2)
  | .error .wait => (0, s)
  | .error (.kill 0x1F) => (0, terminate s ctx 0x1F)
  | _ => (0, match queue with
    | some q => devlog s 0x81 ctx 0 q
    | none => devlog s 0x81 ctx (engineCore cl) (2 ^ 64 - 1))

/-- The signal's page is free to be written. -/
def signalReady (s : State) (cl ctx addr : Nat) : Bool :=
  match signalPlace s cl ctx addr with
  | .error .wait => false
  | _ => true

/-- Store a command's signal once everything before it has passed (R262). -/
def signalCopy (s : State) (cl : Nat) (x : Copy) : State :=
  if !x.active || !copyLanded x || x.signal = 0 || !passed s (cl / 8) x.ctSystem || !signalReady s cl x.ctx x.signal then s
  else dropCopy (writeSignal s cl x.ctx x.signal (if x.failCode = 0 then 1 else 2 ^ 63 + x.failCode) x.queue).2 cl x.id

/-! ### The queue and the spill ring (R259, R266) -/

/-- Accepted commands not started. -/
def queuedOf (k : Cluster) : Nat := (k.copies.filter (fun x => !x.active)).length

/-- Active commands. -/
def activeOf (k : Cluster) : Nat := (k.copies.filter (fun x => x.active)).length

/-- The 64-byte packet of a command (R255). -/
def packetBytes (x : Copy) : List Byte :=
  toBytes 4 2 ++ toBytes 1 (x.dfmt * 16 + x.sfmt) ++ toBytes 1 0 ++ toBytes 2 0 ++ toBytes 8 x.dst ++ toBytes 8 x.src ++
    toBytes 4 x.count ++ toBytes 4 x.ctl ++ toBytes 4 x.param ++ toBytes 4 x.rows ++ toBytes 4 x.sstride ++
    toBytes 4 x.dstride ++ toBytes 8 x.signal ++ toBytes 8 0

/-- The command that a packet holds (R255). -/
def packetCopy (bs : List Byte) : Copy :=
  let f := descField bs 4 1
  { dfmt := f / 16, sfmt := f % 16, dst := descField bs 8 8, src := descField bs 0x10 8, count := descField bs 0x18 4,
    ctl := descField bs 0x1C 4, param := descField bs 0x20 4, rows := descField bs 0x24 4, sstride := descField bs 0x28 4,
    dstride := descField bs 0x2C 4, signal := descField bs 0x30 8 }

/-- A spilled command as the ring in device memory holds it. DESIGN CHOICE, log entry 53. -/
def fromRing (s : State) (x : Copy) : Copy :=
  match x.ring with
  | none => x
  | some pa =>
    let y := packetCopy (seenBytes s pa 64)
    { x with dfmt := y.dfmt, sfmt := y.sfmt, dst := y.dst, src := y.src, count := y.count, ctl := y.ctl, param := y.param,
             rows := y.rows, sstride := y.sstride, dstride := y.dstride, signal := y.signal, ring := none }

/-- A place of the spill ring can be reached. -/
def ringUp (s : State) (cl pa : Nat) : Bool := reachable s (cl / 8) pa 64

/-- Refill the engine queue from the spill ring, in order; fuel is the number of places. A command in memory that cannot be
reached ends its context (26 R437, R443 to R445). -/
def refill (cl : Nat) : Nat → State → State
  | 0, s => s
  | fuel + 1, s =>
    let k := cluster s cl
    match k.spilled with
    | [] => s
    | x :: rest =>
      if queuedOf k < 64 && !hubWaits s then
        if !x.ring.all (ringUp s cl) then refill cl fuel (terminate s x.ctx 0x1F)
        else refill cl fuel (setCluster s cl { k with copies := k.copies ++ [fromRing s x], spilled := rest })
      else s

/-- The queue is full or commands are spilled, and the quota is reached. DESIGN CHOICE, log entry 53. -/
def spillFull (s : State) (cl : Nat) : Bool :=
  let k := cluster s cl
  (decide (64 ≤ queuedOf k) || !k.spilled.isEmpty) && decide (field (ctl s (clusterOff cl + 0x208)) 0 16 ≤ k.spilled.length)

/-- The first free place of the spill ring from the next one on. DESIGN CHOICE, log entry 53. -/
def ringPlace (s : State) (cl : Nat) : Nat :=
  let k := cluster s cl
  let quota := max 1 (field (ctl s (clusterOff cl + 0x208)) 0 16)
  let places := (upto quota).map (fun i => ctl s (clusterOff cl + 0x200) + 64 * ((k.spillNext + i) % quota))
  (places.find? (fun pa => k.spilled.all (fun x => x.ring != some pa))).getD (ctl s (clusterOff cl + 0x200))

/-- Accept a command into the queue or the spill ring; a place there that cannot be reached ends its context (26 R437, R443 to
R445). DEDUCED, log entry 51. -/
def acceptCopy (s : State) (cl : Nat) (x : Copy) : State :=
  let k := cluster s cl
  if queuedOf k < 64 && k.spilled.isEmpty then setCluster s cl { k with copies := k.copies ++ [x] }
  else
    let pa := ringPlace s cl
    if !ringUp s cl pa then terminate s x.ctx 0x1F
    else
      let s1 := hubWrite s pa (packetBytes x)
      setCluster s1 cl { cluster s1 cl with spilled := k.spilled ++ [{ x with ring := some pa }], spillNext := k.spillNext + 1 }

/-- The command writes the scratch of a switched-out team (21 R408). -/
def intoImage (s : State) (x : Copy) : Bool :=
  (ctlDspace x == 1 || ctlDspace x == 2) && (match team? s x.dteam with | some t => t.out | none => false)

/-- Start the next accepted command. One into the scratch of a switched-out team needs a remap entry. -/
def startCopy (s : State) (cl : Nat) : State :=
  let k := cluster s cl
  match k.copies.find? (fun x => !x.active) with
  | none => s
  | some x =>
    if 8 ≤ activeOf k then s
    else if intoImage s x && decide (16 ≤ k.remaps.length) then s
    else
      let s1 := modCopy s cl x.id (fun y => { y with active := true })
      let k1 := cluster s1 cl
      let s2 := if intoImage s x then setCluster s1 cl { k1 with remaps := k1.remaps ++ [x.id] } else s1
      refill cl 64 (finishCopy s2 cl { x with active := true })

/-! ### The checks (R265, R269) -/

/-- Order 1 of R265. -/
def copyFieldsOk (cor : Nat) (x : Copy) : Bool :=
  let rp := ctlRp x
  let two := ctlDspace x == 2 || ctlSspace x == 2
  !(24 ≤ rp && rp ≤ 30) && !(ctlAdd x && rp == 31) && decide (ctlDspace x ≤ 3) && decide (ctlSspace x ≤ 2) &&
    (if two then decide (ctlMember x < cor) else ctlMember x == 0) && field x.ctl 8 2 == 0 &&
    (paramRead x || x.param == 0) && !(ctlHv x && ctlDspace x == 3)

/-- The first and the last byte of a row at a global address are canonical. -/
def rowCanonical (base stride n row : Nat) : Bool :=
  canonical (rowAddr 0 base stride row 0) && canonical (rowAddr 0 base stride row (n - 1))

/-- Order 2: the address that the trap reports, none when every row is canonical; it is one of the first bad row, of the destination
before one of the source. DEDUCED, log entry 51; DESIGN CHOICE, log entry 178. -/
def copyNoncanon (x : Copy) : Option Nat :=
  if x.rows * x.count = 0 then none
  else
    let bad (space base stride n : Nat) : Option Nat :=
      if space ≠ 0 then none
      else ((upto x.rows).find? (fun r => !rowCanonical base stride n r)).map (fun r =>
        if canonical (rowAddr 0 base stride r 0) then rowAddr 0 base stride r (n - 1) else rowAddr 0 base stride r 0)
    match bad (ctlDspace x) x.dst x.dstride (rowSpan x.dfmt x.count) with
    | some a => some a
    | none => bad (ctlSspace x) x.src x.sstride (rowSpan x.sfmt x.count)

/-- Order 3 (R258). With DSPACE = 3, bits [63:32] of dst are ignored and no alignment of dst is asked for: the spec says only
that dst selects the bank. DESIGN CHOICE, log entry 150. -/
def copyShapeOk (s : State) (cl : Nat) (x : Copy) : Bool :=
  let dn := elemBytes x.dfmt
  let sn := elemBytes x.sfmt
  let b := x.dst % 2 ^ 32
  x.src % sn == 0 && x.sstride % sn == 0 && ((x.dfmt != 12 && x.sfmt != 12) || x.count % 2 == 0) &&
    decide (copyTotal x ≤ 2 ^ 40) &&
    (if ctlDspace x == 3 then
      fifoBank s (engineCore cl) b && x.dstride == 0 && copyTotal x % fifoWidth (bank (cluster s cl) b) == 0
     else x.dst % dn == 0 && x.dstride % dn == 0)

/-- The scratch bytes of a team. DEDUCED, log entry 120. -/
def scratchBound (s : State) (t : Nat) : Nat := ((team? s t).map (fun t => t.hdr.scratch)).getD 0

/-- Order 4 (10 R193). DEDUCED, log entry 52. -/
def copyBoundsOk (s : State) (x : Copy) : Bool :=
  let fits (team off stride n : Nat) : Bool := decide (off % 2 ^ 32 + (x.rows - 1) * stride + n ≤ scratchBound s team)
  copyTotal x == 0 ||
    ((!(ctlDspace x == 1 || ctlDspace x == 2) || fits x.dteam x.dst x.dstride (rowBytes x.dfmt x.count)) &&
      (!(ctlSspace x == 1 || ctlSspace x == 2) || fits x.steam x.src x.sstride (rowBytes x.sfmt x.count)))

/-- The command names a handle and has bytes for it: one without bytes is accepted and changes no handle (R258), and none of the
handle's checks is made for it. DESIGN CHOICE, log entry 166. -/
def usesHandle (x : Copy) : Bool := ctlHv x && copyTotal x != 0

/-- A handle that is not FREE belongs to another context (R273). -/
def foreign (h : Handle) (ctx : Nat) : Bool := h.state != 0 && h.owner != ctx

/-- Every destination byte lies in the handle's range. -/
def inRange (h : Handle) (x : Copy) : Bool :=
  let base := if h.space = 1 then h.base % 2 ^ 32 else h.base
  let lo := if h.space = 1 then x.dst % 2 ^ 32 else x.dst
  (upto x.rows).all (fun r =>
    let at_ := rowAddr h.space lo x.dstride r 0
    decide (base ≤ at_) && decide (at_ + rowBytes x.dfmt x.count ≤ base + h.size))

/-- Order 5 (R273) for a handle that is FILLING. -/
def handleOk (h : Handle) (x : Copy) : Bool :=
  ctlDspace x == h.space && (h.space != 1 || x.team == some h.team) && inRange h x &&
    decide (h.commit + copyTotal x ≤ h.size)

/-- The command's handle may be waited for: the copy waits while it is FREE, FULL or DRAINING (R271). -/
def handleWaits (s : State) (cl ctx : Nat) (x : Copy) : Bool :=
  let h := handle (cluster s cl) (ctlHandle x)
  usesHandle x && h.state != 1 && !foreign h ctx

/-- The command's handle refuses it. DEDUCED, log entry 50. -/
def handleBad (s : State) (cl ctx : Nat) (x : Copy) : Bool :=
  let h := handle (cluster s cl) (ctlHandle x)
  usesHandle x && (foreign h ctx || !handleOk h x)

/-- COMMIT grows by the byte total. -/
def commitCopy (s : State) (cl : Nat) (x : Copy) : State :=
  if !usesHandle x then s
  else
    let h := handle (cluster s cl) (ctlHandle x)
    setHandle s cl (ctlHandle x) { h with commit := h.commit + copyTotal x }

/-! ### The instructions -/

/-- A command of a group, before its checks: its own scratch, or that of the member named. -/
def copyOf_ (c : Ctx) (x : Copy) : Copy :=
  let t (space : Nat) : Nat := (scratchTeam c space (ctlMember x)).getD c.g.team
  { x with ctx := c.tm.ctx, group := some c.key, team := some c.g.team, dteam := t (ctlDspace x), steam := t (ctlSspace x) }

/-- Check and accept a command (R265). DEDUCED, log entry 50. -/
def issueCopy (c : Ctx) (s : State) (y : Copy) : Res :=
  let x := copyOf_ c y
  let cl := clusterOf c.tm.core
  if !copyFieldsOk c.tm.cor x then illegal c s
  else match copyNoncanon x with
  | some a => .trap { code := 0x06, cause := 0x00, lanes := c.active, info := a } s
  | none =>
    if !copyShapeOk s cl x || !copyBoundsOk s x then illegal c s
    else if handleWaits s cl c.tm.ctx x then .wait (setStage c s .blocked)
    else if handleBad s cl c.tm.ctx x then illegal c s
    else
      let s1 := refill cl 64 s
      if (group? s1 c.key).isNone then .wait s1
      else if spillFull s1 cl then .trap (trapOf 0x09 c.active) s1
      else
        let r := beginRelease s1 c 4 0
        let s2 := commitCopy r.2 cl x
        let s3 := if ctlAdd x then addPend s2 c.g.team (ctlRp x) (copyTotal x) else s2
        let z : Copy := { x with id := s3.uid, rel := r.1 }
        .done (acceptCopy { s3 with uid := s3.uid + 1 } cl z) [] []

/-- The reserved fields of a packet are zero, but for bits [7:6] of its cluster byte, which is read from queues only. -/
def packetReserved (bs : List Byte) : Bool := descField bs 6 2 == 0 && descField bs 0x38 8 == 0

/-- The packet read of `cpyq` (R264). DEDUCED, log entry 56. -/
def readPacket (c : Ctx) (ea : Nat) : Except Res (List Byte × State) :=
  if canonical ea && ea % 64 != 0 then .error (illegal c c.s)
  else issueLoad c tableNeeds c.active ea 64

end Ops

/-- `cpy` (R263). -/
def execCpy (h : Hdr) (o : OpR) (s : State) : Host.Outcome State Fault Refusal :=
  run (.cpy h o) h mCopy ([srcP o.d, srcP o.a, src o.b, srcP o.c].map Opnd.inUni) [] (fun c =>
    if !acts c then noEffect c
    else issueCopy c c.s { dfmt := Checks.fmt h, sfmt := Checks.lo4 h, dst := rdPair c o.d 0, src := rdPair c o.a 0,
                           count := rd c o.b 0, ctl := rd c o.c 0, param := rdAt c o.c 1 0, rows := 1 }) s

/-- `cpyo` (R263). -/
def execCpyo (h : Hdr) (o : OpR) (s : State) : Host.Outcome State Fault Refusal :=
  let five : Opnd := { reg := o.c, count := 5, align := 2 }
  run (.cpyo h o) h mCopy ([srcP o.d, srcP o.a, src o.b, five].map Opnd.inUni) [] (fun c =>
    if !acts c then noEffect c
    else issueCopy c c.s { dfmt := Checks.fmt h, sfmt := Checks.lo4 h, dst := rdPair c o.d 0, src := rdPair c o.a 0,
                           count := rd c o.b 0, ctl := rd c o.c 0, param := rdAt c o.c 1 0, rows := rdAt c o.c 2 0,
                           sstride := rdAt c o.c 3 0, dstride := rdAt c o.c 4 0 }) s

/-- `cpyq` (R264). DEDUCED, log entry 56. -/
def execCpyq (h : Hdr) (o : OpR) (s : State) : Host.Outcome State Fault Refusal :=
  run (.cpyq h o) h mStoreC [(srcP o.a).inUni] [] (fun c =>
    if !acts c then noEffect c
    else match readPacket c (rdPair c o.a 0) with
    | .error r => r
    | .ok (bs, s) =>
      let x := packetCopy bs
      if descField bs 0 4 ≠ 2 ∨ !packetReserved bs ∨ !Checks.copyPair x.dfmt x.sfmt then illegal c s
      else issueCopy c s x) s

/-- COPY_COMMAND_START (R259). -/
def execCopyCommandStart (cluster : Nat) (s : State) : Host.Outcome State Fault Refusal := .next (startCopy s cluster)

/-- COPY_CHUNK_LAND (R260). -/
def execCopyChunkLand (cluster command : Nat) (s : State) : Host.Outcome State Fault Refusal :=
  .next (match (Ops.cluster s cluster).copies.find? (fun x => x.id == command) with
    | some x => advanceCopy s cluster x
    | none => s)

/-- COPY_SIGNAL_WRITE (R262). -/
def execCopySignalWrite (cluster command : Nat) (s : State) : Host.Outcome State Fault Refusal :=
  .next (match (Ops.cluster s cluster).copies.find? (fun x => x.id == command) with
    | some x => signalCopy s cluster x
    | none => s)

/-- SPILL_RING_REFILL (R266). -/
def execSpillRingRefill (cluster : Nat) (s : State) : Host.Outcome State Fault Refusal := .next (refill cluster 64 s)

/-- CESPILLB_WRITE (R266). -/
def execCespillbWrite (cluster value : Nat) (s : State) : Host.Outcome State Fault Refusal :=
  .next (ctlWrite s true (clusterOff cluster + 0x200) 8 value)

end Sys2Proof.Machine
end

