-- ==== Sys2Proof/Machine/Handles.lean ====
section
/-! DEFINITION. The meanings of the buffer-handle instructions (13 R270 to R273) and of `publish` (R274; 11 R228, R229),
with the event PUBLISH_SWAP. -/

namespace Sys2Proof.Machine

open Sys2Proof.Bits
open Ops

namespace Ops

/-! ### Handles -/

/-- The handle that an instruction names. -/
def handleOf (c : Ctx) (r : BitVec 9) : Handle := handle (cluster c.s (clusterOf c.tm.core)) (rd c r 0)

/-- The common checks of R272 and R273: a number of at most 63, and no handle of another context. -/
def handleLegal (c : Ctx) (r : BitVec 9) : Bool := decide (rd c r 0 ≤ 63) && !foreign (handleOf c r) c.tm.ctx

/-- Take a place among the waiters of a handle, once. -/
def awaitHandle (c : Ctx) (r : BitVec 9) (kind : Nat) : Res :=
  match c.f.stage with
  | .handle _ => .wait c.s
  | _ =>
    let x := handleOf c r
    let s1 := setHandle { c.s with uid := c.s.uid + 1 } (clusterOf c.tm.core) (rd c r 0) { x with waits := x.waits ++ [(c.s.uid, kind)] }
    .wait (setStage c s1 (.handle c.s.uid))

/-- The state without the instruction's place among the waiters of a handle. -/
def leaveHandle (c : Ctx) (r : BitVec 9) : State :=
  match c.f.stage with
  | .handle id =>
    let x := handleOf c r
    setHandle c.s (clusterOf c.tm.core) (rd c r 0) { x with waits := x.waits.filter (fun w => w.1 != id) }
  | _ => c.s

/-- A waiting instruction whose handle has become FREE. -/
def handleGone : Stage → Bool
  | .yieldto 64 false => true
  | _ => false

/-- The range of `halloc` lies in the team's scratch. DEDUCED, log entry 58. -/
def hallocFits (c : Ctx) (base size : Nat) : Bool := decide (0 < c.tm.hdr.scratch) && decide (base % 2 ^ 32 + size ≤ c.tm.hdr.scratch)

/-- The effect of `halloc`. DEDUCED, log entry 58. -/
def hallocRes (c : Ctx) (o : OpR) : Res :=
  let space := o.aux.toNat
  let base := rdPair c o.b 0
  let size := rd c o.c 0
  if 63 < rd c o.a 0 then illegal c c.s
  else if size = 0 then .trap (trapOf 0x02 c.active) c.s
  else if (space = 1 && !hallocFits c base size) || foreign (handleOf c o.a) c.tm.ctx then illegal c c.s
  else if (handleOf c o.a).state ≠ 0 then .wait (setStage c c.s .blocked)
  else
    let x : Handle := { state := 1, base := base, size := size, space := space, owner := c.tm.ctx, team := c.g.team }
    .done (setHandle c.s (clusterOf c.tm.core) (rd c o.a 0) x) [] []

/-- The effect of `hfree`. -/
def hfreeRes (c : Ctx) (o : OpR) : Res :=
  let x := handleOf c o.a
  if handleGone c.f.stage then illegal c c.s
  else if !handleLegal c o.a ∨ x.state = 0 then illegal c c.s
  else if x.state = 1 then awaitHandle c o.a 2
  else .done (releaseHandle (leaveHandle c o.a) (clusterOf c.tm.core) (rd c o.a 0)) [] []

/-- The effect of `hwait.take`. -/
def takeRes (c : Ctx) (o : OpR) : Res :=
  let x := handleOf c o.a
  if c.f.stage = .released then noEffect c
  else if handleGone c.f.stage then illegal c c.s
  else if !handleLegal c o.a ∨ x.state = 0 then illegal c c.s
  else if x.state = 2 then
    let s := leaveHandle c o.a
    .done (setHandle s (clusterOf c.tm.core) (rd c o.a 0) { handle (cluster s (clusterOf c.tm.core)) (rd c o.a 0) with state := 3 }) [] []
  else awaitHandle c o.a 0

/-- The effect of `hwait.peek`. -/
def peekRes (c : Ctx) (o : OpR) : Res :=
  let x := handleOf c o.a
  if c.f.stage = .released then noEffect c
  else if handleGone c.f.stage then illegal c c.s
  else if !handleLegal c o.a ∨ x.state = 0 then illegal c c.s
  else if x.state = 1 then awaitHandle c o.a 1
  else .done (leaveHandle c o.a) [] []

/-! ### Publish -/

/-- The pages of a range. -/
def rangePages (base count : Nat) : List Nat := (upto count).map (fun i => wrap 64 ((base + 65536 * i : Nat) : Int))

/-- Translate each 64 KiB of the range: no permission is needed. DEDUCED, log entry 59. -/
def publishTr (c : Ctx) (pages : List Nat) (s : State) : Except Res State :=
  let nd : Needs := { spaces := [0], access := 0, ctrl := false }
  let r := translateAll c nd (pages.map (fun va => { lane := lowLane c.active, ea := va, n := 1 })) s
  match issueFails r.2 nd c.active r.1 with
  | some e => .error e
  | none => .ok r.2

/-- The leaf that maps an address: its entry, bits, and log2 of its page. -/
def rangeLeaf (s : State) (ctx va : Nat) : Option (Nat × Nat × Nat) :=
  match Maps.find? ctx s.contexts with
  | some x => leafAt s va 5 0 x.ptroot
  | none => none

/-- Every leaf is publishable and lies wholly inside the range. -/
def rangeLeaves (s : State) (ctx base count : Nat) : Bool :=
  (rangePages base count).all (fun va => match rangeLeaf s ctx va with
    | some (_, leaf, size) =>
      let page := va / 2 ^ size * 2 ^ size
      leaf.testBit 60 && decide (base ≤ page) && decide (page + 2 ^ size ≤ base + 65536 * count)
    | none => false)

/-- The distinct leaves of a range: entry, bits, log2 of the page, and its base. -/
def rangeDistinct (s : State) (ctx base count : Nat) : List (Nat × Nat × Nat × Nat) :=
  ((rangePages base count).flatMap (fun va => match rangeLeaf s ctx va with
    | some (at_, leaf, size) => [(at_, leaf, size, va / 2 ^ size * 2 ^ size)]
    | none => [])).eraseDups

/-- The physical address of the shadow of a leaf's page. -/
def shadowBase (leaf size : Nat) : Nat := frameOf leaf + b2n (!leaf.testBit 52) * 2 ^ size

/-- The latest CT_system of an engine write to a leaf's shadow. -/
def shadowTime (s : State) (leaf size : Nat) : Nat :=
  let lo := shadowBase leaf size / 2 ^ 16
  (s.shadowCt.filter (fun e => decide (lo ≤ e.1) && decide (e.1 < lo + 2 ^ (size - 16)))).foldl (fun m e => max m e.2) 0

/-- 1 + the latest swap stamp of a page. -/
def nextSwap (s : State) (ctx page : Nat) : Nat :=
  (s.swaps.filter (fun r => r.ctx == ctx && r.base == page)).foldl (fun m r => max m (r.stamp + 1)) 0

/-- The die of the group that publishes. -/
def publishDie (s : State) (p : Publish) : Nat :=
  match group? s p.group with
  | none => 0
  | some g => match team? s g.team with | some t => dieOf t.core | none => 0

/-- The completion register of the group for the scope of its publish. -/
def publishCr (s : State) (p : Publish) : Nat := match group? s p.group with | some g => (crOf g p.scope).getD 0 | none => 0

/-- The release that a publish makes completes (11 R219): items 1 and 2, with loads that bind at issue, and item 3.
DEDUCED, log entries 60, 151. -/
def publishReady (s : State) (p : Publish) : Bool :=
  !accessBefore s p.group p.id && s.stores.all (fun q => !(q.group == p.group && decide (q.id < p.id))) &&
    s.stcms.all (fun l => !(l.group == p.group && decide (l.id < p.id))) &&
    s.rels.all (fun r => !(r.group == p.group && r.hold != 0 && decide (r.id < p.id))) &&
    (p.scope == 0 || passed s (publishDie s p) (publishCr s p))

/-- An earlier publish of the context under way touches a page of the range (R274). -/
def publishBehind (s : State) (p : Publish) : Bool :=
  s.publishes.any (fun q => decide (q.id < p.id) && q.stamp.isNone && q.ctx == p.ctx &&
    meets q.base (65536 * q.count) p.base (65536 * p.count))

/-- The stamp of a publish. DEDUCED, log entry 60. -/
def publishStamp (s : State) (p : Publish) (ls : List (Nat × Nat × Nat × Nat)) : Nat :=
  ls.foldl (fun m e => max m (max (shadowTime s e.2.1 e.2.2.1) (nextSwap s p.ctx e.2.2.2)))
    (max (die s (publishDie s p)).l (publishCr s p))

/-- Invert VIS in one leaf, and record the swap stamp of its page. -/
def swapLeaf (ctx stamp : Nat) (s : State) (e : Nat × Nat × Nat × Nat) : State :=
  let vis := !e.2.1.testBit 52
  let leaf := if vis then e.2.1 + 2 ^ 52 else e.2.1 - 2 ^ 52
  let s1 := hubWrite s e.1 (toBytes 8 leaf)
  { s1 with swaps := ({ ctx := ctx, base := e.2.2.2, size := e.2.2.1, stamp := stamp, vis := vis } : SwapStamp) :: s1.swaps }

/-- The swap of a publish (11 R229); leaf entries in a page that migrates are written after it (R226). -/
def swapPublish (s : State) (p : Publish) : State :=
  if p.stamp.isSome || !publishReady s p || publishBehind s p then s
  else
    let ls := rangeDistinct s p.ctx p.base p.count
    if ls.any (fun e => moves s e.1 8) then s
    else
    let t := publishStamp s p ls
    let s1 := ls.foldl (swapLeaf p.ctx t) s
    let s2 := sweepRange s1 p.ctx p.base (65536 * p.count)
    { s2 with publishes := s2.publishes.map (fun q => if q.id = p.id then { q with stamp := some t } else q) }

/-- The waiting `publish` learns its stamp. -/
def publishEnd (c : Ctx) (o : OpR) (id : Nat) : Res :=
  match c.s.publishes.find? (fun p => p.id == id) with
  | none => .wait c.s
  | some p => match p.stamp with
    | none => .wait c.s
    | some t => .done { c.s with publishes := c.s.publishes.filter (fun q => q.id != id) } (wrLanes c o.d 2 (fun _ => t)) []

/-- The checks of `publish`, and its place at the hub. DEDUCED, log entry 59. -/
def publishRes (c : Ctx) (h : Hdr) (o : OpR) : Res :=
  let base := rdPair c o.a 0
  let count := rd c o.b 0
  if !canonical base then .trap { code := 0x06, cause := 0x00, lanes := c.active, info := base } c.s
  else if base % 65536 ≠ 0 ∨ count = 0 ∨ 65536 < count then illegal c c.s
  else match publishTr c (rangePages base count) c.s with
  | .error r => r
  | .ok s =>
    if !rangeLeaves s c.tm.ctx base count then illegal c s
    else
      let p : Publish := { id := s.uid, ctx := c.tm.ctx, group := c.key, frag := c.frag, base := base, count := count,
                           scope := h.sc.toNat }
      .wait (setStage c { s with uid := s.uid + 1, publishes := s.publishes ++ [p] } (.publish s.uid))

end Ops

/-- `halloc` (R272). -/
def execHalloc (h : Hdr) (o : OpR) (s : State) : Host.Outcome State Fault Refusal :=
  run (.halloc h o) h mSysC ([src o.a, srcP o.b, src o.c].map Opnd.inUni) []
    (fun c => if acts c then hallocRes c o else noEffect c) s

/-- `hfree` (R272). -/
def execHfree (h : Hdr) (o : OpR) (s : State) : Host.Outcome State Fault Refusal :=
  run (.hfree h o) h mSysC [(src o.a).inUni] [] (fun c => if acts c then hfreeRes c o else noEffect c) s

/-- `hwait.take` (R272): its group issues nothing while it waits (08 R168), so its acquire needs nothing more. -/
def execHwaitTake (h : Hdr) (o : OpR) (s : State) : Host.Outcome State Fault Refusal :=
  run (.hwaitTake h o) h mSys [(src o.a).inUni] [] (fun c => if acts c then takeRes c o else noEffect c) s

/-- `hwait.peek` (R272), likewise. -/
def execHwaitPeek (h : Hdr) (o : OpR) (s : State) : Host.Outcome State Fault Refusal :=
  run (.hwaitPeek h o) h mSys [(src o.a).inUni] [] (fun c => if acts c then peekRes c o else noEffect c) s

/-- `hstat` (R272). -/
def execHstat (h : Hdr) (o : OpR) (s : State) : Host.Outcome State Fault Refusal :=
  run (.hstat h o) h mSys [dstP o.d, (src o.a).inUni] [] (fun c =>
    if !acts c then noEffect c
    else if !handleLegal c o.a then illegal c c.s
    else doneN c o.d 2 (fun _ => (handleOf c o.a).state + 2 ^ 32 * (handleOf c o.a).landed)) s

/-- `publish` (R274). -/
def execPublish (h : Hdr) (o : OpR) (s : State) : Host.Outcome State Fault Refusal :=
  run (.publish h o) h mSysC ([dstP o.d, srcP o.a, src o.b].map Opnd.inUni) [] (fun c =>
    match c.f.stage with
    | .publish id => publishEnd c o id
    | _ => if acts c then publishRes c h o else noEffect c) s

/-- PUBLISH_SWAP (11 R229). -/
def execPublishSwap (publish : Nat) (s : State) : Host.Outcome State Fault Refusal :=
  .next (match s.publishes.find? (fun p => p.id == publish) with
    | some p => swapPublish s p
    | none => s)

end Sys2Proof.Machine
end

