-- ==== Sys2Proof/Machine/Matrix.lean ====
section
/-! DEFINITION. The matrix streams: tiles and their tags (14 R283 to R285), the sequencer's meetings and traps (R286 to
R289), the arbiter (R290), the multiply-accumulate forms (R275 to R282; 04 R96 to R98), and the meanings of the stream
instructions (15 R292 to R300) with the events MATRIX_ARBITER_GRANT, ACCTAG_WRITE and ACC_WINDOW_WRITE. -/

namespace Sys2Proof.Machine

open Sys2Proof.Bits
open Sys2Proof.Num
open Ops

namespace Ops

/-! ### Executing a stream instruction -/

/-- How a stream instruction ends. -/
inductive SRes where
  /-- it completes: SPC moves to the next slot -/
  | done (s : State)
  /-- it completes at another program counter -/
  | to_ (pc : DWord) (s : State)
  /-- it does not complete yet -/
  | wait (s : State)
  /-- a route-S trap (R288) -/
  | trap (code cause access addr detail : Nat) (s : State)
  | kill (code : Nat) (s : State)

/-- ILLEGAL_OPERAND. -/
def sIllegal (s : State) : SRes := .trap 0x03 0 0 0 0 s

/-- SPC moves on; the record that the wait has passed is cleared (15 R294). -/
def moveSeq (s : State) (t : Nat) (pc : DWord → DWord) : State :=
  modSeq s t (fun q => { q with spc := pc q.spc, waited := false, rep := 0, granted := false, requesting := false, op := none })

/-- End a stream instruction. -/
def finishSeq (t ctx : Nat) : SRes → State
  | .done s => moveSeq s t nextSlot
  | .to_ pc s => moveSeq s t (fun _ => pc)
  | .wait s => s
  | .trap code cause access addr detail s =>
    stopSeq (modSeq s t (fun q => { q with granted := false, requesting := false, op := none })) t code cause access addr detail
  | .kill code s => terminate s ctx code

/-- SPH of a point. -/
def sphOf (q : Seq) (n : Nat) : Word := Maps.get 0 n q.sph

/-- The sequencer after the wait of its meeting has passed (R287). -/
def passMeeting (q : Seq) (n : Nat) : Seq := { q with sph := Maps.set 0 n (sphOf q n + 1) q.sph, waited := true }

/-- Execute a stream instruction of a team: RP, the meeting's wait unless it has passed or the instruction is an arrival,
and the effect (R292, R294). -/
def runSeqOf (t : Nat) (tm : Team) (q : Seq) (o : OpX) (arrives : Bool) (body : Nat → Team → Seq → State → SRes) (s : State) :
    State :=
  let n := o.rp.toNat
  if seqIdle tm q then s
  else if o.rpe && decide (24 ≤ n) then finishSeq t tm.ctx (sIllegal s)
  else if !o.rpe || arrives || q.waited then finishSeq t tm.ctx (body t tm q s)
  else if phaseDone (rp tm n) (sphOf q n) then
    finishSeq t tm.ctx (body t tm (passMeeting q n) (modSeq s t (fun _ => passMeeting q n)))
  else s

/-- Execute a stream instruction of the sequencer that executes now. -/
def runSeq (o : OpX) (arrives : Bool) (body : Nat → Team → Seq → State → SRes) (s : State) :
    Host.Outcome State Fault Refusal :=
  match s.cur with
  | .seq t =>
    match team? s t with
    | none => .fault .noAgent
    | some tm =>
      match tm.seq with
      | none => .fault .noAgent
      | some q => .next (runSeqOf t tm q o arrives body s)
  | _ => .fault .noAgent

/-! ### Scratch of the sequencer -/

/-- Every byte of a range lies below the team's scratch bound. -/
def inScratch (tm : Team) (off n : Nat) : Bool := decide (off + n ≤ tm.hdr.scratch)

/-- Bytes of the team's scratch. -/
def seqBytes (tm : Team) (off n : Nat) : List Byte := Maps.slice 0 off n tm.scratch

/-- A scale block of n entries: scales at [0, 2n), zero points at [2n, 3n) (R278). -/
def scaleBlockOk (tm : Team) (off n : Nat) : Bool := off % 2 == 0 && inScratch tm off (3 * n)

/-- The scales and zero points of a block. -/
def blockScales (bs : List Byte) (n : Nat) : List Word := (upto n).map (fun i => BitVec.ofNat 32 (ofBytes ((bs.drop (2 * i)).take 2)))
def blockZeros (bs : List Byte) (n : Nat) : List Byte := (bs.drop (2 * n)).take n

/-! ### Tiles and tags (R283 to R285) -/

/-- The values of a physical tile, row by row. -/
def tileWords (k : Core) (t : Nat) : List Word := Maps.slice 0 (t * 4096) 4096 k.tiles

/-- Replace the values of a physical tile. -/
def putTile (s : State) (k t : Nat) (ws : List Word) : State :=
  setCore s k { core s k with tiles := Maps.putAll 0 (t * 4096) ws (core s k).tiles }

/-- The tag (X, K, l, VALID 1). -/
def ownTag (tm : Team) (l : Nat) : AccTag := { ctx := tm.ctx, tkey := tm.tkey, ltile := l, valid := true }

/-- USED of a logical tile. -/
def usedOf (q : Seq) (l : Nat) : Bool := Maps.get false l q.used

/-- Order 3 and 4 of R294 for a tile: the physical tile, claimed when it has no owner, or a trap. -/
def claimTile (t : Nat) (tm : Team) (q : Seq) (l : Nat) (s : State) : Except SRes (Nat × State) :=
  if tm.hdr.acc ≤ l then .error (sIllegal s)
  else
    let phys := tm.tiles.getD l 0
    let tag := Maps.get {} phys (core s tm.core).tags
    if tag = ownTag tm l then .ok (phys, s)
    else if !usedOf q l && !tag.valid then
      let s1 := putTile s tm.core phys (List.replicate 4096 0)
      let s2 := setCore s1 tm.core { core s1 tm.core with tags := Maps.insert phys (ownTag tm l) (core s1 tm.core).tags }
      .ok (phys, modSeq s2 t (fun q => { q with used := Maps.set false l true q.used }))
    else .error (.trap 0x0A 0 0 0 (l + 16 * phys) s)

/-! ### Elements and terms -/

/-- Element `i` of a byte image in a format: bf16 codes, q8 bytes, or q4 nibbles (04 R85). -/
def imageElem (img : Array Byte) (fmt i : Nat) : Nat :=
  let b (j : Nat) : Nat := (img.getD j 0).toNat
  if fmt = 9 then b (2 * i) + 256 * b (2 * i + 1) else if fmt = 11 then b i else field (b (i / 2)) (4 * (i % 2)) 4

/-- Bytes of n elements. -/
def imageBytes (fmt n : Nat) : Nat := if fmt = 9 then 2 * n else if fmt = 11 then n else n / 2

/-- The value of a bf16 input, flushed (04 R92). -/
def bfVal (b : Nat) : Val := val bf16 (ftz bf16 b)

/-- The value of an f16 scale, flushed. -/
def scaleVal (b : Nat) : Val := val f16 (ftz f16 (b % 2 ^ 16))

/-- The weight of an element: a bf16 value, or the exact dequantised value (04 R96). -/
def weightVal (fmt code scale zp : Nat) : Val :=
  if fmt = 9 then bfVal code else mulE (scaleVal scale) (ofInt (qdiff fmt code zp) 0)

/-- The float path of one output (04 R96, R97). -/
def floatOut (as : List Val) (ws : List Val) (old : Nat) : Nat := mmaSum (List.zipWith mulE as ws ++ [accTerm old])

/-- The integer path of one output (04 R98). -/
def intOut (fmt : Nat) (as ws : List Nat) (sa za sw zw old : Nat) : Nat :=
  let p := sat40 ((List.zipWith (fun a w => qdiff 11 a za * qdiff fmt w zw) as ws).foldl (fun x y => x + y) 0)
  mmaSum [mulE (mulE (val f32 (rne (ofInt p 0))) (scaleVal sa)) (scaleVal sw), accTerm old]

/-! ### MMA (15 R297) -/

/-- The pair of formats is allowed (R276). -/
def mmaPair (a b : Nat) : Bool := (a == 9 && (b == 9 || b == 11 || b == 12)) || (a == 11 && (b == 11 || b == 12))

/-- Bytes of an A element. -/
def aSize (q : Seq) : Nat := if q.afmt = 9 then 2 else 1

/-- Elements of a row of A that an MMA reads (R277). -/
def aCols (batched : Bool) : Nat := if batched then 64 else 32

/-- The checks before the tag check. -/
def mmaOk (tm : Team) (q : Seq) (batched : Bool) : Bool :=
  q.latch.valid && q.latch.batched == batched && mmaPair q.afmt q.latch.fmt && q.aoff.toNat % aSize q == 0 &&
    q.astride % aSize q == 0 && inScratch tm (q.aoff.toNat + 63 * q.astride) (aCols batched * aSize q)

/-- Row m of A, as elements. -/
def aRow (tm : Team) (q : Seq) (batched : Bool) (m : Nat) : List Nat :=
  let img := (seqBytes tm (q.aoff.toNat + m * q.astride) (aCols batched * aSize q)).toArray
  (upto (aCols batched)).map (imageElem img q.afmt)

/-- The scale and zero point of an entry of SA or SB. -/
def scaleAt (q : List (Nat × Word)) (i : Nat) : Nat := (Maps.get 0 i q).toNat
def zeroAt (q : List (Nat × Byte)) (i : Nat) : Nat := (Maps.get 0 i q).toNat

/-- One output from a slice of a row of A, a column of the latch, the SA entry i and the SB entry j. -/
def outOf (q : Seq) (as ws : List Nat) (i j old : Nat) : Nat :=
  let sw := scaleAt q.latch.scales j
  let zw := zeroAt q.latch.zeros j
  if q.afmt = 9 then floatOut (as.map bfVal) (ws.map (fun w => weightVal q.latch.fmt w sw zw)) old
  else intOut q.latch.fmt as ws (scaleAt q.saScale i) (zeroAt q.saZero i) sw zw old

/-- Column n of the latch, or of block b of a batched one. -/
def latchCol (q : Seq) (img : Array Byte) (b n : Nat) : List Nat :=
  if q.latch.batched then (upto 16).map (fun k => imageElem img q.latch.fmt ((16 * b + k) * 16 + n))
  else (upto 32).map (fun k => imageElem img q.latch.fmt (k * 64 + n))

/-- The bytes of the latch. -/
def latchImage (q : Seq) : Array Byte := (Maps.slice 0 0 8192 q.latch.data).toArray

/-- The block that computes an output of a batched MMA (R282). -/
def blockAt (r c : Nat) : Nat := 4 * (r / 16) + c / 16

/-- The new values of a tile. -/
def mmaTile (tm : Team) (q : Seq) (batched : Bool) (old : Array Word) : List Word :=
  let img := latchImage q
  let rows := (upto 64).map (aRow tm q batched)
  let cols := if batched then (upto 256).map (fun x => latchCol q img (x / 16) (x % 16)) else (upto 64).map (latchCol q img 0)
  let colArr := cols.toArray
  (rows.zip (upto 64)).flatMap (fun rm => (upto 64).map (fun c =>
    let o := (old.getD (64 * rm.2 + c) 0).toNat
    BitVec.ofNat 32 (if batched then
      let b := blockAt rm.2 c
      outOf q ((rm.1.drop (16 * (b % 4))).take 16) (colArr.getD (16 * b + c % 16) []) (16 * b + rm.2 % 16) (16 * b + c % 16) o
    else outOf q rm.1 (colArr.getD c []) rm.2 c o)))

/-- `mma` and `mma.bat`: the checks, the tag, the array's grant, and the product; the tile is claimed with the product, so
that a switch-out before the grant finds nothing done (R289). DEDUCED, log entry 62. -/
def mmaRes (batched : Bool) (o : OpX) (t : Nat) (tm : Team) (q : Seq) (s : State) : SRes :=
  if !mmaOk tm q batched || decide (tm.hdr.acc ≤ o.tile.toNat) then sIllegal s
  else match claimTile t tm q o.tile.toNat s with
    | .error r => r
    | .ok (phys, s1) =>
      if !q.granted then .wait (modSeq s t (fun q => { q with requesting := true }))
      else
        let ws := mmaTile tm q batched (tileWords (core s1 tm.core) phys).toArray
        let aoff : Word := BitVec.ofNat 32 (wrap 32 ((q.aoff.toNat : Int) + sext 24 o.y.toNat))
        .done (modSeq (putTile s1 tm.core phys ws) t (fun q => { q with aoff := aoff }))

/-! ### Loading the latch (R279 to R281, 15 R296) -/

/-- Replace the latch. -/
def setLatch (s : State) (t fmt : Nat) (batched : Bool) (img : List Byte) (n : Nat) (block : List Byte) : SRes :=
  let l : BLatch := { valid := true, fmt := fmt, batched := batched, data := Maps.entriesFrom 0 0 img,
                      scales := Maps.entriesFrom 0 0 (blockScales block n), zeros := Maps.entriesFrom 0 0 (blockZeros block n) }
  .done (modSeq s t (fun q => { q with latch := l }))

/-- The number of groups of a team. -/
def teamGroups (tm : Team) : Nat := (tm.hdr.roles.map (fun r => r.2.2)).foldl (fun a b => a + b) 0

/-- Registers of a K-quarter (R280). -/
def quarterRegs (fmt : Nat) : Nat := if fmt = 9 then 32 else if fmt = 11 then 16 else 8

/-- The byte image of a K-quarter in a group's registers. -/
def quarterBytes (g : Group) (vb n : Nat) : List Byte :=
  (upto n).flatMap (fun r => (upto 8).flatMap (fun l => toBytes 4 (Maps.get 0 (l * 256 + vb + r) g.v).toNat))

/-- A result that stands in no open window any more is due in the `n` registers from `vb` and not known yet: it counts as written
(01 R27, R30), so the latch waits for it; a result whose window is open is not in the latch (R281). DEDUCED, log entry 172. -/
def resultDue (g : Group) (vb n : Nat) : Bool :=
  g.windows.any (fun w => w.left == 0 && !w.rp && (upto n).any (fun r => (windowNames w).contains (RegName.v (vb + r))))

/-- `mldb`. -/
def mldbRes (fmt : Nat) (o : OpX) (t : Nat) (tm : Team) (s : State) : SRes :=
  let g0 := o.cnt.toNat
  let vb := field o.w.toNat 0 8
  let y := o.y.toNat
  let n := quarterRegs fmt
  let gs := (upto 4).filterMap (fun j => group? s (groupKey t (g0 + j)))
  if teamGroups tm ≤ g0 + 3 ∨ gs.length ≠ 4 ∨ vb % 8 ≠ 0 ∨ gs.any (fun g => decide (g.nv < vb + n)) then sIllegal s
  else if gs.any (fun g => resultDue g vb n) then .wait s
  else if fmt = 9 then setLatch s t fmt false (gs.flatMap (fun g => quarterBytes g vb n)) 0 []
  else if !scaleBlockOk tm y 64 then sIllegal s
  else setLatch s t fmt false (gs.flatMap (fun g => quarterBytes g vb n)) 64 (seqBytes tm y 192)

/-- `mldbs`. -/
def mldbsRes (fmt : Nat) (o : OpX) (t : Nat) (tm : Team) (s : State) : SRes :=
  let batched := o.cnt == 1
  let y := o.y.toNat
  let w := o.w.toNat
  let rows := if batched then 256 else 32
  let rb := imageBytes fmt (if batched then 16 else 64)
  let n := if fmt = 9 then 0 else if batched then 256 else 64
  let sz := if fmt = 9 then 2 else 1
  if y % sz ≠ 0 ∨ w % sz ≠ 0 ∨ !inScratch tm (y + (rows - 1) * w) rb ∨ (fmt ≠ 9 ∧ !scaleBlockOk tm (y + rows * w) n) then sIllegal s
  else setLatch s t fmt batched ((upto rows).flatMap (fun r => seqBytes tm (y + r * w) rb)) n (seqBytes tm (y + rows * w) (3 * n))

/-- `mscale` (R295). -/
def mscaleRes (o : OpX) (t : Nat) (tm : Team) (s : State) : SRes :=
  let n := if o.cnt = 1 then 256 else 64
  if !scaleBlockOk tm o.y.toNat n then sIllegal s
  else
    let bs := seqBytes tm o.y.toNat (3 * n)
    .done (modSeq s t (fun q => { q with saScale := Maps.putAll 0 0 (blockScales bs n) q.saScale,
                                         saZero := Maps.putAll 0 0 (blockZeros bs n) q.saZero }))

/-! ### Tile moves (R298) -/

/-- Bytes of an element in scratch. -/
def moveSize (o : OpX) : Nat := if o.cnt = 1 then 2 else 4

/-- The checks of `mstacc` and `mldacc`. -/
def moveOk (tm : Team) (o : OpX) : Bool :=
  o.y.toNat % moveSize o == 0 && o.w.toNat % moveSize o == 0 && inScratch tm (o.y.toNat + 63 * o.w.toNat) (64 * moveSize o)

/-- bf(y): a bf16 rounding with a subnormal result flushed. -/
def bfOf (y : Nat) : Nat := ftz bf16 (roundTo bf16 0 (val f32 y)).bits

/-- `mstacc`: rows in ascending order. -/
def mstaccRes (o : OpX) (t : Nat) (tm : Team) (q : Seq) (s : State) : SRes :=
  if !moveOk tm o then sIllegal s
  else match claimTile t tm q o.tile.toNat s with
    | .error r => r
    | .ok (phys, s1) =>
      let ws := (tileWords (core s1 tm.core) phys).toArray
      let elem (i : Nat) : List Byte :=
        let x := (ws.getD i 0).toNat
        if o.cnt = 1 then toBytes 2 (bfOf x) else toBytes 4 x
      let row (m : Nat) : List Byte := (upto 64).flatMap (fun n => elem (64 * m + n))
      .done (modTeam s1 t (fun x => { x with
        scratch := (upto 64).foldl (fun sc m => Maps.putAll 0 (o.y.toNat + m * o.w.toNat) (row m) sc) x.scratch }))

/-- `mldacc`. -/
def mldaccRes (o : OpX) (t : Nat) (tm : Team) (q : Seq) (s : State) : SRes :=
  if !moveOk tm o then sIllegal s
  else match claimTile t tm q o.tile.toNat s with
    | .error r => r
    | .ok (phys, s1) =>
      let z := moveSize o
      let elem (bs : List Byte) (n : Nat) : Word :=
        let x := ofBytes ((bs.drop (z * n)).take z)
        BitVec.ofNat 32 (if z = 2 then (toF32 bf16 x).bits else x)
      let row (m : Nat) : List Word :=
        let bs := seqBytes tm (o.y.toNat + m * o.w.toNat) (64 * z)
        (upto 64).map (elem bs)
      .done (putTile s1 tm.core phys ((upto 64).flatMap row))

/-- `mzero`. -/
def mzeroRes (o : OpX) (t : Nat) (tm : Team) (q : Seq) (s : State) : SRes :=
  match claimTile t tm q o.tile.toNat s with
  | .error r => r
  | .ok (phys, s1) => .done (putTile s1 tm.core phys (List.replicate 4096 0))

/-! ### Loops and meetings (R299, R300) -/

/-- The checks of a back edge, made at `mloop` (02 R42, R43). -/
def checkStreamTarget (tm : Team) (pc : DWord) (s : State) : Except SRes State :=
  if !pcFormOk pc then .error (.trap 0x04 0 0 0 0 s)
  else if !canonical (lineOf pc) then .error (.trap 0x06 0x00 4 (lineOf pc) 0 s)
  else match fetchLine s tm.core tm.ctx (lineOf pc) with
    | (.check, s) => .error (.trap 0x1F 0 0 0 0 s)
    | (.fault (.malformed _), s) => .error (.trap 0x06 0x11 4 (lineOf pc) 0 s)
    | (.fault (.absent fpol _), s) =>
      if fpol = 0 then .error (.trap 0x06 0x10 4 (lineOf pc) 0 s)
      else if fpol = 3 then .error (.kill 0x06 s)
      else .error (.trap 0x06 0x02 4 (lineOf pc) 0 s)
    | (.fault .undecided, s) => .error (.wait s)
    | (.fault _, s) => .error (.trap 0x06 0x01 4 (lineOf pc) 0 s)
    | (.line bs, s) =>
      if !lineWordOk true (lineWord bs) then .error (.trap 0x02 0 0 0 0 s)
      else if !marked (lineWord bs) (slotOf pc) then .error (.trap 0x04 0 0 0 0 s)
      else .ok s

/-- `mloop`. DEDUCED, log entry 123. -/
def mloopRes (o : OpX) (t : Nat) (tm : Team) (q : Seq) (s : State) : SRes :=
  let d := field o.w.toNat 0 2
  let n := (if q.depth = d then o.cnt.toNat else Maps.get 0 d q.lstk) - 1
  let target : DWord := BitVec.ofNat 64 (wrap 64 ((lineOf q.spc : Int) + 64 * sext 24 o.y.toNat) + o.sl.toNat)
  if q.depth ≠ d ∧ q.depth ≠ d + 1 then sIllegal s
  else if n = 0 then .done (modSeq s t (fun q => { q with lstk := Maps.set 0 d 0 q.lstk, depth := d }))
  else match checkStreamTarget tm target s with
    | .error r => r
    | .ok s1 => .to_ target (modSeq s1 t (fun q => { q with lstk := Maps.set 0 d n q.lstk, depth := d + 1 }))

/-- An arrival of the sequencer: its scratch writes have been made; it waits while the point cannot count it.
DEDUCED, log entry 62. -/
def marrRes (o : OpX) (t : Nat) (tm : Team) (s : State) : SRes :=
  let n := o.rp.toNat
  let x := rp tm n
  if !x.init || (decide (x.count ≤ x.arr) && decide (x.count ≤ x.next)) then .wait s
  else
    let a : Arrival := { id := s.uid, team := t, rp := n }
    .done (countArrival { s with uid := s.uid + 1, arrivals := s.arrivals ++ [a] } a)

/-! ### The arbiter (R290) -/

/-- The station has a layer waiting for the array. -/
def stationWants (k : Core) (layersOf : NevTile → Nat) : Bool :=
  k.ntiles.any (fun x => x.parked.isNone && !x.granted && x.subst == 0 && decide (x.layer < layersOf x))

/-- The layers of a tile's network. -/
def tileLayers (x : NevTile) : Nat := match x.rows.head? with | some r => ofBytes ((r.net.drop 4).take 1) | none => 0

/-- The teams of a core whose sequencer waits for the array, with their slots. -/
def seqWants (s : State) (k : Nat) : List (Nat × Nat) :=
  s.teams.filterMap (fun (e : Nat × Team) => match e.2.seq with
    | some q => if e.2.core == k && q.requesting && !q.granted && !seqIdle e.2 q then some (e.1, q.slot) else none
    | none => none)

/-- An operation has been granted and not yet begun. -/
def arrayBusy (s : State) (k : Nat) : Bool :=
  (core s k).ntiles.any (fun x => x.granted) ||
    s.teams.any (fun (e : Nat × Team) => e.2.core == k && (match e.2.seq with | some q => q.granted | none => false))

/-- Requesters: 0 the station, 1 to 4 the slots. -/
def requesters (s : State) (k : Nat) : List Nat :=
  (if stationWants (core s k) tileLayers then [0] else []) ++ (upto 4).filterMap (fun i =>
    if (seqWants s k).any (fun e => e.2 == i) then some (i + 1) else none)

/-- A requester is at the high level. -/
def isHigh (prio r : Nat) : Bool := if r = 0 then prio.testBit 4 else prio.testBit (r - 1)

/-- Round-robin: the first requester after the last winner. -/
def nextWinner (last : Nat) (rs : List Nat) : Option Nat := ((upto 5).map (fun i => (last + 1 + i) % 5)).find? (fun r => rs.contains r)

/-- Grant the array to a requester; of several tiles of the gather station, which is one requester, to the one fired first. DESIGN
CHOICE, log entry 180. -/
def grantTo (s : State) (k r : Nat) : State :=
  if r = 0 then
    match (core s k).ntiles.find? (fun x => x.parked.isNone && !x.granted && x.subst == 0 && decide (x.layer < tileLayers x)) with
    | none => s
    | some x =>
      let s1 := setCore s k { core s k with ntiles := (core s k).ntiles.map (fun y => if y.tile = x.tile then { y with granted := true } else y) }
      { s1 with agenda := s1.agenda ++ [.event (.nevalLayer k x.tile)] }
  else match (seqWants s k).find? (fun e => e.2 + 1 == r) with
    | none => s
    | some e =>
      let s1 := modSeq s e.1 (fun q => { q with granted := true })
      { s1 with agenda := s1.agenda ++ [.stream e.1] }

/-- One grant of the arbiter. -/
def arbitrate (s : State) (k : Nat) : State :=
  if arrayBusy s k then s
  else
    let c := core s k
    let rs := requesters s k
    let high := rs.filter (isHigh c.mxprio)
    let low := rs.filter (fun r => !isHigh c.mxprio r)
    let goLow := high.isEmpty || (decide (15 ≤ c.highRun) && !low.isEmpty)
    match nextWinner (if goLow then c.lastLow else c.lastHigh) (if goLow then low else high) with
    | none => s
    | some r =>
      let run := if goLow || low.isEmpty then 0 else c.highRun + 1
      let c1 : Core := if goLow then { c with lastLow := r, highRun := run } else { c with lastHigh := r, highRun := run }
      grantTo (setCore s k c1) k r

end Ops

/-- `mlda` (15 R295). -/
def execMlda (h : Hdr) (o : OpX) (s : State) : Host.Outcome State Fault Refusal :=
  runSeq o false (fun t _ _ s => .done (modSeq s t (fun q => { q with
    aoff := BitVec.ofNat 32 o.y.toNat, astride := o.w.toNat, afmt := Checks.fmt h }))) s

/-- `mldb` (15 R296). -/
def execMldb (h : Hdr) (o : OpX) (s : State) : Host.Outcome State Fault Refusal :=
  runSeq o false (fun t tm _ s => mldbRes (Checks.fmt h) o t tm s) s

/-- `mldbs` (15 R296). -/
def execMldbs (h : Hdr) (o : OpX) (s : State) : Host.Outcome State Fault Refusal :=
  runSeq o false (fun t tm _ s => mldbsRes (Checks.fmt h) o t tm s) s

/-- `mscale` (15 R295). -/
def execMscale (_h : Hdr) (o : OpX) (s : State) : Host.Outcome State Fault Refusal :=
  runSeq o false (fun t tm _ s => mscaleRes o t tm s) s

/-- `mma` (15 R297). -/
def execMma (_h : Hdr) (o : OpX) (s : State) : Host.Outcome State Fault Refusal := runSeq o false (mmaRes false o) s

/-- `mma.bat` (15 R297). -/
def execMmaBat (_h : Hdr) (o : OpX) (s : State) : Host.Outcome State Fault Refusal := runSeq o false (mmaRes true o) s

/-- `mzero` (15 R298). -/
def execMzero (_h : Hdr) (o : OpX) (s : State) : Host.Outcome State Fault Refusal := runSeq o false (mzeroRes o) s

/-- `mstacc` (15 R298). -/
def execMstacc (_h : Hdr) (o : OpX) (s : State) : Host.Outcome State Fault Refusal := runSeq o false (mstaccRes o) s

/-- `mldacc` (15 R298). -/
def execMldacc (_h : Hdr) (o : OpX) (s : State) : Host.Outcome State Fault Refusal := runSeq o false (mldaccRes o) s

/-- `mloop` (15 R299). -/
def execMloop (_h : Hdr) (o : OpX) (s : State) : Host.Outcome State Fault Refusal := runSeq o false (mloopRes o) s

/-- `marr` (15 R300). -/
def execMarr (_h : Hdr) (o : OpX) (s : State) : Host.Outcome State Fault Refusal :=
  runSeq o true (fun t tm _ s => marrRes o t tm s) s

/-- `mwait` (15 R300). -/
def execMwait (_h : Hdr) (o : OpX) (s : State) : Host.Outcome State Fault Refusal := runSeq o false (fun _ _ _ s => .done s) s

/-- `mend` (15 R300): the team ends with it when nothing else of the team remains (08 R157). -/
def execMend (_h : Hdr) (o : OpX) (s : State) : Host.Outcome State Fault Refusal :=
  runSeq o false (fun t _ _ s => .wait (settleTeam (modSeq s t (fun q => { q with ended := true })) t)) s

/-- MATRIX_ARBITER_GRANT (14 R290). -/
def execMatrixArbiterGrant (core : Nat) (s : State) : Host.Outcome State Fault Refusal := .next (arbitrate s core)

/-- ACCTAG_WRITE (14 R284). -/
def execAcctagWrite (core tile value : Nat) (s : State) : Host.Outcome State Fault Refusal :=
  .next (ctlWrite s true (coreOff core + 0x400 + 8 * tile) 8 value)

/-- ACC_WINDOW_WRITE (14 R284). -/
def execAccWindowWrite (core tile offset value : Nat) (s : State) : Host.Outcome State Fault Refusal :=
  .next (ctlWrite s true (coreOff core + 0x10000 + 0x4000 * tile + offset) 4 value)

end Sys2Proof.Machine
end

