-- ==== Sys2Proof/Machine/Xform.lean ====
section
/-! DEFINITION. The transform instructions of class 0xC (15 R301 to R306) and the pipe that executes them (14 R291, 08
R170), with the events XF_PIPE_GRANT and XF_PIPE_REPLY. -/

namespace Sys2Proof.Machine

open Sys2Proof.Bits
open Sys2Proof.Num
open Ops

namespace Ops

/-! ### Runs (R301) -/

/-- Bits of an element of a format code: 4 for q4. -/
def xfWidth (code : Nat) : Nat := if code = 12 then 4 else if code = 11 then 8 else 8 * fmtBytes code

/-- Registers of a run of n elements. -/
def runSpan (w n : Nat) : Nat := ceilDiv (n * w) 32

/-- Element e of a run. -/
def runElem (c : Ctx) (r : BitVec 9) (w e lane : Nat) : Nat := field (rdAt c r (e * w / 32) lane) (e * w % 32) w

/-- The elements packed from the low bits upward. -/
def packRun (w : Nat) (xs : List Nat) : Nat := xs.foldr (fun x acc => x % 2 ^ w + 2 ^ w * acc) 0

/-- Elements with flags: the values, and the flags of all. -/
def runRes (w : Nat) (rs : List FRes) : FRes := ⟨packRun w (rs.map (fun r => r.bits)), rs.foldl (fun acc r => acc ||| r.flags) 0⟩

/-! ### The pipe (R291) -/

/-- Send a request: each lane's result has been formed from the sources as read now, since the group issues nothing until
the pipe accepts it. DEDUCED, log entry 69. -/
def sendXf (c : Ctx) (d : BitVec 9) (span : Nat) (f : Nat → FRes) : Res :=
  if !acts c then noEffect c
  else
    let p := pend c c.s ({ reg := d, count := span, dest := true } : Opnd).names
    let r : XfReq := { group := c.key, window := p.1, writes := wrLanes c d span (fun l => (f l).bits),
                       flags := flagLanes c (fun l => (f l).flags) }
    .issued (setCore p.2 c.tm.core { core p.2 c.tm.core with xfWait := (core p.2 c.tm.core).xfWait ++ [r] })

/-- Execute a transform: a destination run and a source run in vector registers, and further sources.
DEDUCED, log entry 69. -/
def runXf (i : Instr) (h : Hdr) (o : OpR) (dspan aspan : Nat) (more : List Opnd) (f : Ctx → Nat → FRes) (s : State) :
    Host.Outcome State Fault Refusal :=
  run i h mPlain ([{ reg := o.d, count := dspan, file := .vec, dest := true }, { reg := o.a, count := aspan, file := .vec }] ++ more)
    [] (fun c => sendXf c o.d dspan (f c)) s

/-- The quarter of a group (08 R164). -/
def quarterOf (s : State) (key : Nat) : Nat :=
  match group? s key with
  | none => 0
  | some g => match team? s g.team with
    | none => 0
    | some tm => (tm.base + g.idx) % 4

/-- Accept one waiting request, round-robin over the quarters (R170). -/
def xfGrant (s : State) (k : Nat) : State :=
  let c := core s k
  if 16 ≤ c.xf.length then s
  else
    let has (q : Nat) : Bool := c.xfWait.any (fun r => quarterOf s r.group == q)
    match ((upto 4).map (fun i => (c.xfLast + 1 + i) % 4)).find? has with
    | none => s
    | some q =>
      match c.xfWait.find? (fun r => quarterOf s r.group == q) with
      | none => s
      | some r => setCore s k { c with xf := c.xf ++ [r], xfWait := c.xfWait.filter (fun x => x.window != r.window), xfLast := q }

/-- The reply of the oldest request. -/
def xfReply (s : State) (k : Nat) : State :=
  match (core s k).xf with
  | [] => s
  | r :: rest => supply (setCore s k { core s k with xf := rest }) r.group r.window r.writes r.flags

/-! ### Elements (R303 to R306) -/

/-- `xf.cvt` of one element: an equal pair copies bits. -/
def xfElement (dest src x : Nat) : FRes := if dest = src then ⟨x, 0⟩ else cvt dest src 0 false x

/-- The key of an element of `xf.rkey`. -/
def rkeyOf (code x : Nat) : Nat :=
  let top := 2 ^ (xfWidth code - 1)
  if code < 4 then x ^^^ top
  else if code < 8 then x
  else if top ≤ x then 2 ^ xfWidth code - 1 - x else x ||| top

/-- The digit that the control word takes from a key. -/
def rkeyDigit (key ctl : Nat) : Nat :=
  let len := min (field ctl 8 8) 32
  if len = 0 then key else field key (field ctl 0 8) len

/-- One round of `xf.hash`. -/
def hashStep (h x : Nat) : Nat :=
  let h := (h ^^^ x) * 0x9E3779B1 % 2 ^ 32
  h ^^^ (h >>> 15)

/-- `xf.hash` over its words. -/
def hashOf (seed mask : Nat) (xs : List Nat) : Nat :=
  let h := xs.foldl hashStep seed * 0x7FEB352D % 2 ^ 32
  (h ^^^ (h >>> 16)) &&& mask

/-- The final narrowing of `xf.penc`, whose flags join those of the sine or cosine. -/
def pencOut (dest : Nat) (r : FRes) : FRes :=
  if dest = 10 then r
  else
    let f := fmtOf dest
    if isNaN f32 r.bits then ⟨f.nan, r.flags⟩ else (let q := roundTo f 0 (val f32 r.bits); ⟨q.bits, r.flags ||| q.flags⟩)

/-- The elements 2j and 2j + 1 of `xf.penc`. -/
def pencPair (dest x j : Nat) : List FRes :=
  let y := rne (mulE (val f32 x) (.num false 1 (j : Int)))
  let a := rne (mulE (val f32 y) (val f32 0x40490FDB))
  [pencOut dest (fsin a), pencOut dest (fcos a)]

/-- `xf.penc` of a lane; a signalling NaN sets FNV once. -/
def pencOf (dest n x : Nat) : FRes :=
  let r := runRes (xfWidth dest) ((upto n).flatMap (pencPair dest x))
  ⟨r.bits, r.flags ||| snanFlags f32 [x]⟩

/-- A run converted element by element. -/
def xfMap (c : Ctx) (h : Hdr) (o : OpR) (f : Nat → Nat → FRes) (lane : Nat) : FRes :=
  let sw := xfWidth (Checks.lo4 h)
  runRes (xfWidth (Checks.fmt h)) ((upto o.aux.toNat).map (fun e => f lane (runElem c o.a sw e lane)))

/-- The spans of the two runs of n elements. -/
def dSpan (h : Hdr) (o : OpR) : Nat := runSpan (xfWidth (Checks.fmt h)) o.aux.toNat
def aSpan (h : Hdr) (o : OpR) : Nat := runSpan (xfWidth (Checks.lo4 h)) o.aux.toNat

end Ops

/-- `xf.cvt` (R303). -/
def execXfCvt (h : Hdr) (o : OpR) (s : State) : Host.Outcome State Fault Refusal :=
  runXf (.xfCvt h o) h o (dSpan h o) (aSpan h o) []
    (fun c => xfMap c h o (fun _ x => xfElement (Checks.fmt h) (Checks.lo4 h) x)) s

/-- `xf.quant` (R303). -/
def execXfQuant (h : Hdr) (o : OpR) (s : State) : Host.Outcome State Fault Refusal :=
  runXf (.xfQuant h o) h o (dSpan h o) (aSpan h o) [src o.b, src o.c]
    (fun c => xfMap c h o (fun l x => quant (Checks.fmt h) (Checks.lo4 h) 0 x (rd c o.b l) (rd c o.c l))) s

/-- `xf.dequant` (R303). -/
def execXfDequant (h : Hdr) (o : OpR) (s : State) : Host.Outcome State Fault Refusal :=
  runXf (.xfDequant h o) h o (dSpan h o) (aSpan h o) [src o.b, src o.c]
    (fun c => xfMap c h o (fun l x => dequant (Checks.fmt h) (Checks.lo4 h) 0 false x (rd c o.b l) (rd c o.c l))) s

/-- `xf.rkey` (R304). -/
def execXfRkey (h : Hdr) (o : OpR) (s : State) : Host.Outcome State Fault Refusal :=
  runXf (.xfRkey h o) h o (dSpan h o) (aSpan h o) [src o.b]
    (fun c => xfMap c h o (fun l x => ⟨rkeyDigit (rkeyOf (Checks.lo4 h) x) (rd c o.b l), 0⟩)) s

/-- `xf.hash` (R305). -/
def execXfHash (h : Hdr) (o : OpR) (s : State) : Host.Outcome State Fault Refusal :=
  runXf (.xfHash h o) h o 1 o.aux.toNat [src o.b, src o.c]
    (fun c l => ⟨hashOf (rd c o.b l) (rd c o.c l) ((upto o.aux.toNat).map (fun e => rdAt c o.a e l)), 0⟩) s

/-- `xf.penc` (R306). -/
def execXfPenc (h : Hdr) (o : OpR) (s : State) : Host.Outcome State Fault Refusal :=
  runXf (.xfPenc h o) h o (runSpan (xfWidth (Checks.fmt h)) (2 * o.aux.toNat)) 1 []
    (fun c l => pencOf (Checks.fmt h) o.aux.toNat (rd c o.a l)) s

/-- XF_PIPE_GRANT (08 R170, 14 R291). -/
def execXfPipeGrant (core : Nat) (s : State) : Host.Outcome State Fault Refusal := .next (xfGrant s core)

/-- XF_PIPE_REPLY (14 R291). -/
def execXfPipeReply (core : Nat) (s : State) : Host.Outcome State Fault Refusal := .next (xfReply s core)

end Sys2Proof.Machine
end

