-- ==== Sys2Proof/Machine/Neval.lean ====
section
/-! DEFINITION. Per-lane network evaluation (16 R307 to R328, 22 R413 to R415): networks and their checks, `neval` and
`nevstat`, the gather station with its slots, spill ring and tiles, and its events. -/

namespace Sys2Proof.Machine

open Sys2Proof.Bits
open Sys2Proof.Num
open Ops

namespace Ops

/-! ### Networks (R308 to R311) -/

/-- A layer record. -/
structure NevLayer where
  wts : Nat
  bias : Nat
  outw : Nat
  wfmt : Nat
  act : Nat
  slope : Nat
  lo : Nat
  hi : Nat

/-- Fields of a descriptor. -/
def netLayers (net : List Byte) : Nat := descField net 4 1
def netInw (net : List Byte) : Nat := descField net 5 1
def netFlags (net : List Byte) : Nat := descField net 6 1
def netInBf (net : List Byte) : Bool := (netFlags net).testBit 0
def netOutBf (net : List Byte) : Bool := (netFlags net).testBit 1

/-- Layer i. -/
def netLayer (net : List Byte) (i : Nat) : NevLayer :=
  let f := descField (net.drop (0x40 + 32 * i))
  { wts := f 0 8, bias := f 8 8, outw := f 0x10 1, wfmt := f 0x11 1, act := f 0x12 1, slope := f 0x13 1, lo := f 0x14 4,
    hi := f 0x18 4 }

/-- The input width of layer i (R310). -/
def layerIn (net : List Byte) : Nat → Nat
  | 0 => netInw net
  | i + 1 => (netLayer net i).outw

/-- Outputs of the network. -/
def netOut (net : List Byte) : Nat := layerIn net (netLayers net)

/-- Registers of the input and output runs (R314). -/
def netInRegs (net : List Byte) : Nat := if netInBf net then ceilDiv (netInw net) 2 else netInw net
def netOutRegs (net : List Byte) : Nat := if netOutBf net then netOut net / 2 else netOut net

/-- Well-formedness of a layer (R311). -/
def layerOk (net : List Byte) (i : Nat) : Bool :=
  let y := netLayer net i
  [8, 16, 32, 64].contains y.outw && [9, 11, 12].contains y.wfmt && decide (y.act < 4) && decide (y.slope < 16) &&
    ((y.slope != 0) == (y.act == 2)) &&
    (if y.act = 3 then !isNaN f32 y.lo && !isNaN f32 y.hi && !ltVal (val f32 y.hi) (val f32 y.lo) else y.lo == 0 && y.hi == 0) &&
    descField (net.drop (0x40 + 32 * i)) 0x1C 4 == 0 && canonical y.wts && y.wts % 64 == 0 &&
    (y.bias == 0 || (canonical y.bias && y.bias % 4 == 0))

/-- A layer count in range. -/
def layersOk (n : Nat) : Bool := decide (1 ≤ n) && decide (n ≤ 8)

/-- Well-formedness of a descriptor (R311). -/
def netOk (net : List Byte) : Bool :=
  descField net 0 4 == 0x4C56454E && layersOk (netLayers net) && decide (1 ≤ netInw net) && decide (netInw net ≤ 64) &&
    decide (netFlags net < 4) && descField net 7 57 == 0 && (upto (netLayers net)).all (layerOk net)

/-! ### Arithmetic (R317, R318) -/

/-- The activation on an f32 value. -/
def activate (y : NevLayer) (c : Nat) : Nat :=
  let v := val f32 c
  let pos : Bool := ltVal (val f32 0) v
  if isNaN f32 c then 0x7FC00000
  else if y.act = 0 then c
  else if y.act = 1 then (if pos then c else 0)
  else if y.act = 2 then (if pos || c == 0 then c else ftz f32 (rne (mulE v (.num false 1 (-(y.slope : Int))))))
  else
    let lo := ftz f32 y.lo
    let hi := ftz f32 y.hi
    if ltVal v (val f32 lo) then lo else if ltVal (val f32 hi) v then hi else c

/-- Output n of a layer for one row: the chunks in ascending order, the bias as first accumulator. -/
def nevOut (y : NevLayer) (w : Nat) (h : List Val) (weights : List Val) (bias : Nat) : Nat :=
  let terms := List.zipWith mulE h weights
  let chunk (j : Nat) : List Val := (upto 32).map (fun k => if 32 * j + k < w then terms.getD (32 * j + k) (.num false 0 0) else .num false 0 0)
  activate y ((upto (ceilDiv w 32)).foldl (fun c j => mmaSum (chunk j ++ [val f32 c])) (ftz f32 bias))

/-- The activations that inputs give (R317): 64 bf16 values. -/
def nevInputs (net : List Byte) (xs : List Word) : List Nat :=
  (upto 64).map (fun k =>
    if k < netInw net then
      (if netInBf net then ftz bf16 (field (xs.getD (k / 2) 0).toNat (16 * (k % 2)) 16) else bfOf (xs.getD k 0).toNat)
    else 0)

/-- The registers of an output run. -/
def nevWords (net : List Byte) (ys : List Nat) : List Word :=
  if netOutBf net then (upto (netOutRegs net)).map (fun j =>
    BitVec.ofNat 32 (bfOf (ys.getD (2 * j) 0) + 2 ^ 16 * bfOf (ys.getD (2 * j + 1) 0)))
  else ys.map (fun y => BitVec.ofNat 32 y)

/-! ### Reading a layer (R310, R323, R326) -/

/-- Bytes of a K-row of a layer. -/
def rowSize (y : NevLayer) : Nat := imageBytes y.wfmt y.outw

/-- The ranges that a layer reads: weight rows, scale blocks and biases, as (address, bytes). -/
def layerRanges (y : NevLayer) (w : Nat) : List (Nat × Nat) :=
  let chunks := ceilDiv w 32
  [(y.wts, w * rowSize y), (y.wts + 32 * chunks * rowSize y, if y.wfmt = 9 then 0 else 3 * y.outw * chunks),
    (y.bias, if y.bias = 0 then 0 else 4 * y.outw)]

/-- A part of a layer as read: its bytes, or what it met, with its address. -/
inductive NevRead where
  | bytes (bs : List Byte)
  /-- a page that parks, with the page's base -/
  | park (addr cause page : Nat)
  | kill (code : Nat)
  | wait
  | zero
  | poison
  deriving DecidableEq, Repr

/-- A store of some group to a range is pending: a load of that group would see it, and a load of another need not. -/
def storedBy (s : State) (gs : List Nat) (pa n : Nat) : Bool :=
  s.stores.any (fun p => p.scratch.isNone && gs.contains p.group && meets p.pa p.bytes.length pa n)

/-- The page that an address is in, log2 of its size, whatever its leaf permits. -/
def leafSize (s : State) (ctx d va : Nat) : Nat :=
  match (Maps.find? ctx s.contexts).map (fun x => walk s d va 5 0 x.ptroot) with
  | some (.ok _ _ _ size) => size
  | _ => 16

/-- Read a part through the L2 for a tile with rows of the groups `gs`; it waits while a store of theirs to it is pending, so
that it reads what a load of each of them may return (R323). An address beyond the canonical ones parks as a page that may not be
read does. DESIGN CHOICE, log entry 155. -/
def readPart (s : State) (ctx k : Nat) (gs : List Nat) (r : Nat × Nat) : NevRead × State :=
  let page (size : Nat) : Nat := r.1 / 2 ^ size * 2 ^ size
  match translateEngine s ctx (dieOf k) r.1 1 0 false with
  | .ok pa leaf _ size =>
    if windowOf pa = .control then (.park r.1 0x11 (page size), s)
    else if (homeDie s (dieOf k) pa).isNone then (.kill 0x1F, s)
    else if storedBy s gs pa r.2 || readWaits s k pa leaf r.2 then (.wait, s)
    else (let x := loadMem s k pa leaf r.2 true; (.bytes x.1, x.2))
  | .absent fpol size =>
    (if fpol = 0 then .park r.1 0x10 (page size) else if fpol = 1 then .zero else if fpol = 2 then .poison else .kill 0x06, s)
  | .malformed size => (.park r.1 0x11 (page size), s)
  | .broken => (.kill 0x1F, s)
  | .undecided => (.wait, s)
  | _ => (.park r.1 0x12 (page (leafSize s ctx (dieOf k) r.1)), s)

/-- Read every part in order. -/
def readParts (ctx k : Nat) (gs : List Nat) : List (Nat × Nat) → State → List NevRead × State
  | [], s => ([], s)
  | r :: rs, s =>
    let x := readPart s ctx k gs r
    let rest := readParts ctx k gs rs x.2
    (x.1 :: rest.1, rest.2)

/-- The bytes of parts that were all read. -/
def partBytes : List NevRead → List Byte
  | [] => []
  | .bytes bs :: rest => bs ++ partBytes rest
  | _ :: rest => partBytes rest

/-- One record per page, with the lowest address read on it (R413). -/
def parkPages : List NevRead → List (Nat × Nat × Nat) → List (Nat × Nat × Nat)
  | [], acc => acc.reverse
  | .park addr cause page :: rest, acc =>
    if acc.any (fun e => e.1 == page) then
      parkPages rest (acc.map (fun e => if e.1 == page && decide (addr < e.2.1) then (page, addr, cause) else e))
    else parkPages rest ((page, addr, cause) :: acc)
  | _ :: rest, acc => parkPages rest acc

/-- The weights of the columns and the biases, from the bytes of the three ranges. -/
def layerColumns (y : NevLayer) (w : Nat) (rows scales biases : Array Byte) : List (List Val × Nat) :=
  let rb := rowSize y
  let at_ (bs : Array Byte) (i n : Nat) : Nat := ofBytes ((upto n).map (fun j => bs.getD (i + j) 0))
  let weight (k n : Nat) : Val :=
    let blk := 3 * y.outw * (k / 32)
    let img : Array Byte := ((upto 2).map (fun j => rows.getD (k * rb + (if y.wfmt = 9 then 2 * n else if y.wfmt = 11 then n else n / 2) + j) 0)).toArray
    weightVal y.wfmt (imageElem img y.wfmt (if y.wfmt = 12 then n % 2 else 0)) (at_ scales (blk + 2 * n) 2) (at_ scales (blk + 2 * y.outw + n) 1)
  (upto y.outw).map (fun n => ((upto w).map (fun k => weight k n), if y.bias = 0 then 0 else at_ biases (4 * n) 4))

/-! ### The station's slots and spill ring (R320 to R322) -/

/-- A request of the key is spilled. -/
def keySpilled (k : Core) (ctx handle : Nat) : Bool := k.nspill.any (fun r => r.ctx == ctx && r.handle == handle)

/-- A request of the key would spill. -/
def spills (k : Core) (ctx handle : Nat) : Bool :=
  keySpilled k ctx handle || ((slotOfKey k ctx handle).isNone && decide (16 ≤ k.slots.length))

/-- Admit requests in order; those that spill at a full ring are left out and named. -/
def admitReqs (n quota : Nat) : List NevReq → Core → Core × List Nat
  | [], k => (k, [])
  | r :: rs, k =>
    if spills k r.ctx r.handle then
      if quota ≤ k.nspill.length then (let x := admitReqs n quota rs k; (x.1, r.lane :: x.2))
      else admitReqs n quota rs { k with nspill := k.nspill ++ [r] }
    else admitReqs n quota rs (enterSlot n k r)

/-- QUOTA of a core's spill ring. -/
def nevQuota (s : State) (k : Nat) : Nat := field (ctl s (coreOff k + 0x310)) 0 16

/-- The place of the next spilled request in a core's ring. -/
def ringSlot (s : State) (k n : Nat) : Nat := ctl s (coreOff k + 0x308) + 512 * (((core s k).nspillNext + n) % max 1 (nevQuota s k))

/-- The places of the next `n` spilled requests can be reached. -/
def ringReaches (s : State) (k n : Nat) : Bool := (upto n).all (fun i => reachable s (dieOf k) (ringSlot s k i) 512)

/-- The spilled requests written to the ring: their format is not architectural. DESIGN CHOICE, log entry 73. -/
def writeRing (s : State) (k : Nat) : Nat → State
  | 0 => s
  | n + 1 =>
    let c := core s k
    let fb := freeBytes s 512
    let s1 := hubWrite fb.2 (ringSlot s k 0) fb.1
    writeRing (setCore s1 k { core s1 k with nspillNext := c.nspillNext + 1 }) k n

/-- Refill the station of a core. DESIGN CHOICE, log entry 73. -/
def refillStation (s : State) (k : Nat) : State :=
  let x := core s k
  if x.nspill.isEmpty then s else setCore { s with uid := s.uid + 1 } k (refillCore s.uid x.nspill.length x)

/-- Make eligible every slot that holds a request which a test names, in the order in which they were taken (R415). -/
def kickSlots (s : State) (k : Nat) (p : NevReq → Bool) : State :=
  let x := core s k
  setCore { s with uid := s.uid + 16 } k { x with
    slots := x.slots.mapIdx (fun i q => if q.eligible.isNone && q.reqs.any p then { q with eligible := some (s.uid + i) } else q) }

/-! ### `neval` (R315, R316) -/

/-- A translated access can be read now, as a load of the group. -/
def readsNow (c : Ctx) (s : State) (e : Acc × Tr) : Bool :=
  match e.2 with
  | .ok pa leaf _ _ => !readWaits s c.tm.core pa leaf e.1.n
  | _ => false

/-- The outcome of translations in order: the first lane whose access cannot be read decides. DEDUCED, log entry 70. -/
def nevJudge (c : Ctx) (ts : List (Acc × Tr)) (s : State) : Except Res (List (Acc × Nat × Nat)) :=
  let lanes (p : Tr → Bool) : Nat := lanesWhere ts p
  match ts.find? (fun e => !readsNow c s e) with
  | none => .ok (ts.map (fun e => match e.2 with | .ok pa leaf _ _ => (e.1, pa, leaf) | _ => (e.1, 0, 0)))
  | some e =>
    match e.2 with
    | .noncanon => .error (.trap { code := 0x06, cause := 0x00, lanes := lanes (fun t => t == .noncanon), info := e.1.ea } s)
    | .denied => .error (.trap { code := 0x06, cause := 0x01, lanes := lanes (fun t => t == .denied), info := e.1.ea } s)
    | .absent 3 _ => .error (.kill 0x06 s)
    | .broken => .error (.kill 0x1F s)
    | .undecided => .error (.wait s)
    | .ok _ _ _ _ => .error (.wait s)
    | .absent 0 _ => .error (.park s (pageFaults 1 ts []))
    | .malformed _ => .error (.park s (pageFaults 1 ts []))
    | _ => .error (.trap { code := 0x06, cause := 0x02, lanes := lanes (fun t => match t with | .absent p _ => p == 1 || p == 2 | _ => false),
                           info := e.1.ea } s)

/-- What the reads of checks 2 and 4 need. -/
def nevNeeds : Needs := { spaces := [0], rd := 1, access := 1, ctrl := false }

/-- Check 2: translate every access. -/
def nevAccess (c : Ctx) (s : State) (as : List Acc) : Except Res (List (Acc × Nat × Nat) × State) :=
  let r := translateAll c nevNeeds as s
  (nevJudge c r.1 r.2).map (fun xs => (xs, r.2))

/-- Read the bytes of translated accesses as loads of the group. -/
def nevLoads (c : Ctx) : List (Acc × Nat × Nat) → State → List (Acc × List Byte) × State
  | [], s => ([], s)
  | (a, pa, leaf) :: rest, s =>
    let r := loadPlace c false false false s a (.mem pa leaf)
    let q := nevLoads c rest r.2
    ((a, r.1) :: q.1, q.2)

/-- The bytes that one lane's accesses gave, in order. -/
def laneBytes (xs : List (Acc × List Byte)) (lane : Nat) : List Byte := (xs.filter (fun e => e.1.lane == lane)).flatMap (fun e => e.2)

/-- Check 4 in one lane: the head of the descriptor and, once it has been read, its layer records. -/
def nevDesc (c : Ctx) (desc : Nat → Nat) (l : Nat) (s : State) : List (Acc × Tr) × State :=
  let head := translateAll c nevNeeds [{ lane := l, ea := desc l, n := 64 }] s
  match head.1 with
  | [(a, .ok pa leaf _ _)] =>
    if readWaits head.2 c.tm.core pa leaf 64 then head
    else
    let read := nevLoads c [(a, pa, leaf)] head.2
    let n := netLayers (laneBytes read.1 l)
    let more := translateAll c nevNeeds ((upto (if layersOk n then ceilDiv n 2 else 0)).map (fun j =>
      { lane := l, j := j + 1, ea := (desc l + 64 * (j + 1)) % 2 ^ 64, n := 64 })) read.2
    (head.1 ++ more.1, more.2)
  | _ => head

/-- Check 4 in every lane, ascending. -/
def nevDescs (c : Ctx) (desc : Nat → Nat) : List Nat → State → List (Acc × Tr) × State
  | [], s => ([], s)
  | l :: ls, s =>
    let r := nevDesc c desc l s
    let rest := nevDescs c desc ls r.2
    (r.1 ++ rest.1, rest.2)

/-- ILLEGAL_OPERAND in the lanes that fail a test, if any do. -/
def nevFail (c : Ctx) (s : State) (ok : Nat → Bool) : Option Res :=
  let bad := (lanesOf c.pass).filter (fun l => !ok l)
  if bad.isEmpty then none else some (.trap (trapOf 0x03 (maskOf bad)) s)

/-- Check 2: the entries are loads of the group, so their addresses are canonical and aligned before they are translated (12
R234, 01 R22). -/
def nevEntries (c : Ctx) (s : State) (as : List Acc) : Except Res (List (Acc × Nat × Nat) × State) :=
  match addrFault s as with
  | some e => .error e
  | none => nevAccess c s as

/-- Checks 1 to 5: the table entry and the descriptor of each lane. DEDUCED, log entry 70. -/
def nevNets (c : Ctx) (x : Context) (handle : Nat → Nat) : Except Res ((Nat → Nat) × (Nat → List Byte) × State) :=
  match nevFail c c.s (fun l => decide (handle l < min x.ntlen 65536)) with
  | some r => .error r
  | none =>
  match nevEntries c c.s ((lanesOf c.pass).map (fun l => { lane := l, ea := (x.ntab + 8 * handle l) % 2 ^ 64, n := 8 })) with
  | .error r => .error r
  | .ok (as, s1) =>
  let ents := nevLoads c as s1
  let entry (l : Nat) : Nat := ofBytes (laneBytes ents.1 l)
  let desc (l : Nat) : Nat := entry l / 64 * 64
  match nevFail c ents.2 (fun l => (entry l).testBit 0 && canonical (desc l)) with
  | some r => .error r
  | none =>
  let ds := nevDescs c desc (lanesOf c.pass) ents.2
  match nevJudge c ds.1 ds.2 with
  | .error r => .error r
  | .ok bs =>
  let recs := nevLoads c bs ds.2
  let net (l : Nat) : List Byte :=
    let read := laneBytes recs.1 l
    read.take (0x40 + 32 * netLayers read)
  match nevFail c recs.2 (fun l => netOk (net l)) with
  | some r => .error r
  | none => .ok (entry, net, recs.2)

/-- Open the windows of the requests; a parked instruction's own window makes way, with what it has left to count. -/
def openNev (c : Ctx) (s : State) (reqs : List (NevReq × Nat)) : State :=
  let left : Nat := match c.park with
    | some q => ((c.g.windows.find? (fun w => w.id == q.window)).map (fun w => w.left)).getD 0
    | none => c.h.la.toNat + 1
  let names (r : NevReq × Nat) : List RegName := (upto r.2).map (fun i => .v (r.1.dreg + i))
  let ws : List Window := reqs.map (fun r => { id := r.1.window, left := left, ready := false, dest := names r, nev := some c.f.pc, lane := some r.1.lane })
  modGroup s c.key (fun g => { g with
    windows := match c.park with
      | some q => g.windows.flatMap (fun w => if w.id = q.window then ws else [w])
      | none => g.windows ++ ws })

/-- The request of a lane; its numbers come from `base` upward. -/
def nevReq (c : Ctx) (o : OpR) (base : Nat) (entry : Nat → Nat) (net : Nat → List Byte) (l : Nat) : NevReq :=
  { id := base + 2 * l, ctx := c.tm.ctx, group := c.key, slot := c.g.slot, lane := l, handle := rd c o.b l,
    window := base + 2 * l + 1, inputs := (upto (netInRegs (net l))).map (fun i => BitVec.ofNat 32 (rdAt c o.a i l)),
    dreg := regNo o.d, time := c.s.now, entry := entry l, net := net l }

/-- The registers of every run. -/
def nevNames (c : Ctx) (o : OpR) (net : Nat → List Byte) : List RegName :=
  (lanesOf c.pass).flatMap (fun l => (upto (netInRegs (net l))).map (fun i => RegName.v (regNo o.a + i)) ++
    (upto (netOutRegs (net l))).map (fun i => RegName.v (regNo o.d + i)))

/-- Checks 6 and 7, room, and entry into the station. DEDUCED, log entry 74. -/
def nevEnter (c : Ctx) (o : OpR) (entry : Nat → Nat) (net : Nat → List Byte) (s : State) : Res :=
  match nevFail c s (fun l => decide (regNo o.a + netInRegs (net l) ≤ c.g.nv) && decide (regNo o.d + netOutRegs (net l) ≤ c.g.nv)) with
  | some r => r
  | none =>
    let k := c.tm.core
    let reqs := (lanesOf c.pass).map (nevReq c o s.uid entry net)
    let s := refillStation s k
    let before := core s k
    let r := admitReqs (s.uid + 16) (nevQuota s k) reqs before
    if c.park.isNone && (nevNames c o net).any (fun n => (held c.g).contains n) then .wait s
    else if !r.2.isEmpty then .trap (trapOf 0x09 (maskOf r.2)) s
    else if 4096 < nevPending before + reqs.length then .wait s
    else if !ringReaches s k (r.1.nspill.length - before.nspill.length) then .kill 0x1F s
    else
      let s1 := setCore { s with uid := s.uid + 17 } k r.1
      let s2 := writeRing s1 k (r.1.nspill.length - before.nspill.length)
      .issued (openNev c s2 (reqs.map (fun q => (q, netOutRegs q.net))))

/-- The effect of `neval`. -/
def nevalRes (c : Ctx) (o : OpR) : Res :=
  if !acts c then noEffect c
  else match Maps.find? c.tm.ctx c.s.contexts with
    | none => .wait c.s
    | some x =>
      match nevNets c x (rd c o.b) with
      | .error r => r
      | .ok (entry, net, s) => nevEnter c o entry net s

/-- The group's requests that have not landed. -/
def unlanded (g : Group) : Nat := (g.windows.filter (fun w => w.nev.isSome)).length

/-! ### Firing (R322) -/

/-- TIMER, in ticks. -/
def nevTimer (s : State) (k : Nat) : Nat := 2 * field (ctl s (coreOff k + 0x300)) 0 16

/-- The timer check of a slot. -/
def timerExpiry (s : State) (k slot : Nat) : State :=
  let s := refillStation s k
  let x := core s k
  setCore { s with uid := s.uid + 1 } k { x with slots := x.slots.map (fun q =>
    if q.slot == slot && q.eligible.isNone && (match q.reqs with | r :: _ => decide (r.time + nevTimer s k ≤ s.now) | [] => false)
    then { q with eligible := some s.uid } else q) }

/-- A tile of the slot's key is in flight. -/
def inFlight (k : Core) (q : NevSlot) : Bool := k.ntiles.any (fun t => t.ctx == q.ctx && t.handle == q.handle)

/-- The eligible slot that fires next: the first that became eligible among those without a tile in flight. -/
def nextSlotToFire (k : Core) : Option NevSlot :=
  (k.slots.filter (fun q => q.eligible.isSome && !q.reqs.isEmpty && !inFlight k q)).foldl (fun best q =>
    match best with
    | none => some q
    | some b => if q.eligible.getD 0 < b.eligible.getD 0 then some q else some b) none

/-- Insert a row by (group slot, lane), after the rows of the same lane. -/
def insertRow (r : NevReq) : List NevReq → List NevReq
  | [] => [r]
  | x :: xs => if r.slot < x.slot ∨ (r.slot = x.slot ∧ r.lane < x.lane) then r :: x :: xs else x :: insertRow r xs

/-- The oldest requests with the network of the oldest, up to 64. -/
def rowsToFire (q : NevSlot) : List NevReq :=
  match q.reqs with
  | [] => []
  | r :: _ => (q.reqs.filter (fun x => x.entry == r.entry && x.net == r.net)).take 64

/-- Fire the next slot into a free tile. DEDUCED, log entries 71, 72. -/
def fireTile (s : State) (k : Nat) : State :=
  let s := refillStation s k
  let x := core s k
  match (if 2 ≤ x.ntiles.length then none else nextSlotToFire x) with
  | none => s
  | some q =>
    let taken := rowsToFire q
    let rows := taken.foldl (fun acc r => insertRow r acc) []
    let tile := if x.ntiles.any (fun t => t.tile == 14) then 15 else 14
    let t : NevTile := { tile := tile, ctx := q.ctx, handle := q.handle, rows := rows,
                         acts := rows.map (fun r => nevInputs r.net r.inputs) }
    let left : NevSlot := { q with reqs := q.reqs.filter (fun r => taken.all (fun y => y.id != r.id)), eligible := none }
    setCore { s with uid := s.uid + 1 } k { x with
      ntiles := x.ntiles ++ [t], slots := x.slots.map (fun y => if y.slot = q.slot then slotFull s.uid left else y) }

/-! ### Layers and landing (R323, R326, R327) -/

/-- Change a tile. -/
def modTile (s : State) (k tile : Nat) (f : NevTile → NevTile) : State :=
  setCore s k { core s k with ntiles := (core s k).ntiles.map (fun x => if x.tile = tile then f x else x) }

/-- Park a tile: one record per page, unless a page has failed 16 times (R413, 21 R400). -/
def parkTile (s : State) (k : Nat) (t : NevTile) (pages : List (Nat × Nat × Nat)) : State :=
  if pages.any (fun p => decide (16 ≤ Maps.get 0 p.1 t.reps)) then terminate s t.ctx 0x07
  else
    let record (s : State) (p : Nat × Nat × Nat) : State := (raise s {
      ctx := t.ctx, code := 0x06, cause := p.2.2, source := 3, access := 1, place := k, rep := Maps.get 0 p.1 t.reps,
      addr := p.2.1, detail := t.handle + 2 ^ 16 * t.layer, agent := .station k t.tile }).2
    let s1 := modTile s k t.tile (fun x => { x with
      granted := false, parked := some s.uid, faulted := pages.map Prod.fst })
    pages.foldl record s1

/-- The layer's outputs for every row. DEDUCED, log entry 71. -/
def runLayer (t : NevTile) (y : NevLayer) (w : Nat) (last : Bool) (cols : List (List Val × Nat)) : List (List Nat) :=
  t.acts.map (fun h =>
    let hv := (h.take w).map (val bf16)
    let ys := cols.map (fun col => nevOut y w hv col.1 col.2)
    if last then ys else (upto 64).map (fun n => if n < y.outw then bfOf (ys.getD n 0) else 0))

/-- Run the next layer of a granted tile. -/
def doLayer (s : State) (k : Nat) (t : NevTile) : State :=
  match t.rows with
  | [] => modTile s k t.tile (fun x => { x with granted := false })
  | r :: _ =>
    let y := netLayer r.net t.layer
    let w := layerIn r.net t.layer
    let rs := layerRanges y w
    let part (i : Nat) : List (Nat × Nat) := let x := rs.getD i (0, 0); cutAt 128 x.1 x.2
    let gs := t.rows.map (fun r => r.group)
    let x0 := readParts t.ctx k gs (part 0) s
    let x1 := readParts t.ctx k gs (part 1) x0.2
    let x2 := readParts t.ctx k gs (part 2) x1.2
    let all := x0.1 ++ x1.1 ++ x2.1
    let pages := parkPages all []
    match all.find? (fun e => match e with | .kill _ => true | _ => false) with
    | some (.kill code) => terminate x2.2 t.ctx code
    | _ =>
      if !pages.isEmpty then parkTile x2.2 k t pages
      else if all.contains .wait then modTile x2.2 k t.tile (fun x => { x with granted := false })
      else if all.contains .poison then modTile x2.2 k t.tile (fun x => { x with granted := false, subst := 2 })
      else if all.contains .zero then modTile x2.2 k t.tile (fun x => { x with granted := false, subst := 1 })
      else
        let cols := layerColumns y w (partBytes x0.1).toArray (partBytes x1.1).toArray (partBytes x2.1).toArray
        let acts := runLayer t y w (t.layer + 1 == netLayers r.net) cols
        modTile x2.2 k t.tile (fun x => { x with granted := false, layer := t.layer + 1, acts := acts })

/-- The pages of the next layer that park. -/
def tilePages (s : State) (k : Nat) (t : NevTile) : List (Nat × Nat × Nat) :=
  match t.rows with
  | [] => []
  | r :: _ =>
    let rs := layerRanges (netLayer r.net t.layer) (layerIn r.net t.layer)
    parkPages ((readParts t.ctx k [] (rs.flatMap (fun x => cutAt 128 x.1 x.2)) s).1) []

/-- A parked tile whose records all wait for ring space has no record to serve: it goes on by itself once its pages are
present (21 R398). DEDUCED, log entry 118. -/
def retryTile (s : State) (k : Nat) (t : NevTile) : State :=
  let mine (r : Rec) : Bool := r.agent == .station k t.tile
  if (s.recs.filter mine).all (fun r => r.seq.isNone) && (tilePages s k t).isEmpty then
    modTile { s with recs := s.recs.filter (fun r => !mine r) } k t.tile (fun x => { x with parked := none })
  else s

/-- The tile has its results. -/
def tileDone (t : NevTile) : Bool := t.subst != 0 || decide (tileLayers t ≤ t.layer)

/-- The output registers of a row. -/
def rowWords (t : NevTile) (r : NevReq) (ys : List Nat) : List Word :=
  if t.subst = 0 then nevWords r.net ys
  else List.replicate (netOutRegs r.net) (if t.subst = 2 then 0x7F800001 else 0)

/-- Give a row its result; a substituted one raises NEVAL_FAULT where the header asks for it. -/
def landRow (t : NevTile) (s : State) (e : NevReq × List Nat) : State :=
  let r := e.1
  let writes : List RegWrite := (rowWords t r e.2).mapIdx (fun i x => .v r.lane (r.dreg + i) x)
  let flags : List (Nat × Nat) := if t.subst = 0 then [] else [(r.lane, lsNeval + (if t.subst = 2 then lsPoison else 0))]
  let tneval : Bool := match group? s r.group with
    | some g => (match team? s g.team with | some tm => tm.hdr.traps.testBit 4 | none => false)
    | none => false
  let s1 := modGroup s r.group (fun g => { g with windows := g.windows.map (fun w =>
    if w.id = r.window then { w with fault := if t.subst != 0 && tneval then 2 ^ r.lane else 0 } else w) })
  supply s1 r.group r.window writes flags

/-- Land a tile: every row together; the tile and empty slots are freed, and spilled requests re-enter.
DEDUCED, log entry 65. -/
def landTile (s : State) (k : Nat) (t : NevTile) : State :=
  let s0 := (t.rows.zip t.acts).foldl (landRow t) s
  let s1 := t.rows.foldl (fun s r => modGroup s r.group landClosed) s0
  let x := core s1 k
  let s2 := setCore s1 k { x with
    ntiles := x.ntiles.filter (fun y => y.tile != t.tile)
    slots := x.slots.filter (fun q => !(q.ctx == t.ctx && q.handle == t.handle && q.reqs.isEmpty)) }
  refillStation s2 k

end Ops

/-- `neval` (R313 to R316). DEDUCED, log entry 74. -/
def execNeval (h : Hdr) (o : OpR) (s : State) : Host.Outcome State Fault Refusal :=
  run (.neval h o) h mMemC [(dst o.d).inVec, (src o.a).inVec, src o.b] [] (fun c => nevalRes c o) s

/-- `nevstat.cnt` (R328). DEDUCED, log entry 43. -/
def execNevstatCnt (h : Hdr) (o : OpR) (s : State) : Host.Outcome State Fault Refusal :=
  run (.nevstatCnt h o) h mSys [dst o.d] [] (fun c => doneN c o.d 1 (fun _ => unlanded c.g)) s

/-- `nevstat.kick` (R328, R415): the count is taken before the kick. -/
def execNevstatKick (h : Hdr) (o : OpR) (s : State) : Host.Outcome State Fault Refusal :=
  run (.nevstatKick h o) h mSys [dst o.d] [] (fun c =>
    let n := unlanded c.g
    let s1 := if !acts c || n = 0 then c.s else kickSlots c.s c.tm.core (fun r => r.group == c.key)
    .done s1 (wrLanes c o.d 1 (fun _ => n)) []) s

/-- NEVAL_TIMER_EXPIRY (R322). -/
def execNevalTimerExpiry (core slot : Nat) (s : State) : Host.Outcome State Fault Refusal := .next (timerExpiry s core slot)

/-- NEVAL_TILE_FIRE (R322). -/
def execNevalTileFire (core : Nat) (s : State) : Host.Outcome State Fault Refusal := .next (fireTile s core)

/-- NEVAL_LAYER (R323, R326): an operation that the arbiter has granted. -/
def execNevalLayer (core tile : Nat) (s : State) : Host.Outcome State Fault Refusal :=
  .next (match (Ops.core s core).ntiles.find? (fun x => x.tile == tile) with
    | some t => if t.parked.isSome then retryTile s core t else if t.granted && !tileDone t then doLayer s core t else s
    | none => s)

/-- NEVAL_LANDING (R316, R323, R327). -/
def execNevalLanding (core tile : Nat) (s : State) : Host.Outcome State Fault Refusal :=
  .next (match (Ops.core s core).ntiles.find? (fun x => x.tile == tile) with
    | some t => if tileDone t then landTile s core t else s
    | none => s)

/-- NVSPILLB_WRITE (R321). -/
def execNvspillbWrite (core value : Nat) (s : State) : Host.Outcome State Fault Refusal :=
  .next (ctlWrite s true (coreOff core + 0x308) 8 value)

end Sys2Proof.Machine
end

