-- ==== Sys2Proof/Machine/Place.lean ====
section
/-! DEFINITION. Kernel headers and their checks (01 R24, R25), the room that a team needs (08 R164) and its start (01 R26, 08
R157 to R159, R165; 14 R283, R284). -/

namespace Sys2Proof.Machine

open Sys2Proof.Bits
open Ops

namespace Ops

/-! ### Kernel headers -/

/-- A role word (R24). -/
def roleWord (bs : List Byte) (i : Nat) : Nat := descField bs (0x28 + 4 * i) 4
def roleVregs (w : Nat) : Nat := field w 23 9
def roleUregs (w : Nat) : Nat := field w 16 7
def roleGroups (w : Nat) : Nat := field w 0 6

/-- The header in 64 bytes (R24). -/
def parseHeader (bs : List Byte) : Header :=
  let flags := descField bs 6 2
  { nbv := descField bs 4 1, geomFlag := flags.testBit 2, fragFlag := flags.testBit 1, det := flags.testBit 0,
    entry := descField bs 8 8, mstream := descField bs 0x10 8, rtable := descField bs 0x18 8, rcount := descField bs 0x20 2,
    acc := descField bs 0x23 1, scratch := descField bs 0x24 4,
    roles := (upto (min 4 (descField bs 0x22 1))).map (fun i =>
      let w := roleWord bs i
      (roleVregs w, roleUregs w, roleGroups w)),
    primLimit := descField bs 0x3A 2, vertLimit := descField bs 0x38 2, traps := descField bs 0x3C 4 }

/-- The groups field of a role is wrong for its position. -/
def roleBad (roles : Nat) (w i : Nat) : Bool :=
  if i < roles then roleGroups w == 0 || decide (32 < roleGroups w) else roleGroups w != 0

/-- The failing checks of R25, as (code, detail of 08 R163). -/
def headerFaults (addr : Nat) (bs : List Byte) : List (Nat × Nat) :=
  let f := descField bs
  let roles := f 0x22 1
  let flags := f 6 2
  let entry := f 8 8
  let words := (upto 4).map (fun i => (roleWord bs i, i))
  let when_ (c : Bool) (code : Nat) : List (Nat × Nat) := if c then [(code, 0)] else []
  when_ (f 0 4 != 0x314B5848 || addr % 64 != 0) 0x01 ++
    when_ (f 5 1 != 1) 0x02 ++ when_ (f 4 1 != 1) 0x03 ++
    ((words.filter (fun w => decide (256 < roleVregs w.1))).map (fun w => (0x04, w.2))) ++
    ((words.filter (fun w => decide (64 < roleUregs w.1))).map (fun w => (0x05, w.2))) ++
    when_ (roles == 0 || decide (4 < roles)) 0x06 ++
    ((words.filter (fun w => roleBad roles w.1 w.2)).map (fun w => (0x06, w.2))) ++
    when_ (decide (32 < (words.map (fun w => roleGroups w.1)).foldl (fun a b => a + b) 0)) 0x07 ++
    when_ (decide (16 < f 0x23 1)) 0x08 ++ when_ (decide (0x400000 < f 0x24 4)) 0x09 ++
    when_ (!canonical entry || field entry 3 3 != 0 || decide (4 < field entry 0 3)) 0x0A ++
    when_ (decide (1024 < f 0x38 2) || decide (1024 < f 0x3A 2) || (f 0x38 4 != 0 && !flags.testBit 2)) 0x0B ++
    when_ (decide (4096 < f 0x20 2) || (f 0x20 2 != 0 && f 0x18 8 == 0)) 0x0C ++
    when_ (decide (8 ≤ flags) || decide (32 ≤ f 0x3C 4) || words.any (fun w => field w.1 6 10 != 0)) 0x0D

/-- The lowest code, with the lowest detail among its failures. -/
def lowestFault (xs : List (Nat × Nat)) : Option (Nat × Nat) :=
  xs.foldl (fun best x => match best with
    | none => some x
    | some b => if x.1 < b.1 ∨ (x.1 = b.1 ∧ x.2 < b.2) then some x else some b) none

/-! ### Room (R164) -/

/-- A group of a team: its index, its role and the counts of the role (08 R158). -/
structure GroupSpec where
  idx : Nat
  role : Nat
  nv : Nat
  nk : Nat
  deriving DecidableEq, Repr, Inhabited

/-- The groups of a header, role by role. -/
def groupSpecs (h : Header) : List GroupSpec :=
  (h.roles.zip (upto h.roles.length)).foldl (fun acc r =>
    acc ++ (upto r.1.2.2).map (fun j => { idx := acc.length + j, role := r.2, nv := r.1.1, nk := r.1.2.1 })) []

/-- Register bytes of a group. -/
def regBytes (nv : Nat) : Nat := 32 * ceilDiv nv 8 * 8

/-- The groups that a team's header puts on a quarter. -/
def onQuarter (h : Header) (base q : Nat) : List GroupSpec := (groupSpecs h).filter (fun x => (base + x.idx) % 4 == q)

/-- The team holds places on its core. -/
def holdsPlace (tm : Team) (k : Nat) : Bool := tm.core == k && !tm.out

/-- The resident groups of a quarter. -/
def resident (s : State) (k q : Nat) : List (Nat × Group) := s.groups.filter (fun e =>
  e.2.slot / 128 == q && (match team? s e.2.team with | some tm => holdsPlace tm k | none => false))

/-- Free group slots of a quarter. -/
def freeSlots (s : State) (k q : Nat) : List Nat :=
  ((upto 128).map (fun i => 128 * q + i)).filter (fun i => (resident s k q).all (fun e => e.2.slot != i))

/-- A quarter has room for its share of a team. -/
def quarterFits (s : State) (k : Nat) (h : Header) (base q : Nat) : Bool :=
  let mine := onQuarter h base q
  let sum (xs : List Nat) : Nat := xs.foldl (fun a b => a + b) 0
  decide (mine.length ≤ (freeSlots s k q).length) &&
    decide (sum (mine.map (fun x => regBytes x.nv)) + sum ((resident s k q).map (fun e => regBytes e.2.nv)) ≤ 0x40000)

/-- Tiles 0 to 13 that no resident team holds. -/
def freeTiles (s : State) (k : Nat) : List Nat :=
  (upto 14).filter (fun t => s.teams.all (fun e => !(holdsPlace e.2 k && e.2.tiles.contains t)))

/-- Sequencer slots that no resident team holds. -/
def freeSeqSlots (s : State) (k : Nat) : List Nat :=
  (upto 4).filter (fun i => s.teams.all (fun e =>
    !(holdsPlace e.2 k && (match e.2.seq with | some q => q.slot == i | none => false))))

/-- Scratch-mode banks of a cluster, in ascending order. -/
def scratchBanks (s : State) (c : Nat) : List Nat :=
  (upto 32).filter (fun b => (bank (cluster s c) b).mode == 1 && !(bank (cluster s c) b).failed)

/-- Scratch units that may be allocated: no team owns them, and no mode request waits on their bank; in ascending order (10
R196, R199). -/
def freeUnits (s : State) (c : Nat) : List Nat :=
  (((scratchBanks s c).filter (fun b => (bank (cluster s c) b).reqs.isEmpty)).flatMap (fun b => (upto 64).map (fun u => 64 * b + u))).filter (fun u =>
    s.teams.all (fun e => !(clusterOf e.2.core == c && !e.2.out && e.2.units.contains u)))

/-- Scratch units of a header. -/
def scratchUnits (h : Header) : Nat := ceilDiv h.scratch 4096

/-- The core may hold teams. -/
def coreUp (s : State) (k : Nat) : Bool := decide (k < 512) && (die s (k / 64)).available && !(die s (k / 64)).l2Failed && !(core s k).failed

/-- Everything but scratch that a team needs is free on a core. -/
def coreFits (s : State) (k : Nat) (h : Header) (base : Nat) : Bool :=
  coreUp s k && (upto 4).all (quarterFits s k h base) && decide (h.acc ≤ (freeTiles s k).length) &&
    (h.mstream == 0 || !(freeSeqSlots s k).isEmpty)

/-- A team fits. -/
def teamFits (s : State) (k : Nat) (h : Header) (base : Nat) : Bool :=
  coreFits s k h base && decide (scratchUnits h ≤ (freeUnits s (clusterOf k)).length)

/-- A core could hold a team when empty, for its share of `n` teams' scratch in its cluster. -/
def emptyFits (s : State) (k : Nat) (h : Header) (n : Nat) : Bool :=
  coreUp s k && (upto 4).all (fun q =>
      decide ((((onQuarter h 0 q).map (fun x => regBytes x.nv)).foldl (fun a b => a + b) 0) ≤ 0x40000)) &&
    decide (h.acc ≤ 14) && decide (n * scratchUnits h ≤ 64 * (scratchBanks s (clusterOf k)).length)

/-! ### The start of a team -/

/-- One of several numbers; which one is left open. DESIGN CHOICE, log entry 75. -/
def pickOne (s : State) (xs : List Nat) : Nat × State :=
  (xs.getD (Config.freeNat s.fresh % max 1 xs.length) 0, { s with fresh := s.fresh + 1 })

/-- `n` different ones of several numbers, in an order that is left open. -/
def pickMany : Nat → List Nat → State → List Nat × State
  | 0, _, s => ([], s)
  | n + 1, xs, s =>
    let r := pickOne s xs
    let q := pickMany n (xs.filter (fun x => x != r.1)) r.2
    (r.1 :: q.1, q.2)

/-- A team key that no unended team of the context has (14 R284). DESIGN CHOICE, log entry 75. -/
def freshKey (s : State) (ctx : Nat) : Nat × State :=
  let used := (s.teams.filter (fun e => e.2.ctx == ctx && !e.2.ended)).map (fun e => e.2.tkey)
  let base := Config.freeNat s.fresh
  let keys := ((upto (used.length + 1)).map (fun i => (base + i) % 2 ^ 24)).filter (fun x => !used.contains x)
  (keys.headD 0, { s with fresh := s.fresh + 1 })

/-- What the raster pipeline or a launch packet gives a group besides its place. -/
structure Start where
  mask : Nat := 0xFF
  prio : Nat := 0
  teamIndex : Nat := 0
  gridx : Nat := 0
  gridy : Nat := 0
  gridz : Nat := 0
  /-- uniform pairs, by their low register, delivered where the role has both registers -/
  pairs : List (Nat × Nat) := []
  shade : Option FragInfo := none
  deriving DecidableEq, Repr, Inhabited

/-- A group as it starts (01 R26). -/
def newGroup (t slot : Nat) (h : Header) (x : GroupSpec) (st : Start) : Group :=
  { team := t, slot := slot, idx := x.idx, role := x.role, teamIndex := st.teamIndex, gridx := st.gridx, gridy := st.gridy,
    gridz := st.gridz, nv := x.nv, nk := x.nk, prio := st.prio, nbv := h.nbv,
    k := st.pairs.foldl (fun m e => if e.1 + 1 < x.nk
      then Maps.set 0 e.1 (BitVec.ofNat 32 e.2) (Maps.set 0 (e.1 + 1) (BitVec.ofNat 32 (e.2 >>> 32)) m) else m) [],
    lstat := (lanesOf st.mask).map (fun l => (l, 0x8000)),
    frags := [(lowLane st.mask, { mask := st.mask, pc := BitVec.ofNat 64 h.entry, arrival := 1 })], shade := st.shade }

/-- The sequencer of a team as it starts (14 R286). Bits [5:3] of mstream play no part. DESIGN CHOICE, log entry 153. -/
def newSeq (h : Header) (slot : Nat) : Option Seq :=
  if h.mstream = 0 then none else some { slot := slot, spc := BitVec.ofNat 64 h.mstream }

/-- Start one group on its quarter. Its wait for the arbiter is counted from now on, as if it had issued (R168). DESIGN CHOICE, log entry
177. -/
def startGroup (t k base : Nat) (h : Header) (st : Start) (s : State) (x : GroupSpec) : State :=
  let r := pickOne s (freeSlots s k ((base + x.idx) % 4))
  let g := { newGroup t r.1 h x st with issuedAt := s.turn }
  setGroup r.2 (groupKey t x.idx) g

/-- Start a team on a core that has room for it; answers its number. -/
def startTeam (s : State) (k base : Nat) (tm : Team) (st : Start) : Nat × State :=
  let t := s.uid
  let h := tm.hdr
  let key := freshKey { s with uid := t + 1 } tm.ctx
  let tiles := pickMany h.acc (freeTiles s k) key.2
  let slot := pickOne tiles.2 (freeSeqSlots s k)
  let tm1 : Team := { tm with core := k, base := base, tkey := key.1, tiles := tiles.1, seq := newSeq h slot.1,
                              units := (freeUnits s (clusterOf k)).take (scratchUnits h) }
  (t, (groupSpecs h).foldl (startGroup t k base h st) (setTeam slot.2 t tm1))

end Ops

end Sys2Proof.Machine
end

