-- ==== Sys2Proof/Machine/Samples.lean ====
section
/-! DEFINITION. Sample sets: the record (17 R329 to R332), the index (R337 to R340), and the set instructions (18 R362 to
R373). -/

namespace Sys2Proof.Machine

open Sys2Proof.Bits
open Sys2Proof.Num
open Ops

namespace Ops

/-! ### The record (R329) -/

/-- A record with a field replaced. -/
def setField (rec : List Byte) (off n v : Nat) : List Byte := overlay 0 rec off (toBytes n v)

def recState (rec : List Byte) : Nat := descField rec 0 4 % 4
def recKind (rec : List Byte) : Nat := descField rec 4 1
def recNch (rec : List Byte) : Nat := descField rec 5 1
def recFp (rec : List Byte) : Bool := (descField rec 6 1).testBit 0
def recCellreq (rec : List Byte) : Nat := descField rec 7 1
def recLcap (rec : List Byte) : Nat := descField rec 8 2
def recGw (rec : List Byte) : Nat := descField rec 0x0A 2
def recGh (rec : List Byte) : Nat := descField rec 0x0C 2
def recCount (rec : List Byte) : Nat := descField rec 0x10 4
def recLate (rec : List Byte) : Nat := descField rec 0x14 4
def recCap (rec : List Byte) : Nat := descField rec 0x18 4
def recSamples (rec : List Byte) : Nat := descField rec 0x20 8
def recIndex (rec : List Byte) : Nat := descField rec 0x28 8
def recIsize (rec : List Byte) : Nat := descField rec 0x30 8
def recOx (rec : List Byte) : Int := sext 32 (descField rec 0x38 4)
def recOy (rec : List Byte) : Int := sext 32 (descField rec 0x3C 4)
def recClog (rec : List Byte) : Nat := descField rec 0x40 1
def recNcx (rec : List Byte) : Nat := descField rec 0x44 2
def recNcy (rec : List Byte) : Nat := descField rec 0x46 2
def recPass (rec : List Byte) : Nat := descField rec 0x4C 4
def recDisc (rec : List Byte) : Nat := descField rec 0x54 4
def recPool (rec : List Byte) : Nat := descField rec 0x58 8
def recFrag (rec : List Byte) : Nat := descField rec 0x60 8
def recPctl (rec : List Byte) : Nat := descField rec 0x68 4
def recSmin (rec : List Byte) : Nat := descField rec 0x6C 4
def recFargs (rec : List Byte) : Nat := descField rec 0x70 8

/-- The word of STATE, whose reserved bits are zero (R329, 00 R7). DEDUCED, log entry 159. -/
def putState (rec : List Byte) (st : Nat) : List Byte := setField rec 0 4 st

/-- The offset of a field of `ssget` (R363). -/
def getOffset (sub : Nat) : Nat := [0x00, 0x10, 0x14, 0x4C, 0x50, 0x54, 0x1C, 0x48].getD sub 0

/-- A field of the record as `ssget` reads it (R363): the reserved bits of the word of STATE read as zero (00 R7). -/
def getField (rec : List Byte) (sub : Nat) : Nat :=
  if sub = 0 then recState rec else descField rec (getOffset sub) 4

/-- Fields of the pass control word (R343). -/
def pctlKind (p : Nat) : Nat := field p 0 2
def pctlTest (p : Nat) : Nat := field p 2 3
def pctlWrite (p : Nat) : Bool := p.testBit 5
def pctlBlend (p : Nat) : Nat := field p 6 2
def pctlClusters (p : Nat) : List Nat := (upto 8).filter (fun i => field p 8 8 == 0 || p.testBit (8 + i))

/-! ### Positions (R331) -/

/-- The snapped coordinate of an f32, none when it is excluded. -/
def snap (b : Nat) : Option Int :=
  match val f32 b with
  | .num neg m e => if ltVal (.num false 1 22) (.num false m e) then none else some (roundIntNum 0 neg m (e + 8))
  | _ => none

/-- The f32 of a snapped coordinate. -/
def unsnap (x : Int) : Nat := rne (ofInt x (-8))

/-! ### The index (R337 to R341) -/

/-- A top grid. -/
structure Grid where
  clog : Nat := 0
  ox : Int := 0
  oy : Int := 0
  ncx : Nat := 0
  ncy : Nat := 0
  deriving DecidableEq, Repr, Inhabited

/-- The cell edge in snapped units. -/
def cellEdge (c : Nat) : Int := ((256 * 2 ^ c : Nat) : Int)

/-- The grid of cell exponent `c` over the extremes. -/
def gridAt (c : Nat) (x0 x1 y0 y1 : Int) : Grid :=
  let cu := cellEdge c
  let ox := x0 / cu * cu
  let oy := y0 / cu * cu
  { clog := c, ox := ox, oy := oy, ncx := ((x1 - ox) / cu + 1).toNat, ncy := ((y1 - oy) / cu + 1).toNat }

/-- At most 1,024 cells along each axis. -/
def Grid.fits (g : Grid) : Bool := decide (g.ncx ≤ 1024) && decide (g.ncy ≤ 1024)

/-- The automatic cell exponent (R338). -/
def autoClog (n : Nat) (x0 x1 y0 y1 : Int) : Nat :=
  let w := max (x1 - x0) 256
  let h := max (y1 - y0) 256
  ((upto 23).find? (fun c =>
    decide (64 * w * h ≤ ((n * 4 ^ c * 65536 : Nat) : Int)) && (gridAt c x0 x1 y0 y1).fits)).getD 22

/-- The top grid of the included samples (R337). -/
def topGrid (cellreq : Nat) (pts : List (Nat × Int × Int)) : Grid :=
  match pts with
  | [] => { clog := cellreq - 1 }
  | p :: rest =>
    let x0 := rest.foldl (fun (m : Int) q => min m q.2.1) p.2.1
    let x1 := rest.foldl (fun (m : Int) q => max m q.2.1) p.2.1
    let y0 := rest.foldl (fun (m : Int) q => min m q.2.2) p.2.2
    let y1 := rest.foldl (fun (m : Int) q => max m q.2.2) p.2.2
    gridAt (if cellreq = 0 then autoClog pts.length x0 x1 y0 y1 else cellreq - 1) x0 x1 y0 y1

/-- The leaves below a node with its samples: its level is 6 less the fuel (R339, R341). -/
def splitNode (lcap cell : Nat) : Nat → Nat → Int → Int → Int → List (Nat × Int × Int) → List Leaf
  | 0, path, _, _, _, ps => [{ cell := cell, path := 6 * 2 ^ 28 + path, samples := ps }]
  | fuel + 1, path, x, y, edge, ps =>
    let level := 6 - (fuel + 1)
    if ps.length ≤ lcap then [{ cell := cell, path := level * 2 ^ 28 + path, samples := ps }]
    else
      let half := edge / 2
      (upto 4).flatMap (fun q =>
        let qx := q.testBit 0
        let qy := q.testBit 1
        let mine := ps.filter (fun p => decide (x + half ≤ p.2.1) == qx && decide (y + half ≤ p.2.2) == qy)
        if mine.isEmpty then []
        else splitNode lcap cell fuel (path + q * 2 ^ (2 * level)) (if qx then x + half else x) (if qy then y + half else y)
          half mine)

/-- The leaves of a grid, cell by cell. -/
def leavesOf (lcap : Nat) (g : Grid) (pts : List (Nat × Int × Int)) : List Leaf :=
  let cu := cellEdge g.clog
  let cellOf (p : Nat × Int × Int) : Int := (p.2.2 - g.oy) / cu * g.ncx + (p.2.1 - g.ox) / cu
  (upto (g.ncx * g.ncy)).flatMap (fun (cell : Nat) =>
    let mine := pts.filter (fun p => cellOf p == (cell : Int))
    if mine.isEmpty then []
    else splitNode lcap cell 6 0 (g.ox + ((cell % g.ncx : Nat) : Int) * cu) (g.oy + ((cell / g.ncx : Nat) : Int) * cu) cu mine)

/-- The index bytes that a build needs (R340). -/
def indexBytes (g : Grid) (n : Nat) : Nat := 16 * g.ncx * g.ncy + 48 * n + 4096

/-- The code of a build over `n` samples (R340). -/
def buildCode (rec : List Byte) (g : Grid) (n : Nat) : Nat :=
  if !g.fits then 2 else if recIsize rec < indexBytes g n then 1 else 0

/-- The index fields of a record. -/
def putGrid (rec : List Byte) (g : Grid) (leaves rej : Nat) : List Byte :=
  let r := setField (setField (setField rec 0x38 4 (wrap 32 g.ox)) 0x3C 4 (wrap 32 g.oy)) 0x40 1 g.clog
  setField (setField (setField (setField r 0x44 2 g.ncx) 0x46 2 g.ncy) 0x48 4 leaves) 0x1C 4 rej

/-! ### Accesses at the home (R366) -/

/-- Translate `n` bytes of one page for the device's own accesses; every line of them is reached (26 R443 to R445). DEDUCED, log
entry 82. -/
def setTr (c : Ctx) (s : State) (va n rd wr : Nat) : Tr :=
  let d := dieOf c.tm.core
  match translateEngine s c.tm.ctx d va rd wr false with
  | .ok pa leaf base size =>
    if windowOf pa = .control then .malformed size
    else if !reachable s d pa n then .broken
    else .ok pa leaf base size
  | t => t

/-- The device cannot perform a write now: a release of the group holds its later stores back, an earlier store of the die
to these bytes is pending, or the page migrates. DEDUCED, log entry 79. -/
def setBlocked (c : Ctx) (s : State) (pa n : Nat) : Bool :=
  (storeGate s c.key).isSome || overlapping s (dieOf c.tm.core) none pa n s.uid || migrating s pa

/-- Translate a range of `n` bytes: no page has a substitute (21 R395; R369). Where pages fail differently, the kind of fault decides,
not the order of the pages. Answers its pieces, (address, bytes). DEDUCED, log entry 79; DESIGN CHOICE, log entry 186. -/
def setRange (c : Ctx) (s : State) (rd wr lanes va n : Nat) : Except Res (List (Nat × Nat)) :=
  let access := rd + 2 * wr
  let ts : List (Acc × Tr) := (cutAt 65536 va n).map (fun p =>
    (({ lane := lowLane lanes, ea := p.1, n := p.2 } : Acc), setTr c s p.1 p.2 rd wr))
  let first (p : Tr → Bool) : Option Nat := (ts.find? (fun e => p e.2)).map (fun e => e.1.ea)
  let fault (cause addr : Nat) : Res := .trap { code := 0x06, cause := cause, lanes := lanes, info := addr } s
  match first (fun t => t == .noncanon), first (fun t => t == .denied),
      first (fun t => match t with | .absent p _ => p == 1 || p == 2 | _ => false) with
  | some a, _, _ => .error (fault 0 a)
  | _, some a, _ => .error (fault 1 a)
  | _, _, some a => .error (fault 2 a)
  | none, none, none =>
    if ts.any (fun e => e.2 == .broken) then .error (.kill 0x1F s)
    else if ts.any (fun e => match e.2 with | .absent p _ => p == 3 | _ => false) then .error (.kill 0x06 s)
    else if ts.any (fun e => (parkCause e.2).isSome) then
      .error (.park s ((pageFaults access ts []).map (fun f => { f with lanes := lanes })))
    else
      let ps : List (Nat × Nat × Nat) := ts.flatMap (fun e => match e.2 with | .ok pa leaf _ _ => [(pa, leaf, e.1.n)] | _ => [])
      if ts.any (fun e => e.2 == .undecided) || ps.any (fun p => setBlocked c s p.1 p.2.2) then .error (.wait s)
      else if wr = 1 && ps.any (fun p => p.2.1.testBit 61) then .error (.trap (trapOf 0x0F lanes) s)
      else .ok (ps.map (fun p => (p.1, p.2.2)))

/-- The address of byte `off` of a range. -/
def spanAt : List (Nat × Nat) → Nat → Nat
  | [], _ => 0
  | p :: rest, off => if off < p.2 then p.1 + off else spanAt rest (off - p.2)

/-- The bytes of a range. -/
def spanBytes (s : State) (ps : List (Nat × Nat)) : List Byte := ps.flatMap (fun p => seenBytes s p.1 p.2)

/-- A write of the device for an instruction of a group: it is performed at the home, and its completion times return to
the group. DEDUCED, log entry 80. -/
def setWrite (c : Ctx) (s : State) (pa : Nat) (bs : List Byte) : State :=
  match homeDie s (dieOf c.tm.core) pa with
  | none => s
  | some home =>
    let ct (scope : Nat) : Nat := ctSpan s c.tm.core home pa bs.length scope
    returnCt (writeHome (backInvalidateSpan s pa bs.length) c.tm.core 0 pa bs) c.key s.uid c.tm.launch ct

/-- Several such writes. -/
def setWrites (c : Ctx) (ws : List (Nat × List Byte)) (s : State) : State := ws.foldl (fun s w => setWrite c s w.1 w.2) s

/-- Fill the pieces of a range with bytes whose value is left open. DESIGN CHOICE, log entry 78. -/
def fillOpen (c : Ctx) (ps : List (Nat × Nat)) (s : State) : State :=
  ps.foldl (fun s p => let r := freeBytes s p.2; setWrite c r.2 p.1 r.1) s

/-- What the device holds of a set. -/
def setKey (ctx handle : Nat) : Nat := ctx * 2 ^ 64 + handle
def setSt (s : State) (c : Ctx) (handle : Nat) : SetSt :=
  Maps.get { ctx := c.tm.ctx, handle := handle } (setKey c.tm.ctx handle) s.sets
def putSet (s : State) (c : Ctx) (handle : Nat) (x : SetSt) : State := setSet s (setKey c.tm.ctx handle) x

/-- The operand SET. -/
def setOpnd (o : OpG) : Opnd := (srcP o.set).inUni

/-- Checks 1 to 3 of R365, and the record at its home: the handle, the record's address, its bytes.
DEDUCED, log entry 81. -/
def withRecord (c : Ctx) (o : OpG) (lanes : Nat) (writes : Bool) (body : Nat → Nat → List Byte → State → Res) : Res :=
  let h := rdPair c o.set (lowActive c)
  if !acts c then noEffect c
  else if !canonical h then .trap { code := 0x06, lanes := lanes, info := h } c.s
  else if h % 256 ≠ 0 then .trap (trapOf 0x03 lanes) c.s
  else match issueTr c c.s { spaces := [0], rd := 1, access := 1, ctrl := false } lanes h with
    | .error r => r
    | .ok (pa, leaf, s) =>
      if !reachable s (dieOf c.tm.core) pa 256 then .kill 0x1F s
      else if writes && leaf.testBit 61 then .trap (trapOf 0x0F lanes) s
      else if setBlocked c s pa 256 then .wait s
      else body h pa (seenBytes s pa 256) s

/-! ### Building (R336 to R340, R369) -/

/-- A build that its faults and its code let happen: the code, the record, and what it writes. -/
structure Built where
  code : Nat
  out : List Byte
  leaves : List Leaf := []
  positions : List (Nat × List Byte) := []
  index : List (Nat × Nat) := []

/-- Plan a build over the main and late segments. An excluded sample keeps both its coordinates, also one that would snap (R331).
DEDUCED, log entry 83; DESIGN CHOICE, log entry 182. -/
def planBuild (c : Ctx) (s : State) (rec : List Byte) : Except Res Built :=
  let n := recCount rec + recLate rec
  match setRange c s 1 0 c.active (recSamples rec) (64 * n) with
  | .error e => .error e
  | .ok ps =>
    let bytes := spanBytes s ps
    let pts : List (Nat × Int × Int) := (upto n).filterMap (fun i =>
      match snap (descField bytes (64 * i) 4), snap (descField bytes (64 * i + 4) 4) with
      | some x, some y => some (i, x, y)
      | _, _ => none)
    let g := topGrid (recCellreq rec) pts
    let code := buildCode rec g n
    let noted := setField rec 0x50 4 code
    if code ≠ 0 then .ok { code := code, out := noted }
    else match setRange c s 0 1 c.active (recSamples rec) (64 * n), setRange c s 0 1 c.active (recIndex rec) (indexBytes g n) with
      | .error e, _ => .error e
      | _, .error e => .error e
      | .ok ws, .ok ix =>
        let leaves := leavesOf (recLcap rec) g pts
        let merged := setField (setField (putGrid noted g leaves.length (n - pts.length)) 0x10 4 n) 0x14 4 0
        .ok { code := 0, out := putState merged 2, leaves := leaves, index := ix,
              positions := pts.map (fun p => (spanAt ws (64 * p.1), toBytes 4 (unsnap p.2.1) ++ toBytes 4 (unsnap p.2.2))) }

/-- Perform a build's writes and keep its leaves. DESIGN CHOICE, log entry 78; DEDUCED, log entry 83. -/
def applyBuild (c : Ctx) (handle pa : Nat) (b : Built) (s : State) : State :=
  let s1 := setWrite c (fillOpen c b.index (setWrites c b.positions s)) pa b.out
  if b.code ≠ 0 then s1 else putSet s1 c handle { setSt s1 c handle with leaves := b.leaves }

/-! ### `ssnew` (R367) -/

/-- The parameter fields are legal. -/
def paramsOk (rec : List Byte) : Bool :=
  descField rec 0 4 == 0 && decide (recKind rec ≤ 1) && decide (recNch rec ≤ 8) && decide (recCellreq rec ≤ 13) &&
    decide (4 ≤ recLcap rec) && decide (recLcap rec ≤ 256) && decide (descField rec 6 1 ≤ 1) && descField rec 0x0E 2 == 0 &&
    descField rec 0x41 3 == 0 && descField rec 0x78 136 == 0 &&
    canonical (recSamples rec) && recSamples rec % 64 == 0 && canonical (recIndex rec) && recIndex rec % 64 == 0 &&
    (if recKind rec = 1 then recGw rec == 0 && recGh rec == 0 && decide (1 ≤ recCap rec) && decide (recCap rec ≤ 2 ^ 24)
     else decide (1 ≤ recGw rec) && decide (recGw rec ≤ 4096) && decide (1 ≤ recGh rec) && decide (recGh rec ≤ 4096) &&
      recCap rec == recGw rec * recGh rec && !recFp rec)

/-- The record as `ssnew` leaves it before a build. -/
def freshRecord (rec : List Byte) : List Byte :=
  let r := putGrid (setField (setField rec 0x10 4 0) 0x14 4 0) {} 0 0
  overlay 0 r 0x4C (List.replicate 0x24 0)

/-- The lattice of a GRID set (R332). -/
def latticePoints (gw n : Nat) : List (Nat × Int × Int) :=
  (upto n).map (fun i => (i, ((256 * (i % gw) + 128 : Nat) : Int), ((256 * (i / gw) + 128 : Nat) : Int)))

/-- The bytes of a new sample: those up to the footprint, and its channels (R330). -/
def newSample (x y tag fp : Nat) : List Byte := toBytes 4 x ++ toBytes 4 y ++ toBytes 4 tag ++ toBytes 4 0x7F800000 ++ toBytes 8 fp
def newChannels (nch : Nat) : List Byte := List.replicate (4 * nch) 0

/-- The writes of a new sample at an address: those that R367 and R368 name, so the reserved bytes from 0x18 stay as memory has them.
DESIGN CHOICE, log entry 181. -/
def sampleWrites (pa x y tag fp nch : Nat) : List (Nat × List Byte) :=
  (pa, newSample x y tag fp) :: if nch = 0 then [] else [(pa + 0x20, newChannels nch)]

/-- `ssnew` of a GRID set: the lattice, its index and the record. -/
def newGrid (c : Ctx) (o : OpG) (h pa : Nat) (rec : List Byte) (s : State) : Res :=
  let n := recCap rec
  let pts := latticePoints (recGw rec) n
  let g := topGrid (recCellreq rec) pts
  if buildCode rec g n ≠ 0 then illegal c s
  else match setRange c s 0 1 c.active (recSamples rec) (64 * n), setRange c s 0 1 c.active (recIndex rec) (indexBytes g n) with
    | .error e, _ => e
    | _, .error e => e
    | .ok ws, .ok ix =>
      let leaves := leavesOf (recLcap rec) g pts
      let s1 := setWrites c (pts.flatMap (fun p =>
        sampleWrites (spanAt ws (64 * p.1)) (unsnap p.2.1) (unsnap p.2.2) 0 0 (recNch rec))) s
      let out := putState (setField (putGrid (freshRecord rec) g leaves.length 0) 0x10 4 n) 2
      let s2 := setWrite c (fillOpen c ix s1) pa out
      .done (putSet s2 c h { ctx := c.tm.ctx, handle := h, leaves := leaves }) (wrLanes c o.d 1 (fun _ => n)) []

end Ops

/-- `ssnew`. -/
def execSsnew (hd : Hdr) (o : OpG) (s : State) : Host.Outcome State Fault Refusal :=
  Ops.run (.ssnew hd o) hd mMemC [dst o.d, setOpnd o] [] (fun c =>
    withRecord c o c.active true (fun h pa rec s =>
      if recState rec ≠ 0 || !paramsOk rec then illegal c s
      else if recKind rec = 0 then newGrid c o h pa rec s
      else
        let s1 := setWrite c s pa (putState (freshRecord rec) 1)
        .done (putSet s1 c h { ctx := c.tm.ctx, handle := h }) (wrLanes c o.d 1 (fun _ => 0)) [])) s

namespace Ops

/-! ### `ssadd` (R368) -/

/-- The lanes in order, each with the index that its sample takes; those past the capacity take none. A lane on a page
under ZERO or POISON uses its index up for no sample, so the next lane tries the same. DEDUCED, log entry 85. -/
def planAdd (c : Ctx) (nd : Needs) (rec : List Byte) : List Nat → Nat → State → List (Nat × Option (Acc × Tr × Nat)) × State
  | [], _, s => ([], s)
  | l :: ls, i, s =>
    if recKind rec = 0 ∨ recCap rec ≤ i then
      let q := planAdd c nd rec ls i s
      ((l, none) :: q.1, q.2)
    else
      let a : Acc := { lane := l, ea := (recSamples rec + 64 * i) % 2 ^ 64, n := 64 }
      let r := translateLane c s nd a
      let taken := match r.1 with | .absent p _ => if p = 1 ∨ p = 2 then i else i + 1 | _ => i + 1
      let q := planAdd c nd rec ls taken r.2
      ((l, some (a, r.1, i)) :: q.1, q.2)

/-- The run that `ssadd` reads. DEDUCED, log entry 85. -/
def addRun (o : OpG) (fp : Bool) : Opnd := { reg := o.a, count := if fp then 5 else 3, file := .vec }

/-- Append the samples: `plan` gives each lane its place. -/
def addSamples (c : Ctx) (o : OpG) (h pa : Nat) (rec : List Byte) (plan : List (Nat × Option (Acc × Tr × Nat))) (s : State) :
    Res :=
  let good := plan.filterMap (fun e => match e.2 with | some (_, .ok p _ _ _, i) => some (e.1, p, i) | _ => none)
  let word (l j : Nat) : Nat := rdAt c o.a j l
  let fp (l : Nat) : Nat := if recFp rec then word l 3 + 2 ^ 32 * word l 4 else 0
  let s1 := setWrites c (good.flatMap (fun e => sampleWrites e.2.1 (word e.1 0) (word e.1 1) (word e.1 2) (fp e.1) (recNch rec))) s
  let off := if recState rec = 1 then 0x10 else 0x14
  let s2 := if good.isEmpty then s1 else setWrite c s1 (pa + off) (toBytes 4 (descField rec off 4 + good.length))
  let s3 := if recState rec = 3 && !good.isEmpty then orGstat s2 (setSt s2 c h).bindGroup gsLate else s2
  let index (l : Nat) : Nat := ((good.find? (fun e => e.1 == l)).map (fun e => e.2.2)).getD 0xFFFFFFFF
  let missed (l : Nat) : Bool := plan.any (fun e => e.1 == l && e.2.isSome) && !good.any (fun e => e.1 == l)
  .done s3 (wrLanes c o.d 1 index) (flagLanes c (fun l => if missed l then lsFaulted else 0))

/-- `ssadd` once the record has been read. -/
def addLanes (c : Ctx) (o : OpG) (h pa : Nat) (rec : List Byte) (s : State) : Res :=
  let run := addRun o (recFp rec)
  if !Opnd.legal c.g run then .trap (trapOf 0x03 c.active) s
  else if c.park.isNone && run.names.any (fun n => (held c.g).contains n) then .wait s
  else if recState rec = 0 then .trap (trapOf 0x03 c.active) s
  else
    let nd : Needs := { spaces := [0], wr := 1, access := 2, stamped := false, ctrl := false }
    let r := planAdd c nd rec (lanesOf c.pass) (recCount rec + recLate rec) s
    let ts : List (Acc × Tr) := r.1.filterMap (fun e => e.2.map (fun x => (x.1, x.2.1)))
    let bad := lanesWhere ts (fun t => t == .noncanon)
    if bad ≠ 0 then
      .trap { code := 0x06, lanes := bad, info := ((ts.find? (fun e => e.2 == .noncanon)).map (fun e => e.1.ea)).getD 0 } r.2
    else match judge r.2 nd ts with
      | some e => e
      | none =>
        if ts.any (fun e => match e.2 with | .ok p _ _ _ => setBlocked c r.2 p 64 | _ => false) then .wait r.2
        else addSamples c o h pa rec r.1 r.2

end Ops

/-- `ssadd`. -/
def execSsadd (hd : Hdr) (o : OpG) (s : State) : Host.Outcome State Fault Refusal :=
  Ops.run (.ssadd hd o) hd mMemC [(dst o.d).inVec, (src o.a).inVec, setOpnd o] []
    (fun c => withRecord c o c.active true (addLanes c o)) s

/-- `ssbuild` (R369). -/
def execSsbuild (hd : Hdr) (o : OpG) (s : State) : Host.Outcome State Fault Refusal :=
  Ops.run (.ssbuild hd o) hd mMemC [dst o.d, setOpnd o] [] (fun c =>
    withRecord c o c.active true (fun h pa rec s =>
      if recState rec = 0 ∨ recState rec = 3 then illegal c s
      else match planBuild c s rec with
        | .error e => e
        | .ok b => .done (applyBuild c h pa b s) (wrLanes c o.d 1 (fun _ => b.code)) [])) s

namespace Ops

/-! ### Binding (R370, R371) -/

/-- The operands of a bind: the pool, the fragment kernel header, the pass control word. -/
structure BindArgs where
  pool : Nat
  frag : Nat
  pctl : Nat

def bindArgs (c : Ctx) (o : OpG) : BindArgs :=
  let l := lowActive c
  { pool := rdPair c o.a l, frag := rdPair c o.b l, pctl := rd c o.c l }

/-- The control word passes R343, and the pool's address is usable. -/
def bindWordsOk (rec : List Byte) (a : BindArgs) : Bool :=
  field a.pctl 16 16 == 0 && decide (pctlTest a.pctl ≤ 4) && decide (pctlKind a.pctl ≤ 1) &&
    (pctlKind a.pctl == 0 || decide (4 ≤ recNch rec)) && canonical a.pool && a.pool % 64 == 0

/-- The pool descriptor is legal (R348, R370). -/
def poolOk (d : List Byte) : Bool :=
  decide (2 ≤ descField d 0 4) && decide (descField d 0 4 ≤ 2 ^ 24) && descField d 8 8 % 8 == 0 && canonical (descField d 8 8) &&
    descField d 0x14 44 == 0

/-- A fragment kernel's header is legal, and some core of the clusters could hold its team. DEDUCED, log entry 84. -/
def fragOk (s : State) (d : Nat) (clusters : List Nat) (addr : Nat) (bs : List Byte) : Bool :=
  let h := parseHeader bs
  (headerFaults addr bs).isEmpty && h.fragFlag && !h.geomFlag && h.roles.length == 1 && (groupSpecs h).length == 1 &&
    clusters.any (fun cl => (upto 8).any (fun k => emptyFits s (64 * d + 8 * cl + k) h 1))

/-- Every check of `ssbind`; answers the heads' address and the fragment kernel's header. DEDUCED, log entry 84. -/
def bindChecks (c : Ctx) (s : State) (rec : List Byte) (a : BindArgs) : Except Res (Nat × Header) :=
  if recState rec ≠ 2 ∨ !bindWordsOk rec a then .error (illegal c s)
  else match setRange c s 1 0 c.active a.pool 64 with
    | .error e => .error e
    | .ok ps =>
      let d := spanBytes s ps
      if !poolOk d then .error (illegal c s)
      else if a.frag = 0 then .ok (descField d 8 8, {})
      else if a.frag % 64 ≠ 0 then .error (illegal c s)
      else match setRange c s 1 0 c.active a.frag 64 with
        | .error e => .error e
        | .ok fs =>
          if fragOk s (dieOf c.tm.core) (pctlClusters a.pctl) a.frag (spanBytes s fs) then
            .ok (descField d 8 8, parseHeader (spanBytes s fs))
          else .error (illegal c s)

/-- What binding writes besides the record: the pool descriptor, the heads, and a splat pass's channels, those of excluded
samples (R331) among them (R343, R370). DEDUCED, log entry 158. -/
def planBind (c : Ctx) (s : State) (rec : List Byte) (a : BindArgs) (heads : Nat) : Except Res (List (Nat × List Byte)) :=
  let cells := recNcx rec * recNcy rec
  let n := if pctlKind a.pctl = 1 then recCount rec else 0
  match setRange c s 0 1 c.active a.pool 64, setRange c s 0 1 c.active heads (8 * cells),
      setRange c s 0 1 c.active (recSamples rec) (64 * n) with
  | .error e, _, _ => .error e
  | _, .error e, _ => .error e
  | _, _, .error e => .error e
  | .ok pp, .ok hp, .ok sp =>
    .ok ([(spanAt pp 4, toBytes 4 1), (spanAt pp 0x10, toBytes 4 0)] ++ hp.map (fun p => (p.1, List.replicate p.2 0)) ++
      (upto n).map (fun i => (spanAt sp (64 * i) + 0x20, toBytes 12 0 ++ toBytes 4 0x3F800000)))

/-- The record of a bound set. -/
def boundRecord (c : Ctx) (rec : List Byte) (a : BindArgs) : List Byte :=
  let r := setField (setField rec 0x4C 4 (recPass rec + 1)) 0x54 4 0
  let r := setField (setField (setField r 0x58 8 a.pool) 0x60 8 a.frag) 0x68 4 a.pctl
  putState (setField r 0x6C 4 c.g.splatmin.toNat) 3

/-- The die whose binner serves a pass: the home of the pool's descriptor when the set is bound (17 R349). It stays the same to the
end of the pass, so that the binner's work keeps the order of R366, also when the pool's page moves to another die meanwhile.
DESIGN CHOICE, log entry 167. -/
def binnerDie (c : Ctx) (s : State) (pool : Nat) : Nat :=
  let d := dieOf c.tm.core
  match translateEngine s c.tm.ctx d pool 1 0 false with
  | .ok pa _ _ _ => (homeDie s d pa).getD d
  | _ => d

/-- Bind, from a planned set of writes. -/
def applyBind (c : Ctx) (o : OpG) (h pa : Nat) (rec : List Byte) (a : BindArgs) (hdr : Header)
    (ws : List (Nat × List Byte)) (s : State) : Res :=
  let out := boundRecord c rec a
  let s1 := setWrite c (setWrites c ws s) pa out
  let x := setSt s1 c h
  let s2 := putSet s1 c h { x with
    bindGroup := c.key, bindPc := c.f.pc, bindPass := recPass out, die := dieOf c.tm.core, binner := binnerDie c s a.pool, cls := c.tm.cls, hdr := hdr
    ending := false, passEnd := false, flush := none, parked := none, rep := 0, ct := 0 }
  let s3 := if recLate rec = 0 then s2 else orGstat s2 c.key gsLate
  .done s3 (wrLanes c o.d 1 (fun _ => recPass out)) []

/-- The instruction is the one that began the pass for which the set is bound (R371), whether or not a region was replayed between.
DESIGN CHOICE, log entry 185. -/
def bindReplayed (c : Ctx) (s : State) (h : Nat) (rec : List Byte) : Bool :=
  let x := setSt s c h
  recState rec == 3 && x.bindGroup == c.key && x.bindPc == c.f.pc && x.bindPass == recPass rec

/-- `ssbind`, or with `rebuild` `ssrebind`. -/
def bindSet (rebuild : Bool) (c : Ctx) (o : OpG) (h pa : Nat) (rec : List Byte) (s : State) : Res :=
  let a := bindArgs c o
  if bindReplayed c s h rec then .done s (wrLanes c o.d 1 (fun _ => recPass rec)) []
  else match bindChecks c s rec a with
    | .error e => e
    | .ok (heads, hdr) =>
      match (if rebuild then planBuild c s rec else .ok { code := 0, out := rec }) with
      | .error e => e
      | .ok b =>
        if b.code ≠ 0 then .done (applyBuild c h pa b s) (wrLanes c o.d 1 (fun _ => 0xFFFFFFFF)) []
        else match planBind c s b.out a heads with
          | .error e => e
          | .ok ws => applyBind c o h pa b.out a hdr ws (if rebuild then applyBuild c h pa b s else s)

/-- The operands of a bind. -/
def bindOpnds (o : OpG) : List Opnd := [dst o.d, (srcP o.a).inUni, (srcP o.b).inUni, (src o.c).inUni, setOpnd o]

end Ops

/-- `ssbind` (R370). -/
def execSsbind (hd : Hdr) (o : OpG) (s : State) : Host.Outcome State Fault Refusal :=
  Ops.run (.ssbind hd o) hd mMem (bindOpnds o) [] (fun c => withRecord c o c.active true (bindSet false c o)) s

/-- `ssrebind` (R370). -/
def execSsrebind (hd : Hdr) (o : OpG) (s : State) : Host.Outcome State Fault Refusal :=
  Ops.run (.ssrebind hd o) hd mMem (bindOpnds o) [] (fun c => withRecord c o c.active true (bindSet true c o)) s

namespace Ops

/-- Free a set: the device keeps nothing of it. -/
def freeSet (c : Ctx) (h pa : Nat) (s : State) : State :=
  let s1 := setWrite c s pa (toBytes 4 0)
  { s1 with sets := Maps.erase (setKey c.tm.ctx h) s1.sets }

/-- `ssfree` at the record: waiting ones go in order of arrival. DEDUCED, log entry 86. -/
def freeLanes (c : Ctx) (h pa : Nat) (rec : List Byte) (s : State) : Res :=
  let x := setSt s c h
  let mine := ticketOf c.f.stage
  if recState rec = 0 then illegal c s
  else if recState rec = 3 then
    match mine with
    | some t =>
      if x.freers.any (fun e => e.1 == t) then .wait s
      else .wait (putSet s c h { x with freers := x.freers ++ [(t, c.key)] })
    | none =>
      .wait (setStage c (putSet { s with uid := s.uid + 1 } c h { x with freers := x.freers ++ [(s.uid, c.key)] }) (.ticket s.uid))
  else match mine, x.freers with
    | some t, f :: _ => if f.1 = t ∨ !x.freers.any (fun e => e.1 == t) then .done (freeSet c h pa s) [] [] else .wait s
    | _, _ => .done (freeSet c h pa s) [] []

end Ops

/-- `ssfree` (R372); one whose set the end of the pass has freed is complete. -/
def execSsfree (hd : Hdr) (o : OpG) (s : State) : Host.Outcome State Fault Refusal :=
  Ops.run (.ssfree hd o) hd mMemC [setOpnd o] [] (fun c =>
    match c.f.stage with
    | .released => noEffect c
    | _ => withRecord c o c.active true (freeLanes c)) s

/-- `ssget` (R373). Its acquire needs nothing more, because loads bind at issue (assumption log entry 6). -/
def execSsget (hd : Hdr) (o : OpG) (s : State) : Host.Outcome State Fault Refusal :=
  Ops.run (.ssget hd o) hd mMem [dst o.d, setOpnd o] [] (fun c =>
    withRecord c o c.active false (fun _ _ rec s =>
      .done s (wrLanes c o.d 1 (fun _ => getField rec o.sub.toNat)) [])) s

end Sys2Proof.Machine
end

