-- ==== Sys2Proof/Machine/Raster.lean ====
section
/-! DEFINITION. Geometry: primitives and their tests (17 R345 to R347, R352 to R354, R360), emission and `rflush` (18 R374 to
R376, 19 R381), and the binner's insertion (17 R348, R349, 19 R380). -/

namespace Sys2Proof.Machine

open Sys2Proof.Bits
open Sys2Proof.Num
open Ops

namespace Ops

/-! ### Accesses of the raster pipeline -/

/-- The place of an access by the raster pipeline of a die, or why it halts (18 R375); what it writes of a publishable page is
the shadow (11 R228). DESIGN CHOICE, log entry 76; DEDUCED, log entries 77, 82. -/
def gfxPlace (s : State) (ctx d va rd wr : Nat) (writes : Bool) : Except Halt Place :=
  let va := va % 2 ^ 64
  let acc := rd + 2 * wr
  match translateEngine s ctx d va rd wr writes with
  | .ok pa leaf _ _ =>
    if windowOf pa = .control then .error (.park va 0x11 acc)
    else if (homeDie s d pa).isNone then .error (.kill 0x1F)
    else if writes && leaf.testBit 61 then .error (.park va 0x12 acc)
    else if migrating s pa then .error .wait
    else .ok (.mem pa leaf)
  | .absent fpol _ =>
    if fpol = 0 then .error (.park va 0x10 acc)
    else if fpol = 1 then .ok .zero
    else if fpol = 2 then .ok .poison
    else .error (.kill 0x06)
  | .denied => .error (.park va 0x12 acc)
  | .broken => .error (.kill 0x1F)
  | .undecided => .error .wait
  | _ => .error (.park va 0x11 acc)

/-- An access by its permissions. -/
def gfxAt (s : State) (ctx d va rd wr : Nat) : Except Halt Place := gfxPlace s ctx d va rd wr (wr == 1)

/-- Is a place in memory? -/
def isMem : Place → Bool
  | .mem _ _ => true
  | _ => false

/-- The bytes at a place; a page under ZERO or POISON reads as zeros (R375). -/
def placeBytes (s : State) (p : Place) (n : Nat) : List Byte :=
  match p with
  | .mem pa _ => seenBytes s pa n
  | _ => List.replicate n 0

/-- Read for the raster pipeline. -/
def gfxRead (s : State) (ctx d va n : Nat) : Except Halt (List Byte) :=
  match gfxAt s ctx d va 1 0 with
  | .error h => .error h
  | .ok p => .ok (placeBytes s p n)

/-- Write at a place for a unit of a cluster; a page without memory discards it. Answers CT_device.
DEDUCED, log entries 77, 80, 94. -/
def gfxWrite (cl : Nat) (s : State) (w : Place × List Byte) : Nat × State :=
  match w.1 with
  | .mem pa leaf => let r := engineWrite s cl pa leaf w.2; (r.1 5, r.2)
  | _ => (0, s)

/-- Several writes; answers the greatest CT_device. -/
def gfxWrites (cl : Nat) (ws : List (Place × List Byte)) (s : State) : Nat × State :=
  ws.foldl (fun (r : Nat × State) w => let q := gfxWrite cl r.2 w; (max r.1 q.1, q.2)) (0, s)

/-- The place of each write. -/
def gfxPlaces (s : State) (ctx d : Nat) : List (Nat × List Byte) → Except Halt (List (Place × List Byte))
  | [] => .ok []
  | (va, bs) :: rest =>
    match gfxAt s ctx d va 0 1, gfxPlaces s ctx d rest with
    | .error h, _ => .error h
    | _, .error h => .error h
    | .ok p, .ok ps => .ok ((p, bs) :: ps)

/-- The 256 bytes of a record at its place; both its lines are reached (26 R443 to R445). -/
def recordAt (s : State) (d : Nat) (p : Place) : Except Halt (Place × List Byte) :=
  match p with
  | .mem pa _ => if reachable s d pa 256 then .ok (p, placeBytes s p 256) else .error (.kill 0x1F)
  | _ => .ok (p, placeBytes s p 256)

/-- The record of a set, and its place: a word that software has written meanwhile reads as written (R329). DESIGN CHOICE, log
entry 156. -/
def gfxRecord (s : State) (d : Nat) (x : SetSt) : Except Halt (Place × List Byte) :=
  match gfxAt s x.ctx d x.handle 1 0 with
  | .error h => .error h
  | .ok p => recordAt s d p

/-- The same for a write to the record, which needs no more than RD (log entry 81). -/
def gfxRecordOut (s : State) (d : Nat) (x : SetSt) : Except Halt (Place × List Byte) :=
  match gfxPlace s x.ctx d x.handle 1 0 true with
  | .error h => .error h
  | .ok p => recordAt s d p

/-- The work on a set halts: a record of the binner, a wait, or the end of the context (R375, 21 R400). -/
def haltSet (s : State) (d key : Nat) (x : SetSt) : Halt → State
  | .wait => s
  | .kill code => terminate s x.ctx code
  | .park addr cause access =>
    let rep := if x.repAddr = addr then x.rep else 0
    if 16 ≤ rep then terminate s x.ctx 0x07
    else
      let r := raise s { ctx := x.ctx, code := 0x06, cause := cause, source := 4, access := access, place := 64 * d,
                         rep := rep, addr := addr, agent := .binner key }
      setSet r.2 key { x with parked := some r.1 }

/-- Add to the count of discarded primitives of the current pass, at the record as it is written. -/
def addDisc (s : State) (d n : Nat) (rec : Place × List Byte) : State :=
  match rec.1 with
  | .mem pa leaf => (gfxWrite (8 * d) s (.mem (pa + 0x54) leaf, toBytes 4 (recDisc rec.2 + n))).2
  | _ => s

/-! ### Triangles (R347, R352 to R354) -/

/-- The edge function. -/
def edgeFn (a b p : Int × Int) : Int := (b.1 - a.1) * (p.2 - a.2) - (b.2 - a.2) * (p.1 - a.1)

/-- Finite values. -/
def isFinite (f : FFmt) (b : Nat) : Bool := match val f b with | .num _ _ _ => true | _ => false

/-- Word `j` of vertex `i`. -/
def primWord (p : Prim) (i j : Nat) : Nat := ((p.verts.getD i []).getD j 0).toNat

/-- Primitive key and place in a list, compared in this order (R346, R359). -/
def keyBefore (a b : List Nat) : Bool :=
  match a, b with
  | x :: xs, y :: ys => decide (x < y) || (x == y && keyBefore xs ys)
  | _, _ => false

/-- A triangle as the raster reads it, none when R347 discards it. -/
def triOf (p : Prim) : Option Tri :=
  match snap (primWord p 0 0), snap (primWord p 0 1), snap (primWord p 1 0), snap (primWord p 1 1), snap (primWord p 2 0),
      snap (primWord p 2 1) with
  | some x0, some y0, some x1, some y1, some x2, some y2 =>
    let z (i : Nat) : Nat := primWord p i 2
    let attrs (i : Nat) : List Word := (p.verts.getD i []).drop 3
    let a := edgeFn (x0, y0) (x1, y1) (x2, y2)
    if !isFinite f32 (z 0) || !isFinite f32 (z 1) || !isFinite f32 (z 2) || a == 0 then none
    else
      let t : Tri := { batch := p.batch, team := p.team, group := p.group, seq := p.seq }
      if 0 < a then some { t with pts := [(x0, y0), (x1, y1), (x2, y2)], z := [z 0, z 1, z 2],
                                  attrs := [attrs 0, attrs 1, attrs 2], area := a }
      else some { t with pts := [(x0, y0), (x2, y2), (x1, y1)], z := [z 0, z 2, z 1],
                         attrs := [attrs 0, attrs 2, attrs 1], area := -a }
  | _, _, _, _, _, _ => none

/-- Vertex `i` of a triangle. -/
def triPt (t : Tri) (i : Nat) : Int × Int := t.pts.getD i (0, 0)

/-- The three weights of a point. -/
def weights (t : Tri) (p : Int × Int) : Int × Int × Int :=
  (edgeFn (triPt t 1) (triPt t 2) p, edgeFn (triPt t 2) (triPt t 0) p, edgeFn (triPt t 0) (triPt t 1) p)

/-- A left or a top edge (R353). -/
def inclusive (a b : Int × Int) : Bool := decide (b.2 - a.2 < 0) || (b.2 - a.2 == 0 && decide (0 < b.1 - a.1))

/-- Is a point covered (R353)? -/
def covered (t : Tri) (p : Int × Int) : Bool :=
  let w := weights t p
  let ok (x : Int) (a b : Int × Int) : Bool := decide (0 < x) || (x == 0 && inclusive a b)
  ok w.1 (triPt t 1) (triPt t 2) && ok w.2.1 (triPt t 2) (triPt t 0) && ok w.2.2 (triPt t 0) (triPt t 1)

/-- b1 and b2 of a point, as f32 bits. -/
def barycentric (t : Tri) (p : Int × Int) : Nat × Nat :=
  let w := weights t p
  (rne (divE (ofInt w.2.1 0) (ofInt t.area 0)), rne (divE (ofInt w.2.2 0) (ofInt t.area 0)))

/-- The interpolation of R354 over three f32 values. -/
def interpolate (t : Tri) (p : Int × Int) (z : Nat → Nat) : Nat :=
  let b := barycentric t p
  let v (i : Nat) : Val := val f32 (z i)
  let d (i : Nat) : Val := rneV (addE (v i) (negVal (v 0)))
  rne (sumVals 0 [v 0, mulE (val f32 b.1) (d 1), mulE (val f32 b.2) (d 2)]).1

/-- The interpolated depth of a point. -/
def triDepth (t : Tri) (p : Int × Int) : Nat := interpolate t p (fun i => t.z.getD i 0)

/-! ### Splats (R347, R360) -/

/-- A field of a splat: mx, my, a, b, c, opacity, depth, r, g, b. -/
def splatField (p : Prim) (i : Nat) : Nat := primWord p 0 i

/-- The conic as integers in one unit, and the unit's exponent. -/
def conic (p : Prim) : Int × Int × Int × Int :=
  let vs := [val f32 (splatField p 2), val f32 (splatField p 3), val f32 (splatField p 4)]
  let q := minExp vs
  (scaled q (vs.getD 0 .nan), scaled q (vs.getD 1 .nan), scaled q (vs.getD 2 .nan), q)

/-- R347 keeps the splat. -/
def splatOk (p : Prim) : Bool :=
  let k := conic p
  (upto 7).all (fun i => isFinite f32 (splatField p i)) && (upto 3).all (fun i => isFinite f16 (splatField p (7 + i))) &&
    decide (0 < k.1) && decide (0 < k.1 * k.2.2.1 - k.2.1 * k.2.1)

/-- The least n with n * n >= m. -/
def ceilSqrt (m : Nat) : Nat :=
  let r := isqrtBits (m.log2 / 2 + 1) m 0
  if r * r = m then r else r + 1

/-- The extent in 1/256 pixel for the conic's other diagonal entry (R360). DEDUCED, log entry 88. -/
def splatExtent (p : Prim) (entry : Int) : Nat :=
  let k := conic p
  let det := (k.1 * k.2.2.1 - k.2.1 * k.2.1).toNat
  let q := k.2.2.2
  ceilSqrt (ceilDiv (65536 * 12 * entry.toNat * 2 ^ (-q).toNat) (det * 2 ^ q.toNat))

/-- Round an exact value to an integer. -/
def nearest : Val → Int
  | .num s m e => roundIntNum 0 s m e
  | _ => 0

/-- A value times 256. -/
def in256 : Val → Val
  | .num s m e => .num s m (e + 8)
  | v => v

/-- The bounding box of a primitive: least and greatest x, least and greatest y. -/
def boxOf (p : Prim) : Option (Int × Int × Int × Int) :=
  if p.splat then
    if !splatOk p then none
    else
      let k := conic p
      let side (m : Nat) (e : Int) : Int := nearest (addE (in256 (val f32 m)) (ofInt e 0))
      let ex : Int := splatExtent p k.2.2.1
      let ey : Int := splatExtent p k.1
      let mx := splatField p 0
      let my := splatField p 1
      some (side mx (-ex), side mx ex, side my (-ey), side my ey)
  else match triOf p with
    | none => none
    | some t =>
      let xs := t.pts.map Prod.fst
      let ys := t.pts.map Prod.snd
      let least (l : List Int) : Int := l.foldl (fun a b => min a b) (l.headD 0)
      let most (l : List Int) : Int := l.foldl (fun a b => max a b) (l.headD 0)
      some (least xs, most xs, least ys, most ys)

/-- The cells that a box meets, ascending (R380). -/
def metCells (rec : List Byte) (b : Int × Int × Int × Int) : List Nat :=
  let cu := cellEdge (recClog rec)
  let along (lo hi o : Int) (n : Nat) : List Nat :=
    (upto n).filter (fun i => decide ((lo - o) / cu ≤ (i : Int)) && decide ((i : Int) ≤ (hi - o) / cu))
  (along b.2.2.1 b.2.2.2 (recOy rec) (recNcy rec)).flatMap (fun cy =>
    (along b.1 b.2.1 (recOx rec) (recNcx rec)).map (fun cx => cy * recNcx rec + cx))

/-! ### Emission (R345, R346, R374) -/

/-- A bound set whose ending `rflush` has not been performed. -/
def emitsTo (s : State) (c : Ctx) (h : Nat) (rec : List Byte) : Bool := recState rec == 3 && !(setSt s c h).ending

/-- Limits and trap bits of the kernel header (01 R24). -/
def trapsOver (c : Ctx) : Bool := c.tm.hdr.traps.testBit 1
def trapsIndex (c : Ctx) : Bool := c.tm.hdr.traps.testBit 2

/-- What a lane's emission becomes. -/
inductive Emitted where
  | number (n : Nat)
  | dropped
  | discarded
  deriving DecidableEq, Repr, Inhabited

/-- The lanes' outcomes: the count moves on with each accepted emission (R374). -/
def emitPlan (bad : Nat → Bool) (limit : Nat) : List Nat → Nat → List (Nat × Emitted)
  | [], _ => []
  | l :: ls, n =>
    if bad l then (l, .discarded) :: emitPlan bad limit ls n
    else if limit ≤ n then (l, .dropped) :: emitPlan bad limit ls n
    else (l, .number n) :: emitPlan bad limit ls (n + 1)

/-- The lanes with an outcome. -/
def lanesThat (plan : List (Nat × Emitted)) (x : Emitted) : Nat := maskOf ((plan.filter (fun e => e.2 == x)).map Prod.fst)

/-- The trap of R345, with its status bits set. DEDUCED, log entry 87. -/
def emitTrap (c : Ctx) (plan : List (Nat × Emitted)) (s : State) : Option Res :=
  let overs := if trapsOver c then lanesThat plan .dropped else 0
  let index := if trapsIndex c then lanesThat plan .discarded else 0
  if overs ||| index = 0 then none
  else some (.trap (trapOf 0x0E (overs ||| index))
    (orGstat s c.key ((if overs = 0 then 0 else gsOverflow) + (if index = 0 then 0 else gsIndex))))

/-- The status bits of a plan that proceeds. DEDUCED, log entry 87. -/
def emitStatus (plan : List (Nat × Emitted)) : Nat :=
  (if lanesThat plan .dropped = 0 then 0 else gsOverflow) + (if lanesThat plan .discarded = 0 then 0 else gsIndex)

/-- The results of a plan. -/
def emitWrites (c : Ctx) (o : OpG) (plan : List (Nat × Emitted)) : List RegWrite :=
  wrLanes c o.d 1 (fun l => match plan.find? (fun e => e.1 == l) with | some (_, .number n) => n | _ => 0xFFFFFFFF)

/-- The registers of a run in a lane, as words. -/
def runWords (c : Ctx) (r : BitVec 9) (n l : Nat) : List Word := (upto n).map (fun j => BitVec.ofNat 32 (rdAt c r j l))

/-- `emitv` at the record. -/
def emitVertices (c : Ctx) (o : OpG) (h : Nat) (rec : List Byte) (s : State) : Res :=
  let na := o.imm16.toNat
  let plan := emitPlan (fun _ => false) c.tm.hdr.vertLimit (lanesOf c.pass) c.g.vc
  if !emitsTo s c h rec then .trap (trapOf 0x03 c.active) s
  else match emitTrap c plan s with
    | some r => r
    | none =>
      let vertex (l : Nat) : Vertex := { pos := runWords c o.a 3 l, attrs := ((runWords c o.a (3 + na) l).drop 3) ++ List.replicate (8 - na) 0 }
      let s1 := plan.foldl (fun s e => match e.2 with
        | .number n => modGroup s c.key (fun g => { g with verts := Maps.insert n (vertex e.1) g.verts, vc := n + 1 })
        | _ => s) s
      .done (orGstat s1 c.key (emitStatus plan)) (emitWrites c o plan) []

/-- Send work to a binner; its number is fresh. -/
def sendWork (s : State) (d : Nat) (w : BinWork) : State :=
  let x := die s d
  setDie { s with uid := s.uid + 1 } d { x with binner := x.binner ++ [{ w with id := s.uid }] }

/-- `emit` or `emitsp` at the record: the accepted primitives go to the binner. -/
def emitPrims (c : Ctx) (o : OpG) (splat : Bool) (bad : Nat → Bool) (verts : Nat → List (List Word)) (h : Nat)
    (rec : List Byte) (s : State) : Res :=
  let plan := emitPlan bad c.tm.hdr.primLimit (lanesOf c.pass) c.g.pc
  if !emitsTo s c h rec then .trap (trapOf 0x03 c.active) s
  else match emitTrap c plan s with
    | some r => r
    | none =>
      let d := (setSt s c h).binner
      let prim (l n : Nat) : Prim := { splat := splat, verts := verts l, batch := rd c o.b (lowActive c), team := c.g.teamIndex % 2 ^ 32,
                                       group := c.g.idx, seq := n }
      let work (l n : Nat) : BinWork := { ctx := c.tm.ctx, set := setKey c.tm.ctx h, owner := c.key, prim := some (prim l n) }
      let s1 := plan.foldl (fun s e => match e.2 with
        | .number n => sendWork (modGroup s c.key (fun g => { g with pc := n + 1 })) d (work e.1 n)
        | _ => s) s
      .done (orGstat s1 c.key (emitStatus plan)) (emitWrites c o plan) []

/-- A stored vertex as the eleven words of a primitive. -/
def vertexWords (g : Group) (n : Nat) : List Word :=
  let v := Maps.get {} n g.verts
  v.pos ++ v.attrs

/-- The ten words of a splat from its run of nine registers. -/
def splatWords (c : Ctx) (o : OpG) (l : Nat) : List Word :=
  let w (j : Nat) : Nat := rdAt c o.a j l
  runWords c o.a 7 l ++ [BitVec.ofNat 32 (field (w 7) 0 16), BitVec.ofNat 32 (field (w 7) 16 16), BitVec.ofNat 32 (field (w 8) 0 16)]

/-- A run of `n` registers at A. -/
def runOpnd (o : OpG) (n : Nat) : Opnd := { reg := o.a, count := n, file := .vec }

/-- The run is accessible and holds no awaited register: check 4 of R365, after the record's translation. -/
def withRun (c : Ctx) (o : OpG) (n : Nat) (body : Nat → Nat → List Byte → State → Res) : Res :=
  withRecord c o c.active false (fun h pa rec s =>
    if !Opnd.legal c.g (runOpnd o n) then .trap (trapOf 0x03 c.active) s
    else body h pa rec s)

end Ops

/-- `emitv`. -/
def execEmitv (hd : Hdr) (o : OpG) (s : State) : Host.Outcome State Fault Refusal :=
  Ops.run (.emitv hd o) hd mMemC [(dst o.d).inVec, (src o.a).inVec, setOpnd o] []
    (fun c => withRun c o (3 + o.imm16.toNat) (fun h _ rec s => emitVertices c o h rec s)) s

/-- `emit`. -/
def execEmit (hd : Hdr) (o : OpG) (s : State) : Host.Outcome State Fault Refusal :=
  Ops.run (.emit hd o) hd mMemC [(dst o.d).inVec, (src o.a).inVec, (src o.b).inUni, setOpnd o] []
    (fun c => withRun c o 3 (fun h _ rec s => emitPrims c o false
      (fun l => (upto 3).any (fun j => decide (c.g.vc ≤ rdAt c o.a j l)))
      (fun l => (upto 3).map (fun j => vertexWords c.g (rdAt c o.a j l))) h rec s)) s

/-- `emitsp`. -/
def execEmitsp (hd : Hdr) (o : OpG) (s : State) : Host.Outcome State Fault Refusal :=
  Ops.run (.emitsp hd o) hd mMemC [(dst o.d).inVec, (src o.a).inVec, (src o.b).inUni, setOpnd o] []
    (fun c => withRun c o 9 (fun h _ rec s => emitPrims c o true (fun _ => false) (fun l => [splatWords c o l]) h rec s)) s

/-- `rflush` (R376): the flush takes its place among the binner's work; the ending one refuses later emissions. It is begun
at once when the binner has nothing else to do. -/
def execRflush (hd : Hdr) (o : OpG) (s : State) : Host.Outcome State Fault Refusal :=
  Ops.run (.rflush hd o) hd mMemC [setOpnd o] [] (fun c =>
    withRecord c o c.active false (fun h _ rec s =>
      if !emitsTo s c h rec then illegal c s
      else
        let d := (setSt s c h).binner
        let ending := o.imm16 == 1
        let s1 := if ending then putSet s c h { setSt s c h with ending := true } else s
        let s2 := sendWork s1 d { ctx := c.tm.ctx, set := setKey c.tm.ctx h, owner := c.key, ending := ending }
        .done { s2 with agenda := s2.agenda ++ [.event (.binnerInsert d)] } [] [])) s

namespace Ops

/-! ### Insertion (R349, R380) -/

/-- How an insertion goes. -/
inductive Insert where
  /-- the primitive goes nowhere: discarded and counted, or dropped without counting -/
  | discard
  | drop
  /-- the claim of `k` blocks at `j` does not fit; where the next-block word lies -/
  | overflows (j k : Nat) (next : Place)
  | fits (ws : List (Place × List Byte))

/-- Address of a pool block. DEDUCED, log entry 89. -/
def poolBlock (pool b : Nat) : Nat := pool + 64 * b

/-- The list words that an insertion writes; `i` counts the new list blocks, which follow block `base`. A cell gives its
head entry and the count of its last block. DEDUCED, log entry 89. -/
def listWrites (pool heads j base : Nat) : List (Nat × Nat × Nat) → Nat → List (Nat × List Byte)
  | [], _ => []
  | (cell, e, count) :: rest, i =>
    let head := heads + 8 * cell
    let last := field e 32 32
    let nb := base + i
    let new := (poolBlock pool nb, toBytes 4 0 ++ toBytes 4 1 ++ toBytes 4 j)
    if field e 0 32 = 0 then new :: (head, toBytes 4 nb ++ toBytes 4 nb) :: listWrites pool heads j base rest (i + 1)
    else if 14 ≤ count then
      new :: (poolBlock pool last, toBytes 4 nb) :: (head + 4, toBytes 4 nb) :: listWrites pool heads j base rest (i + 1)
    else
      (poolBlock pool last + 8 + 4 * count, toBytes 4 j) :: (poolBlock pool last + 4, toBytes 4 (count + 1)) ::
        listWrites pool heads j base rest i

/-- The bytes of words. -/
def wordBytes (ws : List Nat) : List Byte := ws.flatMap (toBytes 4)

/-- The primitive's blocks, from block `j` up (R348). -/
def primBlocks (j : Nat) (p : Prim) : List (List Byte) :=
  let key := [p.batch, p.team, p.group, p.seq]
  if p.splat then
    let f (i : Nat) : Nat := splatField p i
    [wordBytes (3 :: (upto 7).map f) ++ toBytes 2 (f 7) ++ toBytes 2 (f 8) ++ toBytes 4 (f 9 % 2 ^ 16) ++ wordBytes key ++ List.replicate 8 0]
  else
    (wordBytes ([2, j + 1, j + 2, j + 3] ++ key) ++ List.replicate 32 0) ::
      p.verts.map (fun v => wordBytes (1 :: v.map BitVec.toNat) ++ List.replicate 16 0)

/-- The head entries and last counts of cells; none when one lies on a page under ZERO or POISON. -/
def readHeads (s : State) (ctx d pool heads : Nat) : List Nat → Except Halt (Option (List (Nat × Nat × Nat)))
  | [] => .ok (some [])
  | cell :: rest =>
    match gfxAt s ctx d (heads + 8 * cell) 1 1 with
    | .error h => .error h
    | .ok hp =>
      let e := ofBytes (placeBytes s hp 8)
      match (if field e 0 32 = 0 then .ok hp else gfxAt s ctx d (poolBlock pool (field e 32 32)) 1 1), readHeads s ctx d pool heads rest with
      | .error h, _ => .error h
      | _, .error h => .error h
      | .ok lp, .ok more =>
        let count := if field e 0 32 = 0 then 0 else ofBytes ((placeBytes s lp 8).drop 4)
        .ok (if isMem hp && isMem lp then more.map (fun m => (cell, e, count) :: m) else none)

/-- Plan an insertion into the pool. A primitive that a page under ZERO or POISON discards claims no block: next stays as it was.
DESIGN CHOICE, log entry 184. -/
def planInsert (s : State) (d ctx : Nat) (rec : List Byte) (p : Prim) : Except Halt Insert :=
  match boxOf p with
  | none => .ok .discard
  | some box =>
    let cells := metCells rec box
    let pool := recPool rec
    if p.splat != (pctlKind (recPctl rec) == 1) then .ok .discard
    else if cells.isEmpty then .ok .drop
    else match gfxAt s ctx d pool 1 1 with
      | .error h => .error h
      | .ok pp =>
        let desc := placeBytes s pp 64
        let heads := descField desc 8 8
        if !isMem pp then .ok .discard
        else match readHeads s ctx d pool heads cells with
          | .error h => .error h
          | .ok none => .ok .discard
          | .ok (some hs) =>
            let own := if p.splat then 1 else 4
            let j := descField desc 4 4
            let k := own + (hs.filter (fun e => field e.2.1 0 32 == 0 || decide (14 ≤ e.2.2))).length
            let prims := (primBlocks j p).mapIdx (fun i b => (poolBlock pool (j + i), b))
            if descField desc 0 4 < j + k then
              (match pp with | .mem pa leaf => .ok (.overflows j k (.mem (pa + 4) leaf)) | _ => .ok .discard)
            else match gfxPlaces s ctx d ((pool + 4, toBytes 4 (j + k)) :: prims ++ listWrites pool heads j (j + own) hs 0) with
              | .error h => .error h
              | .ok ws => .ok (if ws.all (fun w => isMem w.1) then .fits ws else .discard)

/-- The first piece of work of a binner is finished. -/
def popWork (s : State) (d : Nat) : State := setDie s d { die s d with binner := (die s d).binner.drop 1 }

/-- A claim overflows: the next-block word holds it; the lists are flushed, and the primitive tries once more; at the second
time it is discarded and the word restored. DEDUCED, log entry 91. -/
def overflow (s : State) (d : Nat) (w : BinWork) (rec : Place × List Byte) (j k : Nat) (next : Place) : State :=
  if w.tried then popWork (addDisc (gfxWrite (8 * d) s (next, toBytes 4 j)).2 d 1 rec) d
  else
    let s1 := (gfxWrite (8 * d) { s with uid := s.uid + 1 } (next, toBytes 4 (j + k))).2
    let flush : BinWork := { id := s.uid, ctx := w.ctx, set := w.set, owner := w.owner }
    setDie s1 d { die s1 d with binner := flush :: { w with tried := true } :: (die s1 d).binner.drop 1 }

/-- Insert the primitive of the first piece of work. DEDUCED, log entry 91. -/
def insertPrim (s : State) (d : Nat) (w : BinWork) (x : SetSt) (p : Prim) : State :=
  match gfxRecord s d x with
  | .error h => haltSet s d w.set x h
  | .ok rec =>
    match planInsert s d x.ctx rec.2 p, gfxRecordOut s d x with
    | .error h, _ => haltSet s d w.set x h
    | _, .error h => haltSet s d w.set x h
    | .ok r, .ok out =>
      let s1 := setSet s w.set { x with rep := 0 }
      match r with
      | .discard => popWork (addDisc s1 d 1 out) d
      | .drop => popWork s1 d
      | .overflows j k next => overflow s1 d w out j k next
      | .fits ws => popWork (gfxWrites (8 * d) ws s1).2 d

end Ops

end Sys2Proof.Machine
end

