-- ==== Sys2Proof/Machine/Flush.lean ====
section
/-! DEFINITION. Flushes: reading the lists (17 R350, R351, 18 R375), the results of triangles and the splats of each cell, the
blend unit (17 R358, R359, R361), the end of a flush and of a pass (R344), and the binner's events. -/

namespace Sys2Proof.Machine

open Sys2Proof.Bits
open Sys2Proof.Num
open Ops

namespace Ops

/-! ### Reading the lists (R351) -/

/-- What an entry of a list names. -/
inductive Drawn where
  | tri (t : Tri)
  | splat (p : Prim)
  | ignored
  deriving DecidableEq, Repr, Inhabited

/-- `n` words of a block from an offset. -/
def blockWords (b : List Byte) (off n : Nat) : List Word := (upto n).map (fun i => BitVec.ofNat 32 (descField b (off + 4 * i) 4))

/-- Half-words of a block, each in a word. -/
def blockHalves (b : List Byte) (off n : Nat) : List Word := (upto n).map (fun i => BitVec.ofNat 32 (descField b (off + 2 * i) 2))

/-- The primitive key at an offset of a block. -/
def keyAt (b : List Byte) (off : Nat) : Prim :=
  { batch := descField b off 4, team := descField b (off + 4) 4, group := descField b (off + 8) 4, seq := descField b (off + 12) 4 }

/-- A vertex block's words, none when its number or its type is wrong. -/
def readVertex (s : State) (ctx d pool nb v : Nat) : Except Halt (Option (List Word)) :=
  if v = 0 ∨ nb ≤ v then .ok none
  else match gfxRead s ctx d (poolBlock pool v) 64 with
    | .error h => .error h
    | .ok b => .ok (if descField b 0 4 = 1 then some (blockWords b 4 11) else none)

/-- An entry of a list, in a splat pass or a triangle pass. -/
def readEntry (s : State) (ctx d pool nb : Nat) (splats : Bool) (e : Nat) : Except Halt Drawn :=
  if e = 0 ∨ nb ≤ e then .ok .ignored
  else match gfxRead s ctx d (poolBlock pool e) 64 with
    | .error h => .error h
    | .ok b =>
      if descField b 0 4 = 3 then
        let p : Prim := { keyAt b 0x28 with splat := true, verts := [blockWords b 4 7 ++ blockHalves b 0x20 3] }
        .ok (if splats && splatOk p then .splat p else .ignored)
      else if descField b 0 4 ≠ 2 ∨ splats then .ok .ignored
      else match readVertex s ctx d pool nb (descField b 4 4), readVertex s ctx d pool nb (descField b 8 4),
          readVertex s ctx d pool nb (descField b 12 4) with
        | .error h, _, _ => .error h
        | _, .error h, _ => .error h
        | _, _, .error h => .error h
        | .ok (some u), .ok (some v), .ok (some w) =>
          .ok (match triOf { keyAt b 0x10 with verts := [u, v, w] } with | some t => .tri t | none => .ignored)
        | _, _, _ => .ok .ignored

/-- Several entries. -/
def readEntries (s : State) (ctx d pool nb : Nat) (splats : Bool) : List Nat → Except Halt (List Drawn)
  | [] => .ok []
  | e :: es =>
    match readEntry s ctx d pool nb splats e, readEntries s ctx d pool nb splats es with
    | .error h, _ => .error h
    | _, .error h => .error h
    | .ok x, .ok xs => .ok (x :: xs)

/-- A list from a block on, reading at most as many blocks as the fuel. R351 ends a list at a next block outside the pool; a head whose
first block lies outside it is an empty list. DESIGN CHOICE, log entry 183. -/
def readList (s : State) (ctx d pool nb : Nat) (splats : Bool) : Nat → Nat → Except Halt (List Drawn)
  | 0, _ => .ok []
  | fuel + 1, b =>
    if b = 0 ∨ nb ≤ b then .ok []
    else match gfxRead s ctx d (poolBlock pool b) 64 with
      | .error h => .error h
      | .ok bs =>
        let es := (upto (min 14 (descField bs 4 4))).map (fun i => descField bs (8 + 4 * i) 4)
        match readEntries s ctx d pool nb splats es, readList s ctx d pool nb splats fuel (descField bs 0 4) with
        | .error h, _ => .error h
        | _, .error h => .error h
        | .ok xs, .ok ys => .ok (xs ++ ys)

/-- The lists of several cells. -/
def readCells (s : State) (ctx d pool nb heads : Nat) (splats : Bool) : List Nat → Except Halt (List (Nat × List Drawn))
  | [] => .ok []
  | c :: cs =>
    match gfxRead s ctx d (heads + 8 * c) 8 with
    | .error h => .error h
    | .ok e =>
      match readList s ctx d pool nb splats nb (descField e 0 4), readCells s ctx d pool nb heads splats cs with
      | .error h, _ => .error h
      | _, .error h => .error h
      | .ok xs, .ok ys => .ok ((c, xs) :: ys)

/-! ### Results -/

/-- The cluster whose raster unit takes a leaf (R341). -/
def leafCluster (d pctl : Nat) (l : Leaf) : Nat :=
  let cs := pctlClusters pctl
  8 * d + cs.getD (hashOf 0 0xFFFFFFFF [l.cell, l.path] % cs.length) 0

/-- The triangles of a cell with their places in its lists. -/
def trisOf (xs : List Drawn) : List (Nat × Tri) :=
  ((xs.mapIdx (fun i x => (i, x))).filterMap (fun e => match e.2 with | .tri t => some (e.1, t) | _ => none))

/-- The splats of a cell. -/
def splatsOf (xs : List Drawn) : List Prim := xs.filterMap (fun x => match x with | .splat p => some p | _ => none)

/-- The result of a covered sample as the raster leaves it: the interpolated depth. -/
def triResult (cluster cell order : Nat) (t : Tri) (shaded : Bool) (q : Nat × Int × Int) : BlendRes :=
  { sample := q.1, cell := cell, cluster := cluster, x := q.2.1, y := q.2.2, batch := t.batch, team := t.team, group := t.group,
    seq := t.seq, order := order, z := triDepth t (q.2.1, q.2.2), ready := !shaded }

/-- The results of a triangle in a leaf. -/
def leafResults (d pctl : Nat) (shaded : Bool) (l : Leaf) (e : Nat × Tri) : List BlendRes :=
  (l.samples.filter (fun q => covered e.2 (q.2.1, q.2.2))).map (triResult (leafCluster d pctl l) l.cell e.1 e.2 shaded)

/-- Number results from `i` up. -/
def numbered (i : Nat) (rs : List BlendRes) : List BlendRes := rs.mapIdx (fun j r => { r with id := i + j })

/-- Cut quads into groups of one or two; which is left open (R356). DEDUCED, log entry 96. -/
def cutQuads : Nat → List (Nat × Nat) → State → List (List (Nat × Nat)) × State
  | 0, _, s => ([], s)
  | _, [], s => ([], s)
  | fuel + 1, q :: qs, s =>
    let one := Config.freeNat s.fresh % 2 = 0
    let s := { s with fresh := s.fresh + 1 }
    match qs with
    | r :: rest =>
      if one then let x := cutQuads fuel (r :: rest) s; ([q] :: x.1, x.2)
      else let x := cutQuads fuel rest s; ([q, r] :: x.1, x.2)
    | [] => ([[q]], s)

/-- The results of a cell's leaf, triangle by triangle, with the fragment groups that shade them. -/
def leafWork (d pctl : Nat) (shaded : Bool) (l : Leaf) : List (Nat × Tri) → State → (List BlendRes × List FragWork) × State
  | [], s => (([], []), s)
  | e :: es, s =>
    let rs := numbered s.uid (leafResults d pctl shaded l e)
    let s1 : State := { s with uid := s.uid + rs.length }
    let cut := if shaded then cutQuads rs.length (rs.map (fun r => (r.id, r.sample))) s1 else ([], s1)
    let works : List FragWork := cut.1.map (fun qs => { tri := e.2, cell := l.cell, cluster := leafCluster d pctl l, quads := qs })
    let more := leafWork d pctl shaded l es cut.2
    ((rs ++ more.1.1, works ++ more.1.2), more.2)

/-- A leaf of a splat pass: every sample is composited once. -/
def splatResults (d pctl : Nat) (l : Leaf) : List BlendRes :=
  l.samples.map (fun q => { sample := q.1, cell := l.cell, cluster := leafCluster d pctl l, x := q.2.1, y := q.2.2, splats := true,
                            ready := true })

/-- The work of every leaf. -/
def leavesWork (d pctl : Nat) (shaded : Bool) (cells : List (Nat × List Drawn)) : List Leaf → State →
    (List BlendRes × List FragWork) × State
  | [], s => (([], []), s)
  | l :: ls, s =>
    let xs := ((cells.find? (fun c => c.1 == l.cell)).map Prod.snd).getD []
    let a :=
      if (splatsOf xs).isEmpty then leafWork d pctl shaded l (trisOf xs) s
      else
        let rs := numbered s.uid (splatResults d pctl l)
        ((rs, []), { s with uid := s.uid + rs.length })
    let b := leavesWork d pctl shaded cells ls a.2
    ((a.1.1 ++ b.1.1, a.1.2 ++ b.1.2), b.2)

/-- The sort key of a splat (R361). -/
def splatKey (p : Prim) : List Nat := [rkeyOf 10 (splatField p 6), p.batch, p.team, p.group, p.seq]

/-- Insert a splat before the first that follows it. -/
def insertSplat (p : Prim) : List Prim → List Prim
  | [] => [p]
  | q :: qs => if keyBefore (splatKey q) (splatKey p) then q :: insertSplat p qs else p :: q :: qs

/-- Splats in the sorter's order; equal keys keep their order in the lists. -/
def sortSplats (ps : List Prim) : List Prim := ps.foldr insertSplat []

/-- Begin the flush that is a binner's first piece of work: read the lists and form the results. All lists are read now (R350).
DESIGN CHOICE, log entry 157. -/
def startFlush (s : State) (d : Nat) (w : BinWork) (x : SetSt) : State :=
  match gfxRecord s d x with
  | .error h => haltSet s d w.set x h
  | .ok rec =>
    let r := rec.2
    match gfxRead s x.ctx d (recPool r) 64 with
    | .error h => haltSet s d w.set x h
    | .ok desc =>
      match readCells s x.ctx d (recPool r) (descField desc 0 4) (descField desc 8 8) (pctlKind (recPctl r) == 1)
          (upto (recNcx r * recNcy r)) with
      | .error h => haltSet s d w.set x h
      | .ok cells =>
        let shaded := recFrag r != 0 && pctlKind (recPctl r) == 0
        let work := leavesWork x.die (recPctl r) shaded cells x.leaves s
        let disc := (cells.map (fun c => c.2.count .ignored)).foldl (fun a b => a + b) 0
        setSet work.2 w.set { x with rep := 0, flush := some {
          results := work.1.1, launches := work.1.2, disc := disc
          splats := cells.map (fun c => (c.1, sortSplats (splatsOf c.2))) } }

/-- A binner serves its first piece of work, one pool at a time (R349). DEDUCED, log entries 90, 93. -/
def serveBinner (s : State) (d : Nat) : State :=
  match (die s d).binner with
  | [] => s
  | w :: _ =>
    match Maps.find? w.set s.sets with
    | none => popWork s d
    | some x =>
      if x.parked.isSome || x.flush.isSome then s
      else match w.prim with
        | some p => insertPrim s d w x p
        | none => startFlush s d w x

/-! ### The blend unit (R359, R361) -/

/-- a < b on f32 values, false with a NaN. -/
def fltLt (a b : Nat) : Bool := !isNaN f32 a && !isNaN f32 b && ltVal (val f32 a) (val f32 b)

/-- a = b on f32 values, false with a NaN. -/
def fltEq (a b : Nat) : Bool := !isNaN f32 a && !isNaN f32 b && eqVal (val f32 a) (val f32 b)

/-- The depth test. -/
def depthPasses (test z depth : Nat) : Bool :=
  if test = 0 then true
  else if test = 1 then fltLt z depth
  else if test = 2 then fltLt z depth || fltEq z depth
  else if test = 3 then fltLt depth z
  else fltLt depth z || fltEq z depth

/-- The channel operation. -/
def blendOp (op old v : Nat) : Nat :=
  if op = 0 then v
  else if op = 1 then (Alu.fadd f32 0 old v).bits
  else (Alu.fminmax (op == 3) old v).bits

/-- The writes of a triangle result to a sample: (offset, word). -/
def triWrites (pctl nch : Nat) (sample : List Byte) (r : BlendRes) : List (Nat × Nat) :=
  if r.discarded || !depthPasses (pctlTest pctl) r.z (descField sample 0x0C 4) then []
  else (if pctlWrite pctl then [(0x0C, r.z)] else []) ++
    ((r.channels.filter (fun e => decide (e.1 < nch))).map (fun e =>
      (0x20 + 4 * e.1, blendOp (pctlBlend pctl) (descField sample (0x20 + 4 * e.1) 4) e.2.toNat)))

/-- A sample's colours and transmittance while splats are composited. -/
structure Blend where
  c : List Nat
  t : Nat
  stopped : Bool := false
  deriving DecidableEq, Repr, Inhabited

/-- Opacity clamped to [0, 1]. DEDUCED, log entry 88. -/
def clampOpacity (o : Nat) : Nat := if fltLt o 0 then 0 else if fltLt 0x3F800000 o then 0x3F800000 else o

/-- The alpha of a splat at a position in f32, none when its exponent is a NaN. -/
def splatAlpha (p : Prim) (x y : Nat) : Option Nat :=
  let f (i : Nat) : Val := val f32 (splatField p i)
  let dx := rneV (addE (val f32 x) (negVal (f 0)))
  let dy := rneV (addE (val f32 y) (negVal (f 1)))
  let two : Val := .num false 2 0
  let q := rne (sumVals 0 [mulE (mulE (f 2) dx) dx, mulE two (mulE (mulE (f 3) dx) dy), mulE (mulE (f 4) dy) dy]).1
  if isNaN f32 q then none
  else
    let g := (fex2 (rne (mulE (val f32 q) (val f32 0xBF38AA3B)))).bits
    let a := rne (mulE (val f32 (clampOpacity (splatField p 5))) (val f32 g))
    some (if fltLt 0x3F7D70A4 a then 0x3F7D70A4 else a)

/-- Composite one splat. -/
def compositeStep (smin x y : Nat) (b : Blend) (p : Prim) : Blend :=
  if b.stopped then b
  else match splatAlpha p x y with
    | none => b
    | some a =>
      if fltLt a 0x3B808081 then b
      else
        let w := rneV (mulE (val f32 a) (val f32 b.t))
        let colour (k : Nat) : Val := val f32 (toF32 f16 (splatField p (7 + k))).bits
        let c := (upto 3).map (fun k => rne (addE (val f32 (b.c.getD k 0)) (mulE w (colour k))))
        let t := rne (mulE (val f32 b.t) (rneV (addE (.num false 1 0) (negVal (val f32 a)))))
        { c := c, t := t, stopped := fltLt t smin }

/-- The writes of a splat pass to a sample. -/
def splatWrites (smin : Nat) (sample : List Byte) (r : BlendRes) (ps : List Prim) : List (Nat × Nat) :=
  let chan (k : Nat) : Nat := descField sample (0x20 + 4 * k) 4
  let b0 : Blend := { c := (upto 3).map chan, t := chan 3, stopped := fltLt (chan 3) smin }
  let b := ps.foldl (compositeStep smin (unsnap r.x) (unsnap r.y)) b0
  (upto 3).map (fun k => (0x20 + 4 * k, b.c.getD k 0)) ++ [(0x2C, b.t)]

/-- A place some bytes further. -/
def placeAdd (p : Place) (n : Nat) : Place :=
  match p with
  | .mem pa leaf => .mem (pa + n) leaf
  | q => q

/-- The order of a result among those of its sample. -/
def resultKey (r : BlendRes) : List Nat := [r.batch, r.team, r.group, r.seq, r.order]

/-- The next result of a sample. DEDUCED, log entry 92. -/
def nextResult (rs : List BlendRes) : Option BlendRes :=
  rs.foldl (fun best r => match best with
    | none => some r
    | some b => if keyBefore (resultKey r) (resultKey b) then some r else some b) none

/-- Apply the next result of a sample, when it is ready. DEDUCED, log entry 92. -/
def blendSample (s : State) (key sample : Nat) : State :=
  match Maps.find? key s.sets with
  | none => s
  | some x =>
    match x.flush with
    | none => s
    | some fl =>
      match nextResult (fl.results.filter (fun r => r.sample == sample)) with
      | none => s
      | some r =>
        let d := r.cluster / 8
        if !r.ready || x.parked.isSome then s
        else match gfxRecord s d x with
          | .error h => haltSet s d key x h
          | .ok rec =>
            match gfxAt s x.ctx d (recSamples rec.2 + 64 * sample) 1 1 with
            | .error h => haltSet s d key x h
            | .ok place =>
              let bytes := placeBytes s place 64
              let ws := if r.splats then splatWrites (recSmin rec.2) bytes r (((fl.splats.find? (fun e => e.1 == r.cell)).map Prod.snd).getD [])
                else triWrites (recPctl rec.2) (recNch rec.2) bytes r
              let out := gfxWrites r.cluster (ws.map (fun w => (placeAdd place w.1, toBytes 4 w.2))) s
              setSet out.2 key { x with
                rep := 0, ct := max x.ct out.1
                flush := some { fl with results := fl.results.filter (fun q => q.id != r.id) } }

/-! ### The end of a flush and of a pass (R344, R350) -/

/-- The die whose binner's first piece of work is a flush of the set. -/
def flushDie (s : State) (key : Nat) : Option (Nat × BinWork) :=
  s.dies.findSome? (fun e => match e.2.binner with
    | w :: _ => if w.set == key && w.prim.isNone then some (e.1, w) else none
    | [] => none)

/-- Complete a flush whose results have been applied: the pool is reset. -/
def completeFlush (s : State) (key : Nat) : State :=
  match Maps.find? key s.sets, flushDie s key with
  | some x, some (d, w) =>
    match x.flush with
    | none => s
    | some fl =>
      if !fl.results.isEmpty || !fl.launches.isEmpty || x.parked.isSome then s
      else match gfxRecord s d x with
        | .error h => haltSet s d key x h
        | .ok rec =>
          let pool := recPool rec.2
          match gfxRead s x.ctx d pool 64 with
          | .error h => haltSet s d key x h
          | .ok desc =>
            let heads := descField desc 8 8
            let zeros := (upto (recNcx rec.2 * recNcy rec.2)).map (fun i => (heads + 8 * i, toBytes 8 0))
            match gfxPlaces s x.ctx d ((pool + 4, toBytes 4 1) :: (pool + 0x10, toBytes 4 (descField desc 0x10 4 + 1)) :: zeros),
                gfxRecordOut s d x with
            | .error h, _ => haltSet s d key x h
            | _, .error h => haltSet s d key x h
            | .ok ws, .ok out =>
              let s1 := addDisc (gfxWrites (8 * d) ws s).2 d fl.disc out
              popWork (setSet s1 key { x with rep := 0, flush := none, passEnd := w.ending, endOwner := w.owner }) d
  | _, _ => s

/-- The pass of a set ends with `ssfree` waiting: the first frees the set, and the others find it FREE (18 R372). -/
def freeWaiting (s : State) (key : Nat) (x : SetSt) (rec : Place × List Byte) (f : Nat × Nat) (more : List (Nat × Nat)) :
    State :=
  let launch := match group? s f.2 with | some g => ((team? s g.team).map (fun t => t.launch)).getD 0 | none => 0
  let s1 := match rec.1 with
    | .mem pa leaf =>
      let r := engineWrite s (8 * x.die) pa leaf ((putState rec.2 0).take 4)
      returnCt r.2 f.2 s.uid launch r.1
    | _ => s
  let s2 := wakeStage { s1 with sets := Maps.erase key s1.sets } (.ticket f.1) .released
  more.foldl (fun s w => wakeStage s (.ticket w.1) (.ticket w.1)) s2

/-- End a pass once the die's E has passed the completion times of its blend stores: the set is BUILT again, or FREE when an
`ssfree` waits for it. DEDUCED, log entry 95. -/
def endPass (s : State) (key : Nat) : State :=
  match Maps.find? key s.sets with
  | none => s
  | some x =>
    if !x.passEnd || x.parked.isSome || !passed s x.die x.ct then s
    else match gfxRecordOut s x.die x with
      | .error h => haltSet s x.die key x h
      | .ok rec =>
        match x.freers with
        | [] =>
          let s1 := (gfxWrite (8 * x.die) s (rec.1, (putState rec.2 2).take 4)).2
          setSet s1 key { x with rep := 0, ct := 0, ending := false, passEnd := false, endOwner := 0 }
        | f :: more => freeWaiting s key x rec f more

end Ops

/-- BINNER_INSERT. -/
def execBinnerInsert (d : Nat) (s : State) : Host.Outcome State Fault Refusal := .next (Ops.serveBinner s d)

/-- BLEND_APPLY. DEDUCED, log entry 94. -/
def execBlendApply (set sample : Nat) (s : State) : Host.Outcome State Fault Refusal := .next (Ops.blendSample s set sample)

/-- FLUSH_COMPLETE. -/
def execFlushComplete (set : Nat) (s : State) : Host.Outcome State Fault Refusal := .next (Ops.completeFlush s set)

/-- PASS_END. -/
def execPassEnd (set : Nat) (s : State) : Host.Outcome State Fault Refusal := .next (Ops.endPass s set)

end Sys2Proof.Machine
end

