-- ==== Sys2Proof/Machine/Fragment.lean ====
section
/-! DEFINITION. Fragment programs: their launch (17 R355, R356), their inputs and results (R357, R358, 18 R377 to R379). -/

namespace Sys2Proof.Machine

open Sys2Proof.Bits
open Sys2Proof.Num
open Ops

namespace Ops

/-! ### Launch -/

/-- The footprint of a sample: fxx, fxy, fyx, fyy. -/
def footprint (rec sample : List Byte) : List Val :=
  if recFp rec then (upto 4).map (fun i => val f16 (descField sample (0x10 + 2 * i) 2))
  else [.num false 1 0, .num false 0 0, .num false 0 0, .num false 1 0]

/-- The snapped position of quad position `q` of a sample at a snapped position (R355). -/
def quadPoint (f : List Val) (p : Int × Int) (q : Nat) : Int × Int :=
  let along (at_ : Int) (a b : Nat) : Nat :=
    rne (sumVals 0 ([ofInt at_ (-8)] ++ (if q.testBit 0 then [f.getD a .nan] else []) ++ (if q.testBit 1 then [f.getD b .nan] else []))).1
  if q = 0 then p
  else match snap (along p.1 0 2), snap (along p.2 1 3) with
    | some x, some y => (x, y)
    | _, _ => p

/-- The four lanes of a quad, from lane 4 `i`. -/
def quadLanes (rec sample : List Byte) (r : BlendRes) (i : Nat) : List (Nat × FragLane) :=
  (upto 4).map (fun q =>
    let p := quadPoint (footprint rec sample) (r.x, r.y) q
    (4 * i + q, { result := r.id, sample := r.sample, tag := BitVec.ofNat 32 (descField sample 8 4), x := p.1, y := p.2,
                  helper := q != 0 }))

/-- The bytes of the samples of a group's quads. -/
def readQuads (s : State) (x : SetSt) (rec : List Byte) : List (Nat × Nat) → Except Halt (List (Nat × List Byte))
  | [] => .ok []
  | q :: qs =>
    match gfxRead s x.ctx x.die (recSamples rec + 64 * q.2) 64, readQuads s x rec qs with
    | .error h, _ => .error h
    | _, .error h => .error h
    | .ok b, .ok bs => .ok ((q.1, b) :: bs)

/-- The lanes of a fragment group. -/
def groupLanes (fl : Flush) (rec : List Byte) (samples : List (Nat × List Byte)) : List (Nat × FragLane) :=
  (samples.mapIdx (fun i q => match fl.results.find? (fun r => r.id == q.1) with
    | some r => quadLanes rec q.2 r i
    | none => [])).flatMap id

/-- Start the next fragment group of a set whose leaf's cluster holds the core, when the core has room for it.
DEDUCED, log entry 96. -/
def launchFragment (s : State) (key k base : Nat) : State :=
  match Maps.find? key s.sets with
  | none => s
  | some x =>
    match x.flush with
    | none => s
    | some fl =>
      match fl.launches.findIdx? (fun w => w.cluster == clusterOf k) with
      | none => s
      | some i =>
        if 4 ≤ base ∨ x.parked.isSome ∨ !teamFits s k x.hdr base then s
        else match gfxRecord s x.die x with
          | .error h => haltSet s x.die key x h
          | .ok rec =>
            let w := fl.launches.getD i {}
            match readQuads s x rec.2 w.quads with
            | .error h => haltSet s x.die key x h
            | .ok samples =>
              let lanes := groupLanes fl rec.2 samples
              let info : FragInfo := { set := key, nch := recNch rec.2, tri := w.tri, lanes := lanes }
              let st : Start := { mask := maskOf (lanes.map Prod.fst), prio := 1, teamIndex := recPass rec.2, gridx := w.cell,
                                  pairs := [(0, x.handle), (2, recFargs rec.2)], shade := some info }
              let tm : Team := { ctx := x.ctx, index := recPass rec.2, hdr := x.hdr, det := x.hdr.det, cls := x.cls }
              let s1 := setSet s key { x with rep := 0, flush := some { fl with launches := fl.launches.eraseIdx i } }
              (startTeam s1 k base tm st).2

/-! ### Inputs and results -/

/-- A fragment group's data. -/
def shadeOf (g : Group) : FragInfo := g.shade.getD {}

/-- What a lane knows. -/
def fragLane (g : Group) (l : Nat) : FragLane := Maps.get {} l (shadeOf g).lanes

/-- Change what a lane knows. -/
def modFragLane (l : Nat) (f : FragLane → FragLane) (g : Group) : Group :=
  { g with shade := g.shade.map (fun i => { i with lanes := Maps.modify l f i.lanes }) }

/-- A helper or demoted lane. -/
def helps (x : FragLane) : Bool := x.helper || x.demoted

/-- The value of `fin` in a lane (R377). -/
def fragInput (g : Group) (sel i l : Nat) : Nat :=
  let t := (shadeOf g).tri
  let x := fragLane g l
  let p := (x.x, x.y)
  let attr (v : Nat) : Nat := ((t.attrs.getD v []).getD i 0).toNat
  if sel = 0 then unsnap x.x + 2 ^ 32 * unsnap x.y
  else if sel = 1 then (barycentric t p).1 + 2 ^ 32 * (barycentric t p).2
  else if sel = 2 then triDepth t p
  else if sel = 3 then interpolate t p attr
  else if sel = 4 then attr 0
  else if sel = 5 then x.sample + 2 ^ 32 * x.tag.toNat
  else if sel = 6 then t.batch + 2 ^ 32 * t.seq
  else b2n (helps x) + 2 * (l % 4)

/-- A selector whose result is a pair. -/
def finPair (sel : Nat) : Bool := sel == 0 || sel == 1 || sel == 5 || sel == 6

/-- Record something in each sample lane that acts and is not demoted (R378). DEDUCED, log entry 81. -/
def recordLanes (c : Ctx) (f : Nat → FragLane → FragLane) : State :=
  (lanesOf c.pass).foldl (fun s l => modGroup s c.key (modFragLane l (fun x => if helps x then x else f l x))) c.s

/-- The results of sample lanes that end: what they recorded, or nothing when demoted (R379). -/
def takeResults (g : Group) (lanes : Nat) (s : State) : State :=
  match g.shade with
  | none => s
  | some info =>
    match Maps.find? info.set s.sets with
    | none => s
    | some x =>
      match x.flush with
      | none => s
      | some fl =>
        let ends (r : BlendRes) : Option FragLane :=
          (info.lanes.find? (fun e => lanes.testBit e.1 && !e.2.helper && e.2.result == r.id)).map Prod.snd
        let take (r : BlendRes) : BlendRes := match ends r with
          | some l => { r with ready := true, discarded := l.demoted, channels := l.channels,
                               z := match l.depth with | some d => d.toNat | none => r.z }
          | none => r
        setSet s info.set { x with flush := some { fl with results := fl.results.map take } }

end Ops

/-- FRAGMENT_LAUNCH. -/
def execFragmentLaunch (set core base : Nat) (s : State) : Host.Outcome State Fault Refusal :=
  .next (Ops.launchFragment s set core base)

/-- `fin`. -/
def execFin (hd : Hdr) (o : OpG) (s : State) : Host.Outcome State Fault Refusal :=
  let n := if finPair o.sub.toNat then 2 else 1
  Ops.run (.fin hd o) hd mSys [(dstW (32 * n) o.d).inVec] [] (fun c =>
    doneN c o.d n (fragInput c.g o.sub.toNat o.imm16.toNat)) s

/-- `fout`. DEDUCED, log entry 98. -/
def execFout (hd : Hdr) (o : OpG) (s : State) : Host.Outcome State Fault Refusal :=
  let ch := o.sub.toNat
  Ops.run (.fout hd o) hd mSys [(src o.a).inVec] [] (fun c =>
    if acts c && decide ((shadeOf c.g).nch ≤ ch) then illegal c c.s
    else .done (recordLanes c (fun l x => { x with channels := Maps.insert ch (BitVec.ofNat 32 (rd c o.a l)) x.channels })) [] []) s

/-- `fdep`. -/
def execFdep (hd : Hdr) (o : OpG) (s : State) : Host.Outcome State Fault Refusal :=
  Ops.run (.fdep hd o) hd mSys [(src o.a).inVec] [] (fun c =>
    .done (recordLanes c (fun l x => { x with depth := some (BitVec.ofNat 32 (rd c o.a l)) })) [] []) s

/-- `disc`. -/
def execDisc (hd : Hdr) (o : OpG) (s : State) : Host.Outcome State Fault Refusal :=
  Ops.run (.disc hd o) hd mSys [] [] (fun c =>
    .done ((lanesOf c.pass).foldl (fun s l => modGroup s c.key (modFragLane l (fun x => { x with demoted := true }))) c.s) [] []) s

end Sys2Proof.Machine
end

