-- ==== Sys2Proof/Machine/Exit.lean ====
section
/-! DEFINITION. `exit` (01 R32, 08 R172, 18 R379, 21 R404) and the end of a group (08 R157, 11 R223). -/

namespace Sys2Proof.Machine

open Sys2Proof.Bits
open Ops

namespace Ops

/-- The lanes of a mask leave the group: LIVE is cleared, the fragment and every join entry lose them, and an open region
closes. -/
def leaveLanes (frag out : Nat) (g : Group) : Group :=
  let keep (m : Nat) : Nat := maskOf ((lanesOf m).filter (fun l => !out.testBit l))
  { g with
    lstat := (lanesOf out).foldl (fun m l => Maps.set 0 l (Maps.get 0 l m &&& BitVec.ofNat 32 0xFFFF7FFF) m) g.lstat
    frags := (g.frags.map (fun e => if e.1 = frag then (e.1, { e.2 with mask := keep e.2.mask }) else e)).filter (fun e => e.2.mask != 0)
    joins := g.joins.map (fun e => (e.1, { e.2 with expected := keep e.2.expected }))
    region := none }

/-- A group ends: its registers and slot are free, and its team ends when nothing else of it is left.
DEDUCED, log entry 99. -/
def endGroup (s : State) (key team : Nat) : State := settleTeam { s with groups := Maps.erase key s.groups } team

/-- The last group of a team ends with reductions still to drain (11 R223). DEDUCED, log entry 64. -/
def lastWithDets (c : Ctx) : Bool := !c.tm.dets.isEmpty && (groupsOf c.s c.g.team).length == 1

/-- `exit` in the lanes whose guard holds. DEDUCED, log entries 64, 99. -/
def exitLanes (c : Ctx) : Res :=
  if !acts c then noEffect c
  else
    let left := leaveLanes c.frag c.pass c.g
    let s1 := takeResults c.g c.pass c.s
    if liveMask left ≠ 0 then .done (modGroup s1 c.key (leaveLanes c.frag c.pass)) [] []
    else if lastWithDets c then
      if detsBlocked c.s c.tm || (storeGate c.s c.key).isSome then .wait c.s
      else .moved (endGroup (drainDets s1 c.g.team (some c.key)) c.key c.g.team)
    else .moved (endGroup s1 c.key c.g.team)

end Ops

/-- `exit`. -/
def execExit (h : Hdr) (o : OpS) (s : State) : Host.Outcome State Fault Refusal :=
  Ops.run (.exit h o) h mSys [] [] exitLanes s

end Sys2Proof.Machine
end

