-- ==== Sys2Proof/Machine/Watch.lean ====
section
/-! DEFINITION. The hub's queue watcher (13 R267 to R269, 26 R440) and the checks and acceptance of launch packets (08 R160 to
R163, R173): QUEUE_SLOT_DISPATCH. -/

namespace Sys2Proof.Machine

open Sys2Proof.Bits
open Ops

namespace Ops

/-! ### Accesses of the hub -/

/-- An access of the hub in a context: its physical address and leaf, or why it halts. ZERO and POISON act as PARK (26
R440). The hub acts through die 0. DEDUCED, log entry 100. -/
def hubPlace (s : State) (ctx va : Nat) (write : Bool) : Except Halt (Nat × Nat) :=
  let acc := if write then 2 else 1
  match translateEngine s ctx 0 va (b2n !write) (b2n write) false with
  | .ok pa leaf _ _ =>
    if windowOf pa = .control then .error (.park va 0x11 acc)
    else if (homeDie s 0 pa).isNone then .error (.kill 0x1F)
    else if write && leaf.testBit 61 then .error (.park va 0x12 acc)
    else if (write && migrating s pa) || stampedMoves s pa then .error .wait
    else .ok (pa, leaf)
  | .absent fpol _ => if fpol = 3 then .error (.kill 0x06) else .error (.park va 0x10 acc)
  | .denied => .error (.park va 0x12 acc)
  | .broken => .error (.kill 0x1F)
  | .undecided => .error .wait
  | _ => .error (.park va 0x11 acc)

/-- Read bytes that lie in one line. -/
def hubRead (s : State) (ctx va n : Nat) : Except Halt (List Byte) :=
  match hubPlace s ctx va false with
  | .error h => .error h
  | .ok p => .ok (seenBytes s p.1 n)

/-- Read pieces in order. -/
def hubPieces (s : State) (ctx : Nat) : List (Nat × Nat) → Except Halt (List Byte)
  | [] => .ok []
  | p :: ps =>
    match hubRead s ctx p.1 p.2 with
    | .error h => .error h
    | .ok bs => (hubPieces s ctx ps).map (fun rest => bs ++ rest)

/-- Read a range, line by line. -/
def hubSpan (s : State) (ctx va n : Nat) : Except Halt (List Byte) := hubPieces s ctx (cutAt 128 va n)

/-- When a hub write to a span has reached every holder at system scope (11 R217). -/
def hubCt (s : State) (pa n : Nat) : Nat := ctSpan s 0 ((homeDie s 0 pa).getD 0) pa n 6

/-! ### The checks of a launch (R162, R173) -/

/-- Cores that a dies field allows. -/
def allowedCores (dies : Nat) : List Nat := (upto 512).filter (fun k => dies.testBit (k / 64))

/-- Some die that the packet names is available. -/
def someDie (s : State) (dies : Nat) : Bool := (upto 8).any (fun d => dies.testBit d && (die s d).available)

/-- The scratch-mode capacity of every cluster that a packet allows, whether its die is available or not, is too small for the
scratch of a team (R164). -/
def scratchOver (s : State) (h : Header) (dies : Nat) : Bool :=
  dies % 256 != 0 && (upto 64).all (fun c => !dies.testBit (c / 8) || decide (64 * (scratchBanks s c).length < scratchUnits h))

/-- Some allowed core could hold a team, or some cluster a co-resident set, when empty. -/
def launchFits (s : State) (h : Header) (dies cor : Nat) : Bool :=
  if cor < 2 then (allowedCores dies).any (fun k => emptyFits s k h 1)
  else (upto 64).any (fun c => dies.testBit (c / 8) &&
    decide (cor ≤ ((upto 8).filter (fun i => emptyFits s (8 * c + i) h cor)).length))

/-- Teams of a launch. -/
def teamCount (l : Launch) : Nat := l.gx * l.gy * l.gz

/-- The first 64 bytes of the Calendar of a launch. -/
def calendarHead (l : Launch) : List Byte :=
  toBytes 4 0x4C414344 ++ toBytes 2 1 ++ toBytes 1 l.cor ++ toBytes 1 0 ++ toBytes 8 l.header ++ toBytes 4 l.gx ++
    toBytes 2 l.gy ++ toBytes 2 l.gz ++ toBytes 8 (teamCount l) ++ List.replicate 32 0

/-- The fields of a Calendar's first 64 bytes agree with the launch; its reserved bytes are not looked at. -/
def headMatches (l : Launch) (bs : List Byte) : Bool :=
  let f := descField bs
  let g := descField (calendarHead l)
  f 0 4 == g 0 4 && f 4 2 == g 4 2 && f 6 1 == g 6 1 && f 8 8 == g 8 8 && f 0x10 4 == g 0x10 4 && f 0x14 2 == g 0x14 2 &&
    f 0x16 2 == g 0x16 2 && f 0x18 8 == g 0x18 8

/-- The entries of a Calendar, (core, team). -/
def calendarEntries : Nat → List Byte → List (Nat × Nat)
  | 0, _ => []
  | n + 1, bs => (field (ofBytes (bs.take 8)) 32 9, field (ofBytes (bs.take 8)) 0 32) :: calendarEntries n (bs.drop 8)

/-- Entry i breaks a check: its team is unknown or was listed before, or it does not continue the co-resident set of its
block on another core of the same cluster. -/
def entryBad (l : Launch) (es : List (Nat × Nat)) (i : Nat) : Bool :=
  let e := es.getD i (0, 0)
  let block := (es.take i).drop (i / max 1 l.cor * max 1 l.cor)
  decide (teamCount l ≤ e.2) || (es.take i).any (fun x => x.2 == e.2) ||
    (decide (2 ≤ l.cor) && block.any (fun x =>
      x.2 / l.cor != e.2 / l.cor || x.1 == e.1 || clusterOf x.1 != clusterOf e.1))

/-- What a replayed Calendar fails. -/
def calendarFaults (s : State) (l : Launch) (bs : List Byte) (es : List (Nat × Nat)) : List (Nat × Nat) :=
  if !headMatches l bs then [(0x26, 0xFFFFFFFF)]
  else
    ((upto es.length).filter (entryBad l es)).map (fun i => (0x26, i)) ++
      ((upto es.length).filter (fun i =>
        let k := (es.getD i (0, 0)).1
        !coreUp s k || !l.dies.testBit (k / 64))).map (fun i => (0x2A, i))

/-- The failing checks of a packet itself. No core ever holds a team of 15 or 16 tiles, and none of the allowed clusters one of
more scratch than its scratch-mode banks have, whatever dies are available (R164); otherwise the header is held against the cores
of the available dies. DEDUCED, log entry 107. -/
def packetFaults (s : State) (l : Launch) (bs : List Byte) : List (Nat × Nat) :=
  let when_ (c : Bool) (code : Nat) : List (Nat × Nat) := if c then [(code, 0)] else []
  when_ (descField bs 0 4 != 1) 0x20 ++
    when_ (field (descField bs 4 2) 5 11 != 0 || descField bs 0x30 16 != 0) 0x21 ++
    when_ (teamCount l == 0 || decide (0xFFFFFFFF < teamCount l)) 0x22 ++
    when_ (decide (8 < l.cor) || (decide (2 ≤ l.cor) && teamCount l % l.cor != 0)) 0x23 ++
    when_ (decide (14 < l.hdr.acc) || scratchOver s l.hdr l.dies || (someDie s l.dies && !launchFits s l.hdr l.dies l.cor)) 0x24 ++
    when_ ((l.det && (l.calendar == 0 || l.calendar % 64 != 0)) || (l.replay && !l.det)) 0x25 ++
    when_ l.hdr.fragFlag 0x27 ++ when_ (!someDie s l.dies) 0x28

/-- The Calendar is read: a replay in deterministic mode with a usable Calendar address and team count; with a count of 0 or
above 0xFFFFFFFF the model reads none, so such a launch reports 0x22 or a lower code. DEDUCED, log entry 102. -/
def readsCalendar (l : Launch) : Bool :=
  l.replay && l.det && l.calendar != 0 && l.calendar % 64 == 0 && teamCount l != 0 && decide (teamCount l ≤ 0xFFFFFFFF)

/-- The launch that a packet asks for. -/
def packetLaunch (bs : List Byte) (q : Nat) (x : Queue) : Launch :=
  let flags := descField bs 4 2
  { queue := q, ctx := x.ctx, prio := field flags 3 2, waitPrev := flags.testBit 2, replay := flags.testBit 1,
    det := flags.testBit 0, cor := descField bs 6 1, dies := descField bs 7 1, header := descField bs 8 8,
    args := descField bs 0x10 8, gx := descField bs 0x18 4, gy := descField bs 0x1C 2, gz := descField bs 0x1E 2,
    calendar := descField bs 0x20 8, compl := descField bs 0x28 8, cls := x.cls, prev := x.last }

/-- What the checks of a launch come to. -/
inductive Checked where
  | accepted (l : Launch)
  | failed (l : Launch)
  | halted (h : Halt)
  deriving DecidableEq, Repr

/-- A launch with a status. -/
def withStatus (l : Launch) (e : Nat × Nat) : Checked := .failed { l with status := e.1, detail := e.2 }

/-- A fault on the header or the Calendar is code 0x29 alone; one of memory terminates the context.
DEDUCED, log entry 102. -/
def unreadable (l : Launch) : Halt → Checked
  | .park _ _ _ => withStatus l (0x29, 0)
  | .kill 0x06 => withStatus l (0x29, 0)
  | h => .halted h

/-- Check a launch: its header, its packet and, under replay, its Calendar; the lowest failing code is reported.
DEDUCED, log entries 100, 102, 119. -/
def checkLaunch (s : State) (bs : List Byte) (l0 : Launch) : Checked :=
  match hubRead s l0.ctx l0.header (if l0.header % 64 = 0 then 64 else 1) with
  | .error h => unreadable l0 h
  | .ok hb =>
    if l0.header % 64 ≠ 0 then withStatus l0 (0x01, 0)
    else
      let hd := parseHeader hb
      let l : Launch := { l0 with hdr := hd, det := l0.det || hd.det }
      let faults := headerFaults l.header hb ++ packetFaults s l bs
      let decided (es : List (Nat × Nat)) (more : List (Nat × Nat)) : Checked :=
        match lowestFault (faults ++ more) with
        | some e => withStatus l e
        | none => .accepted { l with entries := es }
      if !readsCalendar l then decided [] []
      else match hubSpan s l.ctx l.calendar 64, hubSpan s l.ctx (l.calendar + 64) (8 * teamCount l) with
        | .error h, _ => unreadable l h
        | _, .error h => unreadable l h
        | .ok head, .ok body =>
          let es := calendarEntries (teamCount l) body
          decided es (calendarFaults s l head es)

/-! ### The watcher -/

/-- A queue's access halts: its record, a wait, or the end of its context. -/
def haltQueue (s : State) (q : Nat) (x : Queue) : Halt → State
  | .wait => s
  | .kill code => terminate s x.ctx code
  | .park addr cause access =>
    let rep := if x.repAddr = addr then x.rep else 0
    if 16 ≤ rep then terminate s x.ctx 0x07
    else
      let r := raise s { ctx := x.ctx, code := 0x06, cause := cause, source := 5, access := access, rep := rep,
                         addr := addr, agent := .queue q }
      setQueue r.2 q { x with parked := some r.1 }

/-- The packet has been dispatched, with a store of the watcher that completes at `ct`; its slot is consumed next. -/
def dispatched (s : State) (q ct : Nat) : State :=
  { s with queues := Maps.modify q (fun x => { x with dispatched := true, ct := max x.ct ct, rep := 0 }) s.queues }

/-- The slot at index `i` is consumed: 0 is stored to its kind, released at system scope. -/
def consumeSlot (s : State) (q : Nat) (x : Queue) (i : Nat) : State :=
  if !passed s 0 x.ct then s
  else match hubPlace s x.ctx (x.ring + 64 * (i % 2 ^ x.lslots)) true with
    | .error h => haltQueue s q x h
    | .ok p =>
      setQueue (hubWrite s p.1 (toBytes 4 0)) q { x with
        reading := none, dispatched := false, slotCt := some (max x.ct (hubCt s p.1 4)), rep := 0 }

/-- The first failing check of a copy packet (R269): its code. A cluster is unavailable exactly when its die is. DESIGN CHOICE, log entry
179. -/
def copyFault (s : State) (cl ctx : Nat) (bs : List Byte) (x : Copy) : Option Nat :=
  if descField bs 0 4 ≠ 2 then some 0x40
  else if !packetReserved bs || field (descField bs 5 1) 6 2 != 0 || field x.ctl 8 2 != 0 then some 0x41
  else if !Checks.copyPair x.dfmt x.sfmt then some 0x42
  else if ctlRp x ≠ 31 ∨ ctlDspace x ≠ 0 ∨ ctlSspace x ≠ 0 ∨ !copyFieldsOk 0 x then some 0x43
  else if (copyNoncanon x).isSome || !copyShapeOk s cl x then some 0x44
  else if !handleWaits s cl ctx x && handleBad s cl ctx x then some 0x45
  else if !(die s (cl / 8)).available then some 0x46
  else none

/-- The context has ended. -/
def contextGone (s : State) (ctx : Nat) : Bool := match Maps.find? ctx s.contexts with | some c => c.dead.isSome | none => true

/-- Dispatch a copy packet. DEDUCED, log entry 107. -/
def dispatchCopy (s : State) (q : Nat) (x : Queue) (bs : List Byte) : State :=
  let cl := field (descField bs 5 1) 0 6
  let y : Copy := { packetCopy bs with ctx := x.ctx, queue := some q }
  match copyFault s cl x.ctx bs y with
  | some code =>
    let via := if (die s (cl / 8)).available then cl else 0
    if y.signal = 0 then dispatched s q 0
    else match signalPlace s via x.ctx y.signal with
      | .error .wait => s
      | .error (.kill 0x1F) => haltQueue s q x (.kill 0x1F)
      | _ =>
        let r := writeSignal s via x.ctx y.signal (2 ^ 63 + code) (some q)
        dispatched r.2 q r.1
  | none =>
    let s1 := refill cl 64 s
    let k := cluster s1 cl
    if contextGone s1 x.ctx || handleWaits s1 cl x.ctx y || decide (64 ≤ queuedOf k) || !k.spilled.isEmpty then s1
    else
      let s2 := commitCopy s1 cl y
      let z : Copy := { y with id := s2.uid }
      dispatched (acceptCopy { s2 with uid := s2.uid + 1 } cl z) q 0

/-- Dispatch a launch packet: it runs no team when its completion record is unusable or a check fails (R161, R162). -/
def dispatchLaunch (s : State) (q : Nat) (x : Queue) (bs : List Byte) : State :=
  let l := packetLaunch bs q x
  let id := s.uid
  let enter (l : Launch) (s : State) : State := dispatched (setQueue (setLaunch { s with uid := id + 1 } id l) q { x with last := some id }) q 0
  let fail (l : Launch) : State :=
    dispatched (completeLaunch (setQueue { s with uid := id + 1 } q { x with last := some id }) id l) q
      (((complTarget s l).map (fun pa => hubCt s pa 32)).getD 0)
  if l.compl ≠ 0 ∧ l.compl % 32 = 0 ∧ complWaits s l then s
  else if complBroken s l then haltQueue s q x (.kill 0x1F)
  else if (complTarget s l).isNone then fail l
  else match checkLaunch s bs l with
    | .accepted l => enter l s
    | .failed l => fail l
    | .halted h => haltQueue s q x h

/-- Dispatch the packet that the watcher has read. DEDUCED, log entry 109. -/
def dispatchSlot (s : State) (q : Nat) (x : Queue) (bs : List Byte) : State :=
  if x.launches then dispatchLaunch s q x bs else dispatchCopy s q x bs

/-- Read the slot at index `i` when it is ready. DEDUCED, log entry 109. -/
def takeSlot (s : State) (q : Nat) (x : Queue) (i : Nat) : State :=
  match hubRead s x.ctx x.widx 8 with
  | .error h => haltQueue s q x h
  | .ok w =>
    if ofBytes w ≤ i then s
    else match hubRead s x.ctx (x.ring + 64 * (i % 2 ^ x.lslots)) 64 with
      | .error h => haltQueue s q x h
      | .ok bs =>
        if descField bs 0 4 = 0 then s
        else
          let y : Queue := { x with reading := some bs }
          dispatchSlot (setQueue s q y) q y bs

/-- The read index is stored once the store of 0 to kind has reached every holder. -/
def freeSlot (s : State) (q : Nat) (x : Queue) (i ct : Nat) : State :=
  if !passed s 0 ct then s
  else match hubPlace s x.ctx x.ridx true with
    | .error h => haltQueue s q x h
    | .ok p =>
      let s1 := hubWrite s p.1 (toBytes 8 (i + 1))
      if x.leaving then removeQueue s1 q else setQueue s1 q { x with slotCt := none, ct := max x.ct (hubCt s p.1 8), rep := 0 }

/-- One move of the watcher of a queue. -/
def watchQueue (s : State) (q : Nat) : State :=
  match Maps.find? q s.queues with
  | none => s
  | some x =>
    if x.leaving && x.reading.isNone && x.slotCt.isNone then removeQueue s q
    else if x.parked.isSome || contextGone s x.ctx then s
    else match hubRead s x.ctx x.ridx 8 with
      | .error h => haltQueue s q x h
      | .ok r =>
        let i := ofBytes r
        match x.slotCt, x.reading with
        | some ct, _ => freeSlot s q x i ct
        | none, some bs => if x.dispatched then consumeSlot s q x i else dispatchSlot s q x bs
        | none, none => takeSlot s q x i

end Ops

/-- QUEUE_SLOT_DISPATCH (R268, R269). -/
def execQueueSlotDispatch (queue : Nat) (s : State) : Host.Outcome State Fault Refusal := .next (watchQueue s queue)

end Sys2Proof.Machine
end

