-- ==== Sys2Proof/Machine/Launches.lean ====
section
/-! DEFINITION. Launches that run: the start of teams and co-resident sets (08 R161, R164 to R167, R173), the completion record
(R163), and issue priorities (R168). -/

namespace Sys2Proof.Machine

open Sys2Proof.Bits
open Ops

namespace Ops

/-! ### The start of teams -/

/-- The context of a launch may start teams: it is alive and not being switched out. DEDUCED, log entry 103. -/
def ctxStarts (s : State) (ctx : Nat) : Bool :=
  (match Maps.find? ctx s.contexts with | some c => c.dead.isNone | none => false) && s.preempts.head? != some ctx

/-- The previous launch of the queue lets this one start (R161). DEDUCED, log entry 103. -/
def prevLets (s : State) (l : Launch) : Bool :=
  match l.prev with
  | none => true
  | some p => match Maps.find? p s.launches with
    | none => true
    | some x => x.done || (!l.waitPrev && decide (0 < x.started))

/-- Members of a co-resident set, 1 for none. -/
def setSize (l : Launch) : Nat := if 2 ≤ l.cor then l.cor else 1

/-- The launch records its Calendar. -/
def recordsCal (l : Launch) : Bool := l.det && !l.replay

/-- One team to start: its index, its core, and the quarter of its group 0. -/
structure Member where
  team : Nat := 0
  core : Nat := 0
  base : Nat := 0
  deriving DecidableEq, Repr, Inhabited

/-- Entry i of a replayed Calendar may start: the entries before it on its core have started (R173).
DESIGN CHOICE, log entry 104. -/
def entryReady (l : Launch) (i : Nat) : Bool :=
  let k := (l.entries.getD i (0, 0)).1
  (upto i).all (fun j => (l.entries.getD j (0, 0)).1 != k || l.entriesDone.contains j || j / setSize l == i / setSize l)

/-- The recorded members of the set that entry i belongs to, if all may start, with the base quarter of the row.
DESIGN CHOICE, log entry 104. -/
def replayMembers (l : Launch) (i base : Nat) : Option (List Member) :=
  let first := i / setSize l * setSize l
  let is := (upto (setSize l)).map (fun j => first + j)
  if is.all (fun j => decide (j < l.entries.length) && entryReady l j && !l.entriesDone.contains j) then
    some (is.map (fun j => { team := (l.entries.getD j (0, 0)).2, core := (l.entries.getD j (0, 0)).1, base := base }))
  else none

/-- Other cores of a cluster for the other members of a set; which ones is left open. Every member has the base quarter of the
row, which 08 R164 lets the dispatcher choose. DESIGN CHOICE, log entries 75, 104. -/
def freeMembers (s : State) (l : Launch) (first core base : Nat) : Option (List Member × State) :=
  let others := ((upto 8).map (fun i => clusterOf core * 8 + i)).filter (fun k => k != core && coreFits s k l.hdr base)
  if others.length + 1 < setSize l then none
  else
    let r := pickMany (setSize l - 1) others s
    some (((core :: r.1).mapIdx (fun i k => { team := first + i, core := k, base := base })), r.2)

/-- The dispatcher may take team `t`, not started yet, to a core that the launch allows (R164, R166). -/
def mayTake (s : State) (l : Launch) (t core : Nat) : Bool :=
  decide (t < l.gx * l.gy * l.gz) && !l.entriesDone.contains (t / setSize l * setSize l) && l.dies.testBit (core / 64) && coreUp s core

/-- Choose the teams that start with team `t`, or with entry `t` of a replayed Calendar. -/
def members (s : State) (l : Launch) (t core base : Nat) : Option (List Member × State) :=
  if l.replay then (replayMembers l t base).map (fun ms => (ms, s))
  else
    let first := t / setSize l * setSize l
    if !mayTake s l t core then none
    else if setSize l = 1 then some ([{ team := t, core := core, base := base }], s)
    else freeMembers s l first core base

/-- There is room for all of them at once. -/
def membersFit (s : State) (l : Launch) (ms : List Member) : Bool :=
  ms.all (fun m => coreFits s m.core l.hdr m.base) && (match ms with
    | [] => false
    | m :: _ => decide (ms.length * scratchUnits l.hdr ≤ (freeUnits s (clusterOf m.core)).length))

/-- The set of a team has a place where it can start now. -/
def roomAt (s : State) (l : Launch) (t core base : Nat) : Bool :=
  match members s l t core base with
  | none => false
  | some (ms, s1) => membersFit s1 l ms

/-- The teams before `t` have started, or each waits for room where the dispatcher has taken it to (R166); the order of a
replay is that of its Calendar. DESIGN CHOICE, log entry 146. -/
def inOrder (s : State) (l : Launch) (t : Nat) : Bool :=
  l.replay || (upto (t / setSize l)).all (fun c =>
    let first := c * setSize l
    l.entriesDone.contains first || (match l.taken.find? (fun e => e.1 == first) with
      | some e => !roomAt s l first e.2.1 e.2.2
      | none => false))

/-- The dispatcher takes a team, or its set, to a place where it waits for room. -/
def takeTo (s : State) (id : Nat) (l : Launch) (t core base : Nat) : State :=
  let first := t / setSize l * setSize l
  if l.replay || !mayTake s l t core then s
  else setLaunch s id { l with taken := (first, core, base) :: l.taken.filter (fun e => e.1 != first) }

/-- The places of the Calendar entries of a recording. -/
def entryPlaces (s : State) (l : Launch) : Nat → Except Halt (List Nat)
  | 0 => .ok []
  | n + 1 =>
    match entryPlaces s l n, hubPlace s l.ctx ((l.calendar + 0x40 + 8 * (l.started + n)) % 2 ^ 64) true with
    | .error h, _ => .error h
    | _, .error h => .error h
    | .ok ps, .ok p => .ok (ps ++ [p.1])

/-- Recording fails: no further team starts, and status is 0x29; memory that fails ends the context.
DEDUCED, log entry 105. -/
def recordingFails (s : State) (id : Nat) (l : Launch) : Halt → State
  | .wait => s
  | .kill 0x1F => terminate s l.ctx 0x1F
  | _ => setLaunch s id { l with status := 0x29 }

/-- Write a Calendar entry; its completion time counts toward the launch. -/
def writeEntry (id : Nat) (s : State) (e : Nat × Member) : State :=
  let s1 := hubWrite s e.1 (toBytes 8 (e.2.team + 2 ^ 32 * e.2.core))
  modLaunch s1 id (fun l => { l with ct := max l.ct (hubCt s1 e.1 8) })

/-- Start one team of a launch. DESIGN CHOICE, log entry 104. -/
def startMember (id set : Nat) (l : Launch) (s : State) (m : Member) : State :=
  let t := m.team
  let tm : Team := { launch := id, ctx := l.ctx, index := t, hdr := l.hdr, det := l.det, cor := if 2 ≤ l.cor then l.cor else 0,
                     set := set, cls := l.cls }
  let st : Start := { prio := l.prio, teamIndex := t, gridx := t % l.gx, gridy := t / l.gx % l.gy, gridz := t / (l.gx * l.gy),
                      pairs := [(0, l.args)] }
  (startTeam s m.core m.base tm st).2

/-- Start teams of a launch: team `t` with its co-resident set, or under replay the set of entry `t`, when there is room;
otherwise the dispatcher has taken it to where it waits. -/
def launchTeams (s : State) (id t core base : Nat) : State :=
  match Maps.find? id s.launches with
  | none => s
  | some l =>
    if l.done || l.status != 0 || !ctxStarts s l.ctx || !prevLets s l || decide (4 ≤ base) || !inOrder s l t then s
    else match members s l t core base with
      | none => takeTo s id l t core base
      | some (ms, s1) =>
        if !membersFit s1 l ms then takeTo s id l t core base
        else match (if recordsCal l then entryPlaces s1 l ms.length else .ok []) with
          | .error h => recordingFails s id l h
          | .ok ps =>
            let first := t / setSize l * setSize l
            let l1 : Launch := { l with started := l.started + ms.length, next := l.next + ms.length,
                                        entriesDone := (upto ms.length).map (fun i => first + i) ++ l.entriesDone }
            let s2 := (ps.zip ms).foldl (writeEntry id) (setLaunch s1 id l1)
            ms.foldl (startMember id s2.uid l1) s2

/-! ### The completion record (R163) -/

/-- Every team that will start has started, and all have ended. -/
def teamsOver (l : Launch) : Bool :=
  l.ended == l.started && (l.status != 0 || l.started == teamCount l)

/-- The first 64 bytes of a recorded Calendar, after its last entry (R173). DEDUCED, log entry 105. -/
def sealCalendar (s : State) (id : Nat) (l : Launch) : State :=
  match hubPlace s l.ctx l.calendar true with
  | .error h => recordingFails s id { l with sealed := true } h
  | .ok p =>
    let s1 := hubWrite s p.1 (calendarHead l)
    setLaunch s1 id { l with sealed := true, ct := max l.ct (hubCt s1 p.1 64) }

/-- LAUNCH_COMPLETION_RECORD: first what is left of the Calendar, then the record; for a launch of a terminated context that record,
and after the context's last one TERMINATED (R410). DEDUCED, log entries 106, 122. -/
def finishLaunch (s : State) (id : Nat) : State :=
  match Maps.find? id s.launches with
  | none => s
  | some l =>
    if l.done then s
    else if l.status = 0x30 then lastRecord (failLaunch l.detail l.ctx s (id, l)) l.ctx l.detail
    else if !teamsOver l || s.stores.any (fun p => p.launch == id) then s
    else if recordsCal l && l.status == 0 && !l.sealed then sealCalendar s id l
    else if !launchPassed s l || complWaits s l then s
    else if complBroken s l then terminate s l.ctx 0x1F
    else completeLaunch s id l

/-! ### Issue priority (R168) -/

/-- A group that has been ready for 1,024 cycles without issuing is promoted until it next issues. -/
def promoteDue (g : Group) : Group := { g with promoted := g.promoted || decide (1024 ≤ g.passed) }

/-- ISSUE_PRIORITY_PROMOTION: the cycles of the group's quarter promote it as well (Machine/Issue.lean). -/
def promoteGroup (s : State) (key : Nat) : State :=
  match group? s key with
  | none => s
  | some g => setGroup s key (promoteDue g)

end Ops

/-- TEAM_START (R164). -/
def execTeamStart (launch team core base : Nat) (s : State) : Host.Outcome State Fault Refusal :=
  .next (launchTeams s launch team core base)

/-- LAUNCH_COMPLETION_RECORD (R163). -/
def execLaunchCompletionRecord (launch : Nat) (s : State) : Host.Outcome State Fault Refusal := .next (finishLaunch s launch)

/-- ISSUE_CYCLE (R168): the selection follows, since it asks which fragments can issue (Machine/Act.lean). -/
def execIssueCycle (core quarter : Nat) (s : State) : Host.Outcome State Fault Refusal :=
  .next { s with agenda := s.agenda ++ [.cycle core quarter] }

/-- ISSUE_PRIORITY_PROMOTION (R168). -/
def execIssuePriorityPromotion (group : Nat) (s : State) : Host.Outcome State Fault Refusal := .next (promoteGroup s group)

end Sys2Proof.Machine
end

