-- ==== Sys2Proof/Machine/Almanac.lean ====
section
/-! DEFINITION. The meanings of class 0xF and of the Almanac's events: time and horizon (24 R418 to R421), stamped commits
and their versions (R422 to R425, R431), as-of loads (R432), waits (R433), width faults (R426), silent dies (26 R445). -/

namespace Sys2Proof.Machine

open Sys2Proof.Bits
open Ops

namespace Ops

/-! ### Recording (R422) -/

/-- A lane arrives at its home (R422); recordings at a migrating page wait. -/
def recordLane (s : State) (id : Nat) : State :=
  match s.stcms.find? (fun l => l.id == id) with
  | none => s
  | some l =>
    if l.recorded || migrating s l.pa then s
    else
      let s1 : State := { s with stcms := s.stcms.map (fun y => if y.id = id then { y with recorded := true } else y) }
      formVersion s1 l

/-! ### Time -/

/-- The width of a die's interval. -/
def width? (s : State) (d : Nat) : Nat := (die s d).l - (die s d).e

/-- The floor of a die (R420). -/
def floorOf (s : State) (d : Nat) : Nat :=
  (s.stcms.filter (fun l => l.die == d && !l.recorded)).foldl (fun m l => min m l.stamp) (die s d).e

/-- The least of a list of numbers, none for the empty list. -/
def least : List Nat → Option Nat
  | [] => none
  | x :: xs => some (xs.foldl min x)

/-- The horizon that the floors form; it never decreases. -/
def formHorizon (s : State) : Nat :=
  max (ctl s 0x80) ((least (((upto 8).filter (fun d => (die s d).available)).map (floorOf s))).getD 0)

/-- Note the horizon that holds from now on, newest first, as far back as a copy may be old. -/
def noteHorizon (now h : Nat) (log : List (Nat × Nat)) : List (Nat × Nat) :=
  (now, h) :: (log.filter (fun e => decide (now < e.1 + 64)) ++ (log.find? (fun e => decide (e.1 + 64 ≤ now))).toList)

/-- The horizon 64 ticks before a time. -/
def horizonBefore (s : State) (time : Nat) : Nat := ((s.hlog.find? (fun e => decide (e.1 + 64 ≤ time))).map Prod.snd).getD 0

/-- The hub forms H and the copies are refreshed, each no greater than H and not below its old value: those of the dies,
then those of the 16 home slices of each die. -/
def updateHorizon (s : State) (copies : List Nat) : State :=
  let h := formHorizon s
  let cut (old i : Nat) : Nat := max old (min (copies.getD i 0) h)
  let s1 := { setCtl s 0x80 h with hlog := noteHorizon s.now h s.hlog }
  let s2 := (upto 8).foldl (fun s d =>
    let k := die s d
    setDie s d { k with h := cut k.h d, hs := (upto 16).foldl (fun m i => Maps.set 0 i (cut (Maps.get 0 i m) (8 + 16 * d + i)) m) k.hs }) s1
  formWaiting s2

/-- No copy of H on an available die would be older than 64 ticks at a time (R420). -/
def copiesFresh (s : State) (time : Nat) : Bool :=
  (upto 8).all (fun d => !(die s d).available || (decide (horizonBefore s time ≤ (die s d).h) &&
    (upto 16).all (fun i => decide (horizonBefore s time ≤ Maps.get 0 i (die s d).hs))))

/-- Width waits that are over; true time does not pass their end before the check (R426). -/
def widthDue (s : State) : List Act :=
  ((widthWaits s (fun _ => true)).filter (fun e => decide (e.1 ≤ s.now))).map Prod.snd

/-- The device is the system's time master, or takes its Almanac from a live port; otherwise its intervals only widen (26
R443, R418). -/
def synchronised (s : State) : Bool := (ctl s 0xD0).testBit 0 || (upto 12).any (fun p => !s.portsDown.contains p)

/-- A die's interval (of the hub's reference for number 8) and true time move on: E ≤ true time ≤ L holds on every available
die and on the reference, nothing decreases (R418), no copy of H grows too old (R420), and no width wait is passed over (R426).
DEDUCED, log entry 126. -/
def advanceOk (s : State) (time d e l : Nat) : Bool :=
  decide (d < 9) && decide (s.now ≤ time) && (synchronised s || decide (width? s d ≤ l - e)) && decide ((die s d).e ≤ e) &&
    decide ((die s d).l ≤ l) && decide (e ≤ time) && decide (time ≤ l) &&
    (upto 9).all (fun x => x == d || !(die s x).available || decide (time ≤ (die s x).l)) &&
    copiesFresh s time && (widthWaits s (fun _ => true)).all (fun w => decide (time ≤ w.1) || decide (w.1 ≤ s.now))

/-- The width check has failed for good: the trap, which no later narrowing undoes (R426, 25 R435). -/
def tooWide (c : Ctx) (st : Nat → Stage) (s : State) : Res := .trap (trapOf 0x11 c.active) (setStage c s (st s.now))

/-- The width check of a stamped instruction (R426): none when it has passed. `st` is the stage of its wait. -/
def widthWait (c : Ctx) (st : Nat → Stage) (s : State) : Option Res :=
  let d := dieOf c.tm.core
  let k := die s d
  let wide := decide (k.almlimit.toNat < width? s d)
  match widthEnd c.f.stage with
  | some t => if !wide then none else if t ≤ s.now then some (tooWide c st s) else some (.wait s)
  | none =>
    if !wide then none
    else if k.almtimeout = 0 then some (tooWide c st s)
    else some (.wait (setStage c s (st (s.now + 2 * k.almtimeout.toNat))))

/-! ### `stcm` (R431) -/

/-- Send the lanes to their homes with one stamp. -/
def sendLanes (c : Ctx) (o : OpM) (ps : List (Acc × Place)) (s : State) : State :=
  let d := dieOf c.tm.core
  let order := s.uid
  let lane (e : Acc × Place) : List StcmLane := match e.2 with
    | .mem pa _ => [{ group := c.key, lane := e.1.lane, die := d, order := order, pa := pa,
                      bytes := toBytes 8 (rdPair c o.data e.1.lane), stamp := (die s d).l }]
    | _ => []
  let ls := ps.flatMap lane
  { s with uid := s.uid + ls.length + 1
           stcms := s.stcms ++ ls.zipIdx.map (fun e => { e.1 with id := order + 1 + e.2 }) }

/-- A lane that is under way has lost its home (26 R443 to R445). -/
def laneLost (s : State) (l : StcmLane) : Bool := (homeDie s l.die l.pa).isNone

/-- The lanes of this instruction under way. -/
def ownLanes (c : Ctx) (s : State) : List StcmLane := s.stcms.filter (fun l => l.group == c.key && c.active.testBit l.lane)

/-- A lane has formed a version that is visible at its home. -/
def laneVisible (s : State) (l : StcmLane) : Bool :=
  l.formed && decide (l.stamp < homeH s ((homeDie s l.die l.pa).getD l.die) (l.pa / 128))

/-- The end of the commit wait: stamps are written, 0 in discarded lanes, and the stamp is the completion time for every
scope. DEDUCED, log entry 33. -/
def commitDone (c : Ctx) (o : OpM) (stamp discarded : Nat) (s : State) : Res :=
  let value (l : Nat) : Nat := if discarded.testBit l then 0 else stamp
  let w := if isUni o.data then wrN o.data 2 0 (if c.pass &&& discarded = c.pass then 0 else stamp)
    else (lanesOf c.pass).flatMap (fun l => wrN o.data 2 l (value l))
  let s1 : State := { s with stcms := s.stcms.filter (fun l => !(l.group == c.key && c.active.testBit l.lane)) }
  .done (returnCt s1 c.key s1.uid c.tm.launch (fun _ => stamp)) w (((lanesOf c.pass).filter (fun l => discarded.testBit l)).map (fun l => (l, lsFaulted)))

/-- What `stcm` needs. -/
def stcmNeeds : Needs := { spaces := [0], rd := 1, wr := 1, access := 3, ctrl := false }

/-- Lanes whose page is present and not stamped. -/
def unstamped (ps : List (Acc × Place)) : Nat :=
  maskOf ((ps.filter (fun e => match e.2 with | .mem _ leaf => !leaf.testBit 61 | _ => false)).map (fun e => e.1.lane))

/-- `stcm` past its width check: its lanes are sent with the stamp. -/
def stcmStamp (c : Ctx) (o : OpM) (ps : List (Acc × Place)) (s : State) : Res :=
  let discarded := maskOf ((ps.filter (fun e => match e.2 with | .mem _ _ => false | _ => true)).map (fun e => e.1.lane))
  let stamp := (die s (dieOf c.tm.core)).l
  if discarded = c.pass then commitDone c o stamp discarded s
  else .wait (setStage c (sendLanes c o ps s) (.commit stamp discarded))

/-- The places of the lanes of `stcm`, all stamped, then what follows. -/
def stcmPlaces (c : Ctx) (o : OpM) (next : List (Acc × Place) → State → Res) : Res :=
  match access c o stcmNeeds (laneAccs c o 8) with
  | .error r => r
  | .ok (ps, s) => if unstamped ps ≠ 0 then .trap (trapOf 0x03 (unstamped ps)) s else next ps s

/-- `stcm` with its places: the width check, which is made once; while it waits it compares the width and nothing else, and then it
proceeds with the places that it has (R426, 25 R435, 21 R394). DEDUCED, log entry 33. -/
def stcmWidth (c : Ctx) (o : OpM) (ps : List (Acc × Place)) (s : State) : Res :=
  match widthWait c (fun t => .sendWidth t ps) s with
  | some r => r
  | none => stcmStamp c o ps s

/-- `stcm` after its release: its checks, then the width check. -/
def stcmSend (c : Ctx) (o : OpM) : Res := stcmPlaces c o (stcmWidth c o)

/-! ### `ldasof` (R432) -/

/-- The latest version with a stamp at most T. -/
def asOf (vs : List Version) (t : Nat) : Option Version := (vs.filter (fun v => decide (v.stamp ≤ t))).getLast?

/-- The line's versions at the home of an address. -/
def asofVersions (s : State) : Place → List Version
  | .mem pa _ => versionsOf s (pa / 128)
  | _ => []

/-- The oldest kept version is younger than T. -/
def evicted (s : State) (t : Nat) (p : Place) : Bool :=
  match p with
  | .mem pa _ => (match (versionsOf s (pa / 128)).head? with | some v => decide (t < v.stamp) | none => false)
  | _ => false

/-- Recorded lanes of a word that wait to form their versions count for its value as of T as well (R422, R432). -/
def asofLanes (s : State) (t pa : Nat) : List StcmLane :=
  s.stcms.filter (fun l => l.recorded && !l.formed && l.pa / 8 == pa / 8 && decide (l.stamp ≤ t))

/-- The four registers of a lane: the value and its stamp. -/
def asofValue (s : State) (t : Nat) : Place → Nat
  | .mem pa leaf =>
    match asOf (asofVersions s (.mem pa leaf)) t with
    | some v =>
      let v := (asofLanes s t pa).foldl (fun v l => verLater (laneVersion l) l.bytes v) v
      ofBytes ((v.bytes.drop (pa % 128)).take 8) + 2 ^ 64 * v.stamps.getD (pa % 128 / 8) 0
    | none => 0
  | .poison => poisonRegs 4
  | _ => 0

/-- `ldasof` once the horizon has passed T. -/
def asofLoad (c : Ctx) (o : OpR) (t : Nat) (s : State) : Res :=
  let as : List Acc := (lanesOf c.pass).map (fun l => { lane := l, ea := rdPair c o.a l, n := 8 })
  match resolve c s 0 0 { spaces := [0], rd := 1, access := 1, ctrl := false } as with
  | .error r => r
  | .ok (ps, s) =>
    let old := maskOf ((ps.filter (fun e => evicted s t e.2)).map (fun e => e.1.lane))
    if unstamped ps ≠ 0 then .trap (trapOf 0x03 (unstamped ps)) s
    else if old ≠ 0 then .trap (trapOf 0x10 old) s
    else .done s (ps.flatMap (fun e => wrN o.d 4 e.1.lane (asofValue s t e.2)))
      ((ps.map (fun e => (e.1.lane, policyFlags e.2))).filter (fun e => e.2 != 0))

end Ops

/-- `alm` (R430). The group notes what it has read: a resume takes it to no die that is behind. -/
def execAlm (h : Hdr) (o : OpR) (s : State) : Host.Outcome State Fault Refusal :=
  run (.alm h o) h mSys [dstP o.d, dstP o.c] [] (fun c =>
    let k := die c.s (dieOf c.tm.core)
    let s1 := if acts c then modGroup c.s c.key (fun g => { g with almE := k.e, almL := k.l }) else c.s
    .done s1 (wrLanes c o.d 2 (fun _ => k.e) ++ wrLanes c o.c 2 (fun _ => k.l)) []) s

/-- `almhz` (R430). -/
def execAlmhz (h : Hdr) (o : OpR) (s : State) : Host.Outcome State Fault Refusal :=
  run (.almhz h o) h mSys [dstP o.d] [] (fun c =>
    let k := die c.s (dieOf c.tm.core)
    let s1 := if acts c then modGroup c.s c.key (fun g => { g with almH := k.h }) else c.s
    .done s1 (wrLanes c o.d 2 (fun _ => k.h)) []) s

/-- `stcm` (R431): its release, its checks and width wait, then the commit wait. It is issued once no access of the group that has
begun is open, so that none can trap while it lets nothing else issue (25 R434). DEDUCED, log entry 33. -/
def execStcm (h : Hdr) (o : OpM) (s : State) : Host.Outcome State Fault Refusal :=
  run (.stcm h o) h mStoreC ([dstP o.data] ++ addrOpnds o) [] (fun c =>
    match c.f.stage with
    | .commit stamp discarded =>
      if (ownLanes c c.s).any (laneLost c.s) then .kill 0x1F c.s
      else if (ownLanes c c.s).all (laneVisible c.s) then commitDone c o stamp discarded c.s
      else .wait c.s
    | .sending id => if released c.s id then stcmSend c o else .wait c.s
    | .sendWidth _ ps => if placesLost c ps then .kill 0x1F c.s else stcmWidth c o ps c.s
    | _ =>
      if !acts c then noEffect c
      else if accessOpen c.s c.key then .wait c.s
      else
        let r := beginRelease c.s c 6 0
        .wait (setStage c r.2 (.sending r.1))) s

/-- `ldasof` (R432). -/
def execLdasof (h : Hdr) (o : OpR) (s : State) : Host.Outcome State Fault Refusal :=
  run (.ldasof h o) h mMem [{ reg := o.d, count := 4, align := 4, file := .vec, dest := true }, srcP o.a, (srcP o.b).inUni] []
    (fun c =>
      let d := dieOf c.tm.core
      let t := rdPair c o.b 0
      if !acts c then noEffect c
      else if (die c.s d).l + 2 ^ 40 ≤ t then illegal c c.s
      else match c.f.stage with
        | .horizon => if (die c.s d).h ≤ t then .wait c.s else asofLoad c o t c.s
        | _ => match widthWait c .width c.s with
          | some r => r
          | none =>
            let s1 := setStage c c.s .horizon
            if (die c.s d).h ≤ t then .wait s1 else asofLoad c o t s1) s

/-- `almwait` (R433). -/
def execAlmwait (h : Hdr) (o : OpS) (s : State) : Host.Outcome State Fault Refusal :=
  run (.almwait h o) h mSys [(srcP o.a).inUni] [] (fun c =>
    if !acts c || passed c.s (dieOf c.tm.core) (rdPair c o.a 0) then noEffect c else .wait c.s) s

/-- STCM_RECORD (R422). -/
def execStcmRecord (lane : Nat) (s : State) : Host.Outcome State Fault Refusal := .next (recordLane s lane)

/-- HORIZON_UPDATE (R420): the copies of the dies, each cut to the horizon. -/
def execHorizonUpdate (copies : List Nat) (s : State) : Host.Outcome State Fault Refusal := .next (updateHorizon s copies)

/-- ALMANAC_ADVANCE (R418): a die's interval moves on, with true time; the die has reported its floor (R420).
DEDUCED, log entry 126. -/
def execAlmanacAdvance (time die e l : Nat) (s : State) : Host.Outcome State Fault Refusal :=
  .next (if advanceOk s time die e l then
      let s1 := setDie { s with now := time } die { Ops.die s die with e := e, l := l, floorTime := time }
      { s1 with agenda := widthWaiters s1 die ++ (widthDue s1 ++ s1.agenda) }
    else s)

/-- ALM_WIDE_TIMEOUT (R426): the width waits of a group that are over make the check once more. -/
def execAlmWideTimeout (group : Nat) (s : State) : Host.Outcome State Fault Refusal :=
  .next (match group? s group with
    | none => s
    | some g =>
      let due (e : Nat × Act) : Bool := decide (e.1 ≤ s.now)
      { s with agenda := s.agenda ++
          (((widthWaits { s with groups := [(group, g)] } (fun _ => true)).filter due).map Prod.snd) })

/-- DIE_SILENT_TIMEOUT (26 R445): 2^20 hub cycles of four ticks without a floor. DEDUCED, log entry 34. -/
def execDieSilentTimeout (die : Nat) (s : State) : Host.Outcome State Fault Refusal :=
  .next (let k := Ops.die s die
    if die < 8 ∧ k.available ∧ k.floorTime + 2 ^ 22 ≤ s.now then
      let ctxs := ((s.teams.filter (fun (e : Nat × Team) => dieOf e.2.core == die && !e.2.out)).map (fun e => e.2.ctx)).eraseDups
      let s1 := devlog (setDie s die { k with available := false }) 0x84 0 0 die
      ctxs.foldl (fun s ctx => terminate s ctx 0x1F) s1
    else s)

end Sys2Proof.Machine
end

