-- ==== Sys2Proof/Machine/Logic.lean ====
section
/-! DEFINITION. The meanings of class 0x3, logic and bit operations (06 R119 to R123). -/

namespace Sys2Proof.Machine

open Sys2Proof.Bits
open Ops

namespace Ops

/-- The count of a shift: AUX[6:0] as a literal, or the whole count register (R121). -/
def shiftCount (c : Ctx) (aux : BitVec 8) (r : BitVec 9) (l : Nat) : Nat :=
  if aux.getLsbD 7 then field aux.toNat 0 7 else rd c r l

/-- The count register as an operand, when it is read. -/
def countOpnd (aux : BitVec 8) (r : BitVec 9) : List Opnd := if aux.getLsbD 7 then [] else [src r]

/-- A shift by a count in AUX or B. -/
def shiftR (i : Instr) (h : Hdr) (o : OpR) (f : Nat → Nat → Nat → Nat) (s : State) :
    Host.Outcome State Fault Refusal :=
  let w := width h
  run i h mPlain ([dstW w o.d, srcW w o.a] ++ countOpnd o.aux o.b) []
    (fun c => doneN c o.d (regsOf w) (fun l => f w (rdW w c o.a l) (shiftCount c o.aux o.b l))) s

/-- A funnel shift by a count in AUX or C. -/
def funnelR (i : Instr) (h : Hdr) (o : OpR) (f : Nat → Nat → Nat → Nat) (s : State) :
    Host.Outcome State Fault Refusal :=
  run i h mPlain ([dst o.d, src o.a, src o.b] ++ countOpnd o.aux o.c) []
    (fun c => doneN c o.d 1 (fun l => f (rd c o.a l) (rd c o.b l) (shiftCount c o.aux o.c l))) s

/-- A count of bits: D is single. -/
def countR (i : Instr) (h : Hdr) (o : OpR) (f : Nat → Nat → Nat) (s : State) : Host.Outcome State Fault Refusal :=
  let w := width h
  run i h mPlain [dst o.d, srcW w o.a] [] (fun c => doneN c o.d 1 (fun l => f w (rdW w c o.a l))) s

end Ops

/-- `and` (R119). -/
def execAnd (h : Hdr) (o : OpR) (s : State) : Host.Outcome State Fault Refusal :=
  binaryR (.and h o) h o (fun a b => a &&& b) s

/-- `or` (R119). -/
def execOr (h : Hdr) (o : OpR) (s : State) : Host.Outcome State Fault Refusal :=
  binaryR (.or h o) h o (fun a b => a ||| b) s

/-- `xor` (R119). -/
def execXor (h : Hdr) (o : OpR) (s : State) : Host.Outcome State Fault Refusal :=
  binaryR (.xor h o) h o (fun a b => a ^^^ b) s

/-- `not` (R119). -/
def execNot (h : Hdr) (o : OpR) (s : State) : Host.Outcome State Fault Refusal :=
  unaryR (.not h o) h o (Alu.not (width h)) s

/-- `tern` (R120). -/
def execTern (h : Hdr) (o : OpR) (s : State) : Host.Outcome State Fault Refusal :=
  ternaryR (.tern h o) h o (Alu.tern (width h) o.aux.toNat) s

/-- `bini`: the function stands in bits [21:18] (R120). -/
def execBini (h : Hdr) (o : OpI) (s : State) : Host.Outcome State Fault Refusal :=
  let w := width h
  let fn := o.p.toNat + 8 * b2n o.pn
  run (.bini h o) h mPlain [dstW w o.d, srcW w o.a] []
    (fun c => doneN c o.d (regsOf w) (fun l => Alu.bini w fn (rdW w c o.a l) o.imm.toNat)) s

/-- `shl` (R121). -/
def execShl (h : Hdr) (o : OpR) (s : State) : Host.Outcome State Fault Refusal := shiftR (.shl h o) h o Alu.shl s

/-- `shr` (R121). -/
def execShr (h : Hdr) (o : OpR) (s : State) : Host.Outcome State Fault Refusal := shiftR (.shr h o) h o Alu.shr s

/-- `sra` (R121). -/
def execSra (h : Hdr) (o : OpR) (s : State) : Host.Outcome State Fault Refusal := shiftR (.sra h o) h o Alu.sra s

/-- `fsl` (R119, R121). -/
def execFsl (h : Hdr) (o : OpR) (s : State) : Host.Outcome State Fault Refusal := funnelR (.fsl h o) h o Alu.fsl s

/-- `fsr` (R119, R121). -/
def execFsr (h : Hdr) (o : OpR) (s : State) : Host.Outcome State Fault Refusal := funnelR (.fsr h o) h o Alu.fsr s

/-- `popc` (R119). -/
def execPopc (h : Hdr) (o : OpR) (s : State) : Host.Outcome State Fault Refusal := countR (.popc h o) h o popcount s

/-- `clz` (R119). -/
def execClz (h : Hdr) (o : OpR) (s : State) : Host.Outcome State Fault Refusal := countR (.clz h o) h o Alu.clz s

/-- `brev` (R119). -/
def execBrev (h : Hdr) (o : OpR) (s : State) : Host.Outcome State Fault Refusal :=
  unaryR (.brev h o) h o (Alu.brev (width h)) s

/-- `bfx`: the control word B is single (R122). -/
def execBfx (h : Hdr) (o : OpR) (s : State) : Host.Outcome State Fault Refusal :=
  let w := width h
  run (.bfx h o) h mPlain [dstW w o.d, srcW w o.a, src o.b] []
    (fun c => doneN c o.d (regsOf w) (fun l => Alu.bfx (Checks.fmt h) (rdW w c o.a l) (rd c o.b l))) s

/-- `bfi`: C has the format's width (R119, R122). -/
def execBfi (h : Hdr) (o : OpR) (s : State) : Host.Outcome State Fault Refusal :=
  let w := width h
  run (.bfi h o) h mPlain [dstW w o.d, srcW w o.a, src o.b, srcW w o.c] []
    (fun c => doneN c o.d (regsOf w) (fun l => Alu.bfi w (rdW w c o.a l) (rd c o.b l) (rdW w c o.c l))) s

/-- `perm` (R123). -/
def execPerm (h : Hdr) (o : OpR) (s : State) : Host.Outcome State Fault Refusal := ternaryS (.perm h o) h o Alu.perm s

end Sys2Proof.Machine
end

