-- ==== Sys2Proof/Machine/Move.lean ====
section
/-! DEFINITION. The meanings of class 0x4: compares, predicate logic, selects and moves (06 R124 to R127). -/

namespace Sys2Proof.Machine

open Sys2Proof.Bits
open Sys2Proof.Num
open Ops

namespace Ops

/-- The width named by a format code of a move or select (R126). -/
def moveWidth (h : Hdr) : Nat := if Checks.fmt h = 3 ∨ Checks.fmt h = 7 then 64 else 32

/-- A predicate selector in a register field: number and negate bit (R125). -/
def predOf (c : Ctx) (r : BitVec 9) (l : Nat) : Bool := predAt c.p l (field r.toNat 0 3) != r.getLsbD 3

/-- The predicate number of a selector. -/
def predNo (r : BitVec 9) : Nat := field r.toNat 0 3

/-- The predicates p0 to p7 of a lane as bits 0 to 7 (R127). -/
def predBits (c : Ctx) (l : Nat) : Nat := ofBitFn 8 (fun i => predAt c.p l i)

end Ops

/-- `setp` (R124). -/
def execSetp (h : Hdr) (o : OpR) (s : State) : Host.Outcome State Fault Refusal :=
  let w := width h
  run (.setp h o) h mPlain [srcW w o.a, srcW w o.b] [o.p.toNat] (fun c => .done c.s (wrPred c o.p
    (fun l => Alu.setp (Checks.fmt h) (Checks.lo4 h) (rdW w c o.a l) (rdW w c o.b l))) []) s

/-- `setpi` (R124). -/
def execSetpi (h : Hdr) (o : OpI) (s : State) : Host.Outcome State Fault Refusal :=
  let w := width h
  run (.setpi h o) h mPlain [srcW w o.a] [o.p.toNat] (fun c => .done c.s (wrPred c o.p
    (fun l => Alu.setp (Checks.fmt h) (Checks.lo4 h) (rdW w c o.a l) (Alu.immVal (Checks.fmt h) o.imm.toNat))) []) s

/-- `fsetp` (R124): a signalling NaN operand sets FNV. -/
def execFsetp (h : Hdr) (o : OpR) (s : State) : Host.Outcome State Fault Refusal :=
  run (.fsetp h o) h mPlain [src o.a, src o.b] [o.p.toNat] (fun c =>
    let r (l : Nat) := Alu.fsetp (Checks.fmt h) (Checks.lo4 h) (rd c o.a l) (rd c o.b l)
    .done c.s (wrPred c o.p (fun l => (r l).1)) (flagLanes c (fun l => (r l).2))) s

/-- `plop` (R125). -/
def execPlop (h : Hdr) (o : OpR) (s : State) : Host.Outcome State Fault Refusal :=
  run (.plop h o) h mPlain [] [o.p.toNat, predNo o.a, predNo o.b, predNo o.c] (fun c => .done c.s (wrPred c o.p
    (fun l => o.aux.toNat.testBit (b2n (predOf c o.a l) + 2 * b2n (predOf c o.b l) + 4 * b2n (predOf c o.c l)))) []) s

/-- `sel` (R126). -/
def execSel (h : Hdr) (o : OpR) (s : State) : Host.Outcome State Fault Refusal :=
  let w := moveWidth h
  run (.sel h o) h mPlain [dstW w o.d, srcW w o.a, srcW w o.b] [o.p.toNat]
    (fun c => doneN c o.d (regsOf w) (fun l => if rdP c o.pn o.p l then rdW w c o.a l else rdW w c o.b l)) s

/-- `seli` (R126). -/
def execSeli (h : Hdr) (o : OpI) (s : State) : Host.Outcome State Fault Refusal :=
  run (.seli h o) h mPlain [dst o.d, src o.a] [o.p.toNat]
    (fun c => doneN c o.d 1 (fun l => if rdP c o.pn o.p l then rd c o.a l else o.imm.toNat)) s

/-- `mov` (R126). -/
def execMov (h : Hdr) (o : OpR) (s : State) : Host.Outcome State Fault Refusal :=
  let w := moveWidth h
  run (.mov h o) h mPlain [dstW w o.d, srcW w o.a] [] (fun c => doneN c o.d (regsOf w) (fun l => rdW w c o.a l)) s

/-- `movi`: sign-extended for i64, zero-extended for n64 (R126). -/
def execMovi (h : Hdr) (o : OpI) (s : State) : Host.Outcome State Fault Refusal :=
  let w := moveWidth h
  let x := if Checks.fmt h = 3 then wrap 64 (sext 32 o.imm.toNat) else o.imm.toNat
  run (.movi h o) h mPlain [dstW w o.d] [] (fun c => doneN c o.d (regsOf w) (fun _ => x)) s

/-- `p2r` (R127). -/
def execP2r (h : Hdr) (o : OpR) (s : State) : Host.Outcome State Fault Refusal :=
  run (.p2r h o) h mPlain [dst o.d] (upto 7) (fun c => doneN c o.d 1 (predBits c)) s

/-- `r2p` (R127): the predicates selected by the mask in AUX. -/
def execRegToPred (h : Hdr) (o : OpR) (s : State) : Host.Outcome State Fault Refusal :=
  let sel := (upto 7).filter (fun i => o.aux.getLsbD i)
  run (.regToPred h o) h mPlain [src o.a] sel (fun c => .done c.s
    ((lanesOf c.pass).flatMap (fun l => sel.map (fun i => .p l i ((rd c o.a l).testBit i)))) []) s

end Sys2Proof.Machine
end

