-- ==== Sys2Proof/Machine/Exchange.lean ====
section
/-! DEFINITION. The meanings of class 0x7: shuffles, votes, folds, matches, lane reads and derivatives (09 R175 to R181).
The participants are the active lanes whose guard holds. -/

namespace Sys2Proof.Machine

open Sys2Proof.Bits
open Sys2Proof.Num
open Ops

namespace Ops

/-- The mode in MOD[2:0] (R175). -/
def exMode (h : Hdr) : Nat := field h.mod.toNat 0 3

/-- The source lane of a shuffle, if it exists (R177): 0 pick, 1 sft, 2 rot, 3 mir. -/
def shuffleSrc (mode lane : Nat) (b : Int) : Option Nat :=
  if mode = 0 then some (b % 8).toNat
  else if mode = 1 then (let x := (lane : Int) - b; if 0 ≤ x ∧ x ≤ 7 then some x.toNat else none)
  else if mode = 2 then some (((lane : Int) - b) % 8).toNat
  else some (lane ^^^ (b % 8).toNat)

/-- The lane whose value a lane receives, if its source is valid. -/
def shuffleFrom (c : Ctx) (mode mask lane : Nat) (b : Int) : Option Nat :=
  match shuffleSrc mode lane b with
  | none => none
  | some x => if mask.testBit lane && mask.testBit x && c.pass.testBit x then some x else none

/-- The effect of a shuffle, from the membership mask and each lane's b (R177). -/
def shuffle (c : Ctx) (w mode : Nat) (d : BitVec 9) (p : BitVec 3) (a : BitVec 9) (mask : Nat) (b : Nat → Int) : Res :=
  .done c.s (wrLanes c d (regsOf w) (fun l => rdW w c a ((shuffleFrom c mode mask l (b l)).getD l)) ++
    wrPred c p (fun l => (shuffleFrom c mode mask l (b l)).isSome)) []

/-- b of `shfl`: i32 under sft and rot, n32 under pick and mir. -/
def shuffleB (mode x : Nat) : Int := if mode = 1 ∨ mode = 2 then sext 32 x else (x : Int)

/-- b of `shfli`: IMM[3:0]. -/
def shuffleImm (mode imm : Nat) : Int := if mode = 1 ∨ mode = 2 then sext 4 imm else ((field imm 0 4 : Nat) : Int)

/-- The combination of `lfold` (R179). -/
def foldStep (op fmt a b : Nat) : Nat :=
  if op = 0 then Alu.add fmt false a b
  else if op = 1 then Alu.min fmt a b
  else if op = 2 then Alu.max fmt a b
  else if op = 3 then a &&& b
  else if op = 4 then a ||| b
  else a ^^^ b

/-- Combine a register over the participants, in ascending lane order. -/
def foldLanes (c : Ctx) (op fmt w : Nat) (a : BitVec 9) : Nat :=
  match lanesOf c.pass with
  | [] => 0
  | l :: ls => ls.foldl (fun acc m => foldStep op fmt acc (rdW w c a m)) (rdW w c a l)

/-- The two companions of a lane in its quad: low, high (R181). -/
def companions (y fine : Bool) (lane : Nat) : Nat × Nat :=
  let b := lane / 4 * 4
  if y then (let x0 := if fine then lane % 2 else 0; (b + x0, b + x0 + 2))
  else (let y0 := if fine then lane / 2 % 2 * 2 else 0; (b + y0, b + y0 + 1))

/-- A derivative (R180, R181). -/
def derivative (i : Instr) (h : Hdr) (o : OpR) (y : Bool) (s : State) : Host.Outcome State Fault Refusal :=
  let fine := exMode h == 0
  run i h mPlain [(dst o.d).inVec, src o.a] [] (fun c =>
    let pair (l : Nat) := companions y fine l
    let whole (l : Nat) : Bool := live c.g (pair l).1 && live c.g (pair l).2
    let r (l : Nat) : FRes := if whole l then Alu.fsub f32 0 (rd c o.a (pair l).2) (rd c o.a (pair l).1) else ⟨0, 0⟩
    let bad := (lanesOf c.pass).filter (fun l => !whole l)
    if c.tm.hdr.traps.testBit 3 && !bad.isEmpty then .trap (trapOf 0x0C (maskOf bad)) (orLanes c.s c.key bad lsDeriv)
    else .done c.s (wrLanes c o.d 1 (fun l => (r l).bits))
      (flagLanes c (fun l => (r l).flags ||| (if whole l then 0 else lsDeriv)))) s

end Ops

/-- `shfl` (R176, R177). -/
def execShfl (h : Hdr) (o : OpR) (s : State) : Host.Outcome State Fault Refusal :=
  let w := width h
  run (.shfl h o) h mPlain [(dstW w o.d).inVec, srcW w o.a, src o.b, src o.c] [o.p.toNat] (fun c =>
    shuffle c w (exMode h) o.d o.p o.a (field (rd c o.c (lowLane c.pass)) 0 8) (fun l => shuffleB (exMode h) (rd c o.b l))) s

/-- `shfli` (R176, R177). -/
def execShfli (h : Hdr) (o : OpI) (s : State) : Host.Outcome State Fault Refusal :=
  let w := width h
  run (.shfli h o) h mPlain [(dstW w o.d).inVec, srcW w o.a] [o.p.toNat] (fun c =>
    shuffle c w (exMode h) o.d o.p o.a (field o.imm.toNat 8 8) (fun _ => shuffleImm (exMode h) o.imm.toNat)) s

/-- `vote` (R178, R179): 0 every, 1 some, 2 same. -/
def execVote (h : Hdr) (o : OpR) (s : State) : Host.Outcome State Fault Refusal :=
  run (.vote h o) h mPlain [] [o.p.toNat, predNo o.a] (fun c =>
    let every := (lanesOf c.pass).all (fun l => predOf c o.a l)
    let some_ := (lanesOf c.pass).any (fun l => predOf c o.a l)
    .done c.s (wrPred c o.p (fun _ =>
      if exMode h = 0 then every else if exMode h = 1 then some_ else every || !some_)) []) s

/-- `pmask` (R179). -/
def execPmask (h : Hdr) (o : OpR) (s : State) : Host.Outcome State Fault Refusal :=
  run (.pmask h o) h mPlain [dst o.d] [predNo o.a]
    (fun c => doneN c o.d 1 (fun _ => maskOf ((lanesOf c.pass).filter (fun l => predOf c o.a l)))) s

/-- `lfold` (R179). -/
def execLfold (h : Hdr) (o : OpR) (s : State) : Host.Outcome State Fault Refusal :=
  let w := width h
  run (.lfold h o) h mPlain [dstW w o.d, srcW w o.a] []
    (fun c => doneN c o.d (regsOf w) (fun _ => foldLanes c (exMode h) (Checks.fmt h) w o.a)) s

/-- `match` (R179). -/
def execMatchLanes (h : Hdr) (o : OpR) (s : State) : Host.Outcome State Fault Refusal :=
  let w := width h
  run (.matchLanes h o) h mPlain [(dst o.d).inVec, srcW w o.a] []
    (fun c => doneN c o.d 1 (fun l => maskOf ((lanesOf c.pass).filter (fun m => rdW w c o.a m == rdW w c o.a l)))) s

/-- `rdlane` (R179). -/
def execRdlane (h : Hdr) (o : OpR) (s : State) : Host.Outcome State Fault Refusal :=
  let w := width h
  run (.rdlane h o) h mPlain [dstW w o.d, srcW w o.a] [o.p.toNat] (fun c =>
    let i := field o.aux.toNat 0 3
    let in_ := c.pass.testBit i
    .done c.s (wrLanes c o.d (regsOf w) (fun _ => if in_ then rdW w c o.a i else 0) ++ wrPred c o.p (fun _ => in_)) []) s

/-- `ddx` (R180, R181). -/
def execDdx (h : Hdr) (o : OpR) (s : State) : Host.Outcome State Fault Refusal := derivative (.ddx h o) h o false s

/-- `ddy` (R180, R181). -/
def execDdy (h : Hdr) (o : OpR) (s : State) : Host.Outcome State Fault Refusal := derivative (.ddy h o) h o true s

end Sys2Proof.Machine
end

