-- ==== Sys2Proof/Machine/Float.lean ====
section
/-! DEFINITION. The meanings of classes 0x5 and 0x6: floating point and conversion (07 R138 to R156). Flags are those of
each lane's own computation and land with the result. -/

namespace Sys2Proof.Machine

open Sys2Proof.Bits
open Sys2Proof.Num
open Ops

namespace Ops

/-- SAT, rounding mode and type of class 0x5 (R109). -/
def fSat (h : Hdr) : Bool := h.mod.getLsbD 2
def fMode (h : Hdr) : Nat := field h.mod.toNat 0 2
def fTy (h : Hdr) : Nat := field h.mod.toNat 6 2

/-- SAT and rounding mode of class 0x6. -/
def cSat (h : Hdr) : Bool := h.sc.getLsbD 2
def cMode (h : Hdr) : Nat := field h.sc.toNat 0 2

/-- An f32 operation on A. -/
def float1 (i : Instr) (h : Hdr) (o : OpR) (f : Nat → FRes) (s : State) : Host.Outcome State Fault Refusal :=
  run i h mPlain [dst o.d, src o.a] [] (fun c => doneF c o.d (fun l => satIf f32 (fSat h) (f (rd c o.a l)))) s

/-- An f32 operation on A and B. -/
def float2 (i : Instr) (h : Hdr) (o : OpR) (f : Nat → Nat → FRes) (s : State) : Host.Outcome State Fault Refusal :=
  run i h mPlain [dst o.d, src o.a, src o.b] []
    (fun c => doneF c o.d (fun l => satIf f32 (fSat h) (f (rd c o.a l) (rd c o.b l)))) s

/-- An f32 operation on A, B and C. -/
def float3 (i : Instr) (h : Hdr) (o : OpR) (f : Nat → Nat → Nat → FRes) (s : State) :
    Host.Outcome State Fault Refusal :=
  run i h mPlain [dst o.d, src o.a, src o.b, src o.c] []
    (fun c => doneF c o.d (fun l => satIf f32 (fSat h) (f (rd c o.a l) (rd c o.b l) (rd c o.c l)))) s

/-- A packed operation on the elements of A, B and C (R142); C is read only where `third`. -/
def packedR (i : Instr) (h : Hdr) (o : OpR) (third : Bool) (f : FFmt → Nat → Nat → Nat → FRes) (s : State) :
    Host.Outcome State Fault Refusal :=
  let fm := Alu.packFmt (fTy h)
  run i h mPlain ([dst o.d, src o.a, src o.b] ++ if third then [src o.c] else []) [] (fun c => doneF c o.d (fun l =>
    Alu.packed (fun e => satIf fm (fSat h)
      (f fm (Alu.elem e (rd c o.a l)) (Alu.elem e (rd c o.b l)) (if third then Alu.elem e (rd c o.c l) else 0))))) s

/-- Write one result per lane into each of two destinations. -/
def doneF2 (c : Ctx) (d e : BitVec 9) (f g : Nat → FRes) : Res :=
  .done c.s (wrLanes c d 1 (fun l => (f l).bits) ++ wrLanes c e 1 (fun l => (g l).bits))
    (flagLanes c (fun l => (f l).flags ||| (g l).flags))

/-- Registers of a format code: two for i64 and n64. -/
def codeWidth (code : Nat) : Nat := if code = 3 ∨ code = 7 then 64 else 32

end Ops

/-- `fadd` (R142). -/
def execFadd (h : Hdr) (o : OpR) (s : State) : Host.Outcome State Fault Refusal :=
  float2 (.fadd h o) h o (Alu.fadd f32 (fMode h)) s

/-- `fsub` (R142, R143). -/
def execFsub (h : Hdr) (o : OpR) (s : State) : Host.Outcome State Fault Refusal :=
  float2 (.fsub h o) h o (Alu.fsub f32 (fMode h)) s

/-- `fmul` (R142). -/
def execFmul (h : Hdr) (o : OpR) (s : State) : Host.Outcome State Fault Refusal :=
  float2 (.fmul h o) h o (Alu.fmul f32 (fMode h)) s

/-- `fma` (R142). -/
def execFma (h : Hdr) (o : OpR) (s : State) : Host.Outcome State Fault Refusal :=
  float3 (.fma h o) h o (Alu.fma f32 (fMode h)) s

/-- `fmin` (R144). -/
def execFmin (h : Hdr) (o : OpR) (s : State) : Host.Outcome State Fault Refusal :=
  float2 (.fmin h o) h o (Alu.fminmax false) s

/-- `fmax` (R144). -/
def execFmax (h : Hdr) (o : OpR) (s : State) : Host.Outcome State Fault Refusal :=
  float2 (.fmax h o) h o (Alu.fminmax true) s

/-- `frnd` (R145). -/
def execFrnd (h : Hdr) (o : OpR) (s : State) : Host.Outcome State Fault Refusal :=
  float1 (.frnd h o) h o (Alu.frnd (fMode h)) s

/-- `fclass` (R146). -/
def execFclass (h : Hdr) (o : OpR) (s : State) : Host.Outcome State Fault Refusal :=
  run (.fclass h o) h mPlain [dst o.d, src o.a] [] (fun c => doneN c o.d 1 (fun l => Alu.fclass (rd c o.a l))) s

/-- `fadd2` (R142). -/
def execFadd2 (h : Hdr) (o : OpR) (s : State) : Host.Outcome State Fault Refusal :=
  packedR (.fadd2 h o) h o false (fun f a b _ => Alu.fadd f (fMode h) a b) s

/-- `fmul2` (R142). -/
def execFmul2 (h : Hdr) (o : OpR) (s : State) : Host.Outcome State Fault Refusal :=
  packedR (.fmul2 h o) h o false (fun f a b _ => Alu.fmul f (fMode h) a b) s

/-- `fma2` (R142). -/
def execFma2 (h : Hdr) (o : OpR) (s : State) : Host.Outcome State Fault Refusal :=
  packedR (.fma2 h o) h o true (fun f a b c => Alu.fma f (fMode h) a b c) s

/-- `fdot2` (R142): one exact sum, one rounding. DEDUCED, log entry 46. -/
def execFdot2 (h : Hdr) (o : OpR) (s : State) : Host.Outcome State Fault Refusal :=
  float3 (.fdot2 h o) h o (Alu.fdot2 (Alu.packFmt (fTy h)) (fMode h)) s

/-- `fex2` (R148). -/
def execFex2 (h : Hdr) (o : OpR) (s : State) : Host.Outcome State Fault Refusal := float1 (.fex2 h o) h o fex2 s

/-- `flg2` (R149). -/
def execFlg2 (h : Hdr) (o : OpR) (s : State) : Host.Outcome State Fault Refusal := float1 (.flg2 h o) h o flg2 s

/-- `frcp` (R150). -/
def execFrcp (h : Hdr) (o : OpR) (s : State) : Host.Outcome State Fault Refusal := float1 (.frcp h o) h o frcp s

/-- `frsq` (R150). -/
def execFrsq (h : Hdr) (o : OpR) (s : State) : Host.Outcome State Fault Refusal := float1 (.frsq h o) h o frsq s

/-- `fsin` (R151). -/
def execFsin (h : Hdr) (o : OpR) (s : State) : Host.Outcome State Fault Refusal := float1 (.fsin h o) h o fsin s

/-- `fcos` (R151). -/
def execFcos (h : Hdr) (o : OpR) (s : State) : Host.Outcome State Fault Refusal := float1 (.fcos h o) h o fcos s

/-- `cvt` (R153): a 64-bit operand is a pair. -/
def execCvt (h : Hdr) (o : OpR) (s : State) : Host.Outcome State Fault Refusal :=
  let wd := codeWidth (Checks.fmt h)
  let ws := codeWidth (Checks.lo4 h)
  run (.cvt h o) h mPlain [dstW wd o.d, srcW ws o.a] [] (fun c =>
    let r (l : Nat) := cvt (Checks.fmt h) (Checks.lo4 h) (cMode h) (cSat h) (rdW ws c o.a l)
    .done c.s (wrLanes c o.d (regsOf wd) (fun l => (r l).bits)) (flagLanes c (fun l => (r l).flags))) s

/-- `pack` (R154). -/
def execPack (h : Hdr) (o : OpR) (s : State) : Host.Outcome State Fault Refusal :=
  run (.pack h o) h mPlain [dst o.d, src o.a, src o.b] []
    (fun c => doneF c o.d (fun l => Alu.pack (Checks.fmt h) (cMode h) (cSat h) (rd c o.a l) (rd c o.b l))) s

/-- `unpack`: element 0 to D, element 1 to C (R154). -/
def execUnpack (h : Hdr) (o : OpR) (s : State) : Host.Outcome State Fault Refusal :=
  run (.unpack h o) h mPlain [dst o.d, dst o.c, src o.a] [] (fun c => doneF2 c o.d o.c
    (fun l => Alu.unpack (Checks.lo4 h) (cSat h) 0 (rd c o.a l))
    (fun l => Alu.unpack (Checks.lo4 h) (cSat h) 1 (rd c o.a l))) s

/-- `quant` (R155). -/
def execQuant (h : Hdr) (o : OpR) (s : State) : Host.Outcome State Fault Refusal :=
  run (.quant h o) h mPlain [dst o.d, src o.a, src o.b, src o.c] [] (fun c => doneF c o.d (fun l =>
    quant (Checks.fmt h) (Checks.lo4 h) (cMode h) (rd c o.a l) (rd c o.b l) (rd c o.c l))) s

/-- `dequant` (R155). -/
def execDequant (h : Hdr) (o : OpR) (s : State) : Host.Outcome State Fault Refusal :=
  run (.dequant h o) h mPlain [dst o.d, src o.a, src o.b, src o.c] [] (fun c => doneF c o.d (fun l =>
    dequant (Checks.fmt h) (Checks.lo4 h) (cMode h) (cSat h) (rd c o.a l) (rd c o.b l) (rd c o.c l))) s

/-- `pack4` (R156). -/
def execPack4 (h : Hdr) (o : OpR) (s : State) : Host.Outcome State Fault Refusal :=
  run (.pack4 h o) h mPlain [dst o.d, src o.a, src o.b] []
    (fun c => doneN c o.d 1 (fun l => Alu.pack4 (rd c o.a l) (rd c o.b l))) s

end Sys2Proof.Machine
end

