-- ==== Sys2Proof/Machine/Shapes.lean ====
section
/-! DEFINITION. What each group instruction names: its marks, its register operands and its predicates (02 R51; 06 to 24),
and what of these it reads and writes. -/

namespace Sys2Proof.Machine

/-- The operands of a group instruction as its encoding gives them: its marks, its register operands, the predicates it
names besides the guard, and those of them that it writes (02 R51; 06 to 24). -/
structure Shape where
  hdr : Hdr
  marks : Ops.Marks
  opnds : List Ops.Opnd := []
  preds : List Nat := []
  pdst : List Nat := []

namespace Shape

open Ops

/-- A register-only instruction. -/
def plain (h : Hdr) (os : List Opnd) (ps pd : List Nat := []) : Shape := { hdr := h, marks := mPlain, opnds := os, preds := ps, pdst := pd }

/-- D, A and B of the format's width. -/
def binW (h : Hdr) (o : OpR) : List Opnd := [dstW (width h) o.d, srcW (width h) o.a, srcW (width h) o.b]

/-- D, A, B and C of the format's width. -/
def terW (h : Hdr) (o : OpR) : List Opnd := binW h o ++ [srcW (width h) o.c]

/-- D, A, B and C of one register each. -/
def terS (o : OpR) : List Opnd := [dst o.d, src o.a, src o.b, src o.c]

/-- D, A and a count register that AUX may replace. -/
def shift (h : Hdr) (o : OpR) : List Opnd := [dstW (width h) o.d, srcW (width h) o.a] ++ countOpnd o.aux o.b

/-- D, A, B and a count register that AUX may replace. -/
def funnel (o : OpR) : List Opnd := [dst o.d, src o.a, src o.b] ++ countOpnd o.aux o.c

/-- The two runs of a transform. -/
def runs (o : OpR) (dspan aspan : Nat) : List Opnd :=
  [{ reg := o.d, count := dspan, file := .vec, dest := true }, { reg := o.a, count := aspan, file := .vec }]

/-- DATA as a destination in the vector file, and the address. -/
def loadV (o : OpM) (n : Nat) : List Opnd := [{ dataOpnd o n with file := .vec, dest := true }] ++ addrOpnds o

end Shape

open Ops in
/-- The shape of a group instruction; stream instructions and events have none. -/
def shapeOf : Instr → Option Shape
  -- class 0x0
  | .nop h _ => some (.plain h [])
  | .brk h _ => some (.plain h [])
  | .sread h o => some (.plain h [dst o.a])
  | .swrite h o => some (.plain h [src o.a])
  | .cycrd h o => some (.plain h [dstP o.d])
  | .hint h _ => some (.plain h [])
  | .trap h _ => some { hdr := h, marks := mSys }
  | .rett h _ => some { hdr := h, marks := mSys }
  | .rgn h _ => some { hdr := h, marks := mMem }
  | .rgnend h _ => some { hdr := h, marks := mSys }
  -- class 0x1
  | .bra h _ => some (.plain h [])
  | .brall h _ => some (.plain h [])
  | .brany h _ => some (.plain h [])
  | .brx h o => some (.plain h [srcP o.a])
  | .call h o => some (.plain h [dstP o.l])
  | .callx h o => some (.plain h [dstP o.l, srcP o.a])
  | .ret h o => some (.plain h [srcP o.a])
  | .loop h o => some (.plain h [dst o.a])
  | .mrg h _ => some (.plain h [])
  | .mrgx h o => some (.plain h [(srcP o.a).inUni])
  -- class 0x2
  | .add h o => some (.plain h (Shape.binW h o))
  | .addc h o => some (.plain h (Shape.binW h o) [o.p.toNat] [o.p.toNat])
  | .sub h o => some (.plain h (Shape.binW h o))
  | .subb h o => some (.plain h (Shape.binW h o) [o.p.toNat] [o.p.toNat])
  | .addi h o => some (.plain h [dstW (width h) o.d, srcW (width h) o.a])
  | .mul h o => some (.plain h (Shape.binW h o))
  | .mulhi h o => some (.plain h (Shape.binW h o))
  | .mulw h o => some (.plain h [dstP o.d, src o.a, src o.b])
  | .mad h o => some (.plain h (Shape.terW h o))
  | .madw h o => some (.plain h [dstP o.d, src o.a, src o.b, srcP o.c])
  | .div h o => some (.plain h (Shape.binW h o))
  | .rem h o => some (.plain h (Shape.binW h o))
  | .divrem h o => some (.plain h [dstW (width h) o.d, dstW (width h) o.c, srcW (width h) o.a, srcW (width h) o.b])
  | .min h o => some (.plain h (Shape.binW h o))
  | .max h o => some (.plain h (Shape.binW h o))
  | .clamp h o => some (.plain h (Shape.terW h o))
  | .abs h o => some (.plain h [dstW (width h) o.d, srcW (width h) o.a])
  | .sad h o => some (.plain h (Shape.terW h o))
  | .dot4 h o => some (.plain h (Shape.terS o))
  | .dot2 h o => some (.plain h (Shape.terS o))
  | .lea h o => some (.plain h [dstP o.d, srcP o.a, src o.b])
  | .leai h o => some (.plain h [dstP o.d, srcP o.a])
  -- class 0x3
  | .and h o => some (.plain h (Shape.binW h o))
  | .or h o => some (.plain h (Shape.binW h o))
  | .xor h o => some (.plain h (Shape.binW h o))
  | .not h o => some (.plain h [dstW (width h) o.d, srcW (width h) o.a])
  | .tern h o => some (.plain h (Shape.terW h o))
  | .bini h o => some (.plain h [dstW (width h) o.d, srcW (width h) o.a])
  | .shl h o => some (.plain h (Shape.shift h o))
  | .shr h o => some (.plain h (Shape.shift h o))
  | .sra h o => some (.plain h (Shape.shift h o))
  | .fsl h o => some (.plain h (Shape.funnel o))
  | .fsr h o => some (.plain h (Shape.funnel o))
  | .popc h o => some (.plain h [dst o.d, srcW (width h) o.a])
  | .clz h o => some (.plain h [dst o.d, srcW (width h) o.a])
  | .brev h o => some (.plain h [dstW (width h) o.d, srcW (width h) o.a])
  | .bfx h o => some (.plain h [dstW (width h) o.d, srcW (width h) o.a, src o.b])
  | .bfi h o => some (.plain h [dstW (width h) o.d, srcW (width h) o.a, src o.b, srcW (width h) o.c])
  | .perm h o => some (.plain h (Shape.terS o))
  -- class 0x4
  | .setp h o => some (.plain h [srcW (width h) o.a, srcW (width h) o.b] [o.p.toNat] [o.p.toNat])
  | .setpi h o => some (.plain h [srcW (width h) o.a] [o.p.toNat] [o.p.toNat])
  | .fsetp h o => some (.plain h [src o.a, src o.b] [o.p.toNat] [o.p.toNat])
  | .plop h o => some (.plain h [] [o.p.toNat, predNo o.a, predNo o.b, predNo o.c] [o.p.toNat])
  | .sel h o => some (.plain h [dstW (moveWidth h) o.d, srcW (moveWidth h) o.a, srcW (moveWidth h) o.b] [o.p.toNat])
  | .seli h o => some (.plain h [dst o.d, src o.a] [o.p.toNat])
  | .mov h o => some (.plain h [dstW (moveWidth h) o.d, srcW (moveWidth h) o.a])
  | .movi h o => some (.plain h [dstW (moveWidth h) o.d])
  | .p2r h o => some (.plain h [dst o.d] (Bits.upto 7))
  | .regToPred h o => some (.plain h [src o.a] ((Bits.upto 7).filter (fun i => o.aux.getLsbD i))
      ((Bits.upto 7).filter (fun i => o.aux.getLsbD i)))
  -- class 0x5
  | .fadd h o => some (.plain h [dst o.d, src o.a, src o.b])
  | .fsub h o => some (.plain h [dst o.d, src o.a, src o.b])
  | .fmul h o => some (.plain h [dst o.d, src o.a, src o.b])
  | .fma h o => some (.plain h (Shape.terS o))
  | .fmin h o => some (.plain h [dst o.d, src o.a, src o.b])
  | .fmax h o => some (.plain h [dst o.d, src o.a, src o.b])
  | .frnd h o => some (.plain h [dst o.d, src o.a])
  | .fclass h o => some (.plain h [dst o.d, src o.a])
  | .fadd2 h o => some (.plain h [dst o.d, src o.a, src o.b])
  | .fmul2 h o => some (.plain h [dst o.d, src o.a, src o.b])
  | .fma2 h o => some (.plain h (Shape.terS o))
  | .fdot2 h o => some (.plain h (Shape.terS o))
  | .fex2 h o => some (.plain h [dst o.d, src o.a])
  | .flg2 h o => some (.plain h [dst o.d, src o.a])
  | .frcp h o => some (.plain h [dst o.d, src o.a])
  | .frsq h o => some (.plain h [dst o.d, src o.a])
  | .fsin h o => some (.plain h [dst o.d, src o.a])
  | .fcos h o => some (.plain h [dst o.d, src o.a])
  -- class 0x6
  | .cvt h o => some (.plain h [dstW (codeWidth (Checks.fmt h)) o.d, srcW (codeWidth (Checks.lo4 h)) o.a])
  | .pack h o => some (.plain h [dst o.d, src o.a, src o.b])
  | .unpack h o => some (.plain h [dst o.d, dst o.c, src o.a])
  | .quant h o => some (.plain h (Shape.terS o))
  | .dequant h o => some (.plain h (Shape.terS o))
  | .pack4 h o => some (.plain h [dst o.d, src o.a, src o.b])
  -- class 0x7
  | .shfl h o => some (.plain h [(dstW (width h) o.d).inVec, srcW (width h) o.a, src o.b, src o.c] [o.p.toNat] [o.p.toNat])
  | .shfli h o => some (.plain h [(dstW (width h) o.d).inVec, srcW (width h) o.a] [o.p.toNat] [o.p.toNat])
  | .vote h o => some (.plain h [] [o.p.toNat, predNo o.a] [o.p.toNat])
  | .pmask h o => some (.plain h [dst o.d] [predNo o.a])
  | .lfold h o => some (.plain h [dstW (width h) o.d, srcW (width h) o.a])
  | .matchLanes h o => some (.plain h [(dst o.d).inVec, srcW (width h) o.a])
  | .rdlane h o => some (.plain h [dstW (width h) o.d, srcW (width h) o.a] [o.p.toNat] [o.p.toNat])
  | .ddx h o => some (.plain h [(dst o.d).inVec, src o.a])
  | .ddy h o => some (.plain h [(dst o.d).inVec, src o.a])
  -- class 0x8
  | .rpinit h _ => some { hdr := h, marks := mSys }
  | .rparr h o => some { hdr := h, marks := mSysC, opnds := [dst o.d], preds := [o.p.toNat], pdst := [o.p.toNat] }
  | .rpwait h o => some { hdr := h, marks := mSys, opnds := [src o.a] }
  | .rparw h o => some { hdr := h, marks := mSysC, opnds := [dst o.d], preds := [o.p.toNat], pdst := [o.p.toNat] }
  | .rpbytes h o => some { hdr := h, marks := mSysC, opnds := [src o.a] }
  | .yield h _ => some { hdr := h, marks := mSys }
  | .yieldto h o => some { hdr := h, marks := mSys, opnds := [(src o.a).inUni] }
  | .sleep h _ => some { hdr := h, marks := mSys }
  | .exit h _ => some { hdr := h, marks := mSys }
  -- class 0x9
  | .ld h o => some { hdr := h, marks := mMem, opnds := Shape.loadV o (fmtRegs (Checks.fmt h)) }
  | .st h o => some { hdr := h, marks := mStore, opnds := [dataOpnd o (fmtRegs (Checks.fmt h))] ++ addrOpnds o }
  | .ldacq h o => some { hdr := h, marks := mMem, opnds := Shape.loadV o (fmtRegs (Checks.fmt h)) }
  | .strel h o => some { hdr := h, marks := mStore, opnds := [dataOpnd o (fmtRegs (Checks.fmt h))] ++ addrOpnds o }
  | .ldk h o => some { hdr := h, marks := mMem, opnds :=
      [{ dataOpnd o (fmtRegs (Checks.fmt h)) with file := .uni, dest := true }] ++ (addrOpnds o).map Opnd.inUni }
  | .stk h o => some { hdr := h, marks := mStore, opnds :=
      [{ dataOpnd o (fmtRegs (Checks.fmt h)) with file := .uni }] ++ (addrOpnds o).map Opnd.inUni }
  | .ldw h o => some { hdr := h, marks := mMem, opnds := Shape.loadV o (wideRegs h) }
  | .stw h o => some { hdr := h, marks := mStore, opnds := [{ dataOpnd o (wideRegs h) with file := .vec }] ++ addrOpnds o }
  | .fpush h o => some { hdr := h, marks := mCopy, opnds := [(src o.data).inVec] ++ addrOpnds o }
  | .fpop h o => some { hdr := h, marks := mSysC, opnds := [(dst o.data).inVec] ++ addrOpnds o }
  | .fpeek h o => some { hdr := h, marks := mSys, opnds := [(dst o.data).inVec] ++ addrOpnds o }
  | .pref h o => some { hdr := h, marks := mMem, opnds := addrOpnds o }
  -- class 0xA
  | .atom h o => some { hdr := h, marks := mStoreC, opnds := Shape.loadV o (fmtRegs (Checks.fmt h)) }
  | .atomcas h o => some { hdr := h, marks := mStoreC, opnds :=
      [{ reg := o.data, count := fmtRegs (Checks.fmt h), align := 2 * fmtRegs (Checks.fmt h), file := .vec, dest := true },
       { dataOpnd o (2 * fmtRegs (Checks.fmt h)) with file := .vec }] ++ addrOpnds o }
  | .atomf h o => some { hdr := h, marks := mStoreC, opnds := [{ dst o.data with file := .vec }] ++ addrOpnds o }
  | .red h o => some { hdr := h, marks := mStoreC, opnds := [dataOpnd o (fmtRegs (Checks.fmt h))] ++ addrOpnds o }
  | .redDet h o => some { hdr := h, marks := mStoreC, opnds := [dataOpnd o (fmtRegs (Checks.fmt h))] ++ addrOpnds o }
  | .redf h o => some { hdr := h, marks := mStoreC, opnds := [src o.data] ++ addrOpnds o }
  | .redfDet h o => some { hdr := h, marks := mStoreC, opnds := [src o.data] ++ addrOpnds o }
  | .dflush h _ => some { hdr := h, marks := mMem }
  | .fenceAcq h _ => some { hdr := h, marks := mMem }
  | .fenceRel h _ => some { hdr := h, marks := mMem }
  | .fenceAr h _ => some { hdr := h, marks := mMem }
  | .fenceSmp h _ => some { hdr := h, marks := mMem }
  | .fwait h _ => some { hdr := h, marks := { waits := true } }
  | .ngath h o => some { hdr := h, marks := mMem, opnds := [{ dataOpnd o 8 with file := .vec, dest := true }] ++ addrOpnds o }
  | .nscat h o => some { hdr := h, marks := mStore, opnds := [{ dataOpnd o 16 with file := .vec }] ++ addrOpnds o }
  | .cwb h o => some { hdr := h, marks := mMem, opnds := addrOpnds o }
  | .cinv h o => some { hdr := h, marks := mMem, opnds := addrOpnds o }
  | .cdisc h o => some { hdr := h, marks := mStore, opnds := addrOpnds o }
  | .icinv h o => some { hdr := h, marks := mMem, opnds := addrOpnds o }
  -- class 0xB
  | .cpy h o => some { hdr := h, marks := mCopy, opnds := [srcP o.d, srcP o.a, src o.b, srcP o.c].map Opnd.inUni }
  | .cpyo h o => some { hdr := h, marks := mCopy, opnds :=
      [srcP o.d, srcP o.a, src o.b, { reg := o.c, count := 5, align := 2 }].map Opnd.inUni }
  | .cpyq h o => some { hdr := h, marks := mStoreC, opnds := [(srcP o.a).inUni] }
  | .halloc h o => some { hdr := h, marks := mSysC, opnds := [src o.a, srcP o.b, src o.c].map Opnd.inUni }
  | .hfree h o => some { hdr := h, marks := mSysC, opnds := [(src o.a).inUni] }
  | .hwaitTake h o => some { hdr := h, marks := mSys, opnds := [(src o.a).inUni] }
  | .hwaitPeek h o => some { hdr := h, marks := mSys, opnds := [(src o.a).inUni] }
  | .hstat h o => some { hdr := h, marks := mSys, opnds := [dstP o.d, (src o.a).inUni] }
  | .publish h o => some { hdr := h, marks := mSysC, opnds := [dstP o.d, srcP o.a, src o.b].map Opnd.inUni }
  -- class 0xC
  | .xfCvt h o => some (.plain h (Shape.runs o (dSpan h o) (aSpan h o)))
  | .xfQuant h o => some (.plain h (Shape.runs o (dSpan h o) (aSpan h o) ++ [src o.b, src o.c]))
  | .xfDequant h o => some (.plain h (Shape.runs o (dSpan h o) (aSpan h o) ++ [src o.b, src o.c]))
  | .xfRkey h o => some (.plain h (Shape.runs o (dSpan h o) (aSpan h o) ++ [src o.b]))
  | .xfHash h o => some (.plain h (Shape.runs o 1 o.aux.toNat ++ [src o.b, src o.c]))
  | .xfPenc h o => some (.plain h (Shape.runs o (runSpan (xfWidth (Checks.fmt h)) (2 * o.aux.toNat)) 1))
  -- class 0xD, the station
  | .neval h o => some { hdr := h, marks := mMemC, opnds := [(dst o.d).inVec, (src o.a).inVec, src o.b] }
  | .nevstatCnt h o => some { hdr := h, marks := mSys, opnds := [dst o.d] }
  | .nevstatKick h o => some { hdr := h, marks := mSys, opnds := [dst o.d] }
  -- class 0xE
  | .ssnew h o => some { hdr := h, marks := mMemC, opnds := [dst o.d, setOpnd o] }
  | .ssadd h o => some { hdr := h, marks := mMemC, opnds := [(dst o.d).inVec, (src o.a).inVec, setOpnd o] }
  | .ssbuild h o => some { hdr := h, marks := mMemC, opnds := [dst o.d, setOpnd o] }
  | .ssbind h o => some { hdr := h, marks := mMem, opnds := bindOpnds o }
  | .ssrebind h o => some { hdr := h, marks := mMem, opnds := bindOpnds o }
  | .ssfree h o => some { hdr := h, marks := mMemC, opnds := [setOpnd o] }
  | .ssget h o => some { hdr := h, marks := mMem, opnds := [dst o.d, setOpnd o] }
  | .emitv h o => some { hdr := h, marks := mMemC, opnds := [(dst o.d).inVec, (src o.a).inVec, setOpnd o] }
  | .emit h o => some { hdr := h, marks := mMemC, opnds := [(dst o.d).inVec, (src o.a).inVec, (src o.b).inUni, setOpnd o] }
  | .emitsp h o => some { hdr := h, marks := mMemC, opnds := [(dst o.d).inVec, (src o.a).inVec, (src o.b).inUni, setOpnd o] }
  | .rflush h o => some { hdr := h, marks := mMemC, opnds := [setOpnd o] }
  | .fin h o => some { hdr := h, marks := mSys, opnds := [(dstW (32 * (if finPair o.sub.toNat then 2 else 1)) o.d).inVec] }
  | .fout h o => some { hdr := h, marks := mSys, opnds := [(src o.a).inVec] }
  | .fdep h o => some { hdr := h, marks := mSys, opnds := [(src o.a).inVec] }
  | .disc h _ => some { hdr := h, marks := mSys }
  -- class 0xF
  | .alm h o => some { hdr := h, marks := mSys, opnds := [dstP o.d, dstP o.c] }
  | .almhz h o => some { hdr := h, marks := mSys, opnds := [dstP o.d] }
  | .stcm h o => some { hdr := h, marks := mStoreC, opnds := [dstP o.data] ++ addrOpnds o }
  | .ldasof h o => some { hdr := h, marks := mMem, opnds :=
      [{ reg := o.d, count := 4, align := 4, file := .vec, dest := true }, srcP o.a, (srcP o.b).inUni] }
  | .almwait h o => some { hdr := h, marks := mSys, opnds := [(srcP o.a).inUni] }
  | _ => none

namespace Ops

/-- A destination that the instruction reads as well: DATA of an atomic (12 R244) and of `stcm` (24 R431), the indices of `ngath`
(12 R252), the counter of `loop` (06 R132). -/
def readsDest : Instr → Bool
  | .atom _ _ => true
  | .atomf _ _ => true
  | .ngath _ _ => true
  | .stcm _ _ => true
  | .loop _ _ => true
  | _ => false

/-- The registers that a group instruction reads as its word says, its guard among them. -/
def regsRead (g : Group) (i : Instr) (x : Shape) : List RegName :=
  (x.opnds.filter (fun o => !o.dest || readsDest i)).flatMap Opnd.names ++ runSrc g i ++
    (x.hdr.gp.toNat :: x.preds).map RegName.p

/-- The registers that it writes as its word says: a write of p7 is discarded (01 R16). The special registers, to which `swrite` and
the sticky bits of %lstat go, do not count. DESIGN CHOICE, log entry 168. -/
def regsWritten (x : Shape) : List RegName :=
  destNames x.opnds ++ (x.pdst.filter (fun p => p != 7)).map RegName.p

/-- The registers that an instruction reads and writes beyond those, as many as its bank, network or record makes them: the entries
of a FIFO (12 R242), inputs and outputs of a network (16 R314), position and footprint of a sample (18 R368). None where a check
ends the instruction before. -/
def sizedRegs (c : Ctx) : List RegName × List RegName :=
  if !acts c then ([], [])
  else match c.i with
  | .fpush _ o => (fifoNames c o false, [])
  | .fpop _ o => ([], fifoNames c o true)
  | .fpeek _ o => ([], fifoNames c o true)
  | .neval _ o =>
    (match (Maps.find? c.tm.ctx c.s.contexts).map (fun x => nevNets c x (rd c o.b)) with
    | some (.ok (_, net, _)) =>
      ((Bits.lanesOf c.pass).flatMap (fun l => (Bits.upto (netInRegs (net l))).map (fun i => RegName.v (regNo o.a + i))),
        (Bits.lanesOf c.pass).flatMap (fun l => (Bits.upto (netOutRegs (net l))).map (fun i => RegName.v (regNo o.d + i))))
    | _ => ([], []))
  | .ssadd _ o =>
    (match issueTr c c.s { spaces := [0], rd := 1, access := 1, ctrl := false } c.active (rdPair c o.set (lowActive c)) with
    | .ok (pa, _, s) => ((addRun o (recFp (seenBytes s pa 256))).names, [])
    | .error _ => ([], []))
  | _ => ([], [])

/-- It redirects control whenever it acts, or may do so (02 R43; 06 R128 to R133; 09 R191; 21 R412). DEDUCED, log entry 112. -/
def redirects : Instr → Bool
  | .bra _ _ => true
  | .brall _ _ => true
  | .brany _ _ => true
  | .brx _ _ => true
  | .call _ _ => true
  | .callx _ _ => true
  | .ret _ _ => true
  | .loop _ _ => true
  | .rett _ _ => true
  | .yieldto _ _ => true
  | _ => false

end Ops

end Sys2Proof.Machine
end

