-- ==== Sys2Proof/Machine/Issue.lean ====
section
/-! DEFINITION. The selection of instructions in a quarter: what a group offers, the execution ports and the read ports of the
register banks, marked pairs, and one cycle (08 R168, R169; 02 R36, R37). -/

namespace Sys2Proof.Machine

open Sys2Proof.Bits

namespace Ops

/-! ### What an instruction needs of its quarter -/

/-- Execution ports. -/
inductive Port where
  | alu | long | mem | xch | br | xf
  deriving DecidableEq, Repr

/-- The port of an instruction word (R169). -/
def portOf (w : IWord) : Port :=
  let c := field w.toNat 92 4
  let f := field w.toNat 86 6
  if c = 0 then (if f ≤ 5 then .alu else .xch)
  else if c = 1 then .br
  else if (c = 2 ∧ 10 ≤ f ∧ f ≤ 12) ∨ (c = 5 ∧ 12 ≤ f ∧ f ≤ 17) then .long
  else if c ≤ 6 then .alu
  else if c = 7 ∨ c = 8 ∨ c = 13 then .xch
  else if c = 12 then .xf
  else .mem

/-- The port of an instruction, the registers that it reads and writes, and whether it redirects control. -/
structure Need where
  port : Port
  reads : List RegName
  writes : List RegName
  turns : Bool
  deriving DecidableEq, Repr

/-- What the instruction of a word needs in a fragment of a group, none for a word that decodes to no instruction of a group. -/
def needOf (s : State) (key frag : Nat) (g : Group) (w : IWord) : Option Need :=
  match decode false w with
  | .error _ => none
  | .ok i => (shapeOf i).map (fun x =>
      let sized := match ctx? { s with cur := .frag key frag } i x.hdr with | some c => sizedRegs c | none => ([], [])
      { port := portOf w, reads := regsRead g i x ++ sized.1, writes := regsWritten x ++ sized.2, turns := redirects i })

/-- The register banks that it reads, one for each vector register: register n lies in bank n mod 4 (R169). No operand is
kept latched. DEDUCED, log entry 112. -/
def banksOf (n : Need) : List Nat :=
  (n.reads.filterMap (fun r => match r with | .v i => some i | _ => none)).eraseDups.map (fun i => i % 4)

/-- Two instructions may issue in one cycle: they want different ports, where there are two ALUs, and no bank is read
twice (R168 step 5, R169). -/
def fitTogether (a b : Need) : Bool := (a.port != b.port || a.port == .alu) && (banksOf a ++ banksOf b).Nodup

/-- Two instructions of a fragment make a pair that issues in one cycle: the second neither reads nor writes a register that
the first writes, their ports differ, and the first does not redirect control (02 R37). -/
def pairsUp (a b : Need) : Bool :=
  !a.turns && (a.port != b.port || a.port == .alu) && !(b.reads ++ b.writes).any (fun r => a.writes.contains r)

/-! ### What a group offers -/

/-- The slot pairs of a pairing template (02 R36). -/
def pairsOf (t : Nat) : List Nat :=
  match t with
  | 1 => [0]
  | 2 => [1]
  | 3 => [2]
  | 4 => [3]
  | 5 => [0, 2]
  | 6 => [0, 3]
  | 7 => [1, 3]
  | _ => []

/-- A fragment that offers an instruction: the priority class of its group, when that last issued, its slot, and what the
instruction needs; and, where the line marks it as the first of a pair, the act and the needs of the second. -/
structure Offer where
  cls : Nat := 0
  last : Nat := 0
  slot : Nat := 0
  group : Nat := 0
  frag : Nat := 0
  act : Act := .issue 0 0
  need : Option Need := none
  second : Option (Act × Need) := none
  deriving DecidableEq, Repr

/-- The fragment that a group offers: the ready one that has waited longest since it last issued, then the lower mask. -/
def offered (ready : Nat → Nat → Bool) (e : Nat × Group) : Option (Nat × Fragment) :=
  (e.2.frags.filter (fun f => ready e.1 f.1)).foldl (fun best x => match best with
    | none => some x
    | some b => if x.2.since < b.2.since ∨ (x.2.since = b.2.since ∧ x.2.mask < b.2.mask) then some x else some b) none

/-- The bytes of a fragment's line. -/
def peekLine (s : State) (tm : Team) (pc : DWord) : List Byte :=
  match (fetchLine s tm.core tm.ctx (lineOf pc)).1 with
  | .line bs => bs
  | _ => []

/-- The second half of the pair that starts at a fragment's slot. -/
def secondOf (s : State) (key : Nat) (g : Group) (f : Nat × Fragment) (line : List Byte) : Option (Act × Need) :=
  if (pairsOf (field (lineWord line) 24 3)).contains (slotOf f.2.pc) then
    (needOf s key f.1 g (slotWord line (slotOf f.2.pc + 1))).map (fun n => (Act.pair key f.1 (nextSlot f.2.pc).toNat f.2.mask, n))
  else none

/-- What a group offers, when some fragment of it is ready. -/
def offerOf (s : State) (ready : Nat → Nat → Bool) (e : Nat × Group) : Option Offer :=
  match team? s e.2.team, offered ready e with
  | some tm, some f =>
    let line := peekLine s tm f.2.pc
    some { cls := if e.2.promoted then 3 else e.2.prio, last := e.2.issuedAt, slot := e.2.slot, group := e.1,
           frag := f.1, act := .issue e.1 f.1, need := needOf s e.1 f.1 e.2 (slotWord line (slotOf f.2.pc)),
           second := secondOf s e.1 e.2 f line }
  | _, _ => none

/-- An offer goes before another. -/
def before (a b : Offer) : Bool :=
  decide (b.cls < a.cls) || (a.cls == b.cls && (decide (a.last < b.last) || (a.last == b.last && decide (a.slot < b.slot))))

/-- The first of several offers. -/
def firstOffer (xs : List Offer) : Option Offer :=
  xs.foldl (fun best x => match best with | none => some x | some b => if before x b then some x else some b) none

/-- The offers of the highest class present. -/
def topClass (xs : List Offer) : List Offer := xs.filter (fun x => xs.all (fun y => decide (y.cls ≤ x.cls)))

/-! ### One cycle -/

/-- What is picked beside the first offer: the second half of its pair, or another group's offer of the class (R168 step 4). A pair
that R37 lets issue keeps the second place of the cycle also when a register that its second half reads still awaits a result.
DESIGN CHOICE, log entry 169. -/
def beside (xs : List Offer) (a : Offer) (n : Need) : Option (Offer × Act × Option Need) :=
  match a.second.filter (fun p => pairsUp n p.2) with
  | some p => some (a, p.1, some p.2)
  | none => (firstOffer (xs.filter (fun x => x.group != a.group))).map (fun b => (b, b.act, b.need))

/-- What a quarter issues in a cycle, each with its offer: the first offer of the highest class, with what is picked beside it
where the two fit together. An instruction that reads a bank twice, or that will trap, issues alone. DEDUCED, log entry 112;
DESIGN CHOICE, log entry 129. -/
def selectIssue (offers : List Offer) : List (Offer × Act) :=
  let xs := topClass offers
  match firstOffer xs with
  | none => []
  | some a =>
    let one := [(a, a.act)]
    match a.need with
    | none => one
    | some n => match beside xs a n with
      | some (b, act, some m) => if fitTogether n m then one ++ [(b, act)] else one
      | _ => one

/-- A group after a cycle of its quarter: the cycles in which it was ready and did not issue, which promote it (R168); one that is
picked has issued now, in the fragment that it offered, be it with another group or with the second half of a pair. -/
def afterCycle (now : Nat) (offers : List Offer) (picks : List (Offer × Act)) (key : Nat) (g : Group) : Group :=
  match picks.find? (fun p => p.1.group == key) with
  | some p => { g with promoted := false, passed := 0, issuedAt := now,
                       frags := Maps.modify p.1.frag (fun f => { f with since := now }) g.frags }
  | none => promoteDue { g with passed := if offers.any (fun x => x.group == key) then g.passed + 1 else 0 }

/-- One cycle of a quarter, given which fragments are ready. DEDUCED, log entry 112. -/
def issueQuarter (s : State) (ready : Nat → Nat → Bool) (k q : Nat) : State :=
  let rs := resident s k q
  let xs := rs.filterMap (offerOf s ready)
  let picks := selectIssue xs
  { s with
    agenda := picks.map Prod.snd ++ s.agenda
    groups := s.groups.map (fun e => if rs.any (fun r => r.1 == e.1) then (e.1, afterCycle s.turn xs picks e.1 e.2) else e) }

end Ops

end Sys2Proof.Machine
end

