-- ==== Sys2Proof/Machine/Act.lean ====
section
/-! DEFINITION. What a step runs: the next act of the agenda or, when it is empty, one of the free schedule
(assumption log entry 3); and the state with one instruction placed for the next step (entry 5). -/

namespace Sys2Proof.Machine

open Sys2Proof.Bits

namespace Ops

/-- An event row: it has no instruction word. -/
def isEvent (i : Instr) : Bool := (encode i).isNone

/-- The fragment is between two instructions. -/
def begins (s : State) (key frag : Nat) : Bool :=
  match group? s key with
  | none => false
  | some g => match Maps.find? frag g.frags with
    | some f => f.stage == .fresh
    | none => false

/-- The fragment stands between two instructions at a program counter with these lanes: the first half of its pair has
completed there (02 R37). -/
def standsAt (s : State) (key frag pc mask : Nat) : Bool :=
  match group? s key with
  | none => false
  | some g => match Maps.find? frag g.frags with
    | some f => f.stage == .fresh && f.pc.toNat == pc && f.mask == mask
    | none => false

/-- The fragment with a mark that every end of its instruction takes away: a branch to itself completes, too. -/
def tried (s : State) (key frag : Nat) : State :=
  modGroup s key (fun g => { g with frags := Maps.modify frag (fun f => { f with arrival := 3 }) g.frags })

/-- A fragment is ready when it can issue its next instruction (08 R168): taking it now would change its group, be it by a
trap or a park. `ex` executes an instruction. -/
def fragReady (ex : Instr → State → Host.Outcome State Fault Refusal) (s : State) (key frag : Nat) : Bool :=
  begins s key frag && (match fetchFrag s key frag with
    | .settled s1 => group? s1 key != group? s key
    | .run i s1 => match ex i (tried s1 key frag) with
      | .next s2 => group? s2 key != group? (tried s key frag) key
      | _ => false)

/-- Prepare an act: fetch and decode, take an event as it is, or select what a quarter issues. -/
def prepare (ex : Instr → State → Host.Outcome State Fault Refusal) (s : State) : Act → Ready
  | .issue key frag => fetchFrag s key frag
  | .wake key frag => if begins s key frag then .settled s else fetchFrag s key frag
  | .pair key frag pc mask => if standsAt s key frag pc mask then fetchFrag s key frag else .settled s
  | .replay key park => fetchParked s key park
  | .stream team => fetchStream s team
  | .cycle k q => .settled (issueQuarter s (fragReady ex s) k q)
  | .event i => if isEvent i then .run i { s with cur := .idle } else .settled s

/-- An act that the free schedule draws: a fragment begins an instruction only when a cycle of its quarter selects it (08
R168). DESIGN CHOICE, log entry 3. -/
def prepareDrawn (ex : Instr → State → Host.Outcome State Fault Refusal) (s : State) : Act → Ready
  | .issue key frag => prepare ex s (.wake key frag)
  | .pair key frag _ _ => prepare ex s (.wake key frag)
  | a => prepare ex s a

/-- Prepare what runs next. DESIGN CHOICE, log entry 3. -/
def prepareNext (ex : Instr → State → Host.Outcome State Fault Refusal) (s0 : State) : Ready :=
  let s := rereadContexts s0
  match s.agenda with
  | a :: rest => prepare ex { s with agenda := rest, turn := s.turn + 1 } a
  | [] => prepareDrawn ex { s with turn := s.turn + 1 } (Config.schedule s.turn)

/-! ### Placing one instruction -/

/-- The 64 bytes of a line with one instruction in slot 0, marked as a target (R33 to R35).
DESIGN CHOICE, log entry 130. -/
def lineWith (stream : Bool) (word : IWord) : List Byte :=
  let slots := toBytes 12 word.toNat ++ List.replicate 48 0
  slots ++ toBytes 4 (2 ^ 27 + 2 ^ 20 * b2n stream + parityOf slots)

/-- The word is read as a stream instruction. -/
def readsAsStream (word : IWord) : Bool :=
  match decode true word with
  | .ok _ => true
  | .error _ => false

/-- A header whose kernel allows the instruction (18 R364). -/
def headerFor (word : IWord) : Header :=
  match rawDecode word with
  | some i => if kernelAllows { geomFlag := true, vertLimit := 1024, primLimit := 1024 } i
      then { geomFlag := true, vertLimit := 1024, primLimit := 1024 } else { fragFlag := true }
  | none => {}

/-- Place an instruction: its line at physical address 0 of a local region mapped to die 0, a context with a translation
for it, and a team of one group of eight lanes on core 0 with all registers, or its sequencer, that runs next.
DESIGN CHOICE, log entry 5. -/
def placeWord (s : State) (nbits w : Nat) : State :=
  let word : IWord := BitVec.ofNat 96 (w % 2 ^ nbits)
  let stream := readsAsStream word
  let t := s.uid
  let key := groupKey t 0
  let hdr := headerFor word
  let seq : Option Seq := if stream then some {} else none
  let tm : Team := { ctx := 1, hdr := hdr, seq := seq }
  let f : Fragment := { mask := 0xFF }
  let g : Group := { team := t, nv := 256, nk := 64, lstat := (upto 8).map (fun l => (l, 0x8000)), frags := [(0, f)],
                     shade := if hdr.fragFlag then some {} else none }
  let leaf : Xlat := { base := 0, size := 16, leaf := 0x1F }
  let k := core s 0
  let s1 := setCtl (writeBytes s 0 (lineWith stream word)) 0x1000 1
  let s2 := setCore s1 0 { k with tlb := (1, leaf) :: k.tlb, ilines := Maps.erase 0 k.ilines }
  let s3 := setGroup (setTeam s2 t tm) key g
  let s4 := if (Maps.find? 1 s.contexts).isSome then s3 else setContext s3 1 {}
  { s4 with uid := t + 1, agenda := (if stream then Act.stream t else Act.issue key 0) :: s.agenda }

end Ops

end Sys2Proof.Machine
end

