-- ==== Sys2Proof/Machine/Switch.lean ====
section
/-! DEFINITION. Switching a team out (21 R407, R408; 14 R289; 16 R325) and resuming it (21 R409; 23 R416). The image of a
switched-out team stays in its Team and Group records, marked `out`. -/

namespace Sys2Proof.Machine

open Sys2Proof.Bits
open Ops

namespace Ops

/-! ### Steps 1 to 3: what a switch-out waits for -/

/-- The keys of a team's groups, of those that have ended too. -/
def keysOf (t : Nat) : List Nat := (upto 32).map (groupKey t)

/-- Requests of a group that the gather station has not answered. -/
def nevRequests (k : Core) : List NevReq := k.slots.flatMap (fun q => q.reqs) ++ k.ntiles.flatMap (fun t => t.rows) ++ k.nspill

/-- A wait that is finished first is under way: `rflush`, `publish`, a commit wait, a load between its halves, or mode requests. -/
def finishing (s : State) (t : Nat) : Bool :=
  (groupsOf s t).any (fun e => awaitsBinner s e.1 || e.2.frags.any (fun f => finishes f.2.stage) || e.2.parked.any (fun q => finishes q.stage))

/-- The accesses and transform requests of a team's groups are done. -/
def accessesDone (s : State) (tm : Team) (keys : List Nat) : Bool :=
  s.stores.all (fun p => !keys.contains p.group) &&
    ((core s tm.core).xf ++ (core s tm.core).xfWait).all (fun r => !keys.contains r.group)

/-- Every network evaluation request of a team's groups has its result, of those that have ended too. -/
def nevalsDone (s : State) (tm : Team) (t : Nat) : Bool :=
  (groupsOf s t).all (fun e => e.2.windows.all (fun w => w.nev.isNone || w.ready)) &&
    (nevRequests (core s tm.core)).all (fun r => !(keysOf t).contains r.group)

/-- The sequencer has no granted operation left. -/
def seqStopped (tm : Team) : Bool := match tm.seq with | some q => !q.granted | none => true

/-- Active copies into a team's scratch, by cluster: they need remap entries (R408). -/
def imageCopies (t : Nat) (k : Cluster) : List Nat :=
  (k.copies.filter (fun x => x.active && !copyLanded x && (ctlDspace x == 1 || ctlDspace x == 2) && x.dteam == t)).map (fun x => x.id)

/-- Every cluster has the remap entries that its copies need. -/
def remapsFree (s : State) (t : Nat) : Bool :=
  s.clusters.all (fun e => decide (e.2.remaps.length + (imageCopies t e.2).length ≤ 16))

/-! ### Steps 4 to 7 -/

/-- The lanes that wait in join entries. -/
def joinedLanes (js : List (Nat × Join)) : Nat := js.foldl (fun m e => m ||| e.2.arrived) 0

/-- A group in region n is saved to restart at its `rgn`: its live-in registers, its predicates, and the recorded split
table, link and LIVE mask (R407 step 4, R409). DEDUCED, log entry 67. -/
def restartGroup (r : Region) (g : Group) : Group :=
  let mask := maskOf ((lanesOf r.live).filter (fun l => !(joinedLanes r.joins).testBit l))
  { g with
    v := g.v.filter (fun e => r.vmask.testBit (e.1 % 256))
    k := g.k.filter (fun e => r.kmask.testBit e.1)
    windows := [], parked := [], region := none, late := [], stopped := [], fetchPark := none, fetchRep := 0
    joins := r.joins
    frags := [(lowLane mask, { mask := mask, pc := r.pc, link := r.link })] }

/-- A waiting instruction is saved as not executed, but for `rparw` after its arrival (R407 step 5). DEDUCED, log entry 132. -/
def cancelStage (st : Stage) : Stage := if inOwn st then st else .fresh

/-- The same of a fragment. -/
def cancelFrag (f : Fragment) : Fragment := if inOwn f.stage then f else { f with stage := .fresh, read := none }

/-- The image of a group. -/
def imageOf (g : Group) : Group :=
  let g1 : Group := match g.region with
    | some r => restartGroup r g
    | none => { g with
      frags := g.frags.map (fun e => (e.1, cancelFrag e.2))
      parked := g.parked.map (fun q => { q with stage := cancelStage q.stage }) }
  { g1 with promoted := false, passed := 0, modeDone := [] }

/-- The releases that waiting instructions of a group hold. -/
def waitingRels (g : Group) : List Nat :=
  (g.frags.map (fun e => e.2.stage) ++ g.parked.map (fun q => q.stage)).filterMap (fun st => match st with
    | .release id => some id
    | .sending id => some id
    | _ => none)

/-- The tickets that fragments of a group hold. -/
def ticketsOf (g : Group) : List Nat :=
  g.frags.filterMap (fun e => match e.2.stage with | .ticket id => some id | .handle id => some id | _ => none)

/-- Places among waiters are lost. DEDUCED, log entry 132. -/
def loseTickets (keys tickets : List Nat) (k : Cluster) : Cluster :=
  { k with
    banks := k.banks.map (fun e => (e.1, { e.2 with
      waits := e.2.waits.filter (fun w => !keys.contains w.group)
      reqs := e.2.reqs.filter (fun r => match r.who with | some w => !keys.contains w.1 | none => true) }))
    handles := k.handles.map (fun e => (e.1, { e.2 with waits := e.2.waits.filter (fun w => !tickets.contains w.1) })) }

/-- Take the remap entries of a team. -/
def takeRemaps (t : Nat) (k : Cluster) : Cluster := { k with remaps := k.remaps ++ imageCopies t k }

/-- A store that a holder near the team may have shown its lanes is still on its way to the home (11 R216): a lane that read
it there must find it wherever its team resumes (R213). DEDUCED, log entry 138. -/
def readsAhead (s : State) (core : Nat) : Bool :=
  s.copies.any (fun c => (c.holder == clusterOf core || c.holder == l2Holder (dieOf core)) && !c.dirty.isEmpty)

/-- Copies near a core that may be older than what a lane has read elsewhere serve nothing any more: clean ones are dropped, and
dirty ones serve only their forwards (11 R213). DEDUCED, log entry 138. -/
def dropOlder (core : Nat) (s : State) : State :=
  let near (c : LineCopy) : Bool := c.holder == clusterOf core || c.holder == l2Holder (dieOf core)
  { s with copies := (s.copies.filter (fun c => !(near c && c.dirty.isEmpty))).map (fun c => if near c then { c with expiry := 0 } else c) }

/-- The most bytes of the save area that the image of a team takes (R407). -/
def imageSize (tm : Team) : Nat := 2 ^ 21 + tm.hdr.scratch

/-- Some bytes of a context's save area become the image of a team, in a layout that is not architectural: as many as an
image may take for each team of the context that is out, at a place and with contents that are left open (R407). Memory there that
cannot be reached ends the context (26 R437, R443 to R445). Answers the place and the length.
DESIGN CHOICE, log entry 66. -/
def writeImage (s : State) (tm : Team) : State × Nat × Nat :=
  match Maps.find? tm.ctx s.contexts with
  | none => (s, 0, 0)
  | some c =>
    let n := Config.freeNat s.fresh % (imageSize tm + 1)
    let room := (s.teams.filter (fun e => e.2.ctx == tm.ctx && (e.2.out || e.2.tkey == tm.tkey))).foldl (fun m e => m + imageSize e.2) 0
    let at_ := Config.freeNat (s.fresh + 1) % (room - n + 1)
    let fb := freeBytes { s with fresh := s.fresh + 2 } n
    (if reachable s (dieOf tm.core) (c.save + at_) n then hubWrite fb.2 (c.save + at_) fb.1 else terminate s tm.ctx 0x1F, c.save + at_, n)

/-- Save a team and free its places, unless its save area cannot be reached; a sequencer that a record has stopped stays stopped until
its replay. DESIGN CHOICE, log entry 66; DEDUCED, log entry 160. -/
def saveTeam (s0 : State) (t : Nat) (tm : Team) : State :=
  let saved := writeImage s0 tm
  let s := saved.1
  if (team? s t).isNone then s else
  let gs := groupsOf s t
  let keys := gs.map Prod.fst
  let tickets := gs.flatMap (fun e => ticketsOf e.2)
  let gone := gs.flatMap (fun e => waitingRels e.2)
  let tm1 : Team := { tm with out := true, stopping := false, image := saved.2, seq := tm.seq.map (fun q => { q with requesting := false }) }
  let s1 : State := { s with
    clusters := s.clusters.map (fun e => (e.1, takeRemaps t (loseTickets keys tickets e.2)))
    sets := s.sets.map (fun e => (e.1, { e.2 with freers := e.2.freers.filter (fun w => !keys.contains w.2) }))
    rels := s.rels.filter (fun r => !gone.contains r.id)
    groups := s.groups.map (fun e => if e.2.team = t then (e.1, imageOf e.2) else e) }
  let s2 := setTeam s1 t tm1
  kickAll (settleSwitches s2)

/-- TEAM_SWITCH_OUT. DESIGN CHOICE, log entry 66. -/
def switchOut (s : State) (t : Nat) : State :=
  match team? s t with
  | none => s
  | some tm =>
    let keys := keysOf t
    if !tm.stopping || tm.out then s
    else if finishing s t then s
    else if !nevalsDone s tm t then kickSlots s tm.core (fun r => keys.contains r.group)
    else if !accessesDone s tm keys || !seqStopped tm || !remapsFree s t || readsAhead s tm.core then s
    else saveTeam s t tm

/-! ### Resume -/

/-- A tile that no resident team holds and that still carries a team's tag for logical tile l (R416). -/
def taggedTile (tm : Team) (k l : Nat) (s : State) : Option Nat :=
  (freeTiles s k).find? (fun p =>
    let a := Maps.get {} p (core s k).tags
    a.valid && a.ctx == tm.ctx && a.tkey == tm.tkey && a.ltile == l)

/-- The tile for logical tile l: the one with its tag, else any that no resident team holds, but for those that a later logical
tile finds by its tag (R416). -/
def resumeTile (tm : Team) (k l : Nat) (s : State) : Nat × State :=
  match taggedTile tm k l s with
  | some p => (p, s)
  | none => pickOne s ((freeTiles s k).filter (fun p =>
      !(upto tm.hdr.acc).any (fun j => decide (l < j) && taggedTile tm k j s == some p)))

/-- Map the logical tiles of a resumed team in order. -/
def resumeTiles (t k : Nat) : Nat → State → State
  | 0, s => s
  | n + 1, s =>
    let s1 := resumeTiles t k n s
    match team? s1 t with
    | none => s1
    | some tm =>
      let r := resumeTile tm k n s1
      setTeam r.2 t { tm with tiles := tm.tiles ++ [r.1] }

/-- Give a resumed group a slot. Its wait for the arbiter is counted from now on, as if it had issued (08 R168). DESIGN CHOICE, log
entry 177. -/
def resumeGroup (k base : Nat) (s : State) (e : Nat × Group) : State :=
  let r := pickOne s (freeSlots s k ((base + e.2.idx) % 4))
  let fs := e.2.frags.map (fun f => (f.1, { f.2 with since := s.turn }))
  setGroup r.2 e.1 { e.2 with slot := r.1, frags := fs, issuedAt := s.turn }

/-- Place one team again. An ended member of a co-resident set takes only its scratch. -/
def resumeOne (s : State) (t : Nat) (tm : Team) (k base : Nat) : State :=
  let units := (freeUnits s (clusterOf k)).take (scratchUnits tm.hdr)
  let tm1 : Team := { tm with core := k, base := base, units := units, tiles := [], out := false }
  let slot := pickOne s (freeSeqSlots s k)
  let tm2 : Team := { tm1 with seq := tm1.seq.map (fun q => { q with slot := slot.1 }) }
  let waiting := groupsOf s t
  let hide (e : Nat × Group) : Nat × Group := if e.2.team = t then (e.1, { e.2 with slot := 512 }) else e
  let s1 : State := setTeam { slot.2 with groups := slot.2.groups.map hide } t tm2
  let s2 := resumeTiles t k (if tm.ended then 0 else tm.hdr.acc) s1
  let s3 := waiting.foldl (resumeGroup k base) s2
  let s4 := modLaunch s3 tm.launch (fun l => { l with ran := l.ran ||| 2 ^ dieOf k })
  { s4 with clusters := s4.clusters.map (fun e => (e.1, { e.2 with
      remaps := e.2.remaps.filter (fun i => !(e.2.copies.any (fun x => x.id == i && x.dteam == t))) })) }

/-- The teams that resume together: the team, or its whole co-resident set. -/
def resumeSet (s : State) (t : Nat) (tm : Team) : List (Nat × Team) :=
  if tm.cor = 0 then [(t, tm)]
  else s.teams.filter (fun e => e.2.cor != 0 && e.2.launch == tm.launch && e.2.set == tm.set)

/-- Cores for a set: `k` for the first team, different ones of its cluster for the others. -/
def resumeCores (s : State) (k base : Nat) (ts : List (Nat × Team)) : Option (List Nat × State) :=
  match ts with
  | [] => none
  | x :: xs =>
    let others := ((upto 8).map (fun i => clusterOf k * 8 + i)).filter (fun j => j != k && coreFits s j x.2.hdr base)
    if others.length < xs.length then none
    else
      let r := pickMany xs.length others s
      some (k :: r.1, r.2)

/-- No group of a team has read a later time or horizon than a die has (24 R430). DEDUCED, log entry 145. -/
def timeFits (s : State) (d t : Nat) : Bool :=
  (groupsOf s t).all (fun e => decide (e.2.almE ≤ (die s d).e) && decide (e.2.almL ≤ (die s d).l) && decide (e.2.almH ≤ (die s d).h))

/-- Every member of a set is out, its groups have read no later time than the die has, and its scratch fits into the cluster
together. -/
def resumeFits (s : State) (k base : Nat) (ts : List (Nat × Team)) : Bool :=
  ts.all (fun e => e.2.out) && ts.all (fun e => timeFits s (dieOf k) e.1) && ts.all (fun e => coreFits s k e.2.hdr base) &&
    decide ((ts.map (fun e => scratchUnits e.2.hdr)).foldl (fun a b => a + b) 0 ≤ (freeUnits s (clusterOf k)).length)

/-- TEAM_RESUME: every member of a set gets the base quarter of the row. Its image is read; memory there that cannot be reached any
more ends the context (26 R437, R443 to R445). DEDUCED, log entry 67; DESIGN CHOICE, log entries 66, 104. -/
def resumeTeam (s : State) (t k base : Nat) : State :=
  match team? s t with
  | none => s
  | some tm =>
    let ts := resumeSet s t tm
    if s.resumes.head? ≠ some tm.ctx ∨ 4 ≤ base ∨ !resumeFits s k base ts then s
    else if ts.any (fun e => !reachable s (dieOf k) e.2.image.1 e.2.image.2) then terminate s tm.ctx 0x1F
    else match resumeCores s k base ts with
      | none => s
      | some (ks, s1) =>
        let s2 := (ts.zip ks).foldl (fun s e => dropOlder e.2 (resumeOne s e.1.1 e.1.2 e.2 base)) s1
        settleSwitches s2

end Ops

/-- TEAM_SWITCH_OUT (R407). -/
def execTeamSwitchOut (team : Nat) (s : State) : Host.Outcome State Fault Refusal := .next (switchOut s team)

/-- TEAM_RESUME (R409). -/
def execTeamResume (team core base : Nat) (s : State) : Host.Outcome State Fault Refusal := .next (resumeTeam s team core base)

end Sys2Proof.Machine
end

