-- ==== Sys2Proof/Machine/Events.lean ====
section
/-! DEFINITION. Events of the hub and of the outside world: event records (21 R388), control-region requests (26 R438), host
accesses (11 R224, R231; 24 R425), Phoath links and peers (26 R443), array errors (R444), boot and power (R446 to R448),
and refetches of lines (02 R39). -/

namespace Sys2Proof.Machine

open Sys2Proof.Bits
open Ops

namespace Ops

/-! ### The event ring (21 R388) -/

/-- The oldest record of a context that waits for ring space. -/
def waitingRec (s : State) (ctx : Nat) : Option Rec := s.recs.find? (fun r => r.ctx == ctx && r.seq.isNone)

/-- Ring memory that cannot be reached terminates the context; of a dead one, the records are lost.
DEDUCED, log entry 111. -/
def ringBroken (s : State) (ctx : Nat) (c : Context) : State :=
  if c.dead.isNone then terminate s ctx 0x1F
  else
    let s1 := setContext { s with recs := s.recs.filter (fun r => !(r.ctx == ctx && r.seq.isNone)) } ctx { c with ringCt := none }
    finishLeaving s1 ctx

/-- The hub can reach memory at a physical address. -/
def hubReaches (s : State) (pa n : Nat) : Bool := windowOf pa != .control && reachable s 0 pa n

/-- Step 2: the record gets its sequence number and is written. One that no agent waits for is then done with.
DEDUCED, log entry 110. -/
def putRecord (s : State) (ctx : Nat) (c : Context) (r : Rec) (w : Nat) : State :=
  let at_ := c.evq + 64 * (w % 2 ^ c.evlog)
  let ct := hubCt s at_ 64
  let s1 := hubWrite s at_ (recBytes r c.seq)
  let keep : List Rec := s1.recs.map (fun x => if x.id = r.id then { x with seq := some c.seq } else x)
  setContext { s1 with recs := keep.filter (fun x => !(x.id == r.id && x.agent == .none)) } ctx
    { c with seq := (c.seq + 1) % 2 ^ 32, ringCt := some ct }

/-- EVENT_RECORD_WRITE: one move of a context's event ring; it waits while a write of the hub waits for a migration, so that
its stores keep their order. The index and the record's place are reached or the context ends. DEDUCED, log entries 110, 111. -/
def moveRing (s : State) (ctx : Nat) : State :=
  match Maps.find? ctx s.contexts with
  | none => s
  | some c =>
    if hubWaits s then s
    else if !hubReaches s c.evidx 16 then ringBroken s ctx c
    else
      let w := seenNat s c.evidx 8
      let r := seenNat s (c.evidx + 8) 8
      match c.ringCt with
      | some ct =>
        if !passed s 0 ct then s
        else finishLeaving (setContext (hubWrite s c.evidx (toBytes 8 (w + 1))) ctx { c with ringCt := none }) ctx
      | none => match waitingRec s ctx with
        | none => s
        | some x =>
          if 2 ^ c.evlog ≤ (w + 2 ^ 64 - r) % 2 ^ 64 then s
          else if !hubReaches s (c.evq + 64 * (w % 2 ^ c.evlog)) 64 then ringBroken s ctx c
          else putRecord s ctx c x w

/-! ### Host accesses (11 R224, R231; 24 R425) -/

/-- Pieces of a range, one for each 64 KiB frame. -/
def frames (addr n : Nat) : List Nat := (cutAt (2 ^ 16) addr n).map Prod.fst

/-- The range lies in mapped local device memory. -/
def hostReaches (s : State) (addr n : Nat) : Bool :=
  s.power != 4 && decide (addr + n ≤ 2 ^ 40) && ((cutAt 128 addr n).all (fun p => (homeDie s 0 p.1).isSome))

/-- HOST_MEM_WRITE. DEDUCED, log entries 47, 113. -/
def hostWrite (s : State) (addr : Nat) (bs : List Byte) : State :=
  if !hostReaches s addr bs.length then s
  else if (frames addr bs.length).any (stampedPa s) then devlog s 0x82 0 0 0
  else if (frames addr bs.length).any (migrating s) then s
  else
    let ct := (cutAt 128 addr bs.length).foldl (fun m p => max m (hubCt s p.1 p.2)) s.hostCt
    { hubWrite s addr bs with hostCt := ct }

/-- Lines of a range that no holder may keep a copy of are left out: those of stamped pages (24 R422). -/
def plainLines (s : State) (addr n : Nat) : List Nat :=
  ((cutAt 128 addr n).map (fun p => p.1 / 128)).filter (fun l => (Maps.find? l s.versions).isNone && !stampedPa s (l * 128))

/-- HOST_MEM_READ: the host may then hold the lines; an address in the control region is a load through BAR0 (26 R438, R442).
DEDUCED, log entry 114. -/
def hostRead (s : State) (addr n : Nat) : State :=
  if windowOf addr = .control then
    (if s.power = 4 then s else { s with hostData := toBytes n (ctlRead s (addr % 2 ^ 40) n) })
  else if !hostReaches s addr n || (frames addr n).any (stampedMoves s) then s
  else { s with hostData := seenBytes s addr n,
                hostCached := (plainLines s addr n).foldl (fun m l => if m.contains l then m else l :: m) s.hostCached }

/-- HOST_CACHE_INVALIDATE: a host write to host memory; the device's copy goes first. DEDUCED, log entry 113. -/
def hostStore (s : State) (addr : Nat) (bs : List Byte) : State :=
  if windowOf addr ≠ .host ∨ windowOf (addr + bs.length - 1) ≠ .host then s
  else { writeBytes s addr bs with hostLines := s.hostLines.filter (fun e => !meets (e.1 * 128) 128 addr bs.length) }

/-! ### Phoath links and peers (26 R443) -/

/-- PHOATH_FLIT_RESEND: the current flit of a port, or a new one, is sent again; the eighth resend takes the port down. Which
flit it is, the schedule leaves open. The resends count on die 0. DEDUCED, log entry 115. -/
def resendFlit (s : State) (port : Nat) : State :=
  if 12 ≤ port ∨ s.portsDown.contains port then s
  else
    let r := drawFree s
    let n := if Config.freeNat r.1 % 2 = 0 then Maps.get 0 port s.resends + 1 else 1
    let s1 := countError { r.2 with resends := Maps.set 0 port n s.resends } 0 5
    if n < 8 then s1 else devlog { s1 with portsDown := port :: s1.portsDown } 0x85 0 0 port

/-- A peer's access comes through a live port, of which minimal mode has none, to local device memory (26 R443, R447). -/
def peerReaches (s : State) (addr n : Nat) : Bool :=
  s.ready && (upto 12).any (fun p => !s.portsDown.contains p) && decide (addr + n ≤ 2 ^ 40) && ((cutAt 128 addr n).all (fun p => (homeDie s 0 p.1).isSome))

/-- The home grants a lease to the peers, as one holder (R443, 11 R215). DEDUCED, log entry 115. -/
def leasePeer (s : State) (line : Nat) : State :=
  let home := (homeDie s 0 (line * 128)).getD 0
  if leaseTicks s home = 0 || migrating s (line * 128) then s
  else putCopy s { holder := 72, line := line, bytes := readBytes s (line * 128) 128, expiry := (die s home).l + leaseTicks s home }

/-- An atomic of a peer, as one step at the home: answers the old value (12 R245 to R247). A failed comparison writes
nothing. -/
def remoteStep (s : State) (addr n : Nat) (f : Nat → Option Nat) : State :=
  if addr % n ≠ 0 ∨ !peerReaches s addr n ∨ migrating s addr then s
  else
    let old := readNat s addr n
    { (match f old with | some v => hubWrite s addr (toBytes n v) | none => s) with hostData := toBytes n old }

/-- An access from a peer. -/
def serveRemote (s : State) : RemoteAccess → State
  | .load addr n =>
    if !peerReaches s addr n || (frames addr n).any (stampedMoves s) then s
    else { (plainLines s addr n).foldl leasePeer s with hostData := seenBytes s addr n }
  | .store addr bs =>
    if !peerReaches s addr bs.length || (frames addr bs.length).any (migrating s) then s else hubWrite s addr bs
  | .atomic addr n op b signed =>
    if !(n == 4 || n == 8) || decide (7 < op) then s
    else
      let fmt := (if n = 8 then 3 else 2) + (if signed then 0 else 4)
      remoteStep s addr n (fun old => some (atomInt op fmt old (b % 2 ^ (8 * n))))
  | .compare addr n expected new =>
    if !(n == 4 || n == 8) then s
    else remoteStep s addr n (fun old => if old = expected % 2 ^ (8 * n) then some (new % 2 ^ (8 * n)) else none)
  | .float addr bf op b =>
    if 2 < op then s else remoteStep s addr 4 (fun old => some (atomFloat op (if bf then 9 else 10) old (b % 2 ^ 32)))

/-! ### Array errors (R444) -/

/-- The unit of a lasting error is marked. DESIGN CHOICE, log entry 116; DEDUCED, log entry 117. -/
def markUnit (s : State) (e : EccError) : State :=
  match e.unit with
  | .talusLine => markLine s e.index
  | .sramBank =>
    let c := e.index / 32
    kickBanks (setBank s c (e.index % 32) { bank (cluster s c) (e.index % 32) with failed := true }) c
  | .core => setCore s e.index { core s e.index with failed := true }
  | .l2Slice => setDie s e.index { die s e.index with l2Failed := true }
  | .port => { s with portsDown := if s.portsDown.contains e.index then s.portsDown else e.index :: s.portsDown }

/-- The place of a unit in the `%core` layout. -/
def unitPlaceOf (e : EccError) : Nat :=
  match e.unit with
  | .talusLine => 64 * e.die
  | .sramBank => 8 * (e.index / 32)
  | .core => e.index
  | .l2Slice => 64 * e.index
  | .port => 0

/-- The die that a unit belongs to, none for one that does not exist; a line of local device memory is its home's, a port of the
hub counts on die 0. DEDUCED, log entry 117. -/
def unitDie (s : State) (e : EccError) : Option Nat :=
  match e.unit with
  | .talusLine => if windowOf (e.index * 128) = .device then homeDie s 0 (e.index * 128) else none
  | .sramBank => if e.index < 2048 then some (e.index / 256) else none
  | .core => if e.index < 512 then some (e.index / 64) else none
  | .l2Slice => if e.index < 8 then some e.index else none
  | .port => if e.index < 12 then some 0 else none

/-- ECC_RETRY. The unit code of the log record is left open. DESIGN CHOICE, log entry 116. -/
def retryArray (s : State) (e : EccError) : State :=
  if unitDie s e ≠ some e.die then s
  else if !e.lasting then (if e.counter < 6 then countError s e.die e.counter else s)
  else
    let r := drawFree s
    let s1 := markUnit (countError r.2 e.die 6) e
    let s2 := devlog s1 0x83 (if (Maps.find? e.ctx s.contexts).isSome then e.ctx else 0) (unitPlaceOf e) (Config.freeNat r.1 % 2 ^ 64)
    terminate s2 e.ctx 0x1F

end Ops

/-- LINE_PARITY_REFETCH (R39): a core's copy that fails parity is dropped and fetched once more. -/
def execLineParityRefetch (core line : Nat) (s : State) : Host.Outcome State Fault Refusal :=
  .next (match Maps.find? line (Ops.core s core).ilines with
    | some bs => if parityOk bs then s else (fetchPhys s core line).2
    | none => s)

/-- EVENT_RECORD_WRITE (R388). -/
def execEventRecordWrite (ctx : Nat) (s : State) : Host.Outcome State Fault Refusal := .next (moveRing s ctx)

/-- REPLAY_RECORD (R398): a write of REPLAY with ACT = 0. -/
def execReplayRecord (ctx seq : Nat) (s : State) : Host.Outcome State Fault Refusal :=
  .next (ctlWrite s true 0x50 8 (ctx % 2 ^ 16 * 2 ^ 48 + seq % 2 ^ 32))

/-- ABANDON_RECORD (R398): a write of REPLAY with ACT = 1. -/
def execAbandonRecord (ctx seq : Nat) (s : State) : Host.Outcome State Fault Refusal :=
  .next (ctlWrite s true 0x50 8 (ctx % 2 ^ 16 * 2 ^ 48 + 2 ^ 32 + seq % 2 ^ 32))

/-- TLB_SWEEP_START (R394): a write of INVCTL. -/
def execTlbSweepStart (value : Nat) (s : State) : Host.Outcome State Fault Refusal := .next (ctlWrite s true 0x48 8 value)

/-- TLB_SWEEP_DONE (R394). -/
def execTlbSweepDone (s : State) : Host.Outcome State Fault Refusal := .next (sweepDone s)

/-- PREEMPT_REQUEST (R406): a write of PREEMPT. -/
def execPreemptRequest (value : Nat) (s : State) : Host.Outcome State Fault Refusal := .next (ctlWrite s true 0x60 8 value)

/-- RESUME_REQUEST (R406): a write of RESUME. -/
def execResumeRequest (value : Nat) (s : State) : Host.Outcome State Fault Refusal := .next (ctlWrite s true 0x68 8 value)

/-- MIGRATION_GO (R227): a write of MIGCTL. -/
def execMigrationGo (value : Nat) (s : State) : Host.Outcome State Fault Refusal := .next (ctlWrite s true 0x88 8 value)

/-- MIGRATION_SWAP (R226). -/
def execMigrationSwap (s : State) : Host.Outcome State Fault Refusal := .next (migrationSwap s)

/-- BANK_MODE_REQUEST (R198): a host write of BANKMODE. -/
def execBankModeRequest (cluster bank value : Nat) (s : State) : Host.Outcome State Fault Refusal :=
  .next (if cluster < 64 ∧ bank < 32 then ctlWrite s true (clusterOff cluster + 4 * bank) 4 value else s)

/-- BANK_MODE_CHANGE (R199). -/
def execBankModeChange (cluster bank : Nat) (s : State) : Host.Outcome State Fault Refusal :=
  .next (serveBank cluster bank ((Ops.bank (Ops.cluster s cluster) bank).reqs.length + 1) s)

/-- BANK_MODE_TIMEOUT (R198). -/
def execBankModeTimeout (cluster bank : Nat) (s : State) : Host.Outcome State Fault Refusal := .next (timeoutBank s cluster bank)

/-- L2CLS_WRITE (R207). -/
def execL2clsWrite (die cls value : Nat) (s : State) : Host.Outcome State Fault Refusal :=
  .next (if die < 8 ∧ cls < 4 then ctlWrite s true (dieOff die + 0x100 + 4 * cls) 4 value else s)

/-- CONTEXT_REGISTER (R439): a write of CTXCMD with OP = 1. -/
def execContextRegister (value : Nat) (s : State) : Host.Outcome State Fault Refusal :=
  .next (ctlWrite s true 0x108 8 (value - field value 0 2 + 1))

/-- CONTEXT_UNREGISTER (R439): a write of CTXCMD with OP = 2. -/
def execContextUnregister (value : Nat) (s : State) : Host.Outcome State Fault Refusal :=
  .next (ctlWrite s true 0x108 8 (value - field value 0 2 + 2))

/-- QUEUE_REGISTER (R440): a write of QCMD with OP = 1. -/
def execQueueRegister (value : Nat) (s : State) : Host.Outcome State Fault Refusal :=
  .next (ctlWrite s true 0x118 8 (value - field value 0 2 + 1))

/-- QUEUE_UNREGISTER (R440): a write of QCMD with OP = 2. -/
def execQueueUnregister (value : Nat) (s : State) : Host.Outcome State Fault Refusal :=
  .next (ctlWrite s true 0x118 8 (value - field value 0 2 + 2))

/-- MEMMAP_WRITE (R437). -/
def execMemmapWrite (entry value : Nat) (s : State) : Host.Outcome State Fault Refusal :=
  .next (if entry < 1024 then ctlWrite s true (0x1000 + 8 * entry) 8 value else s)

/-- ERROR_COUNTER_CLEAR (R444). -/
def execErrorCounterClear (die counter : Nat) (s : State) : Host.Outcome State Fault Refusal :=
  .next (if die < 8 ∧ counter < 8 then ctlWrite s true (dieOff die + 0x180 + 4 * counter) 4 0 else s)

/-- HOST_MEM_WRITE (R231). -/
def execHostMemWrite (addr : Nat) (bytes : List Byte) (s : State) : Host.Outcome State Fault Refusal := .next (hostWrite s addr bytes)

/-- HOST_MEM_READ (R231). -/
def execHostMemRead (addr count : Nat) (s : State) : Host.Outcome State Fault Refusal := .next (hostRead s addr count)

/-- HOST_CACHE_INVALIDATE (R224). DEDUCED, log entry 114. -/
def execHostCacheInvalidate (addr : Nat) (bytes : List Byte) (s : State) : Host.Outcome State Fault Refusal :=
  .next (hostStore s addr bytes)

/-- PHOATH_FLIT_RESEND (R443). -/
def execPhoathFlitResend (port : Nat) (s : State) : Host.Outcome State Fault Refusal := .next (resendFlit s port)

/-- ECC_RETRY (R444). -/
def execEccRetry (err : EccError) (s : State) : Host.Outcome State Fault Refusal := .next (retryArray s err)

/-- BOOT_START (R446). -/
def execBootStart (checks : BootChecks) (s : State) : Host.Outcome State Fault Refusal := .next (bootStart s checks)

/-- BOOT_WATCHDOG (R446). -/
def execBootWatchdog (s : State) : Host.Outcome State Fault Refusal := .next (bootWatchdog s)

/-- BOOTCTL_RESTART (R447): a host write of BOOTCTL. -/
def execBootctlRestart (value : Nat) (s : State) : Host.Outcome State Fault Refusal := .next (ctlWrite s true 0xC8 8 value)

/-- POWER_STATE_REQUEST (R448): a host write of PWRCTL. -/
def execPowerStateRequest (value : Nat) (s : State) : Host.Outcome State Fault Refusal := .next (ctlWrite s true 0x140 8 value)

/-- REGISTER_WRITE (R438): a host write of any control register. -/
def execRegisterWrite (offset size value : Nat) (s : State) : Host.Outcome State Fault Refusal :=
  .next (ctlWrite s true offset size (value % 2 ^ (8 * size)))

/-- PHOATH_REMOTE_ACCESS (R443). -/
def execPhoathRemoteAccess (access : RemoteAccess) (s : State) : Host.Outcome State Fault Refusal := .next (serveRemote s access)

end Sys2Proof.Machine
end

