-- ==== Sys2Proof/Machine/Dispatch.lean ====
section
/-! DEFINITION. The meaning of every instruction and event: one arm per constructor of Instr, in the table's order. -/

namespace Sys2Proof.Machine

def exec (i : Instr) (s : State) : Host.Outcome State Fault Refusal :=
  match i with
  | .nop h o => Sys2Proof.Machine.execNop h o s
  | .brk h o => Sys2Proof.Machine.execBrk h o s
  | .sread h o => Sys2Proof.Machine.execSread h o s
  | .swrite h o => Sys2Proof.Machine.execSwrite h o s
  | .cycrd h o => Sys2Proof.Machine.execCycrd h o s
  | .hint h o => Sys2Proof.Machine.execHint h o s
  | .trap h o => Sys2Proof.Machine.execTrap h o s
  | .rett h o => Sys2Proof.Machine.execRett h o s
  | .rgn h o => Sys2Proof.Machine.execRgn h o s
  | .rgnend h o => Sys2Proof.Machine.execRgnend h o s
  | .bra h o => Sys2Proof.Machine.execBra h o s
  | .brall h o => Sys2Proof.Machine.execBrall h o s
  | .brany h o => Sys2Proof.Machine.execBrany h o s
  | .brx h o => Sys2Proof.Machine.execBrx h o s
  | .call h o => Sys2Proof.Machine.execCall h o s
  | .callx h o => Sys2Proof.Machine.execCallx h o s
  | .ret h o => Sys2Proof.Machine.execRet h o s
  | .loop h o => Sys2Proof.Machine.execLoop h o s
  | .mrg h o => Sys2Proof.Machine.execMrg h o s
  | .mrgx h o => Sys2Proof.Machine.execMrgx h o s
  | .add h o => Sys2Proof.Machine.execAdd h o s
  | .addc h o => Sys2Proof.Machine.execAddc h o s
  | .sub h o => Sys2Proof.Machine.execSub h o s
  | .subb h o => Sys2Proof.Machine.execSubb h o s
  | .addi h o => Sys2Proof.Machine.execAddi h o s
  | .mul h o => Sys2Proof.Machine.execMul h o s
  | .mulhi h o => Sys2Proof.Machine.execMulhi h o s
  | .mulw h o => Sys2Proof.Machine.execMulw h o s
  | .mad h o => Sys2Proof.Machine.execMad h o s
  | .madw h o => Sys2Proof.Machine.execMadw h o s
  | .div h o => Sys2Proof.Machine.execDiv h o s
  | .rem h o => Sys2Proof.Machine.execRem h o s
  | .divrem h o => Sys2Proof.Machine.execDivrem h o s
  | .min h o => Sys2Proof.Machine.execMin h o s
  | .max h o => Sys2Proof.Machine.execMax h o s
  | .clamp h o => Sys2Proof.Machine.execClamp h o s
  | .abs h o => Sys2Proof.Machine.execAbs h o s
  | .sad h o => Sys2Proof.Machine.execSad h o s
  | .dot4 h o => Sys2Proof.Machine.execDot4 h o s
  | .dot2 h o => Sys2Proof.Machine.execDot2 h o s
  | .lea h o => Sys2Proof.Machine.execLea h o s
  | .leai h o => Sys2Proof.Machine.execLeai h o s
  | .and h o => Sys2Proof.Machine.execAnd h o s
  | .or h o => Sys2Proof.Machine.execOr h o s
  | .xor h o => Sys2Proof.Machine.execXor h o s
  | .not h o => Sys2Proof.Machine.execNot h o s
  | .tern h o => Sys2Proof.Machine.execTern h o s
  | .bini h o => Sys2Proof.Machine.execBini h o s
  | .shl h o => Sys2Proof.Machine.execShl h o s
  | .shr h o => Sys2Proof.Machine.execShr h o s
  | .sra h o => Sys2Proof.Machine.execSra h o s
  | .fsl h o => Sys2Proof.Machine.execFsl h o s
  | .fsr h o => Sys2Proof.Machine.execFsr h o s
  | .popc h o => Sys2Proof.Machine.execPopc h o s
  | .clz h o => Sys2Proof.Machine.execClz h o s
  | .brev h o => Sys2Proof.Machine.execBrev h o s
  | .bfx h o => Sys2Proof.Machine.execBfx h o s
  | .bfi h o => Sys2Proof.Machine.execBfi h o s
  | .perm h o => Sys2Proof.Machine.execPerm h o s
  | .setp h o => Sys2Proof.Machine.execSetp h o s
  | .setpi h o => Sys2Proof.Machine.execSetpi h o s
  | .fsetp h o => Sys2Proof.Machine.execFsetp h o s
  | .plop h o => Sys2Proof.Machine.execPlop h o s
  | .sel h o => Sys2Proof.Machine.execSel h o s
  | .seli h o => Sys2Proof.Machine.execSeli h o s
  | .mov h o => Sys2Proof.Machine.execMov h o s
  | .movi h o => Sys2Proof.Machine.execMovi h o s
  | .p2r h o => Sys2Proof.Machine.execP2r h o s
  | .regToPred h o => Sys2Proof.Machine.execRegToPred h o s
  | .fadd h o => Sys2Proof.Machine.execFadd h o s
  | .fsub h o => Sys2Proof.Machine.execFsub h o s
  | .fmul h o => Sys2Proof.Machine.execFmul h o s
  | .fma h o => Sys2Proof.Machine.execFma h o s
  | .fmin h o => Sys2Proof.Machine.execFmin h o s
  | .fmax h o => Sys2Proof.Machine.execFmax h o s
  | .frnd h o => Sys2Proof.Machine.execFrnd h o s
  | .fclass h o => Sys2Proof.Machine.execFclass h o s
  | .fadd2 h o => Sys2Proof.Machine.execFadd2 h o s
  | .fmul2 h o => Sys2Proof.Machine.execFmul2 h o s
  | .fma2 h o => Sys2Proof.Machine.execFma2 h o s
  | .fdot2 h o => Sys2Proof.Machine.execFdot2 h o s
  | .fex2 h o => Sys2Proof.Machine.execFex2 h o s
  | .flg2 h o => Sys2Proof.Machine.execFlg2 h o s
  | .frcp h o => Sys2Proof.Machine.execFrcp h o s
  | .frsq h o => Sys2Proof.Machine.execFrsq h o s
  | .fsin h o => Sys2Proof.Machine.execFsin h o s
  | .fcos h o => Sys2Proof.Machine.execFcos h o s
  | .cvt h o => Sys2Proof.Machine.execCvt h o s
  | .pack h o => Sys2Proof.Machine.execPack h o s
  | .unpack h o => Sys2Proof.Machine.execUnpack h o s
  | .quant h o => Sys2Proof.Machine.execQuant h o s
  | .dequant h o => Sys2Proof.Machine.execDequant h o s
  | .pack4 h o => Sys2Proof.Machine.execPack4 h o s
  | .shfl h o => Sys2Proof.Machine.execShfl h o s
  | .shfli h o => Sys2Proof.Machine.execShfli h o s
  | .vote h o => Sys2Proof.Machine.execVote h o s
  | .pmask h o => Sys2Proof.Machine.execPmask h o s
  | .lfold h o => Sys2Proof.Machine.execLfold h o s
  | .matchLanes h o => Sys2Proof.Machine.execMatchLanes h o s
  | .rdlane h o => Sys2Proof.Machine.execRdlane h o s
  | .ddx h o => Sys2Proof.Machine.execDdx h o s
  | .ddy h o => Sys2Proof.Machine.execDdy h o s
  | .rpinit h o => Sys2Proof.Machine.execRpinit h o s
  | .rparr h o => Sys2Proof.Machine.execRparr h o s
  | .rpwait h o => Sys2Proof.Machine.execRpwait h o s
  | .rparw h o => Sys2Proof.Machine.execRparw h o s
  | .rpbytes h o => Sys2Proof.Machine.execRpbytes h o s
  | .yield h o => Sys2Proof.Machine.execYield h o s
  | .yieldto h o => Sys2Proof.Machine.execYieldto h o s
  | .sleep h o => Sys2Proof.Machine.execSleep h o s
  | .exit h o => Sys2Proof.Machine.execExit h o s
  | .rendezvousArrivalCount arrival => Sys2Proof.Machine.execRendezvousArrivalCount arrival s
  | .sleepExpiry group => Sys2Proof.Machine.execSleepExpiry group s
  | .ld h o => Sys2Proof.Machine.execLd h o s
  | .st h o => Sys2Proof.Machine.execSt h o s
  | .ldacq h o => Sys2Proof.Machine.execLdacq h o s
  | .strel h o => Sys2Proof.Machine.execStrel h o s
  | .ldk h o => Sys2Proof.Machine.execLdk h o s
  | .stk h o => Sys2Proof.Machine.execStk h o s
  | .ldw h o => Sys2Proof.Machine.execLdw h o s
  | .stw h o => Sys2Proof.Machine.execStw h o s
  | .fpush h o => Sys2Proof.Machine.execFpush h o s
  | .fpop h o => Sys2Proof.Machine.execFpop h o s
  | .fpeek h o => Sys2Proof.Machine.execFpeek h o s
  | .pref h o => Sys2Proof.Machine.execPref h o s
  | .fifoWaitServed cluster bank => Sys2Proof.Machine.execFifoWaitServed cluster bank s
  | .atom h o => Sys2Proof.Machine.execAtom h o s
  | .atomcas h o => Sys2Proof.Machine.execAtomcas h o s
  | .atomf h o => Sys2Proof.Machine.execAtomf h o s
  | .red h o => Sys2Proof.Machine.execRed h o s
  | .redDet h o => Sys2Proof.Machine.execRedDet h o s
  | .redf h o => Sys2Proof.Machine.execRedf h o s
  | .redfDet h o => Sys2Proof.Machine.execRedfDet h o s
  | .dflush h o => Sys2Proof.Machine.execDflush h o s
  | .fenceAcq h o => Sys2Proof.Machine.execFenceAcq h o s
  | .fenceRel h o => Sys2Proof.Machine.execFenceRel h o s
  | .fenceAr h o => Sys2Proof.Machine.execFenceAr h o s
  | .fenceSmp h o => Sys2Proof.Machine.execFenceSmp h o s
  | .fwait h o => Sys2Proof.Machine.execFwait h o s
  | .ngath h o => Sys2Proof.Machine.execNgath h o s
  | .nscat h o => Sys2Proof.Machine.execNscat h o s
  | .cwb h o => Sys2Proof.Machine.execCwb h o s
  | .cinv h o => Sys2Proof.Machine.execCinv h o s
  | .cdisc h o => Sys2Proof.Machine.execCdisc h o s
  | .icinv h o => Sys2Proof.Machine.execIcinv h o s
  | .storePerform store => Sys2Proof.Machine.execStorePerform store s
  | .releaseComplete release => Sys2Proof.Machine.execReleaseComplete release s
  | .longLatencyResultLand group => Sys2Proof.Machine.execLongLatencyResultLand group s
  | .cpy h o => Sys2Proof.Machine.execCpy h o s
  | .cpyo h o => Sys2Proof.Machine.execCpyo h o s
  | .cpyq h o => Sys2Proof.Machine.execCpyq h o s
  | .halloc h o => Sys2Proof.Machine.execHalloc h o s
  | .hfree h o => Sys2Proof.Machine.execHfree h o s
  | .hwaitTake h o => Sys2Proof.Machine.execHwaitTake h o s
  | .hwaitPeek h o => Sys2Proof.Machine.execHwaitPeek h o s
  | .hstat h o => Sys2Proof.Machine.execHstat h o s
  | .publish h o => Sys2Proof.Machine.execPublish h o s
  | .publishSwap publish => Sys2Proof.Machine.execPublishSwap publish s
  | .copyCommandStart cluster => Sys2Proof.Machine.execCopyCommandStart cluster s
  | .copyChunkLand cluster command => Sys2Proof.Machine.execCopyChunkLand cluster command s
  | .copySignalWrite cluster command => Sys2Proof.Machine.execCopySignalWrite cluster command s
  | .spillRingRefill cluster => Sys2Proof.Machine.execSpillRingRefill cluster s
  | .cespillbWrite cluster value => Sys2Proof.Machine.execCespillbWrite cluster value s
  | .queueSlotDispatch queue => Sys2Proof.Machine.execQueueSlotDispatch queue s
  | .teamStart launch team core base => Sys2Proof.Machine.execTeamStart launch team core base s
  | .launchCompletionRecord launch => Sys2Proof.Machine.execLaunchCompletionRecord launch s
  | .issueCycle core quarter => Sys2Proof.Machine.execIssueCycle core quarter s
  | .issuePriorityPromotion group => Sys2Proof.Machine.execIssuePriorityPromotion group s
  | .xfPipeGrant core => Sys2Proof.Machine.execXfPipeGrant core s
  | .xfPipeReply core => Sys2Proof.Machine.execXfPipeReply core s
  | .xfCvt h o => Sys2Proof.Machine.execXfCvt h o s
  | .xfQuant h o => Sys2Proof.Machine.execXfQuant h o s
  | .xfDequant h o => Sys2Proof.Machine.execXfDequant h o s
  | .xfRkey h o => Sys2Proof.Machine.execXfRkey h o s
  | .xfHash h o => Sys2Proof.Machine.execXfHash h o s
  | .xfPenc h o => Sys2Proof.Machine.execXfPenc h o s
  | .mlda h o => Sys2Proof.Machine.execMlda h o s
  | .mldb h o => Sys2Proof.Machine.execMldb h o s
  | .mldbs h o => Sys2Proof.Machine.execMldbs h o s
  | .mscale h o => Sys2Proof.Machine.execMscale h o s
  | .mma h o => Sys2Proof.Machine.execMma h o s
  | .mmaBat h o => Sys2Proof.Machine.execMmaBat h o s
  | .mzero h o => Sys2Proof.Machine.execMzero h o s
  | .mstacc h o => Sys2Proof.Machine.execMstacc h o s
  | .mldacc h o => Sys2Proof.Machine.execMldacc h o s
  | .mloop h o => Sys2Proof.Machine.execMloop h o s
  | .marr h o => Sys2Proof.Machine.execMarr h o s
  | .mwait h o => Sys2Proof.Machine.execMwait h o s
  | .mend h o => Sys2Proof.Machine.execMend h o s
  | .matrixArbiterGrant core => Sys2Proof.Machine.execMatrixArbiterGrant core s
  | .acctagWrite core tile value => Sys2Proof.Machine.execAcctagWrite core tile value s
  | .accWindowWrite core tile offset value => Sys2Proof.Machine.execAccWindowWrite core tile offset value s
  | .neval h o => Sys2Proof.Machine.execNeval h o s
  | .nevstatCnt h o => Sys2Proof.Machine.execNevstatCnt h o s
  | .nevstatKick h o => Sys2Proof.Machine.execNevstatKick h o s
  | .nevalTimerExpiry core slot => Sys2Proof.Machine.execNevalTimerExpiry core slot s
  | .nevalTileFire core => Sys2Proof.Machine.execNevalTileFire core s
  | .nevalLayer core tile => Sys2Proof.Machine.execNevalLayer core tile s
  | .nevalLanding core tile => Sys2Proof.Machine.execNevalLanding core tile s
  | .nvspillbWrite core value => Sys2Proof.Machine.execNvspillbWrite core value s
  | .ssnew h o => Sys2Proof.Machine.execSsnew h o s
  | .ssadd h o => Sys2Proof.Machine.execSsadd h o s
  | .ssbuild h o => Sys2Proof.Machine.execSsbuild h o s
  | .ssbind h o => Sys2Proof.Machine.execSsbind h o s
  | .ssrebind h o => Sys2Proof.Machine.execSsrebind h o s
  | .ssfree h o => Sys2Proof.Machine.execSsfree h o s
  | .ssget h o => Sys2Proof.Machine.execSsget h o s
  | .emitv h o => Sys2Proof.Machine.execEmitv h o s
  | .emit h o => Sys2Proof.Machine.execEmit h o s
  | .emitsp h o => Sys2Proof.Machine.execEmitsp h o s
  | .rflush h o => Sys2Proof.Machine.execRflush h o s
  | .fin h o => Sys2Proof.Machine.execFin h o s
  | .fout h o => Sys2Proof.Machine.execFout h o s
  | .fdep h o => Sys2Proof.Machine.execFdep h o s
  | .disc h o => Sys2Proof.Machine.execDisc h o s
  | .binnerInsert die => Sys2Proof.Machine.execBinnerInsert die s
  | .flushComplete set => Sys2Proof.Machine.execFlushComplete set s
  | .fragmentLaunch set core base => Sys2Proof.Machine.execFragmentLaunch set core base s
  | .blendApply set sample => Sys2Proof.Machine.execBlendApply set sample s
  | .passEnd set => Sys2Proof.Machine.execPassEnd set s
  | .alm h o => Sys2Proof.Machine.execAlm h o s
  | .almhz h o => Sys2Proof.Machine.execAlmhz h o s
  | .stcm h o => Sys2Proof.Machine.execStcm h o s
  | .ldasof h o => Sys2Proof.Machine.execLdasof h o s
  | .almwait h o => Sys2Proof.Machine.execAlmwait h o s
  | .stcmRecord lane => Sys2Proof.Machine.execStcmRecord lane s
  | .horizonUpdate copies => Sys2Proof.Machine.execHorizonUpdate copies s
  | .almanacAdvance time die e l => Sys2Proof.Machine.execAlmanacAdvance time die e l s
  | .almWideTimeout group => Sys2Proof.Machine.execAlmWideTimeout group s
  | .dieSilentTimeout die => Sys2Proof.Machine.execDieSilentTimeout die s
  | .lineParityRefetch core line => Sys2Proof.Machine.execLineParityRefetch core line s
  | .eventRecordWrite ctx => Sys2Proof.Machine.execEventRecordWrite ctx s
  | .replayRecord ctx seq => Sys2Proof.Machine.execReplayRecord ctx seq s
  | .abandonRecord ctx seq => Sys2Proof.Machine.execAbandonRecord ctx seq s
  | .tlbSweepStart value => Sys2Proof.Machine.execTlbSweepStart value s
  | .tlbSweepDone => Sys2Proof.Machine.execTlbSweepDone s
  | .preemptRequest value => Sys2Proof.Machine.execPreemptRequest value s
  | .teamSwitchOut team => Sys2Proof.Machine.execTeamSwitchOut team s
  | .resumeRequest value => Sys2Proof.Machine.execResumeRequest value s
  | .teamResume team core base => Sys2Proof.Machine.execTeamResume team core base s
  | .migrationGo value => Sys2Proof.Machine.execMigrationGo value s
  | .migrationSwap => Sys2Proof.Machine.execMigrationSwap s
  | .bankModeRequest cluster bank value => Sys2Proof.Machine.execBankModeRequest cluster bank value s
  | .bankModeChange cluster bank => Sys2Proof.Machine.execBankModeChange cluster bank s
  | .bankModeTimeout cluster bank => Sys2Proof.Machine.execBankModeTimeout cluster bank s
  | .l2clsWrite die cls value => Sys2Proof.Machine.execL2clsWrite die cls value s
  | .contextRegister value => Sys2Proof.Machine.execContextRegister value s
  | .contextUnregister value => Sys2Proof.Machine.execContextUnregister value s
  | .queueRegister value => Sys2Proof.Machine.execQueueRegister value s
  | .queueUnregister value => Sys2Proof.Machine.execQueueUnregister value s
  | .memmapWrite entry value => Sys2Proof.Machine.execMemmapWrite entry value s
  | .errorCounterClear die counter => Sys2Proof.Machine.execErrorCounterClear die counter s
  | .hostMemWrite addr bytes => Sys2Proof.Machine.execHostMemWrite addr bytes s
  | .hostMemRead addr count => Sys2Proof.Machine.execHostMemRead addr count s
  | .hostCacheInvalidate addr bytes => Sys2Proof.Machine.execHostCacheInvalidate addr bytes s
  | .phoathFlitResend port => Sys2Proof.Machine.execPhoathFlitResend port s
  | .eccRetry err => Sys2Proof.Machine.execEccRetry err s
  | .bootStart checks => Sys2Proof.Machine.execBootStart checks s
  | .bootWatchdog => Sys2Proof.Machine.execBootWatchdog s
  | .bootctlRestart value => Sys2Proof.Machine.execBootctlRestart value s
  | .powerStateRequest value => Sys2Proof.Machine.execPowerStateRequest value s
  | .registerWrite offset size value => Sys2Proof.Machine.execRegisterWrite offset size value s
  | .phoathRemoteAccess access => Sys2Proof.Machine.execPhoathRemoteAccess access s

end Sys2Proof.Machine
end

