-- ==== Sys2Proof/Machine/Step.lean ====
section
/-! DEFINITION. One step: what runs next, prepared by Machine/Act.lean, executed by exec. -/

namespace Sys2Proof.Machine

/-- One step of the machine. -/
def step (s : State) : Host.Outcome State Fault Refusal :=
  match Ops.prepareNext exec s with
  | .settled s => .next s
  | .run i s => exec i s

/-- The state with an instruction placed where the next step fetches (assumption log entry 5). -/
def State.withFetchWord (s : State) (nbits w : Nat) : State := Ops.placeWord s nbits w

end Sys2Proof.Machine
end

