-- ==== Sys2Proof/Safety.lean ====
section
/-! DEFINITION. What counts as a safe run: memory and the registers of every group keep their canonical form; and when an
instruction can execute: nothing holds it back, and its operands are legal. -/

namespace Sys2Proof.Machine

/-- Physical memory in its canonical form: rising addresses, no listed byte that reads as an unlisted one. -/
def Memory.wf (m : List Host.Cell) : Bool := Maps.canonical (0 : Byte) m

/-- A group's register files and %lstat in canonical form. -/
def Group.wf (g : Group) : Bool :=
  Maps.canonical (0 : Word) g.v && Maps.canonical (0 : Word) g.k && Maps.canonical false g.p && Maps.canonical (0 : Word) g.lstat

/-- The context in which an instruction of a fragment executes: it is the fragment that executes now, nothing holds the
instruction back, and its operands are legal (01 R27, 02 R53 order 6). None when it cannot execute now. -/
def ready (s : State) (i : Instr) (h : Hdr) (m : Ops.Marks) (os : List Ops.Opnd) (ps : List Nat) : Option Ops.Ctx :=
  match Ops.ctx? s i h with
  | none => none
  | some c0 =>
    let c := Ops.withoutHelpers m c0
    if c.park.isNone && !Ops.stalled c m os ps && Ops.operandsOk c.g os then some c else none

/-- The same for a stream instruction: its team, its sequencer after the wait of its meeting, and the state then (14 R287,
15 R292, R294). -/
def streamReady (s : State) (o : OpX) (arrives : Bool) : Option (Nat × Team × Seq × State) :=
  match s.cur with
  | .seq t =>
    match Ops.team? s t with
    | none => none
    | some tm =>
      match tm.seq with
      | none => none
      | some q =>
        if Ops.seqIdle tm q || (o.rpe && decide (24 ≤ o.rp.toNat)) then none
        else if !o.rpe || arrives || q.waited then some (t, tm, q, s)
        else if Ops.phaseDone (Ops.rp tm o.rp.toNat) (Ops.sphOf q o.rp.toNat) then
          some (t, tm, Ops.passMeeting q o.rp.toNat, Ops.modSeq s t (fun _ => Ops.passMeeting q o.rp.toNat))
        else none
  | _ => none

/-- The context in which a group instruction executes, none when it cannot execute now. -/
def readyFor (s : State) (i : Instr) : Option Ops.Ctx :=
  match shapeOf i with
  | none => none
  | some x => ready s i x.hdr x.marks x.opnds x.preds

end Sys2Proof.Machine
end

