-- ==== Sys2Proof/Certificates/Slice0/Obligations.lean ====
section
/-! DEFINITION. The statements for the provers, and what they are written with. `readyFor s i = some c` says that the
instruction executes now with its operands legal (Safety.lean); a completion is said as the state that `retire` makes of
the instruction's effect: its register writes through its lookahead window, the program counter at the next slot. -/

namespace Sys2Proof.Claims

open Sys2Proof.Machine Sys2Proof.Machine.Ops Sys2Proof.Bits

/-! ### Completion -/

/-- The marks of an instruction. -/
def marksOf (i : Instr) : Marks := ((shapeOf i).map (fun x => x.marks)).getD {}

/-- Wherever the instruction is ready and the condition holds, it completes: its effect on the state, its register writes
and its status bits are those given, and the fragment stands at the next slot. -/
def completes (i : Instr) (ok : Ctx → Prop) (next : Ctx → State) (w : Ctx → List RegWrite)
    (fl : Ctx → List (Nat × Nat)) : Prop :=
  ∀ s c, readyFor s i = some c → ok c →
    exec i s = .next (retire c (marksOf i) (next c) (nextSlot c.f.pc) (w c) (fl c))

/-- The same for an instruction that changes nothing but registers. -/
def done (i : Instr) (w : Ctx → List RegWrite) : Prop := completes i (fun _ => True) (fun c => c.s) w (fun _ => [])

/-- The same with the status bits that each lane's computation raises. -/
def doneFl (i : Instr) (w : Ctx → List RegWrite) (fl : Ctx → List (Nat × Nat)) : Prop :=
  completes i (fun _ => True) (fun c => c.s) w fl

/-- The same for an instruction without register results. -/
def effects (i : Instr) (ok : Ctx → Prop) (next : Ctx → State) : Prop := completes i ok next (fun _ => []) (fun _ => [])

/-- It completes, and an engine supplies its results later: no window opens at its completion. -/
def issues (i : Instr) (ok : Ctx → Prop) (next : Ctx → State) : Prop :=
  ∀ s c, readyFor s i = some c → ok c →
    exec i s = .next (retire { c with h := { c.h with la := 0 } } (marksOf i) (next c) (nextSlot c.f.pc) [] [])

/-- It completes and has placed its fragments itself. -/
def moves (i : Instr) (ok : Ctx → Prop) (next : Ctx → State) : Prop :=
  ∀ s c, readyFor s i = some c → ok c → exec i s = .next (retireMoved c (marksOf i) (next c))

/-- It does not complete yet; the state is the one given. -/
def waits (i : Instr) (ok : Ctx → Prop) (next : Ctx → State) : Prop :=
  ∀ s c, readyFor s i = some c → ok c → exec i s = .next (next c)

/-- It traps while nothing holds the trap back (21 R386): the trap is taken with the state and the information given. -/
def traps (i : Instr) (ok : Ctx → Prop) (t : Ctx → Trap) (st : Ctx → State) : Prop :=
  ∀ s c, readyFor s i = some c → ok c → trapHeld c.s c.tm c.g c.frag (t c).code = false →
    exec i s = .next (takeTrap (st c) c.key c.frag (t c) (savedPc (t c).code c.f.pc) false)

/-- The effect is a completion, and the instruction completes with it. -/
def finishesWith (i : Instr) (s : State) (c : Ctx) (r : Res) : Prop :=
  ∃ s1 w fl, r = .done s1 w fl ∧ exec i s = .next (retire c (marksOf i) s1 (nextSlot c.f.pc) w fl)

/-! ### Results per lane -/

/-- D := f(A) at the format's width. -/
def unary (i : Instr) (h : Hdr) (o : OpR) (f : Nat → Nat) : Prop :=
  done i (fun c => wrLanes c o.d (regsOf (width h)) (fun l => f (rdW (width h) c o.a l)))

/-- D := f(A, B) at the format's width. -/
def binary (i : Instr) (h : Hdr) (o : OpR) (f : Nat → Nat → Nat) : Prop :=
  done i (fun c => wrLanes c o.d (regsOf (width h)) (fun l => f (rdW (width h) c o.a l) (rdW (width h) c o.b l)))

/-- D := f(A, B, C) at the format's width. -/
def ternary (i : Instr) (h : Hdr) (o : OpR) (f : Nat → Nat → Nat → Nat) : Prop :=
  done i (fun c => wrLanes c o.d (regsOf (width h))
    (fun l => f (rdW (width h) c o.a l) (rdW (width h) c o.b l) (rdW (width h) c o.c l)))

/-- D := f(A, B, C) of single registers. -/
def ternary1 (i : Instr) (o : OpR) (f : Nat → Nat → Nat → Nat) : Prop :=
  done i (fun c => wrLanes c o.d 1 (fun l => f (rd c o.a l) (rd c o.b l) (rd c o.c l)))

/-- A carry or borrow through P. -/
def carrying (i : Instr) (h : Hdr) (o : OpR) (f : Nat → Nat → Bool → Nat × Bool) : Prop :=
  done i (fun c => wrLanes c o.d (regsOf (width h))
      (fun l => (f (rdW (width h) c o.a l) (rdW (width h) c o.b l) (rdP c o.pn o.p l)).1) ++
    wrPred c o.p (fun l => (f (rdW (width h) c o.a l) (rdW (width h) c o.b l) (rdP c o.pn o.p l)).2))

/-- No enabled DIVZ trap arises: TDIVZ is clear or no divisor is zero. -/
def noDivTrap (h : Hdr) (o : OpR) (c : Ctx) : Prop :=
  tdivz c = false ∨ zeroDivisors c (width h) (Checks.fmt h) o.b = []

/-- DIVZ in each lane that divides by zero. -/
def divFlags (h : Hdr) (o : OpR) (c : Ctx) : List (Nat × Nat) :=
  (zeroDivisors c (width h) (Checks.fmt h) o.b).map (fun l => (l, lsDivz))

/-- The quotient and the remainder of a lane. -/
def quotOf (h : Hdr) (o : OpR) (c : Ctx) (l : Nat) : Nat := Alu.quot (Checks.fmt h) (rdW (width h) c o.a l) (rdW (width h) c o.b l)
def remOf (h : Hdr) (o : OpR) (c : Ctx) (l : Nat) : Nat := Alu.remd (Checks.fmt h) (rdW (width h) c o.a l) (rdW (width h) c o.b l)

/-- One floating-point result per lane with the flags of its computation. -/
def floats (i : Instr) (d : BitVec 9) (f : Ctx → Nat → Num.FRes) : Prop :=
  doneFl i (fun c => wrLanes c d 1 (fun l => (f c l).bits)) (fun c => flagLanes c (fun l => (f c l).flags))

/-- SAT applied to an f32 result. -/
def sat32 (h : Hdr) (r : Num.FRes) : Num.FRes := Num.satIf Num.f32 (fSat h) r

/-- An f32 operation of one, two or three operands. -/
def f1 (i : Instr) (h : Hdr) (o : OpR) (f : Nat → Num.FRes) : Prop := floats i o.d (fun c l => sat32 h (f (rd c o.a l)))
def f2 (i : Instr) (h : Hdr) (o : OpR) (f : Nat → Nat → Num.FRes) : Prop :=
  floats i o.d (fun c l => sat32 h (f (rd c o.a l) (rd c o.b l)))
def f3 (i : Instr) (h : Hdr) (o : OpR) (f : Nat → Nat → Nat → Num.FRes) : Prop :=
  floats i o.d (fun c l => sat32 h (f (rd c o.a l) (rd c o.b l) (rd c o.c l)))

/-- A packed operation on the two elements of A and B, or of A, B and C. -/
def packed2 (i : Instr) (h : Hdr) (o : OpR) (f : Num.FFmt → Nat → Nat → Num.FRes) : Prop :=
  floats i o.d (fun c l => Alu.packed (fun e => Num.satIf (Alu.packFmt (fTy h)) (fSat h)
    (f (Alu.packFmt (fTy h)) (Alu.elem e (rd c o.a l)) (Alu.elem e (rd c o.b l)))))
def packed3 (i : Instr) (h : Hdr) (o : OpR) (f : Num.FFmt → Nat → Nat → Nat → Num.FRes) : Prop :=
  floats i o.d (fun c l => Alu.packed (fun e => Num.satIf (Alu.packFmt (fTy h)) (fSat h)
    (f (Alu.packFmt (fTy h)) (Alu.elem e (rd c o.a l)) (Alu.elem e (rd c o.b l)) (Alu.elem e (rd c o.c l)))))

/-! ### Transfers of control -/

/-- A transfer can place its fragments: one part, or no join is needed, or a join entry is free (08 R172). -/
def placeable (c : Ctx) (mv : List (Nat × DWord)) : Prop :=
  (∃ e, distinct (nextPcs c mv) = [e]) ∨ c.f.recon = none ∨ (freeJoin c.g).isSome = true

/-- The fragments after a transfer of the lanes in `mv`, with the register writes `w`. -/
def placed (c : Ctx) (w : List RegWrite) (mv : List (Nat × DWord)) (s : State) : State :=
  match distinct (nextPcs c mv) with
  | [e] => modGroup s c.key (fun g =>
      { w.foldl writeReg g with
        frags := Maps.modify c.frag (fun f => { f with pc := e.1, stage := .fresh, read := none, arrival := 0 }) (w.foldl writeReg g).frags })
  | parts => modGroup s c.key (fun g =>
      splitInto c parts (if c.f.recon.isSome then freeJoin c.g else none) (w.foldl writeReg g))

/-- The instruction moves the lanes in `mv` to their targets, when each target's line and mark are legal. -/
def transfers (i : Instr) (ok : Ctx → Prop) (w : Ctx → List RegWrite) (mv : Ctx → List (Nat × DWord)) : Prop :=
  ∀ s c s1, readyFor s i = some c → ok c → checkTargets c ((distinct (mv c)).map Prod.fst) c.s = .ok s1 → placeable c (mv c) →
    exec i s = .next (retireMoved c (marksOf i) (placed c (w c) (mv c) s1))

/-- The lanes of `loop` whose counter is not zero, its counter writes, and the lanes that go back. -/
def loopLanes (o : OpB) (c : Ctx) : List Nat := (lanesOf c.pass).filter (fun l => rd c o.a l != 0)
def loopWrites (o : OpB) (c : Ctx) : List RegWrite :=
  if isUni o.a then ((loopLanes o c).take 1).flatMap (fun l => wrN o.a 1 0 (rd c o.a l - 1))
  else (loopLanes o c).flatMap (fun l => wrN o.a 1 l (rd c o.a l - 1))
def loopBack (o : OpB) (c : Ctx) : List (Nat × DWord) :=
  ((loopLanes o c).filter (fun l => rd c o.a l != 1)).map (fun l => (l, directTarget c.f.pc o))

/-! ### Memory -/

/-- The accesses of an instruction pass every check and reach the places `ps`, leaving the state `s1`. -/
def reaches (c : Ctx) (o : OpM) (nd : Needs) (as : List Acc) (ps : List (Acc × Place)) (s1 : State) : Prop :=
  acts c = true ∧ access c o nd as = .ok (ps, s1)

/-- Nothing makes a load wait for the stores before it: no earlier store of its group to the control region is pending (26 R438), and
no store that agents near it may have read is on its way to a home that it reads (11 R213; DEDUCED, log entry 138). -/
def readable (c : Ctx) (ps : List (Acc × Place)) : Prop := ctrlWaits c ps = false ∧ homeWaits c ps = false

/-- `ldw.x4` has read one half. -/
def inHalf : Stage → Bool
  | .half _ _ => true
  | _ => false

/-- A load per lane, of `n` registers from `bytes` bytes. -/
def loads (i : Instr) (o : OpM) (spaces : List Nat) (l2 : Bool) (bytes n : Nat) (value : List Byte → Nat) : Prop :=
  ∀ s c ps s1, readyFor s i = some c → reaches c o (loadNeeds o spaces) (laneAccs c o bytes) ps s1 → readable c ps →
    exec i s = .next (retire c (marksOf i) (loadPlaces c (o.space == 4) l2 false ps s1).2 (nextSlot c.f.pc)
      ((loadPlaces c (o.space == 4) l2 false ps s1).1.flatMap (fun e => wrN o.data n e.1.lane (loadResult n value e.2.1 e.2.2)))
      (((loadPlaces c (o.space == 4) l2 false ps s1).1.map (fun e => (e.1.lane, policyFlags e.2.1))).filter (fun e => e.2 != 0)))

/-- A load once, into uniform registers. -/
def loadsOnce (i : Instr) (o : OpM) (l2 : Bool) (bytes n : Nat) (value : List Byte → Nat) : Prop :=
  ∀ s c ps s1, readyFor s i = some c → reaches c o (loadNeeds o [0, 1, 2, 4]) (uniAccs c o bytes) ps s1 → readable c ps →
    exec i s = .next (retire c (marksOf i) (loadPlaces c (o.space == 4) l2 true ps s1).2 (nextSlot c.f.pc)
      ((loadPlaces c (o.space == 4) l2 true ps s1).1.flatMap (fun e => wrN o.data n 0 (loadResult n value e.2.1 e.2.2)))
      (((loadPlaces c (o.space == 4) l2 true ps s1).1.flatMap (fun e => (lanesOf c.pass).map (fun l => (l, policyFlags e.2.1)))).filter
        (fun e => e.2 != 0)))

/-- `ldw.x4` (12 R239): first one half of every lane's 16 bytes is read, which, the spec leaves open, and the fragment waits;
then the other half is read at the same places, other agents having acted in between, and the load completes (11 R212, 21 R394). A
lane whose page's policy the first half has met gets the substitute for the whole access (12 R234). -/
def loadsInHalves (i : Instr) (o : OpM) (l2 : Bool) : Prop :=
  (∀ s c ps s1, readyFor s i = some c → inHalf c.f.stage = false → reaches c o (loadNeeds o [0, 1, 2, 4]) (laneAccs c o 16) ps s1 →
    readable c ps →
    (let hi := Config.freeNat s1.fresh % 2
     let r := loadHalves c (o.space == 4) l2 hi ps { s1 with fresh := s1.fresh + 1 }
     exec i s = .next (setStage c r.2 (.half hi (r.1.map halfRead))))) ∧
  (∀ s c hi got, readyFor s i = some c → c.f.stage = .half hi got → placesLost c (halfPlaces got) = false →
    homeWaits c (halfPlaces got) = false →
    (let r := loadHalves c (o.space == 4) l2 (1 - hi) (halfPlaces got) c.s
     let whole (now before : List Byte) : List Byte := if hi = 0 then before ++ now else now ++ before
     exec i s = .next (retire c (marksOf i) r.2 (nextSlot c.f.pc)
      ((r.1.zip got).flatMap (fun e => wrN o.data 4 e.1.1.lane (loadResult 4 ofBytes e.1.2.1 (whole e.1.2.2 e.2.bytes))))
      ((r.1.map (fun e => (e.1.lane, policyFlags e.2.1))).filter (fun e => e.2 != 0)))))

/-- An `atom` has made its mode requests (10 R198). -/
def inMode : Stage → Bool
  | .mode _ _ => true
  | _ => false

/-- A store per lane, of `bytes` bytes from `n` registers. -/
def stores (i : Instr) (o : OpM) (l2 : Bool) (bytes n : Nat) : Prop :=
  ∀ s c ps s1, readyFor s i = some c → reaches c o (storeNeeds [0, 1, 2]) (laneAccs c o bytes) ps s1 →
    exec i s = .next (retire c (marksOf i)
      (storePlaces c l2 (storeGate s1 c.key) (fun a => toBytes bytes (rdData c o n a.lane)) ps s1) (nextSlot c.f.pc) [] (storeFlags ps))

/-- An atomic of `n` bytes that answers the old value. -/
def steps (i : Instr) (o : OpM) (ok : Ctx → List (Acc × Place) → Prop) (n : Nat) (f : Ctx → Nat → Nat → Option Nat) : Prop :=
  ∀ s c ps s1, readyFor s i = some c → reaches c o atomNeeds (laneAccs c o n) ps s1 → ok c ps → stepBlocked c s1 ps = false →
    exec i s = .next (retire c (marksOf i) (placeSteps c n (f c) ps s1).2 (nextSlot c.f.pc)
      (stepWrites o (n / 4) (placeSteps c n (f c) ps s1).1) (stepFlags ps))

/-- The operand of a reduction in a lane, applied to the old value. -/
def redStep (h : Hdr) (o : OpM) (float : Bool) (c : Ctx) (l old : Nat) : Option Nat :=
  some (if float then atomFloat (field h.mod.toNat 0 2) (Checks.fmt h) old (rdData c o (fmtRegs (Checks.fmt h)) l)
    else atomInt (field h.mod.toNat 0 3) (Checks.fmt h) old (rdData c o (fmtRegs (Checks.fmt h)) l))

/-- A reduction at the home. -/
def reduces (i : Instr) (h : Hdr) (o : OpM) (float : Bool) : Prop :=
  ∀ s c ps s1, readyFor s i = some c →
    reaches c o (redNeeds [0, 1, 2]) (laneAccs c o (4 * fmtRegs (Checks.fmt h))) ps s1 → stepBlocked c s1 ps = false →
    exec i s = .next (retire c (marksOf i) (placeSteps c (4 * fmtRegs (Checks.fmt h)) (redStep h o float c) ps s1).2
      (nextSlot c.f.pc) [] (storeFlags ps))

/-- The entries that a deterministic reduction appends. -/
def detEntries (h : Hdr) (o : OpM) (float : Bool) (c : Ctx) (ps : List (Acc × Place)) : List DetEntry :=
  ps.flatMap (fun e => match e.2 with
    | .mem pa _ => [({ group := c.g.idx, lane := e.1.lane, seq := c.g.detSeq, pa := pa, float := float, fmt := Checks.fmt h,
                       op := if float then field h.mod.toNat 0 2 else field h.mod.toNat 0 3,
                       operand := rdData c o (fmtRegs (Checks.fmt h)) e.1.lane } : DetEntry)]
    | _ => [])

/-- A deterministic reduction, while its team's buffer has room. -/
def buffers (i : Instr) (h : Hdr) (o : OpM) (float : Bool) : Prop :=
  ∀ s c ps s1, readyFor s i = some c →
    reaches c o (redNeeds [0]) (laneAccs c o (4 * fmtRegs (Checks.fmt h))) ps s1 →
    c.tm.dets.length + (detEntries h o float c ps).length ≤ 4096 →
    exec i s = .next (retire c (marksOf i)
      (modGroup (modTeam s1 c.g.team (fun t => { t with dets := t.dets ++ detEntries h o float c ps })) c.key
        (fun g => { g with detSeq := g.detSeq + 1 })) (nextSlot c.f.pc) [] (storeFlags ps))

/-- A FIFO access can be made now: its banks and operands are legal, no operand awaits a result, and every bank serves it. -/
def fifoGo (c : Ctx) (o : OpM) (push place : Bool) (ps : List (Acc × Place)) (s1 : State) : Prop :=
  reaches c o { spaces := [3] } (laneAccs c o 4) ps s1 ∧
  failing (laneAccs c o 4) (fun a => (fifoOpnd c s1 o (!push) a).legal c.g) = 0 ∧
  (laneAccs c o 4).any (fun a => (fifoOpnd c s1 o (!push) a).names.any (fun n => (held c.g).contains n)) = false ∧
  (fifoBanks (laneAccs c o 4)).all (fun e => fifoReady (bank (cluster s1 (clusterOf c.tm.core)) e.1) push e.2.length &&
    !(place && fifoBehind (bank (cluster s1 (clusterOf c.tm.core)) e.1) push (ticketOf c.f.stage))) = true

/-- The state without the instruction's place among the waiters of its banks. -/
def fifoLeft (c : Ctx) (o : OpM) (s1 : State) : State :=
  match ticketOf c.f.stage with
  | some id => fifoDequeue c s1 id (fifoBanks (laneAccs c o 4))
  | none => s1

/-! ### Copies -/

/-- The command is accepted (13 R265): it passes every check, its handles do not make it wait, a place is free, and the refill
before it ends no context of its group (26 R437). -/
def copyOk (c : Ctx) (s : State) (y : Copy) : Prop :=
  copyFieldsOk c.tm.cor (copyOf_ c y) = true ∧ copyNoncanon (copyOf_ c y) = none ∧
  copyShapeOk s (clusterOf c.tm.core) (copyOf_ c y) = true ∧ copyBoundsOk s (copyOf_ c y) = true ∧
  handleWaits s (clusterOf c.tm.core) c.tm.ctx (copyOf_ c y) = false ∧
  handleBad s (clusterOf c.tm.core) c.tm.ctx (copyOf_ c y) = false ∧
  (group? (refill (clusterOf c.tm.core) 64 s) c.key).isSome = true ∧
  spillFull (refill (clusterOf c.tm.core) 64 s) (clusterOf c.tm.core) = false

/-- The state after a command has been accepted. -/
def copyTaken (c : Ctx) (s : State) (y : Copy) : State :=
  let x := copyOf_ c y
  let r := beginRelease (refill (clusterOf c.tm.core) 64 s) c 4 0
  let s2 := commitCopy r.2 (clusterOf c.tm.core) x
  let s3 := if ctlAdd x then addPend s2 c.g.team (ctlRp x) (copyTotal x) else s2
  acceptCopy { s3 with uid := s3.uid + 1 } (clusterOf c.tm.core) { x with id := s3.uid, rel := r.1 }

/-- The commands of `cpy` and `cpyo`, from their registers. -/
def cpyCommand (h : Hdr) (o : OpR) (c : Ctx) : Copy :=
  { dfmt := Checks.fmt h, sfmt := Checks.lo4 h, dst := rdPair c o.d 0, src := rdPair c o.a 0, count := rd c o.b 0,
    ctl := rd c o.c 0, param := rdAt c o.c 1 0, rows := 1 }
def cpyoCommand (h : Hdr) (o : OpR) (c : Ctx) : Copy :=
  { cpyCommand h o c with rows := rdAt c o.c 2 0, sstride := rdAt c o.c 3 0, dstride := rdAt c o.c 4 0 }

/-! ### Sample sets -/

/-- The set record that an instruction names is reached (18 R365): its handle, address and bytes, and the state then. -/
def atRecord (c : Ctx) (o : OpG) (writes : Bool) (h pa leaf : Nat) (s1 : State) : Prop :=
  acts c = true ∧ h = rdPair c o.set (lowActive c) ∧ canonical h = true ∧ h % 256 = 0 ∧
  issueTr c c.s { spaces := [0], rd := 1, access := 1, ctrl := false } c.active h = .ok (pa, leaf, s1) ∧
  reachable s1 (dieOf c.tm.core) pa 256 = true ∧ (writes && leaf.testBit 61) = false ∧ setBlocked c s1 pa 256 = false

/-! ### Streams -/

/-- A stream instruction that is ready completes: the sequencer moves to the next slot. -/
def streamDone (i : Instr) (o : OpX) (arrives : Bool) (ok : Nat → Team → Seq → State → Prop)
    (next : Nat → Team → Seq → State → State) : Prop :=
  ∀ s t tm q s1, streamReady s o arrives = some (t, tm, q, s1) → ok t tm q s1 →
    exec i s = .next (moveSeq (next t tm q s1) t nextSlot)

/-- A B latch filled from an image and a scale block of `n` entries. -/
def latchOf (fmt : Nat) (batched : Bool) (img : List Byte) (n : Nat) (block : List Byte) : BLatch :=
  { valid := true, fmt := fmt, batched := batched, data := Maps.entriesFrom 0 0 img,
    scales := Maps.entriesFrom 0 0 (blockScales block n), zeros := Maps.entriesFrom 0 0 (blockZeros block n) }

/-- The tile of a stream instruction is claimed: its physical tile, and the state then. -/
def claims (t : Nat) (tm : Team) (q : Seq) (o : OpX) (s : State) (phys : Nat) (s1 : State) : Prop :=
  claimTile t tm q o.tile.toNat s = .ok (phys, s1)

end Sys2Proof.Claims

open Sys2Proof Sys2Proof.Machine Sys2Proof.Machine.Ops Sys2Proof.Bits Sys2Proof.Claims

/-! ### Every instruction of a group completes -/

/-- Class 0x2 (06 R113 to R118): each instruction writes its result, and division without TDIVZ sets DIVZ where a
divisor is zero. -/
def Obligations.IntegerInstructionsComplete : Prop :=
  ∀ (h : Hdr) (o : OpR) (j : OpI),
    binary (.add h o) h o (Alu.add (Checks.fmt h) (sat2 h)) ∧
    carrying (.addc h o) h o (Alu.addc (Checks.fmt h)) ∧
    binary (.sub h o) h o (Alu.sub (Checks.fmt h) (sat2 h)) ∧
    carrying (.subb h o) h o (Alu.subb (Checks.fmt h)) ∧
    done (.addi h j) (fun c => wrLanes c j.d (regsOf (width h)) (fun l =>
      Alu.add (Checks.fmt h) (sat2 h) (rdW (width h) c j.a l) (Alu.immVal (Checks.fmt h) j.imm.toNat))) ∧
    binary (.mul h o) h o (Alu.mul (Checks.fmt h) (sat2 h)) ∧
    binary (.mulhi h o) h o (Alu.mulhi (Checks.fmt h)) ∧
    done (.mulw h o) (fun c => wrLanes c o.d 2 (fun l => Alu.mulw (Checks.fmt h) (rd c o.a l) (rd c o.b l))) ∧
    ternary (.mad h o) h o (Alu.mad (Checks.fmt h) (sat2 h)) ∧
    done (.madw h o) (fun c => wrLanes c o.d 2 (fun l =>
      Alu.madw (Checks.fmt h) (rd c o.a l) (rd c o.b l) (rdPair c o.c l))) ∧
    completes (.div h o) (noDivTrap h o) (fun c => c.s) (fun c => wrLanes c o.d (regsOf (width h)) (quotOf h o c)) (divFlags h o) ∧
    completes (.rem h o) (noDivTrap h o) (fun c => c.s) (fun c => wrLanes c o.d (regsOf (width h)) (remOf h o c)) (divFlags h o) ∧
    completes (.divrem h o) (noDivTrap h o) (fun c => c.s)
      (fun c => wrLanes c o.d (regsOf (width h)) (quotOf h o c) ++ wrLanes c o.c (regsOf (width h)) (remOf h o c)) (divFlags h o) ∧
    binary (.min h o) h o (Alu.min (Checks.fmt h)) ∧
    binary (.max h o) h o (Alu.max (Checks.fmt h)) ∧
    ternary (.clamp h o) h o (Alu.clamp (Checks.fmt h)) ∧
    unary (.abs h o) h o (Alu.abs (Checks.fmt h) (sat2 h)) ∧
    ternary (.sad h o) h o (Alu.sad (Checks.fmt h) (sat2 h)) ∧
    ternary1 (.dot4 h o) o (Alu.dot 4 (Checks.fmt h) (sat2 h)) ∧
    ternary1 (.dot2 h o) o (Alu.dot 2 (Checks.fmt h) (sat2 h)) ∧
    done (.lea h o) (fun c => wrLanes c o.d 2 (fun l => Alu.lea (Checks.fmt h) (rdPair c o.a l) (rd c o.b l) o.aux.toNat)) ∧
    done (.leai h j) (fun c => wrLanes c j.d 2 (fun l => Alu.leai (rdPair c j.a l) j.imm.toNat))

/-- Class 0x3 (06 R119 to R123). -/
def Obligations.LogicInstructionsComplete : Prop :=
  ∀ (h : Hdr) (o : OpR) (j : OpI),
    let w := width h
    binary (.and h o) h o (fun a b => a &&& b) ∧
    binary (.or h o) h o (fun a b => a ||| b) ∧
    binary (.xor h o) h o (fun a b => a ^^^ b) ∧
    unary (.not h o) h o (Alu.not w) ∧
    ternary (.tern h o) h o (Alu.tern w o.aux.toNat) ∧
    done (.bini h j) (fun c => wrLanes c j.d (regsOf w) (fun l =>
      Alu.bini w (j.p.toNat + 8 * b2n j.pn) (rdW w c j.a l) j.imm.toNat)) ∧
    done (.shl h o) (fun c => wrLanes c o.d (regsOf w) (fun l => Alu.shl w (rdW w c o.a l) (shiftCount c o.aux o.b l))) ∧
    done (.shr h o) (fun c => wrLanes c o.d (regsOf w) (fun l => Alu.shr w (rdW w c o.a l) (shiftCount c o.aux o.b l))) ∧
    done (.sra h o) (fun c => wrLanes c o.d (regsOf w) (fun l => Alu.sra w (rdW w c o.a l) (shiftCount c o.aux o.b l))) ∧
    done (.fsl h o) (fun c => wrLanes c o.d 1 (fun l => Alu.fsl (rd c o.a l) (rd c o.b l) (shiftCount c o.aux o.c l))) ∧
    done (.fsr h o) (fun c => wrLanes c o.d 1 (fun l => Alu.fsr (rd c o.a l) (rd c o.b l) (shiftCount c o.aux o.c l))) ∧
    done (.popc h o) (fun c => wrLanes c o.d 1 (fun l => popcount w (rdW w c o.a l))) ∧
    done (.clz h o) (fun c => wrLanes c o.d 1 (fun l => Alu.clz w (rdW w c o.a l))) ∧
    unary (.brev h o) h o (Alu.brev w) ∧
    done (.bfx h o) (fun c => wrLanes c o.d (regsOf w) (fun l => Alu.bfx (Checks.fmt h) (rdW w c o.a l) (rd c o.b l))) ∧
    done (.bfi h o) (fun c => wrLanes c o.d (regsOf w) (fun l => Alu.bfi w (rdW w c o.a l) (rd c o.b l) (rdW w c o.c l))) ∧
    ternary1 (.perm h o) o Alu.perm

/-- Class 0x4 (06 R124 to R127): compares, predicate logic, selects and moves. -/
def Obligations.CompareAndMoveInstructionsComplete : Prop :=
  ∀ (h : Hdr) (o : OpR) (j : OpI),
    done (.setp h o) (fun c => wrPred c o.p (fun l =>
      Alu.setp (Checks.fmt h) (Checks.lo4 h) (rdW (width h) c o.a l) (rdW (width h) c o.b l))) ∧
    done (.setpi h j) (fun c => wrPred c j.p (fun l =>
      Alu.setp (Checks.fmt h) (Checks.lo4 h) (rdW (width h) c j.a l) (Alu.immVal (Checks.fmt h) j.imm.toNat))) ∧
    doneFl (.fsetp h o) (fun c => wrPred c o.p (fun l => (Alu.fsetp (Checks.fmt h) (Checks.lo4 h) (rd c o.a l) (rd c o.b l)).1))
      (fun c => flagLanes c (fun l => (Alu.fsetp (Checks.fmt h) (Checks.lo4 h) (rd c o.a l) (rd c o.b l)).2)) ∧
    done (.plop h o) (fun c => wrPred c o.p (fun l =>
      o.aux.toNat.testBit (b2n (predOf c o.a l) + 2 * b2n (predOf c o.b l) + 4 * b2n (predOf c o.c l)))) ∧
    done (.sel h o) (fun c => wrLanes c o.d (regsOf (moveWidth h)) (fun l =>
      if rdP c o.pn o.p l then rdW (moveWidth h) c o.a l else rdW (moveWidth h) c o.b l)) ∧
    done (.seli h j) (fun c => wrLanes c j.d 1 (fun l => if rdP c j.pn j.p l then rd c j.a l else j.imm.toNat)) ∧
    done (.mov h o) (fun c => wrLanes c o.d (regsOf (moveWidth h)) (fun l => rdW (moveWidth h) c o.a l)) ∧
    done (.movi h j) (fun c => wrLanes c j.d (regsOf (moveWidth h)) (fun _ =>
      if Checks.fmt h = 3 then wrap 64 (sext 32 j.imm.toNat) else j.imm.toNat)) ∧
    done (.p2r h o) (fun c => wrLanes c o.d 1 (predBits c)) ∧
    done (.regToPred h o) (fun c => (lanesOf c.pass).flatMap (fun l =>
      ((upto 7).filter (fun i => o.aux.getLsbD i)).map (fun i => .p l i ((rd c o.a l).testBit i))))

/-- Class 0x5 (07 R141 to R151). -/
def Obligations.FloatInstructionsComplete : Prop :=
  ∀ (h : Hdr) (o : OpR),
    f2 (.fadd h o) h o (Alu.fadd Num.f32 (fMode h)) ∧
    f2 (.fsub h o) h o (Alu.fsub Num.f32 (fMode h)) ∧
    f2 (.fmul h o) h o (Alu.fmul Num.f32 (fMode h)) ∧
    f3 (.fma h o) h o (Alu.fma Num.f32 (fMode h)) ∧
    f2 (.fmin h o) h o (Alu.fminmax false) ∧
    f2 (.fmax h o) h o (Alu.fminmax true) ∧
    f1 (.frnd h o) h o (Alu.frnd (fMode h)) ∧
    done (.fclass h o) (fun c => wrLanes c o.d 1 (fun l => Alu.fclass (rd c o.a l))) ∧
    packed2 (.fadd2 h o) h o (fun f a b => Alu.fadd f (fMode h) a b) ∧
    packed2 (.fmul2 h o) h o (fun f a b => Alu.fmul f (fMode h) a b) ∧
    packed3 (.fma2 h o) h o (fun f a b x => Alu.fma f (fMode h) a b x) ∧
    f3 (.fdot2 h o) h o (Alu.fdot2 (Alu.packFmt (fTy h)) (fMode h)) ∧
    f1 (.fex2 h o) h o Num.fex2 ∧
    f1 (.flg2 h o) h o Num.flg2 ∧
    f1 (.frcp h o) h o Num.frcp ∧
    f1 (.frsq h o) h o Num.frsq ∧
    f1 (.fsin h o) h o Num.fsin ∧
    f1 (.fcos h o) h o Num.fcos

/-- Class 0x6 (07 R152 to R156). -/
def Obligations.ConversionInstructionsComplete : Prop :=
  ∀ (h : Hdr) (o : OpR),
    let wd := codeWidth (Checks.fmt h)
    let ws := codeWidth (Checks.lo4 h)
    let r (c : Ctx) (l : Nat) := Num.cvt (Checks.fmt h) (Checks.lo4 h) (cMode h) (cSat h) (rdW ws c o.a l)
    let u (c : Ctx) (n l : Nat) := Alu.unpack (Checks.lo4 h) (cSat h) n (rd c o.a l)
    doneFl (.cvt h o) (fun c => wrLanes c o.d (regsOf wd) (fun l => (r c l).bits)) (fun c => flagLanes c (fun l => (r c l).flags)) ∧
    floats (.pack h o) o.d (fun c l => Alu.pack (Checks.fmt h) (cMode h) (cSat h) (rd c o.a l) (rd c o.b l)) ∧
    doneFl (.unpack h o) (fun c => wrLanes c o.d 1 (fun l => (u c 0 l).bits) ++ wrLanes c o.c 1 (fun l => (u c 1 l).bits))
      (fun c => flagLanes c (fun l => (u c 0 l).flags ||| (u c 1 l).flags)) ∧
    floats (.quant h o) o.d (fun c l =>
      Num.quant (Checks.fmt h) (Checks.lo4 h) (cMode h) (rd c o.a l) (rd c o.b l) (rd c o.c l)) ∧
    floats (.dequant h o) o.d (fun c l =>
      Num.dequant (Checks.fmt h) (Checks.lo4 h) (cMode h) (cSat h) (rd c o.a l) (rd c o.b l) (rd c o.c l)) ∧
    done (.pack4 h o) (fun c => wrLanes c o.d 1 (fun l => Alu.pack4 (rd c o.a l) (rd c o.b l)))

namespace Sys2Proof.Claims

/-- Both companions of a lane in its quad are live. -/
def wholePair (h : Hdr) (y : Bool) (c : Ctx) (l : Nat) : Bool :=
  live c.g (companions y (exMode h == 0) l).1 && live c.g (companions y (exMode h == 0) l).2

/-- The lanes of a derivative whose pair is not whole. -/
def brokenLanes (h : Hdr) (y : Bool) (c : Ctx) : List Nat := (lanesOf c.pass).filter (fun l => !wholePair h y c l)

/-- The difference of the pair of a lane, 0 where it is not whole (09 R181). -/
def gradient (h : Hdr) (y : Bool) (a : BitVec 9) (c : Ctx) (l : Nat) : Num.FRes :=
  if wholePair h y c l then Alu.fsub Num.f32 0 (rd c a (companions y (exMode h == 0) l).2) (rd c a (companions y (exMode h == 0) l).1)
  else ⟨0, 0⟩

/-- A derivative completes: with TDERIV clear or every pair whole. -/
def derives (i : Instr) (h : Hdr) (o : OpR) (y : Bool) : Prop :=
  completes i (fun c => c.tm.hdr.traps.testBit 3 = false ∨ brokenLanes h y c = []) (fun c => c.s)
    (fun c => wrLanes c o.d 1 (fun l => (gradient h y o.a c l).bits))
    (fun c => flagLanes c (fun l => (gradient h y o.a c l).flags ||| (if wholePair h y c l then 0 else lsDeriv)))

/-- The value that a lane of a shuffle receives, and whether its source is valid (09 R177). -/
def shuffled (h : Hdr) (o : OpR) (c : Ctx) (l : Nat) : Option Nat :=
  shuffleFrom c (exMode h) (field (rd c o.c (lowLane c.pass)) 0 8) l (shuffleB (exMode h) (rd c o.b l))
def shuffledImm (h : Hdr) (j : OpI) (c : Ctx) (l : Nat) : Option Nat :=
  shuffleFrom c (exMode h) (field j.imm.toNat 8 8) l (shuffleImm (exMode h) j.imm.toNat)

/-- The vote of the participants: 0 every, 1 some, 2 same (09 R179). -/
def voted (h : Hdr) (o : OpR) (c : Ctx) : Bool :=
  let every := (lanesOf c.pass).all (fun l => predOf c o.a l)
  let some_ := (lanesOf c.pass).any (fun l => predOf c o.a l)
  if exMode h = 0 then every else if exMode h = 1 then some_ else every || !some_

/-- A transform with some guarded lane sends its request: the window opens, and the pipe holds the results (15 R301). -/
def requests (i : Instr) (o : OpR) (span : Nat) (f : Ctx → Nat → Num.FRes) : Prop :=
  issues i (fun c => acts c = true) (fun c =>
    let p := pend c c.s ({ reg := o.d, count := span, dest := true } : Opnd).names
    let r : XfReq := { group := c.key, window := p.1, writes := wrLanes c o.d span (fun l => (f c l).bits),
                       flags := flagLanes c (fun l => (f c l).flags) }
    setCore p.2 c.tm.core { Ops.core p.2 c.tm.core with xfWait := (Ops.core p.2 c.tm.core).xfWait ++ [r] })

end Sys2Proof.Claims

/-- Class 0x7 (09 R175 to R181). -/
def Obligations.ExchangeInstructionsComplete : Prop :=
  ∀ (h : Hdr) (o : OpR) (j : OpI),
    let w := width h
    done (.shfl h o) (fun c => wrLanes c o.d (regsOf w) (fun l => rdW w c o.a ((shuffled h o c l).getD l)) ++
      wrPred c o.p (fun l => (shuffled h o c l).isSome)) ∧
    done (.shfli h j) (fun c => wrLanes c j.d (regsOf w) (fun l => rdW w c j.a ((shuffledImm h j c l).getD l)) ++
      wrPred c j.p (fun l => (shuffledImm h j c l).isSome)) ∧
    done (.vote h o) (fun c => wrPred c o.p (fun _ => voted h o c)) ∧
    done (.pmask h o) (fun c => wrLanes c o.d 1 (fun _ => maskOf ((lanesOf c.pass).filter (fun l => predOf c o.a l)))) ∧
    done (.lfold h o) (fun c => wrLanes c o.d (regsOf w) (fun _ => foldLanes c (exMode h) (Checks.fmt h) w o.a)) ∧
    done (.matchLanes h o) (fun c => wrLanes c o.d 1 (fun l =>
      maskOf ((lanesOf c.pass).filter (fun m => rdW w c o.a m == rdW w c o.a l)))) ∧
    done (.rdlane h o) (fun c => wrLanes c o.d (regsOf w) (fun _ =>
        if c.pass.testBit (field o.aux.toNat 0 3) then rdW w c o.a (field o.aux.toNat 0 3) else 0) ++
      wrPred c o.p (fun _ => c.pass.testBit (field o.aux.toNat 0 3))) ∧
    derives (.ddx h o) h o false ∧
    derives (.ddy h o) h o true

/-- Class 0xC (15 R301 to R306): each sends a request to the transform pipe. -/
def Obligations.TransformInstructionsComplete : Prop :=
  ∀ (h : Hdr) (o : OpR),
    let d := Checks.fmt h
    let s := Checks.lo4 h
    requests (.xfCvt h o) o (dSpan h o) (fun c => xfMap c h o (fun _ x => xfElement d s x)) ∧
    requests (.xfQuant h o) o (dSpan h o) (fun c => xfMap c h o (fun l x => Num.quant d s 0 x (rd c o.b l) (rd c o.c l))) ∧
    requests (.xfDequant h o) o (dSpan h o) (fun c => xfMap c h o (fun l x => Num.dequant d s 0 false x (rd c o.b l) (rd c o.c l))) ∧
    requests (.xfRkey h o) o (dSpan h o) (fun c => xfMap c h o (fun l x => ⟨rkeyDigit (rkeyOf s x) (rd c o.b l), 0⟩)) ∧
    requests (.xfHash h o) o 1 (fun c l => ⟨hashOf (rd c o.b l) (rd c o.c l) ((upto o.aux.toNat).map (fun e => rdAt c o.a e l)), 0⟩) ∧
    requests (.xfPenc h o) o (runSpan (xfWidth d) (2 * o.aux.toNat)) (fun c l => pencOf d o.aux.toNat (rd c o.a l))

/-- Class 0x1 (06 R128 to R133): transfers of control to legal targets, and the pending reconvergence address. -/
def Obligations.ControlInstructionsComplete : Prop :=
  ∀ (h : Hdr) (o : OpB),
    let all (_ : Ctx) : Prop := True
    let none_ (_ : Ctx) : List RegWrite := []
    let target (c : Ctx) : DWord := directTarget c.f.pc o
    transfers (.bra h o) all none_ (fun c => toAll c.pass (target c)) ∧
    transfers (.brall h o) (fun c => c.pass = c.active) none_ (fun c => toAll c.active (target c)) ∧
    completes (.brall h o) (fun c => c.pass ≠ c.active) (fun c => c.s) none_ (fun _ => []) ∧
    transfers (.brany h o) (fun c => acts c = true) none_ (fun c => toAll c.active (target c)) ∧
    transfers (.brx h o) all none_ (fun c => toPair c o.a) ∧
    transfers (.call h o) all (fun c => linkWrites c o.l) (fun c => toAll c.pass (target c)) ∧
    transfers (.callx h o) all (fun c => linkWrites c o.l) (fun c => toPair c o.a) ∧
    transfers (.ret h o) all none_ (fun c => toPair c o.a) ∧
    transfers (.loop h o) all (loopWrites o) (loopBack o) ∧
    effects (.mrg h o) (fun c => acts c = true) (fun c => modGroup c.s c.key (fun g => { g with
      frags := Maps.modify c.frag (fun f => { f with recon := some (target c) }) g.frags })) ∧
    effects (.mrgx h o) (fun c => acts c = true ∧ badForm c c.s (BitVec.ofNat 64 (rdPair c o.a 0)) = none)
      (fun c => modGroup c.s c.key (fun g => { g with
        frags := Maps.modify c.frag (fun f => { f with recon := some (BitVec.ofNat 64 (rdPair c o.a 0)) }) g.frags }))

/-- Class 0x0 (06 R134 to R137; 01 R18; 21 R411, R412) and `exit` (01 R32). `brk` and `trap` complete by taking their trap. The last
group of a team drains its deterministic reductions in the step of its exit (DEDUCED, log entry 64); reads of %lstat wait as log
entry 24 says (DEDUCED), and the cycle counter moves on by a free value (DESIGN CHOICE, log entry 4). -/
def Obligations.SystemInstructionsComplete : Prop :=
  ∀ (h : Hdr) (o : OpS) (r : OpR),
    done (.nop h o) (fun _ => []) ∧
    done (.hint h o) (fun _ => []) ∧
    traps (.brk h o) (fun c => acts c = true) (fun c => { code := 0x18, lanes := c.active, info := o.imm.toNat }) (fun c => c.s) ∧
    traps (.trap h o) (fun c => acts c = true) (fun c => { code := 0x19, lanes := c.active, info := o.imm.toNat }) (fun c => c.s) ∧
    completes (.sread h o) (fun c => (sregRead c o.sreg.toNat 0).isSome = true ∧ lstatAwaits c o.sreg.toNat = false) (fun c => c.s)
      (fun c => wrLanes c o.a 1 (fun l => (sregRead c o.sreg.toNat l).getD 0)) (fun _ => []) ∧
    effects (.swrite h o)
      (fun c => acts c = true ∧ sregWritable o.sreg.toNat = true ∧ lstatAwaits c o.sreg.toNat = false)
      (fun c => sregWrite c o.sreg.toNat (fun l => rd c o.a l)) ∧
    (let n (c : Ctx) := c.s.cycles + Config.freeCycles c.s.fresh % (2 ^ 64 - c.s.cycles)
     completes (.cycrd h r) (fun _ => True) (fun c => { c.s with fresh := c.s.fresh + 1, cycles := n c })
      (fun c => wrLanes c r.d 2 (fun _ => n c)) (fun _ => [])) ∧
    moves (.rett h o) (fun c => acts c = true ∧ inh c.g = true ∧ badForm c c.s c.g.epc = none)
      (fun c => returnFromTrap c.key c.frag c.s) ∧
    (∀ s c bs s1, readyFor s (.rgn h o) = some c → acts c = true → fragCount c.g ≤ 1 →
      field o.imm.toNat 0 12 < c.tm.hdr.rcount →
      (let at_ := (c.tm.hdr.rtable + 64 * field o.imm.toNat 0 12) % 2 ^ 64
       at_ % 64 = 0 ∧ issueLoad c tableNeeds c.active at_ 64 = .ok (bs, s1)) →
      (bs.getD 40 0).toNat.testBit 0 = true → othersReady c = true →
      exec (.rgn h o) s = .next (retire c mMem (modGroup s1 c.key (openRegion c (field o.imm.toNat 0 12) bs)) (nextSlot c.f.pc) [] [])) ∧
    effects (.rgnend h o) (fun c => acts c = true) (fun c => modGroup c.s c.key (fun g => { g with region := none })) ∧
    effects (.exit h o) (fun c => acts c = true ∧ liveMask (leaveLanes c.frag c.pass c.g) ≠ 0)
      (fun c => modGroup (takeResults c.g c.pass c.s) c.key (leaveLanes c.frag c.pass)) ∧
    moves (.exit h o) (fun c => acts c = true ∧ liveMask (leaveLanes c.frag c.pass c.g) = 0 ∧ lastWithDets c = false)
      (fun c => endGroup (takeResults c.g c.pass c.s) c.key c.g.team) ∧
    moves (.exit h o) (fun c => acts c = true ∧ liveMask (leaveLanes c.frag c.pass c.g) = 0 ∧ lastWithDets c = true ∧
        detsBlocked c.s c.tm = false ∧ storeGate c.s c.key = none)
      (fun c => endGroup (drainDets (takeResults c.g c.pass c.s) c.g.team (some c.key)) c.key c.g.team)

/-- Class 0x8 but for `exit` (09 R182 to R191). An arrival or a sleep first leaves the fragment waiting; it completes once
what it waits for has come. A `yield` leaves the group's wait age at 0, and so does a `sleep` of no cycles (R190). A sleep of n cycles ends 2 n ticks of true time later (00 R6; DEDUCED, log entry 126), in minimal mode
too (DESIGN CHOICE, log entry 161). That a wait at a point or on a handle holds its group back is the model's reading (DEDUCED, log
entry 144). -/
def Obligations.RendezvousInstructionsComplete : Prop :=
  ∀ (h : Hdr) (o : OpR) (j : OpI) (b : OpB) (x : OpS),
    let n := field o.aux.toNat 0 5
    let m := field j.imm.toNat 16 5
    let count := field j.imm.toNat 0 10
    effects (.rpinit h j) (fun c => acts c = true ∧ m < 24 ∧ count ≠ 0 ∧ (rp c.tm m).arr = 0 ∧ (rp c.tm m).next = 0)
      (fun c => setRp c.s c.g.team m { rp c.tm m with count := count, init := true }) ∧
    issues (.rparr h o) (fun c => acts c = true ∧ n < 24 ∧ arriveBlocked c h.sc.toNat = false)
      (fun c => (arrive c o h.sc.toNat).2) ∧
    effects (.rpwait h o) (fun c => n < 24 ∧ (acts c = true → phaseDone (rp c.tm n) (BitVec.ofNat 32 (rd c o.a (lowActive c))) = true))
      (fun c => c.s) ∧
    waits (.rparw h o) (fun c => c.f.stage = .fresh ∧ acts c = true ∧ n < 24 ∧ arriveBlocked c h.sc.toNat = false)
      (fun c => modGroup (setStage c (arrive c o h.sc.toNat).2 (.own (arrive c o h.sc.toNat).1)) c.key (fun g => { g with region := none })) ∧
    (∀ id, effects (.rparw h o) (fun c => c.f.stage = .own id ∧ ownDone c id = true)
      (fun c => forgetArrivals (setStage c c.s .fresh))) ∧
    effects (.rpbytes h o) (fun c => acts c = true ∧ n < 24)
      (fun c => addPend c.s c.g.team n
        ((if isUni o.a then [0] else lanesOf c.pass).foldl (fun acc l => acc + sext 32 (rd c o.a l)) 0)) ∧
    effects (.yield h x) (fun c => acts c = true) (fun c => modGroup c.s c.key (fun g => { g with passed := 0 })) ∧
    transfers (.yieldto h b)
      (fun c => (c.f.stage = .fresh ∧ acts c = true ∧ rd c b.a 0 ≤ 63 ∧
          (handle (cluster c.s (clusterOf c.tm.core)) (rd c b.a 0)).state = 2 ∧
          (handle (cluster c.s (clusterOf c.tm.core)) (rd c b.a 0)).owner = c.tm.ctx) ∨
        ∃ y, c.f.stage = .yieldto y true)
      (fun _ => []) (fun c => toAll c.active (directTarget c.f.pc b)) ∧
    waits (.sleep h x) (fun c => c.f.stage = .fresh ∧ acts c = true ∧ x.imm ≠ 0)
      (fun c => setStage c c.s (.asleep (c.s.now + 2 * x.imm.toNat))) ∧
    effects (.sleep h x) (fun c => ∃ t, c.f.stage = .asleep t ∧ t ≤ c.s.now) (fun c => c.s) ∧
    effects (.sleep h x) (fun c => c.f.stage = .fresh ∧ acts c = true ∧ x.imm = 0)
      (fun c => modGroup c.s c.key (fun g => { g with passed := 0 }))

/-- The loads of class 0x9 and `pref` (12 R233 to R243). -/
def Obligations.LoadInstructionsComplete : Prop :=
  ∀ (h : Hdr) (o : OpM),
    let f := Checks.fmt h
    loads (.ld h o) o [0, 1, 2, 4] (l2Only h) (fmtBytes f) (fmtRegs f) (fmtLoad f) ∧
    loads (.ldacq h o) o [0, 1, 2] (l2Only h) (fmtBytes f) (fmtRegs f) (fmtLoad f) ∧
    (wideRegs h = 2 → loads (.ldw h o) o [0, 1, 2, 4] (l2Only h) 8 2 ofBytes) ∧
    (wideRegs h = 4 → loadsInHalves (.ldw h o) o (l2Only h)) ∧
    loadsOnce (.ldk h o) o (l2Only h) (fmtBytes f) (fmtRegs f) (fmtLoad f) ∧
    (∀ s c, readyFor s (.pref h o) = some c → acts c = true → (o.space = 0 ∨ o.space = 4) →
      ∃ s1, exec (.pref h o) s = .next (retire c mMem s1 (nextSlot c.f.pc) [] []) ∧ s1.mem = s.mem ∧ s1.groups = s.groups ∧
        s1.teams = s.teams ∧ s1.stores = s.stores)

/-- The stores of class 0x9 (12 R238 to R240): each accepts its stores; a `strel` holds them behind its release. Those to device
memory stay pending until they are performed. Those to scratch and to control registers act at once when nothing holds them
(DEDUCED, log entries 30 and 11), which `storePlace` says. -/
def Obligations.StoreInstructionsComplete : Prop :=
  ∀ (h : Hdr) (o : OpM),
    let f := Checks.fmt h
    stores (.st h o) o (l2Only h) (fmtBytes f) (fmtRegs f) ∧
    stores (.stw h o) o (l2Only h) (4 * wideRegs h) (wideRegs h) ∧
    (∀ s c ps s1, readyFor s (.strel h o) = some c →
      reaches c o (storeNeeds [0, 1, 2]) (laneAccs c o (fmtBytes f)) ps s1 →
      exec (.strel h o) s = .next (retire c mStore
        (storePlaces c (l2Only h) (some s1.uid) (fun a => toBytes (fmtBytes f) (rdData c o (fmtRegs f) a.lane)) ps (beginRelease s1 c h.sc.toNat 0).2)
        (nextSlot c.f.pc) [] (storeFlags ps))) ∧
    (∀ s c ps s1, readyFor s (.stk h o) = some c → reaches c o (storeNeeds [0, 1, 2]) (uniAccs c o (fmtBytes f)) ps s1 →
      exec (.stk h o) s = .next (retire c mStore
        (ps.foldl (fun s e => storePlace c (l2Only h) s 8 0 (toBytes (fmtBytes f) (rdData c o (fmtRegs f) 0)) (storeGate s c.key) e.2) s1)
        (nextSlot c.f.pc) [] ((ps.flatMap (fun e => (lanesOf c.pass).map (fun l => (l, policyFlags e.2 &&& lsFaulted)))).filter
          (fun e => e.2 != 0))))

/-- The FIFO accesses of class 0x9 (12 R242, 10 R201, R202), once their banks serve them. -/
def Obligations.FifoInstructionsComplete : Prop :=
  ∀ (h : Hdr) (o : OpM),
    let bs (c : Ctx) := fifoBanks (laneAccs c o 4)
    (∀ s c ps s1, readyFor s (.fpush h o) = some c → fifoGo c o true true ps s1 →
      exec (.fpush h o) s = .next (retire c mCopy
        (kickBanks (fifoPushAll c o (fifoLeft c o s1) (bs c)) (clusterOf c.tm.core)) (nextSlot c.f.pc) [] [])) ∧
    (∀ s c ps s1, readyFor s (.fpop h o) = some c → fifoGo c o false true ps s1 →
      exec (.fpop h o) s = .next (retire c mSysC
        (kickBanks (fifoDropAll c (fifoLeft c o s1) (bs c)) (clusterOf c.tm.core)) (nextSlot c.f.pc)
        (fifoWrites c o (fifoLeft c o s1) (bs c)) [])) ∧
    (∀ s c ps s1, readyFor s (.fpeek h o) = some c → fifoGo c o false false ps s1 →
      exec (.fpeek h o) s = .next (retire c mSys (fifoLeft c o s1) (nextSlot c.f.pc) (fifoWrites c o (fifoLeft c o s1) (bs c)) []))

/-- Atomics and reductions of class 0xA (12 R244 to R250). The exchange on BANKMODE completes with the outcomes of its mode
requests (10 R198). -/
def Obligations.AtomicInstructionsComplete : Prop :=
  ∀ (h : Hdr) (o : OpM) (x : OpS),
    let f := Checks.fmt h
    let n := fmtRegs f
    let op := field h.mod.toNat 0 3
    let plainOnly (c : Ctx) (ps : List (Acc × Place)) : Prop :=
      op = 6 ∧ n = 1 → ps.any (fun e => (bankOf e.2).isSome) = false ∧ inMode c.f.stage = false
    steps (.atom h o) o plainOnly (4 * n) (fun c l old => some (if op = 6 ∧ n = 1 then rd c o.data l else atomInt op f old (rdData c o n l))) ∧
    (∀ s c ps id g, readyFor s (.atom h o) = some c → op = 6 → n = 1 → c.f.stage = .mode id ps → placesLost c ps = false →
      group? c.s c.key = some g →
      (let mine := g.modeDone.filter (fun x => c.pass.testBit x.1)
       (ps.filter (fun e => (bankOf e.2).isSome)).all (fun e => mine.any (fun x => x.1 == e.1.lane)) = true ∧
         mine.all (fun x => decide (x.2 < 2 ^ 32)) = true) →
      stepsWait c c.s id (ps.filter (fun e => (bankOf e.2).isNone)) = false →
      finishesWith (.atom h o) s c (modesDone c o (fun l => rd c o.data l) id ps c.s)) ∧
    steps (.atomcas h o) o (fun _ _ => True) (4 * n) (fun c l old =>
      if old = field (rdData c o (2 * n) l) 0 (32 * n) then some (field (rdData c o (2 * n) l) (32 * n) (32 * n)) else none) ∧
    steps (.atomf h o) o (fun _ _ => True) 4 (fun c l old => some (atomFloat (field h.mod.toNat 0 2) f old (rd c o.data l))) ∧
    reduces (.red h o) h o false ∧
    reduces (.redf h o) h o true ∧
    buffers (.redDet h o) h o false ∧
    buffers (.redfDet h o) h o true ∧
    effects (.dflush h x) (fun c => acts c = true ∧ c.tm.dets ≠ [] ∧ detsBlocked c.s c.tm = false ∧ storeGate c.s c.key = none)
      (fun c => drainDets c.s c.g.team (some c.key))

/-- Fences and waits (12 R251, 11 R219 to R225). A `fwait` first begins its release and completes once that has. An acquire
completes at once; where accesses of its group have begun and are not complete, it holds back every later access until they are
(DEDUCED, log entry 151), and it needs nothing more (DEDUCED, log entry 29). -/
def Obligations.FenceInstructionsComplete : Prop :=
  ∀ (h : Hdr) (x : OpS),
    effects (.fenceAcq h x) (fun c => acts c = true → accessOpen c.s c.key = false) (fun c => c.s) ∧
    effects (.fenceAcq h x) (fun c => acts c = true ∧ accessOpen c.s c.key = true) (fun c =>
      let s1 := (beginRelease c.s c h.sc.toNat 2).2
      { s1 with rels := s1.rels.map (fun r => if r.id = c.s.uid then { r with acq := true } else r) }) ∧
    effects (.fenceRel h x) (fun c => acts c = true) (fun c => (beginRelease c.s c h.sc.toNat 1).2) ∧
    effects (.fenceAr h x) (fun c => acts c = true) (fun c => (beginRelease c.s c h.sc.toNat 2).2) ∧
    effects (.fenceSmp h x) (fun c => acts c = true) (fun c =>
      let s1 := (beginRelease (dropSampler c.s h.sc.toNat c.tm.core) c h.sc.toNat 2).2
      { s1 with rels := s1.rels.map (fun r => if r.id = c.s.uid then { r with smp := some c.tm.core } else r) }) ∧
    waits (.fwait h x) (fun c => c.f.stage = .fresh ∧ acts c = true)
      (fun c => setStage c (beginRelease c.s c h.sc.toNat 3).2 (.release c.s.uid)) ∧
    (∀ id, effects (.fwait h x) (fun c => c.f.stage = .release id ∧ released c.s id = true) (fun c => c.s))

/-- Gathers, scatters and cache control (12 R252 to R254). `ngath` binds its words and `cdisc` acts at issue (DEDUCED, log entry
10); `nscat` leaves pending stores (DEDUCED, log entry 8); `cdisc` leaves values that the bytes have held, which of them is free
(DESIGN CHOICE, log entry 25). A gather waits for a word that is on its way home (DEDUCED, log entry 138). -/
def Obligations.GatherAndCacheInstructionsComplete : Prop :=
  ∀ (h : Hdr) (o : OpM),
    let scope := h.sc.toNat
    (∀ s c ps s1, readyFor s (.ngath h o) = some c →
      reaches c o { spaces := [0], rd := 1, access := 1, ctrl := false } (gatherAccs c o) ps s1 → ps.any (wordWaits c) = false →
      exec (.ngath h o) s = .next (retire c mMem (ps.foldl (noteWord c) s1) (nextSlot c.f.pc)
        (ps.map (fun e => .v e.1.lane (regNo o.data + e.1.j) (BitVec.ofNat 32 (gatherWord c s1 e.1 e.2))))
        ((ps.map (fun e => (e.1.lane, policyFlags e.2))).filter (fun e => e.2 != 0)))) ∧
    (∀ s c ps s1, readyFor s (.nscat h o) = some c →
      reaches c o { spaces := [0], wr := 1, access := 2, stamped := false, ctrl := false } (gatherAccs c o) ps s1 →
      exec (.nscat h o) s = .next (retire c mStore
        (storePlaces c false (storeGate s1 c.key) (fun a => toBytes 4 (rdAt c o.data (8 + a.j) a.lane)) ps s1)
        (nextSlot c.f.pc) [] (storeFlags ps))) ∧
    (∀ s c pas s1, readyFor s (.cwb h o) = some c → acts c = true → cachePas c o [0] = .ok (pas, s1) →
      stillDirty s1 scope c.tm.core (isBlk h) pas = false →
      exec (.cwb h o) s = .next (retire c mMem (giveUp s1 scope c.tm.core (isBlk h) pas) (nextSlot c.f.pc) [] [])) ∧
    (∀ s c pas s1, readyFor s (.cinv h o) = some c → acts c = true → cachePas c o [0, 4] = .ok (pas, s1) → o.space = 4 →
      exec (.cinv h o) s = .next (retire c mMem (modCores s1 scope c.tm.core (fun k => { k with
        smlines := k.smlines.filter (fun e => !pas.any (fun pa => namedBy (isBlk h) pa e.1)) })) (nextSlot c.f.pc) [] [])) ∧
    (∀ s c pas s1, readyFor s (.cinv h o) = some c → acts c = true → cachePas c o [0, 4] = .ok (pas, s1) → o.space ≠ 4 →
      stillDirty s1 scope c.tm.core (isBlk h) pas = false →
      exec (.cinv h o) s = .next (retire c mMem
        (dropNamed (giveUp s1 scope c.tm.core (isBlk h) pas) scope c.tm.core (isBlk h) pas) (nextSlot c.f.pc) [] [])) ∧
    (∀ s c ps s1, readyFor s (.cdisc h o) = some c →
      reaches c o { spaces := [0], wr := 1, access := 2, stamped := false, ctrl := false } (laneAccs c o 1) ps s1 →
      storeGate s1 c.key = none →
      (let pas := ps.flatMap (fun e => match e.2 with | .mem pa _ => [pa] | _ => [])
       (namedLines (isBlk h) pas).any (fun l => !reachable s1 (dieOf c.tm.core) (l * 128) 128) = false →
       stillDirty s1 scope c.tm.core (isBlk h) pas = false →
       (namedLines (isBlk h) pas).any (fun l => migrating s1 (l * 128) ||
          overlapping s1 (dieOf c.tm.core) none (l * 128) 128 s1.uid) = false →
       exec (.cdisc h o) s = .next (retire c mStore
        (dropNamed ((namedLines (isBlk h) pas).foldl (discardLine c) s1) scope c.tm.core (isBlk h) pas)
        (nextSlot c.f.pc) [] (storeFlags ps)))) ∧
    (∀ s c pas s1, readyFor s (.icinv h o) = some c → acts c = true → cachePas c o [0] = .ok (pas, s1) →
      exec (.icinv h o) s = .next (retire c mMem (modCores s1 scope c.tm.core (fun k => { k with
        ilines := k.ilines.filter (fun e => !pas.any (fun pa => namedBy (isBlk h) pa e.1)) })) (nextSlot c.f.pc) [] []))

/-- Copies of class 0xB (13 R263 to R265): an accepted command takes its place at the copy engine. -/
def Obligations.CopyInstructionsComplete : Prop :=
  ∀ (h : Hdr) (o : OpR),
    effects (.cpy h o) (fun c => acts c = true ∧ copyOk c c.s (cpyCommand h o c)) (fun c => copyTaken c c.s (cpyCommand h o c)) ∧
    effects (.cpyo h o) (fun c => acts c = true ∧ copyOk c c.s (cpyoCommand h o c)) (fun c => copyTaken c c.s (cpyoCommand h o c)) ∧
    (∀ s c bs s1, readyFor s (.cpyq h o) = some c → acts c = true → readPacket c (rdPair c o.a 0) = .ok (bs, s1) →
      descField bs 0 4 = 2 → packetReserved bs = true → Checks.copyPair (packetCopy bs).dfmt (packetCopy bs).sfmt = true →
      copyOk c s1 (packetCopy bs) →
      exec (.cpyq h o) s = .next (retire c mStoreC (copyTaken c s1 (packetCopy bs)) (nextSlot c.f.pc) [] []))

/-- Handles and `publish` (13 R270 to R274). A `publish` first takes its place at the hub and completes with its stamp. -/
def Obligations.HandleInstructionsComplete : Prop :=
  ∀ (h : Hdr) (o : OpR),
    let cl (c : Ctx) := clusterOf c.tm.core
    let n (c : Ctx) := rd c o.a 0
    let st (c : Ctx) := (handleOf c o.a).state
    effects (.halloc h o)
      (fun c => acts c = true ∧ n c ≤ 63 ∧ rd c o.c 0 ≠ 0 ∧
        (o.aux.toNat = 1 → hallocFits c (rdPair c o.b 0) (rd c o.c 0) = true) ∧ foreign (handleOf c o.a) c.tm.ctx = false ∧ st c = 0)
      (fun c => setHandle c.s (cl c) (n c)
        { state := 1, base := rdPair c o.b 0, size := rd c o.c 0, space := o.aux.toNat, owner := c.tm.ctx, team := c.g.team }) ∧
    effects (.hfree h o)
      (fun c => acts c = true ∧ handleGone c.f.stage = false ∧ handleLegal c o.a = true ∧ st c ≠ 0 ∧ st c ≠ 1)
      (fun c => releaseHandle (leaveHandle c o.a) (cl c) (n c)) ∧
    effects (.hwaitTake h o)
      (fun c => acts c = true ∧ c.f.stage ≠ .released ∧ handleGone c.f.stage = false ∧ handleLegal c o.a = true ∧ st c = 2)
      (fun c => setHandle (leaveHandle c o.a) (cl c) (n c)
        { handle (cluster (leaveHandle c o.a) (cl c)) (n c) with state := 3 }) ∧
    effects (.hwaitTake h o) (fun c => acts c = true ∧ c.f.stage = .released) (fun c => c.s) ∧
    effects (.hwaitPeek h o)
      (fun c => acts c = true ∧ c.f.stage ≠ .released ∧ handleGone c.f.stage = false ∧ handleLegal c o.a = true ∧ st c ≠ 0 ∧ st c ≠ 1)
      (fun c => leaveHandle c o.a) ∧
    effects (.hwaitPeek h o) (fun c => acts c = true ∧ c.f.stage = .released) (fun c => c.s) ∧
    completes (.hstat h o) (fun c => acts c = true ∧ handleLegal c o.a = true) (fun c => c.s)
      (fun c => wrLanes c o.d 2 (fun _ => st c + 2 ^ 32 * (handleOf c o.a).landed)) (fun _ => []) ∧
    (∀ s c s1, readyFor s (.publish h o) = some c → acts c = true → c.f.stage = .fresh →
      canonical (rdPair c o.a 0) = true → rdPair c o.a 0 % 65536 = 0 → rd c o.b 0 ≠ 0 → rd c o.b 0 ≤ 65536 →
      publishTr c (rangePages (rdPair c o.a 0) (rd c o.b 0)) c.s = .ok s1 →
      rangeLeaves s1 c.tm.ctx (rdPair c o.a 0) (rd c o.b 0) = true →
      exec (.publish h o) s = .next (setStage c { s1 with uid := s1.uid + 1, publishes := s1.publishes ++
        [{ id := s1.uid, ctx := c.tm.ctx, group := c.key, frag := c.frag, base := rdPair c o.a 0, count := rd c o.b 0,
           scope := h.sc.toNat }] } (.publish s1.uid))) ∧
    (∀ id p t, completes (.publish h o)
      (fun c => c.f.stage = .publish id ∧ c.s.publishes.find? (fun q => q.id == id) = some p ∧ p.stamp = some t)
      (fun c => { c.s with publishes := c.s.publishes.filter (fun q => q.id != id) })
      (fun c => wrLanes c o.d 2 (fun _ => t)) (fun _ => []))

/-- Class 0xF (24 R426 to R433). A `stcm` begins with its release, once no access of its group is open (DEDUCED, log entry 33), sends
its lanes past the width check, and completes when its versions are visible. One that has waited for the width compares it and proceeds with
the places that it has (25 R435, 21 R394; DEDUCED, log entry 33). -/
def Obligations.AlmanacInstructionsComplete : Prop :=
  ∀ (h : Hdr) (o : OpR) (m : OpM) (x : OpS),
    let k (c : Ctx) : Die := die c.s (dieOf c.tm.core)
    completes (.alm h o) (fun _ => True)
      (fun c => if acts c = true then modGroup c.s c.key (fun g => { g with almE := (k c).e, almL := (k c).l }) else c.s)
      (fun c => wrLanes c o.d 2 (fun _ => (k c).e) ++ wrLanes c o.c 2 (fun _ => (k c).l)) (fun _ => []) ∧
    completes (.almhz h o) (fun _ => True)
      (fun c => if acts c = true then modGroup c.s c.key (fun g => { g with almH := (k c).h }) else c.s)
      (fun c => wrLanes c o.d 2 (fun _ => (k c).h)) (fun _ => []) ∧
    waits (.stcm h m) (fun c => c.f.stage = .fresh ∧ acts c = true ∧ accessOpen c.s c.key = false)
      (fun c => setStage c (beginRelease c.s c 6 0).2 (.sending c.s.uid)) ∧
    (∀ s c ps s1, readyFor s (.stcm h m) = some c →
      ((∃ id, c.f.stage = .sending id ∧ released c.s id = true ∧ access c m stcmNeeds (laneAccs c m 8) = .ok (ps, s1) ∧ unstamped ps = 0) ∨
        (∃ t, c.f.stage = .sendWidth t ps ∧ placesLost c ps = false ∧ s1 = c.s)) →
      width? s1 (dieOf c.tm.core) ≤ (die s1 (dieOf c.tm.core)).almlimit.toNat →
      maskOf ((ps.filter (fun e => match e.2 with | .mem _ _ => false | _ => true)).map (fun e => e.1.lane)) ≠ c.pass →
      exec (.stcm h m) s = .next (setStage c (sendLanes c m ps s1) (.commit (die s1 (dieOf c.tm.core)).l
        (maskOf ((ps.filter (fun e => match e.2 with | .mem _ _ => false | _ => true)).map (fun e => e.1.lane)))))) ∧
    (∀ s c stamp d, readyFor s (.stcm h m) = some c → c.f.stage = .commit stamp d → (ownLanes c c.s).any (laneLost c.s) = false →
      (ownLanes c c.s).all (laneVisible c.s) = true → finishesWith (.stcm h m) s c (commitDone c m stamp d c.s)) ∧
    (∀ s c ps s0 s1, readyFor s (.ldasof h o) = some c → acts c = true → rdPair c o.b 0 < (k c).l + 2 ^ 40 →
      ((c.f.stage = .horizon ∧ s0 = c.s) ∨
        (c.f.stage ≠ .horizon ∧ width? c.s (dieOf c.tm.core) ≤ (k c).almlimit.toNat ∧ s0 = setStage c c.s .horizon)) →
      rdPair c o.b 0 < (k c).h →
      resolve c s0 0 0 { spaces := [0], rd := 1, access := 1, ctrl := false }
        ((lanesOf c.pass).map (fun l => { lane := l, ea := rdPair c o.a l, n := 8 })) = .ok (ps, s1) →
      unstamped ps = 0 → maskOf ((ps.filter (fun e => evicted s1 (rdPair c o.b 0) e.2)).map (fun e => e.1.lane)) = 0 →
      exec (.ldasof h o) s = .next (retire c mMem s1 (nextSlot c.f.pc)
        (ps.flatMap (fun e => wrN o.d 4 e.1.lane (asofValue s1 (rdPair c o.b 0) e.2)))
        ((ps.map (fun e => (e.1.lane, policyFlags e.2))).filter (fun e => e.2 != 0)))) ∧
    effects (.almwait h x) (fun c => acts c = true → passed c.s (dieOf c.tm.core) (rdPair c x.a 0) = true) (fun c => c.s)

/-- The station's instructions of class 0xD (16 R313 to R316, R328): a `neval` enters its requests and opens its windows. -/
def Obligations.NevalInstructionsComplete : Prop :=
  ∀ (h : Hdr) (o : OpR),
    (∀ s c x entry net s1, readyFor s (.neval h o) = some c → acts c = true → Maps.find? c.tm.ctx c.s.contexts = some x →
      nevNets c x (rd c o.b) = .ok (entry, net, s1) →
      (lanesOf c.pass).all (fun l =>
        decide (regNo o.a + netInRegs (net l) ≤ c.g.nv) && decide (regNo o.d + netOutRegs (net l) ≤ c.g.nv)) = true →
      (nevNames c o net).any (fun n => (held c.g).contains n) = false →
      (let k := c.tm.core
       let reqs := (lanesOf c.pass).map (nevReq c o s1.uid entry net)
       let s2 := refillStation s1 k
       let r := admitReqs (s2.uid + 16) (nevQuota s2 k) reqs (Ops.core s2 k)
       r.2 = [] → nevPending (Ops.core s2 k) + reqs.length ≤ 4096 →
       ringReaches s2 k (r.1.nspill.length - (Ops.core s2 k).nspill.length) = true →
       exec (.neval h o) s = .next (retire { c with h := { c.h with la := 0 } } mMemC
        (openNev c (writeRing (setCore { s2 with uid := s2.uid + 17 } k r.1) k (r.1.nspill.length - (Ops.core s2 k).nspill.length))
          (reqs.map (fun q => (q, netOutRegs q.net)))) (nextSlot c.f.pc) [] []))) ∧
    done (.nevstatCnt h o) (fun c => wrLanes c o.d 1 (fun _ => unlanded c.g)) ∧
    completes (.nevstatKick h o) (fun _ => True)
      (fun c => if acts c = true ∧ unlanded c.g ≠ 0 then kickSlots c.s c.tm.core (fun r => r.group == c.key) else c.s)
      (fun c => wrLanes c o.d 1 (fun _ => unlanded c.g)) (fun _ => [])

namespace Sys2Proof.Claims

/-- The run of `n` registers that an emission reads is accessible (18 R365 check 4). -/
def runOk (c : Ctx) (o : OpG) (n : Nat) : Prop := Opnd.legal c.g (runOpnd o n) = true

/-- The plans of the emissions: what becomes of each lane (17 R345, 18 R374). -/
def vertexPlan (c : Ctx) := emitPlan (fun _ => false) c.tm.hdr.vertLimit (lanesOf c.pass) c.g.vc
def trianglePlan (o : OpG) (c : Ctx) :=
  emitPlan (fun l => (upto 3).any (fun j => decide (c.g.vc ≤ rdAt c o.a j l))) c.tm.hdr.primLimit (lanesOf c.pass) c.g.pc
def splatPlan (c : Ctx) := emitPlan (fun _ => false) c.tm.hdr.primLimit (lanesOf c.pass) c.g.pc

/-- An emission at a bound set completes with the result of its effect, when no enabled trap arises. -/
def emits (i : Instr) (o : OpG) (n : Nat) (plan : Ctx → List (Nat × Emitted)) (body : Ctx → Nat → List Byte → State → Res) : Prop :=
  ∀ s c x pa leaf s1, readyFor s i = some c → atRecord c o false x pa leaf s1 → runOk c o n →
    emitsTo s1 c x (seenBytes s1 pa 256) = true → emitTrap c (plan c) s1 = none →
    finishesWith i s c (body c x (seenBytes s1 pa 256) s1)

/-- The places of the lanes of `ssadd`, with the state after their translations; their accesses. -/
def addPlan (c : Ctx) (rec : List Byte) (s : State) : List (Nat × Option (Acc × Tr × Nat)) × State :=
  planAdd c { spaces := [0], wr := 1, access := 2, stamped := false, ctrl := false } rec (lanesOf c.pass) (recCount rec + recLate rec) s
def addTrs (c : Ctx) (rec : List Byte) (s : State) : List (Acc × Tr) :=
  (addPlan c rec s).1.filterMap (fun e => e.2.map (fun x => (x.1, x.2.1)))

/-- Every sample that `ssadd` appends can be written now. -/
def addable (c : Ctx) (rec : List Byte) (s : State) : Prop :=
  lanesWhere (addTrs c rec s) (fun t => t == .noncanon) = 0 ∧
  judge (addPlan c rec s).2 { spaces := [0], wr := 1, access := 2, stamped := false, ctrl := false } (addTrs c rec s) = none ∧
  (addTrs c rec s).any (fun e => match e.2 with | .ok p _ _ _ => setBlocked c (addPlan c rec s).2 p 64 | _ => false) = false

end Sys2Proof.Claims

/-- The sample-set instructions of class 0xE (18 R365 to R373): each completes at its record, which a page with RD alone lets it
write (DEDUCED, log entry 81). An `ssfree` whose set the end of its pass has freed is complete (R372). -/
def Obligations.SampleSetInstructionsComplete : Prop :=
  ∀ (h : Hdr) (o : OpG),
    (∀ s c x pa leaf s1, readyFor s (.ssnew h o) = some c → atRecord c o true x pa leaf s1 →
      recState (seenBytes s1 pa 256) = 0 → paramsOk (seenBytes s1 pa 256) = true → recKind (seenBytes s1 pa 256) ≠ 0 →
      exec (.ssnew h o) s = .next (retire c mMemC
        (putSet (setWrite c s1 pa (putState (freshRecord (seenBytes s1 pa 256)) 1)) c x { ctx := c.tm.ctx, handle := x })
        (nextSlot c.f.pc) (wrLanes c o.d 1 (fun _ => 0)) [])) ∧
    (∀ s c x pa leaf s1 ws ix, readyFor s (.ssnew h o) = some c → atRecord c o true x pa leaf s1 →
      (let rc := seenBytes s1 pa 256
       let g := topGrid (recCellreq rc) (latticePoints (recGw rc) (recCap rc))
       recState rc = 0 → paramsOk rc = true → recKind rc = 0 → buildCode rc g (recCap rc) = 0 →
       setRange c s1 0 1 c.active (recSamples rc) (64 * recCap rc) = .ok ws →
       setRange c s1 0 1 c.active (recIndex rc) (indexBytes g (recCap rc)) = .ok ix →
       finishesWith (.ssnew h o) s c (newGrid c o x pa rc s1))) ∧
    (∀ s c x pa leaf s1, readyFor s (.ssadd h o) = some c → atRecord c o true x pa leaf s1 →
      (let rc := seenBytes s1 pa 256
       Opnd.legal c.g (addRun o (recFp rc)) = true → (addRun o (recFp rc)).names.any (fun n => (held c.g).contains n) = false →
       recState rc ≠ 0 → addable c rc s1 →
       finishesWith (.ssadd h o) s c (addSamples c o x pa rc (addPlan c rc s1).1 (addPlan c rc s1).2))) ∧
    (∀ s c x pa leaf s1 b, readyFor s (.ssbuild h o) = some c → atRecord c o true x pa leaf s1 →
      recState (seenBytes s1 pa 256) ≠ 0 → recState (seenBytes s1 pa 256) ≠ 3 → planBuild c s1 (seenBytes s1 pa 256) = .ok b →
      exec (.ssbuild h o) s = .next (retire c mMemC (applyBuild c x pa b s1) (nextSlot c.f.pc) (wrLanes c o.d 1 (fun _ => b.code)) [])) ∧
    (∀ (again : Bool) s c x pa leaf s1, readyFor s (if again then .ssrebind h o else .ssbind h o) = some c →
      atRecord c o true x pa leaf s1 → bindReplayed c s1 x (seenBytes s1 pa 256) = true →
      exec (if again then .ssrebind h o else .ssbind h o) s = .next (retire c mMem s1 (nextSlot c.f.pc)
        (wrLanes c o.d 1 (fun _ => recPass (seenBytes s1 pa 256))) [])) ∧
    (∀ s c x pa leaf s1 heads hdr ws, readyFor s (.ssbind h o) = some c → atRecord c o true x pa leaf s1 →
      (let rc := seenBytes s1 pa 256
       bindReplayed c s1 x rc = false → bindChecks c s1 rc (bindArgs c o) = .ok (heads, hdr) →
       planBind c s1 rc (bindArgs c o) heads = .ok ws →
       finishesWith (.ssbind h o) s c (applyBind c o x pa rc (bindArgs c o) hdr ws s1))) ∧
    (∀ s c x pa leaf s1 heads hdr b ws, readyFor s (.ssrebind h o) = some c → atRecord c o true x pa leaf s1 →
      (let rc := seenBytes s1 pa 256
       bindReplayed c s1 x rc = false → bindChecks c s1 rc (bindArgs c o) = .ok (heads, hdr) → planBuild c s1 rc = .ok b →
       (b.code ≠ 0 → exec (.ssrebind h o) s = .next (retire c mMem (applyBuild c x pa b s1) (nextSlot c.f.pc)
          (wrLanes c o.d 1 (fun _ => 0xFFFFFFFF)) [])) ∧
       (b.code = 0 → planBind c s1 b.out (bindArgs c o) heads = .ok ws →
          finishesWith (.ssrebind h o) s c (applyBind c o x pa b.out (bindArgs c o) hdr ws (applyBuild c x pa b s1))))) ∧
    effects (.ssfree h o) (fun c => c.f.stage = .released) (fun c => c.s) ∧
    (∀ s c x pa leaf s1, readyFor s (.ssfree h o) = some c → atRecord c o true x pa leaf s1 → c.f.stage ≠ .released →
      (let rc := seenBytes s1 pa 256
       recState rc ≠ 0 → recState rc ≠ 3 → ticketOf c.f.stage = none ∨ (setSt s1 c x).freers = [] →
       exec (.ssfree h o) s = .next (retire c mMemC (freeSet c x pa s1) (nextSlot c.f.pc) [] []))) ∧
    (∀ s c x pa leaf s1 t f fs, readyFor s (.ssfree h o) = some c → atRecord c o true x pa leaf s1 →
      (let rc := seenBytes s1 pa 256
       recState rc ≠ 0 → recState rc ≠ 3 → ticketOf c.f.stage = some t → (setSt s1 c x).freers = f :: fs →
       f.1 = t ∨ (f :: fs).all (fun e => e.1 != t) = true →
       exec (.ssfree h o) s = .next (retire c mMemC (freeSet c x pa s1) (nextSlot c.f.pc) [] []))) ∧
    (∀ s c x pa leaf s1, readyFor s (.ssget h o) = some c → atRecord c o false x pa leaf s1 →
      exec (.ssget h o) s = .next (retire c mMem s1 (nextSlot c.f.pc)
        (wrLanes c o.d 1 (fun _ => if o.sub.toNat = 0 then descField (seenBytes s1 pa 256) 0 4 % 4
          else descField (seenBytes s1 pa 256) (getOffset o.sub.toNat) 4)) []))

/-- The emissions and `rflush` (18 R374 to R376): vertices enter the group's store, primitives and flushes the binner's work;
and the instructions of fragment kernels (R377, R378). A `fout` whose guard holds in no lane completes for every channel (DEDUCED,
log entry 98). -/
def Obligations.EmissionAndFragmentInstructionsComplete : Prop :=
  ∀ (h : Hdr) (o : OpG),
    emits (.emitv h o) o (3 + o.imm16.toNat) vertexPlan (fun c x rec s => emitVertices c o x rec s) ∧
    emits (.emit h o) o 3 (trianglePlan o) (fun c x rec s => emitPrims c o false
      (fun l => (upto 3).any (fun j => decide (c.g.vc ≤ rdAt c o.a j l)))
      (fun l => (upto 3).map (fun j => vertexWords c.g (rdAt c o.a j l))) x rec s) ∧
    emits (.emitsp h o) o 9 splatPlan (fun c x rec s => emitPrims c o true (fun _ => false) (fun l => [splatWords c o l]) x rec s) ∧
    (∀ s c x pa leaf s1, readyFor s (.rflush h o) = some c → atRecord c o false x pa leaf s1 →
      emitsTo s1 c x (seenBytes s1 pa 256) = true →
      (let d := (setSt s1 c x).binner
       let s2 := if o.imm16 == 1 then putSet s1 c x { setSt s1 c x with ending := true } else s1
       let s3 := sendWork s2 d { ctx := c.tm.ctx, set := setKey c.tm.ctx x, owner := c.key, ending := o.imm16 == 1 }
       exec (.rflush h o) s = .next (retire c mMemC { s3 with agenda := s3.agenda ++ [.event (.binnerInsert d)] }
         (nextSlot c.f.pc) [] []))) ∧
    done (.fin h o) (fun c => wrLanes c o.d (if finPair o.sub.toNat then 2 else 1) (fragInput c.g o.sub.toNat o.imm16.toNat)) ∧
    effects (.fout h o) (fun c => acts c = true → o.sub.toNat < (shadeOf c.g).nch) (fun c => recordLanes c (fun l x =>
      { x with channels := Maps.insert o.sub.toNat (BitVec.ofNat 32 (rd c o.a l)) x.channels })) ∧
    effects (.fdep h o) (fun _ => True) (fun c => recordLanes c (fun l x => { x with depth := some (BitVec.ofNat 32 (rd c o.a l)) })) ∧
    effects (.disc h o) (fun _ => True) (fun c =>
      (lanesOf c.pass).foldl (fun s l => modGroup s c.key (modFragLane l (fun x => { x with demoted := true }))) c.s)

/-- The stream instructions of class 0xD (15 R292 to R300): each completes in the team's sequencer. A latch from registers waits for
results due there that stand in no open window (DEDUCED, log entry 172). -/
def Obligations.StreamInstructionsComplete : Prop :=
  ∀ (h : Hdr) (o : OpX),
    let all (_ : Nat) (_ : Team) (_ : Seq) (_ : State) : Prop := True
    let bs (tm : Team) (n : Nat) := seqBytes tm o.y.toNat (3 * n)
    let n := if o.cnt = 1 then 256 else 64
    streamDone (.mlda h o) o false all (fun t _ _ s => modSeq s t (fun q => { q with
      aoff := BitVec.ofNat 32 o.y.toNat, astride := o.w.toNat, afmt := Checks.fmt h })) ∧
    (∀ s t tm q s1 g0 g1 g2 g3, streamReady s o false = some (t, tm, q, s1) → o.cnt.toNat + 3 < teamGroups tm →
      group? s1 (groupKey t o.cnt.toNat) = some g0 → group? s1 (groupKey t (o.cnt.toNat + 1)) = some g1 →
      group? s1 (groupKey t (o.cnt.toNat + 2)) = some g2 → group? s1 (groupKey t (o.cnt.toNat + 3)) = some g3 →
      (let f := Checks.fmt h
       let vb := field o.w.toNat 0 8
       let r := quarterRegs f
       let img := [g0, g1, g2, g3].flatMap (fun g => quarterBytes g vb r)
       vb % 8 = 0 → [g0, g1, g2, g3].all (fun g => decide (vb + r ≤ g.nv) && !resultDue g vb r) = true →
       (f = 9 ∨ scaleBlockOk tm o.y.toNat 64 = true) →
       exec (.mldb h o) s = .next (moveSeq (modSeq s1 t (fun q => { q with
        latch := latchOf f false img (if f = 9 then 0 else 64) (if f = 9 then [] else seqBytes tm o.y.toNat 192) })) t nextSlot))) ∧
    (let f := Checks.fmt h
     let batched := o.cnt == 1
     let rows := if batched then 256 else 32
     let bytes := imageBytes f (if batched then 16 else 64)
     let cols := if f = 9 then 0 else if batched then 256 else 64
     let z := if f = 9 then 2 else 1
     let y := o.y.toNat
     let w := o.w.toNat
     streamDone (.mldbs h o) o false
      (fun _ tm _ _ => y % z = 0 ∧ w % z = 0 ∧ inScratch tm (y + (rows - 1) * w) bytes = true ∧
        (f = 9 ∨ scaleBlockOk tm (y + rows * w) cols = true))
      (fun t tm _ s => modSeq s t (fun q => { q with
        latch := latchOf f batched ((upto rows).flatMap (fun r => seqBytes tm (y + r * w) bytes)) cols
          (seqBytes tm (y + rows * w) (3 * cols)) }))) ∧
    streamDone (.mscale h o) o false (fun _ tm _ _ => scaleBlockOk tm o.y.toNat n = true)
      (fun t tm _ s => modSeq s t (fun q => { q with saScale := Maps.putAll 0 0 (blockScales (bs tm n) n) q.saScale,
                                                     saZero := Maps.putAll 0 0 (blockZeros (bs tm n) n) q.saZero })) ∧
    (∀ (batched : Bool) s t tm q s1 phys s2, streamReady s o false = some (t, tm, q, s1) → mmaOk tm q batched = true →
      o.tile.toNat < tm.hdr.acc → claims t tm q o s1 phys s2 → q.granted = true →
      exec (if batched then .mmaBat h o else .mma h o) s = .next (moveSeq
        (modSeq (putTile s2 tm.core phys (mmaTile tm q batched (tileWords (Ops.core s2 tm.core) phys).toArray)) t
          (fun x => { x with aoff := BitVec.ofNat 32 (wrap 32 ((q.aoff.toNat : Int) + sext 24 o.y.toNat)) })) t nextSlot)) ∧
    (∀ s t tm q s1 phys s2, streamReady s o false = some (t, tm, q, s1) → claims t tm q o s1 phys s2 →
      exec (.mzero h o) s = .next (moveSeq (putTile s2 tm.core phys (List.replicate 4096 0)) t nextSlot)) ∧
    (∀ s t tm q s1 phys s2, streamReady s o false = some (t, tm, q, s1) → moveOk tm o = true → claims t tm q o s1 phys s2 →
      (let ws := (tileWords (Ops.core s2 tm.core) phys).toArray
       let elem (i : Nat) : List Byte :=
         if o.cnt = 1 then toBytes 2 (bfOf (ws.getD i 0).toNat) else toBytes 4 (ws.getD i 0).toNat
       exec (.mstacc h o) s = .next (moveSeq (modTeam s2 t (fun x => { x with
        scratch := (upto 64).foldl (fun sc m => Maps.putAll 0 (o.y.toNat + m * o.w.toNat)
          ((upto 64).flatMap (fun n => elem (64 * m + n))) sc) x.scratch })) t nextSlot))) ∧
    (∀ s t tm q s1 phys s2, streamReady s o false = some (t, tm, q, s1) → moveOk tm o = true → claims t tm q o s1 phys s2 →
      (let z := moveSize o
       let elem (m n : Nat) : Nat := ofBytes (((seqBytes tm (o.y.toNat + m * o.w.toNat) (64 * z)).drop (z * n)).take z)
       exec (.mldacc h o) s = .next (moveSeq (putTile s2 tm.core phys ((upto 64).flatMap (fun m => (upto 64).map (fun n =>
        BitVec.ofNat 32 (if z = 2 then (Num.toF32 Num.bf16 (elem m n)).bits else elem m n))))) t nextSlot))) ∧
    (∀ s t tm q s1, streamReady s o false = some (t, tm, q, s1) →
      (q.depth = field o.w.toNat 0 2 ∨ q.depth = field o.w.toNat 0 2 + 1) →
      (if q.depth = field o.w.toNat 0 2 then o.cnt.toNat else Maps.get 0 (field o.w.toNat 0 2) q.lstk) ≤ 1 →
      exec (.mloop h o) s = .next (moveSeq (modSeq s1 t (fun q => { q with
        lstk := Maps.set 0 (field o.w.toNat 0 2) 0 q.lstk, depth := field o.w.toNat 0 2 })) t nextSlot)) ∧
    (∀ s t tm q s1 s2 n target, streamReady s o false = some (t, tm, q, s1) →
      (q.depth = field o.w.toNat 0 2 ∨ q.depth = field o.w.toNat 0 2 + 1) →
      n = (if q.depth = field o.w.toNat 0 2 then o.cnt.toNat else Maps.get 0 (field o.w.toNat 0 2) q.lstk) - 1 → n ≠ 0 →
      target = BitVec.ofNat 64 (wrap 64 ((lineOf q.spc : Int) + 64 * sext 24 o.y.toNat) + o.sl.toNat) →
      checkStreamTarget tm target s1 = .ok s2 →
      exec (.mloop h o) s = .next (moveSeq (modSeq s2 t (fun q => { q with
        lstk := Maps.set 0 (field o.w.toNat 0 2) n q.lstk, depth := field o.w.toNat 0 2 + 1 })) t (fun _ => target))) ∧
    streamDone (.marr h o) o true
      (fun _ tm _ _ => (rp tm o.rp.toNat).init = true ∧
        ((rp tm o.rp.toNat).arr < (rp tm o.rp.toNat).count ∨ (rp tm o.rp.toNat).next < (rp tm o.rp.toNat).count))
      (fun t _ _ s => countArrival { s with uid := s.uid + 1, arrivals := s.arrivals ++ [{ id := s.uid, team := t, rp := o.rp.toNat }] }
        { id := s.uid, team := t, rp := o.rp.toNat }) ∧
    streamDone (.mwait h o) o false all (fun _ _ _ s => s) ∧
    (∀ s t tm q s1, streamReady s o false = some (t, tm, q, s1) →
      exec (.mend h o) s = .next (settleTeam (modSeq s1 t (fun q => { q with ended := true })) t))

/-! ### Every event completes -/

/-- Events of memory, rendezvous points, FIFO banks and results (09 R185, R190; 10 R202; 11 R211, R219, R229; 01 R30), and of
the copy engines, the queues, the dispatcher, the issue ports and the transform pipes (13 R259 to R268; 08 R163 to R170). A release
that completes drops sampler lines once more (DEDUCED, log entry 27). -/
def Obligations.MemoryAndEngineEventsComplete : Prop :=
  ∀ (s : State) (n k a b : Nat),
    (∀ a, s.arrivals.find? (fun x => x.id == n) = some a → exec (.rendezvousArrivalCount n) s = .next (countArrival s a)) ∧
    (∀ g, group? s n = some g → exec (.sleepExpiry n) s = .next { s with agenda := s.agenda ++
      (g.frags.filter (fun e => match e.2.stage with | .asleep t => decide (t ≤ s.now) | _ => false)).map (fun e => Act.wake n e.1) }) ∧
    (exec (.fifoWaitServed n k) s = .next { s with agenda := s.agenda ++
      (((bank (cluster s n) k).waits.filter (fun w => w.push)) ++
        (((bank (cluster s n) k).waits.filter (fun w => !w.push)).take 1)).flatMap (fun w =>
          match group? s w.group with
          | none => []
          | some g => (g.frags.filter (fun e => e.2.stage == .ticket w.id)).map (fun e => Act.wake w.group e.1)) }) ∧
    (∀ p, s.stores.find? (fun x => x.id == n) = some p → mayPerform s p = true → ctlBehind s p = false →
      exec (.storePerform n) s = .next (performPending s p)) ∧
    (∀ r, s.rels.find? (fun x => x.id == n) = some r → releaseHolds s r = true → exec (.releaseComplete n) s = .next
      (match r.smp with
       | some c => dropSampler { s with rels := s.rels.filter (fun x => x.id != n) } r.scope c
       | none => { s with rels := s.rels.filter (fun x => x.id != n) })) ∧
    (exec (.longLatencyResultLand n) s = .next (modGroup s n landClosed)) ∧
    (∀ p, s.publishes.find? (fun x => x.id == n) = some p → p.stamp = none → publishReady s p = true → publishBehind s p = false →
      exec (.publishSwap n) s = .next (swapPublish s p)) ∧
    (exec (.copyCommandStart n) s = .next (startCopy s n)) ∧
    (∀ x, (cluster s n).copies.find? (fun y => y.id == k) = some x → exec (.copyChunkLand n k) s = .next (advanceCopy s n x)) ∧
    (∀ x, (cluster s n).copies.find? (fun y => y.id == k) = some x → exec (.copySignalWrite n k) s = .next (signalCopy s n x)) ∧
    (exec (.spillRingRefill n) s = .next (refill n 64 s)) ∧
    (s.power ≠ 4 → n < 64 → (cluster s n).spilled = [] →
      exec (.cespillbWrite n k) s = .next (setCtl s (clusterOff n + 0x200) (k &&& (2 ^ 52 - 2 ^ 12)))) ∧
    (exec (.queueSlotDispatch n) s = .next (watchQueue s n)) ∧
    (exec (.teamStart n k a b) s = .next (launchTeams s n k a b)) ∧
    (exec (.launchCompletionRecord n) s = .next (finishLaunch s n)) ∧
    (exec (.issueCycle n k) s = .next { s with agenda := s.agenda ++ [.cycle n k] }) ∧
    (exec (.issuePriorityPromotion n) s = .next (promoteGroup s n)) ∧
    (exec (.xfPipeGrant n) s = .next (xfGrant s n)) ∧
    (exec (.xfPipeReply n) s = .next (xfReply s n))

/-- Events of the matrix arrays and the gather stations (14 R284, R290; 16 R321 to R327). -/
def Obligations.MatrixEventsComplete : Prop :=
  ∀ (s : State) (n k a b : Nat),
    (exec (.matrixArbiterGrant n) s = .next (arbitrate s n)) ∧
    (s.power ≠ 4 → n < 512 → k < 14 → exec (.acctagWrite n k a) s = .next (setCore s n { Ops.core s n with
      tags := Maps.insert k ({ ctx := field a 48 16, tkey := field a 24 24, ltile := field a 20 4, valid := a.testBit 0 } : AccTag)
        (Ops.core s n).tags })) ∧
    (s.power ≠ 4 → n < 512 → k < 14 → a < 0x4000 → a % 4 = 0 → exec (.accWindowWrite n k a b) s = .next (setCore s n
      { Ops.core s n with tiles := Maps.set 0 (k * 4096 + a / 4) (BitVec.ofNat 32 b) (Ops.core s n).tiles })) ∧
    (exec (.nevalTimerExpiry n k) s = .next (timerExpiry s n k)) ∧
    (exec (.nevalTileFire n) s = .next (fireTile s n)) ∧
    (∀ t, (Ops.core s n).ntiles.find? (fun x => x.tile == k) = some t → t.parked = none → t.granted = true → tileDone t = false →
      exec (.nevalLayer n k) s = .next (doLayer s n t)) ∧
    (∀ t, (Ops.core s n).ntiles.find? (fun x => x.tile == k) = some t → tileDone t = true →
      exec (.nevalLanding n k) s = .next (landTile s n t)) ∧
    (s.power ≠ 4 → n < 512 → (Ops.core s n).nspill = [] →
      exec (.nvspillbWrite n k) s = .next (setCtl s (coreOff n + 0x308) (k &&& (2 ^ 52 - 2 ^ 12))))

/-- Events of the binner, the fragment launches and the blend units (17 R344 to R361; 18 R366), and of the Almanac (24 R418
to R426; 26 R445). The log record of a silent die names place 0 and the die (DEDUCED, log entry 34). -/
def Obligations.GraphicsAndTimeEventsComplete : Prop :=
  ∀ (s : State) (n k a b : Nat) (copies : List Nat),
    (exec (.binnerInsert n) s = .next (serveBinner s n)) ∧
    (exec (.flushComplete n) s = .next (completeFlush s n)) ∧
    (exec (.fragmentLaunch n k a) s = .next (launchFragment s n k a)) ∧
    (exec (.blendApply n k) s = .next (blendSample s n k)) ∧
    (exec (.passEnd n) s = .next (endPass s n)) ∧
    (exec (.stcmRecord n) s = .next (recordLane s n)) ∧
    (exec (.horizonUpdate copies) s = .next (updateHorizon s copies)) ∧
    (advanceOk s n k a b = true → exec (.almanacAdvance n k a b) s = .next
      (let s1 := setDie { s with now := n } k { die s k with e := a, l := b, floorTime := n }
       { s1 with agenda := widthWaiters s1 k ++ (widthDue s1 ++ s1.agenda) })) ∧
    (∀ g, group? s n = some g → exec (.almWideTimeout n) s = .next { s with agenda := s.agenda ++
      ((widthWaits { s with groups := [(n, g)] } (fun _ => true)).filter (fun e => decide (e.1 ≤ s.now))).map Prod.snd }) ∧
    (n < 8 → (die s n).available = true → (die s n).floorTime + 2 ^ 22 ≤ s.now → exec (.dieSilentTimeout n) s = .next
      (((s.teams.filter (fun (e : Nat × Team) => dieOf e.2.core == n && !e.2.out)).map (fun e => e.2.ctx)).eraseDups.foldl
        (fun s ctx => terminate s ctx 0x1F) (devlog (setDie s n { die s n with available := false }) 0x84 0 0 n)))

/-- Events of the hub: records, sweeps, pre-emption, migration, bank modes and registrations (21 R388 to R409; 11 R226,
R227; 10 R198, R207; 26 R437 to R444). INVADDR is taken at the write of GO (DEDUCED, log entry 36). A device that is off takes no
request: a write of a control register changes nothing (26 R448). -/
def Obligations.HubEventsComplete : Prop :=
  (∀ (s : State) (n k a : Nat), s.power = 4 →
    ∀ i ∈ ([.replayRecord n k, .abandonRecord n k, .tlbSweepStart n, .preemptRequest n, .resumeRequest n, .migrationGo n,
      .bankModeRequest n k a, .l2clsWrite n k a, .contextRegister n, .contextUnregister n, .queueRegister n, .queueUnregister n,
      .memmapWrite n k, .errorCounterClear n k, .acctagWrite n k a, .cespillbWrite n k, .nvspillbWrite n k, .bootctlRestart n,
      .powerStateRequest n, .registerWrite n k a] : List Instr), exec i s = .next s) ∧
  ∀ (s : State) (n k a : Nat), s.power ≠ 4 →
    (∀ bs, Maps.find? k (Ops.core s n).ilines = some bs → parityOk bs = false →
      exec (.lineParityRefetch n k) s = .next (fetchPhys s n k).2) ∧
    (exec (.eventRecordWrite n) s = .next (moveRing s n)) ∧
    (n < 2 ^ 16 → k < 2 ^ 32 → exec (.replayRecord n k) s = .next (replayRec (setCtl s 0x50 (n * 2 ^ 48 + k)) n k)) ∧
    (n < 2 ^ 16 → k < 2 ^ 32 → exec (.abandonRecord n k) s = .next (abandonRec (setCtl s 0x50 (n * 2 ^ 48 + 2 ^ 32 + k)) n k)) ∧
    (n.testBit 0 = true → exec (.tlbSweepStart n) s = .next
      (setCtl { s with sweeps := s.sweeps ++ [invctlOf n 0 + 2 ^ 64 * ctl s 0x40] } 0x48 (invctlOf n 0))) ∧
    (exec .tlbSweepDone s = .next (sweepDone s)) ∧
    (n.testBit 0 = true → exec (.preemptRequest n) s = .next (settlePreempts (s.preempts.length + 1)
      (let s1 := setCtl { s with preempts := s.preempts ++ [field n 48 16] } 0x60 (field n 48 16 * 2 ^ 48)
       if s.preempts = [] then stopTeams s1 (field n 48 16) else s1))) ∧
    (exec (.teamSwitchOut n) s = .next (switchOut s n)) ∧
    (n.testBit 0 = true → exec (.resumeRequest n) s = .next (settleResumes (s.resumes.length + 1)
      (setCtl { s with resumes := s.resumes ++ [field n 48 16] } 0x68 (field n 48 16 * 2 ^ 48)))) ∧
    (exec (.teamResume n k a) s = .next (resumeTeam s n k a)) ∧
    (s.migration = none → n.testBit 0 = true → exec (.migrationGo n) s = .next (migrationGo s (field n 48 16))) ∧
    (exec .migrationSwap s = .next (migrationSwap s)) ∧
    (n < 64 → k < 32 → exec (.bankModeRequest n k a) s = .next (requestMode s n k a none)) ∧
    (exec (.bankModeChange n k) s = .next (serveBank n k ((bank (cluster s n) k).reqs.length + 1) s)) ∧
    (exec (.bankModeTimeout n k) s = .next (timeoutBank s n k)) ∧
    (n < 8 → k < 4 → exec (.l2clsWrite n k a) s = .next (writeL2cls s n k a)) ∧
    (exec (.contextRegister n) s = .next (registerContext s (n - field n 0 2 + 1))) ∧
    (exec (.contextUnregister n) s = .next (unregisterContext s (n - field n 0 2 + 2))) ∧
    (exec (.queueRegister n) s = .next (registerQueue s (n - field n 0 2 + 1))) ∧
    (exec (.queueUnregister n) s = .next (unregisterQueue s (n - field n 0 2 + 2))) ∧
    (n < 1024 → exec (.memmapWrite n k) s = .next (writeMemmap s n k)) ∧
    (n < 8 → k < 8 → exec (.errorCounterClear n k) s = .next (setCtl s (dieOff n + 0x180 + 4 * k) 0))

/-- Events of the outside world (11 R224, R231; 26 R443 to R448). A restart keeps memory, that of the
device in the dies' GiB (DEDUCED, log entry 40). -/
def Obligations.OutsideEventsComplete : Prop :=
  ∀ (s : State) (n k a : Nat) (bs : List Byte) (err : EccError) (ck : BootChecks) (acc : RemoteAccess),
    (exec (.hostMemWrite n bs) s = .next (hostWrite s n bs)) ∧
    (exec (.hostMemRead n k) s = .next (hostRead s n k)) ∧
    (windowOf n = .host → windowOf (n + bs.length - 1) = .host → exec (.hostCacheInvalidate n bs) s = .next
      { writeBytes s n bs with hostLines := s.hostLines.filter (fun e => !meets (e.1 * 128) 128 n bs.length) }) ∧
    (exec (.phoathFlitResend n) s = .next (resendFlit s n)) ∧
    (exec (.eccRetry err) s = .next (retryArray s err)) ∧
    (exec (.bootStart ck) s = .next (bootStart s ck)) ∧
    (exec .bootWatchdog s = .next (bootWatchdog s)) ∧
    (s.power ≠ 4 → n.testBit 0 = true → s.minimal = true →
      exec (.bootctlRestart n) s = .next { restart s true with fails := 0 }) ∧
    (s.power ≠ 4 → exec (.powerStateRequest n) s = .next (writePwrctl s n)) ∧
    (exec (.registerWrite n k a) s = .next (ctlWrite s true n k (a % 2 ^ (8 * k)))) ∧
    (exec (.phoathRemoteAccess acc) s = .next (serveRemote s acc))

namespace Sys2Proof.Claims

/-! ### Words -/

/-- The always guard, no lookahead, no SC and no reuse hint, with a modifier byte. -/
def always (mod : BitVec 8) : Hdr := ⟨0, false, 7, 0, 0, mod⟩

/-- Words that chapters 02 to 25 give, with the kind of their line, and what each decodes to: classes 0x0 to 0x7. -/
def wordsLow : List (Bool × IWord × Except DecodeError Instr) :=
  [ (false, 0x0001_C000_0000_0000_0000_0000, .ok (.nop (always 0) ⟨0, 0, 0⟩)),
    (false, 0x0081_C000_0000_0000_0000_0003, .ok (.sread (always 0) ⟨0, 0, 3⟩)),
    (false, 0x1000_8000_FFFF_FFFF_6000_0000, .ok (.bra ⟨0, false, 2, 0, 0, 0⟩ ⟨0xFFFFFFFF, 3, 0, 0⟩)),
    (false, 0x1101_C000_0000_0001_0002_0400, .ok (.call (always 0) ⟨1, 0, 0x102, 0⟩)),
    (false, 0x11C1_C000_0000_0000_4000_0104, .ok (.loop (always 0) ⟨0, 2, 0, 0x104⟩)),
    (false, 0x1181_C000_0000_0000_0000_0102, .ok (.ret (always 0) ⟨0, 0, 0, 0x102⟩)),
    (false, 0x2001_C020_0000_0000_0014_0A06, .ok (.add (always 0x20) ⟨0, false, 0, 0, 5, 5, 6⟩)),
    (false, 0x3141_C060_0000_0001_0020_0403, .ok (.bini (always 0x60) ⟨1, true, 0, 2, 3⟩)),
    (false, 0x4041_C062_0000_0003_0004_0000, .ok (.setpi (always 0x62) ⟨3, false, 1, 0, 0⟩)),
    (false, 0x50C1_C000_0000_0000_1808_0204, .ok (.fma (always 0) ⟨0, false, 0, 3, 2, 1, 4⟩)),
    (false, 0x540D_C000_0000_0000_0000_0205, .ok (.fsin ⟨3, false, 7, 0, 0, 0⟩ ⟨0, false, 0, 0, 0, 1, 5⟩)),
    (false, 0x6001_E88A_0000_0000_0000_0202, .ok (.cvt ⟨0, false, 7, 5, 0, 0x8A⟩ ⟨0, false, 0, 0, 0, 1, 2⟩)),
    (false, 0x7001_C063_0000_0018_240C_0202, .ok (.shfl (always 0x63) ⟨0, false, 1, 0x104, 0x103, 1, 2⟩)),
    (false, 0x7181_C060_0000_0020_0000_0303, .ok (.rdlane (always 0x60) ⟨0, false, 2, 0, 0, 1, 0x103⟩)) ]

/-- Classes 0x8 to 0xF. -/
def wordsHigh : List (Bool × IWord × Except DecodeError Instr) :=
  [ (false, 0x8001_C000_0003_0005_0000_0000, .ok (.rpinit (always 0) ⟨0x30005, false, 0, 0, 0⟩)),
    (false, 0x8200_4000_0000_0000_0000_0000, .ok (.exit ⟨0, false, 1, 0, 0, 0⟩ ⟨0, 0, 0⟩)),
    (false, 0x9009_C060_0000_0000_0002_0001, .ok (.ld ⟨2, false, 7, 0, 0, 0x60⟩ ⟨0, 0, 0, 0, false, 0, 0x100, 1⟩)),
    (false, 0x9001_C0A0_0000_0008_2806_0002, .ok (.ld (always 0xA0) ⟨0, 0, 8, 2, true, 1, 0x100, 2⟩)),
    (false, 0xA181_E801_0000_0000_0000_0000, .ok (.fenceRel ⟨0, false, 7, 5, 0, 1⟩ ⟨0, 0, 0⟩)),
    (false, 0xB001_C09A_0000_0008_3412_0102, .ok (.cpy (always 0x9A) ⟨0, false, 0, 0x106, 0x104, 0x100, 0x102⟩)),
    (false, 0xC001_C09A_0000_2000_0000_2008, .ok (.xfCvt (always 0x9A) ⟨0x20, false, 0, 0, 0, 16, 8⟩)),
    (true, 0xD001_C090_0000_0000_0080_0200, .ok (.mlda (always 0x90) ⟨0, 0, 128, 0, true, 0, 0⟩)),
    (true, 0xD101_C000_0000_0040_0000_0000, .ok (.mma (always 0) ⟨0, 64, 0, 0, false, 0, 0⟩)),
    (true, 0xD241_C000_0200_0000_0000_6000, .ok (.mloop (always 0) ⟨2, 0, 0, 3, false, 0, 0⟩)),
    (true, 0xD281_C000_0000_0000_0000_0210, .ok (.marr (always 0) ⟨0, 0, 0, 0, true, 1, 0⟩)),
    (false, 0xD341_C000_0000_0000_0410_0008, .ok (.neval (always 0) ⟨0, false, 0, 0, 0x104, 0, 8⟩)),
    (false, 0xE040_8000_0000_1000_0000_0204, .ok (.ssadd ⟨0, false, 2, 0, 0, 0⟩ ⟨0, 0, 0x100, 0, 0, 1, 4⟩)),
    (false, 0xE201_C000_0000_1000_043C_2214, .ok (.emit (always 0) ⟨0, 0, 0x100, 0, 0x10F, 17, 20⟩)),
    (false, 0xF001_C000_0000_0008_3000_0104, .ok (.alm (always 0) ⟨0, false, 0, 0x106, 0, 0, 0x104⟩)),
    (false, 0xF0C9_C000_0000_0000_041A_0408, .ok (.ldasof ⟨2, false, 7, 0, 0, 0⟩ ⟨0, false, 0, 0, 0x106, 0x102, 8⟩)) ]

/-- Words that do not decode: a lookahead count on `add`, a format code that `add` does not list, an unassigned function, and
an opcode of the other kind of line. -/
def wordsWrong : List (Bool × IWord × Except DecodeError Instr) :=
  [ (false, 0x2005_C020_0000_0000_0014_0A06, .error .illegalEncoding),
    (false, 0x2001_C0A0_0000_0000_0014_0A06, .error .illegalEncoding),
    (false, 0x2585_C020_0000_0000_0014_0A06, .error .illegalOpcode),
    (true, 0x2001_C020_0000_0000_0014_0A06, .error .illegalOpcode),
    (false, 0xD101_C000_0000_0040_0000_0000, .error .illegalOpcode) ]

/-- The number of assigned functions of each opcode class (05 R106). -/
def assigned : List Nat := [10, 10, 22, 17, 10, 18, 6, 9, 9, 12, 14, 8, 6, 15, 15, 5]

/-- The opcode of a word is assigned, and it is a matrix-stream opcode (05 R105, R106). -/
def opcodeAssigned (w : IWord) : Bool := decide ((w.extractLsb' 86 6).toNat < assigned.getD (w.extractLsb' 92 4).toNat 0)
def opcodeStream (w : IWord) : Bool := (w.extractLsb' 92 4).toNat == 13 && decide ((w.extractLsb' 86 6).toNat ≤ 12)

/-! ### A step -/

/-- The step takes this act, at the head of the agenda or, when that is empty, by the free schedule; `s0` is the state with
the choice made. -/
def takes (s : State) (a : Act) (s0 : State) : Prop :=
  let r := rereadContexts s
  (∃ rest, r.agenda = a :: rest ∧ s0 = { r with agenda := rest, turn := r.turn + 1 }) ∨
  (r.agenda = [] ∧ Config.schedule r.turn = a ∧ s0 = { r with turn := r.turn + 1 } ∧
    (∀ key frag, a = .issue key frag → begins s0 key frag = false) ∧
    ∀ key frag pc mask, a = .pair key frag pc mask → begins s0 key frag = false)

/-- The act is that of a fragment: it is selected, it is the second half of a pair whose first half has left it there, or it is
woken and waits. -/
def takesFrag (s : State) (key frag : Nat) (s0 : State) : Prop :=
  takes s (.issue key frag) s0 ∨ (takes s (.wake key frag) s0 ∧ begins s0 key frag = false) ∨
  ∃ pc mask, takes s (.pair key frag pc mask) s0 ∧ standsAt s0 key frag pc mask = true

/-- The fragment is there and nothing holds its group or the fragment back. -/
def mayGoOn (s : State) (key frag : Nat) (g : Group) (tm : Team) (f : Fragment) : Prop :=
  group? s key = some g ∧ team? s g.team = some tm ∧ Maps.find? frag g.frags = some f ∧ groupHeld s key g tm frag f.stage = false

/-- The fragment may fetch: no deferred trap waits for it, it has no instruction under way that it keeps, nor a trap of one, and,
where it begins an instruction, no NEVAL_FAULT is pending. -/
def mayFetch (g : Group) (f : Fragment) : Prop :=
  lateOf g f = none ∧ trapDue f.stage = none ∧ (f.stage = .fresh ∨ f.read = none) ∧ (f.stage = .fresh → g.nevTrap = none)

/-- The line of a fragment that may fetch: its bytes, and the state then. -/
def fetches (s0 : State) (key frag : Nat) (g : Group) (tm : Team) (f : Fragment) (bs : List Byte) (s1 : State) : Prop :=
  mayGoOn s0 key frag g tm f ∧ mayFetch g f ∧ fetchLine s0 tm.core tm.ctx (lineOf f.pc) = (.line bs, s1)

/-- The code of the trap that a word of an ordinary line raises instead of its instruction: an opcode that decode refuses, or
that the kernel does not allow, whatever its fields are; else an encoding that decode refuses. -/
def wordTrap (hd : Header) (w : IWord) (code : Nat) : Prop :=
  (decode false w = .error .illegalOpcode ∧ code = 0x01) ∨
  (∃ i, rawDecode w = some i ∧ kernelAllows hd i = false ∧ code = 0x01) ∨
  (∃ i, rawDecode w = some i ∧ kernelAllows hd i = true ∧ decode false w = .error .illegalEncoding ∧ code = 0x02)

/-! ### Frames -/

/-- The register writes of the results that land with the next completion: those whose windows are closed or close with it. -/
def landing (g : Group) : List RegWrite := (g.windows.filter (fun w => decide (w.left ≤ 1))).flatMap (fun w => w.writes)

/-- The status bits of those results. -/
def landingFlags (g : Group) : List (Nat × Nat) := (g.windows.filter (fun w => decide (w.left ≤ 1))).flatMap (fun w => w.flags)

/-- Every register of every lane is unchanged, but those that the writes name. -/
def keepsRegs (ws : List RegWrite) (g g' : Group) : Prop :=
  (∀ n, (∀ l r x, RegWrite.v l r x ∈ ws → l * 256 + r ≠ n) → Maps.get 0 n g'.v = Maps.get 0 n g.v) ∧
  (∀ n, (∀ x, RegWrite.k n x ∉ ws) → Maps.get 0 n g'.k = Maps.get 0 n g.k) ∧
  (∀ n, (∀ l r b, RegWrite.p l r b ∈ ws → l * 8 + r ≠ n) → Maps.get false n g'.p = Maps.get false n g.p)

/-- No status bit of a lane is cleared, and none is set but those that the list names. -/
def keepsLstat (fl : List (Nat × Nat)) (g g' : Group) : Prop :=
  ∀ l i, i < 32 → ((lstatOf g l).testBit i = true → (lstatOf g' l).testBit i = true) ∧
    ((lstatOf g' l).testBit i = true → (lstatOf g l).testBit i = true ∨ ∃ b, (l, b) ∈ fl ∧ b.testBit i = true)

/-- Everything of a group but its registers, %lstat, fragments, split table, windows, last-page registers and the device's own
bookkeeping of issue, traps to come and regions: its place, its declared counts, %gstat, %splatmin, the trap registers, the
completion registers, the parked instructions, the deferred traps, the vertex store, the reductions issued, its shading data and the times it has
read. -/
def keepsGroup (g g' : Group) : Prop :=
  g'.team = g.team ∧ g'.slot = g.slot ∧ g'.idx = g.idx ∧ g'.role = g.role ∧ g'.teamIndex = g.teamIndex ∧ g'.gridx = g.gridx ∧
  g'.gridy = g.gridy ∧ g'.gridz = g.gridz ∧ g'.nv = g.nv ∧ g'.nk = g.nk ∧ g'.prio = g.prio ∧ g'.nbv = g.nbv ∧
  g'.gstat = g.gstat ∧ g'.splatmin = g.splatmin ∧ g'.epc = g.epc ∧ g'.ecode = g.ecode ∧ g'.einf = g.einf ∧
  g'.parked = g.parked ∧ g'.stopped = g.stopped ∧ g'.fetchPark = g.fetchPark ∧ g'.verts = g.verts ∧ g'.vc = g.vc ∧
  g'.pc = g.pc ∧ g'.detSeq = g.detSeq ∧ g'.shade = g.shade ∧ g'.late = g.late ∧ g'.almE = g.almE ∧ g'.almL = g.almL ∧ g'.almH = g.almH

/-- The completion registers of a group. -/
def keepsCr (g g' : Group) : Prop :=
  g'.crCluster = g.crCluster ∧ g'.crDie = g.crDie ∧ g'.crDevice = g.crDevice ∧ g'.crSystem = g.crSystem

/-- No group but one changes. -/
def keepsOthers (s t : State) (key : Nat) : Prop := ∀ k, k ≠ key → group? t k = group? s k

/-- Nothing of the state changes but its groups, and of these no group but one. -/
def onlyGroup (s t : State) (key : Nat) : Prop := t = { s with groups := t.groups } ∧ keepsOthers s t key

/-- The group changes by register writes and status bits, and by the results that land. -/
def groupWrites (g g' : Group) (w : List RegWrite) (fl : List (Nat × Nat)) : Prop :=
  keepsGroup g g' ∧ keepsRegs (w ++ landing g) g g' ∧ keepsLstat (fl ++ landingFlags g) g g'

/-- Every register but the destinations `ds` is unchanged, and so is a lane's destination where its guard does not hold, but
for results that land. -/
def keepsBut (ds : List RegName) (pass : Nat) (g g' : Group) : Prop :=
  (∀ l r, l < 8 → r < 256 → (RegName.v r ∉ ds ∨ pass.testBit l = false) →
    (∀ l' r' x, RegWrite.v l' r' x ∈ landing g → l' * 256 + r' ≠ l * 256 + r) →
    Maps.get 0 (l * 256 + r) g'.v = Maps.get 0 (l * 256 + r) g.v) ∧
  (∀ r, RegName.k r ∉ ds → (∀ x, RegWrite.k r x ∉ landing g) → Maps.get 0 r g'.k = Maps.get 0 r g.k) ∧
  (∀ l r, l < 8 → r < 8 → (RegName.p r ∉ ds ∨ pass.testBit l = false) →
    (∀ l' r' b, RegWrite.p l' r' b ∈ landing g → l' * 8 + r' ≠ l * 8 + r) →
    Maps.get false (l * 8 + r) g'.p = Maps.get false (l * 8 + r) g.p)

/-- The class of a group instruction's opcode. -/
def classOf (i : Instr) : Nat := ((encode i).map (fun w => (w.extractLsb' 92 4).toNat)).getD 0

/-- The destinations of an instruction: its register destinations and the predicates it writes. -/
def destsOf (x : Shape) : List RegName := destNames x.opnds ++ x.pdst.map RegName.p

/-- A byte outside every place of a list. -/
def outside (ps : List (Acc × Place)) (a : Nat) : Prop :=
  ∀ e ∈ ps, ∀ pa leaf, e.2 = Place.mem pa leaf → a < pa ∨ pa + e.1.n ≤ a

/-- No access reaches the control region. -/
def noControl (ps : List (Acc × Place)) : Prop := ∀ e ∈ ps, ∀ off, e.2 ≠ Place.ctrl off

/-- Every scratch byte of every team is unchanged, but those of the places. -/
def keepsScratch (ps : List (Acc × Place)) (s t : State) : Prop :=
  ∀ k tm, team? s k = some tm → ∃ tm', team? t k = some tm' ∧ tm' = { tm with scratch := tm'.scratch } ∧
    ∀ x, (∀ e ∈ ps, ∀ off, e.2 = Place.scr k off → x < off ∨ off + e.1.n ≤ x) → Maps.get 0 x tm'.scratch = Maps.get 0 x tm.scratch

/-- The single-copy atomic parts of a store, each at its offset. -/
def halves (bs : List Byte) : List (Nat × List Byte) := if bs.length = 16 then [(0, bs.take 8), (8, bs.drop 8)] else [(0, bs)]

/-- The accesses that no later access of the instruction, of a higher lane, covers: of several lanes that write the same bytes, the
highest one's value stays (11 R211). -/
def lastOnes : List (Acc × Place) → List (Acc × Place)
  | [] => []
  | e :: rest => if rest.any (fun x => samePlace e.2 x.2) then lastOnes rest else e :: lastOnes rest

/-- The stores that a store instruction adds: one for each place of device memory, or two for 16 bytes (11 R212), at that place,
of the highest lane that writes it, with the bytes that the lane's data give; and those to scratch that wait. -/
def addsStores (ps : List (Acc × Place)) (bytes : Acc → List Byte) (lane : Acc → Nat) (s t : State) : Prop :=
  ∃ new, t.stores = s.stores ++ new ∧
    (new.filter (fun p => p.scratch.isNone)).map (fun p => (p.pa, p.lane, p.bytes)) =
      (lastOnes ps).flatMap (fun e => match e.2 with
        | .mem pa _ => (halves (bytes e.1)).map (fun x => (pa + x.1, lane e.1, x.2))
        | _ => []) ∧
    ∀ p ∈ new, ∀ k, p.scratch = some k → ∃ e ∈ ps, ∃ off, e.2 = Place.scr k off ∧ ∃ x ∈ halves (bytes e.1), p.pa = off + x.1 ∧ p.bytes = x.2

/-- The scratch of every team is in canonical form. -/
def scratchWf (s : State) : Prop := ∀ e ∈ s.teams, Maps.canonical (0 : Byte) e.2.scratch = true

/-- Registers and %lstat in canonical form, and no register beyond the architectural files. -/
def groupOk (g : Group) : Prop := Group.wf g = true ∧ g.nv ≤ 256

/-- The frame of an access by one instruction: other groups, the group's own fields, and the registers but its destinations. -/
def accessFrame (i : Instr) (s : State) (c : Ctx) (t : State) : Prop :=
  keepsOthers s t c.key ∧ ∃ x g', shapeOf i = some x ∧ group? t c.key = some g' ∧ keepsGroup c.g g' ∧
    keepsBut (destsOf x) c.pass c.g g'

/-- What a load leaves unchanged. -/
def onlyLoads (i : Instr) (s : State) (c : Ctx) (t : State) : Prop :=
  t = { s with groups := t.groups, cores := t.cores, copies := t.copies, hostLines := t.hostLines, fresh := t.fresh } ∧
  (∀ a, readByte t a = readByte s a) ∧ accessFrame i s c t ∧ ∃ g', group? t c.key = some g' ∧ keepsCr c.g g'

/-! ### Lines -/

/-- Bit b of the 480 instruction bits of a line: bit b mod 96 of slot b / 96. -/
def lineBit (bs : List Byte) (b : Nat) : Bool := (slotWord bs (b / 96)).getLsbD (b % 96)

/-- Instructions that do something, or may trap, also when their guard holds in no lane: they read a counter or check a number
first, move the fragment themselves, or count as issued. -/
def actsAnyway : Instr → Bool
  | .sread _ _ => true
  | .swrite _ _ => true
  | .cycrd _ _ => true
  | .rpinit _ _ => true
  | .rparr _ _ => true
  | .rpwait _ _ => true
  | .rparw _ _ => true
  | .rpbytes _ _ => true
  | .bra _ _ => true
  | .brx _ _ => true
  | .call _ _ => true
  | .callx _ _ => true
  | .ret _ _ => true
  | .loop _ _ => true
  | .redDet _ _ => true
  | .redfDet _ _ => true
  | _ => false

/-- The number that an instruction checks before its guard is legal, and %lstat awaits no flags for it. -/
def numberOk (c : Ctx) : Instr → Prop
  | .swrite _ o => sregWritable o.sreg.toNat = true ∧ lstatAwaits c o.sreg.toNat = false
  | .sread _ o => (sregRead c o.sreg.toNat 0).isSome = true ∧ lstatAwaits c o.sreg.toNat = false
  | .rpinit _ o => field o.imm.toNat 16 5 < 24
  | .rparr _ o => field o.aux.toNat 0 5 < 24
  | .rpwait _ o => field o.aux.toNat 0 5 < 24
  | .rparw _ o => field o.aux.toNat 0 5 < 24
  | .rpbytes _ o => field o.aux.toNat 0 5 < 24
  | _ => False

/-! ### Instructions that store -/

/-- The store instructions with one access per lane: the operand area, the bytes of an access and its registers. -/
def laneStore : Instr → Option (OpM × Nat × Nat)
  | .st h o => some (o, fmtBytes (Checks.fmt h), fmtRegs (Checks.fmt h))
  | .stw h o => some (o, 4 * wideRegs h, wideRegs h)
  | .strel h o => some (o, fmtBytes (Checks.fmt h), fmtRegs (Checks.fmt h))
  | _ => none

/-- The load instructions with one access per lane: the operand area, the spaces they take and the bytes of an access. -/
def laneLoad : Instr → Option (OpM × List Nat × Nat)
  | .ld h o => some (o, [0, 1, 2, 4], fmtBytes (Checks.fmt h))
  | .ldacq h o => some (o, [0, 1, 2], fmtBytes (Checks.fmt h))
  | .ldw h o => some (o, [0, 1, 2, 4], 4 * wideRegs h)
  | _ => none

/-- The atomics and reductions, with the bytes of their step and what they need. -/
def laneStep : Instr → Option (OpM × Nat × Needs)
  | .atom h o => some (o, 4 * fmtRegs (Checks.fmt h), atomNeeds)
  | .atomcas h o => some (o, 4 * fmtRegs (Checks.fmt h), atomNeeds)
  | .atomf _ o => some (o, 4, atomNeeds)
  | .red h o => some (o, 4 * fmtRegs (Checks.fmt h), redNeeds [0, 1, 2])
  | .redf h o => some (o, 4 * fmtRegs (Checks.fmt h), redNeeds [0, 1, 2])
  | _ => none

/-- The lanes whose address is no multiple of their access's width. -/
def misaligned (as : List Acc) : Nat := failing as (fun a => a.ea % a.n == 0)

end Sys2Proof.Claims

/-! ### Encodings -/

/-- Worked words of the spec decode to the instructions they stand for, and wrong ones to their errors (02 R44 to R60, 05
R106, and the chapters of the words). -/
def Obligations.WordsDecode : Prop :=
  ∀ e ∈ wordsLow ++ wordsHigh ++ wordsWrong, decode e.1 e.2.1 = e.2.2

/-- The padding word (02 R61): its bits, its bytes, and the all-zero word, which is `nop` under p0; each completes and changes
nothing but what every completion does, whatever p0 holds. -/
def Obligations.NopWords : Prop :=
  encode (.nop (always 0) ⟨0, 0, 0⟩) = some 0x0001_C000_0000_0000_0000_0000 ∧
  toBytes 12 (0x0001_C000_0000_0000_0000_0000 : IWord).toNat = [0, 0, 0, 0, 0, 0, 0, 0, 0, 0xC0, 1, 0] ∧
  decode false 0x0001_C000_0000_0000_0000_0000 = .ok (.nop (always 0) ⟨0, 0, 0⟩) ∧
  decode false 0 = .ok (.nop ⟨0, false, 0, 0, 0, 0⟩ ⟨0, 0, 0⟩) ∧
  (∀ h, h = always 0 ∨ h = ⟨0, false, 0, 0, 0, 0⟩ → done (.nop h ⟨0, 0, 0⟩) (fun _ => []))

/-- Decode raises ILLEGAL_OPCODE for an unassigned opcode and for one of the other kind of line, and in no other case (02
R45). -/
def Obligations.OpcodeErrors : Prop :=
  ∀ (stream : Bool) (w : IWord),
    (decode stream w = .error .illegalOpcode ↔ opcodeAssigned w = false ∨ opcodeStream w ≠ stream) ∧
    (∀ i, rawDecode w = some i → isStream i = opcodeStream w) ∧ ((rawDecode w).isSome = opcodeAssigned w)

/-- Decode and encode agree: the word of a well-formed instruction decodes to it in a line of its kind, with every field at
every value that the encoding admits; and what a word decodes to has that word. -/
def Obligations.DecodeEncode : Prop :=
  (∀ i w, i.wellFormed = true → encode i = some w → decode (isStream i) w = .ok i) ∧
  (∀ stream w i, decode stream w = .ok i → encode i = some w ∧ i.wellFormed = true ∧ isStream i = stream)

/-! ### Steps -/

/-- A step runs the decoded instruction: what a fragment's line holds at its program counter, what a sequencer's line holds, a
parked instruction that a replay lets continue, or an event. Before exec, the step only takes its act off the agenda, fetches
the line, and records who executes; an arrival of a sequencer is then past, and neither an operation that the array has been
granted to nor an instruction that waits is fetched again: the fragment keeps it, or the trap that it waits to take (DEDUCED, log
entry 152). A cycle of a quarter selects what it issues. Where the line word is illegal, or decode or the kernel
refuses the word, the step takes the trap with its code instead, or only fetches while something holds the trap back (02 R38,
R45, R50, R53; 18 R364). That an unmarked arrival gives ILLEGAL_TARGET before the opcode is looked at is the model's reading (DEDUCED,
log entry 121), and so is what holds a trap back (DEDUCED, log entries 17 and 21). What the schedule may draw, and when contexts' descriptors are read again, are the model's choices (DESIGN
CHOICE, log entries 3 and 4). -/
def Obligations.StepRunsTheInstruction : Prop :=
  ∀ (s s0 : State) (i : Instr),
    (∀ key frag g tm f bs s1, takesFrag s key frag s0 → fetches s0 key frag g tm f bs s1 →
      lineWordOk false (lineWord bs) = true → badArrival f bs = false → kernelAllows tm.hdr i = true →
      decode false (slotWord bs (slotOf f.pc)) = .ok i → step s = exec i { s1 with cur := .frag key frag }) ∧
    (∀ key frag g tm f bs s1 code, takesFrag s key frag s0 → fetches s0 key frag g tm f bs s1 →
      ((lineWordOk false (lineWord bs) = false ∧ code = 0x02) ∨
        (lineWordOk false (lineWord bs) = true ∧ badArrival f bs = true ∧ code = 0x04) ∨
        (lineWordOk false (lineWord bs) = true ∧ badArrival f bs = false ∧ wordTrap tm.hdr (slotWord bs (slotOf f.pc)) code)) →
      (trapHeld s1 tm g frag code = false → step s = .next (takeTrap s1 key frag (trapOf code f.mask) f.pc false)) ∧
      (trapHeld s1 tm g frag code = true → step s = .next s1)) ∧
    (∀ key frag g tm f, takesFrag s key frag s0 → mayGoOn s0 key frag g tm f → f.stage ≠ .fresh →
      (∀ r, trapDue f.stage = none → f.read = some r → step s = exec r.instr { s0 with cur := .frag key frag }) ∧
      (∀ t, trapDue f.stage = some t →
        (trapHeld s0 tm g frag t.code = false → step s = .next (takeTrap s0 key frag t (savedPc t.code f.pc) false)) ∧
        (trapHeld s0 tm g frag t.code = true → step s = .next s0))) ∧
    (∀ k q, takes s (.cycle k q) s0 → step s = .next (issueQuarter s0 (fragReady exec s0) k q)) ∧
    (∀ t tm q, takes s (.stream t) s0 → team? s0 t = some tm → tm.seq = some q → seqIdle tm q = false → q.granted = true →
      q.op = some i → isStream i = true → step s = exec i { s0 with cur := .seq t }) ∧
    (∀ t tm q bs s1, takes s (.stream t) s0 → team? s0 t = some tm → tm.seq = some q → seqIdle tm q = false →
      (q.granted = true → q.op = none) → fetchLine s0 tm.core tm.ctx (lineOf q.spc) = (.line bs, s1) → lineWordOk true (lineWord bs) = true →
      (q.arrival = false ∨ marked (lineWord bs) (slotOf q.spc) = true) → decode true (slotWord bs (slotOf q.spc)) = .ok i →
      step s = exec i { modSeq s1 t (fun q => { q with arrival := false, op := some i }) with cur := .seq t }) ∧
    (∀ key pid g tm q, takes s (.replay key pid) s0 → group? s0 key = some g → g.parked.find? (fun q => q.id == pid) = some q →
      q.go = true → team? s0 g.team = some tm → tm.out = false → trapDue q.stage = none →
      step s = exec q.instr { s0 with cur := .replay key pid }) ∧
    (takes s (.event i) s0 → encode i = none → step s = exec i { s0 with cur := .idle })

/-- A fetch reads the 64 bytes of the line: from memory when the core holds no copy, else the copy, which passes parity; a copy
that fails parity is fetched once more from memory and counts one error; a line of the device's memory that fails is marked (02
R39 to R41; 26 R444). Only then is the page's permission looked at (02 R43, R53). A line of a stamped page is its latest visible
version (24 R424), which no copy serves. That a fetch takes the core's whole copy is the model's choice (DESIGN CHOICE, log entry
142). -/
def Obligations.FetchReadsTheLine : Prop :=
  ∀ (s : State) (c ctx va pa leaf base size d : Nat), translate s ctx (c / 64) none (Ops.core s c).tlb va 0 0 0 false = .ok pa leaf base size →
    windowOf pa ≠ .control → homeDie s (c / 64) pa = some d → stampedMoves s pa = false →
    let at_ := pa / 64 * 64
    let mem := readBytes s at_ 64
    let got (bs : List Byte) : Fetched := if leaf.testBit 4 then .line bs else .fault .denied
    let marks : Prop := (fetchLine s c ctx va).1 = .check ∧ (windowOf pa = .device → at_ / 128 ∈ (fetchLine s c ctx va).2.badLines)
    (leaf.testBit 61 = true → parityOk (homeBytesAt s d leaf at_ 64) = true → (fetchLine s c ctx va).1 = got (homeBytesAt s d leaf at_ 64)) ∧
    (leaf.testBit 61 = true → parityOk (homeBytesAt s d leaf at_ 64) = false → marks) ∧
    (leaf.testBit 61 = false →
      (Maps.find? at_ (Ops.core s c).ilines = none → parityOk mem = true → (fetchLine s c ctx va).1 = got mem) ∧
      (Maps.find? at_ (Ops.core s c).ilines = none → parityOk mem = false → marks) ∧
      (∀ bs, Maps.find? at_ (Ops.core s c).ilines = some bs → parityOk bs = true → (fetchLine s c ctx va).1 = got bs) ∧
      (∀ bs, Maps.find? at_ (Ops.core s c).ilines = some bs → parityOk bs = false → parityOk mem = true →
        (fetchLine s c ctx va).1 = got mem ∧
        (ctl s (dieOff (c / 64) + 0x180) < 2 ^ 32 - 1 →
          ctl (fetchLine s c ctx va).2 (dieOff (c / 64) + 0x180) = ctl s (dieOff (c / 64) + 0x180) + 1)) ∧
      (∀ bs, Maps.find? at_ (Ops.core s c).ilines = some bs → parityOk bs = false → parityOk mem = false →
        marks ∧ (Maps.rising (Ops.core s c).ilines = true →
          Maps.find? at_ (Ops.core (fetchLine s c ctx va).2 c).ilines = none)))

/-- Every step answers a next state, where no stream instruction is parked in a group or kept by a fragment of one; and no meaning
refuses its instruction. -/
def Obligations.StepAnswers : Prop :=
  (∀ s : State, (∀ e ∈ s.groups, (∀ q ∈ e.2.parked, isStream q.instr = false) ∧
      ∀ f ∈ e.2.frags, ∀ r, f.2.read = some r → isStream r.instr = false) → ∃ t, step s = .next t) ∧
  (∀ (i : Instr) (s : State), (∃ t, exec i s = .next t) ∨ exec i s = .fault .noAgent)

/-- ILLEGAL_OPERAND comes before the instruction executes (02 R51, R53; 01 R14, R15, R28): a register beyond the declared
counts or beyond k63, an odd number in a pair position, a register of the wrong file, or one register in two destinations. -/
def Obligations.IllegalOperandTraps : Prop :=
  ∀ (s : State) (i : Instr) (x : Shape) (c : Ctx), shapeOf i = some x → ctx? s i x.hdr = some c → c.park = none →
    stalled (withoutHelpers x.marks c) x.marks x.opnds x.preds = false → trapHeld c.s c.tm c.g c.frag 0x03 = false →
    ((∃ o ∈ x.opnds, isUni o.reg = true ∧ 64 < regNo o.reg + o.count) ∨
      (∃ o ∈ x.opnds, isUni o.reg = true ∧ c.g.nk < regNo o.reg + o.count) ∨
      (∃ o ∈ x.opnds, isUni o.reg = false ∧ c.g.nv < regNo o.reg + o.count) ∨
      (∃ o ∈ x.opnds, o.align = 2 ∧ regNo o.reg % 2 = 1) ∨
      (∃ o ∈ x.opnds, (o.file = .uni ∧ isUni o.reg = false) ∨ (o.file = .vec ∧ isUni o.reg = true)) ∨
      ¬ (destNames x.opnds).Nodup) →
    exec i s = .next (takeTrap s c.key c.frag { code := 0x03, lanes := c.active } c.f.pc false)

/-- An instruction that is held back waits, with no effect (01 R30, 21 R386, R397, 11 R219): while its team is switched out, and,
unless its access has begun (DEDUCED, log entry 151), while its group waits for a fetch, a handler runs in another fragment and it
is in no acquire that waits for its phase, a
register that it names or reads as part of a run awaits a result (22 R414), a fence, a `fwait` or another fragment's acquire holds it
back (12 R251, 11 R220), an instruction that lets no other one issue is under way (25 R434, 19 R381), an instruction on a sample set
of another fragment is not performed (19 R381), or, before it begins, another fragment waits at a rendezvous or on a handle
(DEDUCED, log entry 144). -/
def Obligations.HeldInstructionWaits : Prop :=
  ∀ (s : State) (i : Instr) (x : Shape) (c : Ctx), shapeOf i = some x → ctx? s i x.hdr = some c → c.park = none →
    (c.tm.out = true ∨
      (begun c.f.stage = false ∧
        (c.g.fetchPark.isSome = true ∨ (c.frag ∈ c.g.stopped ∧ inAcquire c.f.stage = false) ∨
        (∃ o ∈ x.opnds, ∃ n ∈ o.names, n ∈ held c.g ∧ inOwn c.f.stage = false) ∨
        (∃ n ∈ runSrc c.g i, n ∈ held c.g ∧ inOwn c.f.stage = false) ∨
        (RegName.p x.hdr.gp.toNat ∈ held c.g ∧ inOwn c.f.stage = false) ∨
        (x.marks.waits = true ∧ c.g.parked ≠ []) ∨
        (∃ r ∈ c.s.rels, r.group = c.key ∧ r.hold = 3 ∧ inRelease c.f.stage = false) ∨
        (x.marks.mem = true ∧ ∃ r ∈ c.s.rels, r.group = c.key ∧ r.hold = 2) ∨
        (x.marks.mem = true ∧ ∃ e ∈ c.g.frags, e.1 ≠ c.frag ∧
          (inAcquire e.2.stage = true ∨ (begun e.2.stage = true ∧ ∃ r, e.2.read = some r ∧ acquires r.instr = true))) ∨
        (namesSet i = true ∧ ∃ e ∈ c.g.frags, e.1 ≠ c.frag ∧ e.2.stage ≠ .released ∧
          ∃ r, e.2.read = some r ∧ namesSet r.instr = true) ∨
        (∃ e ∈ c.g.frags, e.1 ≠ c.frag ∧ inStcm e.2.stage = true) ∨ (∃ q ∈ c.g.parked, isSole q.instr = true) ∨
        (c.f.stage = .fresh ∧ ∃ e ∈ c.g.frags, e.1 ≠ c.frag ∧ holdsGroup e.2.stage = true ∧ e.1 ∉ c.g.stopped)))) →
    exec i s = .next s

/-- An instruction whose guard holds in no active lane has no effect, and still counts: the windows pass and the fragment
advances (01 R27, 02 R46). Instructions that check a number first complete so once it is legal (DEDUCED, log entry 23), and a
deterministic reduction counts as issued (12 R249). -/
def Obligations.GuardedOffDoesNothing : Prop :=
  ∀ (s : State) (i : Instr) (c : Ctx), readyFor s i = some c → c.pass = 0 → c.active ≠ 0 → c.f.stage = .fresh →
    (actsAnyway i = false ∨ numberOk c i → exec i s = .next (retire c (marksOf i) s (nextSlot c.f.pc) [] [])) ∧
    (∀ h o, i = .redDet h o ∨ i = .redfDet h o → exec i s = .next (retire c (marksOf i)
      (modGroup s c.key (fun g => { g with detSeq := g.detSeq + 1 })) (nextSlot c.f.pc) [] []))

/-! ### Invariants -/

/-- Every step keeps physical memory in its canonical form, from every state. -/
def Obligations.MemoryStaysCanonical : Prop :=
  ∀ s t : State, step s = .next t → Memory.wf s.mem = true → Memory.wf t.mem = true

/-- Every step keeps the register files and %lstat of every group in their canonical form, from every state. -/
def Obligations.RegistersStayCanonical : Prop :=
  ∀ s t : State, step s = .next t → s.groups.all (fun e => Group.wf e.2) = true → t.groups.all (fun e => Group.wf e.2) = true

/-- Reset: nothing is resident, memory and registers are in canonical form, and the registers hold the values that the spec
gives: banks 0 to 15 in cache mode and 16 to 31 in scratch mode (10 R197), the L2 classes (R207), the lease (11 R215), the time
of a mode request (10 R198), %mxprio (14 R290), NVCTL (16 R321), %almlimit and %almtimeout (24 R426). -/
def Obligations.ResetState : Prop :=
  let s := State.reset
  Memory.wf s.mem = true ∧ s.groups.all (fun e => Group.wf e.2) = true ∧ s.groups = [] ∧ s.teams = [] ∧ s.contexts = [] ∧
  s.queues = [] ∧ s.launches = [] ∧ s.stores = [] ∧ s.copies = [] ∧
  (∀ c b, (bank (cluster s c) b).mode = (if b < 16 then 0 else 1) ∧ (bank (cluster s c) b).fifo = []) ∧
  (∀ c, (Ops.core s c).mxprio = 0x10 ∧ (Ops.core s c).tags = []) ∧
  (∀ d, (die s d).almlimit = 0x100 ∧ (die s d).almtimeout = 0x10000) ∧
  (∀ d, d < 8 → ctl s (dieOff d + 0x100) = 0x24 ∧ ctl s (dieOff d + 0x104) = 0x24 ∧ ctl s (dieOff d + 0x108) = 0x12 ∧
    ctl s (dieOff d + 0x10C) = 0x32 ∧ ctl s (dieOff d + 0x110) = 0x1000) ∧
  (∀ c, c < 64 → ctl s (clusterOff c + 0x80) = 0x00100000) ∧ (∀ k, k < 512 → ctl s (coreOff k + 0x300) = 0x0100)

/-! ### Frames -/

/-- Completing changes the instruction's own group and nothing else of the state, all of memory included; in that group only the
registers written and those of results that land, only the status bits named, the fragments and the windows. -/
def Obligations.CompletionFrame : Prop :=
  ∀ (c : Ctx) (m : Marks) (s : State) (pc : DWord) (w : List RegWrite) (fl : List (Nat × Nat)) (g : Group),
    group? s c.key = some g → Group.wf g = true →
    (onlyGroup s (retire c m s pc w fl) c.key ∧ ∃ g', group? (retire c m s pc w fl) c.key = some g' ∧ keepsCr g g' ∧
      groupWrites g g' (if c.h.la = 0 then w else []) (if c.h.la = 0 then fl else [])) ∧
    (onlyGroup s (retireMoved c m s) c.key ∧ ∃ g', group? (retireMoved c m s) c.key = some g' ∧ keepsCr g g' ∧
      groupWrites g g' [] [])

/-- The register instructions, classes 0x2 to 0x7, while no trap of theirs is enabled: nothing changes but their own group;
there, no register but the destinations, in the lanes whose guard holds, and no status bit but the flags of R19 that these
instructions raise, apart from results that land. -/
def Obligations.RegisterInstructionFrame : Prop :=
  ∀ (s t : State) (i : Instr) (c : Ctx) (x : Shape), shapeOf i = some x → readyFor s i = some c → 2 ≤ classOf i → classOf i ≤ 7 →
    c.tm.hdr.traps = 0 → groupOk c.g → exec i s = .next t →
    onlyGroup s t c.key ∧ ∃ g', group? t c.key = some g' ∧ keepsGroup c.g g' ∧ keepsCr c.g g' ∧
      keepsBut (destsOf x) c.pass c.g g' ∧
      ∀ l i, i < 32 → ((lstatOf c.g l).testBit i = true → (lstatOf g' l).testBit i = true) ∧
        ((lstatOf g' l).testBit i = true → (lstatOf c.g l).testBit i = true ∨
          (∃ b, (l, b) ∈ landingFlags c.g ∧ b.testBit i = true) ∨
          (c.pass.testBit l = true ∧ (i = 2 ∨ i = 3 ∨ (8 ≤ i ∧ i ≤ 12))))

/-- Loads: once their accesses pass every check, every byte of memory and of scratch reads as before, no store is added, and no
register changes but the data, in the lanes whose guard holds, apart from results that land. Only copies of lines, remembered
translations and the count of free values change besides. The same for the second half of `ldw.x4`, whose accesses are those of
its first. -/
def Obligations.LoadFrame : Prop :=
  (∀ (s t s1 : State) (i : Instr) (c : Ctx) (o : OpM) (spaces : List Nat) (n : Nat) (ps : List (Acc × Place)),
    laneLoad i = some (o, spaces, n) → readyFor s i = some c → inHalf c.f.stage = false → groupOk c.g →
    reaches c o (loadNeeds o spaces) (laneAccs c o n) ps s1 → readable c ps → exec i s = .next t → onlyLoads i s c t) ∧
  (∀ (s t : State) (h : Hdr) (c : Ctx) (o : OpM) (hi : Nat) (got : List HalfRead),
    readyFor s (.ldw h o) = some c → wideRegs h = 4 → c.f.stage = .half hi got → groupOk c.g →
    (∀ e ∈ got, c.pass.testBit e.acc.lane = true) → placesLost c (halfPlaces got) = false →
    homeWaits c (halfPlaces got) = false → exec (.ldw h o) s = .next t → onlyLoads (.ldw h o) s c t)

/-- Stores: once their accesses pass every check, and none reaches the control region, no byte of memory changes yet; one
pending store is added for each place of device memory that the effective addresses give, with the data of the highest lane that
writes it (11 R211), so that no agent ever reads a lower one's; scratch
changes at its places only; and no register changes, apart from results that land. -/
def Obligations.StoreFrame : Prop :=
  ∀ (s t s1 : State) (i : Instr) (c : Ctx) (o : OpM) (n r : Nat) (ps : List (Acc × Place)),
    laneStore i = some (o, n, r) → readyFor s i = some c → groupOk c.g → scratchWf s →
    reaches c o (storeNeeds [0, 1, 2]) (laneAccs c o n) ps s1 → noControl ps → exec i s = .next t →
    (∀ a, readByte t a = readByte s a) ∧ keepsScratch ps s t ∧
    addsStores ps (fun a => toBytes n (rdData c o r a.lane)) (fun a => a.lane) s t ∧ accessFrame i s c t ∧
    t = { s with groups := t.groups, cores := t.cores, copies := t.copies, teams := t.teams, stores := t.stores,
                 rels := t.rels, uid := t.uid }

/-- A pending store to device memory is performed: exactly its bytes are written at its address, every other byte reads as
before, no other store is dropped, and of the groups only the completion registers of the storing one change (11 R211, R217). -/
def Obligations.StorePerformFrame : Prop :=
  ∀ (s t : State) (n : Nat) (p : PStore), s.stores.find? (fun x => x.id == n) = some p → mayPerform s p = true →
    ctlBehind s p = false → p.scratch = none → windowOf p.pa ≠ .control → (homeDie s (dieOf p.core) p.pa).isSome = true → Memory.wf s.mem = true →
    exec (.storePerform n) s = .next t →
    (∀ a, readByte t a = if p.pa ≤ a ∧ a < p.pa + p.bytes.length then p.bytes.getD (a - p.pa) 0 else readByte s a) ∧
    t.stores = s.stores.filter (fun q => q.id != p.id) ∧ t.teams = s.teams ∧ keepsOthers s t p.group ∧
    ∀ g, group? s p.group = some g → ∃ g', group? t p.group = some g' ∧
      g' = { g with crCluster := g'.crCluster, crDie := g'.crDie, crDevice := g'.crDevice, crSystem := g'.crSystem }

/-- Atomics and reductions at device memory: every byte outside the words that the effective addresses give reads as before,
scratch changes at its places only, no register changes but the data of an atomic, in the lanes whose guard holds, apart from
results that land, and no store is added, since they act at the home when they issue (DEDUCED, log entry 10). An `atom` that has made
mode requests is one at control registers, and is no part of this (10 R198). -/
def Obligations.AtomicFrame : Prop :=
  ∀ (s t s1 : State) (i : Instr) (c : Ctx) (o : OpM) (n : Nat) (nd : Needs) (ps : List (Acc × Place)),
    laneStep i = some (o, n, nd) → readyFor s i = some c → inMode c.f.stage = false → groupOk c.g → Memory.wf s.mem = true → scratchWf s →
    reaches c o nd (laneAccs c o n) ps s1 → noControl ps → stepBlocked c s1 ps = false → exec i s = .next t →
    (∀ a, outside ps a → readByte t a = readByte s a) ∧ keepsScratch ps s t ∧ accessFrame i s c t ∧ t.stores = s.stores

/-! ### Rules of the sequential machine -/

/-- Little-endian (00 R3): the byte at the lowest address holds bits [7:0], in memory, in fetch lines, and in packets and
descriptors. -/
def Obligations.LittleEndian : Prop :=
  (∀ (s : State) (a n v i : Nat), Memory.wf s.mem = true → i < n →
    readByte (writeNat s a n v) (a + i) = BitVec.ofNat 8 (v >>> (8 * i)) ∧
    (readNat s a n >>> (8 * i)) % 256 = (readByte s (a + i)).toNat) ∧
  (∀ (s : State) (a n : Nat), Memory.wf s.mem = true → readNat s a n < 2 ^ (8 * n)) ∧
  (∀ (bs : List Byte) (i slot : Nat), bs.length = 64 → slot < 5 → i < 12 →
    ((slotWord bs slot).toNat >>> (8 * i)) % 256 = (bs.getD (12 * slot + i) 0).toNat) ∧
  (∀ (bs : List Byte) (i : Nat), bs.length = 64 → i < 4 → (lineWord bs >>> (8 * i)) % 256 = (bs.getD (60 + i) 0).toNat) ∧
  (∀ (bs : List Byte) (off n i : Nat), i < n → off + n ≤ bs.length →
    (descField bs off n >>> (8 * i)) % 256 = (bs.getD (off + i) 0).toNat)

/-- A 64-bit value occupies an even and odd pair, bits [31:0] in the even register and [63:32] in the odd one (01 R13), in the
vector and the uniform file; p7 reads true, a write to it is discarded, and writes to p0 to p6 take effect (R16). -/
def Obligations.PairsAndPredicateSeven : Prop :=
  (∀ (c : Ctx) (r : BitVec 9) (l : Nat),
    field (rdPair c r l) 0 32 = rd c r l ∧ field (rdPair c r l) 32 32 = rdAt c r 1 l ∧ rdPair c r l < 2 ^ 64) ∧
  (∀ (g : Group) (r : BitVec 9) (l x : Nat), Group.wf g = true →
    (isUni r = false → Maps.get 0 (l * 256 + regNo r) ((wrN r 2 l x).foldl writeReg g).v = BitVec.ofNat 32 x ∧
      Maps.get 0 (l * 256 + (regNo r + 1)) ((wrN r 2 l x).foldl writeReg g).v = BitVec.ofNat 32 (x >>> 32)) ∧
    (isUni r = true → Maps.get 0 (regNo r) ((wrN r 2 l x).foldl writeReg g).k = BitVec.ofNat 32 x ∧
      Maps.get 0 (regNo r + 1) ((wrN r 2 l x).foldl writeReg g).k = BitVec.ofNat 32 (x >>> 32))) ∧
  (∀ (g : Group) (l r : Nat) (b : Bool), Group.wf g = true →
    predAt g.p l 7 = true ∧ writeReg g (.p l 7 b) = g ∧
    (r < 7 → predAt (writeReg g (.p l r b)).p l r = b ∧
      ∀ l' r', r' < 8 → (l', r') ≠ (l, r) → predAt (writeReg g (.p l r b)).p l' r' = predAt g.p l' r'))

/-- A misaligned access traps ILLEGAL_OPERAND with the lanes in which it arises, without any access (01 R22, 12 R234): every
space that a load or store takes but the FIFO space, when the addresses of SPACE 0 and 4 are canonical. An access that waits with places
that it has been translated to has passed this check, and makes it once (21 R394). -/
def Obligations.MisalignedAccessTraps : Prop :=
  ∀ (s : State) (i : Instr) (c : Ctx) (o : OpM) (n : Nat),
    ((∃ sp, laneLoad i = some (o, sp, n) ∧ o.space.toNat ∈ sp) ∨ (∃ r, laneStore i = some (o, n, r) ∧ o.space.toNat ≤ 2) ∨
      (∃ nd, laneStep i = some (o, n, nd) ∧ o.space.toNat ≤ 2)) →
    readyFor s i = some c → acts c = true → trapHeld c.s c.tm c.g c.frag 0x03 = false → inHalf c.f.stage = false →
    inMode c.f.stage = false →
    (o.space = 0 ∨ o.space = 4 → failing (laneAccs c o n) (fun a => canonical a.ea) = 0) → misaligned (laneAccs c o n) ≠ 0 →
    exec i s = .next (takeTrap s c.key c.frag { code := 0x03, lanes := misaligned (laneAccs c o n) } c.f.pc false)

/-- The next slot (01 R31): the following slot of the line, and slot 0 of the line at line address + 64 after slot 4. An
instruction that does not branch moves its fragment there, and falling into a slot needs no mark. -/
def Obligations.NextSlot : Prop :=
  (∀ pc : DWord, pcFormOk pc = true →
    (slotOf pc < 4 → lineOf (nextSlot pc) = lineOf pc ∧ slotOf (nextSlot pc) = slotOf pc + 1) ∧
    (slotOf pc = 4 → lineOf (nextSlot pc) = (lineOf pc + 64) % 2 ^ 64 ∧ slotOf (nextSlot pc) = 0) ∧ pcFormOk (nextSlot pc) = true) ∧
  (∀ (c : Ctx) (m : Marks) (s : State) (w : List RegWrite) (fl : List (Nat × Nat)) (g : Group) (f : Fragment),
    group? s c.key = some g → Maps.find? c.frag g.frags = some f → g.joins = [] →
    ∃ g' f', group? (retire c m s (nextSlot c.f.pc) w fl) c.key = some g' ∧ Maps.find? c.frag g'.frags = some f' ∧
      f'.pc = nextSlot c.f.pc ∧ f'.mask = f.mask ∧ ∀ bs, badArrival f' bs = false)

/-- `exit` clears LIVE in the lanes whose guard holds; the other lanes of the group stay as they are, and a group without live
lanes ends (01 R32). -/
def Obligations.ExitClearsLive : Prop :=
  ∀ (s : State) (h : Hdr) (o : OpS) (c : Ctx), readyFor s (.exit h o) = some c → acts c = true → c.g.windows = [] → Group.wf c.g = true →
    (liveMask (leaveLanes c.frag c.pass c.g) ≠ 0 → ∃ t g', exec (.exit h o) s = .next t ∧ group? t c.key = some g' ∧
      ∀ l, l < 8 → live g' l = (live c.g l && !c.pass.testBit l)) ∧
    (liveMask (leaveLanes c.frag c.pass c.g) = 0 → lastWithDets c = false → Maps.rising s.groups = true →
      ∃ t, exec (.exit h o) s = .next t ∧ group? t c.key = none)

/-- Line parity (02 R35): bit j of PARITY is set exactly when an odd number of the line bits 30j to 30j + 29 are set, where bit
b is bit b mod 96 of slot b / 96; the line word is not covered, and each of its fields is checked for legality instead. -/
def Obligations.LineParity : Prop :=
  (∀ (bs : List Byte) (j : Nat), bs.length = 64 → j < 16 →
    (parityOf bs).testBit j = decide (((List.range 30).filter (fun i => lineBit bs (30 * j + i))).length % 2 = 1)) ∧
  (∀ bs bs' : List Byte, bs.take 60 = bs'.take 60 → parityOf bs = parityOf bs') ∧
  (∀ bs : List Byte, bs.length = 64 → (parityOk bs = true ↔ lineWord bs % 2 ^ 16 = parityOf bs)) ∧
  (∀ (stream : Bool) (lw : Nat), lineWordOk stream lw = true ↔
    lw >>> 20 % 16 = (if stream then 1 else 0) ∧ lw >>> 16 % 16 = 0 ∧ (stream = true → lw >>> 24 % 8 = 0))

/-- The lookahead window (01 R30): a result with LA = n > 0 is not written when its instruction completes; each later completion
counts one, and writes the result when n have. -/
def Obligations.LookaheadDelay : Prop :=
  (∀ (c : Ctx) (m : Marks) (s : State) (pc : DWord) (w : List RegWrite) (fl : List (Nat × Nat)) (g : Group),
    group? s c.key = some g → g.windows = [] → c.h.la ≠ 0 → ∃ g', group? (retire c m s pc w fl) c.key = some g' ∧
      g'.v = g.v ∧ g'.k = g.k ∧ g'.p = g.p ∧ g'.lstat = g.lstat ∧
      g'.windows = [{ left := c.h.la.toNat, writes := w, flags := fl }]) ∧
  (∀ (c : Ctx) (m : Marks) (s : State) (pc : DWord) (ws : List RegWrite) (fl : List (Nat × Nat)) (g : Group) (w : Window) (moved : Bool),
    group? s c.key = some g → g.windows = [w] → w.ready = true → c.h.la = 0 →
    (let own : Group := if moved then g else fl.foldl orLstat (ws.foldl writeReg g)
     let late : Group := landWindow own { w with left := 0 }
     ∃ g', group? (if moved then retireMoved c m s else retire c m s pc ws fl) c.key = some g' ∧
      (1 < w.left → g'.windows = [{ w with left := w.left - 1 }] ∧ g'.v = own.v ∧ g'.k = own.k ∧ g'.p = own.p ∧ g'.lstat = own.lstat) ∧
      (w.left = 1 → g'.windows = [] ∧ g'.v = late.v ∧ g'.k = late.k ∧ g'.p = late.p ∧ g'.lstat = late.lstat))) ∧
  (∀ (g : Group) (w : Window) (n : Nat), g.windows = [w] → w.ready = true → 0 < w.left →
    (n < w.left → passWindows^[n] g = { g with windows := [{ w with left := w.left - n }] }) ∧
    (n = w.left → passWindows^[n] g = landWindow { g with windows := [] } { w with left := 0 }))

/-- With TDIVZ set, a division by zero in a lane whose guard holds writes no destination, sets DIVZ in each such lane and traps
DIVZ (06 R117); with TDERIV set, a derivative with a pair that is not whole does the same with DERIV (09 R181). -/
def Obligations.EnabledArithmeticTraps : Prop :=
  ∀ (h : Hdr) (o : OpR),
    let zero (c : Ctx) := zeroDivisors c (width h) (Checks.fmt h) o.b
    let divz (i : Instr) : Prop := traps i (fun c => tdivz c = true ∧ zero c ≠ [])
      (fun c => { code := 0x0B, lanes := maskOf (zero c) }) (fun c => orLanes c.s c.key (zero c) lsDivz)
    let deriv (i : Instr) (y : Bool) : Prop := traps i (fun c => c.tm.hdr.traps.testBit 3 = true ∧ brokenLanes h y c ≠ [])
      (fun c => { code := 0x0C, lanes := maskOf (brokenLanes h y c) }) (fun c => orLanes c.s c.key (brokenLanes h y c) lsDeriv)
    divz (.div h o) ∧ divz (.rem h o) ∧ divz (.divrem h o) ∧ deriv (.ddx h o) false ∧ deriv (.ddy h o) true

/-! ### Traps -/

/-- Taking a trap (21 R385, R386) through a vector entry that can be read and arrives legally: the known pending results are
written, in landing order (that the unknown ones are not, and the order, are the model's reading: DEDUCED, log entries 20, 21 and
136), the saved program counter, `%ecode` with INH and the trap information are set, the other fragments stop, and the
fragment stands at the entry with its lanes; no memory changes. A return (R412) then clears INH alone, lets the others go on, and
continues at the saved program counter, which is no arrival. A vector entry that is the fragment's own reconvergence address is
no part of this: there the fragment arrives at its join instead (08 R172). -/
def Obligations.TrapEntryAndReturn : Prop :=
  ∀ (s s1 : State) (key frag e : Nat) (t : Trap) (saved : DWord) (defer : Bool) (g : Group) (tm : Team) (x : Context) (f : Fragment)
    (bs : List Byte),
    group? s key = some g → team? s g.team = some tm → Maps.find? tm.ctx s.contexts = some x → Maps.find? frag g.frags = some f →
    inh g = false → (∀ j z, f.link = some j → Maps.find? j g.joins = some z → z.ra ≠ BitVec.ofNat 64 e) →
    vectorEntry s x tm.ctx (tm.core / 64) t.code = some e → pcFormOk (BitVec.ofNat 64 e) = true →
    canonical (lineOf (BitVec.ofNat 64 e)) = true → fetchLine s tm.core tm.ctx (lineOf (BitVec.ofNat 64 e)) = (.line bs, s1) →
    marked (lineWord bs) (slotOf (BitVec.ofNat 64 e)) = true →
    t.code < 2 ^ 8 → t.cause < 2 ^ 8 → t.lanes < 2 ^ 8 →
    ∃ g' f', group? (takeTrap s key frag t saved defer) key = some g' ∧ Maps.find? frag g'.frags = some f' ∧
      f'.pc = BitVec.ofNat 64 e ∧ f'.mask = f.mask ∧ g'.epc = saved ∧ g'.einf = BitVec.ofNat 64 t.info ∧ inh g' = true ∧
      field g'.ecode.toNat 0 8 = t.code ∧ field g'.ecode.toNat 8 8 = t.cause ∧ field g'.ecode.toNat 16 8 = t.lanes ∧
      g'.ecode.toNat.testBit 25 = defer ∧ g'.v = (landReady g).v ∧ g'.k = (landReady g).k ∧ g'.p = (landReady g).p ∧
      (∀ k, k ∈ g'.stopped ↔ (k ≠ frag ∧ ∃ y, (k, y) ∈ g.frags)) ∧
      (∀ a, readByte (takeTrap s key frag t saved defer) a = readByte s a) ∧
      (let r := returnFromTrap key frag (takeTrap s key frag t saved defer)
       ∃ g2 f2, group? r key = some g2 ∧ Maps.find? frag g2.frags = some f2 ∧ f2.pc = saved ∧ f2.mask = f.mask ∧ f2.arrival = 0 ∧
        inh g2 = false ∧ g2.stopped = [] ∧ (∀ i, i ≠ 24 → g2.ecode.toNat.testBit i = g'.ecode.toNat.testBit i) ∧
        g2.v = g'.v ∧ g2.k = g'.k ∧ g2.p = g'.p ∧ g2.lstat = g'.lstat)

/-- A trap under INH, or without a usable vector entry, terminates the context with DOUBLE_TRAP (21 R387): a table address or an
entry of 0, an entry that cannot be read, a program counter of a wrong form, or a line without the mark. -/
def Obligations.DoubleTrapTerminates : Prop :=
  ∀ (s : State) (key frag : Nat) (t : Trap) (saved : DWord) (defer : Bool) (g : Group) (tm : Team) (x : Context),
    group? s key = some g → team? s g.team = some tm → Maps.find? tm.ctx s.contexts = some x →
    ((inh g = true ∨ vectorEntry s x tm.ctx (tm.core / 64) t.code = none ∨
        (∃ e, vectorEntry s x tm.ctx (tm.core / 64) t.code = some e ∧
          (pcFormOk (BitVec.ofNat 64 e) = false ∨ canonical (lineOf (BitVec.ofNat 64 e)) = false))) →
      takeTrap s key frag t saved defer = terminate s tm.ctx 0x1E) ∧
    (∀ e bs s1, inh g = false → vectorEntry s x tm.ctx (tm.core / 64) t.code = some e → pcFormOk (BitVec.ofNat 64 e) = true →
      canonical (lineOf (BitVec.ofNat 64 e)) = true → fetchLine s tm.core tm.ctx (lineOf (BitVec.ofNat 64 e)) = (.line bs, s1) →
      marked (lineWord bs) (slotOf (BitVec.ofNat 64 e)) = false →
      takeTrap s key frag t saved defer = terminate s1 tm.ctx 0x1E) ∧
    (x.tvec = 0 → vectorEntry s x tm.ctx (tm.core / 64) t.code = none)

/-- Terminating a context (21 R410): its teams, groups, copies and pending stores are gone, its stations and binners hold nothing
of it, and it is dead with the code; each of its launches has its completion record, or keeps the code that this is to report until
the stores of the launch have passed (08 R163), and TERMINATED is raised after the last of these; of other contexts no team, group or pending store is lost. A team of another context may begin
to stop, when a request to switch it out waited for the ended one (R406). -/
def Obligations.TerminationRemovesTheContext : Prop :=
  ∀ (s : State) (ctx code : Nat) (x : Context), Maps.find? ctx s.contexts = some x → x.dead = none →
    let t := terminate s ctx code
    (∃ y, Maps.find? ctx t.contexts = some y ∧ y.dead = some code) ∧ (∀ e ∈ t.teams, e.2.ctx ≠ ctx) ∧
    (∀ p ∈ t.stores, p.ctx ≠ ctx) ∧
    (∀ e ∈ t.groups, ∀ m ∈ s.teams, m.1 = e.2.team → m.2.ctx ≠ ctx) ∧
    (Maps.rising s.groups = true → ∀ e ∈ s.groups, (∀ m ∈ s.teams, m.1 = e.2.team → m.2.ctx ≠ ctx) → e ∈ t.groups) ∧ (∀ e ∈ s.teams, e.2.ctx ≠ ctx → ∃ m ∈ t.teams, m.1 = e.1 ∧ { m.2 with stopping := e.2.stopping } = e.2) ∧
    (∀ p ∈ s.stores, p.ctx ≠ ctx → p ∈ t.stores) ∧
    (∀ e ∈ t.clusters, (∀ y ∈ e.2.copies, y.ctx ≠ ctx) ∧ ∀ y ∈ e.2.spilled, y.ctx ≠ ctx) ∧
    (∀ e ∈ t.cores, (∀ y ∈ e.2.slots, y.ctx ≠ ctx) ∧ (∀ y ∈ e.2.ntiles, y.ctx ≠ ctx) ∧
      ∀ y ∈ e.2.tags, y.2.ctx = ctx → y.2.valid = false) ∧
    (∀ e ∈ t.dies, ∀ w ∈ e.2.binner, w.ctx ≠ ctx) ∧
    (Maps.rising s.launches = true → ∀ e ∈ t.launches, e.2.ctx = ctx → e.2.done = true ∨ (e.2.status = 0x30 ∧ e.2.detail = code)) ∧
    ((∃ e ∈ t.launches, e.2.ctx = ctx ∧ e.2.done = false) ∨ ∃ r ∈ t.recs, r.ctx = ctx ∧ r.code = 0x20 ∧ r.cause = code ∧ r.source = 5)

/-! ### Results and status registers -/

namespace Sys2Proof.Claims

/-- The bits of a result of width w. -/
def bitsAre (w : Nat) (x : Nat) (b : Nat → Bool) : Prop := x < 2 ^ w ∧ ∀ i, i < w → x.testBit i = b i

end Sys2Proof.Claims

/-- Carries, addresses and function bytes as the rules give them (06 R116, R118, R120, R123): `addc` and `subb` on n32 and n64,
`lea` and `leai` modulo 2^64, `tern` and `bini` bit by bit, `perm` byte by byte; each instruction completes with that result. -/
def Obligations.CarryAddressAndFunctionResults : Prop :=
  ∀ (h : Hdr) (o : OpR) (j : OpI),
    let w := width h
    (Checks.fmt h = 6 ∨ Checks.fmt h = 7 → w = 32 * (Checks.fmt h - 5) ∧
      done (.addc h o) (fun c =>
        wrLanes c o.d (w / 32) (fun l => (rdW w c o.a l + rdW w c o.b l + b2n (rdP c o.pn o.p l)) % 2 ^ w) ++
        wrPred c o.p (fun l => decide (2 ^ w ≤ rdW w c o.a l + rdW w c o.b l + b2n (rdP c o.pn o.p l)))) ∧
      done (.subb h o) (fun c =>
        wrLanes c o.d (w / 32) (fun l => (rdW w c o.a l + 2 * 2 ^ w - rdW w c o.b l - b2n (rdP c o.pn o.p l)) % 2 ^ w) ++
        wrPred c o.p (fun l => decide (rdW w c o.a l < rdW w c o.b l + b2n (rdP c o.pn o.p l)))) ∧
      (∀ x : Ctx → Nat → Nat, (∀ c l, bitsAre w (x c l) (fun i => o.aux.toNat.testBit
          (b2n ((rdW w c o.a l).testBit i) + 2 * b2n ((rdW w c o.b l).testBit i) + 4 * b2n ((rdW w c o.c l).testBit i)))) →
        done (.tern h o) (fun c => wrLanes c o.d (w / 32) (x c))) ∧
      (∀ x : Ctx → Nat → Nat, (∀ c l, bitsAre w (x c l) (fun i => (j.p.toNat + 8 * b2n j.pn).testBit
          (b2n ((rdW w c j.a l).testBit i) + 2 * b2n (j.imm.toNat.testBit i)))) →
        done (.bini h j) (fun c => wrLanes c j.d (w / 32) (x c)))) ∧
    (Checks.fmt h = 2 ∨ Checks.fmt h = 6 → done (.lea h o) (fun c => wrLanes c o.d 2 (fun l =>
      (BitVec.ofNat 64 (rdPair c o.a l) + ((if Checks.fmt h = 2 then (BitVec.ofNat 32 (rd c o.b l)).signExtend 64
        else (BitVec.ofNat 32 (rd c o.b l)).zeroExtend 64) <<< o.aux.toNat)).toNat))) ∧
    done (.leai h j) (fun c => wrLanes c j.d 2 (fun l => (BitVec.ofNat 64 (rdPair c j.a l) + j.imm.signExtend 64).toNat)) ∧
    (31 < o.aux.toNat → Instr.wellFormed (.lea h o) = false) ∧
    (∀ x : Ctx → Nat → Nat, (∀ c l, x c l < 2 ^ 32 ∧ ∀ i, i < 4 →
        let nib := field (rd c o.c l) (4 * i) 4
        let e := if nib % 8 < 4 then field (rd c o.a l) (8 * (nib % 8)) 8 else field (rd c o.b l) (8 * (nib % 8 - 4)) 8
        field (x c l) (8 * i) 8 = if nib < 8 then e else if e < 128 then 0 else 255) →
      done (.perm h o) (fun c => wrLanes c o.d 1 (x c)))

/-- Writes of the status registers (01 R19, R20; 06 R136): `swrite` to %lstat stores bits [12:8] and [4:0] of the lanes whose
guard holds and keeps every other bit, LIVE among them; to %gstat it stores bits [18:16] and nothing else; neither traps. -/
def Obligations.StatusRegisterWrites : Prop :=
  ∀ (s : State) (h : Hdr) (o : OpS) (c : Ctx), readyFor s (.swrite h o) = some c → acts c = true → c.g.windows = [] →
    Group.wf c.g = true →
    (o.sreg = 0x08 → ∃ t g', exec (.swrite h o) s = .next t ∧ group? t c.key = some g' ∧ g'.gstat = c.g.gstat ∧
      ∀ l i, l < 8 → i < 32 → (lstatOf g' l).testBit i =
        if c.pass.testBit l && (decide (i < 5) || (decide (8 ≤ i) && decide (i ≤ 12))) then (rd c o.a l).testBit i
        else (lstatOf c.g l).testBit i) ∧
    (o.sreg = 0x09 → ∃ t g', exec (.swrite h o) s = .next t ∧ group? t c.key = some g' ∧
      (∀ l, lstatOf g' l = lstatOf c.g l) ∧
      ∀ i, g'.gstat.testBit i = (decide (16 ≤ i) && decide (i ≤ 18) && (rd c o.a (lowActive c)).testBit i))
end

