-- ==== Sys2Proof/Laws/Ctl.lean ====
section
/-! SUPPORT. Laws of the control region: which register stands at an offset of a die's, a cluster's or a core's block. A
proof about a control register cites these and never computes with the block bases itself. -/

namespace Sys2Proof.Machine.Ops

/-- The register at an offset of a die block. -/
theorem ctlReg_die (d o : Nat) (hd : d < 8) (ho : o < 0x04000000) :
    ctlReg (dieOff d + o) = if o < 0x1000 then dieReg d o
    else if 0x00100000 ≤ o ∧ o < 0x00900000 then clusterReg (8 * d + o / 0x00100000 - 1) (o % 0x00100000)
    else if 0x01000000 ≤ o ∧ o < 0x03000000 then coreReg (64 * d + (o - 0x01000000) / 0x00080000) (o % 0x00080000)
    else none := by
  have a1 : dieOff d + o = o + 0x04000000 * (d + 1) := by unfold dieOff; rw [Nat.mul_comm, Nat.add_comm]
  have a2 : (o + 0x04000000 * (d + 1)) / 0x04000000 = d + 1 := by
    rw [Nat.add_mul_div_left _ _ (by decide), Nat.div_eq_of_lt ho, Nat.zero_add]
  have a3 : (o + 0x04000000 * (d + 1)) % 0x04000000 = o := by
    rw [Nat.add_mul_mod_self_left, Nat.mod_eq_of_lt ho]
  rw [a1]
  unfold ctlReg
  simp only [a2, a3]
  rw [if_neg (by omega), if_neg (by omega)]
  simp only [Nat.add_sub_cancel]

/-- The register at an offset of a cluster block. -/
theorem ctlReg_cluster (c o : Nat) (hc : c < 64) (ho : o < 0x00100000) : ctlReg (clusterOff c + o) = clusterReg c o := by
  obtain ⟨d, i, hd, hi, rfl⟩ : ∃ d i, d < 8 ∧ i < 8 ∧ c = 8 * d + i := ⟨c / 8, c % 8, by omega, by omega, by omega⟩
  have e : clusterOff (8 * d + i) + o = dieOff d + (o + 0x00100000 * (i + 1)) := by
    unfold clusterOff
    rw [Nat.mul_add_div (by decide), Nat.mul_add_mod, Nat.div_eq_of_lt hi, Nat.mod_eq_of_lt hi, Nat.add_zero, Nat.add_assoc,
      Nat.add_comm o]
  have b1 : (o + 0x00100000 * (i + 1)) / 0x00100000 = i + 1 := by
    rw [Nat.add_mul_div_left _ _ (by decide), Nat.div_eq_of_lt ho, Nat.zero_add]
  have b2 : (o + 0x00100000 * (i + 1)) % 0x00100000 = o := by
    rw [Nat.add_mul_mod_self_left, Nat.mod_eq_of_lt ho]
  have l1 : 0x00100000 ≤ o + 0x00100000 * (i + 1) := by omega
  have l2 : o + 0x00100000 * (i + 1) < 0x00900000 := by omega
  rw [e, ctlReg_die d _ hd (by omega), if_neg (by omega), if_pos ⟨l1, l2⟩, b1, b2, ← Nat.add_assoc, Nat.add_sub_cancel]

/-- The register at an offset of a core block. -/
theorem ctlReg_core (k o : Nat) (hk : k < 512) (ho : o < 0x00080000) : ctlReg (coreOff k + o) = coreReg k o := by
  obtain ⟨d, i, hd, hi, rfl⟩ : ∃ d i, d < 8 ∧ i < 64 ∧ k = 64 * d + i := ⟨k / 64, k % 64, by omega, by omega, by omega⟩
  have e : coreOff (64 * d + i) + o = dieOff d + (o + 0x00080000 * (i + 32)) := by
    unfold coreOff
    rw [Nat.mul_add_div (by decide), Nat.mul_add_mod, Nat.div_eq_of_lt hi, Nat.mod_eq_of_lt hi]
    simp only [Nat.add_zero]
    omega
  have b1 : (o + 0x00080000 * (i + 32) - 0x01000000) / 0x00080000 = i := by
    rw [Nat.mul_add, ← Nat.add_assoc, show (0x00080000 : Nat) * 32 = 0x01000000 from rfl, Nat.add_sub_cancel,
      Nat.add_mul_div_left _ _ (by decide), Nat.div_eq_of_lt ho, Nat.zero_add]
  have b2 : (o + 0x00080000 * (i + 32)) % 0x00080000 = o := by
    rw [Nat.add_mul_mod_self_left, Nat.mod_eq_of_lt ho]
  have l1 : 0x01000000 ≤ o + 0x00080000 * (i + 32) := by omega
  have l2 : o + 0x00080000 * (i + 32) < 0x03000000 := by omega
  have l3 : ¬ (o + 0x00080000 * (i + 32) < 0x1000) := by omega
  have l4 : ¬ (0x00100000 ≤ o + 0x00080000 * (i + 32) ∧ o + 0x00080000 * (i + 32) < 0x00900000) := by omega
  rw [e, ctlReg_die d _ hd (by omega), if_neg l3, if_neg l4, if_pos ⟨l1, l2⟩, b1, b2]

/-- A register answers an access of one of its widths. -/
theorem ctlTarget_of {off size : Nat} {ws : List Nat} {r : CtlReg} (h : ctlReg off = some (ws, r))
    (hw : ws.contains size = true) : ctlTarget off size = some r := by
  unfold ctlTarget
  rw [h]
  exact if_pos hw

end Sys2Proof.Machine.Ops
end

