-- ==== Sys2Proof/Laws/Maps.lean ====
section
/-! SUPPORT. Laws of finite maps: what a lookup finds after an insertion or a removal, that every operation keeps the
rising order and the canonical form, and that the two determine the contents. -/

namespace Sys2Proof.Maps

variable {α : Type}

/-! ### Order -/

theorem risingFrom_le {lo lo' : Nat} {m : List (Nat × α)} (h : risingFrom lo m = true) (hl : lo' ≤ lo) : risingFrom lo' m = true := by
  cases m with
  | nil => rfl
  | cons e m => simp only [risingFrom, Bool.and_eq_true, decide_eq_true_eq] at h ⊢; exact ⟨by omega, h.2⟩

theorem rising_of_risingFrom {lo : Nat} {m : List (Nat × α)} (h : risingFrom lo m = true) : rising m = true :=
  risingFrom_le h (Nat.zero_le _)

theorem find?_of_risingFrom {lo k : Nat} {m : List (Nat × α)} (h : risingFrom lo m = true) (hk : k < lo) : find? k m = none := by
  cases m with
  | nil => rfl
  | cons e m =>
    simp only [risingFrom, Bool.and_eq_true, decide_eq_true_eq] at h
    simp only [find?]
    rw [if_neg (by omega), if_pos (by omega)]

theorem insert_risingFrom {lo k : Nat} {v : α} {m : List (Nat × α)} (h : risingFrom lo m = true) (hk : lo ≤ k) :
    risingFrom lo (insert k v m) = true := by
  induction m generalizing lo with
  | nil => simp [insert, risingFrom, hk]
  | cons e m ih =>
    simp only [risingFrom, Bool.and_eq_true, decide_eq_true_eq] at h
    simp only [insert]
    split
    · simp only [risingFrom, Bool.and_eq_true, decide_eq_true_eq]; exact ⟨hk, by omega, h.2⟩
    · split
      · next he => subst he; simp only [risingFrom, Bool.and_eq_true, decide_eq_true_eq]; exact ⟨hk, h.2⟩
      · simp only [risingFrom, Bool.and_eq_true, decide_eq_true_eq]; exact ⟨h.1, ih h.2 (by omega)⟩

theorem erase_risingFrom {lo k : Nat} {m : List (Nat × α)} (h : risingFrom lo m = true) : risingFrom lo (erase k m) = true := by
  induction m generalizing lo with
  | nil => rfl
  | cons e m ih =>
    simp only [risingFrom, Bool.and_eq_true, decide_eq_true_eq] at h
    simp only [erase]
    split
    · simp only [risingFrom, Bool.and_eq_true, decide_eq_true_eq]; exact h
    · split
      · exact risingFrom_le h.2 (by omega)
      · simp only [risingFrom, Bool.and_eq_true, decide_eq_true_eq]; exact ⟨h.1, ih h.2⟩

theorem insert_rising {k : Nat} {v : α} {m : List (Nat × α)} (h : rising m = true) : rising (insert k v m) = true :=
  insert_risingFrom h (Nat.zero_le _)

theorem erase_rising {k : Nat} {m : List (Nat × α)} (h : rising m = true) : rising (erase k m) = true := erase_risingFrom h

/-! ### Lookup -/

@[simp] theorem find?_insert_self (k : Nat) (v : α) (m : List (Nat × α)) : find? k (insert k v m) = some v := by
  induction m with
  | nil => simp [insert, find?]
  | cons e m ih =>
    simp only [insert]
    split
    · simp [find?]
    · split
      · simp [find?]
      · next h1 h2 => simp only [find?]; rw [if_neg h2, if_neg h1, ih]

theorem find?_insert_ne {j k : Nat} (v : α) (m : List (Nat × α)) (h : j ≠ k) : find? j (insert k v m) = find? j m := by
  induction m with
  | nil => simp only [insert, find?]; rw [if_neg (Ne.symm h)]; split <;> rfl
  | cons e m ih =>
    simp only [insert]
    split
    · next h1 =>
      simp only [find?]
      rw [if_neg (Ne.symm h)]
      by_cases h2 : j < k
      · rw [if_pos h2, if_neg (by omega), if_pos (by omega)]
      · rw [if_neg h2]
    · split
      · next h1 h2 =>
        subst h2
        simp only [find?]
        rw [if_neg (Ne.symm h), if_neg (Ne.symm h)]
      · simp only [find?]
        rw [ih]

theorem find?_erase_self {lo k : Nat} {m : List (Nat × α)} (h : risingFrom lo m = true) : find? k (erase k m) = none := by
  induction m generalizing lo with
  | nil => rfl
  | cons e m ih =>
    simp only [risingFrom, Bool.and_eq_true, decide_eq_true_eq] at h
    simp only [erase]
    split
    · next h1 => simp only [find?]; rw [if_neg (by omega), if_pos h1]
    · split
      · next h2 => subst h2; exact find?_of_risingFrom h.2 (by omega)
      · next h1 h2 => simp only [find?]; rw [if_neg h2, if_neg h1]; exact ih h.2

theorem find?_erase_ne {lo j k : Nat} {m : List (Nat × α)} (h : risingFrom lo m = true) (hj : j ≠ k) :
    find? j (erase k m) = find? j m := by
  induction m generalizing lo with
  | nil => rfl
  | cons e m ih =>
    simp only [risingFrom, Bool.and_eq_true, decide_eq_true_eq] at h
    simp only [erase]
    split
    · rfl
    · split
      · next h2 =>
        subst h2
        simp only [find?]
        rw [if_neg (Ne.symm hj)]
        split
        · next h3 => exact find?_of_risingFrom h.2 (by omega)
        · rfl
      · simp only [find?]; rw [ih h.2]

/-! ### Maps with a default -/

@[simp] theorem get_insert_self (d : α) (k : Nat) (v : α) (m : List (Nat × α)) : get d k (insert k v m) = v := by simp [get]

theorem get_insert_ne (d : α) {j k : Nat} (v : α) (m : List (Nat × α)) (h : j ≠ k) : get d j (insert k v m) = get d j m := by
  simp [get, find?_insert_ne v m h]

variable [DecidableEq α]

theorem get_set_self {d : α} {k : Nat} {v : α} {m : List (Nat × α)} (h : rising m = true) : get d k (set d k v m) = v := by
  simp only [set, get]
  split
  · next he => rw [find?_erase_self h, he]; rfl
  · simp

theorem get_set_ne {d : α} {j k : Nat} {v : α} {m : List (Nat × α)} (h : rising m = true) (hj : j ≠ k) :
    get d j (set d k v m) = get d j m := by
  simp only [set, get]
  split
  · rw [find?_erase_ne h hj]
  · rw [find?_insert_ne v m hj]

theorem noDefault_erase {d : α} {k : Nat} {m : List (Nat × α)} (h : noDefault d m = true) : noDefault d (erase k m) = true := by
  induction m with
  | nil => rfl
  | cons e m ih =>
    simp only [noDefault, List.all_cons, Bool.and_eq_true] at h
    simp only [erase]
    split
    · simpa [noDefault] using h
    · split
      · exact h.2
      · simp only [noDefault, List.all_cons, Bool.and_eq_true]; exact ⟨h.1, ih h.2⟩

theorem noDefault_insert {d : α} {k : Nat} {v : α} {m : List (Nat × α)} (h : noDefault d m = true) (hv : v ≠ d) :
    noDefault d (insert k v m) = true := by
  induction m with
  | nil => simp [insert, noDefault, hv]
  | cons e m ih =>
    simp only [noDefault, List.all_cons, Bool.and_eq_true] at h
    simp only [insert]
    split
    · simp only [noDefault, List.all_cons, Bool.and_eq_true]; exact ⟨by simpa using hv, h.1, h.2⟩
    · split
      · simp only [noDefault, List.all_cons, Bool.and_eq_true]; exact ⟨by simpa using hv, h.2⟩
      · simp only [noDefault, List.all_cons, Bool.and_eq_true]; exact ⟨h.1, ih h.2⟩

/-- A write keeps the canonical form. -/
theorem set_canonical {d : α} {k : Nat} {v : α} {m : List (Nat × α)} (h : canonical d m = true) :
    canonical d (set d k v m) = true := by
  simp only [canonical, Bool.and_eq_true] at h ⊢
  simp only [set]
  split
  · exact ⟨erase_rising h.1, noDefault_erase h.2⟩
  · next hv => exact ⟨insert_rising h.1, noDefault_insert h.2 hv⟩

omit [DecidableEq α] in
theorem filter_risingFrom {lo : Nat} {m : List (Nat × α)} (p : Nat × α → Bool) (h : risingFrom lo m = true) :
    risingFrom lo (m.filter p) = true := by
  induction m generalizing lo with
  | nil => rfl
  | cons e m ih =>
    simp only [risingFrom, Bool.and_eq_true, decide_eq_true_eq] at h
    rw [List.filter_cons]
    split
    · simp only [risingFrom, Bool.and_eq_true, decide_eq_true_eq]; exact ⟨h.1, ih h.2⟩
    · exact risingFrom_le (ih h.2) (by omega)

/-- What a test selects is in canonical form. -/
theorem filter_canonical {d : α} {m : List (Nat × α)} (p : Nat × α → Bool) (h : canonical d m = true) :
    canonical d (m.filter p) = true := by
  simp only [canonical, noDefault, Bool.and_eq_true, List.all_eq_true] at h ⊢
  exact ⟨filter_risingFrom p h.1, fun e he => h.2 e (List.mem_of_mem_filter he)⟩

/-- A run of operations that keep the canonical form keeps it. -/
theorem foldl_canonical {β : Type} {d : α} {f : List (Nat × α) → β → List (Nat × α)} (hf : ∀ m x, canonical d m = true → canonical d (f m x) = true)
    (xs : List β) {m : List (Nat × α)} (h : canonical d m = true) : canonical d (xs.foldl f m) = true := by
  induction xs generalizing m with
  | nil => exact h
  | cons x xs ih => exact ih (hf m x h)

/-! ### Runs of keys -/

theorem entriesFrom_risingFrom {d : α} (vs : List α) (k : Nat) : risingFrom k (entriesFrom d k vs) = true := by
  induction vs generalizing k with
  | nil => rfl
  | cons v vs ih =>
    simp only [entriesFrom]
    split
    · exact risingFrom_le (ih (k + 1)) (by omega)
    · simp only [risingFrom, Bool.and_eq_true, decide_eq_true_eq]; exact ⟨by omega, ih (k + 1)⟩

theorem entriesFrom_keys {d : α} {vs : List α} {k : Nat} {e : Nat × α} (h : e ∈ entriesFrom d k vs) : k ≤ e.1 ∧ e.1 < k + vs.length := by
  induction vs generalizing k with
  | nil => simp [entriesFrom] at h
  | cons v vs ih =>
    simp only [entriesFrom] at h
    simp only [List.length_cons]
    split at h
    · have := ih h; omega
    · simp only [List.mem_cons] at h
      rcases h with rfl | h
      · simp
      · have := ih h; omega

theorem entriesFrom_noDefault {d : α} (vs : List α) (k : Nat) : noDefault d (entriesFrom d k vs) = true := by
  induction vs generalizing k with
  | nil => rfl
  | cons v vs ih =>
    simp only [entriesFrom]
    split
    · exact ih (k + 1)
    · next hv => simp only [noDefault, List.all_cons, Bool.and_eq_true]; exact ⟨by simpa using hv, ih (k + 1)⟩

omit [DecidableEq α] in
theorem risingFrom_append {lo mid : Nat} {a b : List (Nat × α)} (ha : risingFrom lo a = true) (hb : risingFrom mid b = true)
    (hl : lo ≤ mid) (hk : ∀ e ∈ a, e.1 < mid) : risingFrom lo (a ++ b) = true := by
  induction a generalizing lo with
  | nil => exact risingFrom_le hb hl
  | cons e a ih =>
    simp only [risingFrom, Bool.and_eq_true, decide_eq_true_eq] at ha
    simp only [List.cons_append, risingFrom, Bool.and_eq_true, decide_eq_true_eq]
    have he := hk e (by simp)
    exact ⟨ha.1, ih ha.2 (by omega) (fun x hx => hk x (by simp [hx]))⟩

omit [DecidableEq α] in
theorem takeWhile_risingFrom {lo : Nat} {m : List (Nat × α)} (p : Nat × α → Bool) (h : risingFrom lo m = true) :
    risingFrom lo (m.takeWhile p) = true := by
  induction m generalizing lo with
  | nil => rfl
  | cons e m ih =>
    simp only [risingFrom, Bool.and_eq_true, decide_eq_true_eq] at h
    simp only [List.takeWhile_cons]
    split
    · simp only [risingFrom, Bool.and_eq_true, decide_eq_true_eq]; exact ⟨h.1, ih h.2⟩
    · rfl

omit [DecidableEq α] in
theorem dropWhile_risingFrom {lo k : Nat} {m : List (Nat × α)} (h : risingFrom lo m = true) :
    risingFrom (max lo k) (m.dropWhile (fun e => decide (e.1 < k))) = true := by
  induction m generalizing lo with
  | nil => rfl
  | cons e m ih =>
    simp only [risingFrom, Bool.and_eq_true, decide_eq_true_eq] at h
    simp only [List.dropWhile_cons]
    split
    · next hp =>
      simp only [decide_eq_true_eq] at hp
      exact risingFrom_le (ih h.2) (by omega)
    · next hp =>
      simp only [decide_eq_true_eq] at hp
      simp only [risingFrom, Bool.and_eq_true, decide_eq_true_eq]
      exact ⟨by omega, h.2⟩

/-- Writing a run of keys keeps the canonical form. -/
theorem putAll_canonical {d : α} {k : Nat} {vs : List α} {m : List (Nat × α)} (h : canonical d m = true) :
    canonical d (putAll d k vs m) = true := by
  simp only [canonical, Bool.and_eq_true] at h ⊢
  constructor
  · refine rising_of_risingFrom (lo := 0) (risingFrom_append (mid := k) (takeWhile_risingFrom _ h.1) ?_ (Nat.zero_le _) ?_)
    · refine risingFrom_append (mid := k + vs.length) (entriesFrom_risingFrom vs k) ?_ (by omega) (fun e he => (entriesFrom_keys he).2)
      exact risingFrom_le (dropWhile_risingFrom (k := k + vs.length) h.1) (by omega)
    · intro e he
      have := List.mem_takeWhile_imp he
      simpa using this
  · have hm := h.2
    simp only [noDefault, List.all_eq_true] at hm ⊢
    simp only [putAll, List.mem_append]
    intro e he
    rcases he with he | he | he
    · exact hm e ((List.takeWhile_sublist _).mem he)
    · have := entriesFrom_noDefault (d := d) vs k
      simp only [noDefault, List.all_eq_true] at this
      exact this e he
    · exact hm e ((List.dropWhile_sublist _).mem he)

omit [DecidableEq α] in
theorem find?_append {lo k mid : Nat} {a b : List (Nat × α)} (ha : risingFrom lo a = true) (hb : risingFrom mid b = true)
    (hk : ∀ e ∈ a, e.1 < mid) : find? k (a ++ b) = if k < mid then find? k a else find? k b := by
  induction a generalizing lo with
  | nil =>
    simp only [List.nil_append, find?]
    split
    · next h => exact find?_of_risingFrom hb h
    · rfl
  | cons e a ih =>
    simp only [risingFrom, Bool.and_eq_true, decide_eq_true_eq] at ha
    have he := hk e (by simp)
    have hr := ih ha.2 (fun x hx => hk x (by simp [hx]))
    simp only [List.cons_append, find?]
    by_cases h1 : e.1 = k
    · rw [if_pos h1, if_pos (by omega), if_pos h1]
    · rw [if_neg h1]
      by_cases h2 : k < e.1
      · rw [if_pos h2, if_pos (by omega), if_neg h1, if_pos h2]
      · rw [if_neg h2, hr, if_neg h1, if_neg h2]

omit [DecidableEq α] in
theorem find?_takeWhile {lo k n : Nat} {m : List (Nat × α)} (h : risingFrom lo m = true) (hn : n < k) :
    find? n (m.takeWhile (fun e => decide (e.1 < k))) = find? n m := by
  induction m generalizing lo with
  | nil => rfl
  | cons e m ih =>
    simp only [risingFrom, Bool.and_eq_true, decide_eq_true_eq] at h
    simp only [List.takeWhile_cons]
    split
    · next hp =>
      simp only [find?]; rw [ih h.2]
    · next hp =>
      simp only [decide_eq_true_eq] at hp
      simp only [find?]
      rw [if_neg (by omega), if_pos (by omega)]

omit [DecidableEq α] in
theorem find?_dropWhile {lo k n : Nat} {m : List (Nat × α)} (h : risingFrom lo m = true) (hn : k ≤ n) :
    find? n (m.dropWhile (fun e => decide (e.1 < k))) = find? n m := by
  induction m generalizing lo with
  | nil => rfl
  | cons e m ih =>
    simp only [risingFrom, Bool.and_eq_true, decide_eq_true_eq] at h
    simp only [List.dropWhile_cons]
    split
    · next hp =>
      simp only [decide_eq_true_eq] at hp
      simp only [find?]
      rw [if_neg (by omega), if_neg (by omega)]
      exact ih h.2
    · rfl

theorem get_entriesFrom {d : α} (vs : List α) (k n : Nat) :
    get d n (entriesFrom d k vs) = if k ≤ n then vs.getD (n - k) d else d := by
  induction vs generalizing k with
  | nil => simp [entriesFrom, get, find?]
  | cons v vs ih =>
    simp only [entriesFrom]
    split
    · next hv =>
      rw [ih (k + 1)]
      by_cases h : k + 1 ≤ n
      · rw [if_pos h, if_pos (by omega)]
        obtain ⟨j, rfl⟩ := Nat.exists_eq_add_of_le h
        simp [show k + 1 + j - k = j + 1 from by omega]
      · rw [if_neg h]
        split
        · next h2 =>
          have : n = k := by omega
          subst this; simp [hv]
        · rfl
    · by_cases h1 : k = n
      · subst h1; simp [get, find?]
      · have hih := ih (k + 1)
        simp only [get, find?] at hih ⊢
        rw [if_neg h1]
        by_cases h2 : n < k
        · rw [if_pos h2, if_neg (by omega)]; rfl
        · rw [if_neg h2, hih, if_pos (by omega), if_pos (by omega)]
          obtain ⟨j, rfl⟩ := Nat.exists_eq_add_of_le (show k + 1 ≤ n by omega)
          simp [show k + 1 + j - k = j + 1 from by omega]

/-- Reading a key after a run of keys has been written: the written value inside the run, the old one outside. -/
theorem get_putAll {d : α} {k n : Nat} {vs : List α} {m : List (Nat × α)} (h : rising m = true) :
    get d n (putAll d k vs m) = if k ≤ n ∧ n < k + vs.length then vs.getD (n - k) d else get d n m := by
  have h1 : risingFrom k (entriesFrom d k vs ++ m.dropWhile (fun e => decide (e.1 < k + vs.length))) = true :=
    risingFrom_append (mid := k + vs.length) (entriesFrom_risingFrom vs k)
      (risingFrom_le (dropWhile_risingFrom (k := k + vs.length) h) (by omega)) (by omega) (fun e he => (entriesFrom_keys he).2)
  have h2 : ∀ e ∈ m.takeWhile (fun e => decide (e.1 < k)), e.1 < k := fun e he => by simpa using List.mem_takeWhile_imp he
  simp only [get, putAll]
  rw [find?_append (takeWhile_risingFrom _ h) h1 h2]
  by_cases hn : n < k
  · rw [if_pos hn, if_neg (by omega), find?_takeWhile h hn]
  · rw [if_neg hn, find?_append (entriesFrom_risingFrom vs k)
      (risingFrom_le (dropWhile_risingFrom (k := k + vs.length) h) (Nat.le_max_right _ _)) (fun e he => (entriesFrom_keys he).2)]
    by_cases hv : n < k + vs.length
    · rw [if_pos hv, if_pos ⟨by omega, hv⟩]
      have := get_entriesFrom (d := d) vs k n
      rw [if_pos (by omega)] at this
      exact this
    · rw [if_neg hv, if_neg (by omega), find?_dropWhile h (by omega)]

/-! ### Reading runs -/

omit [DecidableEq α] in
theorem sliceFrom_eq {d : α} {k n : Nat} {m : List (Nat × α)} (h : risingFrom k m = true) :
    sliceFrom d k n m = (List.range n).map (fun i => get d (k + i) m) := by
  induction n generalizing k m with
  | zero => simp [sliceFrom]
  | succ n ih =>
    rw [List.range_succ_eq_map]
    cases m with
    | nil =>
      simp only [sliceFrom]
      rw [ih (m := []) (k := k + 1) rfl]
      simp [get, find?, List.map_map, Function.comp_def]
    | cons e m =>
      obtain ⟨j, v⟩ := e
      have h0 := h
      simp only [risingFrom, Bool.and_eq_true, decide_eq_true_eq] at h
      simp only [sliceFrom]
      by_cases hj : j = k
      · subst hj
        rw [if_pos rfl, ih h.2]
        simp only [List.map_cons, List.map_map, Function.comp_def, Nat.add_zero, List.cons.injEq]
        refine ⟨by simp [get, find?], List.map_congr_left fun i _ => ?_⟩
        simp only [get, find?]
        rw [if_neg (by omega), if_neg (by omega)]
        simp only [Nat.succ_eq_add_one]
        rw [show j + 1 + i = j + (i + 1) from by omega]
      · rw [if_neg hj, ih (k := k + 1) (m := (j, v) :: m) (by simp only [risingFrom, Bool.and_eq_true, decide_eq_true_eq]; exact ⟨by omega, h.2⟩)]
        simp only [List.map_cons, List.map_map, Function.comp_def, Nat.add_zero, List.cons.injEq]
        refine ⟨?_, List.map_congr_left fun i _ => ?_⟩
        · simp only [get, find?]; rw [if_neg hj, if_pos (by omega)]; rfl
        · rw [Nat.succ_eq_add_one, show k + 1 + i = k + (i + 1) from by omega]

omit [DecidableEq α] in
/-- Reading a run of keys reads each key. -/
theorem slice_eq {d : α} {k n : Nat} {m : List (Nat × α)} (h : rising m = true) :
    slice d k n m = (List.range n).map (fun i => get d (k + i) m) := by
  simp only [slice]
  rw [sliceFrom_eq (risingFrom_le (dropWhile_risingFrom (k := k) h) (Nat.le_max_right _ _))]
  refine List.map_congr_left fun i _ => ?_
  simp only [get]
  rw [find?_dropWhile h (by omega)]

omit [DecidableEq α] in
theorem modify_find? (k : Nat) (f : α → α) (m : List (Nat × α)) : find? k (modify k f m) = (find? k m).map f := by
  simp only [modify]
  split
  · next h => rw [h]; rfl
  · next v h => rw [h]; simp

omit [DecidableEq α] in
theorem modify_find?_ne {j k : Nat} (f : α → α) (m : List (Nat × α)) (h : j ≠ k) : find? j (modify k f m) = find? j m := by
  simp only [modify]
  split
  · rfl
  · exact find?_insert_ne _ m h

end Sys2Proof.Maps
end

