-- ==== Sys2Proof/Laws/State.lean ====
section
/-! SUPPORT. Laws of the updates of the state: what each leaves in every field. Each is true by unfolding. -/

namespace Sys2Proof.Machine.Ops

/-! ### setDie -/

@[simp] theorem setDie_cur (s : State) (d : Nat) (x : Die) : (setDie s d x).cur = s.cur := rfl
@[simp] theorem setDie_agenda (s : State) (d : Nat) (x : Die) : (setDie s d x).agenda = s.agenda := rfl
@[simp] theorem setDie_turn (s : State) (d : Nat) (x : Die) : (setDie s d x).turn = s.turn := rfl
@[simp] theorem setDie_fresh (s : State) (d : Nat) (x : Die) : (setDie s d x).fresh = s.fresh := rfl
@[simp] theorem setDie_uid (s : State) (d : Nat) (x : Die) : (setDie s d x).uid = s.uid := rfl
@[simp] theorem setDie_now (s : State) (d : Nat) (x : Die) : (setDie s d x).now = s.now := rfl
@[simp] theorem setDie_cycles (s : State) (d : Nat) (x : Die) : (setDie s d x).cycles = s.cycles := rfl
@[simp] theorem setDie_mem (s : State) (d : Nat) (x : Die) : (setDie s d x).mem = s.mem := rfl
@[simp] theorem setDie_talus (s : State) (d : Nat) (x : Die) : (setDie s d x).talus = s.talus := rfl
@[simp] theorem setDie_talusHist (s : State) (d : Nat) (x : Die) : (setDie s d x).talusHist = s.talusHist := rfl
@[simp] theorem setDie_hist (s : State) (d : Nat) (x : Die) : (setDie s d x).hist = s.hist := rfl
@[simp] theorem setDie_ctl (s : State) (d : Nat) (x : Die) : (setDie s d x).ctl = s.ctl := rfl
@[simp] theorem setDie_dies (s : State) (d : Nat) (x : Die) : (setDie s d x).dies = Maps.insert d x s.dies := rfl
@[simp] theorem setDie_clusters (s : State) (d : Nat) (x : Die) : (setDie s d x).clusters = s.clusters := rfl
@[simp] theorem setDie_cores (s : State) (d : Nat) (x : Die) : (setDie s d x).cores = s.cores := rfl
@[simp] theorem setDie_teams (s : State) (d : Nat) (x : Die) : (setDie s d x).teams = s.teams := rfl
@[simp] theorem setDie_groups (s : State) (d : Nat) (x : Die) : (setDie s d x).groups = s.groups := rfl
@[simp] theorem setDie_launches (s : State) (d : Nat) (x : Die) : (setDie s d x).launches = s.launches := rfl
@[simp] theorem setDie_contexts (s : State) (d : Nat) (x : Die) : (setDie s d x).contexts = s.contexts := rfl
@[simp] theorem setDie_queues (s : State) (d : Nat) (x : Die) : (setDie s d x).queues = s.queues := rfl
@[simp] theorem setDie_recs (s : State) (d : Nat) (x : Die) : (setDie s d x).recs = s.recs := rfl
@[simp] theorem setDie_stores (s : State) (d : Nat) (x : Die) : (setDie s d x).stores = s.stores := rfl
@[simp] theorem setDie_rels (s : State) (d : Nat) (x : Die) : (setDie s d x).rels = s.rels := rfl
@[simp] theorem setDie_arrivals (s : State) (d : Nat) (x : Die) : (setDie s d x).arrivals = s.arrivals := rfl
@[simp] theorem setDie_copies (s : State) (d : Nat) (x : Die) : (setDie s d x).copies = s.copies := rfl
@[simp] theorem setDie_hostLines (s : State) (d : Nat) (x : Die) : (setDie s d x).hostLines = s.hostLines := rfl
@[simp] theorem setDie_hostCached (s : State) (d : Nat) (x : Die) : (setDie s d x).hostCached = s.hostCached := rfl
@[simp] theorem setDie_hostData (s : State) (d : Nat) (x : Die) : (setDie s d x).hostData = s.hostData := rfl
@[simp] theorem setDie_hostCt (s : State) (d : Nat) (x : Die) : (setDie s d x).hostCt = s.hostCt := rfl
@[simp] theorem setDie_versions (s : State) (d : Nat) (x : Die) : (setDie s d x).versions = s.versions := rfl
@[simp] theorem setDie_hlog (s : State) (d : Nat) (x : Die) : (setDie s d x).hlog = s.hlog := rfl
@[simp] theorem setDie_stcms (s : State) (d : Nat) (x : Die) : (setDie s d x).stcms = s.stcms := rfl
@[simp] theorem setDie_publishes (s : State) (d : Nat) (x : Die) : (setDie s d x).publishes = s.publishes := rfl
@[simp] theorem setDie_swaps (s : State) (d : Nat) (x : Die) : (setDie s d x).swaps = s.swaps := rfl
@[simp] theorem setDie_shadowCt (s : State) (d : Nat) (x : Die) : (setDie s d x).shadowCt = s.shadowCt := rfl
@[simp] theorem setDie_migration (s : State) (d : Nat) (x : Die) : (setDie s d x).migration = s.migration := rfl
@[simp] theorem setDie_sweeps (s : State) (d : Nat) (x : Die) : (setDie s d x).sweeps = s.sweeps := rfl
@[simp] theorem setDie_preempts (s : State) (d : Nat) (x : Die) : (setDie s d x).preempts = s.preempts := rfl
@[simp] theorem setDie_resumes (s : State) (d : Nat) (x : Die) : (setDie s d x).resumes = s.resumes := rfl
@[simp] theorem setDie_badLines (s : State) (d : Nat) (x : Die) : (setDie s d x).badLines = s.badLines := rfl
@[simp] theorem setDie_badPages (s : State) (d : Nat) (x : Die) : (setDie s d x).badPages = s.badPages := rfl
@[simp] theorem setDie_portsDown (s : State) (d : Nat) (x : Die) : (setDie s d x).portsDown = s.portsDown := rfl
@[simp] theorem setDie_resends (s : State) (d : Nat) (x : Die) : (setDie s d x).resends = s.resends := rfl
@[simp] theorem setDie_sets (s : State) (d : Nat) (x : Die) : (setDie s d x).sets = s.sets := rfl
@[simp] theorem setDie_reason (s : State) (d : Nat) (x : Die) : (setDie s d x).reason = s.reason := rfl
@[simp] theorem setDie_fails (s : State) (d : Nat) (x : Die) : (setDie s d x).fails = s.fails := rfl
@[simp] theorem setDie_minimal (s : State) (d : Nat) (x : Die) : (setDie s d x).minimal = s.minimal := rfl
@[simp] theorem setDie_ready (s : State) (d : Nat) (x : Die) : (setDie s d x).ready = s.ready := rfl
@[simp] theorem setDie_power (s : State) (d : Nat) (x : Die) : (setDie s d x).power = s.power := rfl

/-! ### setCluster -/

@[simp] theorem setCluster_cur (s : State) (c : Nat) (x : Cluster) : (setCluster s c x).cur = s.cur := rfl
@[simp] theorem setCluster_agenda (s : State) (c : Nat) (x : Cluster) : (setCluster s c x).agenda = s.agenda := rfl
@[simp] theorem setCluster_turn (s : State) (c : Nat) (x : Cluster) : (setCluster s c x).turn = s.turn := rfl
@[simp] theorem setCluster_fresh (s : State) (c : Nat) (x : Cluster) : (setCluster s c x).fresh = s.fresh := rfl
@[simp] theorem setCluster_uid (s : State) (c : Nat) (x : Cluster) : (setCluster s c x).uid = s.uid := rfl
@[simp] theorem setCluster_now (s : State) (c : Nat) (x : Cluster) : (setCluster s c x).now = s.now := rfl
@[simp] theorem setCluster_cycles (s : State) (c : Nat) (x : Cluster) : (setCluster s c x).cycles = s.cycles := rfl
@[simp] theorem setCluster_mem (s : State) (c : Nat) (x : Cluster) : (setCluster s c x).mem = s.mem := rfl
@[simp] theorem setCluster_talus (s : State) (c : Nat) (x : Cluster) : (setCluster s c x).talus = s.talus := rfl
@[simp] theorem setCluster_talusHist (s : State) (c : Nat) (x : Cluster) : (setCluster s c x).talusHist = s.talusHist := rfl
@[simp] theorem setCluster_hist (s : State) (c : Nat) (x : Cluster) : (setCluster s c x).hist = s.hist := rfl
@[simp] theorem setCluster_ctl (s : State) (c : Nat) (x : Cluster) : (setCluster s c x).ctl = s.ctl := rfl
@[simp] theorem setCluster_dies (s : State) (c : Nat) (x : Cluster) : (setCluster s c x).dies = s.dies := rfl
@[simp] theorem setCluster_clusters (s : State) (c : Nat) (x : Cluster) : (setCluster s c x).clusters = Maps.insert c x s.clusters := rfl
@[simp] theorem setCluster_cores (s : State) (c : Nat) (x : Cluster) : (setCluster s c x).cores = s.cores := rfl
@[simp] theorem setCluster_teams (s : State) (c : Nat) (x : Cluster) : (setCluster s c x).teams = s.teams := rfl
@[simp] theorem setCluster_groups (s : State) (c : Nat) (x : Cluster) : (setCluster s c x).groups = s.groups := rfl
@[simp] theorem setCluster_launches (s : State) (c : Nat) (x : Cluster) : (setCluster s c x).launches = s.launches := rfl
@[simp] theorem setCluster_contexts (s : State) (c : Nat) (x : Cluster) : (setCluster s c x).contexts = s.contexts := rfl
@[simp] theorem setCluster_queues (s : State) (c : Nat) (x : Cluster) : (setCluster s c x).queues = s.queues := rfl
@[simp] theorem setCluster_recs (s : State) (c : Nat) (x : Cluster) : (setCluster s c x).recs = s.recs := rfl
@[simp] theorem setCluster_stores (s : State) (c : Nat) (x : Cluster) : (setCluster s c x).stores = s.stores := rfl
@[simp] theorem setCluster_rels (s : State) (c : Nat) (x : Cluster) : (setCluster s c x).rels = s.rels := rfl
@[simp] theorem setCluster_arrivals (s : State) (c : Nat) (x : Cluster) : (setCluster s c x).arrivals = s.arrivals := rfl
@[simp] theorem setCluster_copies (s : State) (c : Nat) (x : Cluster) : (setCluster s c x).copies = s.copies := rfl
@[simp] theorem setCluster_hostLines (s : State) (c : Nat) (x : Cluster) : (setCluster s c x).hostLines = s.hostLines := rfl
@[simp] theorem setCluster_hostCached (s : State) (c : Nat) (x : Cluster) : (setCluster s c x).hostCached = s.hostCached := rfl
@[simp] theorem setCluster_hostData (s : State) (c : Nat) (x : Cluster) : (setCluster s c x).hostData = s.hostData := rfl
@[simp] theorem setCluster_hostCt (s : State) (c : Nat) (x : Cluster) : (setCluster s c x).hostCt = s.hostCt := rfl
@[simp] theorem setCluster_versions (s : State) (c : Nat) (x : Cluster) : (setCluster s c x).versions = s.versions := rfl
@[simp] theorem setCluster_hlog (s : State) (c : Nat) (x : Cluster) : (setCluster s c x).hlog = s.hlog := rfl
@[simp] theorem setCluster_stcms (s : State) (c : Nat) (x : Cluster) : (setCluster s c x).stcms = s.stcms := rfl
@[simp] theorem setCluster_publishes (s : State) (c : Nat) (x : Cluster) : (setCluster s c x).publishes = s.publishes := rfl
@[simp] theorem setCluster_swaps (s : State) (c : Nat) (x : Cluster) : (setCluster s c x).swaps = s.swaps := rfl
@[simp] theorem setCluster_shadowCt (s : State) (c : Nat) (x : Cluster) : (setCluster s c x).shadowCt = s.shadowCt := rfl
@[simp] theorem setCluster_migration (s : State) (c : Nat) (x : Cluster) : (setCluster s c x).migration = s.migration := rfl
@[simp] theorem setCluster_sweeps (s : State) (c : Nat) (x : Cluster) : (setCluster s c x).sweeps = s.sweeps := rfl
@[simp] theorem setCluster_preempts (s : State) (c : Nat) (x : Cluster) : (setCluster s c x).preempts = s.preempts := rfl
@[simp] theorem setCluster_resumes (s : State) (c : Nat) (x : Cluster) : (setCluster s c x).resumes = s.resumes := rfl
@[simp] theorem setCluster_badLines (s : State) (c : Nat) (x : Cluster) : (setCluster s c x).badLines = s.badLines := rfl
@[simp] theorem setCluster_badPages (s : State) (c : Nat) (x : Cluster) : (setCluster s c x).badPages = s.badPages := rfl
@[simp] theorem setCluster_portsDown (s : State) (c : Nat) (x : Cluster) : (setCluster s c x).portsDown = s.portsDown := rfl
@[simp] theorem setCluster_resends (s : State) (c : Nat) (x : Cluster) : (setCluster s c x).resends = s.resends := rfl
@[simp] theorem setCluster_sets (s : State) (c : Nat) (x : Cluster) : (setCluster s c x).sets = s.sets := rfl
@[simp] theorem setCluster_reason (s : State) (c : Nat) (x : Cluster) : (setCluster s c x).reason = s.reason := rfl
@[simp] theorem setCluster_fails (s : State) (c : Nat) (x : Cluster) : (setCluster s c x).fails = s.fails := rfl
@[simp] theorem setCluster_minimal (s : State) (c : Nat) (x : Cluster) : (setCluster s c x).minimal = s.minimal := rfl
@[simp] theorem setCluster_ready (s : State) (c : Nat) (x : Cluster) : (setCluster s c x).ready = s.ready := rfl
@[simp] theorem setCluster_power (s : State) (c : Nat) (x : Cluster) : (setCluster s c x).power = s.power := rfl

/-! ### setCore -/

@[simp] theorem setCore_cur (s : State) (c : Nat) (x : Core) : (setCore s c x).cur = s.cur := rfl
@[simp] theorem setCore_agenda (s : State) (c : Nat) (x : Core) : (setCore s c x).agenda = s.agenda := rfl
@[simp] theorem setCore_turn (s : State) (c : Nat) (x : Core) : (setCore s c x).turn = s.turn := rfl
@[simp] theorem setCore_fresh (s : State) (c : Nat) (x : Core) : (setCore s c x).fresh = s.fresh := rfl
@[simp] theorem setCore_uid (s : State) (c : Nat) (x : Core) : (setCore s c x).uid = s.uid := rfl
@[simp] theorem setCore_now (s : State) (c : Nat) (x : Core) : (setCore s c x).now = s.now := rfl
@[simp] theorem setCore_cycles (s : State) (c : Nat) (x : Core) : (setCore s c x).cycles = s.cycles := rfl
@[simp] theorem setCore_mem (s : State) (c : Nat) (x : Core) : (setCore s c x).mem = s.mem := rfl
@[simp] theorem setCore_talus (s : State) (c : Nat) (x : Core) : (setCore s c x).talus = s.talus := rfl
@[simp] theorem setCore_talusHist (s : State) (c : Nat) (x : Core) : (setCore s c x).talusHist = s.talusHist := rfl
@[simp] theorem setCore_hist (s : State) (c : Nat) (x : Core) : (setCore s c x).hist = s.hist := rfl
@[simp] theorem setCore_ctl (s : State) (c : Nat) (x : Core) : (setCore s c x).ctl = s.ctl := rfl
@[simp] theorem setCore_dies (s : State) (c : Nat) (x : Core) : (setCore s c x).dies = s.dies := rfl
@[simp] theorem setCore_clusters (s : State) (c : Nat) (x : Core) : (setCore s c x).clusters = s.clusters := rfl
@[simp] theorem setCore_cores (s : State) (c : Nat) (x : Core) : (setCore s c x).cores = Maps.insert c x s.cores := rfl
@[simp] theorem setCore_teams (s : State) (c : Nat) (x : Core) : (setCore s c x).teams = s.teams := rfl
@[simp] theorem setCore_groups (s : State) (c : Nat) (x : Core) : (setCore s c x).groups = s.groups := rfl
@[simp] theorem setCore_launches (s : State) (c : Nat) (x : Core) : (setCore s c x).launches = s.launches := rfl
@[simp] theorem setCore_contexts (s : State) (c : Nat) (x : Core) : (setCore s c x).contexts = s.contexts := rfl
@[simp] theorem setCore_queues (s : State) (c : Nat) (x : Core) : (setCore s c x).queues = s.queues := rfl
@[simp] theorem setCore_recs (s : State) (c : Nat) (x : Core) : (setCore s c x).recs = s.recs := rfl
@[simp] theorem setCore_stores (s : State) (c : Nat) (x : Core) : (setCore s c x).stores = s.stores := rfl
@[simp] theorem setCore_rels (s : State) (c : Nat) (x : Core) : (setCore s c x).rels = s.rels := rfl
@[simp] theorem setCore_arrivals (s : State) (c : Nat) (x : Core) : (setCore s c x).arrivals = s.arrivals := rfl
@[simp] theorem setCore_copies (s : State) (c : Nat) (x : Core) : (setCore s c x).copies = s.copies := rfl
@[simp] theorem setCore_hostLines (s : State) (c : Nat) (x : Core) : (setCore s c x).hostLines = s.hostLines := rfl
@[simp] theorem setCore_hostCached (s : State) (c : Nat) (x : Core) : (setCore s c x).hostCached = s.hostCached := rfl
@[simp] theorem setCore_hostData (s : State) (c : Nat) (x : Core) : (setCore s c x).hostData = s.hostData := rfl
@[simp] theorem setCore_hostCt (s : State) (c : Nat) (x : Core) : (setCore s c x).hostCt = s.hostCt := rfl
@[simp] theorem setCore_versions (s : State) (c : Nat) (x : Core) : (setCore s c x).versions = s.versions := rfl
@[simp] theorem setCore_hlog (s : State) (c : Nat) (x : Core) : (setCore s c x).hlog = s.hlog := rfl
@[simp] theorem setCore_stcms (s : State) (c : Nat) (x : Core) : (setCore s c x).stcms = s.stcms := rfl
@[simp] theorem setCore_publishes (s : State) (c : Nat) (x : Core) : (setCore s c x).publishes = s.publishes := rfl
@[simp] theorem setCore_swaps (s : State) (c : Nat) (x : Core) : (setCore s c x).swaps = s.swaps := rfl
@[simp] theorem setCore_shadowCt (s : State) (c : Nat) (x : Core) : (setCore s c x).shadowCt = s.shadowCt := rfl
@[simp] theorem setCore_migration (s : State) (c : Nat) (x : Core) : (setCore s c x).migration = s.migration := rfl
@[simp] theorem setCore_sweeps (s : State) (c : Nat) (x : Core) : (setCore s c x).sweeps = s.sweeps := rfl
@[simp] theorem setCore_preempts (s : State) (c : Nat) (x : Core) : (setCore s c x).preempts = s.preempts := rfl
@[simp] theorem setCore_resumes (s : State) (c : Nat) (x : Core) : (setCore s c x).resumes = s.resumes := rfl
@[simp] theorem setCore_badLines (s : State) (c : Nat) (x : Core) : (setCore s c x).badLines = s.badLines := rfl
@[simp] theorem setCore_badPages (s : State) (c : Nat) (x : Core) : (setCore s c x).badPages = s.badPages := rfl
@[simp] theorem setCore_portsDown (s : State) (c : Nat) (x : Core) : (setCore s c x).portsDown = s.portsDown := rfl
@[simp] theorem setCore_resends (s : State) (c : Nat) (x : Core) : (setCore s c x).resends = s.resends := rfl
@[simp] theorem setCore_sets (s : State) (c : Nat) (x : Core) : (setCore s c x).sets = s.sets := rfl
@[simp] theorem setCore_reason (s : State) (c : Nat) (x : Core) : (setCore s c x).reason = s.reason := rfl
@[simp] theorem setCore_fails (s : State) (c : Nat) (x : Core) : (setCore s c x).fails = s.fails := rfl
@[simp] theorem setCore_minimal (s : State) (c : Nat) (x : Core) : (setCore s c x).minimal = s.minimal := rfl
@[simp] theorem setCore_ready (s : State) (c : Nat) (x : Core) : (setCore s c x).ready = s.ready := rfl
@[simp] theorem setCore_power (s : State) (c : Nat) (x : Core) : (setCore s c x).power = s.power := rfl

/-! ### setTeam -/

@[simp] theorem setTeam_cur (s : State) (t : Nat) (x : Team) : (setTeam s t x).cur = s.cur := rfl
@[simp] theorem setTeam_agenda (s : State) (t : Nat) (x : Team) : (setTeam s t x).agenda = s.agenda := rfl
@[simp] theorem setTeam_turn (s : State) (t : Nat) (x : Team) : (setTeam s t x).turn = s.turn := rfl
@[simp] theorem setTeam_fresh (s : State) (t : Nat) (x : Team) : (setTeam s t x).fresh = s.fresh := rfl
@[simp] theorem setTeam_uid (s : State) (t : Nat) (x : Team) : (setTeam s t x).uid = s.uid := rfl
@[simp] theorem setTeam_now (s : State) (t : Nat) (x : Team) : (setTeam s t x).now = s.now := rfl
@[simp] theorem setTeam_cycles (s : State) (t : Nat) (x : Team) : (setTeam s t x).cycles = s.cycles := rfl
@[simp] theorem setTeam_mem (s : State) (t : Nat) (x : Team) : (setTeam s t x).mem = s.mem := rfl
@[simp] theorem setTeam_talus (s : State) (t : Nat) (x : Team) : (setTeam s t x).talus = s.talus := rfl
@[simp] theorem setTeam_talusHist (s : State) (t : Nat) (x : Team) : (setTeam s t x).talusHist = s.talusHist := rfl
@[simp] theorem setTeam_hist (s : State) (t : Nat) (x : Team) : (setTeam s t x).hist = s.hist := rfl
@[simp] theorem setTeam_ctl (s : State) (t : Nat) (x : Team) : (setTeam s t x).ctl = s.ctl := rfl
@[simp] theorem setTeam_dies (s : State) (t : Nat) (x : Team) : (setTeam s t x).dies = s.dies := rfl
@[simp] theorem setTeam_clusters (s : State) (t : Nat) (x : Team) : (setTeam s t x).clusters = s.clusters := rfl
@[simp] theorem setTeam_cores (s : State) (t : Nat) (x : Team) : (setTeam s t x).cores = s.cores := rfl
@[simp] theorem setTeam_teams (s : State) (t : Nat) (x : Team) : (setTeam s t x).teams = Maps.insert t x s.teams := rfl
@[simp] theorem setTeam_groups (s : State) (t : Nat) (x : Team) : (setTeam s t x).groups = s.groups := rfl
@[simp] theorem setTeam_launches (s : State) (t : Nat) (x : Team) : (setTeam s t x).launches = s.launches := rfl
@[simp] theorem setTeam_contexts (s : State) (t : Nat) (x : Team) : (setTeam s t x).contexts = s.contexts := rfl
@[simp] theorem setTeam_queues (s : State) (t : Nat) (x : Team) : (setTeam s t x).queues = s.queues := rfl
@[simp] theorem setTeam_recs (s : State) (t : Nat) (x : Team) : (setTeam s t x).recs = s.recs := rfl
@[simp] theorem setTeam_stores (s : State) (t : Nat) (x : Team) : (setTeam s t x).stores = s.stores := rfl
@[simp] theorem setTeam_rels (s : State) (t : Nat) (x : Team) : (setTeam s t x).rels = s.rels := rfl
@[simp] theorem setTeam_arrivals (s : State) (t : Nat) (x : Team) : (setTeam s t x).arrivals = s.arrivals := rfl
@[simp] theorem setTeam_copies (s : State) (t : Nat) (x : Team) : (setTeam s t x).copies = s.copies := rfl
@[simp] theorem setTeam_hostLines (s : State) (t : Nat) (x : Team) : (setTeam s t x).hostLines = s.hostLines := rfl
@[simp] theorem setTeam_hostCached (s : State) (t : Nat) (x : Team) : (setTeam s t x).hostCached = s.hostCached := rfl
@[simp] theorem setTeam_hostData (s : State) (t : Nat) (x : Team) : (setTeam s t x).hostData = s.hostData := rfl
@[simp] theorem setTeam_hostCt (s : State) (t : Nat) (x : Team) : (setTeam s t x).hostCt = s.hostCt := rfl
@[simp] theorem setTeam_versions (s : State) (t : Nat) (x : Team) : (setTeam s t x).versions = s.versions := rfl
@[simp] theorem setTeam_hlog (s : State) (t : Nat) (x : Team) : (setTeam s t x).hlog = s.hlog := rfl
@[simp] theorem setTeam_stcms (s : State) (t : Nat) (x : Team) : (setTeam s t x).stcms = s.stcms := rfl
@[simp] theorem setTeam_publishes (s : State) (t : Nat) (x : Team) : (setTeam s t x).publishes = s.publishes := rfl
@[simp] theorem setTeam_swaps (s : State) (t : Nat) (x : Team) : (setTeam s t x).swaps = s.swaps := rfl
@[simp] theorem setTeam_shadowCt (s : State) (t : Nat) (x : Team) : (setTeam s t x).shadowCt = s.shadowCt := rfl
@[simp] theorem setTeam_migration (s : State) (t : Nat) (x : Team) : (setTeam s t x).migration = s.migration := rfl
@[simp] theorem setTeam_sweeps (s : State) (t : Nat) (x : Team) : (setTeam s t x).sweeps = s.sweeps := rfl
@[simp] theorem setTeam_preempts (s : State) (t : Nat) (x : Team) : (setTeam s t x).preempts = s.preempts := rfl
@[simp] theorem setTeam_resumes (s : State) (t : Nat) (x : Team) : (setTeam s t x).resumes = s.resumes := rfl
@[simp] theorem setTeam_badLines (s : State) (t : Nat) (x : Team) : (setTeam s t x).badLines = s.badLines := rfl
@[simp] theorem setTeam_badPages (s : State) (t : Nat) (x : Team) : (setTeam s t x).badPages = s.badPages := rfl
@[simp] theorem setTeam_portsDown (s : State) (t : Nat) (x : Team) : (setTeam s t x).portsDown = s.portsDown := rfl
@[simp] theorem setTeam_resends (s : State) (t : Nat) (x : Team) : (setTeam s t x).resends = s.resends := rfl
@[simp] theorem setTeam_sets (s : State) (t : Nat) (x : Team) : (setTeam s t x).sets = s.sets := rfl
@[simp] theorem setTeam_reason (s : State) (t : Nat) (x : Team) : (setTeam s t x).reason = s.reason := rfl
@[simp] theorem setTeam_fails (s : State) (t : Nat) (x : Team) : (setTeam s t x).fails = s.fails := rfl
@[simp] theorem setTeam_minimal (s : State) (t : Nat) (x : Team) : (setTeam s t x).minimal = s.minimal := rfl
@[simp] theorem setTeam_ready (s : State) (t : Nat) (x : Team) : (setTeam s t x).ready = s.ready := rfl
@[simp] theorem setTeam_power (s : State) (t : Nat) (x : Team) : (setTeam s t x).power = s.power := rfl

/-! ### setGroup -/

@[simp] theorem setGroup_cur (s : State) (g : Nat) (x : Group) : (setGroup s g x).cur = s.cur := rfl
@[simp] theorem setGroup_agenda (s : State) (g : Nat) (x : Group) : (setGroup s g x).agenda = s.agenda := rfl
@[simp] theorem setGroup_turn (s : State) (g : Nat) (x : Group) : (setGroup s g x).turn = s.turn := rfl
@[simp] theorem setGroup_fresh (s : State) (g : Nat) (x : Group) : (setGroup s g x).fresh = s.fresh := rfl
@[simp] theorem setGroup_uid (s : State) (g : Nat) (x : Group) : (setGroup s g x).uid = s.uid := rfl
@[simp] theorem setGroup_now (s : State) (g : Nat) (x : Group) : (setGroup s g x).now = s.now := rfl
@[simp] theorem setGroup_cycles (s : State) (g : Nat) (x : Group) : (setGroup s g x).cycles = s.cycles := rfl
@[simp] theorem setGroup_mem (s : State) (g : Nat) (x : Group) : (setGroup s g x).mem = s.mem := rfl
@[simp] theorem setGroup_talus (s : State) (g : Nat) (x : Group) : (setGroup s g x).talus = s.talus := rfl
@[simp] theorem setGroup_talusHist (s : State) (g : Nat) (x : Group) : (setGroup s g x).talusHist = s.talusHist := rfl
@[simp] theorem setGroup_hist (s : State) (g : Nat) (x : Group) : (setGroup s g x).hist = s.hist := rfl
@[simp] theorem setGroup_ctl (s : State) (g : Nat) (x : Group) : (setGroup s g x).ctl = s.ctl := rfl
@[simp] theorem setGroup_dies (s : State) (g : Nat) (x : Group) : (setGroup s g x).dies = s.dies := rfl
@[simp] theorem setGroup_clusters (s : State) (g : Nat) (x : Group) : (setGroup s g x).clusters = s.clusters := rfl
@[simp] theorem setGroup_cores (s : State) (g : Nat) (x : Group) : (setGroup s g x).cores = s.cores := rfl
@[simp] theorem setGroup_teams (s : State) (g : Nat) (x : Group) : (setGroup s g x).teams = s.teams := rfl
@[simp] theorem setGroup_groups (s : State) (g : Nat) (x : Group) : (setGroup s g x).groups = Maps.insert g x s.groups := rfl
@[simp] theorem setGroup_launches (s : State) (g : Nat) (x : Group) : (setGroup s g x).launches = s.launches := rfl
@[simp] theorem setGroup_contexts (s : State) (g : Nat) (x : Group) : (setGroup s g x).contexts = s.contexts := rfl
@[simp] theorem setGroup_queues (s : State) (g : Nat) (x : Group) : (setGroup s g x).queues = s.queues := rfl
@[simp] theorem setGroup_recs (s : State) (g : Nat) (x : Group) : (setGroup s g x).recs = s.recs := rfl
@[simp] theorem setGroup_stores (s : State) (g : Nat) (x : Group) : (setGroup s g x).stores = s.stores := rfl
@[simp] theorem setGroup_rels (s : State) (g : Nat) (x : Group) : (setGroup s g x).rels = s.rels := rfl
@[simp] theorem setGroup_arrivals (s : State) (g : Nat) (x : Group) : (setGroup s g x).arrivals = s.arrivals := rfl
@[simp] theorem setGroup_copies (s : State) (g : Nat) (x : Group) : (setGroup s g x).copies = s.copies := rfl
@[simp] theorem setGroup_hostLines (s : State) (g : Nat) (x : Group) : (setGroup s g x).hostLines = s.hostLines := rfl
@[simp] theorem setGroup_hostCached (s : State) (g : Nat) (x : Group) : (setGroup s g x).hostCached = s.hostCached := rfl
@[simp] theorem setGroup_hostData (s : State) (g : Nat) (x : Group) : (setGroup s g x).hostData = s.hostData := rfl
@[simp] theorem setGroup_hostCt (s : State) (g : Nat) (x : Group) : (setGroup s g x).hostCt = s.hostCt := rfl
@[simp] theorem setGroup_versions (s : State) (g : Nat) (x : Group) : (setGroup s g x).versions = s.versions := rfl
@[simp] theorem setGroup_hlog (s : State) (g : Nat) (x : Group) : (setGroup s g x).hlog = s.hlog := rfl
@[simp] theorem setGroup_stcms (s : State) (g : Nat) (x : Group) : (setGroup s g x).stcms = s.stcms := rfl
@[simp] theorem setGroup_publishes (s : State) (g : Nat) (x : Group) : (setGroup s g x).publishes = s.publishes := rfl
@[simp] theorem setGroup_swaps (s : State) (g : Nat) (x : Group) : (setGroup s g x).swaps = s.swaps := rfl
@[simp] theorem setGroup_shadowCt (s : State) (g : Nat) (x : Group) : (setGroup s g x).shadowCt = s.shadowCt := rfl
@[simp] theorem setGroup_migration (s : State) (g : Nat) (x : Group) : (setGroup s g x).migration = s.migration := rfl
@[simp] theorem setGroup_sweeps (s : State) (g : Nat) (x : Group) : (setGroup s g x).sweeps = s.sweeps := rfl
@[simp] theorem setGroup_preempts (s : State) (g : Nat) (x : Group) : (setGroup s g x).preempts = s.preempts := rfl
@[simp] theorem setGroup_resumes (s : State) (g : Nat) (x : Group) : (setGroup s g x).resumes = s.resumes := rfl
@[simp] theorem setGroup_badLines (s : State) (g : Nat) (x : Group) : (setGroup s g x).badLines = s.badLines := rfl
@[simp] theorem setGroup_badPages (s : State) (g : Nat) (x : Group) : (setGroup s g x).badPages = s.badPages := rfl
@[simp] theorem setGroup_portsDown (s : State) (g : Nat) (x : Group) : (setGroup s g x).portsDown = s.portsDown := rfl
@[simp] theorem setGroup_resends (s : State) (g : Nat) (x : Group) : (setGroup s g x).resends = s.resends := rfl
@[simp] theorem setGroup_sets (s : State) (g : Nat) (x : Group) : (setGroup s g x).sets = s.sets := rfl
@[simp] theorem setGroup_reason (s : State) (g : Nat) (x : Group) : (setGroup s g x).reason = s.reason := rfl
@[simp] theorem setGroup_fails (s : State) (g : Nat) (x : Group) : (setGroup s g x).fails = s.fails := rfl
@[simp] theorem setGroup_minimal (s : State) (g : Nat) (x : Group) : (setGroup s g x).minimal = s.minimal := rfl
@[simp] theorem setGroup_ready (s : State) (g : Nat) (x : Group) : (setGroup s g x).ready = s.ready := rfl
@[simp] theorem setGroup_power (s : State) (g : Nat) (x : Group) : (setGroup s g x).power = s.power := rfl

/-! ### setLaunch -/

@[simp] theorem setLaunch_cur (s : State) (l : Nat) (x : Launch) : (setLaunch s l x).cur = s.cur := rfl
@[simp] theorem setLaunch_agenda (s : State) (l : Nat) (x : Launch) : (setLaunch s l x).agenda = s.agenda := rfl
@[simp] theorem setLaunch_turn (s : State) (l : Nat) (x : Launch) : (setLaunch s l x).turn = s.turn := rfl
@[simp] theorem setLaunch_fresh (s : State) (l : Nat) (x : Launch) : (setLaunch s l x).fresh = s.fresh := rfl
@[simp] theorem setLaunch_uid (s : State) (l : Nat) (x : Launch) : (setLaunch s l x).uid = s.uid := rfl
@[simp] theorem setLaunch_now (s : State) (l : Nat) (x : Launch) : (setLaunch s l x).now = s.now := rfl
@[simp] theorem setLaunch_cycles (s : State) (l : Nat) (x : Launch) : (setLaunch s l x).cycles = s.cycles := rfl
@[simp] theorem setLaunch_mem (s : State) (l : Nat) (x : Launch) : (setLaunch s l x).mem = s.mem := rfl
@[simp] theorem setLaunch_talus (s : State) (l : Nat) (x : Launch) : (setLaunch s l x).talus = s.talus := rfl
@[simp] theorem setLaunch_talusHist (s : State) (l : Nat) (x : Launch) : (setLaunch s l x).talusHist = s.talusHist := rfl
@[simp] theorem setLaunch_hist (s : State) (l : Nat) (x : Launch) : (setLaunch s l x).hist = s.hist := rfl
@[simp] theorem setLaunch_ctl (s : State) (l : Nat) (x : Launch) : (setLaunch s l x).ctl = s.ctl := rfl
@[simp] theorem setLaunch_dies (s : State) (l : Nat) (x : Launch) : (setLaunch s l x).dies = s.dies := rfl
@[simp] theorem setLaunch_clusters (s : State) (l : Nat) (x : Launch) : (setLaunch s l x).clusters = s.clusters := rfl
@[simp] theorem setLaunch_cores (s : State) (l : Nat) (x : Launch) : (setLaunch s l x).cores = s.cores := rfl
@[simp] theorem setLaunch_teams (s : State) (l : Nat) (x : Launch) : (setLaunch s l x).teams = s.teams := rfl
@[simp] theorem setLaunch_groups (s : State) (l : Nat) (x : Launch) : (setLaunch s l x).groups = s.groups := rfl
@[simp] theorem setLaunch_launches (s : State) (l : Nat) (x : Launch) : (setLaunch s l x).launches = Maps.insert l x s.launches := rfl
@[simp] theorem setLaunch_contexts (s : State) (l : Nat) (x : Launch) : (setLaunch s l x).contexts = s.contexts := rfl
@[simp] theorem setLaunch_queues (s : State) (l : Nat) (x : Launch) : (setLaunch s l x).queues = s.queues := rfl
@[simp] theorem setLaunch_recs (s : State) (l : Nat) (x : Launch) : (setLaunch s l x).recs = s.recs := rfl
@[simp] theorem setLaunch_stores (s : State) (l : Nat) (x : Launch) : (setLaunch s l x).stores = s.stores := rfl
@[simp] theorem setLaunch_rels (s : State) (l : Nat) (x : Launch) : (setLaunch s l x).rels = s.rels := rfl
@[simp] theorem setLaunch_arrivals (s : State) (l : Nat) (x : Launch) : (setLaunch s l x).arrivals = s.arrivals := rfl
@[simp] theorem setLaunch_copies (s : State) (l : Nat) (x : Launch) : (setLaunch s l x).copies = s.copies := rfl
@[simp] theorem setLaunch_hostLines (s : State) (l : Nat) (x : Launch) : (setLaunch s l x).hostLines = s.hostLines := rfl
@[simp] theorem setLaunch_hostCached (s : State) (l : Nat) (x : Launch) : (setLaunch s l x).hostCached = s.hostCached := rfl
@[simp] theorem setLaunch_hostData (s : State) (l : Nat) (x : Launch) : (setLaunch s l x).hostData = s.hostData := rfl
@[simp] theorem setLaunch_hostCt (s : State) (l : Nat) (x : Launch) : (setLaunch s l x).hostCt = s.hostCt := rfl
@[simp] theorem setLaunch_versions (s : State) (l : Nat) (x : Launch) : (setLaunch s l x).versions = s.versions := rfl
@[simp] theorem setLaunch_hlog (s : State) (l : Nat) (x : Launch) : (setLaunch s l x).hlog = s.hlog := rfl
@[simp] theorem setLaunch_stcms (s : State) (l : Nat) (x : Launch) : (setLaunch s l x).stcms = s.stcms := rfl
@[simp] theorem setLaunch_publishes (s : State) (l : Nat) (x : Launch) : (setLaunch s l x).publishes = s.publishes := rfl
@[simp] theorem setLaunch_swaps (s : State) (l : Nat) (x : Launch) : (setLaunch s l x).swaps = s.swaps := rfl
@[simp] theorem setLaunch_shadowCt (s : State) (l : Nat) (x : Launch) : (setLaunch s l x).shadowCt = s.shadowCt := rfl
@[simp] theorem setLaunch_migration (s : State) (l : Nat) (x : Launch) : (setLaunch s l x).migration = s.migration := rfl
@[simp] theorem setLaunch_sweeps (s : State) (l : Nat) (x : Launch) : (setLaunch s l x).sweeps = s.sweeps := rfl
@[simp] theorem setLaunch_preempts (s : State) (l : Nat) (x : Launch) : (setLaunch s l x).preempts = s.preempts := rfl
@[simp] theorem setLaunch_resumes (s : State) (l : Nat) (x : Launch) : (setLaunch s l x).resumes = s.resumes := rfl
@[simp] theorem setLaunch_badLines (s : State) (l : Nat) (x : Launch) : (setLaunch s l x).badLines = s.badLines := rfl
@[simp] theorem setLaunch_badPages (s : State) (l : Nat) (x : Launch) : (setLaunch s l x).badPages = s.badPages := rfl
@[simp] theorem setLaunch_portsDown (s : State) (l : Nat) (x : Launch) : (setLaunch s l x).portsDown = s.portsDown := rfl
@[simp] theorem setLaunch_resends (s : State) (l : Nat) (x : Launch) : (setLaunch s l x).resends = s.resends := rfl
@[simp] theorem setLaunch_sets (s : State) (l : Nat) (x : Launch) : (setLaunch s l x).sets = s.sets := rfl
@[simp] theorem setLaunch_reason (s : State) (l : Nat) (x : Launch) : (setLaunch s l x).reason = s.reason := rfl
@[simp] theorem setLaunch_fails (s : State) (l : Nat) (x : Launch) : (setLaunch s l x).fails = s.fails := rfl
@[simp] theorem setLaunch_minimal (s : State) (l : Nat) (x : Launch) : (setLaunch s l x).minimal = s.minimal := rfl
@[simp] theorem setLaunch_ready (s : State) (l : Nat) (x : Launch) : (setLaunch s l x).ready = s.ready := rfl
@[simp] theorem setLaunch_power (s : State) (l : Nat) (x : Launch) : (setLaunch s l x).power = s.power := rfl

/-! ### setContext -/

@[simp] theorem setContext_cur (s : State) (c : Nat) (x : Context) : (setContext s c x).cur = s.cur := rfl
@[simp] theorem setContext_agenda (s : State) (c : Nat) (x : Context) : (setContext s c x).agenda = s.agenda := rfl
@[simp] theorem setContext_turn (s : State) (c : Nat) (x : Context) : (setContext s c x).turn = s.turn := rfl
@[simp] theorem setContext_fresh (s : State) (c : Nat) (x : Context) : (setContext s c x).fresh = s.fresh := rfl
@[simp] theorem setContext_uid (s : State) (c : Nat) (x : Context) : (setContext s c x).uid = s.uid := rfl
@[simp] theorem setContext_now (s : State) (c : Nat) (x : Context) : (setContext s c x).now = s.now := rfl
@[simp] theorem setContext_cycles (s : State) (c : Nat) (x : Context) : (setContext s c x).cycles = s.cycles := rfl
@[simp] theorem setContext_mem (s : State) (c : Nat) (x : Context) : (setContext s c x).mem = s.mem := rfl
@[simp] theorem setContext_talus (s : State) (c : Nat) (x : Context) : (setContext s c x).talus = s.talus := rfl
@[simp] theorem setContext_talusHist (s : State) (c : Nat) (x : Context) : (setContext s c x).talusHist = s.talusHist := rfl
@[simp] theorem setContext_hist (s : State) (c : Nat) (x : Context) : (setContext s c x).hist = s.hist := rfl
@[simp] theorem setContext_ctl (s : State) (c : Nat) (x : Context) : (setContext s c x).ctl = s.ctl := rfl
@[simp] theorem setContext_dies (s : State) (c : Nat) (x : Context) : (setContext s c x).dies = s.dies := rfl
@[simp] theorem setContext_clusters (s : State) (c : Nat) (x : Context) : (setContext s c x).clusters = s.clusters := rfl
@[simp] theorem setContext_cores (s : State) (c : Nat) (x : Context) : (setContext s c x).cores = s.cores := rfl
@[simp] theorem setContext_teams (s : State) (c : Nat) (x : Context) : (setContext s c x).teams = s.teams := rfl
@[simp] theorem setContext_groups (s : State) (c : Nat) (x : Context) : (setContext s c x).groups = s.groups := rfl
@[simp] theorem setContext_launches (s : State) (c : Nat) (x : Context) : (setContext s c x).launches = s.launches := rfl
@[simp] theorem setContext_contexts (s : State) (c : Nat) (x : Context) : (setContext s c x).contexts = Maps.insert c x s.contexts := rfl
@[simp] theorem setContext_queues (s : State) (c : Nat) (x : Context) : (setContext s c x).queues = s.queues := rfl
@[simp] theorem setContext_recs (s : State) (c : Nat) (x : Context) : (setContext s c x).recs = s.recs := rfl
@[simp] theorem setContext_stores (s : State) (c : Nat) (x : Context) : (setContext s c x).stores = s.stores := rfl
@[simp] theorem setContext_rels (s : State) (c : Nat) (x : Context) : (setContext s c x).rels = s.rels := rfl
@[simp] theorem setContext_arrivals (s : State) (c : Nat) (x : Context) : (setContext s c x).arrivals = s.arrivals := rfl
@[simp] theorem setContext_copies (s : State) (c : Nat) (x : Context) : (setContext s c x).copies = s.copies := rfl
@[simp] theorem setContext_hostLines (s : State) (c : Nat) (x : Context) : (setContext s c x).hostLines = s.hostLines := rfl
@[simp] theorem setContext_hostCached (s : State) (c : Nat) (x : Context) : (setContext s c x).hostCached = s.hostCached := rfl
@[simp] theorem setContext_hostData (s : State) (c : Nat) (x : Context) : (setContext s c x).hostData = s.hostData := rfl
@[simp] theorem setContext_hostCt (s : State) (c : Nat) (x : Context) : (setContext s c x).hostCt = s.hostCt := rfl
@[simp] theorem setContext_versions (s : State) (c : Nat) (x : Context) : (setContext s c x).versions = s.versions := rfl
@[simp] theorem setContext_hlog (s : State) (c : Nat) (x : Context) : (setContext s c x).hlog = s.hlog := rfl
@[simp] theorem setContext_stcms (s : State) (c : Nat) (x : Context) : (setContext s c x).stcms = s.stcms := rfl
@[simp] theorem setContext_publishes (s : State) (c : Nat) (x : Context) : (setContext s c x).publishes = s.publishes := rfl
@[simp] theorem setContext_swaps (s : State) (c : Nat) (x : Context) : (setContext s c x).swaps = s.swaps := rfl
@[simp] theorem setContext_shadowCt (s : State) (c : Nat) (x : Context) : (setContext s c x).shadowCt = s.shadowCt := rfl
@[simp] theorem setContext_migration (s : State) (c : Nat) (x : Context) : (setContext s c x).migration = s.migration := rfl
@[simp] theorem setContext_sweeps (s : State) (c : Nat) (x : Context) : (setContext s c x).sweeps = s.sweeps := rfl
@[simp] theorem setContext_preempts (s : State) (c : Nat) (x : Context) : (setContext s c x).preempts = s.preempts := rfl
@[simp] theorem setContext_resumes (s : State) (c : Nat) (x : Context) : (setContext s c x).resumes = s.resumes := rfl
@[simp] theorem setContext_badLines (s : State) (c : Nat) (x : Context) : (setContext s c x).badLines = s.badLines := rfl
@[simp] theorem setContext_badPages (s : State) (c : Nat) (x : Context) : (setContext s c x).badPages = s.badPages := rfl
@[simp] theorem setContext_portsDown (s : State) (c : Nat) (x : Context) : (setContext s c x).portsDown = s.portsDown := rfl
@[simp] theorem setContext_resends (s : State) (c : Nat) (x : Context) : (setContext s c x).resends = s.resends := rfl
@[simp] theorem setContext_sets (s : State) (c : Nat) (x : Context) : (setContext s c x).sets = s.sets := rfl
@[simp] theorem setContext_reason (s : State) (c : Nat) (x : Context) : (setContext s c x).reason = s.reason := rfl
@[simp] theorem setContext_fails (s : State) (c : Nat) (x : Context) : (setContext s c x).fails = s.fails := rfl
@[simp] theorem setContext_minimal (s : State) (c : Nat) (x : Context) : (setContext s c x).minimal = s.minimal := rfl
@[simp] theorem setContext_ready (s : State) (c : Nat) (x : Context) : (setContext s c x).ready = s.ready := rfl
@[simp] theorem setContext_power (s : State) (c : Nat) (x : Context) : (setContext s c x).power = s.power := rfl

/-! ### setQueue -/

@[simp] theorem setQueue_cur (s : State) (q : Nat) (x : Queue) : (setQueue s q x).cur = s.cur := rfl
@[simp] theorem setQueue_agenda (s : State) (q : Nat) (x : Queue) : (setQueue s q x).agenda = s.agenda := rfl
@[simp] theorem setQueue_turn (s : State) (q : Nat) (x : Queue) : (setQueue s q x).turn = s.turn := rfl
@[simp] theorem setQueue_fresh (s : State) (q : Nat) (x : Queue) : (setQueue s q x).fresh = s.fresh := rfl
@[simp] theorem setQueue_uid (s : State) (q : Nat) (x : Queue) : (setQueue s q x).uid = s.uid := rfl
@[simp] theorem setQueue_now (s : State) (q : Nat) (x : Queue) : (setQueue s q x).now = s.now := rfl
@[simp] theorem setQueue_cycles (s : State) (q : Nat) (x : Queue) : (setQueue s q x).cycles = s.cycles := rfl
@[simp] theorem setQueue_mem (s : State) (q : Nat) (x : Queue) : (setQueue s q x).mem = s.mem := rfl
@[simp] theorem setQueue_talus (s : State) (q : Nat) (x : Queue) : (setQueue s q x).talus = s.talus := rfl
@[simp] theorem setQueue_talusHist (s : State) (q : Nat) (x : Queue) : (setQueue s q x).talusHist = s.talusHist := rfl
@[simp] theorem setQueue_hist (s : State) (q : Nat) (x : Queue) : (setQueue s q x).hist = s.hist := rfl
@[simp] theorem setQueue_ctl (s : State) (q : Nat) (x : Queue) : (setQueue s q x).ctl = s.ctl := rfl
@[simp] theorem setQueue_dies (s : State) (q : Nat) (x : Queue) : (setQueue s q x).dies = s.dies := rfl
@[simp] theorem setQueue_clusters (s : State) (q : Nat) (x : Queue) : (setQueue s q x).clusters = s.clusters := rfl
@[simp] theorem setQueue_cores (s : State) (q : Nat) (x : Queue) : (setQueue s q x).cores = s.cores := rfl
@[simp] theorem setQueue_teams (s : State) (q : Nat) (x : Queue) : (setQueue s q x).teams = s.teams := rfl
@[simp] theorem setQueue_groups (s : State) (q : Nat) (x : Queue) : (setQueue s q x).groups = s.groups := rfl
@[simp] theorem setQueue_launches (s : State) (q : Nat) (x : Queue) : (setQueue s q x).launches = s.launches := rfl
@[simp] theorem setQueue_contexts (s : State) (q : Nat) (x : Queue) : (setQueue s q x).contexts = s.contexts := rfl
@[simp] theorem setQueue_queues (s : State) (q : Nat) (x : Queue) : (setQueue s q x).queues = Maps.insert q x s.queues := rfl
@[simp] theorem setQueue_recs (s : State) (q : Nat) (x : Queue) : (setQueue s q x).recs = s.recs := rfl
@[simp] theorem setQueue_stores (s : State) (q : Nat) (x : Queue) : (setQueue s q x).stores = s.stores := rfl
@[simp] theorem setQueue_rels (s : State) (q : Nat) (x : Queue) : (setQueue s q x).rels = s.rels := rfl
@[simp] theorem setQueue_arrivals (s : State) (q : Nat) (x : Queue) : (setQueue s q x).arrivals = s.arrivals := rfl
@[simp] theorem setQueue_copies (s : State) (q : Nat) (x : Queue) : (setQueue s q x).copies = s.copies := rfl
@[simp] theorem setQueue_hostLines (s : State) (q : Nat) (x : Queue) : (setQueue s q x).hostLines = s.hostLines := rfl
@[simp] theorem setQueue_hostCached (s : State) (q : Nat) (x : Queue) : (setQueue s q x).hostCached = s.hostCached := rfl
@[simp] theorem setQueue_hostData (s : State) (q : Nat) (x : Queue) : (setQueue s q x).hostData = s.hostData := rfl
@[simp] theorem setQueue_hostCt (s : State) (q : Nat) (x : Queue) : (setQueue s q x).hostCt = s.hostCt := rfl
@[simp] theorem setQueue_versions (s : State) (q : Nat) (x : Queue) : (setQueue s q x).versions = s.versions := rfl
@[simp] theorem setQueue_hlog (s : State) (q : Nat) (x : Queue) : (setQueue s q x).hlog = s.hlog := rfl
@[simp] theorem setQueue_stcms (s : State) (q : Nat) (x : Queue) : (setQueue s q x).stcms = s.stcms := rfl
@[simp] theorem setQueue_publishes (s : State) (q : Nat) (x : Queue) : (setQueue s q x).publishes = s.publishes := rfl
@[simp] theorem setQueue_swaps (s : State) (q : Nat) (x : Queue) : (setQueue s q x).swaps = s.swaps := rfl
@[simp] theorem setQueue_shadowCt (s : State) (q : Nat) (x : Queue) : (setQueue s q x).shadowCt = s.shadowCt := rfl
@[simp] theorem setQueue_migration (s : State) (q : Nat) (x : Queue) : (setQueue s q x).migration = s.migration := rfl
@[simp] theorem setQueue_sweeps (s : State) (q : Nat) (x : Queue) : (setQueue s q x).sweeps = s.sweeps := rfl
@[simp] theorem setQueue_preempts (s : State) (q : Nat) (x : Queue) : (setQueue s q x).preempts = s.preempts := rfl
@[simp] theorem setQueue_resumes (s : State) (q : Nat) (x : Queue) : (setQueue s q x).resumes = s.resumes := rfl
@[simp] theorem setQueue_badLines (s : State) (q : Nat) (x : Queue) : (setQueue s q x).badLines = s.badLines := rfl
@[simp] theorem setQueue_badPages (s : State) (q : Nat) (x : Queue) : (setQueue s q x).badPages = s.badPages := rfl
@[simp] theorem setQueue_portsDown (s : State) (q : Nat) (x : Queue) : (setQueue s q x).portsDown = s.portsDown := rfl
@[simp] theorem setQueue_resends (s : State) (q : Nat) (x : Queue) : (setQueue s q x).resends = s.resends := rfl
@[simp] theorem setQueue_sets (s : State) (q : Nat) (x : Queue) : (setQueue s q x).sets = s.sets := rfl
@[simp] theorem setQueue_reason (s : State) (q : Nat) (x : Queue) : (setQueue s q x).reason = s.reason := rfl
@[simp] theorem setQueue_fails (s : State) (q : Nat) (x : Queue) : (setQueue s q x).fails = s.fails := rfl
@[simp] theorem setQueue_minimal (s : State) (q : Nat) (x : Queue) : (setQueue s q x).minimal = s.minimal := rfl
@[simp] theorem setQueue_ready (s : State) (q : Nat) (x : Queue) : (setQueue s q x).ready = s.ready := rfl
@[simp] theorem setQueue_power (s : State) (q : Nat) (x : Queue) : (setQueue s q x).power = s.power := rfl

/-! ### setSet -/

@[simp] theorem setSet_cur (s : State) (k : Nat) (x : SetSt) : (setSet s k x).cur = s.cur := rfl
@[simp] theorem setSet_agenda (s : State) (k : Nat) (x : SetSt) : (setSet s k x).agenda = s.agenda := rfl
@[simp] theorem setSet_turn (s : State) (k : Nat) (x : SetSt) : (setSet s k x).turn = s.turn := rfl
@[simp] theorem setSet_fresh (s : State) (k : Nat) (x : SetSt) : (setSet s k x).fresh = s.fresh := rfl
@[simp] theorem setSet_uid (s : State) (k : Nat) (x : SetSt) : (setSet s k x).uid = s.uid := rfl
@[simp] theorem setSet_now (s : State) (k : Nat) (x : SetSt) : (setSet s k x).now = s.now := rfl
@[simp] theorem setSet_cycles (s : State) (k : Nat) (x : SetSt) : (setSet s k x).cycles = s.cycles := rfl
@[simp] theorem setSet_mem (s : State) (k : Nat) (x : SetSt) : (setSet s k x).mem = s.mem := rfl
@[simp] theorem setSet_talus (s : State) (k : Nat) (x : SetSt) : (setSet s k x).talus = s.talus := rfl
@[simp] theorem setSet_talusHist (s : State) (k : Nat) (x : SetSt) : (setSet s k x).talusHist = s.talusHist := rfl
@[simp] theorem setSet_hist (s : State) (k : Nat) (x : SetSt) : (setSet s k x).hist = s.hist := rfl
@[simp] theorem setSet_ctl (s : State) (k : Nat) (x : SetSt) : (setSet s k x).ctl = s.ctl := rfl
@[simp] theorem setSet_dies (s : State) (k : Nat) (x : SetSt) : (setSet s k x).dies = s.dies := rfl
@[simp] theorem setSet_clusters (s : State) (k : Nat) (x : SetSt) : (setSet s k x).clusters = s.clusters := rfl
@[simp] theorem setSet_cores (s : State) (k : Nat) (x : SetSt) : (setSet s k x).cores = s.cores := rfl
@[simp] theorem setSet_teams (s : State) (k : Nat) (x : SetSt) : (setSet s k x).teams = s.teams := rfl
@[simp] theorem setSet_groups (s : State) (k : Nat) (x : SetSt) : (setSet s k x).groups = s.groups := rfl
@[simp] theorem setSet_launches (s : State) (k : Nat) (x : SetSt) : (setSet s k x).launches = s.launches := rfl
@[simp] theorem setSet_contexts (s : State) (k : Nat) (x : SetSt) : (setSet s k x).contexts = s.contexts := rfl
@[simp] theorem setSet_queues (s : State) (k : Nat) (x : SetSt) : (setSet s k x).queues = s.queues := rfl
@[simp] theorem setSet_recs (s : State) (k : Nat) (x : SetSt) : (setSet s k x).recs = s.recs := rfl
@[simp] theorem setSet_stores (s : State) (k : Nat) (x : SetSt) : (setSet s k x).stores = s.stores := rfl
@[simp] theorem setSet_rels (s : State) (k : Nat) (x : SetSt) : (setSet s k x).rels = s.rels := rfl
@[simp] theorem setSet_arrivals (s : State) (k : Nat) (x : SetSt) : (setSet s k x).arrivals = s.arrivals := rfl
@[simp] theorem setSet_copies (s : State) (k : Nat) (x : SetSt) : (setSet s k x).copies = s.copies := rfl
@[simp] theorem setSet_hostLines (s : State) (k : Nat) (x : SetSt) : (setSet s k x).hostLines = s.hostLines := rfl
@[simp] theorem setSet_hostCached (s : State) (k : Nat) (x : SetSt) : (setSet s k x).hostCached = s.hostCached := rfl
@[simp] theorem setSet_hostData (s : State) (k : Nat) (x : SetSt) : (setSet s k x).hostData = s.hostData := rfl
@[simp] theorem setSet_hostCt (s : State) (k : Nat) (x : SetSt) : (setSet s k x).hostCt = s.hostCt := rfl
@[simp] theorem setSet_versions (s : State) (k : Nat) (x : SetSt) : (setSet s k x).versions = s.versions := rfl
@[simp] theorem setSet_hlog (s : State) (k : Nat) (x : SetSt) : (setSet s k x).hlog = s.hlog := rfl
@[simp] theorem setSet_stcms (s : State) (k : Nat) (x : SetSt) : (setSet s k x).stcms = s.stcms := rfl
@[simp] theorem setSet_publishes (s : State) (k : Nat) (x : SetSt) : (setSet s k x).publishes = s.publishes := rfl
@[simp] theorem setSet_swaps (s : State) (k : Nat) (x : SetSt) : (setSet s k x).swaps = s.swaps := rfl
@[simp] theorem setSet_shadowCt (s : State) (k : Nat) (x : SetSt) : (setSet s k x).shadowCt = s.shadowCt := rfl
@[simp] theorem setSet_migration (s : State) (k : Nat) (x : SetSt) : (setSet s k x).migration = s.migration := rfl
@[simp] theorem setSet_sweeps (s : State) (k : Nat) (x : SetSt) : (setSet s k x).sweeps = s.sweeps := rfl
@[simp] theorem setSet_preempts (s : State) (k : Nat) (x : SetSt) : (setSet s k x).preempts = s.preempts := rfl
@[simp] theorem setSet_resumes (s : State) (k : Nat) (x : SetSt) : (setSet s k x).resumes = s.resumes := rfl
@[simp] theorem setSet_badLines (s : State) (k : Nat) (x : SetSt) : (setSet s k x).badLines = s.badLines := rfl
@[simp] theorem setSet_badPages (s : State) (k : Nat) (x : SetSt) : (setSet s k x).badPages = s.badPages := rfl
@[simp] theorem setSet_portsDown (s : State) (k : Nat) (x : SetSt) : (setSet s k x).portsDown = s.portsDown := rfl
@[simp] theorem setSet_resends (s : State) (k : Nat) (x : SetSt) : (setSet s k x).resends = s.resends := rfl
@[simp] theorem setSet_sets (s : State) (k : Nat) (x : SetSt) : (setSet s k x).sets = Maps.insert k x s.sets := rfl
@[simp] theorem setSet_reason (s : State) (k : Nat) (x : SetSt) : (setSet s k x).reason = s.reason := rfl
@[simp] theorem setSet_fails (s : State) (k : Nat) (x : SetSt) : (setSet s k x).fails = s.fails := rfl
@[simp] theorem setSet_minimal (s : State) (k : Nat) (x : SetSt) : (setSet s k x).minimal = s.minimal := rfl
@[simp] theorem setSet_ready (s : State) (k : Nat) (x : SetSt) : (setSet s k x).ready = s.ready := rfl
@[simp] theorem setSet_power (s : State) (k : Nat) (x : SetSt) : (setSet s k x).power = s.power := rfl

/-! ### modTeam -/

@[simp] theorem modTeam_cur (s : State) (t : Nat) (f : Team → Team) : (modTeam s t f).cur = s.cur := rfl
@[simp] theorem modTeam_agenda (s : State) (t : Nat) (f : Team → Team) : (modTeam s t f).agenda = s.agenda := rfl
@[simp] theorem modTeam_turn (s : State) (t : Nat) (f : Team → Team) : (modTeam s t f).turn = s.turn := rfl
@[simp] theorem modTeam_fresh (s : State) (t : Nat) (f : Team → Team) : (modTeam s t f).fresh = s.fresh := rfl
@[simp] theorem modTeam_uid (s : State) (t : Nat) (f : Team → Team) : (modTeam s t f).uid = s.uid := rfl
@[simp] theorem modTeam_now (s : State) (t : Nat) (f : Team → Team) : (modTeam s t f).now = s.now := rfl
@[simp] theorem modTeam_cycles (s : State) (t : Nat) (f : Team → Team) : (modTeam s t f).cycles = s.cycles := rfl
@[simp] theorem modTeam_mem (s : State) (t : Nat) (f : Team → Team) : (modTeam s t f).mem = s.mem := rfl
@[simp] theorem modTeam_talus (s : State) (t : Nat) (f : Team → Team) : (modTeam s t f).talus = s.talus := rfl
@[simp] theorem modTeam_talusHist (s : State) (t : Nat) (f : Team → Team) : (modTeam s t f).talusHist = s.talusHist := rfl
@[simp] theorem modTeam_hist (s : State) (t : Nat) (f : Team → Team) : (modTeam s t f).hist = s.hist := rfl
@[simp] theorem modTeam_ctl (s : State) (t : Nat) (f : Team → Team) : (modTeam s t f).ctl = s.ctl := rfl
@[simp] theorem modTeam_dies (s : State) (t : Nat) (f : Team → Team) : (modTeam s t f).dies = s.dies := rfl
@[simp] theorem modTeam_clusters (s : State) (t : Nat) (f : Team → Team) : (modTeam s t f).clusters = s.clusters := rfl
@[simp] theorem modTeam_cores (s : State) (t : Nat) (f : Team → Team) : (modTeam s t f).cores = s.cores := rfl
@[simp] theorem modTeam_teams (s : State) (t : Nat) (f : Team → Team) : (modTeam s t f).teams = Maps.modify t f s.teams := rfl
@[simp] theorem modTeam_groups (s : State) (t : Nat) (f : Team → Team) : (modTeam s t f).groups = s.groups := rfl
@[simp] theorem modTeam_launches (s : State) (t : Nat) (f : Team → Team) : (modTeam s t f).launches = s.launches := rfl
@[simp] theorem modTeam_contexts (s : State) (t : Nat) (f : Team → Team) : (modTeam s t f).contexts = s.contexts := rfl
@[simp] theorem modTeam_queues (s : State) (t : Nat) (f : Team → Team) : (modTeam s t f).queues = s.queues := rfl
@[simp] theorem modTeam_recs (s : State) (t : Nat) (f : Team → Team) : (modTeam s t f).recs = s.recs := rfl
@[simp] theorem modTeam_stores (s : State) (t : Nat) (f : Team → Team) : (modTeam s t f).stores = s.stores := rfl
@[simp] theorem modTeam_rels (s : State) (t : Nat) (f : Team → Team) : (modTeam s t f).rels = s.rels := rfl
@[simp] theorem modTeam_arrivals (s : State) (t : Nat) (f : Team → Team) : (modTeam s t f).arrivals = s.arrivals := rfl
@[simp] theorem modTeam_copies (s : State) (t : Nat) (f : Team → Team) : (modTeam s t f).copies = s.copies := rfl
@[simp] theorem modTeam_hostLines (s : State) (t : Nat) (f : Team → Team) : (modTeam s t f).hostLines = s.hostLines := rfl
@[simp] theorem modTeam_hostCached (s : State) (t : Nat) (f : Team → Team) : (modTeam s t f).hostCached = s.hostCached := rfl
@[simp] theorem modTeam_hostData (s : State) (t : Nat) (f : Team → Team) : (modTeam s t f).hostData = s.hostData := rfl
@[simp] theorem modTeam_hostCt (s : State) (t : Nat) (f : Team → Team) : (modTeam s t f).hostCt = s.hostCt := rfl
@[simp] theorem modTeam_versions (s : State) (t : Nat) (f : Team → Team) : (modTeam s t f).versions = s.versions := rfl
@[simp] theorem modTeam_hlog (s : State) (t : Nat) (f : Team → Team) : (modTeam s t f).hlog = s.hlog := rfl
@[simp] theorem modTeam_stcms (s : State) (t : Nat) (f : Team → Team) : (modTeam s t f).stcms = s.stcms := rfl
@[simp] theorem modTeam_publishes (s : State) (t : Nat) (f : Team → Team) : (modTeam s t f).publishes = s.publishes := rfl
@[simp] theorem modTeam_swaps (s : State) (t : Nat) (f : Team → Team) : (modTeam s t f).swaps = s.swaps := rfl
@[simp] theorem modTeam_shadowCt (s : State) (t : Nat) (f : Team → Team) : (modTeam s t f).shadowCt = s.shadowCt := rfl
@[simp] theorem modTeam_migration (s : State) (t : Nat) (f : Team → Team) : (modTeam s t f).migration = s.migration := rfl
@[simp] theorem modTeam_sweeps (s : State) (t : Nat) (f : Team → Team) : (modTeam s t f).sweeps = s.sweeps := rfl
@[simp] theorem modTeam_preempts (s : State) (t : Nat) (f : Team → Team) : (modTeam s t f).preempts = s.preempts := rfl
@[simp] theorem modTeam_resumes (s : State) (t : Nat) (f : Team → Team) : (modTeam s t f).resumes = s.resumes := rfl
@[simp] theorem modTeam_badLines (s : State) (t : Nat) (f : Team → Team) : (modTeam s t f).badLines = s.badLines := rfl
@[simp] theorem modTeam_badPages (s : State) (t : Nat) (f : Team → Team) : (modTeam s t f).badPages = s.badPages := rfl
@[simp] theorem modTeam_portsDown (s : State) (t : Nat) (f : Team → Team) : (modTeam s t f).portsDown = s.portsDown := rfl
@[simp] theorem modTeam_resends (s : State) (t : Nat) (f : Team → Team) : (modTeam s t f).resends = s.resends := rfl
@[simp] theorem modTeam_sets (s : State) (t : Nat) (f : Team → Team) : (modTeam s t f).sets = s.sets := rfl
@[simp] theorem modTeam_reason (s : State) (t : Nat) (f : Team → Team) : (modTeam s t f).reason = s.reason := rfl
@[simp] theorem modTeam_fails (s : State) (t : Nat) (f : Team → Team) : (modTeam s t f).fails = s.fails := rfl
@[simp] theorem modTeam_minimal (s : State) (t : Nat) (f : Team → Team) : (modTeam s t f).minimal = s.minimal := rfl
@[simp] theorem modTeam_ready (s : State) (t : Nat) (f : Team → Team) : (modTeam s t f).ready = s.ready := rfl
@[simp] theorem modTeam_power (s : State) (t : Nat) (f : Team → Team) : (modTeam s t f).power = s.power := rfl

/-! ### modGroup -/

@[simp] theorem modGroup_cur (s : State) (g : Nat) (f : Group → Group) : (modGroup s g f).cur = s.cur := rfl
@[simp] theorem modGroup_agenda (s : State) (g : Nat) (f : Group → Group) : (modGroup s g f).agenda = s.agenda := rfl
@[simp] theorem modGroup_turn (s : State) (g : Nat) (f : Group → Group) : (modGroup s g f).turn = s.turn := rfl
@[simp] theorem modGroup_fresh (s : State) (g : Nat) (f : Group → Group) : (modGroup s g f).fresh = s.fresh := rfl
@[simp] theorem modGroup_uid (s : State) (g : Nat) (f : Group → Group) : (modGroup s g f).uid = s.uid := rfl
@[simp] theorem modGroup_now (s : State) (g : Nat) (f : Group → Group) : (modGroup s g f).now = s.now := rfl
@[simp] theorem modGroup_cycles (s : State) (g : Nat) (f : Group → Group) : (modGroup s g f).cycles = s.cycles := rfl
@[simp] theorem modGroup_mem (s : State) (g : Nat) (f : Group → Group) : (modGroup s g f).mem = s.mem := rfl
@[simp] theorem modGroup_talus (s : State) (g : Nat) (f : Group → Group) : (modGroup s g f).talus = s.talus := rfl
@[simp] theorem modGroup_talusHist (s : State) (g : Nat) (f : Group → Group) : (modGroup s g f).talusHist = s.talusHist := rfl
@[simp] theorem modGroup_hist (s : State) (g : Nat) (f : Group → Group) : (modGroup s g f).hist = s.hist := rfl
@[simp] theorem modGroup_ctl (s : State) (g : Nat) (f : Group → Group) : (modGroup s g f).ctl = s.ctl := rfl
@[simp] theorem modGroup_dies (s : State) (g : Nat) (f : Group → Group) : (modGroup s g f).dies = s.dies := rfl
@[simp] theorem modGroup_clusters (s : State) (g : Nat) (f : Group → Group) : (modGroup s g f).clusters = s.clusters := rfl
@[simp] theorem modGroup_cores (s : State) (g : Nat) (f : Group → Group) : (modGroup s g f).cores = s.cores := rfl
@[simp] theorem modGroup_teams (s : State) (g : Nat) (f : Group → Group) : (modGroup s g f).teams = s.teams := rfl
@[simp] theorem modGroup_groups (s : State) (g : Nat) (f : Group → Group) : (modGroup s g f).groups = Maps.modify g f s.groups := rfl
@[simp] theorem modGroup_launches (s : State) (g : Nat) (f : Group → Group) : (modGroup s g f).launches = s.launches := rfl
@[simp] theorem modGroup_contexts (s : State) (g : Nat) (f : Group → Group) : (modGroup s g f).contexts = s.contexts := rfl
@[simp] theorem modGroup_queues (s : State) (g : Nat) (f : Group → Group) : (modGroup s g f).queues = s.queues := rfl
@[simp] theorem modGroup_recs (s : State) (g : Nat) (f : Group → Group) : (modGroup s g f).recs = s.recs := rfl
@[simp] theorem modGroup_stores (s : State) (g : Nat) (f : Group → Group) : (modGroup s g f).stores = s.stores := rfl
@[simp] theorem modGroup_rels (s : State) (g : Nat) (f : Group → Group) : (modGroup s g f).rels = s.rels := rfl
@[simp] theorem modGroup_arrivals (s : State) (g : Nat) (f : Group → Group) : (modGroup s g f).arrivals = s.arrivals := rfl
@[simp] theorem modGroup_copies (s : State) (g : Nat) (f : Group → Group) : (modGroup s g f).copies = s.copies := rfl
@[simp] theorem modGroup_hostLines (s : State) (g : Nat) (f : Group → Group) : (modGroup s g f).hostLines = s.hostLines := rfl
@[simp] theorem modGroup_hostCached (s : State) (g : Nat) (f : Group → Group) : (modGroup s g f).hostCached = s.hostCached := rfl
@[simp] theorem modGroup_hostData (s : State) (g : Nat) (f : Group → Group) : (modGroup s g f).hostData = s.hostData := rfl
@[simp] theorem modGroup_hostCt (s : State) (g : Nat) (f : Group → Group) : (modGroup s g f).hostCt = s.hostCt := rfl
@[simp] theorem modGroup_versions (s : State) (g : Nat) (f : Group → Group) : (modGroup s g f).versions = s.versions := rfl
@[simp] theorem modGroup_hlog (s : State) (g : Nat) (f : Group → Group) : (modGroup s g f).hlog = s.hlog := rfl
@[simp] theorem modGroup_stcms (s : State) (g : Nat) (f : Group → Group) : (modGroup s g f).stcms = s.stcms := rfl
@[simp] theorem modGroup_publishes (s : State) (g : Nat) (f : Group → Group) : (modGroup s g f).publishes = s.publishes := rfl
@[simp] theorem modGroup_swaps (s : State) (g : Nat) (f : Group → Group) : (modGroup s g f).swaps = s.swaps := rfl
@[simp] theorem modGroup_shadowCt (s : State) (g : Nat) (f : Group → Group) : (modGroup s g f).shadowCt = s.shadowCt := rfl
@[simp] theorem modGroup_migration (s : State) (g : Nat) (f : Group → Group) : (modGroup s g f).migration = s.migration := rfl
@[simp] theorem modGroup_sweeps (s : State) (g : Nat) (f : Group → Group) : (modGroup s g f).sweeps = s.sweeps := rfl
@[simp] theorem modGroup_preempts (s : State) (g : Nat) (f : Group → Group) : (modGroup s g f).preempts = s.preempts := rfl
@[simp] theorem modGroup_resumes (s : State) (g : Nat) (f : Group → Group) : (modGroup s g f).resumes = s.resumes := rfl
@[simp] theorem modGroup_badLines (s : State) (g : Nat) (f : Group → Group) : (modGroup s g f).badLines = s.badLines := rfl
@[simp] theorem modGroup_badPages (s : State) (g : Nat) (f : Group → Group) : (modGroup s g f).badPages = s.badPages := rfl
@[simp] theorem modGroup_portsDown (s : State) (g : Nat) (f : Group → Group) : (modGroup s g f).portsDown = s.portsDown := rfl
@[simp] theorem modGroup_resends (s : State) (g : Nat) (f : Group → Group) : (modGroup s g f).resends = s.resends := rfl
@[simp] theorem modGroup_sets (s : State) (g : Nat) (f : Group → Group) : (modGroup s g f).sets = s.sets := rfl
@[simp] theorem modGroup_reason (s : State) (g : Nat) (f : Group → Group) : (modGroup s g f).reason = s.reason := rfl
@[simp] theorem modGroup_fails (s : State) (g : Nat) (f : Group → Group) : (modGroup s g f).fails = s.fails := rfl
@[simp] theorem modGroup_minimal (s : State) (g : Nat) (f : Group → Group) : (modGroup s g f).minimal = s.minimal := rfl
@[simp] theorem modGroup_ready (s : State) (g : Nat) (f : Group → Group) : (modGroup s g f).ready = s.ready := rfl
@[simp] theorem modGroup_power (s : State) (g : Nat) (f : Group → Group) : (modGroup s g f).power = s.power := rfl

/-! ### modLaunch -/

@[simp] theorem modLaunch_cur (s : State) (l : Nat) (f : Launch → Launch) : (modLaunch s l f).cur = s.cur := rfl
@[simp] theorem modLaunch_agenda (s : State) (l : Nat) (f : Launch → Launch) : (modLaunch s l f).agenda = s.agenda := rfl
@[simp] theorem modLaunch_turn (s : State) (l : Nat) (f : Launch → Launch) : (modLaunch s l f).turn = s.turn := rfl
@[simp] theorem modLaunch_fresh (s : State) (l : Nat) (f : Launch → Launch) : (modLaunch s l f).fresh = s.fresh := rfl
@[simp] theorem modLaunch_uid (s : State) (l : Nat) (f : Launch → Launch) : (modLaunch s l f).uid = s.uid := rfl
@[simp] theorem modLaunch_now (s : State) (l : Nat) (f : Launch → Launch) : (modLaunch s l f).now = s.now := rfl
@[simp] theorem modLaunch_cycles (s : State) (l : Nat) (f : Launch → Launch) : (modLaunch s l f).cycles = s.cycles := rfl
@[simp] theorem modLaunch_mem (s : State) (l : Nat) (f : Launch → Launch) : (modLaunch s l f).mem = s.mem := rfl
@[simp] theorem modLaunch_talus (s : State) (l : Nat) (f : Launch → Launch) : (modLaunch s l f).talus = s.talus := rfl
@[simp] theorem modLaunch_talusHist (s : State) (l : Nat) (f : Launch → Launch) : (modLaunch s l f).talusHist = s.talusHist := rfl
@[simp] theorem modLaunch_hist (s : State) (l : Nat) (f : Launch → Launch) : (modLaunch s l f).hist = s.hist := rfl
@[simp] theorem modLaunch_ctl (s : State) (l : Nat) (f : Launch → Launch) : (modLaunch s l f).ctl = s.ctl := rfl
@[simp] theorem modLaunch_dies (s : State) (l : Nat) (f : Launch → Launch) : (modLaunch s l f).dies = s.dies := rfl
@[simp] theorem modLaunch_clusters (s : State) (l : Nat) (f : Launch → Launch) : (modLaunch s l f).clusters = s.clusters := rfl
@[simp] theorem modLaunch_cores (s : State) (l : Nat) (f : Launch → Launch) : (modLaunch s l f).cores = s.cores := rfl
@[simp] theorem modLaunch_teams (s : State) (l : Nat) (f : Launch → Launch) : (modLaunch s l f).teams = s.teams := rfl
@[simp] theorem modLaunch_groups (s : State) (l : Nat) (f : Launch → Launch) : (modLaunch s l f).groups = s.groups := rfl
@[simp] theorem modLaunch_launches (s : State) (l : Nat) (f : Launch → Launch) : (modLaunch s l f).launches = Maps.modify l f s.launches := rfl
@[simp] theorem modLaunch_contexts (s : State) (l : Nat) (f : Launch → Launch) : (modLaunch s l f).contexts = s.contexts := rfl
@[simp] theorem modLaunch_queues (s : State) (l : Nat) (f : Launch → Launch) : (modLaunch s l f).queues = s.queues := rfl
@[simp] theorem modLaunch_recs (s : State) (l : Nat) (f : Launch → Launch) : (modLaunch s l f).recs = s.recs := rfl
@[simp] theorem modLaunch_stores (s : State) (l : Nat) (f : Launch → Launch) : (modLaunch s l f).stores = s.stores := rfl
@[simp] theorem modLaunch_rels (s : State) (l : Nat) (f : Launch → Launch) : (modLaunch s l f).rels = s.rels := rfl
@[simp] theorem modLaunch_arrivals (s : State) (l : Nat) (f : Launch → Launch) : (modLaunch s l f).arrivals = s.arrivals := rfl
@[simp] theorem modLaunch_copies (s : State) (l : Nat) (f : Launch → Launch) : (modLaunch s l f).copies = s.copies := rfl
@[simp] theorem modLaunch_hostLines (s : State) (l : Nat) (f : Launch → Launch) : (modLaunch s l f).hostLines = s.hostLines := rfl
@[simp] theorem modLaunch_hostCached (s : State) (l : Nat) (f : Launch → Launch) : (modLaunch s l f).hostCached = s.hostCached := rfl
@[simp] theorem modLaunch_hostData (s : State) (l : Nat) (f : Launch → Launch) : (modLaunch s l f).hostData = s.hostData := rfl
@[simp] theorem modLaunch_hostCt (s : State) (l : Nat) (f : Launch → Launch) : (modLaunch s l f).hostCt = s.hostCt := rfl
@[simp] theorem modLaunch_versions (s : State) (l : Nat) (f : Launch → Launch) : (modLaunch s l f).versions = s.versions := rfl
@[simp] theorem modLaunch_hlog (s : State) (l : Nat) (f : Launch → Launch) : (modLaunch s l f).hlog = s.hlog := rfl
@[simp] theorem modLaunch_stcms (s : State) (l : Nat) (f : Launch → Launch) : (modLaunch s l f).stcms = s.stcms := rfl
@[simp] theorem modLaunch_publishes (s : State) (l : Nat) (f : Launch → Launch) : (modLaunch s l f).publishes = s.publishes := rfl
@[simp] theorem modLaunch_swaps (s : State) (l : Nat) (f : Launch → Launch) : (modLaunch s l f).swaps = s.swaps := rfl
@[simp] theorem modLaunch_shadowCt (s : State) (l : Nat) (f : Launch → Launch) : (modLaunch s l f).shadowCt = s.shadowCt := rfl
@[simp] theorem modLaunch_migration (s : State) (l : Nat) (f : Launch → Launch) : (modLaunch s l f).migration = s.migration := rfl
@[simp] theorem modLaunch_sweeps (s : State) (l : Nat) (f : Launch → Launch) : (modLaunch s l f).sweeps = s.sweeps := rfl
@[simp] theorem modLaunch_preempts (s : State) (l : Nat) (f : Launch → Launch) : (modLaunch s l f).preempts = s.preempts := rfl
@[simp] theorem modLaunch_resumes (s : State) (l : Nat) (f : Launch → Launch) : (modLaunch s l f).resumes = s.resumes := rfl
@[simp] theorem modLaunch_badLines (s : State) (l : Nat) (f : Launch → Launch) : (modLaunch s l f).badLines = s.badLines := rfl
@[simp] theorem modLaunch_badPages (s : State) (l : Nat) (f : Launch → Launch) : (modLaunch s l f).badPages = s.badPages := rfl
@[simp] theorem modLaunch_portsDown (s : State) (l : Nat) (f : Launch → Launch) : (modLaunch s l f).portsDown = s.portsDown := rfl
@[simp] theorem modLaunch_resends (s : State) (l : Nat) (f : Launch → Launch) : (modLaunch s l f).resends = s.resends := rfl
@[simp] theorem modLaunch_sets (s : State) (l : Nat) (f : Launch → Launch) : (modLaunch s l f).sets = s.sets := rfl
@[simp] theorem modLaunch_reason (s : State) (l : Nat) (f : Launch → Launch) : (modLaunch s l f).reason = s.reason := rfl
@[simp] theorem modLaunch_fails (s : State) (l : Nat) (f : Launch → Launch) : (modLaunch s l f).fails = s.fails := rfl
@[simp] theorem modLaunch_minimal (s : State) (l : Nat) (f : Launch → Launch) : (modLaunch s l f).minimal = s.minimal := rfl
@[simp] theorem modLaunch_ready (s : State) (l : Nat) (f : Launch → Launch) : (modLaunch s l f).ready = s.ready := rfl
@[simp] theorem modLaunch_power (s : State) (l : Nat) (f : Launch → Launch) : (modLaunch s l f).power = s.power := rfl

/-! ### setCtl -/

@[simp] theorem setCtl_cur (s : State) (off v : Nat) : (setCtl s off v).cur = s.cur := rfl
@[simp] theorem setCtl_agenda (s : State) (off v : Nat) : (setCtl s off v).agenda = s.agenda := rfl
@[simp] theorem setCtl_turn (s : State) (off v : Nat) : (setCtl s off v).turn = s.turn := rfl
@[simp] theorem setCtl_fresh (s : State) (off v : Nat) : (setCtl s off v).fresh = s.fresh := rfl
@[simp] theorem setCtl_uid (s : State) (off v : Nat) : (setCtl s off v).uid = s.uid := rfl
@[simp] theorem setCtl_now (s : State) (off v : Nat) : (setCtl s off v).now = s.now := rfl
@[simp] theorem setCtl_cycles (s : State) (off v : Nat) : (setCtl s off v).cycles = s.cycles := rfl
@[simp] theorem setCtl_mem (s : State) (off v : Nat) : (setCtl s off v).mem = s.mem := rfl
@[simp] theorem setCtl_talus (s : State) (off v : Nat) : (setCtl s off v).talus = s.talus := rfl
@[simp] theorem setCtl_talusHist (s : State) (off v : Nat) : (setCtl s off v).talusHist = s.talusHist := rfl
@[simp] theorem setCtl_hist (s : State) (off v : Nat) : (setCtl s off v).hist = s.hist := rfl
@[simp] theorem setCtl_ctl (s : State) (off v : Nat) : (setCtl s off v).ctl = Maps.set (State.ctlReset off) off v s.ctl := rfl
@[simp] theorem setCtl_dies (s : State) (off v : Nat) : (setCtl s off v).dies = s.dies := rfl
@[simp] theorem setCtl_clusters (s : State) (off v : Nat) : (setCtl s off v).clusters = s.clusters := rfl
@[simp] theorem setCtl_cores (s : State) (off v : Nat) : (setCtl s off v).cores = s.cores := rfl
@[simp] theorem setCtl_teams (s : State) (off v : Nat) : (setCtl s off v).teams = s.teams := rfl
@[simp] theorem setCtl_groups (s : State) (off v : Nat) : (setCtl s off v).groups = s.groups := rfl
@[simp] theorem setCtl_launches (s : State) (off v : Nat) : (setCtl s off v).launches = s.launches := rfl
@[simp] theorem setCtl_contexts (s : State) (off v : Nat) : (setCtl s off v).contexts = s.contexts := rfl
@[simp] theorem setCtl_queues (s : State) (off v : Nat) : (setCtl s off v).queues = s.queues := rfl
@[simp] theorem setCtl_recs (s : State) (off v : Nat) : (setCtl s off v).recs = s.recs := rfl
@[simp] theorem setCtl_stores (s : State) (off v : Nat) : (setCtl s off v).stores = s.stores := rfl
@[simp] theorem setCtl_rels (s : State) (off v : Nat) : (setCtl s off v).rels = s.rels := rfl
@[simp] theorem setCtl_arrivals (s : State) (off v : Nat) : (setCtl s off v).arrivals = s.arrivals := rfl
@[simp] theorem setCtl_copies (s : State) (off v : Nat) : (setCtl s off v).copies = s.copies := rfl
@[simp] theorem setCtl_hostLines (s : State) (off v : Nat) : (setCtl s off v).hostLines = s.hostLines := rfl
@[simp] theorem setCtl_hostCached (s : State) (off v : Nat) : (setCtl s off v).hostCached = s.hostCached := rfl
@[simp] theorem setCtl_hostData (s : State) (off v : Nat) : (setCtl s off v).hostData = s.hostData := rfl
@[simp] theorem setCtl_hostCt (s : State) (off v : Nat) : (setCtl s off v).hostCt = s.hostCt := rfl
@[simp] theorem setCtl_versions (s : State) (off v : Nat) : (setCtl s off v).versions = s.versions := rfl
@[simp] theorem setCtl_hlog (s : State) (off v : Nat) : (setCtl s off v).hlog = s.hlog := rfl
@[simp] theorem setCtl_stcms (s : State) (off v : Nat) : (setCtl s off v).stcms = s.stcms := rfl
@[simp] theorem setCtl_publishes (s : State) (off v : Nat) : (setCtl s off v).publishes = s.publishes := rfl
@[simp] theorem setCtl_swaps (s : State) (off v : Nat) : (setCtl s off v).swaps = s.swaps := rfl
@[simp] theorem setCtl_shadowCt (s : State) (off v : Nat) : (setCtl s off v).shadowCt = s.shadowCt := rfl
@[simp] theorem setCtl_migration (s : State) (off v : Nat) : (setCtl s off v).migration = s.migration := rfl
@[simp] theorem setCtl_sweeps (s : State) (off v : Nat) : (setCtl s off v).sweeps = s.sweeps := rfl
@[simp] theorem setCtl_preempts (s : State) (off v : Nat) : (setCtl s off v).preempts = s.preempts := rfl
@[simp] theorem setCtl_resumes (s : State) (off v : Nat) : (setCtl s off v).resumes = s.resumes := rfl
@[simp] theorem setCtl_badLines (s : State) (off v : Nat) : (setCtl s off v).badLines = s.badLines := rfl
@[simp] theorem setCtl_badPages (s : State) (off v : Nat) : (setCtl s off v).badPages = s.badPages := rfl
@[simp] theorem setCtl_portsDown (s : State) (off v : Nat) : (setCtl s off v).portsDown = s.portsDown := rfl
@[simp] theorem setCtl_resends (s : State) (off v : Nat) : (setCtl s off v).resends = s.resends := rfl
@[simp] theorem setCtl_sets (s : State) (off v : Nat) : (setCtl s off v).sets = s.sets := rfl
@[simp] theorem setCtl_reason (s : State) (off v : Nat) : (setCtl s off v).reason = s.reason := rfl
@[simp] theorem setCtl_fails (s : State) (off v : Nat) : (setCtl s off v).fails = s.fails := rfl
@[simp] theorem setCtl_minimal (s : State) (off v : Nat) : (setCtl s off v).minimal = s.minimal := rfl
@[simp] theorem setCtl_ready (s : State) (off v : Nat) : (setCtl s off v).ready = s.ready := rfl
@[simp] theorem setCtl_power (s : State) (off v : Nat) : (setCtl s off v).power = s.power := rfl

/-! ### writeBytes -/

@[simp] theorem writeBytes_cur (s : State) (a : Nat) (bs : List Byte) : (writeBytes s a bs).cur = s.cur := rfl
@[simp] theorem writeBytes_agenda (s : State) (a : Nat) (bs : List Byte) : (writeBytes s a bs).agenda = s.agenda := rfl
@[simp] theorem writeBytes_turn (s : State) (a : Nat) (bs : List Byte) : (writeBytes s a bs).turn = s.turn := rfl
@[simp] theorem writeBytes_fresh (s : State) (a : Nat) (bs : List Byte) : (writeBytes s a bs).fresh = s.fresh := rfl
@[simp] theorem writeBytes_uid (s : State) (a : Nat) (bs : List Byte) : (writeBytes s a bs).uid = s.uid := rfl
@[simp] theorem writeBytes_now (s : State) (a : Nat) (bs : List Byte) : (writeBytes s a bs).now = s.now := rfl
@[simp] theorem writeBytes_cycles (s : State) (a : Nat) (bs : List Byte) : (writeBytes s a bs).cycles = s.cycles := rfl
@[simp] theorem writeBytes_mem (s : State) (a : Nat) (bs : List Byte) : (writeBytes s a bs).mem = Maps.putAll 0 a bs s.mem := rfl
@[simp] theorem writeBytes_talus (s : State) (a : Nat) (bs : List Byte) : (writeBytes s a bs).talus = s.talus := rfl
@[simp] theorem writeBytes_talusHist (s : State) (a : Nat) (bs : List Byte) : (writeBytes s a bs).talusHist = s.talusHist := rfl
@[simp] theorem writeBytes_hist (s : State) (a : Nat) (bs : List Byte) : (writeBytes s a bs).hist = noteOld s a bs := rfl
@[simp] theorem writeBytes_ctl (s : State) (a : Nat) (bs : List Byte) : (writeBytes s a bs).ctl = s.ctl := rfl
@[simp] theorem writeBytes_dies (s : State) (a : Nat) (bs : List Byte) : (writeBytes s a bs).dies = s.dies := rfl
@[simp] theorem writeBytes_clusters (s : State) (a : Nat) (bs : List Byte) : (writeBytes s a bs).clusters = s.clusters := rfl
@[simp] theorem writeBytes_cores (s : State) (a : Nat) (bs : List Byte) : (writeBytes s a bs).cores = s.cores := rfl
@[simp] theorem writeBytes_teams (s : State) (a : Nat) (bs : List Byte) : (writeBytes s a bs).teams = s.teams := rfl
@[simp] theorem writeBytes_groups (s : State) (a : Nat) (bs : List Byte) : (writeBytes s a bs).groups = s.groups := rfl
@[simp] theorem writeBytes_launches (s : State) (a : Nat) (bs : List Byte) : (writeBytes s a bs).launches = s.launches := rfl
@[simp] theorem writeBytes_contexts (s : State) (a : Nat) (bs : List Byte) : (writeBytes s a bs).contexts = s.contexts := rfl
@[simp] theorem writeBytes_queues (s : State) (a : Nat) (bs : List Byte) : (writeBytes s a bs).queues = s.queues := rfl
@[simp] theorem writeBytes_recs (s : State) (a : Nat) (bs : List Byte) : (writeBytes s a bs).recs = s.recs := rfl
@[simp] theorem writeBytes_stores (s : State) (a : Nat) (bs : List Byte) : (writeBytes s a bs).stores = s.stores := rfl
@[simp] theorem writeBytes_rels (s : State) (a : Nat) (bs : List Byte) : (writeBytes s a bs).rels = s.rels := rfl
@[simp] theorem writeBytes_arrivals (s : State) (a : Nat) (bs : List Byte) : (writeBytes s a bs).arrivals = s.arrivals := rfl
@[simp] theorem writeBytes_copies (s : State) (a : Nat) (bs : List Byte) : (writeBytes s a bs).copies = s.copies := rfl
@[simp] theorem writeBytes_hostLines (s : State) (a : Nat) (bs : List Byte) : (writeBytes s a bs).hostLines = s.hostLines := rfl
@[simp] theorem writeBytes_hostCached (s : State) (a : Nat) (bs : List Byte) : (writeBytes s a bs).hostCached = s.hostCached := rfl
@[simp] theorem writeBytes_hostData (s : State) (a : Nat) (bs : List Byte) : (writeBytes s a bs).hostData = s.hostData := rfl
@[simp] theorem writeBytes_hostCt (s : State) (a : Nat) (bs : List Byte) : (writeBytes s a bs).hostCt = s.hostCt := rfl
@[simp] theorem writeBytes_versions (s : State) (a : Nat) (bs : List Byte) : (writeBytes s a bs).versions = s.versions := rfl
@[simp] theorem writeBytes_hlog (s : State) (a : Nat) (bs : List Byte) : (writeBytes s a bs).hlog = s.hlog := rfl
@[simp] theorem writeBytes_stcms (s : State) (a : Nat) (bs : List Byte) : (writeBytes s a bs).stcms = s.stcms := rfl
@[simp] theorem writeBytes_publishes (s : State) (a : Nat) (bs : List Byte) : (writeBytes s a bs).publishes = s.publishes := rfl
@[simp] theorem writeBytes_swaps (s : State) (a : Nat) (bs : List Byte) : (writeBytes s a bs).swaps = s.swaps := rfl
@[simp] theorem writeBytes_shadowCt (s : State) (a : Nat) (bs : List Byte) : (writeBytes s a bs).shadowCt = s.shadowCt := rfl
@[simp] theorem writeBytes_migration (s : State) (a : Nat) (bs : List Byte) : (writeBytes s a bs).migration = s.migration := rfl
@[simp] theorem writeBytes_sweeps (s : State) (a : Nat) (bs : List Byte) : (writeBytes s a bs).sweeps = s.sweeps := rfl
@[simp] theorem writeBytes_preempts (s : State) (a : Nat) (bs : List Byte) : (writeBytes s a bs).preempts = s.preempts := rfl
@[simp] theorem writeBytes_resumes (s : State) (a : Nat) (bs : List Byte) : (writeBytes s a bs).resumes = s.resumes := rfl
@[simp] theorem writeBytes_badLines (s : State) (a : Nat) (bs : List Byte) : (writeBytes s a bs).badLines = s.badLines := rfl
@[simp] theorem writeBytes_badPages (s : State) (a : Nat) (bs : List Byte) : (writeBytes s a bs).badPages = s.badPages := rfl
@[simp] theorem writeBytes_portsDown (s : State) (a : Nat) (bs : List Byte) : (writeBytes s a bs).portsDown = s.portsDown := rfl
@[simp] theorem writeBytes_resends (s : State) (a : Nat) (bs : List Byte) : (writeBytes s a bs).resends = s.resends := rfl
@[simp] theorem writeBytes_sets (s : State) (a : Nat) (bs : List Byte) : (writeBytes s a bs).sets = s.sets := rfl
@[simp] theorem writeBytes_reason (s : State) (a : Nat) (bs : List Byte) : (writeBytes s a bs).reason = s.reason := rfl
@[simp] theorem writeBytes_fails (s : State) (a : Nat) (bs : List Byte) : (writeBytes s a bs).fails = s.fails := rfl
@[simp] theorem writeBytes_minimal (s : State) (a : Nat) (bs : List Byte) : (writeBytes s a bs).minimal = s.minimal := rfl
@[simp] theorem writeBytes_ready (s : State) (a : Nat) (bs : List Byte) : (writeBytes s a bs).ready = s.ready := rfl
@[simp] theorem writeBytes_power (s : State) (a : Nat) (bs : List Byte) : (writeBytes s a bs).power = s.power := rfl

end Sys2Proof.Machine.Ops
end

