-- ==== Sys2Proof/Laws/Memory.lean ====
section
/-! SUPPORT. Laws of physical memory: what a read finds after a write, and that every operation that changes memory keeps
its canonical form. -/

namespace Sys2Proof

/-! ### Byte order -/

namespace Bits

@[simp] theorem toBytes_length (n v : Nat) : (toBytes n v).length = n := by
  induction n generalizing v with
  | zero => rfl
  | succ n ih => simp [toBytes, ih]

theorem ofBytes_toBytes (n v : Nat) : ofBytes (toBytes n v) = v % 2 ^ (8 * n) := by
  induction n generalizing v with
  | zero => simp [toBytes, ofBytes, Nat.mod_one]
  | succ n ih =>
    simp only [toBytes, ofBytes, ih, BitVec.toNat_ofNat, Nat.shiftRight_eq_div_pow]
    rw [show 2 ^ (8 * (n + 1)) = 2 ^ 8 * 2 ^ (8 * n) from by rw [← Nat.pow_add]; congr 1; omega, Nat.mod_mul]
    norm_num

theorem toBytes_getD (n v i : Nat) (h : i < n) : (toBytes n v).getD i 0 = BitVec.ofNat 8 (v >>> (8 * i)) := by
  induction n generalizing v i with
  | zero => omega
  | succ n ih =>
    cases i with
    | zero => simp [toBytes]
    | succ i =>
      simp only [toBytes, List.getD_cons_succ]
      rw [ih _ _ (by omega), ← Nat.shiftRight_add, show 8 + 8 * i = 8 * (i + 1) from by omega]

end Bits

namespace Machine

open Sys2Proof.Bits

namespace Ops

/-! ### Reads after writes -/

/-- What a byte reads after a write: the written byte inside the range, its old value outside. -/
theorem readByte_writeBytes {s : State} (h : Memory.wf s.mem = true) (a : Nat) (bs : List Byte) (x : Nat) :
    readByte (writeBytes s a bs) x = if a ≤ x ∧ x < a + bs.length then bs.getD (x - a) 0 else readByte s x := by
  simp only [Memory.wf, Maps.canonical, Bool.and_eq_true] at h
  exact Maps.get_putAll h.1

/-- A range of bytes, byte by byte. -/
theorem readBytes_eq {s : State} (h : Memory.wf s.mem = true) (a n : Nat) :
    readBytes s a n = (List.range n).map (fun i => readByte s (a + i)) := by
  simp only [Memory.wf, Maps.canonical, Bool.and_eq_true] at h
  exact Maps.slice_eq h.1

theorem readBytes_writeBytes {s : State} (h : Memory.wf s.mem = true) (a : Nat) (bs : List Byte) :
    readBytes (writeBytes s a bs) a bs.length = bs := by
  have h2 : Memory.wf (writeBytes s a bs).mem = true := Maps.putAll_canonical h
  rw [readBytes_eq h2]
  apply List.ext_getElem
  · simp
  · intro i h3 h4
    simp only [List.getElem_map, List.getElem_range]
    rw [readByte_writeBytes h, if_pos ⟨by omega, by omega⟩]
    simp [h4]

theorem readNat_writeNat {s : State} (h : Memory.wf s.mem = true) (a n v : Nat) :
    readNat (writeNat s a n v) a n = v % 2 ^ (8 * n) := by
  have := readBytes_writeBytes h a (toBytes n v)
  rw [toBytes_length] at this
  simp only [readNat, writeNat]
  rw [this, ofBytes_toBytes]

/-! ### The canonical form -/

theorem wf_reset : Memory.wf State.reset.mem = true := rfl

theorem wf_writeBytes {s : State} (h : Memory.wf s.mem = true) (a : Nat) (bs : List Byte) :
    Memory.wf (writeBytes s a bs).mem = true := Maps.putAll_canonical h

theorem wf_writeNat {s : State} (h : Memory.wf s.mem = true) (a n v : Nat) : Memory.wf (writeNat s a n v).mem = true :=
  wf_writeBytes h a _

@[simp] theorem backInvalidateSpan_mem (s : State) (pa n : Nat) : (backInvalidateSpan s pa n).mem = s.mem := rfl

/-- A migration's copy keeps the form (11 R226). -/
theorem wf_copyRange {s : State} (h : Memory.wf s.mem = true) (src dst len : Nat) : Memory.wf (copyRange s src dst len).mem = true :=
  Maps.foldl_canonical (fun _ _ hm => Maps.set_canonical hm) _ (Maps.filter_canonical _ h)

/-- So does the end of stamps (24 R422). -/
theorem wf_dropStamps {s : State} (h : Memory.wf s.mem = true) : Memory.wf (dropStamps s).mem = true := by
  unfold dropStamps
  generalize s.versions = vs
  induction vs generalizing s with
  | nil => exact h
  | cons e vs ih =>
    refine ih ?_
    dsimp only
    split
    · exact h
    · split
      · exact h
      · exact wf_writeBytes h _ _

/-- So does a change of the memory map (26 R437). -/
theorem wf_remap {s : State} (h : Memory.wf s.mem = true) (r e : Nat) : Memory.wf (remap s r e).mem = true := by
  refine Maps.foldl_canonical (fun m c hm => ?_) _ (Maps.filter_canonical _ (wf_dropStamps h))
  split
  · exact Maps.set_canonical hm
  · exact hm

/-! ### The version that every agent sees (24 R424) -/

/-- With nothing stamped, what an agent sees is memory. -/
theorem seenBytes_unstamped {s : State} (h : s.versions = []) (pa n : Nat) : seenBytes s pa n = readBytes s pa n := by
  simp [seenBytes, h]

/-- A line that has no versions is seen as memory has it. -/
theorem seenLine_unstamped {s : State} {line : Nat} (h : Maps.find? line s.versions = none) : seenLine s line = readBytes s (line * 128) 128 := by
  simp [seenLine, h]

/-! ### Switching (21 R406) -/

/-- A state that differs in the teams' stops, the requests and the registers of the control region alone. -/
def SwitchOnly (s t : State) : Prop :=
  (∃ ts c p r, t = { s with teams := ts, ctl := c, preempts := p, resumes := r }) ∧
  ∀ e ∈ s.teams, ∃ m ∈ t.teams, m.1 = e.1 ∧ { m.2 with stopping := e.2.stopping } = e.2

theorem SwitchOnly.refl (s : State) : SwitchOnly s s := ⟨⟨_, _, _, _, rfl⟩, fun e he => ⟨e, he, rfl, rfl⟩⟩

theorem SwitchOnly.trans {s t u : State} (h : SwitchOnly s t) (k : SwitchOnly t u) : SwitchOnly s u := by
  obtain ⟨⟨_, _, _, _, rfl⟩, h2⟩ := h
  obtain ⟨⟨_, _, _, _, rfl⟩, k2⟩ := k
  refine ⟨⟨_, _, _, _, rfl⟩, fun e he => ?_⟩
  obtain ⟨m, hm, h3, h4⟩ := h2 e he
  obtain ⟨x, hx, k3, k4⟩ := k2 m hm
  exact ⟨x, hx, k3.trans h3, by rw [← h4, ← k4]⟩

theorem switchOnly_stopTeams (s : State) (ctx : Nat) : SwitchOnly s (stopTeams s ctx) := by
  refine ⟨⟨_, _, _, _, rfl⟩, fun e he => ?_⟩
  refine ⟨_, List.mem_map_of_mem he, ?_⟩
  dsimp only
  split <;> exact ⟨rfl, rfl⟩

theorem switchOnly_preempts (s : State) (p : List Nat) : SwitchOnly s { s with preempts := p } :=
  ⟨⟨_, _, _, _, rfl⟩, fun e he => ⟨e, he, rfl, rfl⟩⟩

theorem switchOnly_resumes (s : State) (r : List Nat) : SwitchOnly s { s with resumes := r } :=
  ⟨⟨_, _, _, _, rfl⟩, fun e he => ⟨e, he, rfl, rfl⟩⟩

theorem switchOnly_setCtl (s : State) (a v : Nat) : SwitchOnly s (setCtl s a v) :=
  ⟨⟨_, _, _, _, rfl⟩, fun e he => ⟨e, he, rfl, rfl⟩⟩

theorem switchOnly_settlePreempts (n : Nat) (s : State) : SwitchOnly s (settlePreempts n s) := by
  induction n generalizing s with
  | zero => exact .refl s
  | succ n ih =>
    unfold settlePreempts
    split
    · exact .refl s
    · split
      · exact .refl s
      · dsimp only
        split
        · exact (switchOnly_preempts s _).trans (switchOnly_setCtl _ _ _)
        · exact ((switchOnly_preempts s _).trans (switchOnly_stopTeams _ _)).trans (ih _)

theorem switchOnly_settleResumes (n : Nat) (s : State) : SwitchOnly s (settleResumes n s) := by
  induction n generalizing s with
  | zero => exact .refl s
  | succ n ih =>
    unfold settleResumes
    split
    · exact .refl s
    · split
      · exact .refl s
      · dsimp only
        split
        · exact (switchOnly_resumes s _).trans (switchOnly_setCtl _ _ _)
        · exact (switchOnly_resumes s _).trans (ih _)

/-- Everything that the settling of requests can do. -/
theorem switchOnly_settleSwitches (s : State) : SwitchOnly s (settleSwitches s) :=
  (switchOnly_settlePreempts _ s).trans (switchOnly_settleResumes _ _)

theorem wf_hubPut {s : State} (h : Memory.wf s.mem = true) (pa : Nat) (bs : List Byte) :
    Memory.wf (hubPut s pa bs).mem = true := wf_writeBytes h pa bs

/-- A write of the hub is performed now, or waits for the migration that copies its frame. -/
theorem hubWrite_cases (s : State) (pa : Nat) (bs : List Byte) : hubWrite s pa bs = hubPut s pa bs ∨
    ∃ m, s.migration = some m ∧ moves s pa bs.length = true ∧
      hubWrite s pa bs = { s with migration := some { m with waits := m.waits ++ [(pa, bs)] } } := by
  unfold hubWrite
  split
  · exact .inl rfl
  · next m hm =>
    split
    · next hv => exact .inr ⟨m, hm, hv, rfl⟩
    · exact .inl rfl

theorem wf_hubWrite {s : State} (h : Memory.wf s.mem = true) (pa : Nat) (bs : List Byte) :
    Memory.wf (hubWrite s pa bs).mem = true := by
  obtain e | ⟨m, -, -, e⟩ := hubWrite_cases s pa bs
  · rw [e]; exact wf_hubPut h pa bs
  · rw [e]; exact h

end Ops

end Machine

end Sys2Proof
end

