-- ==== Sys2Proof/Laws/Words.lean ====
section
/-! SUPPORT. Laws of the instruction words: every field of a word that was assembled comes back (02 R44, R54 to R60). -/

namespace Sys2Proof

theorem hdrOf_assemble (c : BitVec 4) (f : BitVec 6) (h : Hdr) (a : BitVec 64) : hdrOf (assemble c f h a) = h := by
  obtain ⟨la, gn, gp, sc, reuse, mod⟩ := h
  simp only [hdrOf, assemble, Hdr.mk.injEq]
  refine ⟨?_, ?_, ?_, ?_, ?_, ?_⟩
  all_goals first
    | (ext i hi
       simp only [BitVec.getElem_extractLsb', BitVec.getLsbD_cast, BitVec.getLsbD_append]
       simp (disch := omega) only [if_neg, if_pos]
       rw [← BitVec.getLsbD_eq_getElem]
       congr 1
       omega)
    | (simp only [BitVec.getLsbD_cast, BitVec.getLsbD_append]
       simp)

theorem opROf_assemble (c : BitVec 4) (f : BitVec 6) (h : Hdr) (o : OpR) : opROf (assemble c f h o.bits) = o := by
  obtain ⟨_, _, _, _, _, _, _⟩ := o
  simp only [opROf, assemble, OpR.bits, OpR.mk.injEq]
  refine ⟨?_, ?_, ?_, ?_, ?_, ?_, ?_⟩
  all_goals first
    | (ext i hi
       simp only [BitVec.getElem_extractLsb', BitVec.getLsbD_cast, BitVec.getLsbD_append]
       simp (disch := omega) only [if_neg, if_pos]
       rw [← BitVec.getLsbD_eq_getElem]
       congr 1
       omega)
    | (simp only [BitVec.getLsbD_cast, BitVec.getLsbD_append]
       simp)

theorem opIOf_assemble (c : BitVec 4) (f : BitVec 6) (h : Hdr) (o : OpI) : opIOf (assemble c f h o.bits) = o := by
  obtain ⟨_, _, _, _, _⟩ := o
  simp only [opIOf, assemble, OpI.bits, OpI.mk.injEq]
  refine ⟨?_, ?_, ?_, ?_, ?_⟩
  all_goals first
    | (ext i hi
       simp only [BitVec.getElem_extractLsb', BitVec.getLsbD_cast, BitVec.getLsbD_append]
       simp (disch := omega) only [if_neg, if_pos]
       rw [← BitVec.getLsbD_eq_getElem]
       congr 1
       omega)
    | (simp only [BitVec.getLsbD_cast, BitVec.getLsbD_append]
       simp)

theorem opMOf_assemble (c : BitVec 4) (f : BitVec 6) (h : Hdr) (o : OpM) : opMOf (assemble c f h o.bits) = o := by
  obtain ⟨_, _, _, _, _, _, _, _⟩ := o
  simp only [opMOf, assemble, OpM.bits, OpM.mk.injEq]
  refine ⟨?_, ?_, ?_, ?_, ?_, ?_, ?_, ?_⟩
  all_goals first
    | (ext i hi
       simp only [BitVec.getElem_extractLsb', BitVec.getLsbD_cast, BitVec.getLsbD_append]
       simp (disch := omega) only [if_neg, if_pos]
       rw [← BitVec.getLsbD_eq_getElem]
       congr 1
       omega)
    | (simp only [BitVec.getLsbD_cast, BitVec.getLsbD_append]
       simp)

theorem opBOf_assemble (c : BitVec 4) (f : BitVec 6) (h : Hdr) (o : OpB) : opBOf (assemble c f h o.bits) = o := by
  obtain ⟨_, _, _, _⟩ := o
  simp only [opBOf, assemble, OpB.bits, OpB.mk.injEq]
  refine ⟨?_, ?_, ?_, ?_⟩
  all_goals
    ext i hi
    simp only [BitVec.getElem_extractLsb', BitVec.getLsbD_cast, BitVec.getLsbD_append]
    simp (disch := omega) only [if_neg, if_pos]
    rw [← BitVec.getLsbD_eq_getElem]
    congr 1
    omega

theorem opXOf_assemble (c : BitVec 4) (f : BitVec 6) (h : Hdr) (o : OpX) : opXOf (assemble c f h o.bits) = o := by
  obtain ⟨_, _, _, _, _, _, _⟩ := o
  simp only [opXOf, assemble, OpX.bits, OpX.mk.injEq]
  refine ⟨?_, ?_, ?_, ?_, ?_, ?_, ?_⟩
  all_goals first
    | (ext i hi
       simp only [BitVec.getElem_extractLsb', BitVec.getLsbD_cast, BitVec.getLsbD_append]
       simp (disch := omega) only [if_neg, if_pos]
       rw [← BitVec.getLsbD_eq_getElem]
       congr 1
       omega)
    | (simp only [BitVec.getLsbD_cast, BitVec.getLsbD_append]
       simp)

theorem opGOf_assemble (c : BitVec 4) (f : BitVec 6) (h : Hdr) (o : OpG) : opGOf (assemble c f h o.bits) = o := by
  obtain ⟨_, _, _, _, _, _, _⟩ := o
  simp only [opGOf, assemble, OpG.bits, OpG.mk.injEq]
  refine ⟨?_, ?_, ?_, ?_, ?_, ?_, ?_⟩
  all_goals
    ext i hi
    simp only [BitVec.getElem_extractLsb', BitVec.getLsbD_cast, BitVec.getLsbD_append]
    simp (disch := omega) only [if_neg, if_pos]
    rw [← BitVec.getLsbD_eq_getElem]
    congr 1
    omega

theorem opSOf_assemble (c : BitVec 4) (f : BitVec 6) (h : Hdr) (o : OpS) : opSOf (assemble c f h o.bits) = o := by
  obtain ⟨_, _, _⟩ := o
  simp only [opSOf, assemble, OpS.bits, OpS.mk.injEq]
  refine ⟨?_, ?_, ?_⟩
  all_goals
    ext i hi
    simp only [BitVec.getElem_extractLsb', BitVec.getLsbD_cast, BitVec.getLsbD_append]
    simp (disch := omega) only [if_neg, if_pos]
    rw [← BitVec.getLsbD_eq_getElem]
    congr 1
    omega

theorem class_assemble (c : BitVec 4) (f : BitVec 6) (h : Hdr) (a : BitVec 64) :
    (assemble c f h a).extractLsb' 92 4 = c := by
  ext i hi
  simp only [assemble, BitVec.getElem_extractLsb', BitVec.getLsbD_cast, BitVec.getLsbD_append]
  simp (disch := omega) only [if_neg]
  rw [← BitVec.getLsbD_eq_getElem]
  congr 1
  omega

theorem fn_assemble (c : BitVec 4) (f : BitVec 6) (h : Hdr) (a : BitVec 64) :
    (assemble c f h a).extractLsb' 86 6 = f := by
  ext i hi
  simp only [assemble, BitVec.getElem_extractLsb', BitVec.getLsbD_cast, BitVec.getLsbD_append]
  simp (disch := omega) only [if_neg, if_pos]
  rw [← BitVec.getLsbD_eq_getElem]
  congr 1
  omega

/-- A bit of MOD in the word. -/
theorem mod_assemble (c : BitVec 4) (f : BitVec 6) (h : Hdr) (a : BitVec 64) (i : Nat) (hi : i < 8) :
    (assemble c f h a).getLsbD (64 + i) = h.mod.getLsbD i := by
  simp only [assemble, BitVec.getLsbD_cast, BitVec.getLsbD_append]
  simp (disch := omega) only [if_neg, if_pos]
  congr 1
  omega

/-- A bit of AUX in the word. -/
theorem aux_assemble (c : BitVec 4) (f : BitVec 6) (h : Hdr) (o : OpR) (i : Nat) (hi : i < 8) :
    (assemble c f h o.bits).getLsbD (40 + i) = o.aux.getLsbD i := by
  simp only [assemble, OpR.bits, BitVec.getLsbD_cast, BitVec.getLsbD_append]
  simp (disch := omega) only [if_neg, if_pos]
  congr 1
  omega

/-- MOD[3:0] in the word. -/
theorem mod4_assemble (c : BitVec 4) (f : BitVec 6) (h : Hdr) (a : BitVec 64) :
    (assemble c f h a).extractLsb' 64 4 = h.mod.extractLsb' 0 4 := by
  ext i hi
  simp only [BitVec.getElem_extractLsb']
  rw [mod_assemble _ _ _ _ i (by omega)]
  congr 1
  omega

end Sys2Proof
end

