-- ==== Sys2Proof/Laws/PerInstr.lean ====
section
/-! SUPPORT. Per-instruction laws: the opcode of a well-formed instruction's word names that instruction, with every field
(02 R44, 05 R106). An event has no word. -/

namespace Sys2Proof.Laws.Decodes

/-- The word of a well-formed instruction is read as that instruction. -/
def Statement (i : Instr) : Prop := i.wellFormed = true → ∀ w, encode i = some w → rawDecode w = some i

theorem nop (h : Hdr) (o : OpS) : Statement (.nop h o) := by
  intro _ w hw
  cases hw
  simp only [rawDecode, class_assemble, fn_assemble, BitVec.reduceToNat, rawClass0, hdrOf_assemble, opSOf_assemble]

theorem brk (h : Hdr) (o : OpS) : Statement (.brk h o) := by
  intro _ w hw
  cases hw
  simp only [rawDecode, class_assemble, fn_assemble, BitVec.reduceToNat, rawClass0, hdrOf_assemble, opSOf_assemble]

theorem sread (h : Hdr) (o : OpS) : Statement (.sread h o) := by
  intro _ w hw
  cases hw
  simp only [rawDecode, class_assemble, fn_assemble, BitVec.reduceToNat, rawClass0, hdrOf_assemble, opSOf_assemble]

theorem swrite (h : Hdr) (o : OpS) : Statement (.swrite h o) := by
  intro _ w hw
  cases hw
  simp only [rawDecode, class_assemble, fn_assemble, BitVec.reduceToNat, rawClass0, hdrOf_assemble, opSOf_assemble]

theorem cycrd (h : Hdr) (o : OpR) : Statement (.cycrd h o) := by
  intro _ w hw
  cases hw
  simp only [rawDecode, class_assemble, fn_assemble, BitVec.reduceToNat, rawClass0, hdrOf_assemble, opROf_assemble]

theorem hint (h : Hdr) (o : OpS) : Statement (.hint h o) := by
  intro _ w hw
  cases hw
  simp only [rawDecode, class_assemble, fn_assemble, BitVec.reduceToNat, rawClass0, hdrOf_assemble, opSOf_assemble]

theorem trap (h : Hdr) (o : OpS) : Statement (.trap h o) := by
  intro _ w hw
  cases hw
  simp only [rawDecode, class_assemble, fn_assemble, BitVec.reduceToNat, rawClass0, hdrOf_assemble, opSOf_assemble]

theorem rett (h : Hdr) (o : OpS) : Statement (.rett h o) := by
  intro _ w hw
  cases hw
  simp only [rawDecode, class_assemble, fn_assemble, BitVec.reduceToNat, rawClass0, hdrOf_assemble, opSOf_assemble]

theorem rgn (h : Hdr) (o : OpS) : Statement (.rgn h o) := by
  intro _ w hw
  cases hw
  simp only [rawDecode, class_assemble, fn_assemble, BitVec.reduceToNat, rawClass0, hdrOf_assemble, opSOf_assemble]

theorem rgnend (h : Hdr) (o : OpS) : Statement (.rgnend h o) := by
  intro _ w hw
  cases hw
  simp only [rawDecode, class_assemble, fn_assemble, BitVec.reduceToNat, rawClass0, hdrOf_assemble, opSOf_assemble]

theorem bra (h : Hdr) (o : OpB) : Statement (.bra h o) := by
  intro _ w hw
  cases hw
  simp only [rawDecode, class_assemble, fn_assemble, BitVec.reduceToNat, rawClass1, hdrOf_assemble, opBOf_assemble]

theorem brall (h : Hdr) (o : OpB) : Statement (.brall h o) := by
  intro _ w hw
  cases hw
  simp only [rawDecode, class_assemble, fn_assemble, BitVec.reduceToNat, rawClass1, hdrOf_assemble, opBOf_assemble]

theorem brany (h : Hdr) (o : OpB) : Statement (.brany h o) := by
  intro _ w hw
  cases hw
  simp only [rawDecode, class_assemble, fn_assemble, BitVec.reduceToNat, rawClass1, hdrOf_assemble, opBOf_assemble]

theorem brx (h : Hdr) (o : OpB) : Statement (.brx h o) := by
  intro _ w hw
  cases hw
  simp only [rawDecode, class_assemble, fn_assemble, BitVec.reduceToNat, rawClass1, hdrOf_assemble, opBOf_assemble]

theorem call (h : Hdr) (o : OpB) : Statement (.call h o) := by
  intro _ w hw
  cases hw
  simp only [rawDecode, class_assemble, fn_assemble, BitVec.reduceToNat, rawClass1, hdrOf_assemble, opBOf_assemble]

theorem callx (h : Hdr) (o : OpB) : Statement (.callx h o) := by
  intro _ w hw
  cases hw
  simp only [rawDecode, class_assemble, fn_assemble, BitVec.reduceToNat, rawClass1, hdrOf_assemble, opBOf_assemble]

theorem ret (h : Hdr) (o : OpB) : Statement (.ret h o) := by
  intro _ w hw
  cases hw
  simp only [rawDecode, class_assemble, fn_assemble, BitVec.reduceToNat, rawClass1, hdrOf_assemble, opBOf_assemble]

theorem loop (h : Hdr) (o : OpB) : Statement (.loop h o) := by
  intro _ w hw
  cases hw
  simp only [rawDecode, class_assemble, fn_assemble, BitVec.reduceToNat, rawClass1, hdrOf_assemble, opBOf_assemble]

theorem mrg (h : Hdr) (o : OpB) : Statement (.mrg h o) := by
  intro _ w hw
  cases hw
  simp only [rawDecode, class_assemble, fn_assemble, BitVec.reduceToNat, rawClass1, hdrOf_assemble, opBOf_assemble]

theorem mrgx (h : Hdr) (o : OpB) : Statement (.mrgx h o) := by
  intro _ w hw
  cases hw
  simp only [rawDecode, class_assemble, fn_assemble, BitVec.reduceToNat, rawClass1, hdrOf_assemble, opBOf_assemble]

theorem add (h : Hdr) (o : OpR) : Statement (.add h o) := by
  intro _ w hw
  cases hw
  simp only [rawDecode, class_assemble, fn_assemble, BitVec.reduceToNat, rawClass2, hdrOf_assemble, opROf_assemble]

theorem addc (h : Hdr) (o : OpR) : Statement (.addc h o) := by
  intro _ w hw
  cases hw
  simp only [rawDecode, class_assemble, fn_assemble, BitVec.reduceToNat, rawClass2, hdrOf_assemble, opROf_assemble]

theorem sub (h : Hdr) (o : OpR) : Statement (.sub h o) := by
  intro _ w hw
  cases hw
  simp only [rawDecode, class_assemble, fn_assemble, BitVec.reduceToNat, rawClass2, hdrOf_assemble, opROf_assemble]

theorem subb (h : Hdr) (o : OpR) : Statement (.subb h o) := by
  intro _ w hw
  cases hw
  simp only [rawDecode, class_assemble, fn_assemble, BitVec.reduceToNat, rawClass2, hdrOf_assemble, opROf_assemble]

theorem addi (h : Hdr) (o : OpI) : Statement (.addi h o) := by
  intro _ w hw
  cases hw
  simp only [rawDecode, class_assemble, fn_assemble, BitVec.reduceToNat, rawClass2, hdrOf_assemble, opIOf_assemble]

theorem mul (h : Hdr) (o : OpR) : Statement (.mul h o) := by
  intro _ w hw
  cases hw
  simp only [rawDecode, class_assemble, fn_assemble, BitVec.reduceToNat, rawClass2, hdrOf_assemble, opROf_assemble]

theorem mulhi (h : Hdr) (o : OpR) : Statement (.mulhi h o) := by
  intro _ w hw
  cases hw
  simp only [rawDecode, class_assemble, fn_assemble, BitVec.reduceToNat, rawClass2, hdrOf_assemble, opROf_assemble]

theorem mulw (h : Hdr) (o : OpR) : Statement (.mulw h o) := by
  intro _ w hw
  cases hw
  simp only [rawDecode, class_assemble, fn_assemble, BitVec.reduceToNat, rawClass2, hdrOf_assemble, opROf_assemble]

theorem mad (h : Hdr) (o : OpR) : Statement (.mad h o) := by
  intro _ w hw
  cases hw
  simp only [rawDecode, class_assemble, fn_assemble, BitVec.reduceToNat, rawClass2, hdrOf_assemble, opROf_assemble]

theorem madw (h : Hdr) (o : OpR) : Statement (.madw h o) := by
  intro _ w hw
  cases hw
  simp only [rawDecode, class_assemble, fn_assemble, BitVec.reduceToNat, rawClass2, hdrOf_assemble, opROf_assemble]

theorem div (h : Hdr) (o : OpR) : Statement (.div h o) := by
  intro _ w hw
  cases hw
  simp only [rawDecode, class_assemble, fn_assemble, BitVec.reduceToNat, rawClass2, hdrOf_assemble, opROf_assemble]

theorem rem (h : Hdr) (o : OpR) : Statement (.rem h o) := by
  intro _ w hw
  cases hw
  simp only [rawDecode, class_assemble, fn_assemble, BitVec.reduceToNat, rawClass2, hdrOf_assemble, opROf_assemble]

theorem divrem (h : Hdr) (o : OpR) : Statement (.divrem h o) := by
  intro _ w hw
  cases hw
  simp only [rawDecode, class_assemble, fn_assemble, BitVec.reduceToNat, rawClass2, hdrOf_assemble, opROf_assemble]

theorem min (h : Hdr) (o : OpR) : Statement (.min h o) := by
  intro _ w hw
  cases hw
  simp only [rawDecode, class_assemble, fn_assemble, BitVec.reduceToNat, rawClass2, hdrOf_assemble, opROf_assemble]

theorem max (h : Hdr) (o : OpR) : Statement (.max h o) := by
  intro _ w hw
  cases hw
  simp only [rawDecode, class_assemble, fn_assemble, BitVec.reduceToNat, rawClass2, hdrOf_assemble, opROf_assemble]

theorem clamp (h : Hdr) (o : OpR) : Statement (.clamp h o) := by
  intro _ w hw
  cases hw
  simp only [rawDecode, class_assemble, fn_assemble, BitVec.reduceToNat, rawClass2, hdrOf_assemble, opROf_assemble]

theorem abs (h : Hdr) (o : OpR) : Statement (.abs h o) := by
  intro _ w hw
  cases hw
  simp only [rawDecode, class_assemble, fn_assemble, BitVec.reduceToNat, rawClass2, hdrOf_assemble, opROf_assemble]

theorem sad (h : Hdr) (o : OpR) : Statement (.sad h o) := by
  intro _ w hw
  cases hw
  simp only [rawDecode, class_assemble, fn_assemble, BitVec.reduceToNat, rawClass2, hdrOf_assemble, opROf_assemble]

theorem dot4 (h : Hdr) (o : OpR) : Statement (.dot4 h o) := by
  intro _ w hw
  cases hw
  simp only [rawDecode, class_assemble, fn_assemble, BitVec.reduceToNat, rawClass2, hdrOf_assemble, opROf_assemble]

theorem dot2 (h : Hdr) (o : OpR) : Statement (.dot2 h o) := by
  intro _ w hw
  cases hw
  simp only [rawDecode, class_assemble, fn_assemble, BitVec.reduceToNat, rawClass2, hdrOf_assemble, opROf_assemble]

theorem lea (h : Hdr) (o : OpR) : Statement (.lea h o) := by
  intro _ w hw
  cases hw
  simp only [rawDecode, class_assemble, fn_assemble, BitVec.reduceToNat, rawClass2, hdrOf_assemble, opROf_assemble]

theorem leai (h : Hdr) (o : OpI) : Statement (.leai h o) := by
  intro _ w hw
  cases hw
  simp only [rawDecode, class_assemble, fn_assemble, BitVec.reduceToNat, rawClass2, hdrOf_assemble, opIOf_assemble]

theorem and (h : Hdr) (o : OpR) : Statement (.and h o) := by
  intro _ w hw
  cases hw
  simp only [rawDecode, class_assemble, fn_assemble, BitVec.reduceToNat, rawClass3, hdrOf_assemble, opROf_assemble]

theorem or (h : Hdr) (o : OpR) : Statement (.or h o) := by
  intro _ w hw
  cases hw
  simp only [rawDecode, class_assemble, fn_assemble, BitVec.reduceToNat, rawClass3, hdrOf_assemble, opROf_assemble]

theorem xor (h : Hdr) (o : OpR) : Statement (.xor h o) := by
  intro _ w hw
  cases hw
  simp only [rawDecode, class_assemble, fn_assemble, BitVec.reduceToNat, rawClass3, hdrOf_assemble, opROf_assemble]

theorem not (h : Hdr) (o : OpR) : Statement (.not h o) := by
  intro _ w hw
  cases hw
  simp only [rawDecode, class_assemble, fn_assemble, BitVec.reduceToNat, rawClass3, hdrOf_assemble, opROf_assemble]

theorem tern (h : Hdr) (o : OpR) : Statement (.tern h o) := by
  intro _ w hw
  cases hw
  simp only [rawDecode, class_assemble, fn_assemble, BitVec.reduceToNat, rawClass3, hdrOf_assemble, opROf_assemble]

theorem bini (h : Hdr) (o : OpI) : Statement (.bini h o) := by
  intro _ w hw
  cases hw
  simp only [rawDecode, class_assemble, fn_assemble, BitVec.reduceToNat, rawClass3, hdrOf_assemble, opIOf_assemble]

theorem shl (h : Hdr) (o : OpR) : Statement (.shl h o) := by
  intro _ w hw
  cases hw
  simp only [rawDecode, class_assemble, fn_assemble, BitVec.reduceToNat, rawClass3, hdrOf_assemble, opROf_assemble]

theorem shr (h : Hdr) (o : OpR) : Statement (.shr h o) := by
  intro _ w hw
  cases hw
  simp only [rawDecode, class_assemble, fn_assemble, BitVec.reduceToNat, rawClass3, hdrOf_assemble, opROf_assemble]

theorem sra (h : Hdr) (o : OpR) : Statement (.sra h o) := by
  intro _ w hw
  cases hw
  simp only [rawDecode, class_assemble, fn_assemble, BitVec.reduceToNat, rawClass3, hdrOf_assemble, opROf_assemble]

theorem fsl (h : Hdr) (o : OpR) : Statement (.fsl h o) := by
  intro _ w hw
  cases hw
  simp only [rawDecode, class_assemble, fn_assemble, BitVec.reduceToNat, rawClass3, hdrOf_assemble, opROf_assemble]

theorem fsr (h : Hdr) (o : OpR) : Statement (.fsr h o) := by
  intro _ w hw
  cases hw
  simp only [rawDecode, class_assemble, fn_assemble, BitVec.reduceToNat, rawClass3, hdrOf_assemble, opROf_assemble]

theorem popc (h : Hdr) (o : OpR) : Statement (.popc h o) := by
  intro _ w hw
  cases hw
  simp only [rawDecode, class_assemble, fn_assemble, BitVec.reduceToNat, rawClass3, hdrOf_assemble, opROf_assemble]

theorem clz (h : Hdr) (o : OpR) : Statement (.clz h o) := by
  intro _ w hw
  cases hw
  simp only [rawDecode, class_assemble, fn_assemble, BitVec.reduceToNat, rawClass3, hdrOf_assemble, opROf_assemble]

theorem brev (h : Hdr) (o : OpR) : Statement (.brev h o) := by
  intro _ w hw
  cases hw
  simp only [rawDecode, class_assemble, fn_assemble, BitVec.reduceToNat, rawClass3, hdrOf_assemble, opROf_assemble]

theorem bfx (h : Hdr) (o : OpR) : Statement (.bfx h o) := by
  intro _ w hw
  cases hw
  simp only [rawDecode, class_assemble, fn_assemble, BitVec.reduceToNat, rawClass3, hdrOf_assemble, opROf_assemble]

theorem bfi (h : Hdr) (o : OpR) : Statement (.bfi h o) := by
  intro _ w hw
  cases hw
  simp only [rawDecode, class_assemble, fn_assemble, BitVec.reduceToNat, rawClass3, hdrOf_assemble, opROf_assemble]

theorem perm (h : Hdr) (o : OpR) : Statement (.perm h o) := by
  intro _ w hw
  cases hw
  simp only [rawDecode, class_assemble, fn_assemble, BitVec.reduceToNat, rawClass3, hdrOf_assemble, opROf_assemble]

theorem setp (h : Hdr) (o : OpR) : Statement (.setp h o) := by
  intro _ w hw
  cases hw
  simp only [rawDecode, class_assemble, fn_assemble, BitVec.reduceToNat, rawClass4, hdrOf_assemble, opROf_assemble]

theorem setpi (h : Hdr) (o : OpI) : Statement (.setpi h o) := by
  intro _ w hw
  cases hw
  simp only [rawDecode, class_assemble, fn_assemble, BitVec.reduceToNat, rawClass4, hdrOf_assemble, opIOf_assemble]

theorem fsetp (h : Hdr) (o : OpR) : Statement (.fsetp h o) := by
  intro _ w hw
  cases hw
  simp only [rawDecode, class_assemble, fn_assemble, BitVec.reduceToNat, rawClass4, hdrOf_assemble, opROf_assemble]

theorem plop (h : Hdr) (o : OpR) : Statement (.plop h o) := by
  intro _ w hw
  cases hw
  simp only [rawDecode, class_assemble, fn_assemble, BitVec.reduceToNat, rawClass4, hdrOf_assemble, opROf_assemble]

theorem sel (h : Hdr) (o : OpR) : Statement (.sel h o) := by
  intro _ w hw
  cases hw
  simp only [rawDecode, class_assemble, fn_assemble, BitVec.reduceToNat, rawClass4, hdrOf_assemble, opROf_assemble]

theorem seli (h : Hdr) (o : OpI) : Statement (.seli h o) := by
  intro _ w hw
  cases hw
  simp only [rawDecode, class_assemble, fn_assemble, BitVec.reduceToNat, rawClass4, hdrOf_assemble, opIOf_assemble]

theorem mov (h : Hdr) (o : OpR) : Statement (.mov h o) := by
  intro _ w hw
  cases hw
  simp only [rawDecode, class_assemble, fn_assemble, BitVec.reduceToNat, rawClass4, hdrOf_assemble, opROf_assemble]

theorem movi (h : Hdr) (o : OpI) : Statement (.movi h o) := by
  intro _ w hw
  cases hw
  simp only [rawDecode, class_assemble, fn_assemble, BitVec.reduceToNat, rawClass4, hdrOf_assemble, opIOf_assemble]

theorem p2r (h : Hdr) (o : OpR) : Statement (.p2r h o) := by
  intro _ w hw
  cases hw
  simp only [rawDecode, class_assemble, fn_assemble, BitVec.reduceToNat, rawClass4, hdrOf_assemble, opROf_assemble]

theorem regToPred (h : Hdr) (o : OpR) : Statement (.regToPred h o) := by
  intro _ w hw
  cases hw
  simp only [rawDecode, class_assemble, fn_assemble, BitVec.reduceToNat, rawClass4, hdrOf_assemble, opROf_assemble]

theorem fadd (h : Hdr) (o : OpR) : Statement (.fadd h o) := by
  intro _ w hw
  cases hw
  simp only [rawDecode, class_assemble, fn_assemble, BitVec.reduceToNat, rawClass5, hdrOf_assemble, opROf_assemble]

theorem fsub (h : Hdr) (o : OpR) : Statement (.fsub h o) := by
  intro _ w hw
  cases hw
  simp only [rawDecode, class_assemble, fn_assemble, BitVec.reduceToNat, rawClass5, hdrOf_assemble, opROf_assemble]

theorem fmul (h : Hdr) (o : OpR) : Statement (.fmul h o) := by
  intro _ w hw
  cases hw
  simp only [rawDecode, class_assemble, fn_assemble, BitVec.reduceToNat, rawClass5, hdrOf_assemble, opROf_assemble]

theorem fma (h : Hdr) (o : OpR) : Statement (.fma h o) := by
  intro _ w hw
  cases hw
  simp only [rawDecode, class_assemble, fn_assemble, BitVec.reduceToNat, rawClass5, hdrOf_assemble, opROf_assemble]

theorem fmin (h : Hdr) (o : OpR) : Statement (.fmin h o) := by
  intro _ w hw
  cases hw
  simp only [rawDecode, class_assemble, fn_assemble, BitVec.reduceToNat, rawClass5, hdrOf_assemble, opROf_assemble]

theorem fmax (h : Hdr) (o : OpR) : Statement (.fmax h o) := by
  intro _ w hw
  cases hw
  simp only [rawDecode, class_assemble, fn_assemble, BitVec.reduceToNat, rawClass5, hdrOf_assemble, opROf_assemble]

theorem frnd (h : Hdr) (o : OpR) : Statement (.frnd h o) := by
  intro _ w hw
  cases hw
  simp only [rawDecode, class_assemble, fn_assemble, BitVec.reduceToNat, rawClass5, hdrOf_assemble, opROf_assemble]

theorem fclass (h : Hdr) (o : OpR) : Statement (.fclass h o) := by
  intro _ w hw
  cases hw
  simp only [rawDecode, class_assemble, fn_assemble, BitVec.reduceToNat, rawClass5, hdrOf_assemble, opROf_assemble]

theorem fadd2 (h : Hdr) (o : OpR) : Statement (.fadd2 h o) := by
  intro _ w hw
  cases hw
  simp only [rawDecode, class_assemble, fn_assemble, BitVec.reduceToNat, rawClass5, hdrOf_assemble, opROf_assemble]

theorem fmul2 (h : Hdr) (o : OpR) : Statement (.fmul2 h o) := by
  intro _ w hw
  cases hw
  simp only [rawDecode, class_assemble, fn_assemble, BitVec.reduceToNat, rawClass5, hdrOf_assemble, opROf_assemble]

theorem fma2 (h : Hdr) (o : OpR) : Statement (.fma2 h o) := by
  intro _ w hw
  cases hw
  simp only [rawDecode, class_assemble, fn_assemble, BitVec.reduceToNat, rawClass5, hdrOf_assemble, opROf_assemble]

theorem fdot2 (h : Hdr) (o : OpR) : Statement (.fdot2 h o) := by
  intro _ w hw
  cases hw
  simp only [rawDecode, class_assemble, fn_assemble, BitVec.reduceToNat, rawClass5, hdrOf_assemble, opROf_assemble]

theorem fex2 (h : Hdr) (o : OpR) : Statement (.fex2 h o) := by
  intro _ w hw
  cases hw
  simp only [rawDecode, class_assemble, fn_assemble, BitVec.reduceToNat, rawClass5, hdrOf_assemble, opROf_assemble]

theorem flg2 (h : Hdr) (o : OpR) : Statement (.flg2 h o) := by
  intro _ w hw
  cases hw
  simp only [rawDecode, class_assemble, fn_assemble, BitVec.reduceToNat, rawClass5, hdrOf_assemble, opROf_assemble]

theorem frcp (h : Hdr) (o : OpR) : Statement (.frcp h o) := by
  intro _ w hw
  cases hw
  simp only [rawDecode, class_assemble, fn_assemble, BitVec.reduceToNat, rawClass5, hdrOf_assemble, opROf_assemble]

theorem frsq (h : Hdr) (o : OpR) : Statement (.frsq h o) := by
  intro _ w hw
  cases hw
  simp only [rawDecode, class_assemble, fn_assemble, BitVec.reduceToNat, rawClass5, hdrOf_assemble, opROf_assemble]

theorem fsin (h : Hdr) (o : OpR) : Statement (.fsin h o) := by
  intro _ w hw
  cases hw
  simp only [rawDecode, class_assemble, fn_assemble, BitVec.reduceToNat, rawClass5, hdrOf_assemble, opROf_assemble]

theorem fcos (h : Hdr) (o : OpR) : Statement (.fcos h o) := by
  intro _ w hw
  cases hw
  simp only [rawDecode, class_assemble, fn_assemble, BitVec.reduceToNat, rawClass5, hdrOf_assemble, opROf_assemble]

theorem cvt (h : Hdr) (o : OpR) : Statement (.cvt h o) := by
  intro _ w hw
  cases hw
  simp only [rawDecode, class_assemble, fn_assemble, BitVec.reduceToNat, rawClass6, hdrOf_assemble, opROf_assemble]

theorem pack (h : Hdr) (o : OpR) : Statement (.pack h o) := by
  intro _ w hw
  cases hw
  simp only [rawDecode, class_assemble, fn_assemble, BitVec.reduceToNat, rawClass6, hdrOf_assemble, opROf_assemble]

theorem unpack (h : Hdr) (o : OpR) : Statement (.unpack h o) := by
  intro _ w hw
  cases hw
  simp only [rawDecode, class_assemble, fn_assemble, BitVec.reduceToNat, rawClass6, hdrOf_assemble, opROf_assemble]

theorem quant (h : Hdr) (o : OpR) : Statement (.quant h o) := by
  intro _ w hw
  cases hw
  simp only [rawDecode, class_assemble, fn_assemble, BitVec.reduceToNat, rawClass6, hdrOf_assemble, opROf_assemble]

theorem dequant (h : Hdr) (o : OpR) : Statement (.dequant h o) := by
  intro _ w hw
  cases hw
  simp only [rawDecode, class_assemble, fn_assemble, BitVec.reduceToNat, rawClass6, hdrOf_assemble, opROf_assemble]

theorem pack4 (h : Hdr) (o : OpR) : Statement (.pack4 h o) := by
  intro _ w hw
  cases hw
  simp only [rawDecode, class_assemble, fn_assemble, BitVec.reduceToNat, rawClass6, hdrOf_assemble, opROf_assemble]

theorem shfl (h : Hdr) (o : OpR) : Statement (.shfl h o) := by
  intro _ w hw
  cases hw
  simp only [rawDecode, class_assemble, fn_assemble, BitVec.reduceToNat, rawClass7, hdrOf_assemble, opROf_assemble]

theorem shfli (h : Hdr) (o : OpI) : Statement (.shfli h o) := by
  intro _ w hw
  cases hw
  simp only [rawDecode, class_assemble, fn_assemble, BitVec.reduceToNat, rawClass7, hdrOf_assemble, opIOf_assemble]

theorem vote (h : Hdr) (o : OpR) : Statement (.vote h o) := by
  intro _ w hw
  cases hw
  simp only [rawDecode, class_assemble, fn_assemble, BitVec.reduceToNat, rawClass7, hdrOf_assemble, opROf_assemble]

theorem pmask (h : Hdr) (o : OpR) : Statement (.pmask h o) := by
  intro _ w hw
  cases hw
  simp only [rawDecode, class_assemble, fn_assemble, BitVec.reduceToNat, rawClass7, hdrOf_assemble, opROf_assemble]

theorem lfold (h : Hdr) (o : OpR) : Statement (.lfold h o) := by
  intro _ w hw
  cases hw
  simp only [rawDecode, class_assemble, fn_assemble, BitVec.reduceToNat, rawClass7, hdrOf_assemble, opROf_assemble]

theorem matchLanes (h : Hdr) (o : OpR) : Statement (.matchLanes h o) := by
  intro _ w hw
  cases hw
  simp only [rawDecode, class_assemble, fn_assemble, BitVec.reduceToNat, rawClass7, hdrOf_assemble, opROf_assemble]

theorem rdlane (h : Hdr) (o : OpR) : Statement (.rdlane h o) := by
  intro _ w hw
  cases hw
  simp only [rawDecode, class_assemble, fn_assemble, BitVec.reduceToNat, rawClass7, hdrOf_assemble, opROf_assemble]

theorem ddx (h : Hdr) (o : OpR) : Statement (.ddx h o) := by
  intro _ w hw
  cases hw
  simp only [rawDecode, class_assemble, fn_assemble, BitVec.reduceToNat, rawClass7, hdrOf_assemble, opROf_assemble]

theorem ddy (h : Hdr) (o : OpR) : Statement (.ddy h o) := by
  intro _ w hw
  cases hw
  simp only [rawDecode, class_assemble, fn_assemble, BitVec.reduceToNat, rawClass7, hdrOf_assemble, opROf_assemble]

theorem rpinit (h : Hdr) (o : OpI) : Statement (.rpinit h o) := by
  intro _ w hw
  cases hw
  simp only [rawDecode, class_assemble, fn_assemble, BitVec.reduceToNat, rawClass8, hdrOf_assemble, opIOf_assemble]

theorem rparr (h : Hdr) (o : OpR) : Statement (.rparr h o) := by
  intro _ w hw
  cases hw
  simp only [rawDecode, class_assemble, fn_assemble, BitVec.reduceToNat, rawClass8, hdrOf_assemble, opROf_assemble]

theorem rpwait (h : Hdr) (o : OpR) : Statement (.rpwait h o) := by
  intro _ w hw
  cases hw
  simp only [rawDecode, class_assemble, fn_assemble, BitVec.reduceToNat, rawClass8, hdrOf_assemble, opROf_assemble]

theorem rparw (h : Hdr) (o : OpR) : Statement (.rparw h o) := by
  intro _ w hw
  cases hw
  simp only [rawDecode, class_assemble, fn_assemble, BitVec.reduceToNat, rawClass8, hdrOf_assemble, opROf_assemble]

theorem rpbytes (h : Hdr) (o : OpR) : Statement (.rpbytes h o) := by
  intro _ w hw
  cases hw
  simp only [rawDecode, class_assemble, fn_assemble, BitVec.reduceToNat, rawClass8, hdrOf_assemble, opROf_assemble]

theorem yield (h : Hdr) (o : OpS) : Statement (.yield h o) := by
  intro _ w hw
  cases hw
  simp only [rawDecode, class_assemble, fn_assemble, BitVec.reduceToNat, rawClass8, hdrOf_assemble, opSOf_assemble]

theorem yieldto (h : Hdr) (o : OpB) : Statement (.yieldto h o) := by
  intro _ w hw
  cases hw
  simp only [rawDecode, class_assemble, fn_assemble, BitVec.reduceToNat, rawClass8, hdrOf_assemble, opBOf_assemble]

theorem sleep (h : Hdr) (o : OpS) : Statement (.sleep h o) := by
  intro _ w hw
  cases hw
  simp only [rawDecode, class_assemble, fn_assemble, BitVec.reduceToNat, rawClass8, hdrOf_assemble, opSOf_assemble]

theorem exit (h : Hdr) (o : OpS) : Statement (.exit h o) := by
  intro _ w hw
  cases hw
  simp only [rawDecode, class_assemble, fn_assemble, BitVec.reduceToNat, rawClass8, hdrOf_assemble, opSOf_assemble]

theorem rendezvousArrivalCount (arrival : Nat) : Statement (.rendezvousArrivalCount arrival) := fun _ _ hw => nomatch hw

theorem sleepExpiry (group : Nat) : Statement (.sleepExpiry group) := fun _ _ hw => nomatch hw

theorem ld (h : Hdr) (o : OpM) : Statement (.ld h o) := by
  intro _ w hw
  cases hw
  simp only [rawDecode, class_assemble, fn_assemble, BitVec.reduceToNat, rawClass9, hdrOf_assemble, opMOf_assemble]

theorem st (h : Hdr) (o : OpM) : Statement (.st h o) := by
  intro _ w hw
  cases hw
  simp only [rawDecode, class_assemble, fn_assemble, BitVec.reduceToNat, rawClass9, hdrOf_assemble, opMOf_assemble]

theorem ldacq (h : Hdr) (o : OpM) : Statement (.ldacq h o) := by
  intro _ w hw
  cases hw
  simp only [rawDecode, class_assemble, fn_assemble, BitVec.reduceToNat, rawClass9, hdrOf_assemble, opMOf_assemble]

theorem strel (h : Hdr) (o : OpM) : Statement (.strel h o) := by
  intro _ w hw
  cases hw
  simp only [rawDecode, class_assemble, fn_assemble, BitVec.reduceToNat, rawClass9, hdrOf_assemble, opMOf_assemble]

theorem ldk (h : Hdr) (o : OpM) : Statement (.ldk h o) := by
  intro _ w hw
  cases hw
  simp only [rawDecode, class_assemble, fn_assemble, BitVec.reduceToNat, rawClass9, hdrOf_assemble, opMOf_assemble]

theorem stk (h : Hdr) (o : OpM) : Statement (.stk h o) := by
  intro _ w hw
  cases hw
  simp only [rawDecode, class_assemble, fn_assemble, BitVec.reduceToNat, rawClass9, hdrOf_assemble, opMOf_assemble]

theorem ldw (h : Hdr) (o : OpM) : Statement (.ldw h o) := by
  intro _ w hw
  cases hw
  simp only [rawDecode, class_assemble, fn_assemble, BitVec.reduceToNat, rawClass9, hdrOf_assemble, opMOf_assemble]

theorem stw (h : Hdr) (o : OpM) : Statement (.stw h o) := by
  intro _ w hw
  cases hw
  simp only [rawDecode, class_assemble, fn_assemble, BitVec.reduceToNat, rawClass9, hdrOf_assemble, opMOf_assemble]

theorem fpush (h : Hdr) (o : OpM) : Statement (.fpush h o) := by
  intro _ w hw
  cases hw
  simp only [rawDecode, class_assemble, fn_assemble, BitVec.reduceToNat, rawClass9, hdrOf_assemble, opMOf_assemble]

theorem fpop (h : Hdr) (o : OpM) : Statement (.fpop h o) := by
  intro _ w hw
  cases hw
  simp only [rawDecode, class_assemble, fn_assemble, BitVec.reduceToNat, rawClass9, hdrOf_assemble, opMOf_assemble]

theorem fpeek (h : Hdr) (o : OpM) : Statement (.fpeek h o) := by
  intro _ w hw
  cases hw
  simp only [rawDecode, class_assemble, fn_assemble, BitVec.reduceToNat, rawClass9, hdrOf_assemble, opMOf_assemble]

theorem pref (h : Hdr) (o : OpM) : Statement (.pref h o) := by
  intro _ w hw
  cases hw
  simp only [rawDecode, class_assemble, fn_assemble, BitVec.reduceToNat, rawClass9, hdrOf_assemble, opMOf_assemble]

theorem fifoWaitServed (cluster : Nat) (bank : Nat) : Statement (.fifoWaitServed cluster bank) := fun _ _ hw => nomatch hw

theorem atom (h : Hdr) (o : OpM) : Statement (.atom h o) := by
  intro _ w hw
  cases hw
  simp only [rawDecode, class_assemble, fn_assemble, BitVec.reduceToNat, rawClassA, hdrOf_assemble, opMOf_assemble]

theorem atomcas (h : Hdr) (o : OpM) : Statement (.atomcas h o) := by
  intro _ w hw
  cases hw
  simp only [rawDecode, class_assemble, fn_assemble, BitVec.reduceToNat, rawClassA, hdrOf_assemble, opMOf_assemble]

theorem atomf (h : Hdr) (o : OpM) : Statement (.atomf h o) := by
  intro _ w hw
  cases hw
  simp only [rawDecode, class_assemble, fn_assemble, BitVec.reduceToNat, rawClassA, hdrOf_assemble, opMOf_assemble]

theorem red (h : Hdr) (o : OpM) : Statement (.red h o) := by
  intro hl w hw
  have hb : h.mod.getLsbD 3 = false := by
    simp only [Instr.wellFormed, Checks.legal, Checks.redOk, Bool.and_eq_true, beq_iff_eq] at hl
    exact hl.1.2.2
  cases hw
  simp only [rawDecode, class_assemble, fn_assemble, BitVec.reduceToNat, rawClassA, hdrOf_assemble, opMOf_assemble, mod_assemble _ _ _ _ 3 (by omega), hb]
  rfl

theorem redDet (h : Hdr) (o : OpM) : Statement (.redDet h o) := by
  intro hl w hw
  have hb : h.mod.getLsbD 3 = true := by
    simp only [Instr.wellFormed, Checks.legal, Checks.redOk, Bool.and_eq_true, beq_iff_eq] at hl
    exact hl.1.2.2
  cases hw
  simp only [rawDecode, class_assemble, fn_assemble, BitVec.reduceToNat, rawClassA, hdrOf_assemble, opMOf_assemble, mod_assemble _ _ _ _ 3 (by omega), hb]
  rfl

theorem redf (h : Hdr) (o : OpM) : Statement (.redf h o) := by
  intro hl w hw
  have hb : h.mod.getLsbD 3 = false := by
    simp only [Instr.wellFormed, Checks.legal, Bool.and_eq_true, Bool.not_eq_eq_eq_not, Bool.not_true] at hl
    exact hl.1.2
  cases hw
  simp only [rawDecode, class_assemble, fn_assemble, BitVec.reduceToNat, rawClassA, hdrOf_assemble, opMOf_assemble, mod_assemble _ _ _ _ 3 (by omega), hb]
  rfl

theorem redfDet (h : Hdr) (o : OpM) : Statement (.redfDet h o) := by
  intro hl w hw
  have hb : h.mod.getLsbD 3 = true := by
    simp only [Instr.wellFormed, Checks.legal, Bool.and_eq_true] at hl
    exact hl.1.2
  cases hw
  simp only [rawDecode, class_assemble, fn_assemble, BitVec.reduceToNat, rawClassA, hdrOf_assemble, opMOf_assemble, mod_assemble _ _ _ _ 3 (by omega), hb]
  rfl

theorem dflush (h : Hdr) (o : OpS) : Statement (.dflush h o) := by
  intro _ w hw
  cases hw
  simp only [rawDecode, class_assemble, fn_assemble, BitVec.reduceToNat, rawClassA, hdrOf_assemble, opSOf_assemble]

theorem fenceAcq (h : Hdr) (o : OpS) : Statement (.fenceAcq h o) := by
  intro hl w hw
  have hb : h.mod = 0 := by
    simp only [Instr.wellFormed, Checks.legal, Bool.and_eq_true, beq_iff_eq] at hl
    exact hl.1.2
  cases hw
  simp only [rawDecode, class_assemble, fn_assemble, BitVec.reduceToNat, rawClassA, hdrOf_assemble, opSOf_assemble, mod4_assemble, hb]
  rfl

theorem fenceRel (h : Hdr) (o : OpS) : Statement (.fenceRel h o) := by
  intro hl w hw
  have hb : h.mod = 1 := by
    simp only [Instr.wellFormed, Checks.legal, Bool.and_eq_true, beq_iff_eq] at hl
    exact hl.1.2
  cases hw
  simp only [rawDecode, class_assemble, fn_assemble, BitVec.reduceToNat, rawClassA, hdrOf_assemble, opSOf_assemble, mod4_assemble, hb]
  rfl

theorem fenceAr (h : Hdr) (o : OpS) : Statement (.fenceAr h o) := by
  intro hl w hw
  have hb : h.mod = 2 := by
    simp only [Instr.wellFormed, Checks.legal, Bool.and_eq_true, beq_iff_eq] at hl
    exact hl.1.2
  cases hw
  simp only [rawDecode, class_assemble, fn_assemble, BitVec.reduceToNat, rawClassA, hdrOf_assemble, opSOf_assemble, mod4_assemble, hb]
  rfl

theorem fenceSmp (h : Hdr) (o : OpS) : Statement (.fenceSmp h o) := by
  intro hl w hw
  have hb : h.mod = 3 := by
    simp only [Instr.wellFormed, Checks.legal, Bool.and_eq_true, beq_iff_eq] at hl
    exact hl.1.2
  cases hw
  simp only [rawDecode, class_assemble, fn_assemble, BitVec.reduceToNat, rawClassA, hdrOf_assemble, opSOf_assemble, mod4_assemble, hb]
  rfl

theorem fwait (h : Hdr) (o : OpS) : Statement (.fwait h o) := by
  intro _ w hw
  cases hw
  simp only [rawDecode, class_assemble, fn_assemble, BitVec.reduceToNat, rawClassA, hdrOf_assemble, opSOf_assemble]

theorem ngath (h : Hdr) (o : OpM) : Statement (.ngath h o) := by
  intro _ w hw
  cases hw
  simp only [rawDecode, class_assemble, fn_assemble, BitVec.reduceToNat, rawClassA, hdrOf_assemble, opMOf_assemble]

theorem nscat (h : Hdr) (o : OpM) : Statement (.nscat h o) := by
  intro _ w hw
  cases hw
  simp only [rawDecode, class_assemble, fn_assemble, BitVec.reduceToNat, rawClassA, hdrOf_assemble, opMOf_assemble]

theorem cwb (h : Hdr) (o : OpM) : Statement (.cwb h o) := by
  intro _ w hw
  cases hw
  simp only [rawDecode, class_assemble, fn_assemble, BitVec.reduceToNat, rawClassA, hdrOf_assemble, opMOf_assemble]

theorem cinv (h : Hdr) (o : OpM) : Statement (.cinv h o) := by
  intro _ w hw
  cases hw
  simp only [rawDecode, class_assemble, fn_assemble, BitVec.reduceToNat, rawClassA, hdrOf_assemble, opMOf_assemble]

theorem cdisc (h : Hdr) (o : OpM) : Statement (.cdisc h o) := by
  intro _ w hw
  cases hw
  simp only [rawDecode, class_assemble, fn_assemble, BitVec.reduceToNat, rawClassA, hdrOf_assemble, opMOf_assemble]

theorem icinv (h : Hdr) (o : OpM) : Statement (.icinv h o) := by
  intro _ w hw
  cases hw
  simp only [rawDecode, class_assemble, fn_assemble, BitVec.reduceToNat, rawClassA, hdrOf_assemble, opMOf_assemble]

theorem storePerform (store : Nat) : Statement (.storePerform store) := fun _ _ hw => nomatch hw

theorem releaseComplete (release : Nat) : Statement (.releaseComplete release) := fun _ _ hw => nomatch hw

theorem longLatencyResultLand (group : Nat) : Statement (.longLatencyResultLand group) := fun _ _ hw => nomatch hw

theorem cpy (h : Hdr) (o : OpR) : Statement (.cpy h o) := by
  intro _ w hw
  cases hw
  simp only [rawDecode, class_assemble, fn_assemble, BitVec.reduceToNat, rawClassB, hdrOf_assemble, opROf_assemble]

theorem cpyo (h : Hdr) (o : OpR) : Statement (.cpyo h o) := by
  intro _ w hw
  cases hw
  simp only [rawDecode, class_assemble, fn_assemble, BitVec.reduceToNat, rawClassB, hdrOf_assemble, opROf_assemble]

theorem cpyq (h : Hdr) (o : OpR) : Statement (.cpyq h o) := by
  intro _ w hw
  cases hw
  simp only [rawDecode, class_assemble, fn_assemble, BitVec.reduceToNat, rawClassB, hdrOf_assemble, opROf_assemble]

theorem halloc (h : Hdr) (o : OpR) : Statement (.halloc h o) := by
  intro _ w hw
  cases hw
  simp only [rawDecode, class_assemble, fn_assemble, BitVec.reduceToNat, rawClassB, hdrOf_assemble, opROf_assemble]

theorem hfree (h : Hdr) (o : OpR) : Statement (.hfree h o) := by
  intro _ w hw
  cases hw
  simp only [rawDecode, class_assemble, fn_assemble, BitVec.reduceToNat, rawClassB, hdrOf_assemble, opROf_assemble]

theorem hwaitTake (h : Hdr) (o : OpR) : Statement (.hwaitTake h o) := by
  intro hl w hw
  have hb : o.aux = 0 := by
    simp only [Instr.wellFormed, Checks.legal, Bool.and_eq_true, beq_iff_eq] at hl
    exact hl.1.2
  cases hw
  simp only [rawDecode, class_assemble, fn_assemble, BitVec.reduceToNat, rawClassB, hdrOf_assemble, opROf_assemble, aux_assemble _ _ _ _ 0 (by omega), hb]
  rfl

theorem hwaitPeek (h : Hdr) (o : OpR) : Statement (.hwaitPeek h o) := by
  intro hl w hw
  have hb : o.aux = 1 := by
    simp only [Instr.wellFormed, Checks.legal, Bool.and_eq_true, beq_iff_eq] at hl
    exact hl.1.2
  cases hw
  simp only [rawDecode, class_assemble, fn_assemble, BitVec.reduceToNat, rawClassB, hdrOf_assemble, opROf_assemble, aux_assemble _ _ _ _ 0 (by omega), hb]
  rfl

theorem hstat (h : Hdr) (o : OpR) : Statement (.hstat h o) := by
  intro _ w hw
  cases hw
  simp only [rawDecode, class_assemble, fn_assemble, BitVec.reduceToNat, rawClassB, hdrOf_assemble, opROf_assemble]

theorem publish (h : Hdr) (o : OpR) : Statement (.publish h o) := by
  intro _ w hw
  cases hw
  simp only [rawDecode, class_assemble, fn_assemble, BitVec.reduceToNat, rawClassB, hdrOf_assemble, opROf_assemble]

theorem publishSwap (publish : Nat) : Statement (.publishSwap publish) := fun _ _ hw => nomatch hw

theorem copyCommandStart (cluster : Nat) : Statement (.copyCommandStart cluster) := fun _ _ hw => nomatch hw

theorem copyChunkLand (cluster : Nat) (command : Nat) : Statement (.copyChunkLand cluster command) := fun _ _ hw => nomatch hw

theorem copySignalWrite (cluster : Nat) (command : Nat) : Statement (.copySignalWrite cluster command) := fun _ _ hw => nomatch hw

theorem spillRingRefill (cluster : Nat) : Statement (.spillRingRefill cluster) := fun _ _ hw => nomatch hw

theorem cespillbWrite (cluster : Nat) (value : Nat) : Statement (.cespillbWrite cluster value) := fun _ _ hw => nomatch hw

theorem queueSlotDispatch (queue : Nat) : Statement (.queueSlotDispatch queue) := fun _ _ hw => nomatch hw

theorem teamStart (launch : Nat) (team : Nat) (core : Nat) (base : Nat) : Statement (.teamStart launch team core base) := fun _ _ hw => nomatch hw

theorem launchCompletionRecord (launch : Nat) : Statement (.launchCompletionRecord launch) := fun _ _ hw => nomatch hw

theorem issueCycle (core : Nat) (quarter : Nat) : Statement (.issueCycle core quarter) := fun _ _ hw => nomatch hw

theorem issuePriorityPromotion (group : Nat) : Statement (.issuePriorityPromotion group) := fun _ _ hw => nomatch hw

theorem xfPipeGrant (core : Nat) : Statement (.xfPipeGrant core) := fun _ _ hw => nomatch hw

theorem xfPipeReply (core : Nat) : Statement (.xfPipeReply core) := fun _ _ hw => nomatch hw

theorem xfCvt (h : Hdr) (o : OpR) : Statement (.xfCvt h o) := by
  intro _ w hw
  cases hw
  simp only [rawDecode, class_assemble, fn_assemble, BitVec.reduceToNat, rawClassC, hdrOf_assemble, opROf_assemble]

theorem xfQuant (h : Hdr) (o : OpR) : Statement (.xfQuant h o) := by
  intro _ w hw
  cases hw
  simp only [rawDecode, class_assemble, fn_assemble, BitVec.reduceToNat, rawClassC, hdrOf_assemble, opROf_assemble]

theorem xfDequant (h : Hdr) (o : OpR) : Statement (.xfDequant h o) := by
  intro _ w hw
  cases hw
  simp only [rawDecode, class_assemble, fn_assemble, BitVec.reduceToNat, rawClassC, hdrOf_assemble, opROf_assemble]

theorem xfRkey (h : Hdr) (o : OpR) : Statement (.xfRkey h o) := by
  intro _ w hw
  cases hw
  simp only [rawDecode, class_assemble, fn_assemble, BitVec.reduceToNat, rawClassC, hdrOf_assemble, opROf_assemble]

theorem xfHash (h : Hdr) (o : OpR) : Statement (.xfHash h o) := by
  intro _ w hw
  cases hw
  simp only [rawDecode, class_assemble, fn_assemble, BitVec.reduceToNat, rawClassC, hdrOf_assemble, opROf_assemble]

theorem xfPenc (h : Hdr) (o : OpR) : Statement (.xfPenc h o) := by
  intro _ w hw
  cases hw
  simp only [rawDecode, class_assemble, fn_assemble, BitVec.reduceToNat, rawClassC, hdrOf_assemble, opROf_assemble]

theorem mlda (h : Hdr) (o : OpX) : Statement (.mlda h o) := by
  intro _ w hw
  cases hw
  simp only [rawDecode, class_assemble, fn_assemble, BitVec.reduceToNat, rawClassD, hdrOf_assemble, opXOf_assemble]

theorem mldb (h : Hdr) (o : OpX) : Statement (.mldb h o) := by
  intro _ w hw
  cases hw
  simp only [rawDecode, class_assemble, fn_assemble, BitVec.reduceToNat, rawClassD, hdrOf_assemble, opXOf_assemble]

theorem mldbs (h : Hdr) (o : OpX) : Statement (.mldbs h o) := by
  intro _ w hw
  cases hw
  simp only [rawDecode, class_assemble, fn_assemble, BitVec.reduceToNat, rawClassD, hdrOf_assemble, opXOf_assemble]

theorem mscale (h : Hdr) (o : OpX) : Statement (.mscale h o) := by
  intro _ w hw
  cases hw
  simp only [rawDecode, class_assemble, fn_assemble, BitVec.reduceToNat, rawClassD, hdrOf_assemble, opXOf_assemble]

theorem mma (h : Hdr) (o : OpX) : Statement (.mma h o) := by
  intro _ w hw
  cases hw
  simp only [rawDecode, class_assemble, fn_assemble, BitVec.reduceToNat, rawClassD, hdrOf_assemble, opXOf_assemble]

theorem mmaBat (h : Hdr) (o : OpX) : Statement (.mmaBat h o) := by
  intro _ w hw
  cases hw
  simp only [rawDecode, class_assemble, fn_assemble, BitVec.reduceToNat, rawClassD, hdrOf_assemble, opXOf_assemble]

theorem mzero (h : Hdr) (o : OpX) : Statement (.mzero h o) := by
  intro _ w hw
  cases hw
  simp only [rawDecode, class_assemble, fn_assemble, BitVec.reduceToNat, rawClassD, hdrOf_assemble, opXOf_assemble]

theorem mstacc (h : Hdr) (o : OpX) : Statement (.mstacc h o) := by
  intro _ w hw
  cases hw
  simp only [rawDecode, class_assemble, fn_assemble, BitVec.reduceToNat, rawClassD, hdrOf_assemble, opXOf_assemble]

theorem mldacc (h : Hdr) (o : OpX) : Statement (.mldacc h o) := by
  intro _ w hw
  cases hw
  simp only [rawDecode, class_assemble, fn_assemble, BitVec.reduceToNat, rawClassD, hdrOf_assemble, opXOf_assemble]

theorem mloop (h : Hdr) (o : OpX) : Statement (.mloop h o) := by
  intro _ w hw
  cases hw
  simp only [rawDecode, class_assemble, fn_assemble, BitVec.reduceToNat, rawClassD, hdrOf_assemble, opXOf_assemble]

theorem marr (h : Hdr) (o : OpX) : Statement (.marr h o) := by
  intro _ w hw
  cases hw
  simp only [rawDecode, class_assemble, fn_assemble, BitVec.reduceToNat, rawClassD, hdrOf_assemble, opXOf_assemble]

theorem mwait (h : Hdr) (o : OpX) : Statement (.mwait h o) := by
  intro _ w hw
  cases hw
  simp only [rawDecode, class_assemble, fn_assemble, BitVec.reduceToNat, rawClassD, hdrOf_assemble, opXOf_assemble]

theorem mend (h : Hdr) (o : OpX) : Statement (.mend h o) := by
  intro _ w hw
  cases hw
  simp only [rawDecode, class_assemble, fn_assemble, BitVec.reduceToNat, rawClassD, hdrOf_assemble, opXOf_assemble]

theorem matrixArbiterGrant (core : Nat) : Statement (.matrixArbiterGrant core) := fun _ _ hw => nomatch hw

theorem acctagWrite (core : Nat) (tile : Nat) (value : Nat) : Statement (.acctagWrite core tile value) := fun _ _ hw => nomatch hw

theorem accWindowWrite (core : Nat) (tile : Nat) (offset : Nat) (value : Nat) : Statement (.accWindowWrite core tile offset value) := fun _ _ hw => nomatch hw

theorem neval (h : Hdr) (o : OpR) : Statement (.neval h o) := by
  intro _ w hw
  cases hw
  simp only [rawDecode, class_assemble, fn_assemble, BitVec.reduceToNat, rawClassD, hdrOf_assemble, opROf_assemble]

theorem nevstatCnt (h : Hdr) (o : OpR) : Statement (.nevstatCnt h o) := by
  intro hl w hw
  have hb : o.aux = 0 := by
    simp only [Instr.wellFormed, Checks.legal, Bool.and_eq_true, beq_iff_eq] at hl
    exact hl.1.2
  cases hw
  simp only [rawDecode, class_assemble, fn_assemble, BitVec.reduceToNat, rawClassD, hdrOf_assemble, opROf_assemble, aux_assemble _ _ _ _ 0 (by omega), hb]
  rfl

theorem nevstatKick (h : Hdr) (o : OpR) : Statement (.nevstatKick h o) := by
  intro hl w hw
  have hb : o.aux = 1 := by
    simp only [Instr.wellFormed, Checks.legal, Bool.and_eq_true, beq_iff_eq] at hl
    exact hl.1.2
  cases hw
  simp only [rawDecode, class_assemble, fn_assemble, BitVec.reduceToNat, rawClassD, hdrOf_assemble, opROf_assemble, aux_assemble _ _ _ _ 0 (by omega), hb]
  rfl

theorem nevalTimerExpiry (core : Nat) (slot : Nat) : Statement (.nevalTimerExpiry core slot) := fun _ _ hw => nomatch hw

theorem nevalTileFire (core : Nat) : Statement (.nevalTileFire core) := fun _ _ hw => nomatch hw

theorem nevalLayer (core : Nat) (tile : Nat) : Statement (.nevalLayer core tile) := fun _ _ hw => nomatch hw

theorem nevalLanding (core : Nat) (tile : Nat) : Statement (.nevalLanding core tile) := fun _ _ hw => nomatch hw

theorem nvspillbWrite (core : Nat) (value : Nat) : Statement (.nvspillbWrite core value) := fun _ _ hw => nomatch hw

theorem ssnew (h : Hdr) (o : OpG) : Statement (.ssnew h o) := by
  intro _ w hw
  cases hw
  simp only [rawDecode, class_assemble, fn_assemble, BitVec.reduceToNat, rawClassE, hdrOf_assemble, opGOf_assemble]

theorem ssadd (h : Hdr) (o : OpG) : Statement (.ssadd h o) := by
  intro _ w hw
  cases hw
  simp only [rawDecode, class_assemble, fn_assemble, BitVec.reduceToNat, rawClassE, hdrOf_assemble, opGOf_assemble]

theorem ssbuild (h : Hdr) (o : OpG) : Statement (.ssbuild h o) := by
  intro _ w hw
  cases hw
  simp only [rawDecode, class_assemble, fn_assemble, BitVec.reduceToNat, rawClassE, hdrOf_assemble, opGOf_assemble]

theorem ssbind (h : Hdr) (o : OpG) : Statement (.ssbind h o) := by
  intro _ w hw
  cases hw
  simp only [rawDecode, class_assemble, fn_assemble, BitVec.reduceToNat, rawClassE, hdrOf_assemble, opGOf_assemble]

theorem ssrebind (h : Hdr) (o : OpG) : Statement (.ssrebind h o) := by
  intro _ w hw
  cases hw
  simp only [rawDecode, class_assemble, fn_assemble, BitVec.reduceToNat, rawClassE, hdrOf_assemble, opGOf_assemble]

theorem ssfree (h : Hdr) (o : OpG) : Statement (.ssfree h o) := by
  intro _ w hw
  cases hw
  simp only [rawDecode, class_assemble, fn_assemble, BitVec.reduceToNat, rawClassE, hdrOf_assemble, opGOf_assemble]

theorem ssget (h : Hdr) (o : OpG) : Statement (.ssget h o) := by
  intro _ w hw
  cases hw
  simp only [rawDecode, class_assemble, fn_assemble, BitVec.reduceToNat, rawClassE, hdrOf_assemble, opGOf_assemble]

theorem emitv (h : Hdr) (o : OpG) : Statement (.emitv h o) := by
  intro _ w hw
  cases hw
  simp only [rawDecode, class_assemble, fn_assemble, BitVec.reduceToNat, rawClassE, hdrOf_assemble, opGOf_assemble]

theorem emit (h : Hdr) (o : OpG) : Statement (.emit h o) := by
  intro _ w hw
  cases hw
  simp only [rawDecode, class_assemble, fn_assemble, BitVec.reduceToNat, rawClassE, hdrOf_assemble, opGOf_assemble]

theorem emitsp (h : Hdr) (o : OpG) : Statement (.emitsp h o) := by
  intro _ w hw
  cases hw
  simp only [rawDecode, class_assemble, fn_assemble, BitVec.reduceToNat, rawClassE, hdrOf_assemble, opGOf_assemble]

theorem rflush (h : Hdr) (o : OpG) : Statement (.rflush h o) := by
  intro _ w hw
  cases hw
  simp only [rawDecode, class_assemble, fn_assemble, BitVec.reduceToNat, rawClassE, hdrOf_assemble, opGOf_assemble]

theorem fin (h : Hdr) (o : OpG) : Statement (.fin h o) := by
  intro _ w hw
  cases hw
  simp only [rawDecode, class_assemble, fn_assemble, BitVec.reduceToNat, rawClassE, hdrOf_assemble, opGOf_assemble]

theorem fout (h : Hdr) (o : OpG) : Statement (.fout h o) := by
  intro _ w hw
  cases hw
  simp only [rawDecode, class_assemble, fn_assemble, BitVec.reduceToNat, rawClassE, hdrOf_assemble, opGOf_assemble]

theorem fdep (h : Hdr) (o : OpG) : Statement (.fdep h o) := by
  intro _ w hw
  cases hw
  simp only [rawDecode, class_assemble, fn_assemble, BitVec.reduceToNat, rawClassE, hdrOf_assemble, opGOf_assemble]

theorem disc (h : Hdr) (o : OpG) : Statement (.disc h o) := by
  intro _ w hw
  cases hw
  simp only [rawDecode, class_assemble, fn_assemble, BitVec.reduceToNat, rawClassE, hdrOf_assemble, opGOf_assemble]

theorem binnerInsert (die : Nat) : Statement (.binnerInsert die) := fun _ _ hw => nomatch hw

theorem flushComplete (set : Nat) : Statement (.flushComplete set) := fun _ _ hw => nomatch hw

theorem fragmentLaunch (set : Nat) (core : Nat) (base : Nat) : Statement (.fragmentLaunch set core base) := fun _ _ hw => nomatch hw

theorem blendApply (set : Nat) (sample : Nat) : Statement (.blendApply set sample) := fun _ _ hw => nomatch hw

theorem passEnd (set : Nat) : Statement (.passEnd set) := fun _ _ hw => nomatch hw

theorem alm (h : Hdr) (o : OpR) : Statement (.alm h o) := by
  intro _ w hw
  cases hw
  simp only [rawDecode, class_assemble, fn_assemble, BitVec.reduceToNat, rawClassF, hdrOf_assemble, opROf_assemble]

theorem almhz (h : Hdr) (o : OpR) : Statement (.almhz h o) := by
  intro _ w hw
  cases hw
  simp only [rawDecode, class_assemble, fn_assemble, BitVec.reduceToNat, rawClassF, hdrOf_assemble, opROf_assemble]

theorem stcm (h : Hdr) (o : OpM) : Statement (.stcm h o) := by
  intro _ w hw
  cases hw
  simp only [rawDecode, class_assemble, fn_assemble, BitVec.reduceToNat, rawClassF, hdrOf_assemble, opMOf_assemble]

theorem ldasof (h : Hdr) (o : OpR) : Statement (.ldasof h o) := by
  intro _ w hw
  cases hw
  simp only [rawDecode, class_assemble, fn_assemble, BitVec.reduceToNat, rawClassF, hdrOf_assemble, opROf_assemble]

theorem almwait (h : Hdr) (o : OpS) : Statement (.almwait h o) := by
  intro _ w hw
  cases hw
  simp only [rawDecode, class_assemble, fn_assemble, BitVec.reduceToNat, rawClassF, hdrOf_assemble, opSOf_assemble]

theorem stcmRecord (lane : Nat) : Statement (.stcmRecord lane) := fun _ _ hw => nomatch hw

theorem horizonUpdate (copies : List Nat) : Statement (.horizonUpdate copies) := fun _ _ hw => nomatch hw

theorem almanacAdvance (time : Nat) (die : Nat) (e : Nat) (l : Nat) : Statement (.almanacAdvance time die e l) := fun _ _ hw => nomatch hw

theorem almWideTimeout (group : Nat) : Statement (.almWideTimeout group) := fun _ _ hw => nomatch hw

theorem dieSilentTimeout (die : Nat) : Statement (.dieSilentTimeout die) := fun _ _ hw => nomatch hw

theorem lineParityRefetch (core : Nat) (line : Nat) : Statement (.lineParityRefetch core line) := fun _ _ hw => nomatch hw

theorem eventRecordWrite (ctx : Nat) : Statement (.eventRecordWrite ctx) := fun _ _ hw => nomatch hw

theorem replayRecord (ctx : Nat) (seq : Nat) : Statement (.replayRecord ctx seq) := fun _ _ hw => nomatch hw

theorem abandonRecord (ctx : Nat) (seq : Nat) : Statement (.abandonRecord ctx seq) := fun _ _ hw => nomatch hw

theorem tlbSweepStart (value : Nat) : Statement (.tlbSweepStart value) := fun _ _ hw => nomatch hw

theorem tlbSweepDone : Statement .tlbSweepDone := fun _ _ hw => nomatch hw

theorem preemptRequest (value : Nat) : Statement (.preemptRequest value) := fun _ _ hw => nomatch hw

theorem teamSwitchOut (team : Nat) : Statement (.teamSwitchOut team) := fun _ _ hw => nomatch hw

theorem resumeRequest (value : Nat) : Statement (.resumeRequest value) := fun _ _ hw => nomatch hw

theorem teamResume (team : Nat) (core : Nat) (base : Nat) : Statement (.teamResume team core base) := fun _ _ hw => nomatch hw

theorem migrationGo (value : Nat) : Statement (.migrationGo value) := fun _ _ hw => nomatch hw

theorem migrationSwap : Statement .migrationSwap := fun _ _ hw => nomatch hw

theorem bankModeRequest (cluster : Nat) (bank : Nat) (value : Nat) : Statement (.bankModeRequest cluster bank value) := fun _ _ hw => nomatch hw

theorem bankModeChange (cluster : Nat) (bank : Nat) : Statement (.bankModeChange cluster bank) := fun _ _ hw => nomatch hw

theorem bankModeTimeout (cluster : Nat) (bank : Nat) : Statement (.bankModeTimeout cluster bank) := fun _ _ hw => nomatch hw

theorem l2clsWrite (die : Nat) (cls : Nat) (value : Nat) : Statement (.l2clsWrite die cls value) := fun _ _ hw => nomatch hw

theorem contextRegister (value : Nat) : Statement (.contextRegister value) := fun _ _ hw => nomatch hw

theorem contextUnregister (value : Nat) : Statement (.contextUnregister value) := fun _ _ hw => nomatch hw

theorem queueRegister (value : Nat) : Statement (.queueRegister value) := fun _ _ hw => nomatch hw

theorem queueUnregister (value : Nat) : Statement (.queueUnregister value) := fun _ _ hw => nomatch hw

theorem memmapWrite (entry : Nat) (value : Nat) : Statement (.memmapWrite entry value) := fun _ _ hw => nomatch hw

theorem errorCounterClear (die : Nat) (counter : Nat) : Statement (.errorCounterClear die counter) := fun _ _ hw => nomatch hw

theorem hostMemWrite (addr : Nat) (bytes : List Byte) : Statement (.hostMemWrite addr bytes) := fun _ _ hw => nomatch hw

theorem hostMemRead (addr : Nat) (count : Nat) : Statement (.hostMemRead addr count) := fun _ _ hw => nomatch hw

theorem hostCacheInvalidate (addr : Nat) (bytes : List Byte) : Statement (.hostCacheInvalidate addr bytes) := fun _ _ hw => nomatch hw

theorem phoathFlitResend (port : Nat) : Statement (.phoathFlitResend port) := fun _ _ hw => nomatch hw

theorem eccRetry (err : EccError) : Statement (.eccRetry err) := fun _ _ hw => nomatch hw

theorem bootStart (checks : BootChecks) : Statement (.bootStart checks) := fun _ _ hw => nomatch hw

theorem bootWatchdog : Statement .bootWatchdog := fun _ _ hw => nomatch hw

theorem bootctlRestart (value : Nat) : Statement (.bootctlRestart value) := fun _ _ hw => nomatch hw

theorem powerStateRequest (value : Nat) : Statement (.powerStateRequest value) := fun _ _ hw => nomatch hw

theorem registerWrite (offset : Nat) (size : Nat) (value : Nat) : Statement (.registerWrite offset size value) := fun _ _ hw => nomatch hw

theorem phoathRemoteAccess (access : RemoteAccess) : Statement (.phoathRemoteAccess access) := fun _ _ hw => nomatch hw

end Sys2Proof.Laws.Decodes
end

