-- ==== Sys2Proof/Laws/Run.lean ====
section
/-! SUPPORT. Laws of execution: what the shared operations that run an instruction can do, said once. -/

namespace Sys2Proof.Machine

open Sys2Proof.Bits
open Ops

/-! ### Looking up after a change -/

namespace Ops

@[simp] theorem group?_setGroup (s : State) (g : Nat) (x : Group) : group? (setGroup s g x) g = some x := by simp [group?]

theorem group?_modGroup (s : State) (g : Nat) (f : Group → Group) : group? (modGroup s g f) g = (group? s g).map f := by
  simp [group?, Maps.modify_find?]

theorem group?_modGroup_ne (s : State) {g k : Nat} (f : Group → Group) (h : k ≠ g) :
    group? (modGroup s g f) k = group? s k := by simp [group?, Maps.modify_find?_ne f s.groups h]

theorem team?_modTeam (s : State) (t : Nat) (f : Team → Team) : team? (modTeam s t f) t = (team? s t).map f := by
  simp [team?, Maps.modify_find?]

theorem team?_modTeam_ne (s : State) {t k : Nat} (f : Team → Team) (h : k ≠ t) : team? (modTeam s t f) k = team? s k := by
  simp [team?, Maps.modify_find?_ne f s.teams h]

@[simp] theorem team?_modGroup (s : State) (g : Nat) (f : Group → Group) (t : Nat) : team? (modGroup s g f) t = team? s t := rfl

@[simp] theorem group?_modTeam (s : State) (t : Nat) (f : Team → Team) (g : Nat) : group? (modTeam s t f) g = group? s g := rfl

@[simp] theorem readByte_modGroup (s : State) (g : Nat) (f : Group → Group) (a : Nat) : readByte (modGroup s g f) a = readByte s a := rfl

@[simp] theorem readByte_modTeam (s : State) (t : Nat) (f : Team → Team) (a : Nat) : readByte (modTeam s t f) a = readByte s a := rfl

end Ops

/-! ### What `ready` says -/

/-- Everything that `ready` says of its context. -/
theorem ready_spec {s : State} {i : Instr} {h : Hdr} {m : Marks} {os : List Opnd} {ps : List Nat} {c : Ctx}
    (hr : ready s i h m os ps = some c) :
    ∃ c0, ctx? s i h = some c0 ∧ withoutHelpers m c0 = c ∧ c.park = none ∧ stalled c m os ps = false ∧ operandsOk c.g os = true := by
  unfold ready at hr
  split at hr
  · cases hr
  · next c0 hc =>
    simp only [Bool.and_eq_true, Option.isNone_iff_eq_none, Bool.not_eq_eq_eq_not, Bool.not_true] at hr
    split at hr
    · next hh => cases hr; exact ⟨c0, hc, rfl, hh.1.1, hh.1.2, hh.2⟩
    · cases hr

/-- An instruction that is ready ends as its effect ends. -/
theorem run_ready {s : State} {i : Instr} {h : Hdr} {m : Marks} {os : List Opnd} {ps : List Nat} {c : Ctx}
    (hr : ready s i h m os ps = some c) (body : Ctx → Res) : run i h m os ps body s = .next (finish c m os (body c)) := by
  obtain ⟨c0, hc, hw, hp, hs, ho⟩ := ready_spec hr
  unfold run
  simp only [hc, hw, hp, hs, ho]
  rfl

/-- An instruction that is ready and completes with register results. -/
theorem run_done {s : State} {i : Instr} {h : Hdr} {m : Marks} {os : List Opnd} {ps : List Nat} {c : Ctx} {body : Ctx → Res}
    {s1 : State} {w : List RegWrite} {fl : List (Nat × Nat)} (hr : ready s i h m os ps = some c) (hb : body c = .done s1 w fl) :
    run i h m os ps body s = .next (retire c m s1 (nextSlot c.f.pc) w fl) := by
  obtain ⟨_, _, _, hp, _, _⟩ := ready_spec hr
  rw [run_ready hr, hb]
  simp only [finish, hp]

/-- An instruction that is ready and completes with an engine to supply its result. -/
theorem run_issued {s : State} {i : Instr} {h : Hdr} {m : Marks} {os : List Opnd} {ps : List Nat} {c : Ctx} {body : Ctx → Res}
    {s1 : State} (hr : ready s i h m os ps = some c) (hb : body c = .issued s1) :
    run i h m os ps body s = .next (retire { c with h := { c.h with la := 0 } } m s1 (nextSlot c.f.pc) [] []) := by
  obtain ⟨_, _, _, hp, _, _⟩ := ready_spec hr
  rw [run_ready hr, hb]
  simp only [finish, hp]

/-- An instruction that is ready and has placed its fragments. -/
theorem run_moved {s : State} {i : Instr} {h : Hdr} {m : Marks} {os : List Opnd} {ps : List Nat} {c : Ctx} {body : Ctx → Res}
    {s1 : State} (hr : ready s i h m os ps = some c) (hb : body c = .moved s1) :
    run i h m os ps body s = .next (retireMoved c m s1) := by
  rw [run_ready hr, hb]; rfl

/-- An instruction that is ready and waits. -/
theorem run_wait {s : State} {i : Instr} {h : Hdr} {m : Marks} {os : List Opnd} {ps : List Nat} {c : Ctx} {body : Ctx → Res}
    {s1 : State} (hr : ready s i h m os ps = some c) (hb : body c = .wait s1) : run i h m os ps body s = .next s1 := by
  rw [run_ready hr, hb]; rfl

/-- An instruction that is ready and traps, with nothing that holds the delivery back. -/
theorem run_trap {s : State} {i : Instr} {h : Hdr} {m : Marks} {os : List Opnd} {ps : List Nat} {c : Ctx} {body : Ctx → Res}
    {s1 : State} {t : Trap} (hr : ready s i h m os ps = some c) (hb : body c = .trap t s1)
    (ho : trapHeld c.s c.tm c.g c.frag t.code = false) : run i h m os ps body s = .next (takeTrap s1 c.key c.frag t (savedPc t.code c.f.pc) false) := by
  obtain ⟨_, _, _, hp, _, _⟩ := ready_spec hr
  rw [run_ready hr, hb]
  simp only [finish, hp, ho]
  rfl

/-- A trap that cannot be delivered yet leaves everything as it was, or only stands in the instruction's stage. -/
theorem keepTrap_cases (c : Ctx) (t : Trap) (s : State) :
    keepTrap c t s = c.s ∨ keepTrap c t s = setStage c c.s (.trapping t.code t.cause t.lanes t.info) := by
  unfold keepTrap
  split
  · exact .inr rfl
  · exact .inl rfl

/-- The stores that an instruction makes are of its own accesses, at their places (11 R211). -/
theorem lastStores_mem (ps : List (Acc × Place)) :
    ∀ seen, ∀ e ∈ lastStores seen ps, (e.1, e.2.1) ∈ ps := by
  induction ps with
  | nil => intro seen e h; simp [lastStores] at h
  | cons a rest ih =>
    intro seen e h
    simp only [lastStores] at h
    split at h
    · exact List.mem_cons_of_mem _ (ih _ e h)
    · rcases List.mem_cons.1 h with rfl | h
      · exact List.mem_cons_self ..
      · exact List.mem_cons_of_mem _ (ih _ e h)

/-- Being to the same bytes passes on. -/
theorem samePlace_trans : ∀ p q r : Place, samePlace p q = true → samePlace q r = true → samePlace p r = true
  | .mem _ _, .mem _ _, .mem _ _, h, k => by simp only [samePlace, beq_iff_eq] at *; exact h.trans k
  | .scr _ _, .scr _ _, .scr _ _, h, k => by
    simp only [samePlace, Bool.and_eq_true, beq_iff_eq] at *
    exact ⟨h.1.trans k.1, h.2.trans k.2⟩

/-- Of the accesses to one place the last one's store is made, so that each place has one (11 R211). -/
theorem lastStores_one (ps : List (Acc × Place)) :
    ∀ seen, ∀ a ∈ ps, ∃ e ∈ lastStores seen ps, e.2.1 = a.2 ∨ samePlace a.2 e.2.1 = true := by
  induction ps with
  | nil => intro seen a h; cases h
  | cons x rest ih =>
    intro seen a h
    simp only [lastStores]
    split
    · next hx =>
      rcases List.mem_cons.1 h with rfl | h
      · obtain ⟨y, hy, hs⟩ := List.any_eq_true.1 hx
        obtain ⟨e, he, h1⟩ := ih (seen ++ [a]) y hy
        refine ⟨e, he, .inr ?_⟩
        rcases h1 with h1 | h1
        · rw [h1]; exact hs
        · exact samePlace_trans _ _ _ hs h1
      · exact ih _ a h
    · rcases List.mem_cons.1 h with rfl | h
      · exact ⟨_, List.mem_cons_self .., .inl rfl⟩
      · obtain ⟨e, he, h1⟩ := ih (seen ++ [x]) a h
        exact ⟨e, List.mem_cons_of_mem _ he, h1⟩

/-- Everything that an issue-time load can answer with its bytes: it is translated, nothing makes it wait, and its bytes are a
load's of the group (11 R213, 24 R425). -/
theorem issueLoad_ok {c : Ctx} {nd : Needs} {lanes ea n : Nat} {bs : List Byte} {s1 : State} (h : issueLoad c nd lanes ea n = .ok (bs, s1)) :
    ∃ pa leaf s, issueTr c c.s nd lanes ea = .ok (pa, leaf, s) ∧ readWaits s c.tm.core pa leaf n = false ∧
      s1 = (loadMem s c.tm.core pa leaf n false).2 ∧
        bs = overlayGroup s1 c.key none (shownTo s c.tm.core pa leaf) pa (loadMem s c.tm.core pa leaf n false).1 := by
  unfold issueLoad at h
  split at h
  · cases h
  · next pa leaf s ht =>
    split at h
    · cases h
    · next hw =>
      injection h with h
      injection h with h1 h2
      exact ⟨pa, leaf, s, ht, by simpa using hw, h2.symm, by rw [← h2]; exact h1.symm⟩

/-- The checks of an address pass when every address is canonical and aligned (12 R234). -/
theorem addrFault_none {s : State} {as : List Acc} : addrFault s as = none ↔
    failing as (fun a => canonical a.ea) = 0 ∧ failing as (fun a => a.ea % a.n == 0) = 0 := by
  unfold addrFault
  by_cases h1 : failing as (fun a => canonical a.ea) = 0 <;> by_cases h2 : failing as (fun a => a.ea % a.n == 0) = 0 <;> simp [h1, h2]

/-- Issue-time translations of several pages let their instruction go on exactly when each of them succeeds (21 R397). -/
theorem issueFails_none {s : State} {nd : Needs} {lanes : Nat} {ts : List (Acc × Tr)} :
    issueFails s nd lanes ts = none ↔ ∀ e ∈ ts, trOk e.2 = true := by
  simp [issueFails, List.find?_eq_none]

/-- An access that is open before a release is open (11 R219). -/
theorem accessOpen_of_accessBefore {s : State} {key id : Nat} (h : accessBefore s key id = true) : accessOpen s key = true := by
  unfold accessBefore accessSince at h
  unfold accessOpen accessSince
  split at h
  · cases h
  · next g hg =>
    simp only [Bool.or_eq_true, List.any_eq_true, Bool.and_eq_true] at h ⊢
    exact h.imp (fun ⟨e, he, hb, _⟩ => ⟨e, he, hb, trivial⟩) (fun ⟨q, hq, hb, _⟩ => ⟨q, hq, hb, trivial⟩)

/-- A group instruction answers a next state, or no agent executes. -/
theorem run_cases (i : Instr) (h : Hdr) (m : Marks) (os : List Opnd) (ps : List Nat) (body : Ctx → Res) (s : State) :
    run i h m os ps body s = .fault .noAgent ∨ ∃ t, run i h m os ps body s = .next t := by
  unfold run
  split
  · exact .inl rfl
  · exact .inr ⟨_, rfl⟩

/-- A stream instruction answers a next state, or no agent executes. -/
theorem runSeq_cases (o : OpX) (arrives : Bool) (body : Nat → Team → Seq → State → SRes) (s : State) :
    runSeq o arrives body s = .fault .noAgent ∨ ∃ t, runSeq o arrives body s = .next t := by
  unfold runSeq
  repeat' split
  all_goals first
    | exact .inl rfl
    | exact .inr ⟨_, rfl⟩

/-- A stream instruction that is ready ends as its effect ends. -/
theorem runSeq_ready {s : State} {o : OpX} {arrives : Bool} {t : Nat} {tm : Team} {q : Seq} {s1 : State}
    (hr : streamReady s o arrives = some (t, tm, q, s1)) (body : Nat → Team → Seq → State → SRes) :
    runSeq o arrives body s = .next (finishSeq t tm.ctx (body t tm q s1)) := by
  cases hc : s.cur with
  | seq t' =>
    cases ht : team? s t' with
    | none => simp only [streamReady, hc, ht] at hr; cases hr
    | some tm' =>
      cases hq : tm'.seq with
      | none => simp only [streamReady, hc, ht, hq] at hr; cases hr
      | some q' =>
        simp only [streamReady, hc, ht, hq] at hr
        simp only [runSeq, hc, ht, hq]
        unfold runSeqOf
        by_cases hi : (seqIdle tm' q' || (o.rpe && decide (24 ≤ o.rp.toNat))) = true
        · rw [if_pos hi] at hr; cases hr
        · rw [if_neg hi] at hr
          simp only [Bool.or_eq_true, not_or, Bool.not_eq_true] at hi
          by_cases hg : (!o.rpe || arrives || q'.waited) = true
          · rw [if_pos hg] at hr
            cases hr
            simp only [hi.1, hi.2, hg]
            rfl
          · rw [if_neg hg] at hr
            by_cases hd : phaseDone (rp tm' o.rp.toNat) (sphOf q' o.rp.toNat) = true
            · rw [if_pos hd] at hr
              cases hr
              simp only [hi.1, hi.2, hg, hd]
              rfl
            · rw [if_neg hd] at hr; cases hr
  | _ => simp only [streamReady, hc] at hr; cases hr

/-! ### Retiring -/

/-- Completing changes the instruction's own group and nothing else. -/
theorem retire_frame (c : Ctx) (m : Marks) (s : State) (pc : DWord) (w : List RegWrite) (fl : List (Nat × Nat)) :
    ∃ f, retire c m s pc w fl = modGroup s c.key f := ⟨_, rfl⟩

/-- The same for an instruction that has placed its fragments. -/
theorem retireMoved_frame (c : Ctx) (m : Marks) (s : State) : ∃ f, retireMoved c m s = modGroup s c.key f := ⟨_, rfl⟩

@[simp] theorem retire_mem (c : Ctx) (m : Marks) (s : State) (pc : DWord) (w : List RegWrite) (fl : List (Nat × Nat)) :
    (retire c m s pc w fl).mem = s.mem := rfl

@[simp] theorem retireMoved_mem (c : Ctx) (m : Marks) (s : State) : (retireMoved c m s).mem = s.mem := rfl

end Sys2Proof.Machine
end

