-- ==== Sys2Proof/Laws/Shape.lean ====
section
/-! SUPPORT. Every group instruction is one run over its shape: its marks, its operands and predicates, and an effect. The
lemma of a constructor says so of its meaning; `exec_run` of all of them. -/

namespace Sys2Proof.Machine

open Ops

/-- A meaning is one run over a shape. -/
def RunsOver (i : Instr) (x : Shape) : Prop :=
  ∃ body, ∀ s, exec i s = run i x.hdr x.marks x.opnds x.preds body s

theorem runs_nop (h : Hdr) (o : OpS) {x : Shape} (hx : shapeOf (.nop h o) = some x) : RunsOver (.nop h o) x := by
  cases hx
  exact ⟨_, fun s => Eq.refl (execNop h o s)⟩

theorem runs_brk (h : Hdr) (o : OpS) {x : Shape} (hx : shapeOf (.brk h o) = some x) : RunsOver (.brk h o) x := by
  cases hx
  exact ⟨_, fun s => Eq.refl (execBrk h o s)⟩

theorem runs_sread (h : Hdr) (o : OpS) {x : Shape} (hx : shapeOf (.sread h o) = some x) : RunsOver (.sread h o) x := by
  cases hx
  exact ⟨_, fun s => Eq.refl (execSread h o s)⟩

theorem runs_swrite (h : Hdr) (o : OpS) {x : Shape} (hx : shapeOf (.swrite h o) = some x) : RunsOver (.swrite h o) x := by
  cases hx
  exact ⟨_, fun s => Eq.refl (execSwrite h o s)⟩

theorem runs_cycrd (h : Hdr) (o : OpR) {x : Shape} (hx : shapeOf (.cycrd h o) = some x) : RunsOver (.cycrd h o) x := by
  cases hx
  exact ⟨_, fun s => Eq.refl (execCycrd h o s)⟩

theorem runs_hint (h : Hdr) (o : OpS) {x : Shape} (hx : shapeOf (.hint h o) = some x) : RunsOver (.hint h o) x := by
  cases hx
  exact ⟨_, fun s => Eq.refl (execHint h o s)⟩

theorem runs_trap (h : Hdr) (o : OpS) {x : Shape} (hx : shapeOf (.trap h o) = some x) : RunsOver (.trap h o) x := by
  cases hx
  exact ⟨_, fun s => Eq.refl (execTrap h o s)⟩

theorem runs_rett (h : Hdr) (o : OpS) {x : Shape} (hx : shapeOf (.rett h o) = some x) : RunsOver (.rett h o) x := by
  cases hx
  exact ⟨_, fun s => Eq.refl (execRett h o s)⟩

theorem runs_rgn (h : Hdr) (o : OpS) {x : Shape} (hx : shapeOf (.rgn h o) = some x) : RunsOver (.rgn h o) x := by
  cases hx
  exact ⟨_, fun s => Eq.refl (execRgn h o s)⟩

theorem runs_rgnend (h : Hdr) (o : OpS) {x : Shape} (hx : shapeOf (.rgnend h o) = some x) : RunsOver (.rgnend h o) x := by
  cases hx
  exact ⟨_, fun s => Eq.refl (execRgnend h o s)⟩

theorem runs_bra (h : Hdr) (o : OpB) {x : Shape} (hx : shapeOf (.bra h o) = some x) : RunsOver (.bra h o) x := by
  cases hx
  exact ⟨_, fun s => Eq.refl (execBra h o s)⟩

theorem runs_brall (h : Hdr) (o : OpB) {x : Shape} (hx : shapeOf (.brall h o) = some x) : RunsOver (.brall h o) x := by
  cases hx
  apply Exists.intro
  intro s
  change execBrall h o s = _
  unfold execBrall branchAll
  exact rfl

theorem runs_brany (h : Hdr) (o : OpB) {x : Shape} (hx : shapeOf (.brany h o) = some x) : RunsOver (.brany h o) x := by
  cases hx
  apply Exists.intro
  intro s
  change execBrany h o s = _
  unfold execBrany branchAll
  exact rfl

theorem runs_brx (h : Hdr) (o : OpB) {x : Shape} (hx : shapeOf (.brx h o) = some x) : RunsOver (.brx h o) x := by
  cases hx
  apply Exists.intro
  intro s
  change execBrx h o s = _
  unfold execBrx branchX
  exact rfl

theorem runs_call (h : Hdr) (o : OpB) {x : Shape} (hx : shapeOf (.call h o) = some x) : RunsOver (.call h o) x := by
  cases hx
  exact ⟨_, fun s => Eq.refl (execCall h o s)⟩

theorem runs_callx (h : Hdr) (o : OpB) {x : Shape} (hx : shapeOf (.callx h o) = some x) : RunsOver (.callx h o) x := by
  cases hx
  exact ⟨_, fun s => Eq.refl (execCallx h o s)⟩

theorem runs_ret (h : Hdr) (o : OpB) {x : Shape} (hx : shapeOf (.ret h o) = some x) : RunsOver (.ret h o) x := by
  cases hx
  apply Exists.intro
  intro s
  change execRet h o s = _
  unfold execRet branchX
  exact rfl

theorem runs_loop (h : Hdr) (o : OpB) {x : Shape} (hx : shapeOf (.loop h o) = some x) : RunsOver (.loop h o) x := by
  cases hx
  exact ⟨_, fun s => Eq.refl (execLoop h o s)⟩

theorem runs_mrg (h : Hdr) (o : OpB) {x : Shape} (hx : shapeOf (.mrg h o) = some x) : RunsOver (.mrg h o) x := by
  cases hx
  exact ⟨_, fun s => Eq.refl (execMrg h o s)⟩

theorem runs_mrgx (h : Hdr) (o : OpB) {x : Shape} (hx : shapeOf (.mrgx h o) = some x) : RunsOver (.mrgx h o) x := by
  cases hx
  exact ⟨_, fun s => Eq.refl (execMrgx h o s)⟩

theorem runs_add (h : Hdr) (o : OpR) {x : Shape} (hx : shapeOf (.add h o) = some x) : RunsOver (.add h o) x := by
  cases hx
  apply Exists.intro
  intro s
  change execAdd h o s = _
  unfold execAdd binaryR
  exact rfl

theorem runs_addc (h : Hdr) (o : OpR) {x : Shape} (hx : shapeOf (.addc h o) = some x) : RunsOver (.addc h o) x := by
  cases hx
  apply Exists.intro
  intro s
  change execAddc h o s = _
  unfold execAddc carryR
  exact rfl

theorem runs_sub (h : Hdr) (o : OpR) {x : Shape} (hx : shapeOf (.sub h o) = some x) : RunsOver (.sub h o) x := by
  cases hx
  apply Exists.intro
  intro s
  change execSub h o s = _
  unfold execSub binaryR
  exact rfl

theorem runs_subb (h : Hdr) (o : OpR) {x : Shape} (hx : shapeOf (.subb h o) = some x) : RunsOver (.subb h o) x := by
  cases hx
  apply Exists.intro
  intro s
  change execSubb h o s = _
  unfold execSubb carryR
  exact rfl

theorem runs_addi (h : Hdr) (o : OpI) {x : Shape} (hx : shapeOf (.addi h o) = some x) : RunsOver (.addi h o) x := by
  cases hx
  apply Exists.intro
  intro s
  change execAddi h o s = _
  unfold execAddi 
  exact rfl

theorem runs_mul (h : Hdr) (o : OpR) {x : Shape} (hx : shapeOf (.mul h o) = some x) : RunsOver (.mul h o) x := by
  cases hx
  apply Exists.intro
  intro s
  change execMul h o s = _
  unfold execMul binaryR
  exact rfl

theorem runs_mulhi (h : Hdr) (o : OpR) {x : Shape} (hx : shapeOf (.mulhi h o) = some x) : RunsOver (.mulhi h o) x := by
  cases hx
  apply Exists.intro
  intro s
  change execMulhi h o s = _
  unfold execMulhi binaryR
  exact rfl

theorem runs_mulw (h : Hdr) (o : OpR) {x : Shape} (hx : shapeOf (.mulw h o) = some x) : RunsOver (.mulw h o) x := by
  cases hx
  exact ⟨_, fun s => Eq.refl (execMulw h o s)⟩

theorem runs_mad (h : Hdr) (o : OpR) {x : Shape} (hx : shapeOf (.mad h o) = some x) : RunsOver (.mad h o) x := by
  cases hx
  apply Exists.intro
  intro s
  change execMad h o s = _
  unfold execMad ternaryR
  exact rfl

theorem runs_madw (h : Hdr) (o : OpR) {x : Shape} (hx : shapeOf (.madw h o) = some x) : RunsOver (.madw h o) x := by
  cases hx
  exact ⟨_, fun s => Eq.refl (execMadw h o s)⟩

theorem runs_div (h : Hdr) (o : OpR) {x : Shape} (hx : shapeOf (.div h o) = some x) : RunsOver (.div h o) x := by
  cases hx
  apply Exists.intro
  intro s
  change execDiv h o s = _
  unfold execDiv divideR
  exact rfl

theorem runs_rem (h : Hdr) (o : OpR) {x : Shape} (hx : shapeOf (.rem h o) = some x) : RunsOver (.rem h o) x := by
  cases hx
  apply Exists.intro
  intro s
  change execRem h o s = _
  unfold execRem divideR
  exact rfl

theorem runs_divrem (h : Hdr) (o : OpR) {x : Shape} (hx : shapeOf (.divrem h o) = some x) : RunsOver (.divrem h o) x := by
  cases hx
  apply Exists.intro
  intro s
  change execDivrem h o s = _
  unfold execDivrem divideR
  exact rfl

theorem runs_min (h : Hdr) (o : OpR) {x : Shape} (hx : shapeOf (.min h o) = some x) : RunsOver (.min h o) x := by
  cases hx
  apply Exists.intro
  intro s
  change execMin h o s = _
  unfold execMin binaryR
  exact rfl

theorem runs_max (h : Hdr) (o : OpR) {x : Shape} (hx : shapeOf (.max h o) = some x) : RunsOver (.max h o) x := by
  cases hx
  apply Exists.intro
  intro s
  change execMax h o s = _
  unfold execMax binaryR
  exact rfl

theorem runs_clamp (h : Hdr) (o : OpR) {x : Shape} (hx : shapeOf (.clamp h o) = some x) : RunsOver (.clamp h o) x := by
  cases hx
  apply Exists.intro
  intro s
  change execClamp h o s = _
  unfold execClamp ternaryR
  exact rfl

theorem runs_abs (h : Hdr) (o : OpR) {x : Shape} (hx : shapeOf (.abs h o) = some x) : RunsOver (.abs h o) x := by
  cases hx
  apply Exists.intro
  intro s
  change execAbs h o s = _
  unfold execAbs unaryR
  exact rfl

theorem runs_sad (h : Hdr) (o : OpR) {x : Shape} (hx : shapeOf (.sad h o) = some x) : RunsOver (.sad h o) x := by
  cases hx
  apply Exists.intro
  intro s
  change execSad h o s = _
  unfold execSad ternaryR
  exact rfl

theorem runs_dot4 (h : Hdr) (o : OpR) {x : Shape} (hx : shapeOf (.dot4 h o) = some x) : RunsOver (.dot4 h o) x := by
  cases hx
  apply Exists.intro
  intro s
  change execDot4 h o s = _
  unfold execDot4 ternaryS
  exact rfl

theorem runs_dot2 (h : Hdr) (o : OpR) {x : Shape} (hx : shapeOf (.dot2 h o) = some x) : RunsOver (.dot2 h o) x := by
  cases hx
  apply Exists.intro
  intro s
  change execDot2 h o s = _
  unfold execDot2 ternaryS
  exact rfl

theorem runs_lea (h : Hdr) (o : OpR) {x : Shape} (hx : shapeOf (.lea h o) = some x) : RunsOver (.lea h o) x := by
  cases hx
  exact ⟨_, fun s => Eq.refl (execLea h o s)⟩

theorem runs_leai (h : Hdr) (o : OpI) {x : Shape} (hx : shapeOf (.leai h o) = some x) : RunsOver (.leai h o) x := by
  cases hx
  exact ⟨_, fun s => Eq.refl (execLeai h o s)⟩

theorem runs_and (h : Hdr) (o : OpR) {x : Shape} (hx : shapeOf (.and h o) = some x) : RunsOver (.and h o) x := by
  cases hx
  apply Exists.intro
  intro s
  change execAnd h o s = _
  unfold execAnd binaryR
  exact rfl

theorem runs_or (h : Hdr) (o : OpR) {x : Shape} (hx : shapeOf (.or h o) = some x) : RunsOver (.or h o) x := by
  cases hx
  apply Exists.intro
  intro s
  change execOr h o s = _
  unfold execOr binaryR
  exact rfl

theorem runs_xor (h : Hdr) (o : OpR) {x : Shape} (hx : shapeOf (.xor h o) = some x) : RunsOver (.xor h o) x := by
  cases hx
  apply Exists.intro
  intro s
  change execXor h o s = _
  unfold execXor binaryR
  exact rfl

theorem runs_not (h : Hdr) (o : OpR) {x : Shape} (hx : shapeOf (.not h o) = some x) : RunsOver (.not h o) x := by
  cases hx
  apply Exists.intro
  intro s
  change execNot h o s = _
  unfold execNot unaryR
  exact rfl

theorem runs_tern (h : Hdr) (o : OpR) {x : Shape} (hx : shapeOf (.tern h o) = some x) : RunsOver (.tern h o) x := by
  cases hx
  apply Exists.intro
  intro s
  change execTern h o s = _
  unfold execTern ternaryR
  exact rfl

theorem runs_bini (h : Hdr) (o : OpI) {x : Shape} (hx : shapeOf (.bini h o) = some x) : RunsOver (.bini h o) x := by
  cases hx
  apply Exists.intro
  intro s
  change execBini h o s = _
  unfold execBini 
  exact rfl

theorem runs_shl (h : Hdr) (o : OpR) {x : Shape} (hx : shapeOf (.shl h o) = some x) : RunsOver (.shl h o) x := by
  cases hx
  apply Exists.intro
  intro s
  change execShl h o s = _
  unfold execShl shiftR
  exact rfl

theorem runs_shr (h : Hdr) (o : OpR) {x : Shape} (hx : shapeOf (.shr h o) = some x) : RunsOver (.shr h o) x := by
  cases hx
  apply Exists.intro
  intro s
  change execShr h o s = _
  unfold execShr shiftR
  exact rfl

theorem runs_sra (h : Hdr) (o : OpR) {x : Shape} (hx : shapeOf (.sra h o) = some x) : RunsOver (.sra h o) x := by
  cases hx
  apply Exists.intro
  intro s
  change execSra h o s = _
  unfold execSra shiftR
  exact rfl

theorem runs_fsl (h : Hdr) (o : OpR) {x : Shape} (hx : shapeOf (.fsl h o) = some x) : RunsOver (.fsl h o) x := by
  cases hx
  apply Exists.intro
  intro s
  change execFsl h o s = _
  unfold execFsl funnelR
  exact rfl

theorem runs_fsr (h : Hdr) (o : OpR) {x : Shape} (hx : shapeOf (.fsr h o) = some x) : RunsOver (.fsr h o) x := by
  cases hx
  apply Exists.intro
  intro s
  change execFsr h o s = _
  unfold execFsr funnelR
  exact rfl

theorem runs_popc (h : Hdr) (o : OpR) {x : Shape} (hx : shapeOf (.popc h o) = some x) : RunsOver (.popc h o) x := by
  cases hx
  apply Exists.intro
  intro s
  change execPopc h o s = _
  unfold execPopc countR
  exact rfl

theorem runs_clz (h : Hdr) (o : OpR) {x : Shape} (hx : shapeOf (.clz h o) = some x) : RunsOver (.clz h o) x := by
  cases hx
  apply Exists.intro
  intro s
  change execClz h o s = _
  unfold execClz countR
  exact rfl

theorem runs_brev (h : Hdr) (o : OpR) {x : Shape} (hx : shapeOf (.brev h o) = some x) : RunsOver (.brev h o) x := by
  cases hx
  apply Exists.intro
  intro s
  change execBrev h o s = _
  unfold execBrev unaryR
  exact rfl

theorem runs_bfx (h : Hdr) (o : OpR) {x : Shape} (hx : shapeOf (.bfx h o) = some x) : RunsOver (.bfx h o) x := by
  cases hx
  apply Exists.intro
  intro s
  change execBfx h o s = _
  unfold execBfx 
  exact rfl

theorem runs_bfi (h : Hdr) (o : OpR) {x : Shape} (hx : shapeOf (.bfi h o) = some x) : RunsOver (.bfi h o) x := by
  cases hx
  apply Exists.intro
  intro s
  change execBfi h o s = _
  unfold execBfi 
  exact rfl

theorem runs_perm (h : Hdr) (o : OpR) {x : Shape} (hx : shapeOf (.perm h o) = some x) : RunsOver (.perm h o) x := by
  cases hx
  apply Exists.intro
  intro s
  change execPerm h o s = _
  unfold execPerm ternaryS
  exact rfl

theorem runs_setp (h : Hdr) (o : OpR) {x : Shape} (hx : shapeOf (.setp h o) = some x) : RunsOver (.setp h o) x := by
  cases hx
  apply Exists.intro
  intro s
  change execSetp h o s = _
  unfold execSetp 
  exact rfl

theorem runs_setpi (h : Hdr) (o : OpI) {x : Shape} (hx : shapeOf (.setpi h o) = some x) : RunsOver (.setpi h o) x := by
  cases hx
  apply Exists.intro
  intro s
  change execSetpi h o s = _
  unfold execSetpi 
  exact rfl

theorem runs_fsetp (h : Hdr) (o : OpR) {x : Shape} (hx : shapeOf (.fsetp h o) = some x) : RunsOver (.fsetp h o) x := by
  cases hx
  exact ⟨_, fun s => Eq.refl (execFsetp h o s)⟩

theorem runs_plop (h : Hdr) (o : OpR) {x : Shape} (hx : shapeOf (.plop h o) = some x) : RunsOver (.plop h o) x := by
  cases hx
  exact ⟨_, fun s => Eq.refl (execPlop h o s)⟩

theorem runs_sel (h : Hdr) (o : OpR) {x : Shape} (hx : shapeOf (.sel h o) = some x) : RunsOver (.sel h o) x := by
  cases hx
  apply Exists.intro
  intro s
  change execSel h o s = _
  unfold execSel 
  exact rfl

theorem runs_seli (h : Hdr) (o : OpI) {x : Shape} (hx : shapeOf (.seli h o) = some x) : RunsOver (.seli h o) x := by
  cases hx
  exact ⟨_, fun s => Eq.refl (execSeli h o s)⟩

theorem runs_mov (h : Hdr) (o : OpR) {x : Shape} (hx : shapeOf (.mov h o) = some x) : RunsOver (.mov h o) x := by
  cases hx
  apply Exists.intro
  intro s
  change execMov h o s = _
  unfold execMov 
  exact rfl

theorem runs_movi (h : Hdr) (o : OpI) {x : Shape} (hx : shapeOf (.movi h o) = some x) : RunsOver (.movi h o) x := by
  cases hx
  apply Exists.intro
  intro s
  change execMovi h o s = _
  unfold execMovi 
  exact rfl

theorem runs_p2r (h : Hdr) (o : OpR) {x : Shape} (hx : shapeOf (.p2r h o) = some x) : RunsOver (.p2r h o) x := by
  cases hx
  exact ⟨_, fun s => Eq.refl (execP2r h o s)⟩

theorem runs_regToPred (h : Hdr) (o : OpR) {x : Shape} (hx : shapeOf (.regToPred h o) = some x) : RunsOver (.regToPred h o) x := by
  cases hx
  apply Exists.intro
  intro s
  change execRegToPred h o s = _
  unfold execRegToPred 
  exact rfl

theorem runs_fadd (h : Hdr) (o : OpR) {x : Shape} (hx : shapeOf (.fadd h o) = some x) : RunsOver (.fadd h o) x := by
  cases hx
  apply Exists.intro
  intro s
  change execFadd h o s = _
  unfold execFadd float2
  exact rfl

theorem runs_fsub (h : Hdr) (o : OpR) {x : Shape} (hx : shapeOf (.fsub h o) = some x) : RunsOver (.fsub h o) x := by
  cases hx
  apply Exists.intro
  intro s
  change execFsub h o s = _
  unfold execFsub float2
  exact rfl

theorem runs_fmul (h : Hdr) (o : OpR) {x : Shape} (hx : shapeOf (.fmul h o) = some x) : RunsOver (.fmul h o) x := by
  cases hx
  apply Exists.intro
  intro s
  change execFmul h o s = _
  unfold execFmul float2
  exact rfl

theorem runs_fma (h : Hdr) (o : OpR) {x : Shape} (hx : shapeOf (.fma h o) = some x) : RunsOver (.fma h o) x := by
  cases hx
  apply Exists.intro
  intro s
  change execFma h o s = _
  unfold execFma float3
  exact rfl

theorem runs_fmin (h : Hdr) (o : OpR) {x : Shape} (hx : shapeOf (.fmin h o) = some x) : RunsOver (.fmin h o) x := by
  cases hx
  apply Exists.intro
  intro s
  change execFmin h o s = _
  unfold execFmin float2
  exact rfl

theorem runs_fmax (h : Hdr) (o : OpR) {x : Shape} (hx : shapeOf (.fmax h o) = some x) : RunsOver (.fmax h o) x := by
  cases hx
  apply Exists.intro
  intro s
  change execFmax h o s = _
  unfold execFmax float2
  exact rfl

theorem runs_frnd (h : Hdr) (o : OpR) {x : Shape} (hx : shapeOf (.frnd h o) = some x) : RunsOver (.frnd h o) x := by
  cases hx
  apply Exists.intro
  intro s
  change execFrnd h o s = _
  unfold execFrnd float1
  exact rfl

theorem runs_fclass (h : Hdr) (o : OpR) {x : Shape} (hx : shapeOf (.fclass h o) = some x) : RunsOver (.fclass h o) x := by
  cases hx
  exact ⟨_, fun s => Eq.refl (execFclass h o s)⟩

theorem runs_fadd2 (h : Hdr) (o : OpR) {x : Shape} (hx : shapeOf (.fadd2 h o) = some x) : RunsOver (.fadd2 h o) x := by
  cases hx
  apply Exists.intro
  intro s
  change execFadd2 h o s = _
  unfold execFadd2 packedR
  exact rfl

theorem runs_fmul2 (h : Hdr) (o : OpR) {x : Shape} (hx : shapeOf (.fmul2 h o) = some x) : RunsOver (.fmul2 h o) x := by
  cases hx
  apply Exists.intro
  intro s
  change execFmul2 h o s = _
  unfold execFmul2 packedR
  exact rfl

theorem runs_fma2 (h : Hdr) (o : OpR) {x : Shape} (hx : shapeOf (.fma2 h o) = some x) : RunsOver (.fma2 h o) x := by
  cases hx
  apply Exists.intro
  intro s
  change execFma2 h o s = _
  unfold execFma2 packedR
  exact rfl

theorem runs_fdot2 (h : Hdr) (o : OpR) {x : Shape} (hx : shapeOf (.fdot2 h o) = some x) : RunsOver (.fdot2 h o) x := by
  cases hx
  apply Exists.intro
  intro s
  change execFdot2 h o s = _
  unfold execFdot2 float3
  exact rfl

theorem runs_fex2 (h : Hdr) (o : OpR) {x : Shape} (hx : shapeOf (.fex2 h o) = some x) : RunsOver (.fex2 h o) x := by
  cases hx
  apply Exists.intro
  intro s
  change execFex2 h o s = _
  unfold execFex2 float1
  exact rfl

theorem runs_flg2 (h : Hdr) (o : OpR) {x : Shape} (hx : shapeOf (.flg2 h o) = some x) : RunsOver (.flg2 h o) x := by
  cases hx
  apply Exists.intro
  intro s
  change execFlg2 h o s = _
  unfold execFlg2 float1
  exact rfl

theorem runs_frcp (h : Hdr) (o : OpR) {x : Shape} (hx : shapeOf (.frcp h o) = some x) : RunsOver (.frcp h o) x := by
  cases hx
  apply Exists.intro
  intro s
  change execFrcp h o s = _
  unfold execFrcp float1
  exact rfl

theorem runs_frsq (h : Hdr) (o : OpR) {x : Shape} (hx : shapeOf (.frsq h o) = some x) : RunsOver (.frsq h o) x := by
  cases hx
  apply Exists.intro
  intro s
  change execFrsq h o s = _
  unfold execFrsq float1
  exact rfl

theorem runs_fsin (h : Hdr) (o : OpR) {x : Shape} (hx : shapeOf (.fsin h o) = some x) : RunsOver (.fsin h o) x := by
  cases hx
  apply Exists.intro
  intro s
  change execFsin h o s = _
  unfold execFsin float1
  exact rfl

theorem runs_fcos (h : Hdr) (o : OpR) {x : Shape} (hx : shapeOf (.fcos h o) = some x) : RunsOver (.fcos h o) x := by
  cases hx
  apply Exists.intro
  intro s
  change execFcos h o s = _
  unfold execFcos float1
  exact rfl

theorem runs_cvt (h : Hdr) (o : OpR) {x : Shape} (hx : shapeOf (.cvt h o) = some x) : RunsOver (.cvt h o) x := by
  cases hx
  apply Exists.intro
  intro s
  change execCvt h o s = _
  unfold execCvt 
  exact rfl

theorem runs_pack (h : Hdr) (o : OpR) {x : Shape} (hx : shapeOf (.pack h o) = some x) : RunsOver (.pack h o) x := by
  cases hx
  exact ⟨_, fun s => Eq.refl (execPack h o s)⟩

theorem runs_unpack (h : Hdr) (o : OpR) {x : Shape} (hx : shapeOf (.unpack h o) = some x) : RunsOver (.unpack h o) x := by
  cases hx
  exact ⟨_, fun s => Eq.refl (execUnpack h o s)⟩

theorem runs_quant (h : Hdr) (o : OpR) {x : Shape} (hx : shapeOf (.quant h o) = some x) : RunsOver (.quant h o) x := by
  cases hx
  exact ⟨_, fun s => Eq.refl (execQuant h o s)⟩

theorem runs_dequant (h : Hdr) (o : OpR) {x : Shape} (hx : shapeOf (.dequant h o) = some x) : RunsOver (.dequant h o) x := by
  cases hx
  exact ⟨_, fun s => Eq.refl (execDequant h o s)⟩

theorem runs_pack4 (h : Hdr) (o : OpR) {x : Shape} (hx : shapeOf (.pack4 h o) = some x) : RunsOver (.pack4 h o) x := by
  cases hx
  exact ⟨_, fun s => Eq.refl (execPack4 h o s)⟩

theorem runs_shfl (h : Hdr) (o : OpR) {x : Shape} (hx : shapeOf (.shfl h o) = some x) : RunsOver (.shfl h o) x := by
  cases hx
  apply Exists.intro
  intro s
  change execShfl h o s = _
  unfold execShfl 
  exact rfl

theorem runs_shfli (h : Hdr) (o : OpI) {x : Shape} (hx : shapeOf (.shfli h o) = some x) : RunsOver (.shfli h o) x := by
  cases hx
  apply Exists.intro
  intro s
  change execShfli h o s = _
  unfold execShfli 
  exact rfl

theorem runs_vote (h : Hdr) (o : OpR) {x : Shape} (hx : shapeOf (.vote h o) = some x) : RunsOver (.vote h o) x := by
  cases hx
  exact ⟨_, fun s => Eq.refl (execVote h o s)⟩

theorem runs_pmask (h : Hdr) (o : OpR) {x : Shape} (hx : shapeOf (.pmask h o) = some x) : RunsOver (.pmask h o) x := by
  cases hx
  exact ⟨_, fun s => Eq.refl (execPmask h o s)⟩

theorem runs_lfold (h : Hdr) (o : OpR) {x : Shape} (hx : shapeOf (.lfold h o) = some x) : RunsOver (.lfold h o) x := by
  cases hx
  apply Exists.intro
  intro s
  change execLfold h o s = _
  unfold execLfold 
  exact rfl

theorem runs_matchLanes (h : Hdr) (o : OpR) {x : Shape} (hx : shapeOf (.matchLanes h o) = some x) : RunsOver (.matchLanes h o) x := by
  cases hx
  apply Exists.intro
  intro s
  change execMatchLanes h o s = _
  unfold execMatchLanes 
  exact rfl

theorem runs_rdlane (h : Hdr) (o : OpR) {x : Shape} (hx : shapeOf (.rdlane h o) = some x) : RunsOver (.rdlane h o) x := by
  cases hx
  apply Exists.intro
  intro s
  change execRdlane h o s = _
  unfold execRdlane 
  exact rfl

theorem runs_ddx (h : Hdr) (o : OpR) {x : Shape} (hx : shapeOf (.ddx h o) = some x) : RunsOver (.ddx h o) x := by
  cases hx
  apply Exists.intro
  intro s
  change execDdx h o s = _
  unfold execDdx derivative
  exact rfl

theorem runs_ddy (h : Hdr) (o : OpR) {x : Shape} (hx : shapeOf (.ddy h o) = some x) : RunsOver (.ddy h o) x := by
  cases hx
  apply Exists.intro
  intro s
  change execDdy h o s = _
  unfold execDdy derivative
  exact rfl

theorem runs_rpinit (h : Hdr) (o : OpI) {x : Shape} (hx : shapeOf (.rpinit h o) = some x) : RunsOver (.rpinit h o) x := by
  cases hx
  exact ⟨_, fun s => Eq.refl (execRpinit h o s)⟩

theorem runs_rparr (h : Hdr) (o : OpR) {x : Shape} (hx : shapeOf (.rparr h o) = some x) : RunsOver (.rparr h o) x := by
  cases hx
  exact ⟨_, fun s => Eq.refl (execRparr h o s)⟩

theorem runs_rpwait (h : Hdr) (o : OpR) {x : Shape} (hx : shapeOf (.rpwait h o) = some x) : RunsOver (.rpwait h o) x := by
  cases hx
  exact ⟨_, fun s => Eq.refl (execRpwait h o s)⟩

theorem runs_rparw (h : Hdr) (o : OpR) {x : Shape} (hx : shapeOf (.rparw h o) = some x) : RunsOver (.rparw h o) x := by
  cases hx
  exact ⟨_, fun s => Eq.refl (execRparw h o s)⟩

theorem runs_rpbytes (h : Hdr) (o : OpR) {x : Shape} (hx : shapeOf (.rpbytes h o) = some x) : RunsOver (.rpbytes h o) x := by
  cases hx
  exact ⟨_, fun s => Eq.refl (execRpbytes h o s)⟩

theorem runs_yield (h : Hdr) (o : OpS) {x : Shape} (hx : shapeOf (.yield h o) = some x) : RunsOver (.yield h o) x := by
  cases hx
  exact ⟨_, fun s => Eq.refl (execYield h o s)⟩

theorem runs_yieldto (h : Hdr) (o : OpB) {x : Shape} (hx : shapeOf (.yieldto h o) = some x) : RunsOver (.yieldto h o) x := by
  cases hx
  exact ⟨_, fun s => Eq.refl (execYieldto h o s)⟩

theorem runs_sleep (h : Hdr) (o : OpS) {x : Shape} (hx : shapeOf (.sleep h o) = some x) : RunsOver (.sleep h o) x := by
  cases hx
  exact ⟨_, fun s => Eq.refl (execSleep h o s)⟩

theorem runs_exit (h : Hdr) (o : OpS) {x : Shape} (hx : shapeOf (.exit h o) = some x) : RunsOver (.exit h o) x := by
  cases hx
  exact ⟨_, fun s => Eq.refl (execExit h o s)⟩

theorem runs_ld (h : Hdr) (o : OpM) {x : Shape} (hx : shapeOf (.ld h o) = some x) : RunsOver (.ld h o) x := by
  cases hx
  apply Exists.intro
  intro s
  change execLd h o s = _
  unfold execLd 
  exact rfl

theorem runs_st (h : Hdr) (o : OpM) {x : Shape} (hx : shapeOf (.st h o) = some x) : RunsOver (.st h o) x := by
  cases hx
  apply Exists.intro
  intro s
  change execSt h o s = _
  unfold execSt 
  exact rfl

theorem runs_ldacq (h : Hdr) (o : OpM) {x : Shape} (hx : shapeOf (.ldacq h o) = some x) : RunsOver (.ldacq h o) x := by
  cases hx
  apply Exists.intro
  intro s
  change execLdacq h o s = _
  unfold execLdacq 
  exact rfl

theorem runs_strel (h : Hdr) (o : OpM) {x : Shape} (hx : shapeOf (.strel h o) = some x) : RunsOver (.strel h o) x := by
  cases hx
  apply Exists.intro
  intro s
  change execStrel h o s = _
  unfold execStrel 
  exact rfl

theorem runs_ldk (h : Hdr) (o : OpM) {x : Shape} (hx : shapeOf (.ldk h o) = some x) : RunsOver (.ldk h o) x := by
  cases hx
  apply Exists.intro
  intro s
  change execLdk h o s = _
  unfold execLdk 
  exact rfl

theorem runs_stk (h : Hdr) (o : OpM) {x : Shape} (hx : shapeOf (.stk h o) = some x) : RunsOver (.stk h o) x := by
  cases hx
  apply Exists.intro
  intro s
  change execStk h o s = _
  unfold execStk 
  exact rfl

theorem runs_ldw (h : Hdr) (o : OpM) {x : Shape} (hx : shapeOf (.ldw h o) = some x) : RunsOver (.ldw h o) x := by
  cases hx
  apply Exists.intro
  intro s
  change execLdw h o s = _
  unfold execLdw 
  exact rfl

theorem runs_stw (h : Hdr) (o : OpM) {x : Shape} (hx : shapeOf (.stw h o) = some x) : RunsOver (.stw h o) x := by
  cases hx
  apply Exists.intro
  intro s
  change execStw h o s = _
  unfold execStw 
  exact rfl

theorem runs_fpush (h : Hdr) (o : OpM) {x : Shape} (hx : shapeOf (.fpush h o) = some x) : RunsOver (.fpush h o) x := by
  cases hx
  exact ⟨_, fun s => Eq.refl (execFpush h o s)⟩

theorem runs_fpop (h : Hdr) (o : OpM) {x : Shape} (hx : shapeOf (.fpop h o) = some x) : RunsOver (.fpop h o) x := by
  cases hx
  exact ⟨_, fun s => Eq.refl (execFpop h o s)⟩

theorem runs_fpeek (h : Hdr) (o : OpM) {x : Shape} (hx : shapeOf (.fpeek h o) = some x) : RunsOver (.fpeek h o) x := by
  cases hx
  exact ⟨_, fun s => Eq.refl (execFpeek h o s)⟩

theorem runs_pref (h : Hdr) (o : OpM) {x : Shape} (hx : shapeOf (.pref h o) = some x) : RunsOver (.pref h o) x := by
  cases hx
  exact ⟨_, fun s => Eq.refl (execPref h o s)⟩

theorem runs_atom (h : Hdr) (o : OpM) {x : Shape} (hx : shapeOf (.atom h o) = some x) : RunsOver (.atom h o) x := by
  cases hx
  apply Exists.intro
  intro s
  change execAtom h o s = _
  unfold execAtom 
  exact rfl

theorem runs_atomcas (h : Hdr) (o : OpM) {x : Shape} (hx : shapeOf (.atomcas h o) = some x) : RunsOver (.atomcas h o) x := by
  cases hx
  apply Exists.intro
  intro s
  change execAtomcas h o s = _
  unfold execAtomcas 
  exact rfl

theorem runs_atomf (h : Hdr) (o : OpM) {x : Shape} (hx : shapeOf (.atomf h o) = some x) : RunsOver (.atomf h o) x := by
  cases hx
  exact ⟨_, fun s => Eq.refl (execAtomf h o s)⟩

theorem runs_red (h : Hdr) (o : OpM) {x : Shape} (hx : shapeOf (.red h o) = some x) : RunsOver (.red h o) x := by
  cases hx
  exact ⟨_, fun s => Eq.refl (execRed h o s)⟩

theorem runs_redDet (h : Hdr) (o : OpM) {x : Shape} (hx : shapeOf (.redDet h o) = some x) : RunsOver (.redDet h o) x := by
  cases hx
  exact ⟨_, fun s => Eq.refl (execRedDet h o s)⟩

theorem runs_redf (h : Hdr) (o : OpM) {x : Shape} (hx : shapeOf (.redf h o) = some x) : RunsOver (.redf h o) x := by
  cases hx
  exact ⟨_, fun s => Eq.refl (execRedf h o s)⟩

theorem runs_redfDet (h : Hdr) (o : OpM) {x : Shape} (hx : shapeOf (.redfDet h o) = some x) : RunsOver (.redfDet h o) x := by
  cases hx
  exact ⟨_, fun s => Eq.refl (execRedfDet h o s)⟩

theorem runs_dflush (h : Hdr) (o : OpS) {x : Shape} (hx : shapeOf (.dflush h o) = some x) : RunsOver (.dflush h o) x := by
  cases hx
  exact ⟨_, fun s => Eq.refl (execDflush h o s)⟩

theorem runs_fenceAcq (h : Hdr) (o : OpS) {x : Shape} (hx : shapeOf (.fenceAcq h o) = some x) : RunsOver (.fenceAcq h o) x := by
  cases hx
  exact ⟨_, fun s => Eq.refl (execFenceAcq h o s)⟩

theorem runs_fenceRel (h : Hdr) (o : OpS) {x : Shape} (hx : shapeOf (.fenceRel h o) = some x) : RunsOver (.fenceRel h o) x := by
  cases hx
  exact ⟨_, fun s => Eq.refl (execFenceRel h o s)⟩

theorem runs_fenceAr (h : Hdr) (o : OpS) {x : Shape} (hx : shapeOf (.fenceAr h o) = some x) : RunsOver (.fenceAr h o) x := by
  cases hx
  exact ⟨_, fun s => Eq.refl (execFenceAr h o s)⟩

theorem runs_fenceSmp (h : Hdr) (o : OpS) {x : Shape} (hx : shapeOf (.fenceSmp h o) = some x) : RunsOver (.fenceSmp h o) x := by
  cases hx
  exact ⟨_, fun s => Eq.refl (execFenceSmp h o s)⟩

theorem runs_fwait (h : Hdr) (o : OpS) {x : Shape} (hx : shapeOf (.fwait h o) = some x) : RunsOver (.fwait h o) x := by
  cases hx
  exact ⟨_, fun s => Eq.refl (execFwait h o s)⟩

theorem runs_ngath (h : Hdr) (o : OpM) {x : Shape} (hx : shapeOf (.ngath h o) = some x) : RunsOver (.ngath h o) x := by
  cases hx
  apply Exists.intro
  intro s
  change execNgath h o s = _
  unfold execNgath 
  exact rfl

theorem runs_nscat (h : Hdr) (o : OpM) {x : Shape} (hx : shapeOf (.nscat h o) = some x) : RunsOver (.nscat h o) x := by
  cases hx
  apply Exists.intro
  intro s
  change execNscat h o s = _
  unfold execNscat 
  exact rfl

theorem runs_cwb (h : Hdr) (o : OpM) {x : Shape} (hx : shapeOf (.cwb h o) = some x) : RunsOver (.cwb h o) x := by
  cases hx
  exact ⟨_, fun s => Eq.refl (execCwb h o s)⟩

theorem runs_cinv (h : Hdr) (o : OpM) {x : Shape} (hx : shapeOf (.cinv h o) = some x) : RunsOver (.cinv h o) x := by
  cases hx
  exact ⟨_, fun s => Eq.refl (execCinv h o s)⟩

theorem runs_cdisc (h : Hdr) (o : OpM) {x : Shape} (hx : shapeOf (.cdisc h o) = some x) : RunsOver (.cdisc h o) x := by
  cases hx
  apply Exists.intro
  intro s
  change execCdisc h o s = _
  unfold execCdisc 
  exact rfl

theorem runs_icinv (h : Hdr) (o : OpM) {x : Shape} (hx : shapeOf (.icinv h o) = some x) : RunsOver (.icinv h o) x := by
  cases hx
  exact ⟨_, fun s => Eq.refl (execIcinv h o s)⟩

theorem runs_cpy (h : Hdr) (o : OpR) {x : Shape} (hx : shapeOf (.cpy h o) = some x) : RunsOver (.cpy h o) x := by
  cases hx
  exact ⟨_, fun s => Eq.refl (execCpy h o s)⟩

theorem runs_cpyo (h : Hdr) (o : OpR) {x : Shape} (hx : shapeOf (.cpyo h o) = some x) : RunsOver (.cpyo h o) x := by
  cases hx
  apply Exists.intro
  intro s
  change execCpyo h o s = _
  unfold execCpyo 
  exact rfl

theorem runs_cpyq (h : Hdr) (o : OpR) {x : Shape} (hx : shapeOf (.cpyq h o) = some x) : RunsOver (.cpyq h o) x := by
  cases hx
  exact ⟨_, fun s => Eq.refl (execCpyq h o s)⟩

theorem runs_halloc (h : Hdr) (o : OpR) {x : Shape} (hx : shapeOf (.halloc h o) = some x) : RunsOver (.halloc h o) x := by
  cases hx
  exact ⟨_, fun s => Eq.refl (execHalloc h o s)⟩

theorem runs_hfree (h : Hdr) (o : OpR) {x : Shape} (hx : shapeOf (.hfree h o) = some x) : RunsOver (.hfree h o) x := by
  cases hx
  exact ⟨_, fun s => Eq.refl (execHfree h o s)⟩

theorem runs_hwaitTake (h : Hdr) (o : OpR) {x : Shape} (hx : shapeOf (.hwaitTake h o) = some x) : RunsOver (.hwaitTake h o) x := by
  cases hx
  exact ⟨_, fun s => Eq.refl (execHwaitTake h o s)⟩

theorem runs_hwaitPeek (h : Hdr) (o : OpR) {x : Shape} (hx : shapeOf (.hwaitPeek h o) = some x) : RunsOver (.hwaitPeek h o) x := by
  cases hx
  exact ⟨_, fun s => Eq.refl (execHwaitPeek h o s)⟩

theorem runs_hstat (h : Hdr) (o : OpR) {x : Shape} (hx : shapeOf (.hstat h o) = some x) : RunsOver (.hstat h o) x := by
  cases hx
  exact ⟨_, fun s => Eq.refl (execHstat h o s)⟩

theorem runs_publish (h : Hdr) (o : OpR) {x : Shape} (hx : shapeOf (.publish h o) = some x) : RunsOver (.publish h o) x := by
  cases hx
  exact ⟨_, fun s => Eq.refl (execPublish h o s)⟩

theorem runs_xfCvt (h : Hdr) (o : OpR) {x : Shape} (hx : shapeOf (.xfCvt h o) = some x) : RunsOver (.xfCvt h o) x := by
  cases hx
  apply Exists.intro
  intro s
  change execXfCvt h o s = _
  unfold execXfCvt runXf
  exact rfl

theorem runs_xfQuant (h : Hdr) (o : OpR) {x : Shape} (hx : shapeOf (.xfQuant h o) = some x) : RunsOver (.xfQuant h o) x := by
  cases hx
  apply Exists.intro
  intro s
  change execXfQuant h o s = _
  unfold execXfQuant runXf
  exact rfl

theorem runs_xfDequant (h : Hdr) (o : OpR) {x : Shape} (hx : shapeOf (.xfDequant h o) = some x) : RunsOver (.xfDequant h o) x := by
  cases hx
  apply Exists.intro
  intro s
  change execXfDequant h o s = _
  unfold execXfDequant runXf
  exact rfl

theorem runs_xfRkey (h : Hdr) (o : OpR) {x : Shape} (hx : shapeOf (.xfRkey h o) = some x) : RunsOver (.xfRkey h o) x := by
  cases hx
  apply Exists.intro
  intro s
  change execXfRkey h o s = _
  unfold execXfRkey runXf
  exact rfl

theorem runs_xfHash (h : Hdr) (o : OpR) {x : Shape} (hx : shapeOf (.xfHash h o) = some x) : RunsOver (.xfHash h o) x := by
  cases hx
  apply Exists.intro
  intro s
  change execXfHash h o s = _
  unfold execXfHash runXf
  exact rfl

theorem runs_xfPenc (h : Hdr) (o : OpR) {x : Shape} (hx : shapeOf (.xfPenc h o) = some x) : RunsOver (.xfPenc h o) x := by
  cases hx
  apply Exists.intro
  intro s
  change execXfPenc h o s = _
  unfold execXfPenc runXf
  exact rfl

theorem runs_neval (h : Hdr) (o : OpR) {x : Shape} (hx : shapeOf (.neval h o) = some x) : RunsOver (.neval h o) x := by
  cases hx
  exact ⟨_, fun s => Eq.refl (execNeval h o s)⟩

theorem runs_nevstatCnt (h : Hdr) (o : OpR) {x : Shape} (hx : shapeOf (.nevstatCnt h o) = some x) : RunsOver (.nevstatCnt h o) x := by
  cases hx
  exact ⟨_, fun s => Eq.refl (execNevstatCnt h o s)⟩

theorem runs_nevstatKick (h : Hdr) (o : OpR) {x : Shape} (hx : shapeOf (.nevstatKick h o) = some x) : RunsOver (.nevstatKick h o) x := by
  cases hx
  exact ⟨_, fun s => Eq.refl (execNevstatKick h o s)⟩

theorem runs_ssnew (h : Hdr) (o : OpG) {x : Shape} (hx : shapeOf (.ssnew h o) = some x) : RunsOver (.ssnew h o) x := by
  cases hx
  exact ⟨_, fun s => Eq.refl (execSsnew h o s)⟩

theorem runs_ssadd (h : Hdr) (o : OpG) {x : Shape} (hx : shapeOf (.ssadd h o) = some x) : RunsOver (.ssadd h o) x := by
  cases hx
  exact ⟨_, fun s => Eq.refl (execSsadd h o s)⟩

theorem runs_ssbuild (h : Hdr) (o : OpG) {x : Shape} (hx : shapeOf (.ssbuild h o) = some x) : RunsOver (.ssbuild h o) x := by
  cases hx
  exact ⟨_, fun s => Eq.refl (execSsbuild h o s)⟩

theorem runs_ssbind (h : Hdr) (o : OpG) {x : Shape} (hx : shapeOf (.ssbind h o) = some x) : RunsOver (.ssbind h o) x := by
  cases hx
  exact ⟨_, fun s => Eq.refl (execSsbind h o s)⟩

theorem runs_ssrebind (h : Hdr) (o : OpG) {x : Shape} (hx : shapeOf (.ssrebind h o) = some x) : RunsOver (.ssrebind h o) x := by
  cases hx
  exact ⟨_, fun s => Eq.refl (execSsrebind h o s)⟩

theorem runs_ssfree (h : Hdr) (o : OpG) {x : Shape} (hx : shapeOf (.ssfree h o) = some x) : RunsOver (.ssfree h o) x := by
  cases hx
  exact ⟨_, fun s => Eq.refl (execSsfree h o s)⟩

theorem runs_ssget (h : Hdr) (o : OpG) {x : Shape} (hx : shapeOf (.ssget h o) = some x) : RunsOver (.ssget h o) x := by
  cases hx
  exact ⟨_, fun s => Eq.refl (execSsget h o s)⟩

theorem runs_emitv (h : Hdr) (o : OpG) {x : Shape} (hx : shapeOf (.emitv h o) = some x) : RunsOver (.emitv h o) x := by
  cases hx
  exact ⟨_, fun s => Eq.refl (execEmitv h o s)⟩

theorem runs_emit (h : Hdr) (o : OpG) {x : Shape} (hx : shapeOf (.emit h o) = some x) : RunsOver (.emit h o) x := by
  cases hx
  exact ⟨_, fun s => Eq.refl (execEmit h o s)⟩

theorem runs_emitsp (h : Hdr) (o : OpG) {x : Shape} (hx : shapeOf (.emitsp h o) = some x) : RunsOver (.emitsp h o) x := by
  cases hx
  exact ⟨_, fun s => Eq.refl (execEmitsp h o s)⟩

theorem runs_rflush (h : Hdr) (o : OpG) {x : Shape} (hx : shapeOf (.rflush h o) = some x) : RunsOver (.rflush h o) x := by
  cases hx
  exact ⟨_, fun s => Eq.refl (execRflush h o s)⟩

theorem runs_fin (h : Hdr) (o : OpG) {x : Shape} (hx : shapeOf (.fin h o) = some x) : RunsOver (.fin h o) x := by
  cases hx
  apply Exists.intro
  intro s
  change execFin h o s = _
  unfold execFin 
  exact rfl

theorem runs_fout (h : Hdr) (o : OpG) {x : Shape} (hx : shapeOf (.fout h o) = some x) : RunsOver (.fout h o) x := by
  cases hx
  apply Exists.intro
  intro s
  change execFout h o s = _
  unfold execFout 
  exact rfl

theorem runs_fdep (h : Hdr) (o : OpG) {x : Shape} (hx : shapeOf (.fdep h o) = some x) : RunsOver (.fdep h o) x := by
  cases hx
  exact ⟨_, fun s => Eq.refl (execFdep h o s)⟩

theorem runs_disc (h : Hdr) (o : OpG) {x : Shape} (hx : shapeOf (.disc h o) = some x) : RunsOver (.disc h o) x := by
  cases hx
  exact ⟨_, fun s => Eq.refl (execDisc h o s)⟩

theorem runs_alm (h : Hdr) (o : OpR) {x : Shape} (hx : shapeOf (.alm h o) = some x) : RunsOver (.alm h o) x := by
  cases hx
  exact ⟨_, fun s => Eq.refl (execAlm h o s)⟩

theorem runs_almhz (h : Hdr) (o : OpR) {x : Shape} (hx : shapeOf (.almhz h o) = some x) : RunsOver (.almhz h o) x := by
  cases hx
  exact ⟨_, fun s => Eq.refl (execAlmhz h o s)⟩

theorem runs_stcm (h : Hdr) (o : OpM) {x : Shape} (hx : shapeOf (.stcm h o) = some x) : RunsOver (.stcm h o) x := by
  cases hx
  exact ⟨_, fun s => Eq.refl (execStcm h o s)⟩

theorem runs_ldasof (h : Hdr) (o : OpR) {x : Shape} (hx : shapeOf (.ldasof h o) = some x) : RunsOver (.ldasof h o) x := by
  cases hx
  exact ⟨_, fun s => Eq.refl (execLdasof h o s)⟩

theorem runs_almwait (h : Hdr) (o : OpS) {x : Shape} (hx : shapeOf (.almwait h o) = some x) : RunsOver (.almwait h o) x := by
  cases hx
  exact ⟨_, fun s => Eq.refl (execAlmwait h o s)⟩

/-- The meaning of a group instruction is one run over its shape. -/
theorem exec_run {i : Instr} {x : Shape} (hx : shapeOf i = some x) : RunsOver i x := by
  cases i
  case nop h o => exact runs_nop h o hx
  case brk h o => exact runs_brk h o hx
  case sread h o => exact runs_sread h o hx
  case swrite h o => exact runs_swrite h o hx
  case cycrd h o => exact runs_cycrd h o hx
  case hint h o => exact runs_hint h o hx
  case trap h o => exact runs_trap h o hx
  case rett h o => exact runs_rett h o hx
  case rgn h o => exact runs_rgn h o hx
  case rgnend h o => exact runs_rgnend h o hx
  case bra h o => exact runs_bra h o hx
  case brall h o => exact runs_brall h o hx
  case brany h o => exact runs_brany h o hx
  case brx h o => exact runs_brx h o hx
  case call h o => exact runs_call h o hx
  case callx h o => exact runs_callx h o hx
  case ret h o => exact runs_ret h o hx
  case loop h o => exact runs_loop h o hx
  case mrg h o => exact runs_mrg h o hx
  case mrgx h o => exact runs_mrgx h o hx
  case add h o => exact runs_add h o hx
  case addc h o => exact runs_addc h o hx
  case sub h o => exact runs_sub h o hx
  case subb h o => exact runs_subb h o hx
  case addi h o => exact runs_addi h o hx
  case mul h o => exact runs_mul h o hx
  case mulhi h o => exact runs_mulhi h o hx
  case mulw h o => exact runs_mulw h o hx
  case mad h o => exact runs_mad h o hx
  case madw h o => exact runs_madw h o hx
  case div h o => exact runs_div h o hx
  case rem h o => exact runs_rem h o hx
  case divrem h o => exact runs_divrem h o hx
  case min h o => exact runs_min h o hx
  case max h o => exact runs_max h o hx
  case clamp h o => exact runs_clamp h o hx
  case abs h o => exact runs_abs h o hx
  case sad h o => exact runs_sad h o hx
  case dot4 h o => exact runs_dot4 h o hx
  case dot2 h o => exact runs_dot2 h o hx
  case lea h o => exact runs_lea h o hx
  case leai h o => exact runs_leai h o hx
  case and h o => exact runs_and h o hx
  case or h o => exact runs_or h o hx
  case xor h o => exact runs_xor h o hx
  case not h o => exact runs_not h o hx
  case tern h o => exact runs_tern h o hx
  case bini h o => exact runs_bini h o hx
  case shl h o => exact runs_shl h o hx
  case shr h o => exact runs_shr h o hx
  case sra h o => exact runs_sra h o hx
  case fsl h o => exact runs_fsl h o hx
  case fsr h o => exact runs_fsr h o hx
  case popc h o => exact runs_popc h o hx
  case clz h o => exact runs_clz h o hx
  case brev h o => exact runs_brev h o hx
  case bfx h o => exact runs_bfx h o hx
  case bfi h o => exact runs_bfi h o hx
  case perm h o => exact runs_perm h o hx
  case setp h o => exact runs_setp h o hx
  case setpi h o => exact runs_setpi h o hx
  case fsetp h o => exact runs_fsetp h o hx
  case plop h o => exact runs_plop h o hx
  case sel h o => exact runs_sel h o hx
  case seli h o => exact runs_seli h o hx
  case mov h o => exact runs_mov h o hx
  case movi h o => exact runs_movi h o hx
  case p2r h o => exact runs_p2r h o hx
  case regToPred h o => exact runs_regToPred h o hx
  case fadd h o => exact runs_fadd h o hx
  case fsub h o => exact runs_fsub h o hx
  case fmul h o => exact runs_fmul h o hx
  case fma h o => exact runs_fma h o hx
  case fmin h o => exact runs_fmin h o hx
  case fmax h o => exact runs_fmax h o hx
  case frnd h o => exact runs_frnd h o hx
  case fclass h o => exact runs_fclass h o hx
  case fadd2 h o => exact runs_fadd2 h o hx
  case fmul2 h o => exact runs_fmul2 h o hx
  case fma2 h o => exact runs_fma2 h o hx
  case fdot2 h o => exact runs_fdot2 h o hx
  case fex2 h o => exact runs_fex2 h o hx
  case flg2 h o => exact runs_flg2 h o hx
  case frcp h o => exact runs_frcp h o hx
  case frsq h o => exact runs_frsq h o hx
  case fsin h o => exact runs_fsin h o hx
  case fcos h o => exact runs_fcos h o hx
  case cvt h o => exact runs_cvt h o hx
  case pack h o => exact runs_pack h o hx
  case unpack h o => exact runs_unpack h o hx
  case quant h o => exact runs_quant h o hx
  case dequant h o => exact runs_dequant h o hx
  case pack4 h o => exact runs_pack4 h o hx
  case shfl h o => exact runs_shfl h o hx
  case shfli h o => exact runs_shfli h o hx
  case vote h o => exact runs_vote h o hx
  case pmask h o => exact runs_pmask h o hx
  case lfold h o => exact runs_lfold h o hx
  case matchLanes h o => exact runs_matchLanes h o hx
  case rdlane h o => exact runs_rdlane h o hx
  case ddx h o => exact runs_ddx h o hx
  case ddy h o => exact runs_ddy h o hx
  case rpinit h o => exact runs_rpinit h o hx
  case rparr h o => exact runs_rparr h o hx
  case rpwait h o => exact runs_rpwait h o hx
  case rparw h o => exact runs_rparw h o hx
  case rpbytes h o => exact runs_rpbytes h o hx
  case yield h o => exact runs_yield h o hx
  case yieldto h o => exact runs_yieldto h o hx
  case sleep h o => exact runs_sleep h o hx
  case exit h o => exact runs_exit h o hx
  case ld h o => exact runs_ld h o hx
  case st h o => exact runs_st h o hx
  case ldacq h o => exact runs_ldacq h o hx
  case strel h o => exact runs_strel h o hx
  case ldk h o => exact runs_ldk h o hx
  case stk h o => exact runs_stk h o hx
  case ldw h o => exact runs_ldw h o hx
  case stw h o => exact runs_stw h o hx
  case fpush h o => exact runs_fpush h o hx
  case fpop h o => exact runs_fpop h o hx
  case fpeek h o => exact runs_fpeek h o hx
  case pref h o => exact runs_pref h o hx
  case atom h o => exact runs_atom h o hx
  case atomcas h o => exact runs_atomcas h o hx
  case atomf h o => exact runs_atomf h o hx
  case red h o => exact runs_red h o hx
  case redDet h o => exact runs_redDet h o hx
  case redf h o => exact runs_redf h o hx
  case redfDet h o => exact runs_redfDet h o hx
  case dflush h o => exact runs_dflush h o hx
  case fenceAcq h o => exact runs_fenceAcq h o hx
  case fenceRel h o => exact runs_fenceRel h o hx
  case fenceAr h o => exact runs_fenceAr h o hx
  case fenceSmp h o => exact runs_fenceSmp h o hx
  case fwait h o => exact runs_fwait h o hx
  case ngath h o => exact runs_ngath h o hx
  case nscat h o => exact runs_nscat h o hx
  case cwb h o => exact runs_cwb h o hx
  case cinv h o => exact runs_cinv h o hx
  case cdisc h o => exact runs_cdisc h o hx
  case icinv h o => exact runs_icinv h o hx
  case cpy h o => exact runs_cpy h o hx
  case cpyo h o => exact runs_cpyo h o hx
  case cpyq h o => exact runs_cpyq h o hx
  case halloc h o => exact runs_halloc h o hx
  case hfree h o => exact runs_hfree h o hx
  case hwaitTake h o => exact runs_hwaitTake h o hx
  case hwaitPeek h o => exact runs_hwaitPeek h o hx
  case hstat h o => exact runs_hstat h o hx
  case publish h o => exact runs_publish h o hx
  case xfCvt h o => exact runs_xfCvt h o hx
  case xfQuant h o => exact runs_xfQuant h o hx
  case xfDequant h o => exact runs_xfDequant h o hx
  case xfRkey h o => exact runs_xfRkey h o hx
  case xfHash h o => exact runs_xfHash h o hx
  case xfPenc h o => exact runs_xfPenc h o hx
  case neval h o => exact runs_neval h o hx
  case nevstatCnt h o => exact runs_nevstatCnt h o hx
  case nevstatKick h o => exact runs_nevstatKick h o hx
  case ssnew h o => exact runs_ssnew h o hx
  case ssadd h o => exact runs_ssadd h o hx
  case ssbuild h o => exact runs_ssbuild h o hx
  case ssbind h o => exact runs_ssbind h o hx
  case ssrebind h o => exact runs_ssrebind h o hx
  case ssfree h o => exact runs_ssfree h o hx
  case ssget h o => exact runs_ssget h o hx
  case emitv h o => exact runs_emitv h o hx
  case emit h o => exact runs_emit h o hx
  case emitsp h o => exact runs_emitsp h o hx
  case rflush h o => exact runs_rflush h o hx
  case fin h o => exact runs_fin h o hx
  case fout h o => exact runs_fout h o hx
  case fdep h o => exact runs_fdep h o hx
  case disc h o => exact runs_disc h o hx
  case alm h o => exact runs_alm h o hx
  case almhz h o => exact runs_almhz h o hx
  case stcm h o => exact runs_stcm h o hx
  case ldasof h o => exact runs_ldasof h o hx
  case almwait h o => exact runs_almwait h o hx
  all_goals cases hx

end Sys2Proof.Machine
end

