-- ==== Sys2Proof/Tests/Slice0.lean ====
section
/-! SUPPORT. The author's own tests: words written out from the encoding tables of the spec, ill-formed terms that the
checks refuse, states that meet the hypotheses of the statements, and results that the spec's worked programs give. -/

namespace Sys2Proof.Tests

open Sys2Proof.Machine Sys2Proof.Machine.Ops Sys2Proof.Bits Sys2Proof.Claims

set_option Elab.async false

/-! ### Words (02 R44, R54 to R60; 05 R106) -/

/-- The word decodes to the instruction in a line of its kind, and is its encoding. -/
def wordOk (e : Bool × IWord × Instr) : Bool := decide (decode e.1 e.2.1 = .ok e.2.2) && decide (encode e.2.2 = some e.2.1)

/-- Class 0x0. -/
def words0 : List (Bool × IWord × Instr) :=
  [ (false, 0x0002_C500_0000_0000_0000_0000, .nop ⟨0, true, 3, 0, 5, 0⟩ ⟨0, 0, 0⟩),
    (false, 0x0042_C500_89AB_CDEF_0000_0000, .brk ⟨0, true, 3, 0, 5, 0⟩ ⟨0x89ABCDEF, 0, 0⟩),
    (false, 0x0082_C500_0000_0000_0001_1B17, .sread ⟨0, true, 3, 0, 5, 0⟩ ⟨0, 0x8D, 0x117⟩),
    (false, 0x00C2_C500_0000_0000_0001_1B17, .swrite ⟨0, true, 3, 0, 5, 0⟩ ⟨0, 0x8D, 0x117⟩),
    (false, 0x0102_C500_0000_0000_0000_002A, .cycrd ⟨0, true, 3, 0, 5, 0⟩ ⟨0, false, 0, 0, 0, 0, 0x2A⟩),
    (false, 0x0142_C500_89AB_CDEF_0000_0000, .hint ⟨0, true, 3, 0, 5, 0⟩ ⟨0x89ABCDEF, 0, 0⟩),
    (false, 0x0182_C500_89AB_CDEF_0000_0000, .trap ⟨0, true, 3, 0, 5, 0⟩ ⟨0x89ABCDEF, 0, 0⟩),
    (false, 0x01C2_C500_0000_0000_0000_0000, .rett ⟨0, true, 3, 0, 5, 0⟩ ⟨0, 0, 0⟩),
    (false, 0x0202_C500_0000_05A3_0000_0000, .rgn ⟨0, true, 3, 0, 5, 0⟩ ⟨0x5A3, 0, 0⟩),
    (false, 0x0242_C500_0000_0000_0000_0000, .rgnend ⟨0, true, 3, 0, 5, 0⟩ ⟨0, 0, 0⟩) ]

/-- Class 0x1. -/
def words1 : List (Bool × IWord × Instr) :=
  [ (false, 0x1002_C500_89AB_CDEF_6000_0000, .bra ⟨0, true, 3, 0, 5, 0⟩ ⟨0x89ABCDEF, 3, 0, 0⟩),
    (false, 0x1042_C500_89AB_CDEF_6000_0000, .brall ⟨0, true, 3, 0, 5, 0⟩ ⟨0x89ABCDEF, 3, 0, 0⟩),
    (false, 0x1082_C500_89AB_CDEF_6000_0000, .brany ⟨0, true, 3, 0, 5, 0⟩ ⟨0x89ABCDEF, 3, 0, 0⟩),
    (false, 0x10C2_C500_0000_0000_0000_0116, .brx ⟨0, true, 3, 0, 5, 0⟩ ⟨0, 0, 0, 0x116⟩),
    (false, 0x1102_C500_89AB_CDEF_6001_6800, .call ⟨0, true, 3, 0, 5, 0⟩ ⟨0x89ABCDEF, 3, 0xB4, 0⟩),
    (false, 0x1142_C500_0000_0000_0001_6916, .callx ⟨0, true, 3, 0, 5, 0⟩ ⟨0, 0, 0xB4, 0x116⟩),
    (false, 0x1182_C500_0000_0000_0000_0116, .ret ⟨0, true, 3, 0, 5, 0⟩ ⟨0, 0, 0, 0x116⟩),
    (false, 0x11C2_C500_89AB_CDEF_6000_0116, .loop ⟨0, true, 3, 0, 5, 0⟩ ⟨0x89ABCDEF, 3, 0, 0x116⟩),
    (false, 0x1202_C500_89AB_CDEF_6000_0000, .mrg ⟨0, true, 3, 0, 5, 0⟩ ⟨0x89ABCDEF, 3, 0, 0⟩),
    (false, 0x1242_C500_0000_0000_0000_0116, .mrgx ⟨0, true, 3, 0, 5, 0⟩ ⟨0, 0, 0, 0x116⟩) ]

/-- Class 0x2. -/
def words2 : List (Bool × IWord × Instr) :=
  [ (false, 0x2002_C578_0000_0000_02CE_2E2A, .add ⟨0, true, 3, 0, 5, 0x78⟩ ⟨0, false, 0, 0, 0xB3, 0x117, 0x2A⟩),
    (false, 0x2042_C570_0000_00D0_02CE_2E2A, .addc ⟨0, true, 3, 0, 5, 0x70⟩ ⟨0, true, 5, 0, 0xB3, 0x117, 0x2A⟩),
    (false, 0x2082_C578_0000_0000_02CE_2E2A, .sub ⟨0, true, 3, 0, 5, 0x78⟩ ⟨0, false, 0, 0, 0xB3, 0x117, 0x2A⟩),
    (false, 0x20C2_C570_0000_00D0_02CE_2E2A, .subb ⟨0, true, 3, 0, 5, 0x70⟩ ⟨0, true, 5, 0, 0xB3, 0x117, 0x2A⟩),
    (false, 0x2102_C578_89AB_CDEF_0002_2E2A, .addi ⟨0, true, 3, 0, 5, 0x78⟩ ⟨0x89ABCDEF, false, 0, 0x117, 0x2A⟩),
    (false, 0x2142_C578_0000_0000_02CE_2E2A, .mul ⟨0, true, 3, 0, 5, 0x78⟩ ⟨0, false, 0, 0, 0xB3, 0x117, 0x2A⟩),
    (false, 0x2182_C570_0000_0000_02CE_2E2A, .mulhi ⟨0, true, 3, 0, 5, 0x70⟩ ⟨0, false, 0, 0, 0xB3, 0x117, 0x2A⟩),
    (false, 0x21C2_C560_0000_0000_02CE_2E2A, .mulw ⟨0, true, 3, 0, 5, 0x60⟩ ⟨0, false, 0, 0, 0xB3, 0x117, 0x2A⟩),
    (false, 0x2202_C578_0000_0009_72CE_2E2A, .mad ⟨0, true, 3, 0, 5, 0x78⟩ ⟨0, false, 0, 0x12E, 0xB3, 0x117, 0x2A⟩),
    (false, 0x2242_C560_0000_0009_72CE_2E2A, .madw ⟨0, true, 3, 0, 5, 0x60⟩ ⟨0, false, 0, 0x12E, 0xB3, 0x117, 0x2A⟩),
    (false, 0x22A6_C570_0000_0000_02CE_2E2A, .div ⟨9, true, 3, 0, 5, 0x70⟩ ⟨0, false, 0, 0, 0xB3, 0x117, 0x2A⟩),
    (false, 0x22E6_C570_0000_0000_02CE_2E2A, .rem ⟨9, true, 3, 0, 5, 0x70⟩ ⟨0, false, 0, 0, 0xB3, 0x117, 0x2A⟩),
    (false, 0x2326_C570_0000_0009_72CE_2E2A, .divrem ⟨9, true, 3, 0, 5, 0x70⟩ ⟨0, false, 0, 0x12E, 0xB3, 0x117, 0x2A⟩),
    (false, 0x2342_C570_0000_0000_02CE_2E2A, .min ⟨0, true, 3, 0, 5, 0x70⟩ ⟨0, false, 0, 0, 0xB3, 0x117, 0x2A⟩),
    (false, 0x2382_C570_0000_0000_02CE_2E2A, .max ⟨0, true, 3, 0, 5, 0x70⟩ ⟨0, false, 0, 0, 0xB3, 0x117, 0x2A⟩),
    (false, 0x23C2_C570_0000_0009_72CE_2E2A, .clamp ⟨0, true, 3, 0, 5, 0x70⟩ ⟨0, false, 0, 0x12E, 0xB3, 0x117, 0x2A⟩),
    (false, 0x2402_C538_0000_0000_0002_2E2A, .abs ⟨0, true, 3, 0, 5, 0x38⟩ ⟨0, false, 0, 0, 0, 0x117, 0x2A⟩),
    (false, 0x2442_C578_0000_0009_72CE_2E2A, .sad ⟨0, true, 3, 0, 5, 0x78⟩ ⟨0, false, 0, 0x12E, 0xB3, 0x117, 0x2A⟩),
    (false, 0x2482_C548_0000_0009_72CE_2E2A, .dot4 ⟨0, true, 3, 0, 5, 0x48⟩ ⟨0, false, 0, 0x12E, 0xB3, 0x117, 0x2A⟩),
    (false, 0x24C2_C558_0000_0009_72CE_2E2A, .dot2 ⟨0, true, 3, 0, 5, 0x58⟩ ⟨0, false, 0, 0x12E, 0xB3, 0x117, 0x2A⟩),
    (false, 0x2502_C560_0000_1D00_02CE_2E2A, .lea ⟨0, true, 3, 0, 5, 0x60⟩ ⟨0x1D, false, 0, 0, 0xB3, 0x117, 0x2A⟩),
    (false, 0x2542_C530_89AB_CDEF_0002_2E2A, .leai ⟨0, true, 3, 0, 5, 0x30⟩ ⟨0x89ABCDEF, false, 0, 0x117, 0x2A⟩) ]

/-- Class 0x3. -/
def words3 : List (Bool × IWord × Instr) :=
  [ (false, 0x3002_C570_0000_0000_02CE_2E2A, .and ⟨0, true, 3, 0, 5, 0x70⟩ ⟨0, false, 0, 0, 0xB3, 0x117, 0x2A⟩),
    (false, 0x3042_C570_0000_0000_02CE_2E2A, .or ⟨0, true, 3, 0, 5, 0x70⟩ ⟨0, false, 0, 0, 0xB3, 0x117, 0x2A⟩),
    (false, 0x3082_C570_0000_0000_02CE_2E2A, .xor ⟨0, true, 3, 0, 5, 0x70⟩ ⟨0, false, 0, 0, 0xB3, 0x117, 0x2A⟩),
    (false, 0x30C2_C570_0000_0000_0002_2E2A, .not ⟨0, true, 3, 0, 5, 0x70⟩ ⟨0, false, 0, 0, 0, 0x117, 0x2A⟩),
    (false, 0x3102_C570_0000_A509_72CE_2E2A, .tern ⟨0, true, 3, 0, 5, 0x70⟩ ⟨0xA5, false, 0, 0x12E, 0xB3, 0x117, 0x2A⟩),
    (false, 0x3142_C570_89AB_CDEF_0036_2E2A, .bini ⟨0, true, 3, 0, 5, 0x70⟩ ⟨0x89ABCDEF, true, 5, 0x117, 0x2A⟩),
    (false, 0x3182_C570_0000_A500_0002_2E2A, .shl ⟨0, true, 3, 0, 5, 0x70⟩ ⟨0xA5, false, 0, 0, 0, 0x117, 0x2A⟩),
    (false, 0x31C2_C570_0000_A500_0002_2E2A, .shr ⟨0, true, 3, 0, 5, 0x70⟩ ⟨0xA5, false, 0, 0, 0, 0x117, 0x2A⟩),
    (false, 0x3202_C570_0000_0000_02CE_2E2A, .sra ⟨0, true, 3, 0, 5, 0x70⟩ ⟨0, false, 0, 0, 0xB3, 0x117, 0x2A⟩),
    (false, 0x3242_C560_0000_A500_02CE_2E2A, .fsl ⟨0, true, 3, 0, 5, 0x60⟩ ⟨0xA5, false, 0, 0, 0xB3, 0x117, 0x2A⟩),
    (false, 0x3282_C560_0000_A500_02CE_2E2A, .fsr ⟨0, true, 3, 0, 5, 0x60⟩ ⟨0xA5, false, 0, 0, 0xB3, 0x117, 0x2A⟩),
    (false, 0x32C2_C570_0000_0000_0002_2E2A, .popc ⟨0, true, 3, 0, 5, 0x70⟩ ⟨0, false, 0, 0, 0, 0x117, 0x2A⟩),
    (false, 0x3302_C570_0000_0000_0002_2E2A, .clz ⟨0, true, 3, 0, 5, 0x70⟩ ⟨0, false, 0, 0, 0, 0x117, 0x2A⟩),
    (false, 0x3342_C570_0000_0000_0002_2E2A, .brev ⟨0, true, 3, 0, 5, 0x70⟩ ⟨0, false, 0, 0, 0, 0x117, 0x2A⟩),
    (false, 0x3382_C570_0000_0000_02CE_2E2A, .bfx ⟨0, true, 3, 0, 5, 0x70⟩ ⟨0, false, 0, 0, 0xB3, 0x117, 0x2A⟩),
    (false, 0x33C2_C570_0000_0009_72CE_2E2A, .bfi ⟨0, true, 3, 0, 5, 0x70⟩ ⟨0, false, 0, 0x12E, 0xB3, 0x117, 0x2A⟩),
    (false, 0x3402_C560_0000_0009_72CE_2E2A, .perm ⟨0, true, 3, 0, 5, 0x60⟩ ⟨0, false, 0, 0x12E, 0xB3, 0x117, 0x2A⟩) ]

/-- Class 0x4. -/
def words4 : List (Bool × IWord × Instr) :=
  [ (false, 0x4002_C575_0000_0050_02CE_2E00, .setp ⟨0, true, 3, 0, 5, 0x75⟩ ⟨0, false, 5, 0, 0xB3, 0x117, 0⟩),
    (false, 0x4042_C575_89AB_CDEF_0016_2E00, .setpi ⟨0, true, 3, 0, 5, 0x75⟩ ⟨0x89ABCDEF, false, 5, 0x117, 0⟩),
    (false, 0x4082_C5AE_0000_0050_02CE_2E00, .fsetp ⟨0, true, 3, 0, 5, 0xAE⟩ ⟨0, false, 5, 0, 0xB3, 0x117, 0⟩),
    (false, 0x40C2_C500_0000_A550_4818_1600, .plop ⟨0, true, 3, 0, 5, 0⟩ ⟨0xA5, false, 5, 9, 6, 0xB, 0⟩),
    (false, 0x4102_C5A0_0000_00D0_02CE_2E2A, .sel ⟨0, true, 3, 0, 5, 0xA0⟩ ⟨0, true, 5, 0, 0xB3, 0x117, 0x2A⟩),
    (false, 0x4142_C5A0_89AB_CDEF_0036_2E2A, .seli ⟨0, true, 3, 0, 5, 0xA0⟩ ⟨0x89ABCDEF, true, 5, 0x117, 0x2A⟩),
    (false, 0x4182_C5A0_0000_0000_0002_2E2A, .mov ⟨0, true, 3, 0, 5, 0xA0⟩ ⟨0, false, 0, 0, 0, 0x117, 0x2A⟩),
    (false, 0x41C2_C5A0_89AB_CDEF_0000_002A, .movi ⟨0, true, 3, 0, 5, 0xA0⟩ ⟨0x89ABCDEF, false, 0, 0, 0x2A⟩),
    (false, 0x4202_C500_0000_0000_0000_002A, .p2r ⟨0, true, 3, 0, 5, 0⟩ ⟨0, false, 0, 0, 0, 0, 0x2A⟩),
    (false, 0x4242_C500_0000_A500_0002_2E00, .regToPred ⟨0, true, 3, 0, 5, 0⟩ ⟨0xA5, false, 0, 0, 0, 0x117, 0⟩) ]

/-- Class 0x5. -/
def words5 : List (Bool × IWord × Instr) :=
  [ (false, 0x5002_C507_0000_0000_02CE_2E2A, .fadd ⟨0, true, 3, 0, 5, 7⟩ ⟨0, false, 0, 0, 0xB3, 0x117, 0x2A⟩),
    (false, 0x5042_C507_0000_0000_02CE_2E2A, .fsub ⟨0, true, 3, 0, 5, 7⟩ ⟨0, false, 0, 0, 0xB3, 0x117, 0x2A⟩),
    (false, 0x5082_C507_0000_0000_02CE_2E2A, .fmul ⟨0, true, 3, 0, 5, 7⟩ ⟨0, false, 0, 0, 0xB3, 0x117, 0x2A⟩),
    (false, 0x50C2_C507_0000_0009_72CE_2E2A, .fma ⟨0, true, 3, 0, 5, 7⟩ ⟨0, false, 0, 0x12E, 0xB3, 0x117, 0x2A⟩),
    (false, 0x5102_C504_0000_0000_02CE_2E2A, .fmin ⟨0, true, 3, 0, 5, 4⟩ ⟨0, false, 0, 0, 0xB3, 0x117, 0x2A⟩),
    (false, 0x5142_C504_0000_0000_02CE_2E2A, .fmax ⟨0, true, 3, 0, 5, 4⟩ ⟨0, false, 0, 0, 0xB3, 0x117, 0x2A⟩),
    (false, 0x5182_C503_0000_0000_0002_2E2A, .frnd ⟨0, true, 3, 0, 5, 3⟩ ⟨0, false, 0, 0, 0, 0x117, 0x2A⟩),
    (false, 0x51C2_C500_0000_0000_0002_2E2A, .fclass ⟨0, true, 3, 0, 5, 0⟩ ⟨0, false, 0, 0, 0, 0x117, 0x2A⟩),
    (false, 0x5202_C587_0000_0000_02CE_2E2A, .fadd2 ⟨0, true, 3, 0, 5, 0x87⟩ ⟨0, false, 0, 0, 0xB3, 0x117, 0x2A⟩),
    (false, 0x5242_C587_0000_0000_02CE_2E2A, .fmul2 ⟨0, true, 3, 0, 5, 0x87⟩ ⟨0, false, 0, 0, 0xB3, 0x117, 0x2A⟩),
    (false, 0x5282_C587_0000_0009_72CE_2E2A, .fma2 ⟨0, true, 3, 0, 5, 0x87⟩ ⟨0, false, 0, 0x12E, 0xB3, 0x117, 0x2A⟩),
    (false, 0x52C2_C587_0000_0009_72CE_2E2A, .fdot2 ⟨0, true, 3, 0, 5, 0x87⟩ ⟨0, false, 0, 0x12E, 0xB3, 0x117, 0x2A⟩),
    (false, 0x5326_C504_0000_0000_0002_2E2A, .fex2 ⟨9, true, 3, 0, 5, 4⟩ ⟨0, false, 0, 0, 0, 0x117, 0x2A⟩),
    (false, 0x5366_C504_0000_0000_0002_2E2A, .flg2 ⟨9, true, 3, 0, 5, 4⟩ ⟨0, false, 0, 0, 0, 0x117, 0x2A⟩),
    (false, 0x53A6_C504_0000_0000_0002_2E2A, .frcp ⟨9, true, 3, 0, 5, 4⟩ ⟨0, false, 0, 0, 0, 0x117, 0x2A⟩),
    (false, 0x53E6_C504_0000_0000_0002_2E2A, .frsq ⟨9, true, 3, 0, 5, 4⟩ ⟨0, false, 0, 0, 0, 0x117, 0x2A⟩),
    (false, 0x5426_C504_0000_0000_0002_2E2A, .fsin ⟨9, true, 3, 0, 5, 4⟩ ⟨0, false, 0, 0, 0, 0x117, 0x2A⟩),
    (false, 0x5466_C504_0000_0000_0002_2E2A, .fcos ⟨9, true, 3, 0, 5, 4⟩ ⟨0, false, 0, 0, 0, 0x117, 0x2A⟩) ]

/-- Class 0x6. -/
def words6 : List (Bool × IWord × Instr) :=
  [ (false, 0x6002_FDA2_0000_0000_0002_2E2A, .cvt ⟨0, true, 3, 7, 5, 0xA2⟩ ⟨0, false, 0, 0, 0, 0x117, 0x2A⟩),
    (false, 0x6042_FD9A_0000_0000_02CE_2E2A, .pack ⟨0, true, 3, 7, 5, 0x9A⟩ ⟨0, false, 0, 0, 0xB3, 0x117, 0x2A⟩),
    (false, 0x6082_E5A9_0000_0009_7002_2E2A, .unpack ⟨0, true, 3, 4, 5, 0xA9⟩ ⟨0, false, 0, 0x12E, 0, 0x117, 0x2A⟩),
    (false, 0x60C2_DDB8_0000_0009_72CE_2E2A, .quant ⟨0, true, 3, 3, 5, 0xB8⟩ ⟨0, false, 0, 0x12E, 0xB3, 0x117, 0x2A⟩),
    (false, 0x6102_FDAC_0000_0009_72CE_2E2A, .dequant ⟨0, true, 3, 7, 5, 0xAC⟩ ⟨0, false, 0, 0x12E, 0xB3, 0x117, 0x2A⟩),
    (false, 0x6142_C5C4_0000_0000_02CE_2E2A, .pack4 ⟨0, true, 3, 0, 5, 0xC4⟩ ⟨0, false, 0, 0, 0xB3, 0x117, 0x2A⟩) ]

/-- Class 0x7. -/
def words7 : List (Bool × IWord × Instr) :=
  [ (false, 0x7002_C573_0000_0059_72CE_2E2A, .shfl ⟨0, true, 3, 0, 5, 0x73⟩ ⟨0, false, 5, 0x12E, 0xB3, 0x117, 0x2A⟩),
    (false, 0x7042_C573_0000_CB0E_0016_2E2A, .shfli ⟨0, true, 3, 0, 5, 0x73⟩ ⟨0xCB0E, false, 5, 0x117, 0x2A⟩),
    (false, 0x7082_C502_0000_0050_0000_1600, .vote ⟨0, true, 3, 0, 5, 2⟩ ⟨0, false, 5, 0, 0, 0xB, 0⟩),
    (false, 0x70C2_C500_0000_0000_0000_162A, .pmask ⟨0, true, 3, 0, 5, 0⟩ ⟨0, false, 0, 0, 0, 0xB, 0x2A⟩),
    (false, 0x7102_C575_0000_0000_0002_2E2A, .lfold ⟨0, true, 3, 0, 5, 0x75⟩ ⟨0, false, 0, 0, 0, 0x117, 0x2A⟩),
    (false, 0x7142_C570_0000_0000_0002_2E2A, .matchLanes ⟨0, true, 3, 0, 5, 0x70⟩ ⟨0, false, 0, 0, 0, 0x117, 0x2A⟩),
    (false, 0x7182_C570_0000_0650_0002_2E2A, .rdlane ⟨0, true, 3, 0, 5, 0x70⟩ ⟨6, false, 5, 0, 0, 0x117, 0x2A⟩),
    (false, 0x71C2_C5A1_0000_0000_0002_2E2A, .ddx ⟨0, true, 3, 0, 5, 0xA1⟩ ⟨0, false, 0, 0, 0, 0x117, 0x2A⟩),
    (false, 0x7202_C5A1_0000_0000_0002_2E2A, .ddy ⟨0, true, 3, 0, 5, 0xA1⟩ ⟨0, false, 0, 0, 0, 0x117, 0x2A⟩) ]

/-- Class 0x8. -/
def words8 : List (Bool × IWord × Instr) :=
  [ (false, 0x8002_C500_0015_02A7_0000_0000, .rpinit ⟨0, true, 3, 0, 5, 0⟩ ⟨0x1502A7, false, 0, 0, 0⟩),
    (false, 0x8042_E500_0000_1550_0000_002A, .rparr ⟨0, true, 3, 4, 5, 0⟩ ⟨0x15, false, 5, 0, 0, 0, 0x2A⟩),
    (false, 0x8082_E500_0000_1500_0002_2E00, .rpwait ⟨0, true, 3, 4, 5, 0⟩ ⟨0x15, false, 0, 0, 0, 0x117, 0⟩),
    (false, 0x80C2_E500_0000_1550_0000_002A, .rparw ⟨0, true, 3, 4, 5, 0⟩ ⟨0x15, false, 5, 0, 0, 0, 0x2A⟩),
    (false, 0x8102_C500_0000_1500_0002_2E00, .rpbytes ⟨0, true, 3, 0, 5, 0⟩ ⟨0x15, false, 0, 0, 0, 0x117, 0⟩),
    (false, 0x8142_C500_0000_0000_0000_0000, .yield ⟨0, true, 3, 0, 5, 0⟩ ⟨0, 0, 0⟩),
    (false, 0x8182_C500_89AB_CDEF_6000_0116, .yieldto ⟨0, true, 3, 0, 5, 0⟩ ⟨0x89ABCDEF, 3, 0, 0x116⟩),
    (false, 0x81C2_C500_89AB_CDEF_0000_0000, .sleep ⟨0, true, 3, 0, 5, 0⟩ ⟨0x89ABCDEF, 0, 0⟩),
    (false, 0x8202_C500_0000_0000_0000_0000, .exit ⟨0, true, 3, 0, 5, 0⟩ ⟨0, 0, 0⟩) ]

/-- Class 0x9. -/
def words9 : List (Bool × IWord × Instr) :=
  [ (false, 0x9026_C5A8_00F1_2345_2CB9_682A, .ld ⟨9, true, 3, 0, 5, 0xA8⟩ ⟨0, 0, 0xF12345, 2, true, 0x12E, 0xB4, 0x2A⟩),
    (false, 0x9042_C5A8_00F1_2345_2CB9_682A, .st ⟨0, true, 3, 0, 5, 0xA8⟩ ⟨0, 0, 0xF12345, 2, true, 0x12E, 0xB4, 0x2A⟩),
    (false, 0x90A6_E5A8_00F1_2345_2CB9_682A, .ldacq ⟨9, true, 3, 4, 5, 0xA8⟩ ⟨0, 0, 0xF12345, 2, true, 0x12E, 0xB4, 0x2A⟩),
    (false, 0x90C2_E5A8_00F1_2345_2CB9_682A, .strel ⟨0, true, 3, 4, 5, 0xA8⟩ ⟨0, 0, 0xF12345, 2, true, 0x12E, 0xB4, 0x2A⟩),
    (false, 0x9126_C5A8_00F1_2345_2CB9_682A, .ldk ⟨9, true, 3, 0, 5, 0xA8⟩ ⟨0, 0, 0xF12345, 2, true, 0x12E, 0xB4, 0x2A⟩),
    (false, 0x9142_C5A8_00F1_2345_2CB9_682A, .stk ⟨0, true, 3, 0, 5, 0xA8⟩ ⟨0, 0, 0xF12345, 2, true, 0x12E, 0xB4, 0x2A⟩),
    (false, 0x91A6_C569_00F1_2345_2CB9_682A, .ldw ⟨9, true, 3, 0, 5, 0x69⟩ ⟨0, 0, 0xF12345, 2, true, 0x12E, 0xB4, 0x2A⟩),
    (false, 0x91C2_C569_00F1_2345_2CB9_682A, .stw ⟨0, true, 3, 0, 5, 0x69⟩ ⟨0, 0, 0xF12345, 2, true, 0x12E, 0xB4, 0x2A⟩),
    (false, 0x9202_C568_00F1_2345_2CB9_682A, .fpush ⟨0, true, 3, 0, 5, 0x68⟩ ⟨0, 0, 0xF12345, 2, true, 0x12E, 0xB4, 0x2A⟩),
    (false, 0x9266_C568_00F1_2345_2CB9_682A, .fpop ⟨9, true, 3, 0, 5, 0x68⟩ ⟨0, 0, 0xF12345, 2, true, 0x12E, 0xB4, 0x2A⟩),
    (false, 0x92A6_C568_00F1_2345_2CB9_682A, .fpeek ⟨9, true, 3, 0, 5, 0x68⟩ ⟨0, 0, 0xF12345, 2, true, 0x12E, 0xB4, 0x2A⟩),
    (false, 0x92C2_C568_00F1_2345_2CB9_6800, .pref ⟨0, true, 3, 0, 5, 0x68⟩ ⟨0, 0, 0xF12345, 2, true, 0x12E, 0xB4, 0⟩) ]

/-- Class 0xA. -/
def wordsA : List (Bool × IWord × Instr) :=
  [ (false, 0xA026_E577_52F1_2345_2CB9_682A, .atom ⟨9, true, 3, 4, 5, 0x77⟩ ⟨5, 2, 0xF12345, 2, true, 0x12E, 0xB4, 0x2A⟩),
    (false, 0xA066_E570_52F1_2345_2CB9_682A, .atomcas ⟨9, true, 3, 4, 5, 0x70⟩ ⟨5, 2, 0xF12345, 2, true, 0x12E, 0xB4, 0x2A⟩),
    (false, 0xA0A6_E5A2_52F1_2345_2CB9_682A, .atomf ⟨9, true, 3, 4, 5, 0xA2⟩ ⟨5, 2, 0xF12345, 2, true, 0x12E, 0xB4, 0x2A⟩),
    (false, 0xA0C2_E575_52F1_2345_2CB9_682A, .red ⟨0, true, 3, 4, 5, 0x75⟩ ⟨5, 2, 0xF12345, 2, true, 0x12E, 0xB4, 0x2A⟩),
    (false, 0xA0C2_E57D_52F1_2345_2CB9_682A, .redDet ⟨0, true, 3, 4, 5, 0x7D⟩ ⟨5, 2, 0xF12345, 2, true, 0x12E, 0xB4, 0x2A⟩),
    (false, 0xA102_E592_52F1_2345_2CB9_682A, .redf ⟨0, true, 3, 4, 5, 0x92⟩ ⟨5, 2, 0xF12345, 2, true, 0x12E, 0xB4, 0x2A⟩),
    (false, 0xA102_E5AA_52F1_2345_2CB9_682A, .redfDet ⟨0, true, 3, 4, 5, 0xAA⟩ ⟨5, 2, 0xF12345, 2, true, 0x12E, 0xB4, 0x2A⟩),
    (false, 0xA142_C500_0000_0000_0000_0000, .dflush ⟨0, true, 3, 0, 5, 0⟩ ⟨0, 0, 0⟩),
    (false, 0xA182_E500_0000_0000_0000_0000, .fenceAcq ⟨0, true, 3, 4, 5, 0⟩ ⟨0, 0, 0⟩),
    (false, 0xA182_E501_0000_0000_0000_0000, .fenceRel ⟨0, true, 3, 4, 5, 1⟩ ⟨0, 0, 0⟩),
    (false, 0xA182_E502_0000_0000_0000_0000, .fenceAr ⟨0, true, 3, 4, 5, 2⟩ ⟨0, 0, 0⟩),
    (false, 0xA182_E503_0000_0000_0000_0000, .fenceSmp ⟨0, true, 3, 4, 5, 3⟩ ⟨0, 0, 0⟩),
    (false, 0xA1C2_E500_0000_0000_0000_0000, .fwait ⟨0, true, 3, 4, 5, 0⟩ ⟨0, 0, 0⟩),
    (false, 0xA226_C560_52F1_2345_0001_682A, .ngath ⟨9, true, 3, 0, 5, 0x60⟩ ⟨5, 2, 0xF12345, 0, false, 0, 0xB4, 0x2A⟩),
    (false, 0xA242_C560_52F1_2345_0001_682A, .nscat ⟨0, true, 3, 0, 5, 0x60⟩ ⟨5, 2, 0xF12345, 0, false, 0, 0xB4, 0x2A⟩),
    (false, 0xA282_E501_52F1_2345_2CB9_6800, .cwb ⟨0, true, 3, 4, 5, 1⟩ ⟨5, 2, 0xF12345, 2, true, 0x12E, 0xB4, 0⟩),
    (false, 0xA2C2_E501_52F1_2345_2CB9_6800, .cinv ⟨0, true, 3, 4, 5, 1⟩ ⟨5, 2, 0xF12345, 2, true, 0x12E, 0xB4, 0⟩),
    (false, 0xA302_E501_52F1_2345_2CB9_6800, .cdisc ⟨0, true, 3, 4, 5, 1⟩ ⟨5, 2, 0xF12345, 2, true, 0x12E, 0xB4, 0⟩),
    (false, 0xA342_E501_52F1_2345_2CB9_6800, .icinv ⟨0, true, 3, 4, 5, 1⟩ ⟨5, 2, 0xF12345, 2, true, 0x12E, 0xB4, 0⟩) ]

/-- Class 0xB. -/
def wordsB : List (Bool × IWord × Instr) :=
  [ (false, 0xB002_C5BA_0000_0009_72CE_2E2A, .cpy ⟨0, true, 3, 0, 5, 0xBA⟩ ⟨0, false, 0, 0x12E, 0xB3, 0x117, 0x2A⟩),
    (false, 0xB042_C59C_0000_0009_72CE_2E2A, .cpyo ⟨0, true, 3, 0, 5, 0x9C⟩ ⟨0, false, 0, 0x12E, 0xB3, 0x117, 0x2A⟩),
    (false, 0xB082_C500_0000_0000_0002_2E00, .cpyq ⟨0, true, 3, 0, 5, 0⟩ ⟨0, false, 0, 0, 0, 0x117, 0⟩),
    (false, 0xB0C2_C500_0000_0109_72CE_2E00, .halloc ⟨0, true, 3, 0, 5, 0⟩ ⟨1, false, 0, 0x12E, 0xB3, 0x117, 0⟩),
    (false, 0xB102_C500_0000_0000_0002_2E00, .hfree ⟨0, true, 3, 0, 5, 0⟩ ⟨0, false, 0, 0, 0, 0x117, 0⟩),
    (false, 0xB142_C500_0000_0000_0002_2E00, .hwaitTake ⟨0, true, 3, 0, 5, 0⟩ ⟨0, false, 0, 0, 0, 0x117, 0⟩),
    (false, 0xB142_C500_0000_0100_0002_2E00, .hwaitPeek ⟨0, true, 3, 0, 5, 0⟩ ⟨1, false, 0, 0, 0, 0x117, 0⟩),
    (false, 0xB182_C500_0000_0000_0002_2E2A, .hstat ⟨0, true, 3, 0, 5, 0⟩ ⟨0, false, 0, 0, 0, 0x117, 0x2A⟩),
    (false, 0xB1C2_E500_0000_0000_02CE_2E2A, .publish ⟨0, true, 3, 4, 5, 0⟩ ⟨0, false, 0, 0, 0xB3, 0x117, 0x2A⟩) ]

/-- Class 0xC. -/
def wordsC : List (Bool × IWord × Instr) :=
  [ (false, 0xC026_C59A_0000_0D00_0002_2E2A, .xfCvt ⟨9, true, 3, 0, 5, 0x9A⟩ ⟨0xD, false, 0, 0, 0, 0x117, 0x2A⟩),
    (false, 0xC066_C5CA_0000_0D09_72CE_2E2A, .xfQuant ⟨9, true, 3, 0, 5, 0xCA⟩ ⟨0xD, false, 0, 0x12E, 0xB3, 0x117, 0x2A⟩),
    (false, 0xC0A6_C58B_0000_0D09_72CE_2E2A, .xfDequant ⟨9, true, 3, 0, 5, 0x8B⟩ ⟨0xD, false, 0, 0x12E, 0xB3, 0x117, 0x2A⟩),
    (false, 0xC0E6_C56A_0000_0D00_02CE_2E2A, .xfRkey ⟨9, true, 3, 0, 5, 0x6A⟩ ⟨0xD, false, 0, 0, 0xB3, 0x117, 0x2A⟩),
    (false, 0xC126_C566_0000_0D09_72CE_2E2A, .xfHash ⟨9, true, 3, 0, 5, 0x66⟩ ⟨0xD, false, 0, 0x12E, 0xB3, 0x117, 0x2A⟩),
    (false, 0xC166_C59A_0000_0D00_0002_2E2A, .xfPenc ⟨9, true, 3, 0, 5, 0x9A⟩ ⟨0xD, false, 0, 0, 0, 0x117, 0x2A⟩) ]

/-- Class 0xD. -/
def wordsD : List (Bool × IWord × Instr) :=
  [ (true, 0xD001_C0B0_00AB_CDEF_0097_0350, .mlda ⟨0, false, 7, 0, 0, 0xB0⟩ ⟨0, 0xABCDEF, 0x97, 0, true, 0x15, 0⟩),
    (true, 0xD041_C0C0_1DAB_CDEF_0097_0350, .mldb ⟨0, false, 7, 0, 0, 0xC0⟩ ⟨0x1D, 0xABCDEF, 0x97, 0, true, 0x15, 0⟩),
    (true, 0xD081_C0C0_01AB_CDEF_0097_0350, .mldbs ⟨0, false, 7, 0, 0, 0xC0⟩ ⟨1, 0xABCDEF, 0x97, 0, true, 0x15, 0⟩),
    (true, 0xD0C1_C000_01AB_CDEF_0000_0350, .mscale ⟨0, false, 7, 0, 0, 0⟩ ⟨1, 0xABCDEF, 0, 0, true, 0x15, 0⟩),
    (true, 0xD101_C000_00AB_CDEF_0000_035A, .mma ⟨0, false, 7, 0, 0, 0⟩ ⟨0, 0xABCDEF, 0, 0, true, 0x15, 0xA⟩),
    (true, 0xD141_C000_00AB_CDEF_0000_035A, .mmaBat ⟨0, false, 7, 0, 0, 0⟩ ⟨0, 0xABCDEF, 0, 0, true, 0x15, 0xA⟩),
    (true, 0xD181_C000_0000_0000_0000_035A, .mzero ⟨0, false, 7, 0, 0, 0⟩ ⟨0, 0, 0, 0, true, 0x15, 0xA⟩),
    (true, 0xD1C1_C000_01AB_CDEF_0097_035A, .mstacc ⟨0, false, 7, 0, 0, 0⟩ ⟨1, 0xABCDEF, 0x97, 0, true, 0x15, 0xA⟩),
    (true, 0xD201_C000_01AB_CDEF_0097_035A, .mldacc ⟨0, false, 7, 0, 0, 0⟩ ⟨1, 0xABCDEF, 0x97, 0, true, 0x15, 0xA⟩),
    (true, 0xD241_C000_B7AB_CDEF_0002_6350, .mloop ⟨0, false, 7, 0, 0, 0⟩ ⟨0xB7, 0xABCDEF, 2, 3, true, 0x15, 0⟩),
    (true, 0xD281_C000_0000_0000_0000_0350, .marr ⟨0, false, 7, 0, 0, 0⟩ ⟨0, 0, 0, 0, true, 0x15, 0⟩),
    (true, 0xD2C1_C000_0000_0000_0000_0350, .mwait ⟨0, false, 7, 0, 0, 0⟩ ⟨0, 0, 0, 0, true, 0x15, 0⟩),
    (true, 0xD301_C000_0000_0000_0000_0350, .mend ⟨0, false, 7, 0, 0, 0⟩ ⟨0, 0, 0, 0, true, 0x15, 0⟩),
    (false, 0xD366_C500_0000_0000_02CE_2E2A, .neval ⟨9, true, 3, 0, 5, 0⟩ ⟨0, false, 0, 0, 0xB3, 0x117, 0x2A⟩),
    (false, 0xD382_C500_0000_0000_0000_002A, .nevstatCnt ⟨0, true, 3, 0, 5, 0⟩ ⟨0, false, 0, 0, 0, 0, 0x2A⟩),
    (false, 0xD382_C500_0000_0100_0000_002A, .nevstatKick ⟨0, true, 3, 0, 5, 0⟩ ⟨1, false, 0, 0, 0, 0, 0x2A⟩) ]

/-- Class 0xE. -/
def wordsE : List (Bool × IWord × Instr) :=
  [ (false, 0xE026_C500_0000_11C0_0000_002A, .ssnew ⟨9, true, 3, 0, 5, 0⟩ ⟨0, 0, 0x11C, 0, 0, 0, 0x2A⟩),
    (false, 0xE066_C500_0000_11C0_0002_2E2A, .ssadd ⟨9, true, 3, 0, 5, 0⟩ ⟨0, 0, 0x11C, 0, 0, 0x117, 0x2A⟩),
    (false, 0xE082_C500_0000_11C0_0000_002A, .ssbuild ⟨0, true, 3, 0, 5, 0⟩ ⟨0, 0, 0x11C, 0, 0, 0, 0x2A⟩),
    (false, 0xE0C2_C500_0000_11C9_72CE_2E2A, .ssbind ⟨0, true, 3, 0, 5, 0⟩ ⟨0, 0, 0x11C, 0x12E, 0xB3, 0x117, 0x2A⟩),
    (false, 0xE102_C500_0000_11C9_72CE_2E2A, .ssrebind ⟨0, true, 3, 0, 5, 0⟩ ⟨0, 0, 0x11C, 0x12E, 0xB3, 0x117, 0x2A⟩),
    (false, 0xE142_C500_0000_11C0_0000_0000, .ssfree ⟨0, true, 3, 0, 5, 0⟩ ⟨0, 0, 0x11C, 0, 0, 0, 0⟩),
    (false, 0xE1A6_C500_0000_B1C0_0000_002A, .ssget ⟨9, true, 3, 0, 5, 0⟩ ⟨0, 5, 0x11C, 0, 0, 0, 0x2A⟩),
    (false, 0xE1C2_C500_0007_11C0_0002_2E2A, .emitv ⟨0, true, 3, 0, 5, 0⟩ ⟨7, 0, 0x11C, 0, 0, 0x117, 0x2A⟩),
    (false, 0xE202_C500_0000_11C0_02CE_2E2A, .emit ⟨0, true, 3, 0, 5, 0⟩ ⟨0, 0, 0x11C, 0, 0xB3, 0x117, 0x2A⟩),
    (false, 0xE242_C500_0000_11C0_02CE_2E2A, .emitsp ⟨0, true, 3, 0, 5, 0⟩ ⟨0, 0, 0x11C, 0, 0xB3, 0x117, 0x2A⟩),
    (false, 0xE282_C500_0001_11C0_0000_0000, .rflush ⟨0, true, 3, 0, 5, 0⟩ ⟨1, 0, 0x11C, 0, 0, 0, 0⟩),
    (false, 0xE2E6_C500_0006_8000_0000_002A, .fin ⟨9, true, 3, 0, 5, 0⟩ ⟨6, 4, 0, 0, 0, 0, 0x2A⟩),
    (false, 0xE302_C500_0000_A000_0002_2E00, .fout ⟨0, true, 3, 0, 5, 0⟩ ⟨0, 5, 0, 0, 0, 0x117, 0⟩),
    (false, 0xE342_C500_0000_0000_0002_2E00, .fdep ⟨0, true, 3, 0, 5, 0⟩ ⟨0, 0, 0, 0, 0, 0x117, 0⟩),
    (false, 0xE382_C500_0000_0000_0000_0000, .disc ⟨0, true, 3, 0, 5, 0⟩ ⟨0, 0, 0, 0, 0, 0, 0⟩) ]

/-- Class 0xF. -/
def wordsF : List (Bool × IWord × Instr) :=
  [ (false, 0xF002_C500_0000_0009_7000_002A, .alm ⟨0, true, 3, 0, 5, 0⟩ ⟨0, false, 0, 0x12E, 0, 0, 0x2A⟩),
    (false, 0xF042_C500_0000_0000_0000_002A, .almhz ⟨0, true, 3, 0, 5, 0⟩ ⟨0, false, 0, 0, 0, 0, 0x2A⟩),
    (false, 0xF082_C500_52F1_2345_2CB9_682A, .stcm ⟨0, true, 3, 0, 5, 0⟩ ⟨5, 2, 0xF12345, 2, true, 0x12E, 0xB4, 0x2A⟩),
    (false, 0xF0E6_C500_0000_0000_02CE_2E2A, .ldasof ⟨9, true, 3, 0, 5, 0⟩ ⟨0, false, 0, 0, 0xB3, 0x117, 0x2A⟩),
    (false, 0xF102_C500_0000_0000_0000_0117, .almwait ⟨0, true, 3, 0, 5, 0⟩ ⟨0, 0, 0x117⟩) ]

theorem test_words_0 : words0.all wordOk = true := by decide
theorem test_words_1 : words1.all wordOk = true := by decide
theorem test_words_2 : words2.all wordOk = true := by decide
theorem test_words_3 : words3.all wordOk = true := by decide
theorem test_words_4 : words4.all wordOk = true := by decide
theorem test_words_5 : words5.all wordOk = true := by decide
theorem test_words_6 : words6.all wordOk = true := by decide
theorem test_words_7 : words7.all wordOk = true := by decide
theorem test_words_8 : words8.all wordOk = true := by decide
theorem test_words_9 : words9.all wordOk = true := by decide
theorem test_words_a : wordsA.all wordOk = true := by decide
theorem test_words_b : wordsB.all wordOk = true := by decide
theorem test_words_c : wordsC.all wordOk = true := by decide
theorem test_words_d : wordsD.all wordOk = true := by decide
theorem test_words_e : wordsE.all wordOk = true := by decide
theorem test_words_f : wordsF.all wordOk = true := by decide
/-- A row of the opcode table is asked as a number of 96 bits, bit 0 the least significant bit of byte 0. -/
theorem test_table_word : decodeTableWord 96 0x0001_C000_0000_0000_0000_0000 = some (.nop (always 0) ⟨0, 0, 0⟩) := by decide

/-! ### Ill-formed terms: each differs from a legal one in one field (02 R46 to R58; 05 R107 to R109) -/

/-- A header with a modifier byte and everything else plain, a lookahead count or a scope. -/
def hd (m : BitVec 8) : Hdr := always m
def hdLa (m : BitVec 8) : Hdr := { always m with la := 1 }
def hdSc (m : BitVec 8) (s : BitVec 3) : Hdr := { always m with sc := s }

/-- Legal operands of each format. -/
def r0 : OpR := ⟨0, false, 0, 0, 0, 0, 0⟩
def i0 : OpI := ⟨0, false, 0, 0, 0⟩
def m0 : OpM := ⟨0, 0, 0, 0, false, 0, 0, 0⟩
def b0 : OpB := ⟨0, 0, 0, 0⟩
def x0 : OpX := ⟨0, 0, 0, 0, false, 0, 0⟩
def g0 : OpG := ⟨0, 0, 0, 0, 0, 0, 0⟩
def o0 : OpS := ⟨0, 0, 0⟩

/-- The legal terms that the ill-formed ones below are next to. -/
def legalOnes : List Instr :=
  [ .add (hd 0x60) r0, .add (hd 0x28) r0, .div (hdLa 0x60) r0, .fenceRel (hdSc 1 6) o0, .ldacq { hdLa 0x60 with sc := 6 } m0,
    .mzero (hd 0) x0, .nop (hd 0) o0, .lea (hd 0x20) { r0 with aux := 31 }, .bra (hd 0) { b0 with tslot := 4 }, .addi (hd 0x60) i0,
    .shl (hd 0x60) { r0 with aux := 0x85 }, .setp (hd 0x65) r0, .fsetp (hd 0x8E) r0, .plop (hd 0) { r0 with a := 15 },
    .fadd (hd 7) r0, .fadd2 (hd 0x40) r0, .cvt (hdSc 0xA2 7) r0, .pack (hd 0x8A) r0, .quant (hd 0xB8) r0, .shfl (hd 0x63) r0,
    .shfli (hd 0x60) { i0 with imm := 0xFF0F }, .rdlane (hd 0x60) { r0 with aux := 7 }, .vote (hd 2) r0,
    .rpinit (hd 0) { i0 with imm := 0x1F03FF }, .rparr (hd 0) { r0 with aux := 31 }, .rgn (hd 0) { o0 with imm := 4095 },
    .ld (hd 0x68) m0, .ldw (hd 0x61) m0, .pref (hd 0x60) m0, .atom (hd 0x67) m0, .red (hd 0x65) m0, .redDet (hd 0x6D) m0,
    .atomf (hd 0x92) m0, .cwb (hd 1) m0, .ngath (hd 0x60) m0, .cpy (hd 0xBA) r0, .halloc (hd 0) { r0 with aux := 1 },
    .xfCvt (hd 0x8A) { r0 with aux := 64 }, .xfHash (hd 0x66) { r0 with aux := 32 }, .mlda (hd 0x90) x0, .mldb (hd 0x90) { x0 with cnt := 31, w := 255 },
    .mloop (hd 0) { x0 with cnt := 1, w := 3 }, .marr (hd 0) { x0 with rpe := true, rp := 31 }, .emitv (hd 0) { g0 with imm16 := 8 },
    .rflush (hd 0) { g0 with imm16 := 1 }, .fin (hd 0) { g0 with sub := 3, imm16 := 7 }, .hwaitPeek (hd 0) { r0 with aux := 1 },
    .ld (hd 0x60) { m0 with space := 2, member := 7 }, .ld (hd 0x60) { m0 with space := 4, ix := true, index := 1, scale := 3 } ]

theorem test_legal_terms : legalOnes.all Instr.wellFormed = true := by decide

/-- Common fields: lookahead, scope, guard of a stream instruction. -/
def illHeaders : List Instr :=
  [ .add (hdLa 0x60) r0, .add (hdSc 0x60 1) r0, .div (hdSc 0x60 1) r0, .fenceRel (hdLa 1) o0, .fenceRel (hdSc 1 7) o0,
    .ldacq (hdSc 0x60 7) m0, .mzero (hdLa 0) x0, .mzero { hd 0 with gn := true } x0, .mzero { hd 0 with gp := 6 } x0,
    .mzero (hdSc 0 1) x0, .mzero { hd 0 with reuse := 1 } x0, .cvt (hdLa 0xA2) r0, .unpack (hdSc 0xA8 1) r0, .quant (hdSc 0xB8 4) r0 ]

theorem test_ill_headers : illHeaders.all (fun i => !i.wellFormed) = true := by decide

/-- Unused and reserved fields of the formats. -/
def illFields : List Instr :=
  [ .add (hd 0x60) { r0 with aux := 1 }, .add (hd 0x60) { r0 with pn := true }, .add (hd 0x60) { r0 with p := 1 },
    .add (hd 0x60) { r0 with c := 1 }, .abs (hd 0x20) { r0 with b := 1 }, .cycrd (hd 0) { r0 with a := 1 }, .setp (hd 0x60) { r0 with d := 1 },
    .setp (hd 0x60) { r0 with pn := true }, .addi (hd 0x60) { i0 with p := 1 }, .movi (hd 0x60) { i0 with a := 1 },
    .rpinit (hd 0) { i0 with d := 1 }, .nop (hd 0) { o0 with imm := 1 }, .nop (hd 0) { o0 with sreg := 1 }, .nop (hd 0) { o0 with a := 1 },
    .bra (hd 0) { b0 with tslot := 5 }, .brx (hd 0) { b0 with disp := 1 }, .brx (hd 0) { b0 with tslot := 1 }, .bra (hd 0) { b0 with l := 1 },
    .bra (hd 0) { b0 with a := 1 }, .ssnew (hd 0) { g0 with imm16 := 1 }, .ssnew (hd 0) { g0 with sub := 1 }, .fout (hd 0) { g0 with set := 1 },
    .ssnew (hd 0) { g0 with c := 1 }, .ssnew (hd 0) { g0 with b := 1 }, .ssnew (hd 0) { g0 with a := 1 }, .ssfree (hd 0) { g0 with d := 1 },
    .mzero (hd 0) { x0 with rp := 1 }, .mloop (hd 0) { x0 with cnt := 1, sl := 5 }, .mzero (hd 0) { x0 with cnt := 1 }, .mzero (hd 0) { x0 with y := 1 },
    .mzero (hd 0) { x0 with w := 1 }, .mzero (hd 0) { x0 with sl := 1 }, .mlda (hd 0x90) { x0 with tile := 1 },
    .ld (hd 0x60) { m0 with space := 5 }, .ld (hd 0x60) { m0 with member := 1 }, .ld (hd 0x60) { m0 with index := 1 },
    .ld (hd 0x60) { m0 with scale := 1 }, .pref (hd 0x60) { m0 with data := 1 }, .cwb (hd 1) { m0 with data := 1 },
    .ngath (hd 0x60) { m0 with ix := true } ]

theorem test_ill_fields : illFields.all (fun i => !i.wellFormed) = true := by decide

/-- Modifier bytes and immediates that a class does not assign. -/
def illValues : List Instr :=
  [ .nop (hd 1) o0, .addc (hd 0x20) r0, .min (hd 0x68) r0, .add (hd 0x61) r0, .and (hd 0x20) r0, .and (hd 0x61) r0,
    .lea (hd 0x20) { r0 with aux := 32 }, .shl (hd 0x60) { r0 with aux := 5 }, .shl (hd 0x60) { r0 with aux := 0x85, b := 1 },
    .setp (hd 0x66) r0, .fsetp (hd 0x87) r0, .plop (hd 0) { r0 with a := 16 }, .fadd (hd 0x40) r0, .fadd (hd 8) r0, .fmin (hd 1) r0,
    .frnd (hd 4) r0, .fadd2 (hd 0xC0) r0, .cvt (hd 0x62) r0, .cvt (hd 0xBA) r0, .cvt (hdSc 0x2A 4) r0, .pack (hd 0xA8) r0, .quant (hd 0xBB) r0,
    .shfl (hd 0x64) r0, .shfl (hd 0x20) r0, .shfli (hd 0x60) { i0 with imm := 0x10 }, .shfli (hd 0x60) { i0 with imm := 0x10000 },
    .rdlane (hd 0x60) { r0 with aux := 8 }, .vote (hd 3) r0, .rpinit (hd 0) { i0 with imm := 0x400 }, .rpinit (hd 0) { i0 with imm := 0x200000 },
    .rparr (hd 0) { r0 with aux := 32 }, .rgn (hd 0) { o0 with imm := 4096 }, .ld (hd 0xB0) m0, .ld (hd 0x6C) m0, .ld (hd 0x61) m0,
    .ld (hd 0x64) { m0 with space := 1 }, .ldw (hd 0x62) m0, .ldw (hd 0x70) m0, .atom (hd 0x27) m0, .atom (hd 0x40) m0, .red (hd 0x66) m0,
    .red (hd 0x6D) m0, .redDet (hd 0x65) m0, .atomf (hd 0x93) m0, .atomf (hd 0x80) m0, .fenceRel (hd 2) o0, .cwb (hd 2) m0, .cwb (hd 0x61) m0,
    .cpy (hd 0x26) r0, .cpy (hd 0xD0) r0, .halloc (hd 0) { r0 with aux := 2 }, .hwaitTake (hd 0) { r0 with aux := 1 }, .xfCvt (hd 0x3A) { r0 with aux := 1 },
    .xfCvt (hd 0x8A) r0, .xfCvt (hd 0x8A) { r0 with aux := 65 }, .xfHash (hd 0x66) { r0 with aux := 33 }, .mlda (hd 0xC0) x0,
    .mldb (hd 0xB0) { x0 with cnt := 32 }, .mldb (hd 0xB0) { x0 with w := 256 }, .mldb (hd 0x90) { x0 with y := 1 }, .mldbs (hd 0x90) { x0 with cnt := 2 },
    .mloop (hd 0) x0, .mloop (hd 0) { x0 with cnt := 1, w := 4 }, .marr (hd 0) x0, .mwait (hd 0) x0, .emitv (hd 0) { g0 with imm16 := 9 },
    .rflush (hd 0) { g0 with imm16 := 2 }, .fin (hd 0) { g0 with sub := 3, imm16 := 8 }, .fin (hd 0) { g0 with sub := 2, imm16 := 1 } ]

theorem test_ill_values : illValues.all (fun i => !i.wellFormed) = true := by decide

/-- Each ill-formed word is refused as ILLEGAL_ENCODING (02 R53), or it is the word of the other instruction of its opcode. -/
theorem test_ill_words : (illHeaders ++ illFields ++ illValues).all (fun i => match (encode i).map (decode (isStream i)) with
    | some (.error e) => decide (e = .illegalEncoding)
    | some (.ok j) => decide (j ≠ i)
    | none => false) = true := by decide

/-! ### Small states: one group of eight live lanes, registers of 0 but those given, memory mapped one to one -/

/-- Memory from pieces. -/
def memOf (ws : List (Nat × List Byte)) : List Host.Cell := ws.foldl (fun m w => Maps.putAll 0 w.1 w.2 m) []

/-- A page table (21 R391): 1 GiB of ordinary memory, 1 GiB of stamped pages, and a publishable page of 64 KiB; and line 1,
five words of 0 with every slot marked. -/
def pages : List (Nat × List Byte) :=
  [ (127, [0xF8]), (0x1000, [0x01, 0x20]), (0x2000, [0x01, 0x30]), (0x3000, [0x1F]), (0x3008, [0x1F, 0, 0, 0x40, 0, 0, 0, 0x20]),
    (0x3010, [0x01, 0x40]), (0x4000, [0x01, 0x50]), (0x5000, [0x1F, 0, 0x06, 0, 0, 0, 0, 0x10]) ]

/-- Uniform registers: a target in k2:3, a stamped address in k4:5, a record in k6:7, a pool in k8:9, an address in k10:11,
the publishable page in k12:13, a size in k14, a count of 1 in k15. -/
def regs : List (Nat × Word) := [(2, 0x40), (4, 0x40000000), (6, 0x600), (8, 0x800), (10, 0x900), (12, 0x80000000), (14, 64), (15, 1)]

def team0 : Team :=
  { ctx := 1, hdr := { scratch := 0x10000, rcount := 1, rtable := 0x700, acc := 4, primLimit := 16, vertLimit := 16, roles := [(64, 16, 4)] }
    rps := [(3, { init := true, count := 2, phase := 7 })], tiles := [0, 1, 2, 3] }

def frag0 : Fragment := { mask := 0xFF, pc := 64 }

def group0 : Group :=
  { team := 1, nv := 256, nk := 64, k := regs, lstat := (upto 8).map (fun l => (l, 0x8000)), frags := [(0, frag0)] }

def context0 : Context := { ptroot := 0x1000, tvec := 0xA00, ntab := 0xB00, ntlen := 4 }

/-- The state with some more memory, a group and a team. -/
def stOf (ws : List (Nat × List Byte)) (g : Group) (tm : Team) : State :=
  { cur := .frag 32 0, mem := memOf (pages ++ ws), groups := [(32, g)], teams := [(1, tm)], contexts := [(1, context0)]
    ctl := [(0x1000, 1), (0x1008, 1)], uid := 2, turn := 9, now := 7 }

def st0 : State := stOf [] group0 team0

/-- The same with the fragment's stage. -/
def stAt (x : Stage) : State := stOf [] { group0 with frags := [(0, { frag0 with stage := x })] } team0

/-- The instruction is ready and its context passes a test. -/
def holds (s : State) (i : Instr) (p : Ctx → Bool) : Bool := match readyFor s i with
  | some c => p c
  | none => false

/-- An instruction is answered with a next state. -/
def runsOn (i : Instr) (s : State) : Bool := match exec i s with
  | .next _ => true
  | _ => false

/-- All of a list are ready in a state. -/
def ready0 (s : State) (is : List Instr) : Bool := is.all (fun i => (readyFor s i).isSome)

/-- An answer that is a result. -/
def isOk {ε α : Type} : Except ε α → Bool
  | .ok _ => true
  | .error _ => false

/-- Vector operands D v0, A v4:5, B v6, C v8; the same with predicate p1; uniform A, B, C. -/
def rv : OpR := ⟨0, false, 0, 8, 6, 4, 0⟩
def rp1 : OpR := ⟨0, false, 1, 8, 6, 4, 0⟩
def iv : OpI := ⟨5, false, 1, 4, 0⟩

/-! ### Completion: each hypothesis is met -/

theorem test_integer_ready : ready0 st0
    [ .add (hd 0x60) rv, .addc (hd 0x60) rp1, .sub (hd 0x60) rv, .subb (hd 0x60) rp1, .addi (hd 0x60) iv, .mul (hd 0x60) rv,
      .mulhi (hd 0x60) rv, .mulw (hd 0x60) rv, .mad (hd 0x60) rv, .madw (hd 0x60) rv, .min (hd 0x60) rv, .max (hd 0x60) rv,
      .clamp (hd 0x60) rv, .abs (hd 0x20) rv, .sad (hd 0x60) rv, .dot4 (hd 0x40) rv, .dot2 (hd 0x50) rv, .lea (hd 0x20) rv,
      .leai (hd 0x30) iv ] = true := by decide +kernel

theorem test_division_ready : [Instr.div (hd 0x60) rv, .rem (hd 0x60) rv, .divrem (hd 0x60) rv].all (fun i =>
    holds st0 i (fun c => !tdivz c && !(zeroDivisors c 32 6 rv.b).isEmpty)) = true := by decide +kernel

theorem test_logic_ready : ready0 st0
    [ .and (hd 0x60) rv, .or (hd 0x60) rv, .xor (hd 0x60) rv, .not (hd 0x60) rv, .tern (hd 0x60) rv, .bini (hd 0x60) iv, .shl (hd 0x60) rv,
      .shr (hd 0x60) rv, .sra (hd 0x60) rv, .fsl (hd 0x60) rv, .fsr (hd 0x60) rv, .popc (hd 0x60) rv, .clz (hd 0x60) rv, .brev (hd 0x60) rv,
      .bfx (hd 0x60) rv, .bfi (hd 0x60) rv, .perm (hd 0x60) rv ] = true := by decide +kernel

theorem test_move_ready : ready0 st0
    [ .setp (hd 0x60) rp1, .setpi (hd 0x60) iv, .fsetp (hd 0xA0) rp1, .plop (hd 0) { rp1 with a := 1, b := 2, c := 3 }, .sel (hd 0x60) rp1,
      .seli (hd 0x60) iv, .mov (hd 0x60) rv, .movi (hd 0x60) iv, .p2r (hd 0) rv, .regToPred (hd 0) { rv with aux := 0x7F } ] = true := by decide +kernel

theorem test_float_ready : ready0 st0
    [ .fadd (hd 0) rv, .fsub (hd 0) rv, .fmul (hd 0) rv, .fma (hd 0) rv, .fmin (hd 0) rv, .fmax (hd 0) rv, .frnd (hd 0) rv, .fclass (hd 0) rv,
      .fadd2 (hd 0x40) rv, .fmul2 (hd 0x40) rv, .fma2 (hd 0x40) rv, .fdot2 (hd 0x40) rv, .fex2 (hd 0) rv, .flg2 (hd 0) rv, .frcp (hd 0) rv,
      .frsq (hd 0) rv, .fsin (hd 0) rv, .fcos (hd 0) rv ] = true := by decide +kernel

theorem test_conversion_ready : ready0 st0
    [ .cvt (hd 0xA2) rv, .pack (hd 0x8A) rv, .unpack (hd 0xA8) rv, .quant (hd 0xBA) rv, .dequant (hd 0xAB) rv, .pack4 (hd 0xC4) rv ] = true := by decide +kernel

theorem test_exchange_ready : ready0 st0
    [ .shfl (hd 0x60) rp1, .shfli (hd 0x60) iv, .vote (hd 0) { rp1 with a := 2 }, .pmask (hd 0) { rv with a := 2 }, .lfold (hd 0x60) rv,
      .matchLanes (hd 0x60) rv, .rdlane (hd 0x60) rp1 ] = true := by decide +kernel

/-- With every lane live each pair of a quad is whole, whatever TDERIV is. -/
theorem test_derivative_ready : [Instr.ddx (hd 0xA0) rv, .ddy (hd 0xA1) rv].all (fun i =>
    holds st0 i (fun c => !c.tm.hdr.traps.testBit 3) && holds (stOf [] group0 { team0 with hdr := { team0.hdr with traps := 8 } }) i
      (fun c => (brokenLanes (hd 0xA0) false c).isEmpty && (brokenLanes (hd 0xA1) true c).isEmpty)) = true := by decide +kernel

def xfs : List Instr :=
  [ .xfCvt (hd 0x9A) { rv with aux := 4, d := 32 }, .xfQuant (hd 0xBA) { rv with aux := 4, d := 32 },
    .xfDequant (hd 0xAB) { rv with aux := 4, d := 32 }, .xfRkey (hd 0x6A) { rv with aux := 2, a := 16, d := 32 },
    .xfHash (hd 0x66) { rv with aux := 4, a := 16, d := 32 }, .xfPenc (hd 0x9A) { rv with aux := 4, d := 32 } ]

theorem test_transform_ready : xfs.all (fun i => holds st0 i acts) = true := by decide +kernel

/-! Transfers of control -/

/-- The transfer's targets are legal, and its fragments can be placed. -/
def goes (i : Instr) (ok : Ctx → Bool) (mv : Ctx → List (Nat × DWord)) (s : State) : Bool := holds s i (fun c =>
  ok c && isOk (checkTargets c ((distinct (mv c)).map Prod.fst) c.s) && (match distinct (nextPcs c (mv c)) with | [_] => true | _ => c.f.recon.isNone))

/-- A branch to its own line, through k2:3 or with the counter in v0. -/
def bi : OpB := ⟨0, 0, 4, 0x102⟩
def bl : OpB := ⟨0, 0, 0, 0⟩

/-- A guard that holds in no lane: not p7. -/
def never : Hdr := { hd 0 with gn := true }

theorem test_direct_transfers : (goes (.bra (hd 0) bl) (fun _ => true) (fun c => toAll c.pass (directTarget c.f.pc bl)) st0 &&
    goes (.brall (hd 0) bl) (fun c => c.pass == c.active) (fun c => toAll c.active (directTarget c.f.pc bl)) st0 &&
    holds st0 (.brall never bl) (fun c => c.pass != c.active) &&
    goes (.brany (hd 0) bl) acts (fun c => toAll c.active (directTarget c.f.pc bl)) st0 &&
    goes (.call (hd 0) bl) (fun _ => true) (fun c => toAll c.pass (directTarget c.f.pc bl)) st0 &&
    goes (.loop (hd 0) { bl with a := 0x10E }) (fun _ => true) (loopBack { bl with a := 0x10E }) st0 &&
    holds st0 (.mrg (hd 0) bl) acts) = true := by decide +kernel

theorem test_indirect_transfers : (goes (.brx (hd 0) { bi with l := 0 }) (fun _ => true) (fun c => toPair c bi.a) st0 &&
    goes (.callx (hd 0) bi) (fun _ => true) (fun c => toPair c bi.a) st0 &&
    goes (.ret (hd 0) { bi with l := 0 }) (fun _ => true) (fun c => toPair c bi.a) st0 &&
    holds st0 (.mrgx (hd 0) bi) (fun c => acts c && (badForm c c.s (BitVec.ofNat 64 (rdPair c bi.a 0))).isNone)) = true := by decide +kernel

/-! System, rendezvous -/

theorem test_system_ready : (ready0 st0 [.nop (hd 0) o0, .hint (hd 0) o0, .cycrd (hd 0) rv] &&
    [(Instr.brk (hd 0) o0, 0x18), (.trap (hd 0) o0, 0x19)].all (fun e => holds st0 e.1 (fun c => acts c && !trapHeld c.s c.tm c.g c.frag e.2)) &&
    holds st0 (.sread (hd 0) { o0 with sreg := 8 }) (fun c => (sregRead c 8 0).isSome && !lstatAwaits c 8) &&
    holds st0 (.swrite (hd 0) { o0 with sreg := 8 }) (fun c => acts c && sregWritable 8 && !lstatAwaits c 8) &&
    holds (stOf [] { group0 with ecode := 0x01000019, epc := 64 } team0) (.rett (hd 0) o0)
      (fun c => acts c && inh c.g && (badForm c c.s c.g.epc).isNone)) = true := by decide +kernel

theorem test_region_ready : (holds (stOf [(0x728, [1])] group0 team0) (.rgn (hd 0) o0) (fun c => acts c && decide (fragCount c.g ≤ 1) &&
      decide (0 < c.tm.hdr.rcount) && othersReady c && tableAddr c 0 == c.tm.hdr.rtable && c.tm.hdr.rtable % 64 == 0 &&
      (match issueLoad c tableNeeds c.active c.tm.hdr.rtable 64 with
        | .ok (bs, _) => (bs.getD 40 0).toNat.testBit 0
        | .error _ => false)) && holds st0 (.rgnend (hd 0) o0) acts) = true := by decide +kernel

/-- `exit` of some lanes, of all, and of all with deterministic reductions to drain. -/
theorem test_exit_ready : (holds (stOf [] { group0 with p := [(1, true)] } team0) (.exit { hd 0 with gp := 1 } o0)
      (fun c => acts c && liveMask (leaveLanes c.frag c.pass c.g) != 0) &&
    holds st0 (.exit (hd 0) o0) (fun c => acts c && liveMask (leaveLanes c.frag c.pass c.g) == 0 && !lastWithDets c) &&
    holds (stOf [] group0 { team0 with dets := [{ pa := 0x100, fmt := 6 }] }) (.exit (hd 0) o0) (fun c => acts c &&
      liveMask (leaveLanes c.frag c.pass c.g) == 0 && lastWithDets c && !detsBlocked c.s c.tm && (storeGate c.s c.key).isNone)) = true := by decide +kernel

/-- Point 3 has COUNT 2 and no arrival; its phase is 7, so phase 6 is past. -/
def rp3 : OpR := { rp1 with aux := 3 }

theorem test_rendezvous_ready : (holds st0 (.rpinit (hd 0) { i0 with imm := 0x30005 }) (fun c =>
      acts c && (rp c.tm 3).arr == 0 && (rp c.tm 3).next == 0) &&
    holds st0 (.rparr (hd 0) rp3) (fun c => acts c && !arriveBlocked c 0) &&
    holds st0 (.rpwait (hd 0) { rp3 with a := 4 }) (fun c => phaseDone (rp c.tm 3) (BitVec.ofNat 32 (rd c 4 (lowActive c)))) &&
    holds st0 (.rparw (hd 0) rp3) (fun c => decide (c.f.stage = .fresh) && acts c && !arriveBlocked c 0) &&
    holds (stAt (.own 5)) (.rparw (hd 0) rp3) (fun c => ownDone c 5) &&
    holds st0 (.rpbytes (hd 0) rp3) acts && holds st0 (.yield (hd 0) o0) acts &&
    holds st0 (.sleep (hd 0) o0) (fun c => decide (c.f.stage = .fresh) && acts c && decide (o0.imm = 0))) = true := by decide +kernel

/-- Handle 0 of a cluster, of the context, in a state. -/
def withHandle (s : State) (h : Handle) : State := { s with clusters := [(0, { handles := [(0, h)] })] }

theorem test_waiting_ready : (goes (.yieldto (hd 0) { bl with a := 0x110 }) (fun c => rd c 0x110 0 ≤ 63 && acts c &&
      (handle (cluster c.s (clusterOf c.tm.core)) (rd c 0x110 0)).state == 2) (fun c => toAll c.active (directTarget c.f.pc bl))
      (withHandle st0 { state := 2, owner := 1 }) &&
    goes (.yieldto (hd 0) { bl with a := 0x110 }) (fun _ => true) (fun c => toAll c.active (directTarget c.f.pc bl)) (stAt (.yieldto 0 true)) &&
    holds st0 (.sleep (hd 0) { o0 with imm := 3 }) (fun c => decide (c.f.stage = .fresh) && acts c) &&
    ready0 (stAt (.asleep 7)) [.sleep (hd 0) { o0 with imm := 3 }] && ready0 st0 [.sleep (hd 0) o0]) = true := by decide +kernel

/-! Memory: the accesses pass every check. BASE is k10:11, DATA is v0. -/

def mv : OpM := ⟨0, 0, 0, 0, false, 0, 0x10A, 0⟩

/-- Ready, with the accesses passing every check, and the test on their places. -/
def reach (s : State) (i : Instr) (o : OpM) (nd : Needs) (as : Ctx → List Acc) (p : Ctx → List (Acc × Place) → State → Bool) : Bool :=
  holds s i (fun c => acts c && (match access c o nd (as c) with | .ok (ps, s1) => p c ps s1 | .error _ => false))

/-- No store before the load makes it wait. -/
def reads (c : Ctx) (ps : List (Acc × Place)) : Bool := !ctrlWaits c ps && !homeWaits c ps

theorem test_loads_reach :
    ([(Instr.ld (hd 0x60) mv, 4), (.ldw (hd 0x60) mv, 8), (.ldw (hd 0x61) mv, 16)].all (fun e =>
        reach st0 e.1 mv (loadNeeds mv [0, 1, 2, 4]) (fun c => laneAccs c mv e.2) (fun c ps _ => ps.length == 8 && reads c ps && !inHalf c.f.stage)) &&
      reach st0 (.ldacq (hd 0x60) mv) mv (loadNeeds mv [0, 1, 2]) (fun c => laneAccs c mv 4) (fun c ps _ => reads c ps) &&
      reach st0 (.ldk (hd 0x60) { mv with data := 0x114 }) { mv with data := 0x114 } (loadNeeds { mv with data := 0x114 } [0, 1, 2, 4])
        (fun c => uniAccs c { mv with data := 0x114 } 4) (fun c ps _ => ps.length == 1 && reads c ps) &&
      holds st0 (.pref (hd 0x60) mv) acts) = true := by decide +kernel

/-- The second half of `ldw.x4`, with lane 0 to finish, and lane 1 with the substitute that the first half has met. -/
def firstHalves : List HalfRead :=
  [{ acc := { lane := 0, ea := 0x900, n := 16 }, place := .mem 0x900 0, bytes := List.replicate 8 0 },
   { acc := { lane := 1, ea := 0x910, n := 16 }, place := .poison }]
def stHalf : State := stAt (.half 0 firstHalves)
def halfReaches (c : Ctx) : Bool := decide (c.f.stage = .half 0 firstHalves) && !placesLost c (halfPlaces firstHalves) && !homeWaits c (halfPlaces firstHalves)

theorem test_half_reaches : (holds stHalf (.ldw (hd 0x61) mv) (fun c => halfReaches c && c.pass.testBit 0 && c.pass.testBit 1 && Group.wf c.g && decide (c.g.nv ≤ 256)) &&
    decide (wideRegs (hd 0x61) = 4) && decide (wideRegs (hd 0x60) = 2) && runsOn (.ldw (hd 0x61) mv) stHalf) = true := by decide +kernel

theorem test_stores_reach :
    ([(Instr.st (hd 0x60) mv, 4), (.stw (hd 0x60) mv, 8), (.strel (hd 0x60) mv, 4)].all (fun e =>
        reach st0 e.1 mv (storeNeeds [0, 1, 2]) (fun c => laneAccs c mv e.2) (fun _ ps _ => ps.length == 8)) &&
      reach st0 (.stk (hd 0x60) { mv with data := 0x114 }) { mv with data := 0x114 } (storeNeeds [0, 1, 2]) (fun c => uniAccs c mv 4)
        (fun _ ps _ => ps.length == 1)) = true := by decide +kernel

/-- Bank 0 in FIFO mode, with entries; SPACE 3 with the offset in k16, which is 0. -/
def withFifo (n : Nat) : State := { st0 with clusters := [(0, { banks := [(0, { mode := 2, width := 4, fifo := List.replicate n [1, 2, 3, 4] })] })] }
def fv : OpM := { mv with space := 3, base := 0x110 }

/-- A FIFO access that can be made now. -/
def fifoNow (s : State) (i : Instr) (push place : Bool) : Bool := reach s i fv { spaces := [3] } (fun c => laneAccs c fv 4) (fun c _ s1 =>
  failing (laneAccs c fv 4) (fun a => (fifoOpnd c s1 fv (!push) a).legal c.g) == 0 &&
  !(laneAccs c fv 4).any (fun a => (fifoOpnd c s1 fv (!push) a).names.any (fun n => (held c.g).contains n)) &&
  (fifoBanks (laneAccs c fv 4)).all (fun e => fifoReady (bank (cluster s1 (clusterOf c.tm.core)) e.1) push e.2.length &&
    !(place && fifoBehind (bank (cluster s1 (clusterOf c.tm.core)) e.1) push (ticketOf c.f.stage))))

theorem test_fifo_now : (fifoNow (withFifo 0) (.fpush (hd 0x60) fv) true true && fifoNow (withFifo 8) (.fpop (hd 0x60) fv) false true &&
    fifoNow (withFifo 8) (.fpeek (hd 0x60) fv) false false) = true := by decide +kernel

theorem test_atomics_reach :
    ([Instr.atom (hd 0x60) mv, .atomcas (hd 0x60) mv, .atomf (hd 0xA0) mv].all (fun i =>
        reach st0 i mv atomNeeds (fun c => laneAccs c mv 4) (fun c ps s1 => !stepBlocked c s1 ps && !ps.any (fun e => (bankOf e.2).isSome) && !Claims.inMode c.f.stage)) &&
      [Instr.red (hd 0x60) mv, .redf (hd 0xA0) mv].all (fun i =>
        reach st0 i mv (redNeeds [0, 1, 2]) (fun c => laneAccs c mv 4) (fun c ps s1 => !stepBlocked c s1 ps)) &&
      [(Instr.redDet (hd 0x68) mv, 0x68, false), (.redfDet (hd 0xA8) mv, 0xA8, true)].all (fun e =>
        reach st0 e.1 mv (redNeeds [0]) (fun c => laneAccs c mv 4) (fun c ps _ =>
          decide (c.tm.dets.length + (detEntries (hd e.2.1) mv e.2.2 c ps).length ≤ 4096))) &&
      holds (stOf [] group0 { team0 with dets := [{ pa := 0x100, fmt := 6 }] }) (.dflush (hd 0) o0) (fun c =>
        acts c && !c.tm.dets.isEmpty && !detsBlocked c.s c.tm && (storeGate c.s c.key).isNone)) = true := by decide +kernel

/-- The exchange on BANKMODE of bank 0 (26 R438), once its mode requests have their outcomes: a page of the control region. -/
def ctrlPage : List (Nat × List Byte) := [(0x3018, [0x1F, 0, 0, 0x00, 0, 0xFF, 0x0F, 0])]
def modePlaces : List (Acc × Place) := (upto 8).map (fun l => ({ lane := l, ea := 0xC4100000, n := 4 }, .ctrl 0x4100000))
def stMode : State := stOf ctrlPage
  { group0 with k := [(2, 0x40), (10, 0xC4100000)], modeDone := (upto 8).map (fun l => (l, 0)), frags := [(0, { frag0 with stage := .mode 1 modePlaces })] } team0

theorem test_mode_exchange : (holds stMode (.atom (hd 0x66) mv) (fun c => decide (c.f.stage = .mode 1 modePlaces) && !placesLost c modePlaces &&
    modePlaces.any (fun e => (bankOf e.2).isSome) &&
    (match group? c.s c.key with
      | some g => (let mine := g.modeDone.filter (fun x => c.pass.testBit x.1)
          (modePlaces.filter (fun e => (bankOf e.2).isSome)).all (fun e => mine.any (fun x => x.1 == e.1.lane)) && mine.all (fun x => decide (x.2 < 2 ^ 32)))
      | none => false) && !stepsWait c c.s 1 (modePlaces.filter (fun e => (bankOf e.2).isNone))) &&
    reach { stMode with groups := [(32, { group0 with k := [(2, 0x40), (10, 0xC4100000)] })] } (.atom (hd 0x66) mv) mv atomNeeds (fun c => laneAccs c mv 4)
      (fun _ ps _ => ps.map Prod.snd == modePlaces.map Prod.snd)) = true := by decide +kernel

/-- Another fragment between the halves of its load, with the instruction it keeps. -/
def stBegun (i : Instr) (st : Stage) : State :=
  stOf [] { group0 with frags := [(0, { frag0 with mask := 0x0F }), (1, { frag0 with mask := 0xF0, stage := st, read := some { instr := i } })] } team0

theorem test_fences_ready : (holds st0 (.fenceAcq (hd 0) o0) (fun c => acts c && !accessOpen c.s c.key) &&
    holds (stBegun (.ldw (hd 0x61) mv) (.half 0 [])) (.fenceAcq (hd 0) o0) (fun c => acts c && accessOpen c.s c.key) &&
    [Instr.fenceRel (hd 1) o0, .fenceAr (hd 2) o0, .fenceSmp (hd 3) o0, .fwait (hd 0) o0].all (fun i => holds st0 i acts) &&
    holds (stAt (.release 1)) (.fwait (hd 0) o0) (fun c => released c.s 1)) = true := by decide +kernel

/-- Gathers take BASE k10:11 and eight indices from v0. -/
theorem test_gather_and_cache :
    (reach st0 (.ngath (hd 0x60) mv) mv { spaces := [0], rd := 1, access := 1, ctrl := false } (fun c => gatherAccs c mv) (fun c ps _ => ps.length == 64 && !ps.any (wordWaits c)) &&
      reach st0 (.nscat (hd 0x60) mv) mv { spaces := [0], wr := 1, access := 2, stamped := false, ctrl := false } (fun c => gatherAccs c mv)
        (fun _ ps _ => ps.length == 64) &&
      reach st0 (.cdisc (hd 0) mv) mv { spaces := [0], wr := 1, access := 2, stamped := false, ctrl := false } (fun c => laneAccs c mv 1)
        (fun c ps s1 => (storeGate s1 c.key).isNone &&
          !(namedLines false (ps.flatMap (fun e => match e.2 with | .mem pa _ => [pa] | _ => []))).any (fun l => !reachable s1 0 (l * 128) 128) &&
          !stillDirty s1 0 c.tm.core false (ps.flatMap (fun e => match e.2 with | .mem pa _ => [pa] | _ => [])) &&
          !(namedLines false (ps.flatMap (fun e => match e.2 with | .mem pa _ => [pa] | _ => []))).any (fun l => migrating s1 (l * 128) ||
            overlapping s1 (dieOf c.tm.core) none (l * 128) 128 s1.uid)) &&
      [(Instr.cwb (hd 0) mv, mv, [0]), (.cinv (hd 0) mv, mv, [0, 4]), (.cinv (hd 0) { mv with space := 4 }, { mv with space := 4 }, [0, 4]),
          (.icinv (hd 0) mv, mv, [0])].all (fun e => holds st0 e.1 (fun c => acts c && (match cachePas c e.2.1 e.2.2 with
        | .ok (pas, s1) => !stillDirty s1 0 c.tm.core false pas
        | .error _ => false)))) = true := by decide +kernel

/-! Copies and handles -/

/-- A command of 16 bytes of n8 from k10:11 to k6:7, and a queue packet of the same kind at k10:11. -/
def copyNow (s : State) (i : Instr) (y : Ctx → Copy) : Bool := holds s i (fun c =>
  acts c && copyFieldsOk c.tm.cor (copyOf_ c (y c)) && (copyNoncanon (copyOf_ c (y c))).isNone && copyShapeOk s (clusterOf c.tm.core) (copyOf_ c (y c)) &&
  copyBoundsOk s (copyOf_ c (y c)) && !handleWaits s (clusterOf c.tm.core) c.tm.ctx (copyOf_ c (y c)) &&
  !handleBad s (clusterOf c.tm.core) c.tm.ctx (copyOf_ c (y c)) && (group? (refill (clusterOf c.tm.core) 64 s) c.key).isSome && !spillFull (refill (clusterOf c.tm.core) 64 s) (clusterOf c.tm.core))
def cv : OpR := ⟨0, false, 0, 0x110, 0x10E, 0x10A, 0x106⟩

/-- The uniform registers with the control word of a copy in k16: no handle, no point, both ends global. -/
def stCopy (ws : List (Nat × List Byte)) : State := stOf ws { group0 with k := regs ++ [(16, 0x1F), (18, 2)] } team0

theorem test_copies_now : (copyNow (stCopy []) (.cpy (hd 0x44) cv) (cpyCommand (hd 0x44) cv) &&
    copyNow (stCopy []) (.cpyo (hd 0x44) cv) (cpyoCommand (hd 0x44) cv)) = true := by decide +kernel

/-- A packet (13 R264): kind 2, formats n8, the addresses, 16 elements of one row. -/
def packet : List Byte := toBytes 8 0x4400000002 ++ toBytes 8 0x600 ++ toBytes 8 0x900 ++ toBytes 4 16 ++ toBytes 4 0x1F ++ toBytes 4 0 ++ toBytes 4 1 ++
  List.replicate 24 0

theorem test_packet_now : holds (stCopy [(0x900, packet)]) (.cpyq (hd 0) { r0 with a := 0x10A }) (fun c => acts c &&
    (match readPacket c (rdPair c 0x10A 0) with
      | .ok (bs, s1) => descField bs 0 4 == 2 && packetReserved bs && Checks.copyPair (packetCopy bs).dfmt (packetCopy bs).sfmt &&
          copyNow s1 (.cpyq (hd 0) { r0 with a := 0x10A }) (fun _ => packetCopy bs)
      | .error _ => false)) = true := by decide +kernel

/-- Handle 0 in its states: FREE, FILLING, FULL, DRAINING; the number in k16, the size in k14. -/
def hv : OpR := { r0 with a := 0x110, b := 0x10A, c := 0x10E }

theorem test_handles_ready : (holds st0 (.halloc (hd 0) hv) (fun c => acts c && rd c hv.a 0 == 0 && rd c hv.c 0 != 0 && (handleOf c hv.a).state == 0) &&
    holds st0 (.halloc (hd 0) { hv with aux := 1 }) (fun c => hallocFits c (rdPair c hv.b 0) (rd c hv.c 0)) &&
    holds (withHandle st0 { state := 3, owner := 1 }) (.hfree (hd 0) { r0 with a := 0x110 }) (fun c => acts c && !handleGone c.f.stage && handleLegal c 0x110) &&
    [Instr.hwaitTake (hd 0) { r0 with a := 0x110 }, .hwaitPeek (hd 0) { r0 with a := 0x110, aux := 1 }].all (fun i =>
      holds (withHandle st0 { state := 2, owner := 1 }) i (fun c => acts c && decide (c.f.stage ≠ .released) && !handleGone c.f.stage && handleLegal c 0x110 &&
        (handleOf c 0x110).state == 2) && holds (stAt .released) i acts) &&
    holds st0 (.hstat (hd 0) { r0 with a := 0x110 }) (fun c => acts c && handleLegal c 0x110)) = true := by decide +kernel

/-- The publishable page is at k12:13, a count of 1 in k15. -/
def pv : OpR := { r0 with d := 0x114, a := 0x10C, b := 0x10F }

theorem test_publish_ready : (holds st0 (.publish (hd 0) pv) (fun c => acts c && canonical (rdPair c pv.a 0) && rdPair c pv.a 0 % 65536 == 0 &&
      rd c pv.b 0 == 1 && (match publishTr c (rangePages (rdPair c pv.a 0) 1) c.s with
        | .ok s1 => rangeLeaves s1 c.tm.ctx (rdPair c pv.a 0) 1
        | .error _ => false)) &&
    holds { stAt (.publish 1) with publishes := [{ id := 1, stamp := some 5 }] } (.publish (hd 0) pv)
      (fun c => decide ((c.s.publishes.find? (fun q => q.id == 1)).map (fun p => p.stamp) = some (some 5)))) = true := by decide +kernel

/-! The Almanac and the station -/

/-- `stcm` at the stamped page of k4:5. -/
def sv : OpM := { m0 with base := 0x104, data := 0 }

theorem test_stamped_ready : (ready0 st0 [.alm (hd 0) rv, .almhz (hd 0) rv] && holds st0 (.stcm (hd 0) sv) (fun c => acts c && decide (c.f.stage = .fresh) && !accessOpen c.s c.key) &&
    holds (stAt (.sending 1)) (.stcm (hd 0) sv) (fun c => released c.s 1 &&
      (match access c sv stcmNeeds (laneAccs c sv 8) with
      | .ok (ps, s1) => unstamped ps == 0 && decide (width? s1 0 ≤ (die s1 0).almlimit.toNat) && c.pass != 0 &&
          ps.all (fun e => match e.2 with | .mem _ _ => true | _ => false)
      | .error _ => false)) &&
    (let ps : List (Acc × Place) := [({ lane := 0, ea := 0x40000000, n := 8 }, .mem 0x40000000 (2 ^ 61))]
     holds (stAt (.sendWidth 3 ps)) (.stcm (hd 0) sv) (fun c => decide (c.f.stage = .sendWidth 3 ps) && !placesLost c ps &&
       decide (width? c.s 0 ≤ (die c.s 0).almlimit.toNat) && c.pass != 0)) &&
    holds (stAt (.commit 5 0)) (.stcm (hd 0) sv) (fun c => (ownLanes c c.s).all (laneVisible c.s) && !(ownLanes c c.s).any (laneLost c.s)) &&
    [Stage.fresh, .horizon].all (fun st => holds { stAt st with dies := [(0, { e := 9, l := 9, h := 9 })] } (.ldasof (hd 0) { r0 with d := 4, a := 0x104, b := 0x110 }) (fun c => acts c &&
      rdPair c 0x110 0 == 0 && decide (width? c.s 0 ≤ (die c.s 0).almlimit.toNat) && (match resolve c (setStage c c.s .horizon) 0 0 { spaces := [0], rd := 1, access := 1, ctrl := false }
          ((lanesOf c.pass).map (fun l => { lane := l, ea := rdPair c 0x104 l, n := 8 })) with
        | .ok (ps, s1) => unstamped ps == 0 && !ps.any (fun e => evicted s1 0 e.2)
        | .error _ => false))) &&
    holds { st0 with dies := [(0, { e := 9, l := 9 })] } (.almwait (hd 0) { o0 with a := 0x110 }) (fun c => acts c && passed c.s 0 (rdPair c 0x110 0))) = true := by
  decide +kernel

/-- A table entry for handle 0 and a network of one layer of 8 outputs from 2 inputs (16 R309 to R311). -/
def network : List (Nat × List Byte) := [(0xB00, [0x01, 0x0C]), (0xC00, toBytes 4 0x4C56454E ++ [1, 2]), (0xC41, [0x10]), (0xC50, [8, 9])]

theorem test_neval_ready : (holds (stOf network group0 team0) (.neval (hd 0) { r0 with d := 16, a := 4, b := 0x110 }) (fun c => acts c &&
      (match Maps.find? c.tm.ctx c.s.contexts with
        | some x => (match nevNets c x (rd c 0x110) with
            | .ok (entry, net, s1) => (lanesOf c.pass).all (fun l => decide (4 + netInRegs (net l) ≤ c.g.nv) && decide (16 + netOutRegs (net l) ≤ c.g.nv)) &&
                !(nevNames c { r0 with d := 16, a := 4, b := 0x110 } net).any (fun n => (held c.g).contains n) &&
                (let reqs := (lanesOf c.pass).map (nevReq c { r0 with d := 16, a := 4, b := 0x110 } s1.uid entry net)
                 let s2 := refillStation s1 c.tm.core
                 (admitReqs (s2.uid + 16) (nevQuota s2 c.tm.core) reqs (Ops.core s2 c.tm.core)).2.isEmpty &&
                   decide (nevPending (Ops.core s2 c.tm.core) + reqs.length ≤ 4096) && ringReaches s2 c.tm.core
                     ((admitReqs (s2.uid + 16) (nevQuota s2 c.tm.core) reqs (Ops.core s2 c.tm.core)).1.nspill.length - (Ops.core s2 c.tm.core).nspill.length))
            | .error _ => false)
        | none => false)) && ready0 st0 [.nevstatCnt (hd 0) rv, .nevstatKick (hd 0) rv]) = true := by decide +kernel

/-! Sample sets: the record of k6:7 at 0x600, samples at 0x10000, index at 0x20000, the pool of k8:9 at 0x800 -/

/-- A record (17 R329): its state, kind, samples in the main segment and index size; leaf capacity 4. -/
def recordOf (state kind count isize : Nat) : List (Nat × List Byte) :=
  [(0x600, toBytes 5 (state + 2 ^ 32 * kind)), (0x608, [4]), (0x610, toBytes 4 count), (0x618, [1]), (0x622, [1]), (0x62A, [2]), (0x630, toBytes 4 isize)]

/-- A pool descriptor (17 R348): two blocks, the heads at 0x10000. -/
def pool : List (Nat × List Byte) := [(0x800, [2]), (0x80A, [1])]

/-- A GRID record of one lattice point. -/
def gridRecord : List (Nat × List Byte) := recordOf 0 0 0 8192 ++ [(0x60A, [1, 0, 1])]

def gv : OpG := { g0 with set := 0x106, a := 0x108, b := 0x110, c := 0x110 }
def ga : OpG := { g0 with set := 0x106, a := 4, b := 0x110 }

/-- The record is reached. -/
def atRec (s : State) (i : Instr) (o : OpG) (writes : Bool) (p : Ctx → List Byte → State → Bool) : Bool := holds s i (fun c =>
  acts c && rdPair c o.set (lowActive c) == 0x600 && (match issueTr c c.s { spaces := [0], rd := 1, access := 1, ctrl := false } c.active 0x600 with
    | .ok (pa, leaf, s1) => reachable s1 (dieOf c.tm.core) pa 256 && !(writes && leaf.testBit 61) && !setBlocked c s1 pa 256 && p c (seenBytes s1 pa 256) s1
    | .error _ => false))

theorem test_sets_new : (atRec (stOf (recordOf 0 1 0 8192) group0 team0) (.ssnew (hd 0) { gv with a := 0 }) gv true (fun _ rc _ =>
      recState rc == 0 && paramsOk rc && recKind rc != 0) &&
    atRec (stOf gridRecord group0 team0) (.ssnew (hd 0) { gv with a := 0 }) gv true (fun c rc s1 => recState rc == 0 && paramsOk rc && recKind rc == 0 &&
      (let g := topGrid (recCellreq rc) (latticePoints (recGw rc) (recCap rc))
       buildCode rc g (recCap rc) == 0 && isOk (setRange c s1 0 1 c.active (recSamples rc) (64 * recCap rc)) &&
         isOk (setRange c s1 0 1 c.active (recIndex rc) (indexBytes g (recCap rc)))))) = true := by decide +kernel

theorem test_sets_add_build : (atRec (stOf (recordOf 1 1 0 8192) group0 team0) (.ssadd (hd 0) ga) ga true (fun c rc s1 =>
      Opnd.legal c.g (addRun ga (recFp rc)) && !(addRun ga (recFp rc)).names.any (fun n => (held c.g).contains n) && recState rc != 0 &&
      lanesWhere (addTrs c rc s1) (fun t => t == .noncanon) == 0 &&
      (judge (addPlan c rc s1).2 { spaces := [0], wr := 1, access := 2, stamped := false, ctrl := false } (addTrs c rc s1)).isNone &&
      !(addTrs c rc s1).any (fun e => match e.2 with | .ok p _ _ _ => setBlocked c (addPlan c rc s1).2 p 64 | _ => false)) &&
    atRec (stOf (recordOf 1 1 1 8192) group0 team0) (.ssbuild (hd 0) gv) gv true (fun c rc s1 =>
      recState rc == 1 && (match planBuild c s1 rc with | .ok b => b.code == 0 | .error _ => false))) = true := by decide +kernel

/-- The set has been bound by this instruction. -/
def bound (s : State) : State := { s with sets := [(setKey 1 0x600, { ctx := 1, handle := 0x600, bindGroup := 32, bindPc := 64 })] }

/-- The rebuild is of an empty set: before and after it the record has no cells, so the plan of the bind is the same. -/
theorem test_sets_bind : (([false, true].all (fun again => atRec (bound (stOf (recordOf 3 1 0 8192) group0 team0))
        (if again then .ssrebind (hd 0) gv else .ssbind (hd 0) gv) gv true (fun c rc s1 => bindReplayed c s1 0x600 rc))) &&
    atRec (stOf (recordOf 2 1 0 8192 ++ pool) group0 team0) (.ssbind (hd 0) gv) gv true (fun c rc s1 => !bindReplayed c s1 0x600 rc &&
      (match bindChecks c s1 rc (bindArgs c gv) with | .ok (heads, _) => isOk (planBind c s1 rc (bindArgs c gv) heads) | .error _ => false)) &&
    [(0, 1), (8192, 0)].all (fun e => atRec (stOf (recordOf 2 1 0 e.1 ++ pool) group0 team0) (.ssrebind (hd 0) gv) gv true (fun c rc s1 =>
      !bindReplayed c s1 0x600 rc && (match bindChecks c s1 rc (bindArgs c gv), planBuild c s1 rc with
        | .ok (heads, _), .ok b => b.code == e.2 && (e.2 != 0 || isOk (planBind c s1 rc (bindArgs c gv) heads))
        | _, _ => false)))) = true := by decide +kernel

theorem test_sets_free_get : (atRec (stOf (recordOf 2 1 0 8192) group0 team0) (.ssfree (hd 0) gv) gv true (fun c rc _ =>
      recState rc == 2 && (ticketOf c.f.stage).isNone && decide (c.f.stage ≠ .released)) &&
    holds (stAt .released) (.ssfree (hd 0) gv) (fun c => decide (c.f.stage = .released)) &&
    [1, 2].all (fun t => atRec { stOf (recordOf 2 1 0 8192) { group0 with frags := [(0, { frag0 with stage := .ticket 1 })] } team0 with
        sets := [(setKey 1 0x600, { freers := [(t, 32)] })] } (.ssfree (hd 0) gv) gv true (fun c rc s1 =>
      recState rc == 2 && decide (ticketOf c.f.stage = some 1) && ((setSt s1 c 0x600).freers.head?).any (fun f => f.1 == t))) &&
    atRec st0 (.ssget (hd 0) { gv with a := 0 }) gv false (fun _ _ _ => true)) = true := by decide +kernel

/-- A bound set, and the instructions that emit to it. -/
def stBound : State := stOf (recordOf 3 1 0 8192) group0 team0

theorem test_emissions_now : ([(Instr.emitv (hd 0) ga, 3, vertexPlan), (.emit (hd 0) ga, 3, trianglePlan ga), (.emitsp (hd 0) ga, 9, splatPlan)].all (fun e =>
      atRec stBound e.1 ga false (fun c rc s1 => emitsTo s1 c 0x600 rc && (emitTrap c (e.2.2 c) s1).isNone && Opnd.legal c.g (runOpnd ga e.2.1) &&
        !(runOpnd ga e.2.1).names.any (fun x => (held c.g).contains x))) &&
    atRec stBound (.rflush (hd 0) gv) gv false (fun c rc s1 => emitsTo s1 c 0x600 rc)) = true := by decide +kernel

theorem test_fragment_ready : (ready0 st0 [.fin (hd 0) g0, .fdep (hd 0) g0, .disc (hd 0) g0] &&
    holds (stOf [] { group0 with shade := some { nch := 1 } } team0) (.fout (hd 0) g0) (fun c => acts c && decide (0 < (shadeOf c.g).nch))) = true := by
  decide +kernel

/-! Streams: the sequencer of team 1 at line 1 -/

def seq0 : Seq := { spc := 64, arrival := false }
def stSeq (q : Seq) : State :=
  { st0 with cur := .seq 1, teams := [(1, { team0 with seq := some q })], groups := (upto 4).map (fun k => (32 + k, { group0 with idx := k })) }

/-- A stream instruction that is ready, with a test on its team, sequencer and state. -/
def streams (s : State) (o : OpX) (arrives : Bool) (p : Team → Seq → State → Bool) : Bool := match streamReady s o arrives with
  | some (_, tm, q, s1) => p tm q s1
  | none => false

def claimed (o : OpX) (tm : Team) (q : Seq) (s : State) : Bool := isOk (claimTile 1 tm q o.tile.toNat s)

theorem test_streams_ready : (streams (stSeq seq0) x0 false (fun _ _ _ => true) &&
    streams (stSeq seq0) x0 false (fun tm _ s1 => decide (0 + 3 < teamGroups tm) && (upto 4).all (fun k => (group? s1 (groupKey 1 k)).isSome) &&
      (upto 4).all (fun k => (group? s1 (groupKey 1 k)).all (fun g => decide (0 + 32 ≤ g.nv) && !resultDue g 0 32))) &&
    streams (stSeq seq0) x0 false (fun tm _ _ => inScratch tm (31 * 0) (imageBytes 9 64) && scaleBlockOk tm 0 64 && moveOk tm x0) &&
    streams (stSeq seq0) x0 false (fun tm q s1 => claimed x0 tm q s1 && decide (x0.tile.toNat < tm.hdr.acc)) &&
    streams (stSeq { seq0 with granted := true, latch := { valid := true, fmt := 9 } }) x0 false (fun tm q s1 => mmaOk tm q false && claimed x0 tm q s1) &&
    streams (stSeq { seq0 with granted := true, latch := { valid := true, fmt := 9, batched := true } }) x0 false (fun tm q s1 =>
      mmaOk tm q true && claimed x0 tm q s1)) = true := by decide +kernel

/-- A loop of one trip ends; one of three goes back to its line; and an arrival at point 3, a wait for its phase 0. -/
def xl (n : BitVec 8) : OpX := { x0 with cnt := n }

theorem test_streams_loop_meet : (streams (stSeq seq0) (xl 1) false (fun _ q _ => q.depth == 0) &&
    streams { stSeq seq0 with mem := memOf (pages ++ [(127, [0]), (126, [0x10]), (127, [0xF8])]) } (xl 3) false (fun tm q s1 =>
      q.depth == 0 && isOk (checkStreamTarget tm (BitVec.ofNat 64 (lineOf q.spc)) s1)) &&
    streams (stSeq seq0) { x0 with rpe := true, rp := 3 } true (fun tm _ _ => (rp tm 3).init && decide ((rp tm 3).arr < (rp tm 3).count)) &&
    streams (stSeq seq0) { x0 with rpe := true, rp := 3 } false (fun _ _ _ => true)) = true := by decide +kernel

/-! Events -/

def pstore : PStore := { id := 1, group := 32, pa := 0x100, bytes := [1] }
def publish1 : Publish := { id := 1, ctx := 1, group := 32, base := 0x80000000, count := 1 }

theorem test_events_memory : (st0.power ≠ 4 ∧ mayPerform { st0 with stores := [pstore] } pstore = true ∧
    ctlBehind { st0 with stores := [pstore] } pstore = false ∧ ({ st0 with power := 4 } : State).power = 4 ∧
    releaseHolds { st0 with rels := [{ id := 1, group := 32 }] } { id := 1, group := 32 } = true ∧
    publishReady { st0 with publishes := [publish1] } publish1 = true ∧ publishBehind { st0 with publishes := [publish1] } publish1 = false ∧
    (group? st0 32).isSome = true ∧ ({ copies := [{ id := 1 }] } : Cluster).copies.find? (fun y => y.id == 1) = some { id := 1 } ∧
    [({ id := 1, team := 1, rp := 3 } : Arrival)].find? (fun x => x.id == 1) = some { id := 1, team := 1, rp := 3 }) := by decide +kernel

/-- A tile of the station with its one layer still to do, and with none. -/
def tileAt (layer : Nat) : NevTile := { layer := layer, granted := true, rows := [{ net := toBytes 5 0x014C56454E }] }

theorem test_events_engines : (tileDone (tileAt 0) = false ∧ tileDone (tileAt 1) = true ∧ (tileAt 0).parked = none ∧
    advanceOk { st0 with dies := (upto 9).map (fun d => (d, { l := 20 })) } 10 3 5 20 = true ∧
    (die { st0 with now := 2 ^ 23 } 3).available = true ∧ (die { st0 with now := 2 ^ 23 } 3).floorTime + 2 ^ 22 ≤ 2 ^ 23 ∧
    parityOk (1 :: List.replicate 63 0) = false ∧ windowOf 0x8000000000000 = .host ∧ windowOf (0x8000000000000 + 1) = .host ∧
    st0.migration = none) := by decide +kernel

/-! ### The other statements: each hypothesis and clause is met -/

/-- A line (02 R33): a word in slot 0, words of 0 after it, its kind and parity, every slot marked. -/
def lineOf0 (w : Nat) (kind : Byte) : List Byte :=
  let bs := toBytes 12 w ++ List.replicate 48 0
  bs ++ toBytes 2 (parityOf bs) ++ [kind * 16, 0xF8]

/-- A step is answered with a next state. -/
def stepsOn (s : State) : Bool := match step s with
  | .next _ => true
  | _ => false

theorem test_step_of_fragment :
    (let s0 : State := { stOf [(64, lineOf0 0x0001_C000_0000_0000_0000_0000 0)] group0 team0 with turn := 10 }
     (match fetchLine s0 0 1 (lineOf frag0.pc) with
      | (.line bs, _) => lineWordOk false (lineWord bs) && !badArrival frag0 bs && kernelAllows team0.hdr (.nop (hd 0) o0) &&
          decide (decode false (slotWord bs (slotOf frag0.pc)) = .ok (.nop (hd 0) o0)) && decide (slotOf frag0.pc = 0)
      | _ => false) && !groupHeld s0 32 group0 team0 0 frag0.stage && group0.nevTrap.isNone && (lateOf group0 frag0).isNone && (trapDue frag0.stage).isNone &&
      stepsOn { s0 with turn := 9, agenda := [.issue 32 0] } && standsAt { s0 with turn := 10 } 32 0 frag0.pc.toNat frag0.mask &&
      stepsOn { s0 with turn := 9, agenda := [.pair 32 0 frag0.pc.toNat frag0.mask] }) = true := by decide +kernel

/-- A fragment that keeps its instruction, and one that keeps a trap, with nothing that holds it back, and under an open window. -/
theorem test_step_of_waiting_fragment :
    (let f : Fragment := { frag0 with stage := .horizon, read := some { instr := .ldasof (hd 0) r0 } }
     let t : Fragment := { frag0 with stage := .trapping 3 0 255 0 }
     [f, t].all (fun x => !groupHeld (stOf [] { group0 with frags := [(0, x)] } team0) 32 { group0 with frags := [(0, x)] } team0 0 x.stage &&
         decide (x.stage ≠ .fresh) && stepsOn { stOf [] { group0 with frags := [(0, x)] } team0 with agenda := [.wake 32 0] }) &&
       (trapDue f.stage).isNone && (trapDue t.stage).isSome && !trapHeld st0 team0 group0 0 3 &&
       trapHeld st0 team0 { group0 with windows := [{ left := 1, ready := false }] } 0 3) = true := by decide +kernel

/-- The words that trap instead: a line of the other kind, an arrival without a mark, an opcode that is not assigned, one that the kernel does not
allow, and an encoding; with nothing that holds the trap back, and under an open window. -/
theorem test_step_of_wrong_words :
    (let line (bs : List Byte) (f : Fragment) (p : State → List Byte → Bool) : Bool :=
       let s := stOf [(64, bs)] { group0 with frags := [(0, f)] } team0
       match fetchLine s 0 1 (lineOf f.pc) with
         | (.line b, s1) => p s1 b
         | _ => false
     let held (s : State) (code : Nat) : Bool := !trapHeld s team0 group0 0 code && trapHeld s team0 { group0 with windows := [{ left := 1, ready := false }] } 0 code
     let word (b : List Byte) : IWord := slotWord b 0
     let good (b : List Byte) : Bool := lineWordOk false (lineWord b) && !badArrival frag0 b
     line (lineOf0 0 1) frag0 (fun s b => !lineWordOk false (lineWord b) && held s 2) &&
       line ((lineOf0 0 0).set 63 0) { frag0 with arrival := 1 } (fun s b => lineWordOk false (lineWord b) && badArrival { frag0 with arrival := 1 } b && held s 4) &&
       line (lineOf0 0x2585_C020_0000_0000_0014_0A06 0) frag0 (fun s b => good b && decide (decode false (word b) = .error .illegalOpcode) && held s 1) &&
       line (lineOf0 0xE201_C000_0000_1000_043C_2214 0) frag0 (fun s b => good b && (rawDecode (word b)).any (fun i => !kernelAllows team0.hdr i) && held s 1) &&
       line (lineOf0 0x2005_C020_0000_0000_0014_0A06 0) frag0 (fun s b => good b && (rawDecode (word b)).any (kernelAllows team0.hdr) &&
         decide (decode false (word b) = .error .illegalEncoding) && held s 2)) = true := by decide +kernel

/-- A cycle of a quarter, and an operation that the array is granted to. -/
theorem test_step_of_cycle_and_grant : (stepsOn { st0 with agenda := [.cycle 0 0] } &&
    (let q : Seq := { seq0 with granted := true, op := some (.mzero (hd 0) x0) }
     !seqIdle team0 q && isStream (.mzero (hd 0) x0) && stepsOn { stSeq q with agenda := [.stream 1] })) = true := by decide +kernel

theorem test_step_of_sequencer :
    (let s0 : State := { stSeq seq0 with mem := memOf (pages ++ [(64, lineOf0 0xD301_C000_0000_0000_0000_0000 1)]) }
     (match fetchLine s0 0 1 (lineOf seq0.spc) with
      | (.line bs, _) => lineWordOk true (lineWord bs) && decide (decode true (slotWord bs (slotOf seq0.spc)) = .ok (.mend (hd 0) x0))
      | _ => false) && !seqIdle team0 seq0 && !seq0.granted && seq0.op.isNone && !seq0.arrival) = true := by decide +kernel

theorem test_step_of_replay_and_event :
    (let q : Parked := { id := 1, go := true, instr := .ld (hd 0x60) mv, pass := 0xFF, active := 0xFF }
     stepsOn { stOf [] { group0 with parked := [q] } team0 with agenda := [.replay 32 1] } && !team0.out && (trapDue q.stage).isNone &&
       (encode .tlbSweepDone).isNone && stepsOn { st0 with agenda := [.event .tlbSweepDone] }) = true := by decide +kernel

/-- A line that is not held, a held copy, one that fails parity while memory passes, and both failing; and a line of a stamped page, that
passes and that fails. -/
theorem test_fetch_cases :
    (let at_ (va : Nat) (stamped pass : Bool) (s : State) : Bool := match translate s 1 0 none (Ops.core s 0).tlb va 0 0 0 false with
        | .ok pa leaf _ _ => (stamped || pa == 64) && leaf.testBit 61 == stamped && decide (windowOf pa ≠ .control) && (homeDie s 0 pa).isSome &&
            !stampedMoves s pa && (!stamped || parityOk (homeBytesAt s 0 leaf (pa / 64 * 64) 64) == pass)
        | _ => false
     let t : State → Bool := at_ 64 false true
     let bad : List Byte := 1 :: List.replicate 63 0
     t st0 && parityOk (readBytes st0 64 64) && (Maps.find? 64 (Ops.core st0 0).ilines).isNone && !parityOk bad &&
       t { st0 with cores := [(0, { ilines := [(64, List.replicate 64 0)] })] } && t { st0 with cores := [(0, { ilines := [(64, bad)] })] } &&
       at_ 0x40000040 true true st0 && at_ 0x40000000 true false (stOf [(0x40000000, [1])] group0 team0) &&
       t (stOf [(64, [1])] group0 team0) && !parityOk (readBytes (stOf [(64, [1])] group0 team0) 64 64)) = true := by decide +kernel

/-- What stands between an instruction and its operand check, for one that fails it. -/
def illegalNow (i : Instr) (p : Shape → Ctx → Bool) : Bool := match shapeOf i with
  | some x => (match ctx? (stOf [] { group0 with nv := 8, nk := 20 } team0) i x.hdr with
    | some c => c.park.isNone && !stalled (withoutHelpers x.marks c) x.marks x.opnds x.preds && !trapHeld c.s c.tm c.g c.frag 0x03 && p x c
    | none => false)
  | none => false

/-- k64, k20 of 20, v8 of 8, an odd pair, the wrong file either way, and one register twice. -/
theorem test_illegal_operands :
    (illegalNow (.add (hd 0x60) { rv with d := 0x140 }) (fun x _ => x.opnds.any (fun o => isUni o.reg && decide (64 < regNo o.reg + o.count))) &&
      illegalNow (.add (hd 0x60) { rv with a := 0x114 }) (fun x c => x.opnds.any (fun o => isUni o.reg && decide (c.g.nk < regNo o.reg + o.count))) &&
      illegalNow (.add (hd 0x60) { rv with b := 8 }) (fun x c => x.opnds.any (fun o => !isUni o.reg && decide (c.g.nv < regNo o.reg + o.count))) &&
      illegalNow (.add (hd 0x70) { rv with a := 5 }) (fun x _ => x.opnds.any (fun o => o.align == 2 && regNo o.reg % 2 == 1)) &&
      illegalNow (.cpy (hd 0x44) rv) (fun x _ => x.opnds.any (fun o => decide (o.file = .uni) && !isUni o.reg)) &&
      illegalNow (.xfHash (hd 0x66) { rv with aux := 1, a := 0x102 }) (fun x _ => x.opnds.any (fun o => decide (o.file = .vec) && isUni o.reg)) &&
      illegalNow (.divrem (hd 0x60) { rv with c := 0 }) (fun x _ => decide (¬ (destNames x.opnds).Nodup))) = true := by decide +kernel

/-- The ways in which an instruction is held back. -/
def heldNow (i : Instr) (s : State) (p : Shape → Ctx → Bool) : Bool := match shapeOf i with
  | some x => (match ctx? s i x.hdr with
    | some c => c.park.isNone && p x c
    | none => false)
  | none => false

theorem test_held_ways :
    (let i : Instr := .ld (hd 0x60) mv
     let w : Window := { ready := false, dest := [.k 10, .p 7] }
     heldNow i (stOf [] group0 { team0 with out := true }) (fun _ c => c.tm.out) &&
       heldNow i (stOf [] { group0 with fetchPark := some 1 } team0) (fun _ c => !begun c.f.stage && c.g.fetchPark.isSome) &&
       heldNow i (stOf [] { group0 with stopped := [0] } team0) (fun _ c => c.g.stopped.contains c.frag && !inAcquire c.f.stage) &&
       heldNow i (stOf [] { group0 with windows := [w] } team0) (fun x c => x.opnds.any (fun o => o.names.any (fun n => (held c.g).contains n)) &&
         (held c.g).contains (.p x.hdr.gp.toNat) && !inOwn c.f.stage) &&
       heldNow (.fwait (hd 0) o0) (stOf [] { group0 with parked := [{ id := 1 }] } team0) (fun x c => x.marks.waits && !c.g.parked.isEmpty) &&
       heldNow i { st0 with rels := [{ id := 1, group := 32, hold := 3 }] } (fun _ c => c.s.rels.any (fun r => r.group == c.key && r.hold == 3) &&
         !inRelease c.f.stage) &&
       heldNow i { st0 with rels := [{ id := 1, group := 32, hold := 2 }] } (fun x c => x.marks.mem && c.s.rels.any (fun r => r.group == c.key && r.hold == 2)) &&
       heldNow i (stOf [] { group0 with frags := [(0, { frag0 with mask := 0x0F }), (1, { frag0 with mask := 0xF0, stage := .commit 5 0 })] } team0)
         (fun _ c => c.g.frags.any (fun e => e.1 != c.frag && inStcm e.2.stage)) &&
       heldNow i (stBegun (.ldasof (hd 0) r0) .horizon) (fun x c => x.marks.mem && c.g.frags.any (fun e => e.1 != c.frag && begun e.2.stage &&
         e.2.read.any (fun r => acquires r.instr))) &&
       heldNow i (stBegun (.rpwait (hd 0) rp3) .phase) (fun x c => x.marks.mem && c.g.frags.any (fun e => e.1 != c.frag && inAcquire e.2.stage)) &&
       heldNow (.ssget (hd 0) gv) (stBegun (.ssfree (hd 0) gv) (.ticket 1)) (fun _ c => namesSet c.i && c.g.frags.any (fun e => e.1 != c.frag && decide (e.2.stage ≠ .released) && e.2.read.any (fun r => namesSet r.instr))) &&
       heldNow i (stOf [] { group0 with parked := [{ id := 1, instr := .emit (hd 0) ga }] } team0) (fun _ c => c.g.parked.any (fun q => isSole q.instr)) &&
       heldNow (.emit (hd 0) ga) (stOf [] { group0 with windows := [{ ready := false, dest := [.v 6] }] } team0)
         (fun _ c => (runSrc c.g c.i).any (fun n => (held c.g).contains n) && !inOwn c.f.stage) &&
       [Stage.own 1, .phase, .blocked, .handle 1, .released].all (fun st =>
         heldNow i (stOf [] { group0 with frags := [(0, { frag0 with mask := 0x0F }), (1, { frag0 with mask := 0xF0, stage := st })] } team0)
           (fun _ c => decide (c.f.stage = .fresh) && c.g.frags.any (fun e => e.1 != c.frag && holdsGroup e.2.stage && !c.g.stopped.contains e.1)))) =
      true := by decide +kernel

def guardedOff (i : Instr) (p : Ctx → Bool) : Bool := holds st0 i (fun c => c.pass == 0 && c.active != 0 && decide (c.f.stage = .fresh) && p c)

theorem test_guarded_off : (guardedOff (.add { hd 0x60 with gn := true } rv) (fun _ => !actsAnyway (.add (hd 0x60) rv)) &&
    guardedOff (.redDet { hd 0x68 with gn := true } mv) (fun _ => true) && guardedOff (.redfDet { hd 0xA8 with gn := true } mv) (fun _ => true)) = true := by
  decide +kernel

theorem test_guarded_off_numbers : ([Instr.swrite never { o0 with sreg := 8 }, .sread never { o0 with sreg := 8 }, .rpinit never { i0 with imm := 0x30005 },
      .rparr never rp3, .rpwait never rp3, .rparw never rp3, .rpbytes never rp3].all (fun i => guardedOff i (fun _ => true)) &&
    holds st0 (.swrite never { o0 with sreg := 8 }) (fun c => sregWritable 8 && !lstatAwaits c 8) &&
    holds st0 (.sread never { o0 with sreg := 8 }) (fun c => (sregRead c 8 0).isSome && !lstatAwaits c 8) &&
    decide (field ({ i0 with imm := 0x30005 } : OpI).imm.toNat 16 5 < 24) && decide (field rp3.aux.toNat 0 5 < 24)) = true := by decide +kernel

/-- A state from which a step goes on, with memory and registers in canonical form. -/
theorem test_invariants : (stepsOn { st0 with agenda := [.issue 32 0] } && Memory.wf st0.mem && st0.groups.all (fun e => Group.wf e.2) &&
    decide (Maps.rising st0.groups = true) && decide (Maps.rising st0.launches = true)) = true := by decide +kernel

theorem test_frames_register : ((readyFor st0 (.add (hd 0x60) rv)).isSome && decide (classOf (.add (hd 0x60) rv) = 2) && team0.hdr.traps == 0 &&
    Group.wf group0 && decide (group0.nv ≤ 256) && runsOn (.add (hd 0x60) rv) st0) = true := by decide +kernel

/-- Accesses that reach ordinary memory, and their instructions go on. -/
theorem test_frames_memory :
    (reach st0 (.ld (hd 0x60) mv) mv (loadNeeds mv [0, 1, 2, 4]) (fun c => laneAccs c mv 4) (fun c ps _ => reads c ps && !inHalf c.f.stage) && runsOn (.ld (hd 0x60) mv) st0 &&
      reach st0 (.st (hd 0x60) mv) mv (storeNeeds [0, 1, 2]) (fun c => laneAccs c mv 4) (fun _ ps _ =>
        ps.all (fun e => match e.2 with | .ctrl _ => false | _ => true)) && runsOn (.st (hd 0x60) mv) st0 &&
      reach st0 (.atom (hd 0x60) mv) mv atomNeeds (fun c => laneAccs c mv 4) (fun c ps s1 => !stepBlocked c s1 ps && !Claims.inMode c.f.stage &&
        ps.all (fun e => match e.2 with | .ctrl _ => false | _ => true)) && runsOn (.atom (hd 0x60) mv) st0 &&
      st0.teams.all (fun e => Maps.canonical (0 : Byte) e.2.scratch)) = true := by decide +kernel

theorem test_frame_perform : (let s : State := { st0 with stores := [pstore] }
    mayPerform s pstore && !ctlBehind s pstore && pstore.scratch.isNone && decide (windowOf pstore.pa ≠ .control) && (homeDie s (dieOf pstore.core) pstore.pa).isSome &&
      Memory.wf s.mem && runsOn (.storePerform 1) s) = true := by decide +kernel

/-- An address of 2 modulo 4 in k10:11, for a load, a store and an atomic, with the others' addresses canonical. -/
theorem test_misaligned : (let s := stOf [] { group0 with k := [(10, 0x902)] } team0
    [Instr.ld (hd 0x60) mv, .st (hd 0x60) mv, .atom (hd 0x60) mv].all (fun i => holds s i (fun c => acts c && !trapHeld c.s c.tm c.g c.frag 0x03 && !inHalf c.f.stage &&
      !Claims.inMode c.f.stage && failing (laneAccs c mv 4) (fun a => canonical a.ea) == 0 && misaligned (laneAccs c mv 4) == 0xFF))) = true := by decide +kernel

/-- Slots 3 and 4 of a line, and the last line of the address space. -/
theorem test_next_slots : (pcFormOk 3 && slotOf 3 == 3 && pcFormOk 4 && slotOf 4 == 4 && lineOf (nextSlot 4) == 64 &&
    pcFormOk 0xFFFFFFFFFFFFFFC4 && lineOf (nextSlot 0xFFFFFFFFFFFFFFC4) == 0 && group0.joins.isEmpty) = true := by decide +kernel

theorem test_exit_clears : (holds st0 (.exit (hd 0) o0) (fun c => acts c && c.g.windows.isEmpty && Group.wf c.g && liveMask (leaveLanes c.frag c.pass c.g) == 0) &&
    holds (stOf [] { group0 with p := [(1, true)] } team0) (.exit { hd 0 with gp := 1 } o0) (fun c => acts c && c.g.windows.isEmpty && Group.wf c.g &&
      liveMask (leaveLanes c.frag c.pass c.g) == 0xFE)) = true := by decide +kernel

/-- One open window of three more instructions, passed by one and by three; a completion under a window of two and of one. -/
theorem test_lookahead : (let w : Window := { left := 3, writes := [.k 1 5] }
    decide ((passWindows^[1] { group0 with windows := [w] }).windows = [{ w with left := 2 }]) &&
      decide (Maps.get 0 1 (passWindows^[3] { group0 with windows := [w] }).k = 5) &&
      holds st0 (.ld (hdLa 0x60) mv) (fun c => c.h.la != 0 && c.g.windows.isEmpty) && [1, 2].all (fun n =>
        holds (stOf [] { group0 with windows := [{ w with left := n }] } team0) (.nop (hd 0) o0) (fun c => c.h.la == 0 && w.ready &&
          (group? c.s c.key).any (fun g => decide (g.windows = [{ w with left := n }]))))) = true := by decide +kernel

theorem test_arithmetic_traps : (let s (g : Group) := stOf [] g { team0 with hdr := { team0.hdr with traps := 9 } }
    [Instr.div (hd 0x60) rv, .rem (hd 0x60) rv, .divrem (hd 0x60) rv].all (fun i => holds (s group0) i (fun c => tdivz c &&
      !(zeroDivisors c 32 6 rv.b).isEmpty && !trapHeld c.s c.tm c.g c.frag 0x0B)) &&
    [(Instr.ddx (hd 0xA0) rv, false), (.ddy (hd 0xA0) rv, true)].all (fun e => holds (s { group0 with lstat := [(0, 0x8000)], frags := [(0, { frag0 with mask := 1 })] })
      e.1 (fun c => c.tm.hdr.traps.testBit 3 && !(brokenLanes (hd 0xA0) e.2 c).isEmpty && !trapHeld c.s c.tm c.g c.frag 0x0C))) = true := by decide +kernel

/-- A vector table whose entry for ILLEGAL_OPERAND is line 1, for DIVZ an address of a wrong form, for BREAKPOINT a line without marks; the
other entries are 0. -/
def vectors : List (Nat × List Byte) := [(0xA18, [0x40]), (0xA58, [0x45]), (0xAC0, [0x80])]

theorem test_trap_entries : (let s := stOf vectors group0 team0
    decide (vectorEntry s context0 1 0 0x03 = some 0x40) && pcFormOk 0x40 && canonical (lineOf 0x40) && !inh group0 && group0.joins.isEmpty &&
      (match fetchLine s 0 1 0x40 with | (.line bs, _) => marked (lineWord bs) 0 | _ => false) &&
      inh { group0 with ecode := 0x01000000 } && decide (vectorEntry s context0 1 0 0x04 = none) &&
      decide (vectorEntry s { context0 with tvec := 0 } 1 0 0x03 = none) && decide (vectorEntry s context0 1 0 0x0B = some 0x45) && !pcFormOk 0x45 &&
      decide (vectorEntry s context0 1 0 0x18 = some 0x80) && pcFormOk 0x80 && (match fetchLine s 0 1 0x80 with
        | (.line bs, _) => !marked (lineWord bs) 0
        | _ => false) && context0.dead.isNone) = true := by decide +kernel

theorem test_status_writes : [8, 9].all (fun n => holds st0 (.swrite (hd 0) { o0 with sreg := n }) (fun c =>
    acts c && c.g.windows.isEmpty && Group.wf c.g)) = true := by decide +kernel

/-- The forms of the carries and functions are ready in both widths. -/
theorem test_carry_forms : ready0 st0 [.addc (hd 0x70) { rp1 with b := 6 }, .subb (hd 0x70) rp1, .tern (hd 0x70) rv, .bini (hd 0x70) iv, .lea (hd 0x60) rv] = true := by
  decide +kernel

/-! ### Results that the spec's worked programs give -/

/-- A state whose vector registers are given as (register, value of each lane), with some uniform registers and memory. -/
def laneRegs (vs : List (Nat × List Word)) : List (Nat × Word) :=
  (upto 8).flatMap (fun l => vs.map (fun e => (l * 256 + e.1, e.2.getD l 0)))
def stV (vs : List (Nat × List Word)) (k : List (Nat × Word)) (ws : List (Nat × List Byte)) : State :=
  stOf ws { group0 with v := laneRegs vs, k := k } team0

/-- The group after one instruction. -/
def after (i : Instr) (s : State) : Group := match exec i s with
  | .next t => (group? t 32).getD {}
  | _ => {}
def vOf (r : Nat) (g : Group) : List Nat := (upto 8).map (fun l => (Maps.get 0 (l * 256 + r) g.v).toNat)
def kOf (r : Nat) (g : Group) : Nat := (Maps.get 0 r g.k).toNat
def pOf (r : Nat) (g : Group) : List Bool := (upto 8).map (fun l => predAt g.p l r)

/-- `add` wraps modulo 2^32 (06 R113), by hand: 0xFFFFFFFF + 2, in place. -/
theorem test_add_wraps : vOf 4 (after (.add (hd 0x60) { rv with a := 4, b := 4, d := 4 }) (stV [(4, List.replicate 8 0x80000001)] [] [])) =
    List.replicate 8 2 := by decide +kernel

/-- 06, the worked program: `call k2:3, step` at slot 2 of line 0x400000, and `loop k4, top` with k4 = 3. -/
def code : List (Nat × List Byte) := [(0x40003F, [0xF8]), (0x40007F, [0xF8])]
def stCode (k : List (Nat × Word)) (slot : Nat) : State :=
  stOf code { group0 with k := k, frags := [(0, { frag0 with pc := BitVec.ofNat 64 (0x400000 + slot) })] } team0
def pcOf (g : Group) : Nat := ((Maps.find? 0 g.frags).getD {}).pc.toNat

theorem test_call : (let g := after (.call (hd 0) ⟨1, 0, 0x102, 0⟩) (stCode [] 2)
    (kOf 2 g, kOf 3 g, pcOf g)) = (0x400003, 0, 0x400040) := by decide +kernel
theorem test_loop : (let g := after (.loop (hd 0) ⟨0, 2, 0, 0x104⟩) (stCode [(4, 3)] 3)
    (kOf 4 g, pcOf g)) = (2, 0x400002) := by decide +kernel
theorem test_loop_last : (let g := after (.loop (hd 0) ⟨0, 2, 0, 0x104⟩) (stCode [(4, 1)] 3)
    (kOf 4 g, pcOf g)) = (0, 0x400004) := by decide +kernel

/-- 07, the worked program: three values to q4 with scale 4.0 and zero point 8, and one code back. -/
def stQuant (x : Word) : State := stV [(1, List.replicate 8 x)] [(4, 0x40800000), (5, 8), (6, 0x3400), (7, 0x8840)] []
def quantI : Instr := .quant (hd 0xCA) ⟨0, false, 0, 0x105, 0x104, 1, 3⟩
theorem test_quant_tie : (let g := after quantI (stQuant 0xBF200000)
    ((vOf 3 g).getD 0 0, (lstatOf g 0).testBit 8)) = (6, true) := by decide +kernel
theorem test_quant_clamps : (let g := after quantI (stQuant 0x40400000)
    ((vOf 3 g).getD 0 0, lstatOf g 0)) = (15, 0x9000) := by decide +kernel
theorem test_dequant : vOf 8 (after (.dequant (hd 0xAC) ⟨0, false, 0, 0x105, 0x106, 1, 8⟩) (stQuant 0x6E)) = List.replicate 8 0x3FC00000 := by
  decide +kernel
theorem test_perm : vOf 6 (after (.perm (hd 0x60) ⟨0, false, 0, 0x107, 4, 3, 6⟩)
    (stV [(3, List.replicate 8 0xE), (4, List.replicate 8 6)] [(7, 0x8840)] [])) = List.replicate 8 0x60E := by decide +kernel
theorem test_pack4 : vOf 7 (after (.pack4 (hd 0xC4) ⟨0, false, 0, 0, 0, 6, 7⟩) (stV [(6, List.replicate 8 0x60E)] [] [])) = List.replicate 8 0x6E := by
  decide +kernel

/-- 09, the worked program: mirrored exchanges under the mask 0x3F, and the broadcast of lane 0. -/
theorem test_shfli_mir : (let g := after (.shfli (hd 0x63) ⟨0x3F01, false, 1, 1, 2⟩) (stV [(1, [0, 2, 4, 6, 8, 10, 12, 14])] [] [])
    (vOf 2 g, pOf 1 g)) = ([2, 0, 6, 4, 10, 8, 12, 14], [true, true, true, true, true, true, false, false]) := by decide +kernel
theorem test_shfli_outside : (let g := after (.shfli (hd 0x63) ⟨0x3F02, false, 1, 1, 2⟩) (stV [(1, [2, 2, 10, 10, 18, 18, 12, 14])] [] [])
    (vOf 2 g, pOf 1 g)) = ([10, 10, 2, 2, 18, 18, 12, 14], [true, true, true, true, false, false, false, false]) := by decide +kernel
theorem test_rdlane : kOf 3 (after (.rdlane (hd 0x60) ⟨0, false, 2, 0, 0, 1, 0x103⟩) (stV [(1, [30, 30, 12, 12, 30, 30, 12, 14])] [] [])) = 30 := by
  decide +kernel

/-- 12, the worked program: the sum of the sorted reduction, whose small terms meet first (04, round to nearest even). -/
def atomfI (a b : Nat) : Nat := atomFloat 0 10 a b
theorem test_sorted_sum : (atomfI (atomfI (atomfI 0 0x33800000) 0x33800000) 0x3F800000, atomfI (atomfI 0x3F800000 0x33800000) 0x33800000) =
    (0x3F800001, 0x3F800000) := by decide +kernel

/-- 13, the worked program: ties of the conversion to bf16. -/
theorem test_copy_ties : ([0x3F800000, 0x3F808000, 0x3F818000, 0xC0400000].map (fun x => (Num.cvt 9 10 0 false x).bits)) =
    [0x3F80, 0x3F80, 0x3F82, 0xC040] := by decide +kernel

/-- 14, the outputs of a matrix tile are sums of exact products (04 R96, R97): 1.0 × 2.0 + 3.0 × 0.5 + 0.5, by hand. -/
theorem test_product : floatOut [bfVal 0x3F80, bfVal 0x4040] [bfVal 0x4000, bfVal 0x3F00] 0x3F000000 = 0x40800000 := by decide +kernel

/-- 21 R385: the entry of `trap 5` saves its next slot, and the code 0x01FF0019. -/
theorem test_trap_entry : (let g := after (.trap (hd 0) { o0 with imm := 5 }) (stOf [(0xAC8, [0x40])] group0 team0)
    (g.ecode.toNat, g.einf.toNat, g.epc.toNat, pcOf g)) = (0x01FF0019, 5, 65, 64) := by decide +kernel

/-- 02, the worked example: the parity of a line of five padding words. -/
theorem test_padding_parity : parityOf (List.replicate 5 (toBytes 12 0x0001_C000_0000_0000_0000_0000)).flatten = 0x9224 := by decide +kernel

/-- Eight lanes store to one word: one store is pending, of the highest lane's value, and performing it writes its bytes lowest first
(00 R3; 11 R211, by hand). -/
theorem test_store_bytes : (match exec (.st (hd 0x60) mv) (stV [(0, [1, 2, 3, 4, 5, 6, 7, 0x11223344])] [(10, 0x900)] []) with
    | .next t => (match t.stores.head? with
      | some p => (match exec (.storePerform p.id) t with
        | .next u => (readBytes t 0x900 4, readBytes u 0x900 4)
        | _ => ([], []))
      | none => ([], []))
    | _ => ([], [])) = ([0, 0, 0, 0], [0x44, 0x33, 0x22, 0x11]) := by decide +kernel

end Sys2Proof.Tests
end

section
/-! Byte order (00 R3): which byte of a little-endian number each byte of a string is. -/

namespace Sys2Proof

namespace Bits

/-- Byte i of the value of a byte string is its i-th byte; past its end both are 0. -/
theorem ofBytes_byte (bs : List Byte) (i : Nat) : (ofBytes bs >>> (8 * i)) % 256 = (bs.getD i 0).toNat := by
  induction bs generalizing i with
  | nil => simp [ofBytes]
  | cons b bs ih =>
    have hb : b.toNat < 256 := b.isLt
    cases i with
    | zero => simp only [ofBytes, Nat.mul_zero, Nat.shiftRight_zero, List.getD_cons_zero]; omega
    | succ i =>
      have drop : ofBytes (b :: bs) >>> 8 = ofBytes bs := by
        simp only [ofBytes, Nat.shiftRight_eq_div_pow]; omega
      rw [show 8 * (i + 1) = 8 + 8 * i by omega, Nat.shiftRight_add, drop, ih, List.getD_cons_succ]

theorem ofBytes_lt (bs : List Byte) : ofBytes bs < 2 ^ (8 * bs.length) := by
  induction bs with
  | nil => simp [ofBytes]
  | cons b bs ih =>
    have hb : b.toNat < 256 := b.isLt
    have hp : 2 ^ (8 * (bs.length + 1)) = 256 * 2 ^ (8 * bs.length) := by
      rw [Nat.mul_add, Nat.pow_add, Nat.mul_comm]
    simp only [ofBytes, List.length_cons, hp]
    omega

/-- Byte i of a field of a byte string that begins at `off`. -/
theorem ofBytes_field_byte (bs : List Byte) (off : Nat) {n i : Nat} (hi : i < n) :
    (ofBytes ((bs.drop off).take n) >>> (8 * i)) % 256 = (bs.getD (off + i) 0).toNat := by
  rw [ofBytes_byte]
  simp only [List.getD_eq_getElem?_getD, List.getElem?_take_of_lt hi, List.getElem?_drop]

end Bits

namespace Machine.Ops

open Sys2Proof.Bits

theorem readBytes_length {s : State} (hm : Memory.wf s.mem = true) (a n : Nat) : (readBytes s a n).length = n := by
  simp [readBytes_eq hm]

theorem readBytes_getD {s : State} (hm : Memory.wf s.mem = true) (a : Nat) {n i : Nat} (hi : i < n) :
    (readBytes s a n).getD i 0 = readByte s (a + i) := by
  simp [readBytes_eq hm, hi]

/-- Byte i of a number written to memory stands at the i-th address (00 R3). -/
theorem readByte_writeNat {s : State} (hm : Memory.wf s.mem = true) (a v : Nat) {n i : Nat} (hi : i < n) :
    readByte (writeNat s a n v) (a + i) = BitVec.ofNat 8 (v >>> (8 * i)) := by
  have inside : a ≤ a + i ∧ a + i < a + (toBytes n v).length := by rw [toBytes_length]; omega
  rw [writeNat, readByte_writeBytes hm, if_pos inside, Nat.add_sub_cancel_left, toBytes_getD n v i hi]

theorem readNat_byte {s : State} (hm : Memory.wf s.mem = true) (a : Nat) {n i : Nat} (hi : i < n) :
    (readNat s a n >>> (8 * i)) % 256 = (readByte s (a + i)).toNat := by
  rw [readNat, ofBytes_byte, readBytes_getD hm a hi]

theorem readNat_lt {s : State} (hm : Memory.wf s.mem = true) (a n : Nat) : readNat s a n < 2 ^ (8 * n) := by
  have := ofBytes_lt (readBytes s a n)
  rwa [readBytes_length hm] at this

theorem slotWord_toNat (bs : List Byte) (slot : Nat) :
    (slotWord bs slot).toNat = ofBytes ((bs.drop (12 * slot)).take 12) := by
  have short : ((bs.drop (12 * slot)).take 12).length ≤ 12 := List.length_take_le ..
  have fits : ofBytes ((bs.drop (12 * slot)).take 12) < 2 ^ 96 :=
    (ofBytes_lt _).trans_le (Nat.pow_le_pow_right (by decide) (by omega))
  rw [slotWord, BitVec.toNat_ofNat, Nat.mod_eq_of_lt fits]

theorem lineWord_byte (bs : List Byte) (i : Nat) : (lineWord bs >>> (8 * i)) % 256 = (bs.getD (60 + i) 0).toNat := by
  rw [lineWord, ofBytes_byte]
  simp only [List.getD_eq_getElem?_getD, List.getElem?_drop]

end Machine.Ops

/-- Settles O48: each kind of value is the `ofBytes` of its bytes, and `ofBytes` puts byte i at bits [8i + 7 : 8i]. -/
theorem littleEndian : Obligations.LittleEndian := by
  unfold Obligations.LittleEndian
  refine ⟨fun s a n v i hm hi => ⟨Machine.Ops.readByte_writeNat hm a v hi, Machine.Ops.readNat_byte hm a hi⟩,
    fun s a n hm => Machine.Ops.readNat_lt hm a n, fun bs i slot _ _ hi => ?_,
    fun bs i _ _ => Machine.Ops.lineWord_byte bs i, fun bs off n i hi _ => Bits.ofBytes_field_byte bs off hi⟩
  rw [Machine.Ops.slotWord_toNat]
  exact Bits.ofBytes_field_byte bs (12 * slot) hi

end Sys2Proof
end

section
/-! From the end of an instruction's effect to what the instruction does: a statement of Claims about `exec` follows from the
result of the effect in a context that is ready. -/

namespace Sys2Proof.Claims

open Sys2Proof.Machine Sys2Proof.Machine.Ops

section
variable {i : Instr} {x : Shape} {body : Ctx → Res} {ok : Ctx → Prop} {next : Ctx → State}

theorem marksOf_eq (hx : shapeOf i = some x) : marksOf i = x.marks := by simp [marksOf, hx]

theorem ready_of_readyFor {s : State} {c : Ctx} (hx : shapeOf i = some x) (hr : readyFor s i = some c) :
    ready s i x.hdr x.marks x.opnds x.preds = some c := by
  simpa only [readyFor, hx] using hr

theorem completes_of_done {w : Ctx → List RegWrite} {fl : Ctx → List (Nat × Nat)} (hx : shapeOf i = some x)
    (he : ∀ s, exec i s = run i x.hdr x.marks x.opnds x.preds body s) (hb : ∀ c, ok c → body c = .done (next c) (w c) (fl c)) :
    completes i ok next w fl := fun s c hr hk => by
  rw [he, marksOf_eq hx]
  exact run_done (ready_of_readyFor hx hr) (hb c hk)

theorem issues_of_issued (hx : shapeOf i = some x) (he : ∀ s, exec i s = run i x.hdr x.marks x.opnds x.preds body s)
    (hb : ∀ c, ok c → body c = .issued (next c)) : issues i ok next := fun s c hr hk => by
  rw [he, marksOf_eq hx]
  exact run_issued (ready_of_readyFor hx hr) (hb c hk)

theorem waits_of_wait (hx : shapeOf i = some x) (he : ∀ s, exec i s = run i x.hdr x.marks x.opnds x.preds body s)
    (hb : ∀ c, ok c → body c = .wait (next c)) : waits i ok next := fun s c hr hk => by
  rw [he]
  exact run_wait (ready_of_readyFor hx hr) (hb c hk)

end

/-- A transfer whose targets pass their checks and whose fragments can be placed places them (08 R172). -/
theorem transfer_placed {c : Ctx} {w : List RegWrite} {mv : List (Nat × DWord)} {s1 : State}
    (ht : checkTargets c ((distinct mv).map Prod.fst) c.s = .ok s1) (hp : placeable c mv) :
    transfer c w mv = .moved (placed c w mv s1) := by
  unfold transfer placed
  simp only [ht]
  obtain ⟨e, he⟩ | hn | hj := hp
  · rw [he]
  · rw [hn]
    rcases distinct (nextPcs c mv) with _ | ⟨e, _ | ⟨e', es⟩⟩ <;> rfl
  · obtain ⟨j, hj⟩ := Option.isSome_iff_exists.1 hj
    rw [hj]
    rcases distinct (nextPcs c mv) with _ | ⟨e, _ | ⟨e', es⟩⟩ <;> cases c.f.recon <;> rfl

theorem transfers_of_transfer {i : Instr} {x : Shape} {body : Ctx → Res} {ok : Ctx → Prop} {w : Ctx → List RegWrite}
    {mv : Ctx → List (Nat × DWord)} (hx : shapeOf i = some x)
    (he : ∀ s, exec i s = run i x.hdr x.marks x.opnds x.preds body s) (hb : ∀ c, ok c → body c = transfer c (w c) (mv c)) :
    transfers i ok w mv := fun s c s1 hr hk ht hp => by
  rw [he, marksOf_eq hx]
  exact run_moved (ready_of_readyFor hx hr) ((hb c hk).trans (transfer_placed ht hp))

end Sys2Proof.Claims
end

section
/-! Rendezvous, `yield`, `yieldto` and `sleep` (09 R182 to R191): what each completes with. -/

namespace Sys2Proof.Claims

open Sys2Proof.Machine Sys2Proof.Machine.Ops Sys2Proof.Bits

theorem rpinit_effects (h : Hdr) (j : OpI) :
    let m := field j.imm.toNat 16 5
    let count := field j.imm.toNat 0 10
    effects (.rpinit h j) (fun c => acts c = true ∧ m < 24 ∧ count ≠ 0 ∧ (rp c.tm m).arr = 0 ∧ (rp c.tm m).next = 0)
      (fun c => setRp c.s c.g.team m { rp c.tm m with count := count, init := true }) :=
  completes_of_done rfl (fun s => Eq.refl (execRpinit h j s)) fun c ⟨ha, hm, hc, harr, hnext⟩ => by
    simp [ha, rpLegal, hm, hc, harr, hnext]

theorem rparr_issues (h : Hdr) (o : OpR) :
    issues (.rparr h o) (fun c => acts c = true ∧ field o.aux.toNat 0 5 < 24 ∧ arriveBlocked c h.sc.toNat = false)
      (fun c => (arrive c o h.sc.toNat).2) :=
  issues_of_issued rfl (fun s => Eq.refl (execRparr h o s)) fun c ⟨ha, hn, hb⟩ => by simp [ha, rpLegal, hn, hb]

theorem rpwait_effects (h : Hdr) (o : OpR) :
    let n := field o.aux.toNat 0 5
    effects (.rpwait h o) (fun c => n < 24 ∧ (acts c = true → phaseDone (rp c.tm n) (BitVec.ofNat 32 (rd c o.a (lowActive c))) = true))
      (fun c => c.s) :=
  completes_of_done rfl (fun s => Eq.refl (execRpwait h o s)) fun c ⟨hn, hd⟩ => by
    cases ha : acts c with
    | false => simp [rpLegal, hn, noEffect]
    | true => simp [rpLegal, hn, hd ha, noEffect]

/-- Before it waits, `rparw` arrives and closes its group's region (R188). -/
theorem rparw_arrives (h : Hdr) (o : OpR) :
    waits (.rparw h o)
      (fun c => c.f.stage = .fresh ∧ acts c = true ∧ field o.aux.toNat 0 5 < 24 ∧ arriveBlocked c h.sc.toNat = false)
      (fun c => modGroup (setStage c (arrive c o h.sc.toNat).2 (.own (arrive c o h.sc.toNat).1)) c.key
        (fun g => { g with region := none })) :=
  waits_of_wait rfl (fun s => Eq.refl (execRparw h o s)) fun c ⟨hf, ha, hn, hb⟩ => by simp [hf, ha, rpLegal, hn, hb]

theorem rparw_completes (h : Hdr) (o : OpR) (id : Nat) :
    effects (.rparw h o) (fun c => c.f.stage = .own id ∧ ownDone c id = true) (fun c => forgetArrivals (setStage c c.s .fresh)) :=
  completes_of_done rfl (fun s => Eq.refl (execRparw h o s)) fun c ⟨hf, hd⟩ => by simp [hf, hd]

theorem rpbytes_effects (h : Hdr) (o : OpR) :
    let n := field o.aux.toNat 0 5
    effects (.rpbytes h o) (fun c => acts c = true ∧ n < 24) (fun c => addPend c.s c.g.team n
      ((if isUni o.a then [0] else lanesOf c.pass).foldl (fun acc l => acc + sext 32 (rd c o.a l)) 0)) :=
  completes_of_done rfl (fun s => Eq.refl (execRpbytes h o s)) fun c ⟨ha, hn⟩ => by simp [ha, rpLegal, hn]

theorem yield_effects (h : Hdr) (x : OpS) :
    effects (.yield h x) (fun c => acts c = true) (fun c => modGroup c.s c.key (fun g => { g with passed := 0 })) :=
  completes_of_done rfl (fun s => Eq.refl (execYield h x s)) fun c ha => by simp [ha, yielded]

/-- `yieldto` goes to its target where the handle is FULL when it issues, or once the handle it waits on has become so. -/
theorem yieldto_transfers (h : Hdr) (b : OpB) :
    transfers (.yieldto h b)
      (fun c => (c.f.stage = .fresh ∧ acts c = true ∧ rd c b.a 0 ≤ 63 ∧
          (handle (cluster c.s (clusterOf c.tm.core)) (rd c b.a 0)).state = 2 ∧
          (handle (cluster c.s (clusterOf c.tm.core)) (rd c b.a 0)).owner = c.tm.ctx) ∨
        ∃ y, c.f.stage = .yieldto y true)
      (fun _ => []) (fun c => toAll c.active (directTarget c.f.pc b)) :=
  transfers_of_transfer rfl (fun s => Eq.refl (execYieldto h b s)) fun c hk => by
    obtain ⟨hf, ha, hle, hst, how⟩ | ⟨y, hf⟩ := hk
    · simp [hf, ha, Nat.not_lt.2 hle, hst, how]
    · simp [hf]

theorem sleep_waits (h : Hdr) (x : OpS) :
    waits (.sleep h x) (fun c => c.f.stage = .fresh ∧ acts c = true ∧ x.imm ≠ 0)
      (fun c => setStage c c.s (.asleep (c.s.now + 2 * x.imm.toNat))) :=
  waits_of_wait rfl (fun s => Eq.refl (execSleep h x s)) fun c ⟨hf, ha, hi⟩ => by
    have hi : x.imm.toNat ≠ 0 := fun h0 => hi (BitVec.eq_of_toNat_eq h0)
    simp [sleepRes, hf, ha, hi]

theorem sleep_ends (h : Hdr) (x : OpS) :
    effects (.sleep h x) (fun c => ∃ t, c.f.stage = .asleep t ∧ t ≤ c.s.now) (fun c => c.s) :=
  completes_of_done rfl (fun s => Eq.refl (execSleep h x s)) fun c ⟨t, hf, ht⟩ => by simp [sleepRes, hf, ht, noEffect]

/-- A sleep of no cycles is a `yield` (R190). -/
theorem sleep_none_effects (h : Hdr) (x : OpS) :
    effects (.sleep h x) (fun c => c.f.stage = .fresh ∧ acts c = true ∧ x.imm = 0)
      (fun c => modGroup c.s c.key (fun g => { g with passed := 0 })) :=
  completes_of_done rfl (fun s => Eq.refl (execSleep h x s)) fun c ⟨hf, ha, hi⟩ => by simp [sleepRes, hf, ha, hi, yielded]

end Sys2Proof.Claims

/-- Settles O10: each instruction's effect ends as its lemma above says, in every context in which it is ready. -/
theorem Sys2Proof.rendezvousInstructionsComplete : Obligations.RendezvousInstructionsComplete := by
  unfold Obligations.RendezvousInstructionsComplete
  exact fun h o j b x => ⟨Claims.rpinit_effects h j, Claims.rparr_issues h o, Claims.rpwait_effects h o, Claims.rparw_arrives h o,
    Claims.rparw_completes h o, Claims.rpbytes_effects h o, Claims.yield_effects h x, Claims.yieldto_transfers h b,
    Claims.sleep_waits h x, Claims.sleep_ends h x, Claims.sleep_none_effects h x⟩
end

section
/-! Memory stays in canonical form (01 R3, log entry 1). Each operation of the model has one lemma: `f_mem` where it leaves memory as it
was, `wf_f` where it keeps the form. The lemmas stand in the model's order. A proof opens one definition, splits its branches and cites
the lemmas of the operations that it calls: where no branch has an argument of its own, `grind only` closes them from the lemmas that it
lists. Here is what the lemmas share. -/

namespace Sys2Proof.Machine

namespace Ops

/-- The state that the end of an execution carries. -/
def Res.state : Res → State
  | .done s _ _ | .issued s | .moved s | .wait s | .trap _ s | .kill _ s | .park s _ => s

@[simp] theorem Res.state_done (s : State) (w : List RegWrite) (fl : List (Nat × Nat)) : (Res.done s w fl).state = s := rfl
@[simp] theorem Res.state_wait (s : State) : (Res.wait s).state = s := rfl
@[simp] theorem Res.state_issued (s : State) : (Res.issued s).state = s := rfl
@[simp] theorem Res.state_moved (s : State) : (Res.moved s).state = s := rfl
@[simp] theorem Res.state_trap (t : Trap) (s : State) : (Res.trap t s).state = s := rfl
@[simp] theorem Res.state_kill (code : Nat) (s : State) : (Res.kill code s).state = s := rfl
@[simp] theorem Res.state_park (s : State) (fs : List PageFault) : (Res.park s fs).state = s := rfl

/-- The same of a stream instruction. -/
def SRes.state : SRes → State
  | .done s | .to_ _ s | .wait s | .trap _ _ _ _ _ s | .kill _ s => s

@[simp] theorem SRes.state_done (s : State) : (SRes.done s).state = s := rfl

/-- The same of what a step prepares. -/
def Ready.state : Ready → State
  | .run _ s | .settled s => s

theorem foldl_mem {α : Type} {f : State → α → State} {l : List α} {s : State} (h : ∀ s a, (f s a).mem = s.mem) :
    (l.foldl f s).mem = s.mem := by
  induction l generalizing s with
  | nil => rfl
  | cons a l ih => exact ih.trans (h s a)

theorem wf_foldl {α : Type} {f : State → α → State} {l : List α} {s : State} (hs : Memory.wf s.mem = true)
    (h : ∀ s a, Memory.wf s.mem = true → Memory.wf (f s a).mem = true) : Memory.wf (l.foldl f s).mem = true := by
  induction l generalizing s with
  | nil => exact hs
  | cons a l ih => exact ih (h s a hs)

end Ops

/-- A next state that the outcome gives has its memory in canonical form. -/
def NextWf (x : Host.Outcome State Fault Refusal) : Prop := ∀ t, x = .next t → Memory.wf t.mem = true

theorem nextWf_next {t : State} (ht : Memory.wf t.mem = true) : NextWf (.next t) := fun _ h => by cases h; exact ht

theorem nextWf_fault (f : Fault) : NextWf (.fault f) := fun _ h => nomatch h

end Sys2Proof.Machine
end

section
/-! Memory stays in canonical form (continued). Records, terminations, traps, fetches and the ends of an instruction: none writes memory
but through the hub or the device log. -/

namespace Sys2Proof.Machine.Ops

open Sys2Proof.Bits Sys2Proof.Num

/-! ### Machine/Ops -/

@[simp] theorem setBank_mem (s : State) (c b : Nat) (x : Bank) : (setBank s c b x).mem = s.mem := rfl

@[simp] theorem kickBanks_mem (s : State) (c : Nat) : (kickBanks s c).mem = s.mem := rfl

@[simp] theorem kickAll_mem (s : State) : (kickAll s).mem = s.mem := foldl_mem (fun _ _ => kickBanks_mem ..)

@[simp] theorem setHandle_mem (s : State) (c h : Nat) (x : Handle) : (setHandle s c h x).mem = s.mem := rfl

@[simp] theorem drawFree_mem (s : State) : (drawFree s).2.mem = s.mem := rfl

@[simp] theorem raise_mem (s : State) (r : Rec) : (raise s r).2.mem = s.mem := rfl

theorem wf_devlog {s : State} (hs : Memory.wf s.mem = true) (code ctx place detail : Nat) :
    Memory.wf (devlog s code ctx place detail).mem = true := by
  unfold devlog
  grind only [setCtl_mem, wf_hubWrite]

@[simp] theorem dropGroups_mem (gs : List Nat) (s : State) : (dropGroups gs s).mem = s.mem := rfl

theorem wf_completeLaunch {s : State} (hs : Memory.wf s.mem = true) (id : Nat) (l : Launch) :
    Memory.wf (completeLaunch s id l).mem = true := by
  unfold completeLaunch
  grind only [setLaunch_mem, wf_hubWrite, wf_devlog]

theorem wf_failLaunch {s : State} (hs : Memory.wf s.mem = true) (code ctx : Nat) (e : Nat × Launch) :
    Memory.wf (failLaunch code ctx s e).mem = true := by
  unfold failLaunch
  grind only [wf_completeLaunch, setLaunch_mem]

@[simp] theorem lastRecord_mem (s : State) (ctx code : Nat) : (lastRecord s ctx code).mem = s.mem := by
  unfold lastRecord
  split <;> simp

@[simp] theorem dropForwards_mem (s : State) (ids : List Nat) : (dropForwards s ids).mem = s.mem := rfl

@[simp] theorem settlePreempts_mem (n : Nat) (s : State) : (settlePreempts n s).mem = s.mem := by
  obtain ⟨⟨_, _, _, _, e⟩, -⟩ := switchOnly_settlePreempts n s
  rw [e]

@[simp] theorem settleResumes_mem (n : Nat) (s : State) : (settleResumes n s).mem = s.mem := by
  obtain ⟨⟨_, _, _, _, e⟩, -⟩ := switchOnly_settleResumes n s
  rw [e]

@[simp] theorem settleSwitches_mem (s : State) : (settleSwitches s).mem = s.mem := by
  simp [settleSwitches]

@[simp] theorem dropContext_mem (s : State) (ctx : Nat) : (dropContext s ctx).mem = s.mem := by
  simp [dropContext]

theorem wf_terminate {s : State} (hs : Memory.wf s.mem = true) (ctx code : Nat) : Memory.wf (terminate s ctx code).mem = true := by
  unfold terminate
  split
  · exact hs
  · split
    · exact hs
    · rw [lastRecord_mem]
      exact wf_foldl (by simpa using hs) fun _ _ h => wf_failLaunch h ..

@[simp] theorem countError_mem (s : State) (d i : Nat) : (countError s d i).mem = s.mem := rfl

@[simp] theorem markLine_mem (s : State) (line : Nat) : (markLine s line).mem = s.mem := by
  unfold markLine
  split <;> simp

theorem wf_failLine {s : State} (hs : Memory.wf s.mem = true) (c ctx pa : Nat) : Memory.wf (failLine s c ctx pa).mem = true := by
  unfold failLine
  split <;> simp [wf_devlog, hs]

@[simp] theorem fetchPhys_mem (s : State) (c pa : Nat) : (fetchPhys s c pa).2.mem = s.mem := by
  unfold fetchPhys
  grind only [setCore_mem, countError_mem]

@[simp] theorem noteTlb_mem (s : State) (c ctx base size leaf : Nat) : (noteTlb s c ctx base size leaf).mem = s.mem := by
  unfold noteTlb
  grind only [setCore_mem]

@[simp] theorem fetchStamped_mem (s : State) (home leaf pa : Nat) : (fetchStamped s home leaf pa).2.mem = s.mem := rfl

theorem wf_fetchLine {s : State} (hs : Memory.wf s.mem = true) (c ctx va : Nat) : Memory.wf (fetchLine s c ctx va).2.mem = true := by
  unfold fetchLine
  grind only [fetchStamped_mem, fetchPhys_mem, noteTlb_mem, wf_failLine]

theorem wf_of_fetchLine {s t : State} {c ctx va : Nat} {x : Fetched} (h : fetchLine s c ctx va = (x, t))
    (hs : Memory.wf s.mem = true) : Memory.wf t.mem = true := by
  simpa [h] using wf_fetchLine hs c ctx va

theorem wf_takeTrap {s : State} (hs : Memory.wf s.mem = true) (key frag : Nat) (t : Trap) (saved : DWord) (defer : Bool) :
    Memory.wf (takeTrap s key frag t saved defer).mem = true := by
  unfold takeTrap
  repeat' split
  all_goals grind only [modGroup_mem, wf_terminate, → wf_of_fetchLine]

@[simp] theorem returnFromTrap_mem (key frag : Nat) (s : State) : (returnFromTrap key frag s).mem = s.mem := rfl

/-! ### Machine/Operands -/

theorem ctx?_state {s : State} {i : Instr} {h : Hdr} {c : Ctx} (hc : ctx? s i h = some c) : c.s = s := by
  unfold ctx? at hc
  grind only

@[simp] theorem withoutHelpers_state (m : Marks) (c : Ctx) : (withoutHelpers m c).s = c.s := by
  unfold withoutHelpers
  split <;> rfl

@[simp] theorem setStage_mem (c : Ctx) (s : State) (st : Stage) : (setStage c s st).mem = s.mem := by
  unfold setStage
  split <;> simp

@[simp] theorem unpark_mem (c : Ctx) (m : Marks) (q : Parked) (s : State) (w : List RegWrite) (fl : List (Nat × Nat)) :
    (unpark c m q s w fl).mem = s.mem := rfl

@[simp] theorem raiseFaults_mem (c : Ctx) (pid : Nat) (reps : List (Nat × Nat)) (s : State) (fs : List PageFault) :
    (raiseFaults c pid reps s fs).mem = s.mem := foldl_mem fun _ _ => raise_mem ..

theorem wf_parkInstr {s : State} (hs : Memory.wf s.mem = true) (c : Ctx) (os : List Opnd) (fs : List PageFault) :
    Memory.wf (parkInstr c os s fs).mem = true := by
  unfold parkInstr
  grind only [wf_terminate, modGroup_mem, raiseFaults_mem, retire_mem]

theorem wf_deferTrap {s : State} (hs : Memory.wf s.mem = true) (key : Nat) (g : Group) (q : Parked) (t : Trap) :
    Memory.wf (deferTrap s key g q t).mem = true := by
  unfold deferTrap
  split <;> simp [wf_takeTrap, hs]

theorem keepTrap_mem (c : Ctx) (t : Trap) (s : State) : (keepTrap c t s).mem = c.s.mem := by
  obtain e | e := keepTrap_cases c t s <;> rw [e]
  exact setStage_mem ..

theorem wf_finish {c : Ctx} (hc : Memory.wf c.s.mem = true) (m : Marks) (os : List Opnd) {r : Res} (hr : Memory.wf r.state.mem = true) :
    Memory.wf (finish c m os r).mem = true := by
  cases r with
  | done s w fl =>
    simp only [finish]
    split
    · rwa [retire_mem]
    · rwa [unpark_mem]
  | issued s =>
    simp only [finish]
    split
    · rwa [retire_mem]
    · rwa [modGroup_mem]
  | moved s => exact (retireMoved_mem ..).symm ▸ hr
  | wait s => exact hr
  | trap t s =>
    simp only [finish]
    grind only [Res.state, keepTrap_mem, wf_takeTrap, wf_deferTrap]
  | kill code s => exact wf_terminate hr ..
  | park s fs =>
    simp only [finish]
    split
    · exact hc
    · exact wf_parkInstr hr ..

/-- An instruction keeps the form when its body does: what holds it back, its context and its end keep it. -/
theorem wf_run {i : Instr} {h : Hdr} {m : Marks} {os : List Opnd} {ps : List Nat} {body : Ctx → Res} {s : State}
    (hb : ∀ c, Memory.wf c.s.mem = true → Memory.wf (body c).state.mem = true) (hs : Memory.wf s.mem = true) :
    NextWf (run i h m os ps body s) := by
  unfold run
  split
  · exact nextWf_fault _
  · next c0 h0 =>
    have hc : Memory.wf (withoutHelpers m c0).s.mem = true := by rwa [withoutHelpers_state, ctx?_state h0]
    refine nextWf_next ?_
    grind only [wf_finish, Res.state]

@[simp] theorem pend_mem (c : Ctx) (s : State) (names : List RegName) : (pend c s names).2.mem = s.mem := by
  unfold pend
  split <;> simp

@[simp] theorem supply_mem (s : State) (key wid : Nat) (w : List RegWrite) (fl : List (Nat × Nat)) :
    (supply s key wid w fl).mem = s.mem := rfl

@[simp] theorem illegal_mem (c : Ctx) (s : State) : (illegal c s).state.mem = s.mem := rfl

@[simp] theorem noEffect_mem (c : Ctx) : (noEffect c).state.mem = c.s.mem := rfl

/-! ### Machine/Fetch -/

theorem wf_deliver {s : State} (hs : Memory.wf s.mem = true) (key frag : Nat) (t : Trap) (saved : DWord) :
    Memory.wf (deliver s key frag t saved).mem = true := by
  unfold deliver
  grind only [wf_takeTrap]

theorem wf_parkFetch {s : State} (hs : Memory.wf s.mem = true) (key frag : Nat) (f : Fragment) (cause line : Nat) :
    Memory.wf (parkFetch s key frag f cause line).mem = true := by
  unfold parkFetch
  grind only [wf_terminate, raise_mem, modGroup_mem]

theorem wf_fetchFault {s : State} (hs : Memory.wf s.mem = true) (key frag : Nat) (f : Fragment) (ctx line : Nat) (t : Tr) :
    Memory.wf (fetchFault s key frag f ctx line t).mem = true := by
  unfold fetchFault
  grind only [wf_deliver, wf_parkFetch, wf_terminate]

theorem wf_deliverNev {s : State} (hs : Memory.wf s.mem = true) (key frag : Nat) (tm : Team) (g : Group) (t : DWord × Nat) :
    Memory.wf (deliverNev s key frag tm g t).mem = true := by
  unfold deliverNev
  split <;> simp [wf_takeTrap, hs]

theorem wf_deliverLate {s : State} (hs : Memory.wf s.mem = true) (key frag : Nat) (tm : Team) (g : Group) (pc : DWord) (x : LateTrap) :
    Memory.wf (deliverLate s key frag tm g pc x).mem = true := by
  unfold deliverLate
  split <;> simp [wf_takeTrap, hs]

theorem wf_fetchFrag {s : State} (hs : Memory.wf s.mem = true) (key frag : Nat) : Memory.wf (fetchFrag s key frag).state.mem = true := by
  unfold fetchFrag
  split
  · exact hs
  · split
    · split
      · exact hs
      · split
        · exact wf_deliverLate hs ..
        · split
          · exact wf_deliverNev hs ..
          · split
            · exact wf_deliver hs ..
            · split
              · exact hs
              · split
                · next hf => exact wf_terminate (wf_of_fetchLine hf hs) ..
                · next hf => exact wf_fetchFault (wf_of_fetchLine hf hs) ..
                · next s' hf =>
                  have hs' : Memory.wf s'.mem = true := wf_of_fetchLine hf hs
                  split
                  · exact wf_deliver hs' ..
                  · split
                    · exact wf_deliver hs' ..
                    · split
                      · exact wf_deliver hs' ..
                      · exact hs'
    · exact hs

theorem wf_fetchParked {s : State} (hs : Memory.wf s.mem = true) (key pid : Nat) : Memory.wf (fetchParked s key pid).state.mem = true := by
  unfold fetchParked
  grind only [Ready.state, wf_deferTrap]

@[simp] theorem modSeq_mem (s : State) (team : Nat) (f : Seq → Seq) : (modSeq s team f).mem = s.mem := rfl

theorem wf_stopSeq {s : State} (hs : Memory.wf s.mem = true) (team code cause access addr detail : Nat) :
    Memory.wf (stopSeq s team code cause access addr detail).mem = true := by
  unfold stopSeq
  grind only [wf_terminate, raise_mem, modSeq_mem]

theorem wf_streamFault {s : State} (hs : Memory.wf s.mem = true) (team ctx line : Nat) (t : Tr) :
    Memory.wf (streamFault s team ctx line t).mem = true := by
  unfold streamFault
  grind only [wf_stopSeq, wf_terminate]

theorem wf_fetchStream {s : State} (hs : Memory.wf s.mem = true) (team : Nat) : Memory.wf (fetchStream s team).state.mem = true := by
  unfold fetchStream
  repeat' split
  all_goals grind only [Ready.state, → wf_of_fetchLine, wf_stopSeq, wf_streamFault, modSeq_mem]

/-! ### Machine/Flags -/

@[simp] theorem orGstat_mem (s : State) (key bits : Nat) : (orGstat s key bits).mem = s.mem := rfl

@[simp] theorem orLanes_mem (s : State) (key : Nat) (lanes : List Nat) (bits : Nat) : (orLanes s key lanes bits).mem = s.mem := rfl

@[simp] theorem doneN_mem (c : Ctx) (d : BitVec 9) (n : Nat) (f : Nat → Nat) : (doneN c d n f).state.mem = c.s.mem := rfl

end Sys2Proof.Machine.Ops
end

section
/-! Memory stays in canonical form (continued). Copies, pending stores, translations, the hub's operations, bank modes and the control
region. -/

namespace Sys2Proof.Machine.Ops

open Sys2Proof.Bits Sys2Proof.Num

/-! ### Machine/Memory -/

@[simp] theorem putCopy_mem (s : State) (c : LineCopy) : (putCopy s c).mem = s.mem := rfl

@[simp] theorem dropClean_mem (s : State) (holder line : Nat) : (dropClean s holder line).mem = s.mem := rfl

theorem wf_lostLane {s : State} (hs : Memory.wf s.mem = true) (l : StcmLane) : Memory.wf (lostLane s l).mem = true := by
  unfold lostLane
  split <;> simp [wf_terminate, hs]

theorem wf_formVersion {s : State} (hs : Memory.wf s.mem = true) (l : StcmLane) : Memory.wf (formVersion s l).mem = true := by
  unfold formVersion
  grind only [backInvalidateSpan_mem, wf_lostLane]

theorem wf_formWaiting {s : State} (hs : Memory.wf s.mem = true) : Memory.wf (formWaiting s).mem = true :=
  wf_foldl hs fun _ _ h => wf_formVersion h ..

@[simp] theorem updateCopies_mem (s : State) (core id pa : Nat) (bs : List Byte) (mark : Bool) :
    (updateCopies s core id pa bs mark).mem = s.mem := rfl

@[simp] theorem noteRead_mem (s : State) (core pa : Nat) (bs : List Byte) : (noteRead s core pa bs).mem = s.mem := rfl

@[simp] theorem serveDie_mem (s : State) (d home pa : Nat) : (serveDie s d home pa).2.mem = s.mem := by
  unfold serveDie
  grind only [putCopy_mem]

@[simp] theorem serveLine_mem (s : State) (core home pa leaf : Nat) (l2only : Bool) :
    (serveLine s core home pa leaf l2only).2.mem = s.mem := by
  unfold serveLine
  grind only [noteRead_mem, dropClean_mem, serveDie_mem, putCopy_mem]

@[simp] theorem loadMem_mem (s : State) (core pa leaf n : Nat) (l2only : Bool) : (loadMem s core pa leaf n l2only).2.mem = s.mem := by
  unfold loadMem
  split <;> simp

@[simp] theorem loadSampler_mem (s : State) (core pa leaf n : Nat) : (loadSampler s core pa leaf n).2.mem = s.mem := by
  unfold loadSampler
  grind only [setCore_mem]

@[simp] theorem storeScratch_mem (s : State) (team off : Nat) (bs : List Byte) : (storeScratch s team off bs).mem = s.mem := rfl

@[simp] theorem returnCt_mem (s : State) (key id launch : Nat) (ct : Nat → Nat) : (returnCt s key id launch ct).mem = s.mem := rfl

@[simp] theorem acceptStore_mem (s : State) (key lane also core ctx launch pa : Nat) (l2 : Bool) (bs : List Byte) (after : Option Nat) :
    (acceptStore s key lane also core ctx launch pa l2 bs after).mem = s.mem := by
  unfold acceptStore
  repeat' split
  all_goals simp

@[simp] theorem acceptScratch_mem (s : State) (key lane also core ctx launch team off : Nat) (bs : List Byte) (after : Option Nat) :
    (acceptScratch s key lane also core ctx launch team off bs after).mem = s.mem := by
  unfold acceptScratch
  split <;> simp

theorem wf_writeHome {s : State} (hs : Memory.wf s.mem = true) (core id pa : Nat) (bs : List Byte) :
    Memory.wf (writeHome s core id pa bs).mem = true := by
  unfold writeHome
  grind only [updateCopies_mem, wf_writeBytes]

@[simp] theorem cleanOf_mem (s : State) (id : Nat) : (cleanOf s id).mem = s.mem := rfl

@[simp] theorem backInvalidate_mem (s : State) (pa : Nat) : (backInvalidate s pa).mem = s.mem := rfl

theorem wf_performStore {s : State} (hs : Memory.wf s.mem = true) (p : PStore) : Memory.wf (performStore s p).mem = true := by
  unfold performStore
  grind only [storeScratch_mem, wf_terminate, dropForwards_mem, cleanOf_mem, wf_writeHome, backInvalidate_mem, dropClean_mem,
      kickBanks_mem, returnCt_mem]

@[simp] theorem beginRelease_mem (s : State) (c : Ctx) (scope hold : Nat) : (beginRelease s c scope hold).2.mem = s.mem := rfl

@[simp] theorem translateLane_mem (c : Ctx) (s : State) (nd : Needs) (a : Acc) : (translateLane c s nd a).2.mem = s.mem := by
  unfold translateLane
  grind only [modGroup_mem, noteTlb_mem]

@[simp] theorem translateAll_mem (c : Ctx) (nd : Needs) (as : List Acc) (s : State) : (translateAll c nd as s).2.mem = s.mem := by
  induction as generalizing s with
  | nil => rfl
  | cons a as ih => exact (ih _).trans (translateLane_mem ..)

theorem judge_mem {s : State} {nd : Needs} {ts : List (Acc × Tr)} {r : Res} (h : judge s nd ts = some r) : r.state.mem = s.mem := by
  unfold judge at h
  grind only [Res.state]

theorem addrFault_mem {s : State} {as : List Acc} {r : Res} (h : addrFault s as = some r) : r.state.mem = s.mem := by
  unfold addrFault at h
  grind only [Res.state]

theorem resolve_ok_mem {c : Ctx} {s : State} {space member : Nat} {nd : Needs} {as : List Acc} {r : List (Acc × Place) × State}
    (h : resolve c s space member nd as = .ok r) :
    r.2.mem = s.mem := by
  unfold resolve at h
  grind only [translateAll_mem]

theorem resolve_error_mem {c : Ctx} {s : State} {space member : Nat} {nd : Needs} {as : List Acc} {r : Res}
    (h : resolve c s space member nd as = .error r) :
    r.state.mem = s.mem := by
  unfold resolve at h
  grind only [Res.state, addrFault_mem, translateAll_mem, judge_mem]

theorem issueFails_mem {s : State} {nd : Needs} {lanes : Nat} {ts : List (Acc × Tr)} {r : Res} (h : issueFails s nd lanes ts = some r) :
    r.state.mem = s.mem := by
  obtain ⟨e, -, rfl⟩ := Option.map_eq_some_iff.1 h
  grind only [Res.state]

theorem issueTr_ok_mem {c : Ctx} {s : State} {nd : Needs} {lanes ea : Nat} {r : Nat × Nat × State} (h : issueTr c s nd lanes ea = .ok r) :
    r.2.2.mem = s.mem := by
  unfold issueTr at h
  grind only [translateLane_mem]

theorem issueFails_getD_mem (s : State) (nd : Needs) (lanes : Nat) (ts : List (Acc × Tr)) :
    ((issueFails s nd lanes ts).getD (.wait s)).state.mem = s.mem := by
  cases h : issueFails s nd lanes ts with
  | none => rfl
  | some r => exact issueFails_mem h

theorem issueTr_error_mem {c : Ctx} {s : State} {nd : Needs} {lanes ea : Nat} {r : Res} (h : issueTr c s nd lanes ea = .error r) :
    r.state.mem = s.mem := by
  unfold issueTr at h
  grind only [Res.state, translateLane_mem, issueFails_getD_mem]

theorem issueLoad_ok_mem {c : Ctx} {nd : Needs} {lanes ea n : Nat} {r : List Byte × State} (h : issueLoad c nd lanes ea n = .ok r) :
    r.2.mem = c.s.mem := by
  unfold issueLoad at h
  grind only [→ issueTr_ok_mem, loadMem_mem]

theorem issueLoad_error_mem {c : Ctx} {nd : Needs} {lanes ea n : Nat} {r : Res} (h : issueLoad c nd lanes ea n = .error r) :
    r.state.mem = c.s.mem := by
  unfold issueLoad at h
  grind only [Res.state, → issueTr_ok_mem, → issueTr_error_mem]

/-! ### Machine/Hub -/

@[simp] theorem sweepRange_mem (s : State) (ctx base len : Nat) : (sweepRange s ctx base len).mem = s.mem := rfl

@[simp] theorem writeInvctl_mem (s : State) (value : Nat) : (writeInvctl s value).mem = s.mem := by
  unfold writeInvctl
  split <;> rw [setCtl_mem]

@[simp] theorem sweepOf_mem (s : State) (x : Nat) : (sweepOf s x).mem = s.mem := by
  unfold sweepOf
  grind only [sweepRange_mem]

@[simp] theorem unmarkLines_mem (s : State) : (unmarkLines s).mem = s.mem := rfl

@[simp] theorem dropSwaps_mem (s : State) : (dropSwaps s).mem = s.mem := rfl

theorem wf_sweepDone {s : State} (hs : Memory.wf s.mem = true) : Memory.wf (sweepDone s).mem = true := by
  unfold sweepDone
  grind only [dropSwaps_mem, unmarkLines_mem, wf_dropStamps, sweepOf_mem, setCtl_mem]

@[simp] theorem continueAgent_mem (s : State) (r : Rec) : (continueAgent s r).mem = s.mem := by
  unfold continueAgent
  repeat' split
  all_goals simp

@[simp] theorem serveRecs_mem (s : State) (a : RecAgent) : (serveRecs s a).mem = s.mem := rfl

@[simp] theorem dropRec_mem (s : State) (id : Nat) : (dropRec s id).mem = s.mem := rfl

@[simp] theorem replayRec_mem (s : State) (ctx seq : Nat) : (replayRec s ctx seq).mem = s.mem := by
  unfold replayRec
  repeat' split
  all_goals simp

@[simp] theorem failCopy_mem (s : State) (c cmd code : Nat) : (failCopy s c cmd code).mem = s.mem := rfl

theorem wf_abandonRec {s : State} (hs : Memory.wf s.mem = true) (ctx seq : Nat) : Memory.wf (abandonRec s ctx seq).mem = true := by
  unfold abandonRec
  grind only [dropRec_mem, failCopy_mem, serveRecs_mem, wf_terminate]

theorem wf_writeReplay {s : State} (hs : Memory.wf s.mem = true) (value : Nat) : Memory.wf (writeReplay s value).mem = true := by
  unfold writeReplay
  grind only [setCtl_mem, replayRec_mem, wf_abandonRec]

@[simp] theorem writePreempt_mem (s : State) (value : Nat) : (writePreempt s value).mem = s.mem := by
  unfold writePreempt
  extract_lets s1
  have h1 : s1.mem = s.mem := setCtl_mem ..
  split
  · rw [settlePreempts_mem]
    split <;> exact h1
  · rw [setCtl_mem]

@[simp] theorem writeResume_mem (s : State) (value : Nat) : (writeResume s value).mem = s.mem := by
  unfold writeResume
  split
  · rw [settleResumes_mem, setCtl_mem]
  · rw [setCtl_mem]

@[simp] theorem migrationGo_mem (s : State) (ctx : Nat) : (migrationGo s ctx).mem = s.mem := by
  unfold migrationGo
  grind only [setCtl_mem]

@[simp] theorem writeMigctl_mem (s : State) (value : Nat) : (writeMigctl s value).mem = s.mem := by
  unfold writeMigctl
  split
  · split
    · rfl
    · exact migrationGo_mem ..
  · rw [setCtl_mem]

@[simp] theorem refreshSlices_mem (s : State) : (refreshSlices s).mem = s.mem := foldl_mem fun _ _ => setDie_mem ..

theorem wf_swapFrames {s : State} (hs : Memory.wf s.mem = true) (m : Migration) : Memory.wf (swapFrames s m).mem = true := by
  unfold swapFrames
  dsimp only
  rw [sweepRange_mem]
  refine wf_hubWrite ?_ ..
  refine wf_copyRange ?_ ..
  exact hs

theorem wf_performReady {s : State} (hs : Memory.wf s.mem = true) (ps : List PStore) : Memory.wf (performReady s ps).mem = true :=
  wf_foldl hs fun _ _ h => by grind only [wf_performStore]

theorem wf_putWaiting (m : Migration) {s : State} (hs : Memory.wf s.mem = true) (w : Nat × List Byte) :
    Memory.wf (putWaiting m s w).mem = true := wf_foldl hs fun _ _ h => wf_hubPut h ..

theorem wf_lostMigration {s : State} (hs : Memory.wf s.mem = true) (m : Migration) : Memory.wf (lostMigration s m).mem = true := by
  unfold lostMigration
  rw [setCtl_mem]
  refine wf_terminate ?_ ..
  exact wf_foldl (s := { s with migration := none }) hs fun _ _ h => wf_hubPut h ..

theorem wf_migrationSwap {s : State} (hs : Memory.wf s.mem = true) : Memory.wf (migrationSwap s).mem = true := by
  unfold migrationSwap
  split
  · exact hs
  · next m _ =>
    have h0 : Memory.wf (m.waits.foldl (putWaiting m) (swapFrames s m)).mem = true :=
      wf_foldl (wf_swapFrames hs m) fun _ _ h => wf_putWaiting m h ..
    split
    · exact hs
    · split
      · exact wf_lostMigration hs m
      · dsimp only
        rw [raise_mem, setCtl_mem]
        refine wf_performReady ?_ _
        split
        · exact wf_formWaiting (by rwa [refreshSlices_mem])
        · exact h0

@[simp] theorem rereadContexts_mem (s : State) : (rereadContexts s).mem = s.mem := rfl

@[simp] theorem registerContext_mem (s : State) (value : Nat) : (registerContext s value).mem = s.mem := by
  unfold registerContext
  grind only [setContext_mem, setCtl_mem]

@[simp] theorem removeQueue_mem (s : State) (q : Nat) : (removeQueue s q).mem = s.mem := rfl

theorem wf_finishLeaving {s : State} (hs : Memory.wf s.mem = true) (ctx : Nat) : Memory.wf (finishLeaving s ctx).mem = true := by
  unfold finishLeaving
  split
  · exact hs
  · split
    · exact hs
    · rw [setCtl_mem]
      refine wf_dropStamps ?_
      exact (congrArg (Memory.wf ·) (foldl_mem fun _ _ => removeQueue_mem ..)).trans hs

theorem wf_unregisterContext {s : State} (hs : Memory.wf s.mem = true) (value : Nat) :
    Memory.wf (unregisterContext s value).mem = true := by
  unfold unregisterContext
  grind only [setCtl_mem, wf_terminate, wf_finishLeaving, setContext_mem]

theorem wf_writeCtxcmd {s : State} (hs : Memory.wf s.mem = true) (value : Nat) : Memory.wf (writeCtxcmd s value).mem = true := by
  unfold writeCtxcmd
  grind only [registerContext_mem, wf_unregisterContext]

@[simp] theorem registerQueue_mem (s : State) (value : Nat) : (registerQueue s value).mem = s.mem := by
  unfold registerQueue
  grind only [setQueue_mem, setCtl_mem]

@[simp] theorem unregisterQueue_mem (s : State) (value : Nat) : (unregisterQueue s value).mem = s.mem := by
  unfold unregisterQueue
  grind only [setCtl_mem, setQueue_mem]

@[simp] theorem writeQcmd_mem (s : State) (value : Nat) : (writeQcmd s value).mem = s.mem := by
  unfold writeQcmd
  repeat' split
  all_goals simp

theorem wf_writeMemmap {s : State} (hs : Memory.wf s.mem = true) (r value : Nat) : Memory.wf (writeMemmap s r value).mem = true := by
  unfold writeMemmap
  grind only [wf_remap]

theorem wf_unmapAll {s : State} (hs : Memory.wf s.mem = true) : Memory.wf (unmapAll s).mem = true :=
  wf_foldl hs fun _ _ h => wf_remap h ..

theorem wf_restart {s0 : State} (hs0 : Memory.wf s0.mem = true) (keep : Bool) : Memory.wf (restart s0 keep).mem = true := by
  simp [restart, wf_unmapAll, hs0]

@[simp] theorem enterMinimal_mem (s : State) : (enterMinimal s).mem = s.mem :=
  foldl_mem (l := upto 8) fun _ _ => by split <;> simp

@[simp] theorem bootFailed_mem (s : State) (reason : Nat) : (bootFailed s reason).mem = s.mem := rfl

@[simp] theorem bootStart_mem (s : State) (c : BootChecks) : (bootStart s c).mem = s.mem := by
  unfold bootStart
  repeat' split
  all_goals simp

@[simp] theorem bootWatchdog_mem (s : State) : (bootWatchdog s).mem = s.mem := by
  unfold bootWatchdog
  split <;> simp

theorem wf_writeBootctl {s : State} (hs : Memory.wf s.mem = true) (value : Nat) : Memory.wf (writeBootctl s value).mem = true := by
  unfold writeBootctl
  split <;> simp [wf_restart, hs]

theorem wf_writePwrctl {s : State} (hs : Memory.wf s.mem = true) (value : Nat) : Memory.wf (writePwrctl s value).mem = true := by
  unfold writePwrctl
  grind only [setCtl_mem, wf_restart]

/-! ### Machine/Banks -/

@[simp] theorem endRequest_mem (s : State) (c b : Nat) (r : ModeReq) (result code : Nat) :
    (endRequest s c b r result code).mem = s.mem := by
  unfold endRequest
  split <;> simp

@[simp] theorem changeBank_mem (s : State) (c b : Nat) (r : ModeReq) : (changeBank s c b r).mem = s.mem := by
  unfold changeBank
  grind only [setBank_mem]

@[simp] theorem serveBank_mem (c b fuel : Nat) (s : State) : (serveBank c b fuel s).mem = s.mem := by
  induction fuel generalizing s with
  | zero => rfl
  | succ fuel ih => unfold serveBank; grind only [endRequest_mem, changeBank_mem, setBank_mem]

@[simp] theorem requestMode_mem (s : State) (c b value : Nat) (who : Option (Nat × Nat)) : (requestMode s c b value who).mem = s.mem := by
  simp [requestMode]

@[simp] theorem timeoutBank_mem (s : State) (c b : Nat) : (timeoutBank s c b).mem = s.mem := by
  unfold timeoutBank
  grind only [serveBank_mem, endRequest_mem]

/-! ### Machine/Ctl -/

@[simp] theorem writeAcctag_mem (s : State) (k t value : Nat) : (writeAcctag s k t value).mem = s.mem := by
  unfold writeAcctag
  split <;> simp

@[simp] theorem writeTileWord_mem (s : State) (k t o value : Nat) : (writeTileWord s k t o value).mem = s.mem := by
  unfold writeTileWord
  split <;> simp

@[simp] theorem writeL2cls_mem (s : State) (d c value : Nat) : (writeL2cls s d c value).mem = s.mem := by
  unfold writeL2cls
  extract_lets at_ quota
  have each (f : State → Nat → Nat) : ((upto 4).foldl (fun s x => setCtl s (at_ x) (f s x)) s).mem = s.mem :=
    foldl_mem fun _ _ => setCtl_mem ..
  rw [apply_ite State.mem, each, each, ite_self]

theorem wf_ctlWrite {s : State} (hs : Memory.wf s.mem = true) (host : Bool) (off size value : Nat) :
    Memory.wf (ctlWrite s host off size value).mem = true := by
  unfold ctlWrite
  grind only [setCtl_mem, writeInvctl_mem, wf_writeReplay, writePreempt_mem, writeResume_mem, writeMigctl_mem, wf_writeBootctl,
      wf_writeCtxcmd, writeQcmd_mem, wf_writePwrctl, wf_writeMemmap, writeL2cls_mem, requestMode_mem, writeAcctag_mem, writeTileWord_mem]

theorem wf_performPending {s : State} (hs : Memory.wf s.mem = true) (p : PStore) : Memory.wf (performPending s p).mem = true := by
  unfold performPending
  split <;> simp [wf_ctlWrite, wf_performStore, hs]

end Sys2Proof.Machine.Ops
end

section
/-! Memory stays in canonical form (continued). Loads, stores, FIFO accesses, atomics, reductions, fences, gathers and cache control
(classes 0x9 and 0xA). -/

namespace Sys2Proof.Machine.Ops

open Sys2Proof.Bits Sys2Proof.Num

/-! ### Machine/LoadStore -/

theorem access_ok_mem {c : Ctx} {o : OpM} {nd : Needs} {as : List Acc} {r : List (Acc × Place) × State} (h : access c o nd as = .ok r) :
    r.2.mem = c.s.mem := by
  unfold access at h
  grind only [resolve_ok_mem]

theorem access_error_mem {c : Ctx} {o : OpM} {nd : Needs} {as : List Acc} {r : Res} (h : access c o nd as = .error r) :
    r.state.mem = c.s.mem := by
  unfold access at h
  grind only [resolve_error_mem]

@[simp] theorem wholeMask_state (c : Ctx) (r : Res) : (wholeMask c r).state = r.state := by
  cases r <;> rfl

@[simp] theorem loadPlace_mem (c : Ctx) (sampler l2 uni : Bool) (s : State) (a : Acc) (p : Place) :
    (loadPlace c sampler l2 uni s a p).2.mem = s.mem := by
  unfold loadPlace
  grind only [loadSampler_mem, loadMem_mem]

@[simp] theorem loadPlaces_mem (c : Ctx) (sampler l2 uni : Bool) (ps : List (Acc × Place)) (s : State) :
    (loadPlaces c sampler l2 uni ps s).2.mem = s.mem := by
  induction ps generalizing s with
  | nil => rfl
  | cons p ps ih => exact (ih _).trans (loadPlace_mem ..)

@[simp] theorem loadLanes_mem (c : Ctx) (o : OpM) (spaces : List Nat) (l2 : Bool) (bytes n : Nat) (value : List Byte → Nat) :
    (loadLanes c o spaces l2 bytes n value).state.mem = c.s.mem := by
  unfold loadLanes
  grind only [Res.state, noEffect_mem, → access_ok_mem, → access_error_mem, loadPlaces_mem]

@[simp] theorem loadHalf_mem (c : Ctx) (sampler l2 : Bool) (hi : Nat) (s : State) (a : Acc) (p : Place) :
    (loadHalf c sampler l2 hi s a p).2.mem = s.mem := by
  unfold loadHalf
  split <;> simp

@[simp] theorem loadHalves_mem (c : Ctx) (sampler l2 : Bool) (hi : Nat) (ps : List (Acc × Place)) (s : State) :
    (loadHalves c sampler l2 hi ps s).2.mem = s.mem := by
  induction ps generalizing s with
  | nil => rfl
  | cons p ps ih => exact (ih _).trans (loadHalf_mem ..)

@[simp] theorem loadTwice_mem (c : Ctx) (o : OpM) (l2 : Bool) : (loadTwice c o l2).state.mem = c.s.mem := by
  unfold loadTwice
  grind only [Res.state, loadHalves_mem, noEffect_mem, → access_ok_mem, → access_error_mem, setStage_mem]

@[simp] theorem loadOnce_mem (c : Ctx) (o : OpM) (l2 : Bool) (bytes n : Nat) (value : List Byte → Nat) :
    (loadOnce c o l2 bytes n value).state.mem = c.s.mem := by
  unfold loadOnce
  grind only [Res.state, noEffect_mem, → access_ok_mem, → access_error_mem, wholeMask_state, loadPlaces_mem]

theorem wf_storePlace {s : State} (hs : Memory.wf s.mem = true) (c : Ctx) (l2 : Bool) (lane also : Nat) (bs : List Byte)
    (after : Option Nat) (p : Place) : Memory.wf (storePlace c l2 s lane also bs after p).mem = true := by
  cases p with
  | mem pa leaf => exact wf_foldl hs fun s e h => by rwa [acceptStore_mem]
  | scr t off => exact wf_foldl hs fun s e h => by rwa [acceptScratch_mem]
  | ctrl off => unfold storePlace; grind only [wf_ctlWrite, acceptStore_mem]
  | _ => exact hs

theorem wf_storePlaces (c : Ctx) (l2 : Bool) (after : Option Nat) (bytes : Acc → List Byte) (ps : List (Acc × Place)) {s : State}
    (hs : Memory.wf s.mem = true) : Memory.wf (storePlaces c l2 after bytes ps s).mem = true :=
  wf_foldl hs fun _ _ h => wf_storePlace h ..

theorem wf_storeLanes {c : Ctx} (hc : Memory.wf c.s.mem = true) (o : OpM) (l2 : Bool) (bytes n : Nat) :
    Memory.wf (storeLanes c o l2 bytes n).state.mem = true := by
  unfold storeLanes
  grind only [Res.state, noEffect_mem, → access_ok_mem, → access_error_mem, wf_storePlaces]

theorem wf_storeOnce {c : Ctx} (hc : Memory.wf c.s.mem = true) (o : OpM) (l2 : Bool) (bytes n : Nat) :
    Memory.wf (storeOnce c o l2 bytes n).state.mem = true := by
  unfold storeOnce
  split
  · exact hc
  · split
    · next r h => rwa [wholeMask_state, access_error_mem h]
    · next ps s h =>
      have hs : Memory.wf s.mem = true := by rwa [access_ok_mem h]
      exact wf_foldl hs fun _ _ h => wf_storePlace h ..

@[simp] theorem fifoEnqueue_mem (c : Ctx) (s : State) (id : Nat) (push : Bool) (bs : List (Nat × List Nat)) :
    (fifoEnqueue c s id push bs).mem = s.mem := by
  unfold fifoEnqueue
  exact foldl_mem fun _ _ => rfl

@[simp] theorem fifoDequeue_mem (c : Ctx) (s : State) (id : Nat) (bs : List (Nat × List Nat)) : (fifoDequeue c s id bs).mem = s.mem := by
  unfold fifoDequeue
  exact foldl_mem fun _ _ => rfl

@[simp] theorem fifoPushAll_mem (c : Ctx) (o : OpM) (s : State) (bs : List (Nat × List Nat)) : (fifoPushAll c o s bs).mem = s.mem := by
  unfold fifoPushAll
  exact foldl_mem fun _ _ => rfl

@[simp] theorem fifoDropAll_mem (c : Ctx) (s : State) (bs : List (Nat × List Nat)) : (fifoDropAll c s bs).mem = s.mem := by
  unfold fifoDropAll
  exact foldl_mem fun _ _ => rfl

theorem fifoAccess_mem (c : Ctx) (o : OpM) (push place : Bool) {effect : State → List (Nat × List Nat) → Res}
    (he : ∀ s bs, (effect s bs).state.mem = s.mem) : (fifoAccess c o push place effect).state.mem = c.s.mem := by
  unfold fifoAccess
  grind only [Res.state, noEffect_mem, → access_ok_mem, → access_error_mem, fifoDequeue_mem, fifoEnqueue_mem, setStage_mem]

theorem wf_execLd {s : State} (hs : Memory.wf s.mem = true) (h : Hdr) (o : OpM) : NextWf (execLd h o s) := by
  unfold execLd
  refine wf_run (fun c hc => ?_) hs
  grind only [loadLanes_mem]

theorem wf_execSt {s : State} (hs : Memory.wf s.mem = true) (h : Hdr) (o : OpM) : NextWf (execSt h o s) :=
    wf_run (fun _ hc => wf_storeLanes hc ..) hs

theorem wf_execLdacq {s : State} (hs : Memory.wf s.mem = true) (h : Hdr) (o : OpM) : NextWf (execLdacq h o s) := by
  unfold execLdacq
  refine wf_run (fun c hc => ?_) hs
  grind only [loadLanes_mem]

theorem wf_execStrel {s : State} (hs : Memory.wf s.mem = true) (h : Hdr) (o : OpM) : NextWf (execStrel h o s) := by
  unfold execStrel
  refine wf_run (fun c hc => ?_) hs
  grind only [Res.state, noEffect_mem, → access_ok_mem, → access_error_mem, beginRelease_mem, wf_storePlaces]

theorem wf_execLdk {s : State} (hs : Memory.wf s.mem = true) (h : Hdr) (o : OpM) : NextWf (execLdk h o s) := by
  unfold execLdk
  refine wf_run (fun c hc => ?_) hs
  grind only [loadOnce_mem]

theorem wf_execStk {s : State} (hs : Memory.wf s.mem = true) (h : Hdr) (o : OpM) : NextWf (execStk h o s) :=
  wf_run (fun _ hc => wf_storeOnce hc ..) hs

theorem wf_execLdw {s : State} (hs : Memory.wf s.mem = true) (h : Hdr) (o : OpM) : NextWf (execLdw h o s) := by
  unfold execLdw
  refine wf_run (fun c hc => ?_) hs
  grind only [loadLanes_mem, loadTwice_mem]

theorem wf_execStw {s : State} (hs : Memory.wf s.mem = true) (h : Hdr) (o : OpM) : NextWf (execStw h o s) :=
  wf_run (fun _ hc => wf_storeLanes hc ..) hs

theorem wf_execFpush {s : State} (hs : Memory.wf s.mem = true) (h : Hdr) (o : OpM) : NextWf (execFpush h o s) := by
  unfold execFpush
  refine wf_run (fun c hc => ?_) hs
  grind only [Res.state, fifoAccess_mem, kickBanks_mem, fifoPushAll_mem]

theorem wf_execFpop {s : State} (hs : Memory.wf s.mem = true) (h : Hdr) (o : OpM) : NextWf (execFpop h o s) := by
  unfold execFpop
  refine wf_run (fun c hc => ?_) hs
  grind only [Res.state, fifoAccess_mem, kickBanks_mem, fifoDropAll_mem]

theorem wf_execFpeek {s : State} (hs : Memory.wf s.mem = true) (h : Hdr) (o : OpM) : NextWf (execFpeek h o s) := by
  unfold execFpeek
  refine wf_run (fun c hc => ?_) hs
  grind only [Res.state, fifoAccess_mem]

theorem wf_execPref {s : State} (hs : Memory.wf s.mem = true) (h : Hdr) (o : OpM) : NextWf (execPref h o s) := wf_run (fun c hc => by
    split
    · exact hc
    · split
      · exact hc
      · exact wf_foldl hc fun s a hs => by grind only [loadSampler_mem, loadMem_mem]) hs

theorem wf_execFifoWaitServed {s : State} (hs : Memory.wf s.mem = true) (cluster : Nat) (bank : Nat) :
    NextWf (execFifoWaitServed cluster bank s) := nextWf_next hs

/-! ### Machine/Atomic -/

theorem wf_homeAt {s : State} (hs : Memory.wf s.mem = true) (core pa n : Nat) (f : Nat → Option Nat) :
    Memory.wf (homeAt s core pa n f).2.2.mem = true := by
  unfold homeAt
  grind only [noteRead_mem, wf_writeHome, backInvalidate_mem]

theorem wf_homeStep {s : State} (hs : Memory.wf s.mem = true) (key core launch pa n : Nat) (f : Nat → Option Nat) :
    Memory.wf (homeStep s key core launch pa n f).2.mem = true := by
  simp [homeStep, wf_homeAt, hs]

theorem wf_placeStep {s : State} (hs : Memory.wf s.mem = true) (c : Ctx) (n : Nat) (f : Nat → Option Nat) (p : Place) :
    Memory.wf (placeStep c s n f p).2.mem = true := by
  unfold placeStep
  grind only [wf_homeStep, storeScratch_mem, wf_ctlWrite]

theorem wf_placeSteps (c : Ctx) (n : Nat) (f : Nat → Nat → Option Nat) (ps : List (Acc × Place)) {s : State}
    (hs : Memory.wf s.mem = true) : Memory.wf (placeSteps c n f ps s).2.mem = true := by
  induction ps generalizing s with
  | nil => exact hs
  | cons p ps ih => exact ih (wf_placeStep hs ..)

theorem wf_atomLanes {c : Ctx} (hc : Memory.wf c.s.mem = true) (o : OpM) (n : Nat) (f : Nat → Nat → Option Nat) :
    Memory.wf (atomLanes c o n f).state.mem = true := by
  unfold atomLanes
  grind only [Res.state, noEffect_mem, → access_ok_mem, → access_error_mem, wf_placeSteps]

@[simp] theorem requestModes_mem (c : Ctx) (v : Nat → Nat) (ps : List (Acc × Place)) (s : State) : (requestModes c v ps s).mem = s.mem :=
  foldl_mem (fun s e => by split <;> simp)

@[simp] theorem forgetModes_mem (c : Ctx) (s : State) : (forgetModes c s).mem = s.mem := rfl

theorem wf_modesDone {s : State} (hs : Memory.wf s.mem = true) (c : Ctx) (o : OpM) (v : Nat → Nat) (id : Nat) (ps : List (Acc × Place)) :
    Memory.wf (modesDone c o v id ps s).state.mem = true := by
  unfold modesDone
  grind only [Res.state, forgetModes_mem, wf_placeSteps]

theorem wf_exchange {c : Ctx} (hc : Memory.wf c.s.mem = true) (o : OpM) : Memory.wf (exchange c o).state.mem = true := by
  unfold exchange
  grind only [Res.state, wf_modesDone, noEffect_mem, → access_ok_mem, → access_error_mem, wf_atomLanes, forgetModes_mem, setStage_mem,
      requestModes_mem]

theorem wf_drainDets {s : State} (hs : Memory.wf s.mem = true) (team : Nat) (flusher : Option Nat) :
    Memory.wf (drainDets s team flusher).mem = true := by
  unfold drainDets
  split
  · exact hs
  · refine wf_foldl hs (fun s x h => ?_)
    grind only [wf_terminate, wf_homeAt, returnCt_mem, modGroup_mem]

@[simp] theorem countDet_mem (s : State) (key : Nat) : (countDet s key).mem = s.mem := rfl

theorem wf_redLanes {c : Ctx} (hc : Memory.wf c.s.mem = true) (o : OpM) (h : Hdr) (float det : Bool) :
    Memory.wf (redLanes c o h float det).state.mem = true := by
  unfold redLanes
  extract_lets fmt op regs step
  split
  · split <;> simpa using hc
  · split
    · next r h => rwa [access_error_mem h]
    · next ps s h =>
      have hs : Memory.wf s.mem = true := by rwa [access_ok_mem h]
      split
      · extract_lets entry
        split <;> simpa using hs
      · split
        · exact hs
        · exact wf_placeSteps _ _ _ _ hs

@[simp] theorem modCores_mem (s : State) (scope core : Nat) (f : Core → Core) : (modCores s scope core f).mem = s.mem := rfl

@[simp] theorem dropSampler_mem (s : State) (scope core : Nat) : (dropSampler s scope core).mem = s.mem := rfl

theorem cachePas_ok_mem {c : Ctx} {o : OpM} {spaces : List Nat} {r : List Nat × State} (h : cachePas c o spaces = .ok r) :
    r.2.mem = c.s.mem := by
  unfold cachePas at h
  grind only [translateAll_mem]

theorem cachePas_error_mem {c : Ctx} {o : OpM} {spaces : List Nat} {r : Res} (h : cachePas c o spaces = .error r) :
    r.state.mem = c.s.mem := by
  unfold cachePas at h
  grind only [Res.state, translateAll_mem]

@[simp] theorem giveUp_mem (s : State) (scope core : Nat) (blk : Bool) (pas : List Nat) : (giveUp s scope core blk pas).mem = s.mem := rfl

@[simp] theorem dropNamed_mem (s : State) (scope core : Nat) (blk : Bool) (pas : List Nat) :
    (dropNamed s scope core blk pas).mem = s.mem := rfl

@[simp] theorem freeBytes_mem (s : State) (n : Nat) : (freeBytes s n).2.mem = s.mem := rfl

theorem wf_discardLine {s : State} (hs : Memory.wf s.mem = true) (c : Ctx) (line : Nat) : Memory.wf (discardLine c s line).mem = true := by
  simp [discardLine, wf_homeStep, hs]

@[simp] theorem noteWord_mem (c : Ctx) (s : State) (e : Acc × Place) : (noteWord c s e).mem = s.mem := by
  unfold noteWord
  repeat' split
  all_goals simp

theorem wf_execAtom {s : State} (hs : Memory.wf s.mem = true) (h : Hdr) (o : OpM) : NextWf (execAtom h o s) := by
  unfold execAtom
  refine wf_run (fun c hc => ?_) hs
  grind only [wf_exchange, wf_atomLanes]

theorem wf_execAtomcas {s : State} (hs : Memory.wf s.mem = true) (h : Hdr) (o : OpM) : NextWf (execAtomcas h o s) := by
  unfold execAtomcas
  refine wf_run (fun c hc => ?_) hs
  grind only [wf_atomLanes]

theorem wf_execAtomf {s : State} (hs : Memory.wf s.mem = true) (h : Hdr) (o : OpM) : NextWf (execAtomf h o s) :=
  wf_run (fun _ hc => wf_atomLanes hc ..) hs

theorem wf_execRed {s : State} (hs : Memory.wf s.mem = true) (h : Hdr) (o : OpM) : NextWf (execRed h o s) :=
  wf_run (fun _ hc => wf_redLanes hc ..) hs

theorem wf_execRedDet {s : State} (hs : Memory.wf s.mem = true) (h : Hdr) (o : OpM) : NextWf (execRedDet h o s) :=
  wf_run (fun _ hc => wf_redLanes hc ..) hs

theorem wf_execRedf {s : State} (hs : Memory.wf s.mem = true) (h : Hdr) (o : OpM) : NextWf (execRedf h o s) :=
  wf_run (fun _ hc => wf_redLanes hc ..) hs

theorem wf_execRedfDet {s : State} (hs : Memory.wf s.mem = true) (h : Hdr) (o : OpM) : NextWf (execRedfDet h o s) :=
  wf_run (fun _ hc => wf_redLanes hc ..) hs

theorem wf_execDflush {s : State} (hs : Memory.wf s.mem = true) (h : Hdr) (o : OpS) : NextWf (execDflush h o s) := by
  unfold execDflush
  refine wf_run (fun c hc => ?_) hs
  grind only [Res.state, noEffect_mem, wf_drainDets]

theorem wf_execFenceAcq {s : State} (hs : Memory.wf s.mem = true) (h : Hdr) (o : OpS) : NextWf (execFenceAcq h o s) := by
  unfold execFenceAcq
  refine wf_run (fun c hc => ?_) hs
  grind only [Res.state, beginRelease_mem, noEffect_mem]

theorem wf_execFenceRel {s : State} (hs : Memory.wf s.mem = true) (h : Hdr) (o : OpS) : NextWf (execFenceRel h o s) := by
  unfold execFenceRel
  refine wf_run (fun c hc => ?_) hs
  grind only [Res.state, beginRelease_mem, noEffect_mem]

theorem wf_execFenceAr {s : State} (hs : Memory.wf s.mem = true) (h : Hdr) (o : OpS) : NextWf (execFenceAr h o s) := by
  unfold execFenceAr
  refine wf_run (fun c hc => ?_) hs
  grind only [Res.state, beginRelease_mem, noEffect_mem]

theorem wf_execFenceSmp {s : State} (hs : Memory.wf s.mem = true) (h : Hdr) (o : OpS) : NextWf (execFenceSmp h o s) := by
  unfold execFenceSmp
  refine wf_run (fun c hc => ?_) hs
  grind only [Res.state, beginRelease_mem, dropSampler_mem, noEffect_mem]

theorem wf_execFwait {s : State} (hs : Memory.wf s.mem = true) (h : Hdr) (o : OpS) : NextWf (execFwait h o s) := by
  unfold execFwait
  refine wf_run (fun c hc => ?_) hs
  grind only [Res.state, noEffect_mem, beginRelease_mem, setStage_mem]

theorem wf_execNgath {s : State} (hs : Memory.wf s.mem = true) (h : Hdr) (o : OpM) : NextWf (execNgath h o s) := by
  unfold execNgath
  refine wf_run (fun c hc => ?_) hs
  have noted (ps : List (Acc × Place)) (s : State) : (ps.foldl (noteWord c) s).mem = s.mem := foldl_mem fun _ _ => noteWord_mem ..
  grind only [Res.state, noEffect_mem, → access_ok_mem, → access_error_mem]

theorem wf_execNscat {s : State} (hs : Memory.wf s.mem = true) (h : Hdr) (o : OpM) : NextWf (execNscat h o s) := by
  unfold execNscat
  refine wf_run (fun c hc => ?_) hs
  grind only [Res.state, noEffect_mem, → access_ok_mem, → access_error_mem, wf_storePlaces]

theorem wf_execCwb {s : State} (hs : Memory.wf s.mem = true) (h : Hdr) (o : OpM) : NextWf (execCwb h o s) := by
  unfold execCwb
  refine wf_run (fun c hc => ?_) hs
  grind only [Res.state, noEffect_mem, → cachePas_ok_mem, → cachePas_error_mem, giveUp_mem]

theorem wf_execCinv {s : State} (hs : Memory.wf s.mem = true) (h : Hdr) (o : OpM) : NextWf (execCinv h o s) := by
  unfold execCinv
  refine wf_run (fun c hc => ?_) hs
  grind only [Res.state, noEffect_mem, → cachePas_ok_mem, → cachePas_error_mem, modCores_mem, dropNamed_mem, giveUp_mem]

theorem wf_execCdisc {s : State} (hs : Memory.wf s.mem = true) (h : Hdr) (o : OpM) : NextWf (execCdisc h o s) := by
  unfold execCdisc
  refine wf_run (fun c hc => ?_) hs
  have discarded (lines : List Nat) {s : State} (hs : Memory.wf s.mem = true) : Memory.wf (lines.foldl (discardLine c) s).mem = true :=
    wf_foldl hs fun _ _ h => wf_discardLine h ..
  grind only [Res.state, noEffect_mem, → access_ok_mem, → access_error_mem, dropNamed_mem]

theorem wf_execIcinv {s : State} (hs : Memory.wf s.mem = true) (h : Hdr) (o : OpM) : NextWf (execIcinv h o s) := by
  unfold execIcinv
  refine wf_run (fun c hc => ?_) hs
  grind only [Res.state, noEffect_mem, → cachePas_ok_mem, → cachePas_error_mem, modCores_mem]

theorem wf_execStorePerform {s : State} (hs : Memory.wf s.mem = true) (store : Nat) : NextWf (execStorePerform store s) := by
  refine nextWf_next ?_
  grind only [wf_performPending]

theorem wf_execReleaseComplete {s : State} (hs : Memory.wf s.mem = true) (release : Nat) : NextWf (execReleaseComplete release s) := by
  refine nextWf_next ?_
  grind only [dropSampler_mem]

theorem wf_execLongLatencyResultLand {s : State} (hs : Memory.wf s.mem = true) (group : Nat) :
    NextWf (execLongLatencyResultLand group s) := nextWf_next (by rwa [modGroup_mem])

end Sys2Proof.Machine.Ops
end

section
/-! Memory stays in canonical form (continued). Classes 0x0 to 0x8: register instructions leave memory alone; transfers fetch their
targets, and arrivals drain reductions. -/

namespace Sys2Proof.Machine.Ops

open Sys2Proof.Bits Sys2Proof.Num

/-! ### Machine/Integer -/

section
variable {i : Instr} {h : Hdr} {o : OpR} {s : State} (hs : Memory.wf s.mem = true)
include hs

theorem wf_unaryR {f : Nat → Nat} : NextWf (unaryR i h o f s) := by
  unfold unaryR
  exact wf_run (fun _ hc => hc) hs

theorem wf_binaryR {f : Nat → Nat → Nat} : NextWf (binaryR i h o f s) := by
  unfold binaryR
  exact wf_run (fun _ hc => hc) hs

theorem wf_ternaryR {f : Nat → Nat → Nat → Nat} : NextWf (ternaryR i h o f s) := by
  unfold ternaryR
  exact wf_run (fun _ hc => hc) hs

theorem wf_ternaryS {f : Nat → Nat → Nat → Nat} : NextWf (ternaryS i h o f s) := wf_run (fun _ hc => hc) hs

theorem wf_carryR {f : Nat → Nat → Bool → Nat × Bool} : NextWf (carryR i h o f s) := by
  unfold carryR
  exact wf_run (fun _ hc => hc) hs

theorem wf_divideR {os : List Opnd} {res : Ctx → List RegWrite} : NextWf (divideR i h o os res s) := by
  unfold divideR
  exact wf_run (fun c hc => by grind only [Res.state, orLanes_mem]) hs

theorem wf_shiftR {f : Nat → Nat → Nat → Nat} : NextWf (shiftR i h o f s) := by
  unfold shiftR
  exact wf_run (fun _ hc => hc) hs

theorem wf_funnelR {f : Nat → Nat → Nat → Nat} : NextWf (funnelR i h o f s) := wf_run (fun _ hc => hc) hs

theorem wf_countR {f : Nat → Nat → Nat} : NextWf (countR i h o f s) := by
  unfold countR
  exact wf_run (fun _ hc => hc) hs

theorem wf_float1 {f : Nat → FRes} : NextWf (float1 i h o f s) := wf_run (fun _ hc => hc) hs

theorem wf_float2 {f : Nat → Nat → FRes} : NextWf (float2 i h o f s) := wf_run (fun _ hc => hc) hs

theorem wf_float3 {f : Nat → Nat → Nat → FRes} : NextWf (float3 i h o f s) := wf_run (fun _ hc => hc) hs

theorem wf_packedR {third : Bool} {f : FFmt → Nat → Nat → Nat → FRes} : NextWf (packedR i h o third f s) := by
  unfold packedR
  exact wf_run (fun _ hc => hc) hs

theorem wf_derivative {y : Bool} : NextWf (derivative i h o y s) := by
  unfold derivative
  exact wf_run (fun c hc => by grind only [Res.state, orLanes_mem]) hs

end

theorem wf_execAdd {s : State} (hs : Memory.wf s.mem = true) (h : Hdr) (o : OpR) : NextWf (execAdd h o s) := wf_binaryR hs

theorem wf_execAddc {s : State} (hs : Memory.wf s.mem = true) (h : Hdr) (o : OpR) : NextWf (execAddc h o s) := wf_carryR hs

theorem wf_execSub {s : State} (hs : Memory.wf s.mem = true) (h : Hdr) (o : OpR) : NextWf (execSub h o s) := wf_binaryR hs

theorem wf_execSubb {s : State} (hs : Memory.wf s.mem = true) (h : Hdr) (o : OpR) : NextWf (execSubb h o s) := wf_carryR hs

theorem wf_execAddi {s : State} (hs : Memory.wf s.mem = true) (h : Hdr) (o : OpI) : NextWf (execAddi h o s) := by
  unfold execAddi
  exact wf_run (fun _ hc => hc) hs

theorem wf_execMul {s : State} (hs : Memory.wf s.mem = true) (h : Hdr) (o : OpR) : NextWf (execMul h o s) := wf_binaryR hs

theorem wf_execMulhi {s : State} (hs : Memory.wf s.mem = true) (h : Hdr) (o : OpR) : NextWf (execMulhi h o s) := wf_binaryR hs

theorem wf_execMulw {s : State} (hs : Memory.wf s.mem = true) (h : Hdr) (o : OpR) : NextWf (execMulw h o s) := wf_run (fun _ hc => hc) hs

theorem wf_execMad {s : State} (hs : Memory.wf s.mem = true) (h : Hdr) (o : OpR) : NextWf (execMad h o s) := wf_ternaryR hs

theorem wf_execMadw {s : State} (hs : Memory.wf s.mem = true) (h : Hdr) (o : OpR) : NextWf (execMadw h o s) := wf_run (fun _ hc => hc) hs

theorem wf_execDiv {s : State} (hs : Memory.wf s.mem = true) (h : Hdr) (o : OpR) : NextWf (execDiv h o s) := by
  unfold execDiv
  exact wf_divideR hs

theorem wf_execRem {s : State} (hs : Memory.wf s.mem = true) (h : Hdr) (o : OpR) : NextWf (execRem h o s) := by
  unfold execRem
  exact wf_divideR hs

theorem wf_execDivrem {s : State} (hs : Memory.wf s.mem = true) (h : Hdr) (o : OpR) : NextWf (execDivrem h o s) := by
  unfold execDivrem
  exact wf_divideR hs

theorem wf_execMin {s : State} (hs : Memory.wf s.mem = true) (h : Hdr) (o : OpR) : NextWf (execMin h o s) := wf_binaryR hs

theorem wf_execMax {s : State} (hs : Memory.wf s.mem = true) (h : Hdr) (o : OpR) : NextWf (execMax h o s) := wf_binaryR hs

theorem wf_execClamp {s : State} (hs : Memory.wf s.mem = true) (h : Hdr) (o : OpR) : NextWf (execClamp h o s) := wf_ternaryR hs

theorem wf_execAbs {s : State} (hs : Memory.wf s.mem = true) (h : Hdr) (o : OpR) : NextWf (execAbs h o s) := wf_unaryR hs

theorem wf_execSad {s : State} (hs : Memory.wf s.mem = true) (h : Hdr) (o : OpR) : NextWf (execSad h o s) := wf_ternaryR hs

theorem wf_execDot4 {s : State} (hs : Memory.wf s.mem = true) (h : Hdr) (o : OpR) : NextWf (execDot4 h o s) := wf_ternaryS hs

theorem wf_execDot2 {s : State} (hs : Memory.wf s.mem = true) (h : Hdr) (o : OpR) : NextWf (execDot2 h o s) := wf_ternaryS hs

theorem wf_execLea {s : State} (hs : Memory.wf s.mem = true) (h : Hdr) (o : OpR) : NextWf (execLea h o s) := wf_run (fun _ hc => hc) hs

theorem wf_execLeai {s : State} (hs : Memory.wf s.mem = true) (h : Hdr) (o : OpI) : NextWf (execLeai h o s) := wf_run (fun _ hc => hc) hs

/-! ### Machine/Control -/

theorem wf_targetFault {s : State} (hs : Memory.wf s.mem = true) (c : Ctx) (line : Nat) (t : Tr) :
    Memory.wf (targetFault c s line t).state.mem = true := by
  unfold targetFault
  grind only [Res.state, wf_parkFetch]

theorem badForm_mem {c : Ctx} {s : State} {pc : DWord} {r : Res} (h : badForm c s pc = some r) : r.state.mem = s.mem := by
  unfold badForm at h
  grind only [Res.state]

theorem wf_checkTarget_ok {s : State} (hs : Memory.wf s.mem = true) {c : Ctx} {pc : DWord} {r : State} (h : checkTarget c s pc = .ok r) :
    Memory.wf r.mem = true := by
  unfold checkTarget at h
  grind only [wf_fetchLine]

theorem wf_checkTarget_error {s : State} (hs : Memory.wf s.mem = true) {c : Ctx} {pc : DWord} {r : Res}
    (h : checkTarget c s pc = .error r) :
    Memory.wf r.state.mem = true := by
  unfold checkTarget at h
  grind only [Res.state, badForm_mem, wf_fetchLine, wf_targetFault]

theorem wf_checkTargets_ok {c : Ctx} {pcs : List DWord} {s t : State} (hs : Memory.wf s.mem = true)
    (h : checkTargets c pcs s = .ok t) : Memory.wf t.mem = true := by
  induction pcs generalizing s with
  | nil => cases h; exact hs
  | cons pc rest ih => unfold checkTargets at h; grind only [→ wf_checkTarget_ok]

theorem wf_checkTargets_error {c : Ctx} {pcs : List DWord} {s : State} {r : Res} (hs : Memory.wf s.mem = true)
    (h : checkTargets c pcs s = .error r) : Memory.wf r.state.mem = true := by
  induction pcs generalizing s with
  | nil => cases h
  | cons pc rest ih => unfold checkTargets at h; grind only [→ wf_checkTarget_ok, → wf_checkTarget_error]

theorem wf_transfer {c : Ctx} (hc : Memory.wf c.s.mem = true) (w : List RegWrite) (moves : List (Nat × DWord)) :
    Memory.wf (transfer c w moves).state.mem = true := by
  unfold transfer
  grind only [Res.state, wf_checkTargets_ok, wf_checkTargets_error, modGroup_mem]

theorem wf_branchX {i : Instr} {h : Hdr} {o : OpB} {s : State} (hs : Memory.wf s.mem = true) : NextWf (branchX i h o s) :=
  wf_run (fun _ hc => wf_transfer hc _ _) hs

theorem wf_branchAll {i : Instr} {h : Hdr} {o : OpB} {taken : Ctx → Bool} {s : State} (hs : Memory.wf s.mem = true) :
    NextWf (branchAll i h o taken s) := wf_run (fun c hc => by grind only [wf_transfer, noEffect_mem]) hs

@[simp] theorem setRecon_mem (c : Ctx) (pc : DWord) : (setRecon c pc).state.mem = c.s.mem := rfl

theorem wf_execBra {s : State} (hs : Memory.wf s.mem = true) (h : Hdr) (o : OpB) : NextWf (execBra h o s) :=
    wf_run (fun _ hc => wf_transfer hc ..) hs

theorem wf_execBrall {s : State} (hs : Memory.wf s.mem = true) (h : Hdr) (o : OpB) : NextWf (execBrall h o s) := wf_branchAll hs

theorem wf_execBrany {s : State} (hs : Memory.wf s.mem = true) (h : Hdr) (o : OpB) : NextWf (execBrany h o s) := wf_branchAll hs

theorem wf_execBrx {s : State} (hs : Memory.wf s.mem = true) (h : Hdr) (o : OpB) : NextWf (execBrx h o s) := wf_branchX hs

theorem wf_execCall {s : State} (hs : Memory.wf s.mem = true) (h : Hdr) (o : OpB) : NextWf (execCall h o s) :=
  wf_run (fun _ hc => wf_transfer hc ..) hs

theorem wf_execCallx {s : State} (hs : Memory.wf s.mem = true) (h : Hdr) (o : OpB) : NextWf (execCallx h o s) :=
  wf_run (fun _ hc => wf_transfer hc ..) hs

theorem wf_execRet {s : State} (hs : Memory.wf s.mem = true) (h : Hdr) (o : OpB) : NextWf (execRet h o s) := wf_branchX hs

theorem wf_execLoop {s : State} (hs : Memory.wf s.mem = true) (h : Hdr) (o : OpB) : NextWf (execLoop h o s) :=
  wf_run (fun _ hc => wf_transfer hc ..) hs

theorem wf_execMrg {s : State} (hs : Memory.wf s.mem = true) (h : Hdr) (o : OpB) : NextWf (execMrg h o s) := by
  unfold execMrg
  refine wf_run (fun c hc => ?_) hs
  grind only [setRecon_mem, noEffect_mem]

theorem wf_execMrgx {s : State} (hs : Memory.wf s.mem = true) (h : Hdr) (o : OpB) : NextWf (execMrgx h o s) := by
  unfold execMrgx
  refine wf_run (fun c hc => ?_) hs
  grind only [→ badForm_mem, setRecon_mem, noEffect_mem]

/-! ### Machine/Rendezvous -/

@[simp] theorem setRp_mem (s : State) (team n : Nat) (x : Rp) : (setRp s team n x).mem = s.mem := rfl

@[simp] theorem supplyP_mem (s : State) (a : Arrival) (flag : Bool) : (supplyP s a flag).mem = s.mem := by
  unfold supplyP
  split <;> simp

@[simp] theorem decideFlags_mem (s : State) (team n phase : Nat) : (decideFlags s team n phase).mem = s.mem :=
  foldl_mem fun _ _ => supplyP_mem ..

@[simp] theorem settleRp_mem (team n fuel : Nat) (s : State) : (settleRp team n fuel s).mem = s.mem := by
  induction fuel generalizing s with
  | zero => rfl
  | succ fuel ih => unfold settleRp; grind only [decideFlags_mem, setRp_mem]

@[simp] theorem forgetArrivals_mem (s : State) : (forgetArrivals s).mem = s.mem := rfl

@[simp] theorem addPend_mem (s : State) (team n : Nat) (x : ℤ) : (addPend s team n x).mem = s.mem := by
  unfold addPend
  split <;> simp

@[simp] theorem noteArrival_mem (s : State) (a : Arrival) (det : Bool) (phase : Word) (last : Bool) :
    (noteArrival s a det phase last).mem = s.mem := by
  unfold noteArrival
  repeat' split
  all_goals simp

@[simp] theorem countArrival_mem (s : State) (a : Arrival) : (countArrival s a).mem = s.mem := by
  unfold countArrival
  grind only [setRp_mem, forgetArrivals_mem, settleRp_mem, noteArrival_mem]

@[simp] theorem pendClosed_mem (s : State) (key : Nat) (names : List RegName) : (pendClosed s key names).2.mem = s.mem := rfl

theorem wf_arrive {c : Ctx} (hc : Memory.wf c.s.mem = true) (o : OpR) (scope : Nat) : Memory.wf (arrive c o scope).2.mem = true := by
  unfold arrive
  grind only [wf_drainDets, beginRelease_mem, pendClosed_mem]

@[simp] theorem yielded_mem (c : Ctx) : (yielded c).state.mem = c.s.mem := rfl

@[simp] theorem sleepRes_mem (c : Ctx) (imm : Nat) : (sleepRes c imm).state.mem = c.s.mem := by
  unfold sleepRes
  repeat' split
  all_goals simp

theorem wf_execRpinit {s : State} (hs : Memory.wf s.mem = true) (h : Hdr) (o : OpI) : NextWf (execRpinit h o s) := by
  unfold execRpinit
  refine wf_run (fun c hc => ?_) hs
  grind only [Res.state, illegal_mem, noEffect_mem, setRp_mem]

theorem wf_execRparr {s : State} (hs : Memory.wf s.mem = true) (h : Hdr) (o : OpR) : NextWf (execRparr h o s) := by
  unfold execRparr
  refine wf_run (fun c hc => ?_) hs
  grind only [Res.state, illegal_mem, noEffect_mem, wf_arrive]

theorem wf_execRpwait {s : State} (hs : Memory.wf s.mem = true) (h : Hdr) (o : OpR) : NextWf (execRpwait h o s) := by
  unfold execRpwait
  refine wf_run (fun c hc => ?_) hs
  grind only [Res.state, illegal_mem, noEffect_mem, setStage_mem]

theorem wf_execRparw {s : State} (hs : Memory.wf s.mem = true) (h : Hdr) (o : OpR) : NextWf (execRparw h o s) := by
  unfold execRparw
  refine wf_run (fun c hc => ?_) hs
  grind only [Res.state, forgetArrivals_mem, setStage_mem, illegal_mem, noEffect_mem, wf_arrive, modGroup_mem]

theorem wf_execRpbytes {s : State} (hs : Memory.wf s.mem = true) (h : Hdr) (o : OpR) : NextWf (execRpbytes h o s) := by
  unfold execRpbytes
  refine wf_run (fun c hc => ?_) hs
  grind only [Res.state, illegal_mem, noEffect_mem, addPend_mem]

theorem wf_execYield {s : State} (hs : Memory.wf s.mem = true) (h : Hdr) (o : OpS) : NextWf (execYield h o s) := by
  unfold execYield
  refine wf_run (fun c hc => ?_) hs
  grind only [yielded_mem, noEffect_mem]

theorem wf_execYieldto {s : State} (hs : Memory.wf s.mem = true) (h : Hdr) (o : OpB) : NextWf (execYieldto h o s) := by
  unfold execYieldto
  refine wf_run (fun c hc => ?_) hs
  grind only [Res.state, wf_transfer, illegal_mem, noEffect_mem, setStage_mem]

theorem wf_execSleep {s : State} (hs : Memory.wf s.mem = true) (h : Hdr) (o : OpS) : NextWf (execSleep h o s) :=
  wf_run (fun _ hc => by rwa [sleepRes_mem]) hs

theorem wf_execRendezvousArrivalCount {s : State} (hs : Memory.wf s.mem = true) (arrival : Nat) :
    NextWf (execRendezvousArrivalCount arrival s) := by
  refine nextWf_next ?_
  grind only [countArrival_mem]

theorem wf_execSleepExpiry {s : State} (hs : Memory.wf s.mem = true) (group : Nat) : NextWf (execSleepExpiry group s) := by
  refine nextWf_next ?_
  grind only

/-! ### Machine/Sys -/

@[simp] theorem setLimit_mem (s : State) (d v : Nat) : (setLimit s d v).mem = s.mem := rfl

@[simp] theorem sregWrite_mem (c : Ctx) (n : Nat) (x : Nat → Nat) : (sregWrite c n x).mem = c.s.mem := by
  unfold sregWrite
  repeat' split
  all_goals simp

@[simp] theorem beginRegion_mem (c : Ctx) (n : Nat) : (beginRegion c n).state.mem = c.s.mem := by
  unfold beginRegion
  grind only [Res.state, illegal_mem, → issueLoad_ok_mem, → issueLoad_error_mem, modGroup_mem]

theorem wf_execNop {s : State} (hs : Memory.wf s.mem = true) (h : Hdr) (o : OpS) : NextWf (execNop h o s) := wf_run (fun _ hc => hc) hs

theorem wf_execBrk {s : State} (hs : Memory.wf s.mem = true) (h : Hdr) (o : OpS) : NextWf (execBrk h o s) := by
  unfold execBrk
  refine wf_run (fun c hc => ?_) hs
  grind only [Res.state, noEffect_mem]

theorem wf_execSread {s : State} (hs : Memory.wf s.mem = true) (h : Hdr) (o : OpS) : NextWf (execSread h o s) := by
  unfold execSread
  refine wf_run (fun c hc => ?_) hs
  grind only [Res.state, illegal_mem, doneN_mem]

theorem wf_execSwrite {s : State} (hs : Memory.wf s.mem = true) (h : Hdr) (o : OpS) : NextWf (execSwrite h o s) := by
  unfold execSwrite
  refine wf_run (fun c hc => ?_) hs
  grind only [Res.state, illegal_mem, sregWrite_mem, noEffect_mem]

theorem wf_execCycrd {s : State} (hs : Memory.wf s.mem = true) (h : Hdr) (o : OpR) : NextWf (execCycrd h o s) := wf_run (fun _ hc => hc) hs

theorem wf_execHint {s : State} (hs : Memory.wf s.mem = true) (h : Hdr) (o : OpS) : NextWf (execHint h o s) := wf_run (fun _ hc => hc) hs

theorem wf_execTrap {s : State} (hs : Memory.wf s.mem = true) (h : Hdr) (o : OpS) : NextWf (execTrap h o s) := by
  unfold execTrap
  refine wf_run (fun c hc => ?_) hs
  grind only [Res.state, noEffect_mem]

theorem wf_execRett {s : State} (hs : Memory.wf s.mem = true) (h : Hdr) (o : OpS) : NextWf (execRett h o s) := by
  unfold execRett
  refine wf_run (fun c hc => ?_) hs
  grind only [Res.state, noEffect_mem, illegal_mem, → badForm_mem, returnFromTrap_mem]

theorem wf_execRgn {s : State} (hs : Memory.wf s.mem = true) (h : Hdr) (o : OpS) : NextWf (execRgn h o s) := by
  unfold execRgn
  refine wf_run (fun c hc => ?_) hs
  grind only [beginRegion_mem, noEffect_mem]

theorem wf_execRgnend {s : State} (hs : Memory.wf s.mem = true) (h : Hdr) (o : OpS) : NextWf (execRgnend h o s) := by
  unfold execRgnend
  refine wf_run (fun c hc => ?_) hs
  grind only [Res.state, modGroup_mem, noEffect_mem]

/-! ### Machine/Logic -/

theorem wf_execAnd {s : State} (hs : Memory.wf s.mem = true) (h : Hdr) (o : OpR) : NextWf (execAnd h o s) := wf_binaryR hs

theorem wf_execOr {s : State} (hs : Memory.wf s.mem = true) (h : Hdr) (o : OpR) : NextWf (execOr h o s) := wf_binaryR hs

theorem wf_execXor {s : State} (hs : Memory.wf s.mem = true) (h : Hdr) (o : OpR) : NextWf (execXor h o s) := wf_binaryR hs

theorem wf_execNot {s : State} (hs : Memory.wf s.mem = true) (h : Hdr) (o : OpR) : NextWf (execNot h o s) := wf_unaryR hs

theorem wf_execTern {s : State} (hs : Memory.wf s.mem = true) (h : Hdr) (o : OpR) : NextWf (execTern h o s) := wf_ternaryR hs

theorem wf_execBini {s : State} (hs : Memory.wf s.mem = true) (h : Hdr) (o : OpI) : NextWf (execBini h o s) := by
  unfold execBini
  exact wf_run (fun _ hc => hc) hs

theorem wf_execShl {s : State} (hs : Memory.wf s.mem = true) (h : Hdr) (o : OpR) : NextWf (execShl h o s) := wf_shiftR hs

theorem wf_execShr {s : State} (hs : Memory.wf s.mem = true) (h : Hdr) (o : OpR) : NextWf (execShr h o s) := wf_shiftR hs

theorem wf_execSra {s : State} (hs : Memory.wf s.mem = true) (h : Hdr) (o : OpR) : NextWf (execSra h o s) := wf_shiftR hs

theorem wf_execFsl {s : State} (hs : Memory.wf s.mem = true) (h : Hdr) (o : OpR) : NextWf (execFsl h o s) := wf_funnelR hs

theorem wf_execFsr {s : State} (hs : Memory.wf s.mem = true) (h : Hdr) (o : OpR) : NextWf (execFsr h o s) := wf_funnelR hs

theorem wf_execPopc {s : State} (hs : Memory.wf s.mem = true) (h : Hdr) (o : OpR) : NextWf (execPopc h o s) := wf_countR hs

theorem wf_execClz {s : State} (hs : Memory.wf s.mem = true) (h : Hdr) (o : OpR) : NextWf (execClz h o s) := wf_countR hs

theorem wf_execBrev {s : State} (hs : Memory.wf s.mem = true) (h : Hdr) (o : OpR) : NextWf (execBrev h o s) := wf_unaryR hs

theorem wf_execBfx {s : State} (hs : Memory.wf s.mem = true) (h : Hdr) (o : OpR) : NextWf (execBfx h o s) := by
  unfold execBfx
  exact wf_run (fun _ hc => hc) hs

theorem wf_execBfi {s : State} (hs : Memory.wf s.mem = true) (h : Hdr) (o : OpR) : NextWf (execBfi h o s) := by
  unfold execBfi
  exact wf_run (fun _ hc => hc) hs

theorem wf_execPerm {s : State} (hs : Memory.wf s.mem = true) (h : Hdr) (o : OpR) : NextWf (execPerm h o s) := wf_ternaryS hs

/-! ### Machine/Move -/

theorem wf_execSetp {s : State} (hs : Memory.wf s.mem = true) (h : Hdr) (o : OpR) : NextWf (execSetp h o s) := by
  unfold execSetp
  exact wf_run (fun _ hc => hc) hs

theorem wf_execSetpi {s : State} (hs : Memory.wf s.mem = true) (h : Hdr) (o : OpI) : NextWf (execSetpi h o s) := by
  unfold execSetpi
  exact wf_run (fun _ hc => hc) hs

theorem wf_execFsetp {s : State} (hs : Memory.wf s.mem = true) (h : Hdr) (o : OpR) : NextWf (execFsetp h o s) := wf_run (fun _ hc => hc) hs

theorem wf_execPlop {s : State} (hs : Memory.wf s.mem = true) (h : Hdr) (o : OpR) : NextWf (execPlop h o s) := wf_run (fun _ hc => hc) hs

theorem wf_execSel {s : State} (hs : Memory.wf s.mem = true) (h : Hdr) (o : OpR) : NextWf (execSel h o s) := by
  unfold execSel
  exact wf_run (fun _ hc => hc) hs

theorem wf_execSeli {s : State} (hs : Memory.wf s.mem = true) (h : Hdr) (o : OpI) : NextWf (execSeli h o s) := wf_run (fun _ hc => hc) hs

theorem wf_execMov {s : State} (hs : Memory.wf s.mem = true) (h : Hdr) (o : OpR) : NextWf (execMov h o s) := by
  unfold execMov
  exact wf_run (fun _ hc => hc) hs

theorem wf_execMovi {s : State} (hs : Memory.wf s.mem = true) (h : Hdr) (o : OpI) : NextWf (execMovi h o s) := by
  unfold execMovi
  exact wf_run (fun _ hc => hc) hs

theorem wf_execP2r {s : State} (hs : Memory.wf s.mem = true) (h : Hdr) (o : OpR) : NextWf (execP2r h o s) := wf_run (fun _ hc => hc) hs

theorem wf_execRegToPred {s : State} (hs : Memory.wf s.mem = true) (h : Hdr) (o : OpR) : NextWf (execRegToPred h o s) := by
  unfold execRegToPred
  exact wf_run (fun _ hc => hc) hs

/-! ### Machine/Exchange -/

theorem wf_execShfl {s : State} (hs : Memory.wf s.mem = true) (h : Hdr) (o : OpR) : NextWf (execShfl h o s) := by
  unfold execShfl
  exact wf_run (fun _ hc => hc) hs

theorem wf_execShfli {s : State} (hs : Memory.wf s.mem = true) (h : Hdr) (o : OpI) : NextWf (execShfli h o s) := by
  unfold execShfli
  exact wf_run (fun _ hc => hc) hs

theorem wf_execVote {s : State} (hs : Memory.wf s.mem = true) (h : Hdr) (o : OpR) : NextWf (execVote h o s) := wf_run (fun _ hc => hc) hs

theorem wf_execPmask {s : State} (hs : Memory.wf s.mem = true) (h : Hdr) (o : OpR) : NextWf (execPmask h o s) := wf_run (fun _ hc => hc) hs

theorem wf_execLfold {s : State} (hs : Memory.wf s.mem = true) (h : Hdr) (o : OpR) : NextWf (execLfold h o s) := by
  unfold execLfold
  exact wf_run (fun _ hc => hc) hs

theorem wf_execMatchLanes {s : State} (hs : Memory.wf s.mem = true) (h : Hdr) (o : OpR) : NextWf (execMatchLanes h o s) := by
  unfold execMatchLanes
  exact wf_run (fun _ hc => hc) hs

theorem wf_execRdlane {s : State} (hs : Memory.wf s.mem = true) (h : Hdr) (o : OpR) : NextWf (execRdlane h o s) := by
  unfold execRdlane
  exact wf_run (fun _ hc => hc) hs

theorem wf_execDdx {s : State} (hs : Memory.wf s.mem = true) (h : Hdr) (o : OpR) : NextWf (execDdx h o s) := wf_derivative hs

theorem wf_execDdy {s : State} (hs : Memory.wf s.mem = true) (h : Hdr) (o : OpR) : NextWf (execDdy h o s) := wf_derivative hs

/-! ### Machine/Float -/

theorem wf_execFadd {s : State} (hs : Memory.wf s.mem = true) (h : Hdr) (o : OpR) : NextWf (execFadd h o s) := wf_float2 hs

theorem wf_execFsub {s : State} (hs : Memory.wf s.mem = true) (h : Hdr) (o : OpR) : NextWf (execFsub h o s) := wf_float2 hs

theorem wf_execFmul {s : State} (hs : Memory.wf s.mem = true) (h : Hdr) (o : OpR) : NextWf (execFmul h o s) := wf_float2 hs

theorem wf_execFma {s : State} (hs : Memory.wf s.mem = true) (h : Hdr) (o : OpR) : NextWf (execFma h o s) := wf_float3 hs

theorem wf_execFmin {s : State} (hs : Memory.wf s.mem = true) (h : Hdr) (o : OpR) : NextWf (execFmin h o s) := wf_float2 hs

theorem wf_execFmax {s : State} (hs : Memory.wf s.mem = true) (h : Hdr) (o : OpR) : NextWf (execFmax h o s) := wf_float2 hs

theorem wf_execFrnd {s : State} (hs : Memory.wf s.mem = true) (h : Hdr) (o : OpR) : NextWf (execFrnd h o s) := wf_float1 hs

theorem wf_execFclass {s : State} (hs : Memory.wf s.mem = true) (h : Hdr) (o : OpR) : NextWf (execFclass h o s) :=
  wf_run (fun _ hc => hc) hs

theorem wf_execFadd2 {s : State} (hs : Memory.wf s.mem = true) (h : Hdr) (o : OpR) : NextWf (execFadd2 h o s) := wf_packedR hs

theorem wf_execFmul2 {s : State} (hs : Memory.wf s.mem = true) (h : Hdr) (o : OpR) : NextWf (execFmul2 h o s) := wf_packedR hs

theorem wf_execFma2 {s : State} (hs : Memory.wf s.mem = true) (h : Hdr) (o : OpR) : NextWf (execFma2 h o s) := wf_packedR hs

theorem wf_execFdot2 {s : State} (hs : Memory.wf s.mem = true) (h : Hdr) (o : OpR) : NextWf (execFdot2 h o s) := wf_float3 hs

theorem wf_execFex2 {s : State} (hs : Memory.wf s.mem = true) (h : Hdr) (o : OpR) : NextWf (execFex2 h o s) := wf_float1 hs

theorem wf_execFlg2 {s : State} (hs : Memory.wf s.mem = true) (h : Hdr) (o : OpR) : NextWf (execFlg2 h o s) := wf_float1 hs

theorem wf_execFrcp {s : State} (hs : Memory.wf s.mem = true) (h : Hdr) (o : OpR) : NextWf (execFrcp h o s) := wf_float1 hs

theorem wf_execFrsq {s : State} (hs : Memory.wf s.mem = true) (h : Hdr) (o : OpR) : NextWf (execFrsq h o s) := wf_float1 hs

theorem wf_execFsin {s : State} (hs : Memory.wf s.mem = true) (h : Hdr) (o : OpR) : NextWf (execFsin h o s) := wf_float1 hs

theorem wf_execFcos {s : State} (hs : Memory.wf s.mem = true) (h : Hdr) (o : OpR) : NextWf (execFcos h o s) := wf_float1 hs

theorem wf_execCvt {s : State} (hs : Memory.wf s.mem = true) (h : Hdr) (o : OpR) : NextWf (execCvt h o s) := by
  unfold execCvt
  exact wf_run (fun _ hc => hc) hs

theorem wf_execPack {s : State} (hs : Memory.wf s.mem = true) (h : Hdr) (o : OpR) : NextWf (execPack h o s) := wf_run (fun _ hc => hc) hs

theorem wf_execUnpack {s : State} (hs : Memory.wf s.mem = true) (h : Hdr) (o : OpR) : NextWf (execUnpack h o s) :=
  wf_run (fun _ hc => hc) hs

theorem wf_execQuant {s : State} (hs : Memory.wf s.mem = true) (h : Hdr) (o : OpR) : NextWf (execQuant h o s) := wf_run (fun _ hc => hc) hs

theorem wf_execDequant {s : State} (hs : Memory.wf s.mem = true) (h : Hdr) (o : OpR) : NextWf (execDequant h o s) :=
  wf_run (fun _ hc => hc) hs

theorem wf_execPack4 {s : State} (hs : Memory.wf s.mem = true) (h : Hdr) (o : OpR) : NextWf (execPack4 h o s) := wf_run (fun _ hc => hc) hs

end Sys2Proof.Machine.Ops
end

section
/-! Memory stays in canonical form (continued). The copy engine, buffer handles and `publish` (class 0xB). -/

namespace Sys2Proof.Machine.Ops

open Sys2Proof.Bits Sys2Proof.Num

/-! ### Machine/Copy -/

theorem wf_engineWrite {s : State} (hs : Memory.wf s.mem = true) (cl pa leaf : Nat) (bs : List Byte) :
    Memory.wf (engineWrite s cl pa leaf bs).2.mem = true := by
  unfold engineWrite
  grind only [wf_writeHome, backInvalidate_mem]

theorem engineRead_ok_mem {s : State} {ctx cl va n : Nat} {r : List Byte × State} (h : engineRead s ctx cl va n = .ok r) :
    r.2.mem = s.mem := by
  unfold engineRead at h
  grind only [loadMem_mem]

theorem readElem_ok_mem {s : State} {cl : Nat} {x : Copy} {row e : Nat} {r : Nat × State} (h : readElem s cl x row e = .ok r) :
    r.2.mem = s.mem := by
  unfold readElem at h
  grind only [→ engineRead_ok_mem]

theorem readUnit_ok_mem {s : State} {cl : Nat} {x : Copy} {u : Nat × Nat} {r : List Byte × State} (h : readUnit s cl x u = .ok r) :
    r.2.mem = s.mem := by
  unfold readUnit at h
  grind only [→ readElem_ok_mem]

theorem planChunk_mem {cl : Nat} {x : Copy} {us : List (Nat × Nat)} {s : State} {r : List (Place × List Byte) × State}
    (h : planChunk cl x us s = .ok r) : r.2.mem = s.mem := by
  induction us generalizing s r with
  | nil => cases h; rfl
  | cons u us ih => unfold planChunk at h; grind only [→ readUnit_ok_mem]

theorem wf_writeChunk (cl : Nat) (ws : List (Place × List Byte)) {s : State} (hs : Memory.wf s.mem = true) :
    Memory.wf (writeChunk cl ws s).2.mem = true := by
  induction ws generalizing s with
  | nil => exact hs
  | cons w ws ih => unfold writeChunk; grind only [wf_engineWrite, storeScratch_mem]

theorem pushChunk_mem {s : State} {cl b : Nat} {bs : List Byte} {r : State} (h : pushChunk s cl b bs = some r) : r.mem = s.mem := by
  unfold pushChunk at h
  grind only [setBank_mem]

@[simp] theorem wakeStage_mem (s : State) (at_x st : Stage) : (wakeStage s at_x st).mem = s.mem := rfl

@[simp] theorem wakeYieldto_mem (s : State) (cl h : Nat) (st : Stage) : (wakeYieldto s cl h st).mem = s.mem := rfl

@[simp] theorem releaseHandle_mem (s : State) (cl h : Nat) : (releaseHandle s cl h).mem = s.mem :=
  (wakeYieldto_mem ..).trans (foldl_mem fun _ _ => wakeStage_mem ..)

@[simp] theorem fillHandle_mem (s : State) (cl h : Nat) : (fillHandle s cl h).mem = s.mem :=
  (wakeYieldto_mem ..).trans (foldl_mem fun _ _ => wakeStage_mem ..)

@[simp] theorem landHandle_mem (s : State) (cl h n : Nat) : (landHandle s cl h n).mem = s.mem := by
  unfold landHandle
  grind only [setHandle_mem, fillHandle_mem]

@[simp] theorem freeTeamHandles_mem (s : State) (t : Nat) : (freeTeamHandles s t).mem = s.mem :=
  foldl_mem fun _ _ => foldl_mem fun _ _ => by split <;> simp

@[simp] theorem dropTeam_mem (s : State) (t : Nat) (tm : Team) : (dropTeam s t tm).mem = s.mem := by
  unfold dropTeam
  grind only [setTeam_mem]

theorem wf_settleTeam {s : State} (hs : Memory.wf s.mem = true) (t : Nat) : Memory.wf (settleTeam s t).mem = true := by
  unfold settleTeam
  grind only [wf_drainDets, freeTeamHandles_mem, modLaunch_mem, dropTeam_mem, kickBanks_mem, settleSwitches_mem]

@[simp] theorem modCopy_mem (s : State) (cl id : Nat) (f : Copy → Copy) : (modCopy s cl id f).mem = s.mem := rfl

@[simp] theorem dropCopy_mem (s : State) (cl id : Nat) : (dropCopy s cl id).mem = s.mem := rfl

@[simp] theorem finishCopy_mem (s : State) (cl : Nat) (x : Copy) : (finishCopy s cl x).mem = s.mem := by
  unfold finishCopy
  split <;> simp

theorem wf_landChunk {s : State} (hs : Memory.wf s.mem = true) (cl : Nat) (x : Copy) : Memory.wf (landChunk s cl x).mem = true := by
  unfold landChunk
  grind only [modCopy_mem, addPend_mem, kickBanks_mem, finishCopy_mem, landHandle_mem, wf_settleTeam]

theorem wf_haltChunk {s : State} (hs : Memory.wf s.mem = true) (cl : Nat) (x : Copy) (w : Halt) :
    Memory.wf (haltChunk s cl x w).mem = true := by
  unfold haltChunk
  grind only [wf_terminate, raise_mem, modCopy_mem]

theorem wf_noteWritten {s : State} (hs : Memory.wf s.mem = true) (cl : Nat) (x : Copy) (ct : Nat × Nat) :
    Memory.wf (noteWritten s cl x ct).mem = true := by
  unfold noteWritten
  grind only [modCopy_mem, modLaunch_mem, wf_landChunk]

theorem wf_runChunk {s : State} (hs : Memory.wf s.mem = true) (cl : Nat) (x : Copy) : Memory.wf (runChunk s cl x).mem = true := by
  unfold runChunk
  grind only [→ planChunk_mem, wf_haltChunk, → pushChunk_mem, wf_noteWritten, wf_writeChunk]

theorem wf_retryChunk {s : State} (hs : Memory.wf s.mem = true) (cl : Nat) (x : Copy) (id : Nat) :
    Memory.wf (retryChunk s cl x id).mem = true := by
  unfold retryChunk
  grind only [wf_runChunk, modCopy_mem]

theorem wf_advanceCopy {s : State} (hs : Memory.wf s.mem = true) (cl : Nat) (x : Copy) : Memory.wf (advanceCopy s cl x).mem = true := by
  unfold advanceCopy
  grind only [wf_retryChunk, wf_landChunk, wf_runChunk]

theorem wf_writeSignal {s : State} (hs : Memory.wf s.mem = true) (cl ctx addr value : Nat) (queue : Option Nat) :
    Memory.wf (writeSignal s cl ctx addr value queue).2.mem = true := by
  unfold writeSignal
  grind only [wf_engineWrite, wf_terminate, wf_devlog]

theorem wf_signalCopy {s : State} (hs : Memory.wf s.mem = true) (cl : Nat) (x : Copy) : Memory.wf (signalCopy s cl x).mem = true := by
  unfold signalCopy
  split <;> simp [wf_writeSignal, hs]

theorem wf_refill (cl fuel : Nat) {s : State} (hs : Memory.wf s.mem = true) : Memory.wf (refill cl fuel s).mem = true := by
  induction fuel generalizing s with
  | zero => exact hs
  | succ fuel ih => unfold refill; grind only [wf_terminate, setCluster_mem]

theorem wf_acceptCopy {s : State} (hs : Memory.wf s.mem = true) (cl : Nat) (x : Copy) : Memory.wf (acceptCopy s cl x).mem = true := by
  unfold acceptCopy
  grind only [setCluster_mem, wf_terminate, wf_hubWrite]

theorem wf_startCopy {s : State} (hs : Memory.wf s.mem = true) (cl : Nat) : Memory.wf (startCopy s cl).mem = true := by
  unfold startCopy
  grind only [modCopy_mem, setCluster_mem, wf_refill, finishCopy_mem]

@[simp] theorem commitCopy_mem (s : State) (cl : Nat) (x : Copy) : (commitCopy s cl x).mem = s.mem := by
  unfold commitCopy
  split <;> simp

theorem wf_issueCopy {s : State} (hs : Memory.wf s.mem = true) (c : Ctx) (y : Copy) : Memory.wf (issueCopy c s y).state.mem = true := by
  unfold issueCopy
  grind only [Res.state, illegal_mem, setStage_mem, wf_refill, beginRelease_mem, commitCopy_mem, addPend_mem, wf_acceptCopy]

theorem readPacket_ok_mem {c : Ctx} {ea : Nat} {r : List Byte × State} (h : readPacket c ea = .ok r) : r.2.mem = c.s.mem := by
  unfold readPacket at h
  grind only [issueLoad_ok_mem]

theorem readPacket_error_mem {c : Ctx} {ea : Nat} {r : Res} (h : readPacket c ea = .error r) : r.state.mem = c.s.mem := by
  unfold readPacket at h
  grind only [illegal_mem, issueLoad_error_mem]

theorem wf_execCpy {s : State} (hs : Memory.wf s.mem = true) (h : Hdr) (o : OpR) : NextWf (execCpy h o s) := by
  unfold execCpy
  refine wf_run (fun c hc => ?_) hs
  grind only [noEffect_mem, wf_issueCopy]

theorem wf_execCpyo {s : State} (hs : Memory.wf s.mem = true) (h : Hdr) (o : OpR) : NextWf (execCpyo h o s) := by
  unfold execCpyo
  refine wf_run (fun c hc => ?_) hs
  grind only [noEffect_mem, wf_issueCopy]

theorem wf_execCpyq {s : State} (hs : Memory.wf s.mem = true) (h : Hdr) (o : OpR) : NextWf (execCpyq h o s) := by
  unfold execCpyq
  refine wf_run (fun c hc => ?_) hs
  grind only [noEffect_mem, → readPacket_ok_mem, → readPacket_error_mem, illegal_mem, wf_issueCopy]

theorem wf_execCopyCommandStart {s : State} (hs : Memory.wf s.mem = true) (cluster : Nat) : NextWf (execCopyCommandStart cluster s) :=
  nextWf_next (wf_startCopy hs ..)

theorem wf_execCopyChunkLand {s : State} (hs : Memory.wf s.mem = true) (cluster : Nat) (command : Nat) :
    NextWf (execCopyChunkLand cluster command s) := by
  refine nextWf_next ?_
  grind only [wf_advanceCopy]

theorem wf_execCopySignalWrite {s : State} (hs : Memory.wf s.mem = true) (cluster : Nat) (command : Nat) :
    NextWf (execCopySignalWrite cluster command s) := by
  refine nextWf_next ?_
  grind only [wf_signalCopy]

theorem wf_execSpillRingRefill {s : State} (hs : Memory.wf s.mem = true) (cluster : Nat) : NextWf (execSpillRingRefill cluster s) := by
  refine nextWf_next ?_
  grind only [wf_refill]

theorem wf_execCespillbWrite {s : State} (hs : Memory.wf s.mem = true) (cluster : Nat) (value : Nat) :
    NextWf (execCespillbWrite cluster value s) := nextWf_next (wf_ctlWrite hs ..)

/-! ### Machine/Handles -/

@[simp] theorem awaitHandle_mem (c : Ctx) (r : BitVec 9) (kind : Nat) : (awaitHandle c r kind).state.mem = c.s.mem := by
  unfold awaitHandle
  split <;> simp

@[simp] theorem leaveHandle_mem (c : Ctx) (r : BitVec 9) : (leaveHandle c r).mem = c.s.mem := by
  unfold leaveHandle
  split <;> simp

@[simp] theorem hallocRes_mem (c : Ctx) (o : OpR) : (hallocRes c o).state.mem = c.s.mem := by
  unfold hallocRes
  grind only [Res.state, illegal_mem, setStage_mem, setHandle_mem]

@[simp] theorem hfreeRes_mem (c : Ctx) (o : OpR) : (hfreeRes c o).state.mem = c.s.mem := by
  unfold hfreeRes
  grind only [Res.state, illegal_mem, awaitHandle_mem, releaseHandle_mem, leaveHandle_mem]

@[simp] theorem takeRes_mem (c : Ctx) (o : OpR) : (takeRes c o).state.mem = c.s.mem := by
  unfold takeRes
  grind only [Res.state, noEffect_mem, illegal_mem, leaveHandle_mem, setHandle_mem, awaitHandle_mem]

@[simp] theorem peekRes_mem (c : Ctx) (o : OpR) : (peekRes c o).state.mem = c.s.mem := by
  unfold peekRes
  grind only [Res.state, noEffect_mem, illegal_mem, awaitHandle_mem, leaveHandle_mem]

theorem publishTr_ok_mem {c : Ctx} {pages : List Nat} {s : State} {r : State} (h : publishTr c pages s = .ok r) : r.mem = s.mem := by
  unfold publishTr at h
  grind only [translateAll_mem]

theorem publishTr_error_mem {c : Ctx} {pages : List Nat} {s : State} {r : Res} (h : publishTr c pages s = .error r) :
    r.state.mem = s.mem := by
  unfold publishTr at h
  grind only [translateAll_mem, issueFails_mem]

theorem wf_swapLeaf {s : State} (hs : Memory.wf s.mem = true) (ctx stamp : Nat) (e : Nat × Nat × Nat × Nat) :
    Memory.wf (swapLeaf ctx stamp s e).mem = true := by
  simp [swapLeaf, wf_hubWrite, hs]

theorem wf_swapPublish {s : State} (hs : Memory.wf s.mem = true) (p : Publish) : Memory.wf (swapPublish s p).mem = true := by
  unfold swapPublish
  split
  · exact hs
  · dsimp only
    split
    · exact hs
    · dsimp only
      rw [sweepRange_mem]
      exact wf_foldl hs fun _ _ h => wf_swapLeaf h ..

@[simp] theorem publishEnd_mem (c : Ctx) (o : OpR) (id : Nat) : (publishEnd c o id).state.mem = c.s.mem := by
  unfold publishEnd
  repeat' split
  all_goals simp

@[simp] theorem publishRes_mem (c : Ctx) (h : Hdr) (o : OpR) : (publishRes c h o).state.mem = c.s.mem := by
  unfold publishRes
  grind only [Res.state, illegal_mem, → publishTr_ok_mem, → publishTr_error_mem, setStage_mem]

theorem wf_execHalloc {s : State} (hs : Memory.wf s.mem = true) (h : Hdr) (o : OpR) : NextWf (execHalloc h o s) := by
  unfold execHalloc
  refine wf_run (fun c hc => ?_) hs
  grind only [hallocRes_mem, noEffect_mem]

theorem wf_execHfree {s : State} (hs : Memory.wf s.mem = true) (h : Hdr) (o : OpR) : NextWf (execHfree h o s) := by
  unfold execHfree
  refine wf_run (fun c hc => ?_) hs
  grind only [hfreeRes_mem, noEffect_mem]

theorem wf_execHwaitTake {s : State} (hs : Memory.wf s.mem = true) (h : Hdr) (o : OpR) : NextWf (execHwaitTake h o s) := by
  unfold execHwaitTake
  refine wf_run (fun c hc => ?_) hs
  grind only [takeRes_mem, noEffect_mem]

theorem wf_execHwaitPeek {s : State} (hs : Memory.wf s.mem = true) (h : Hdr) (o : OpR) : NextWf (execHwaitPeek h o s) := by
  unfold execHwaitPeek
  refine wf_run (fun c hc => ?_) hs
  grind only [peekRes_mem, noEffect_mem]

theorem wf_execHstat {s : State} (hs : Memory.wf s.mem = true) (h : Hdr) (o : OpR) : NextWf (execHstat h o s) := by
  unfold execHstat
  refine wf_run (fun c hc => ?_) hs
  grind only [noEffect_mem, illegal_mem, doneN_mem]

theorem wf_execPublish {s : State} (hs : Memory.wf s.mem = true) (h : Hdr) (o : OpR) : NextWf (execPublish h o s) :=
  wf_run (fun c hc => by grind only [publishEnd_mem, publishRes_mem, noEffect_mem]) hs

theorem wf_execPublishSwap {s : State} (hs : Memory.wf s.mem = true) (publish : Nat) : NextWf (execPublishSwap publish s) := by
  refine nextWf_next ?_
  grind only [wf_swapPublish]

end Sys2Proof.Machine.Ops
end

section
/-! Memory stays in canonical form (continued). Matrix streams, transforms and network evaluation. -/

namespace Sys2Proof.Machine.Ops

open Sys2Proof.Bits Sys2Proof.Num

/-! ### Machine/Matrix -/

@[simp] theorem sIllegal_mem (s : State) : (sIllegal s).state.mem = s.mem := rfl

@[simp] theorem moveSeq_mem (s : State) (t : Nat) (pc : DWord → DWord) : (moveSeq s t pc).mem = s.mem := rfl

theorem wf_finishSeq (t ctx : Nat) {r : SRes} (hr : Memory.wf r.state.mem = true) : Memory.wf (finishSeq t ctx r).mem = true := by
  cases r <;> unfold finishSeq
  all_goals grind only [SRes.state, moveSeq_mem, modSeq_mem, wf_stopSeq, wf_terminate]

theorem wf_runSeqOf {s : State} (hs : Memory.wf s.mem = true) (t : Nat) (tm : Team) (q : Seq) (o : OpX) (arrives : Bool)
    {body : Nat → Team → Seq → State → SRes} (hb : ∀ q s, Memory.wf s.mem = true → Memory.wf (body t tm q s).state.mem = true) :
    Memory.wf (runSeqOf t tm q o arrives body s).mem = true := by
  unfold runSeqOf
  grind only [wf_finishSeq, sIllegal_mem, modSeq_mem]

/-- A stream instruction keeps the form when its body does. -/
theorem wf_runSeq {o : OpX} {arrives : Bool} {body : Nat → Team → Seq → State → SRes} {s : State}
    (hb : ∀ k tm q s, Memory.wf s.mem = true → Memory.wf (body k tm q s).state.mem = true) (hs : Memory.wf s.mem = true) :
    NextWf (runSeq o arrives body s) := by
  unfold runSeq
  split
  · split
    · exact nextWf_fault _
    · split
      · exact nextWf_fault _
      · exact nextWf_next (wf_runSeqOf hs _ _ _ _ _ fun q s hs => hb _ _ q s hs)
  · exact nextWf_fault _

@[simp] theorem putTile_mem (s : State) (k t : Nat) (ws : List Word) : (putTile s k t ws).mem = s.mem := rfl

theorem claimTile_ok_mem {t : Nat} {tm : Team} {q : Seq} {l : Nat} {s : State} {r : Nat × State} (h : claimTile t tm q l s = .ok r) :
    r.2.mem = s.mem := by
  unfold claimTile at h
  grind only [putTile_mem, setCore_mem, modSeq_mem]

theorem claimTile_error_mem {t : Nat} {tm : Team} {q : Seq} {l : Nat} {s : State} {r : SRes} (h : claimTile t tm q l s = .error r) :
    r.state.mem = s.mem := by
  unfold claimTile at h
  grind only [SRes.state, sIllegal_mem]

@[simp] theorem mmaRes_mem (batched : Bool) (o : OpX) (t : Nat) (tm : Team) (q : Seq) (s : State) :
    (mmaRes batched o t tm q s).state.mem = s.mem := by
  unfold mmaRes
  grind only [SRes.state, sIllegal_mem, → claimTile_ok_mem, → claimTile_error_mem, modSeq_mem, putTile_mem]

@[simp] theorem setLatch_mem (s : State) (t fmt : Nat) (batched : Bool) (img : List Byte) (n : Nat) (block : List Byte) :
    (setLatch s t fmt batched img n block).state.mem = s.mem := rfl

@[simp] theorem mldbRes_mem (fmt : Nat) (o : OpX) (t : Nat) (tm : Team) (s : State) : (mldbRes fmt o t tm s).state.mem = s.mem := by
  unfold mldbRes
  grind only [SRes.state, sIllegal_mem, setLatch_mem]

@[simp] theorem mldbsRes_mem (fmt : Nat) (o : OpX) (t : Nat) (tm : Team) (s : State) : (mldbsRes fmt o t tm s).state.mem = s.mem := by
  unfold mldbsRes
  grind only [sIllegal_mem, setLatch_mem]

@[simp] theorem mscaleRes_mem (o : OpX) (t : Nat) (tm : Team) (s : State) : (mscaleRes o t tm s).state.mem = s.mem := by
  unfold mscaleRes
  grind only [SRes.state, sIllegal_mem, modSeq_mem]

@[simp] theorem mstaccRes_mem (o : OpX) (t : Nat) (tm : Team) (q : Seq) (s : State) : (mstaccRes o t tm q s).state.mem = s.mem := by
  unfold mstaccRes
  grind only [SRes.state, sIllegal_mem, → claimTile_ok_mem, → claimTile_error_mem, modTeam_mem]

@[simp] theorem mldaccRes_mem (o : OpX) (t : Nat) (tm : Team) (q : Seq) (s : State) : (mldaccRes o t tm q s).state.mem = s.mem := by
  unfold mldaccRes
  grind only [SRes.state, sIllegal_mem, → claimTile_ok_mem, → claimTile_error_mem, putTile_mem]

@[simp] theorem mzeroRes_mem (o : OpX) (t : Nat) (tm : Team) (q : Seq) (s : State) : (mzeroRes o t tm q s).state.mem = s.mem := by
  unfold mzeroRes
  grind only [SRes.state, → claimTile_ok_mem, → claimTile_error_mem, putTile_mem]

theorem wf_checkStreamTarget_ok {s : State} (hs : Memory.wf s.mem = true) {tm : Team} {pc : DWord} {r : State}
    (h : checkStreamTarget tm pc s = .ok r) :
    Memory.wf r.mem = true := by
  unfold checkStreamTarget at h
  grind only [wf_fetchLine]

theorem wf_checkStreamTarget_error {s : State} (hs : Memory.wf s.mem = true) {tm : Team} {pc : DWord} {r : SRes}
    (h : checkStreamTarget tm pc s = .error r) :
    Memory.wf r.state.mem = true := by
  unfold checkStreamTarget at h
  grind only [SRes.state, wf_fetchLine]

theorem wf_mloopRes {s : State} (hs : Memory.wf s.mem = true) (o : OpX) (t : Nat) (tm : Team) (q : Seq) :
    Memory.wf (mloopRes o t tm q s).state.mem = true := by
  unfold mloopRes
  grind only [SRes.state, sIllegal_mem, modSeq_mem, wf_checkStreamTarget_ok, wf_checkStreamTarget_error]

@[simp] theorem marrRes_mem (o : OpX) (t : Nat) (tm : Team) (s : State) : (marrRes o t tm s).state.mem = s.mem := by
  unfold marrRes
  grind only [SRes.state, countArrival_mem]

@[simp] theorem grantTo_mem (s : State) (k r : Nat) : (grantTo s k r).mem = s.mem := by
  unfold grantTo
  repeat' split
  all_goals simp

@[simp] theorem arbitrate_mem (s : State) (k : Nat) : (arbitrate s k).mem = s.mem := by
  unfold arbitrate
  grind only [grantTo_mem, setCore_mem]

theorem wf_execMlda {s : State} (hs : Memory.wf s.mem = true) (h : Hdr) (o : OpX) : NextWf (execMlda h o s) := by
  refine wf_runSeq (fun _ _ _ _ hs => ?_) hs
  grind only [SRes.state, modSeq_mem]

theorem wf_execMldb {s : State} (hs : Memory.wf s.mem = true) (h : Hdr) (o : OpX) : NextWf (execMldb h o s) :=
  wf_runSeq (fun _ _ _ _ hs => by rwa [mldbRes_mem]) hs

theorem wf_execMldbs {s : State} (hs : Memory.wf s.mem = true) (h : Hdr) (o : OpX) : NextWf (execMldbs h o s) :=
  wf_runSeq (fun _ _ _ _ hs => by rwa [mldbsRes_mem]) hs

theorem wf_execMscale {s : State} (hs : Memory.wf s.mem = true) (h : Hdr) (o : OpX) : NextWf (execMscale h o s) :=
  wf_runSeq (fun _ _ _ _ hs => by rwa [mscaleRes_mem]) hs

theorem wf_execMma {s : State} (hs : Memory.wf s.mem = true) (h : Hdr) (o : OpX) : NextWf (execMma h o s) :=
  wf_runSeq (fun _ _ _ _ hs => by rwa [mmaRes_mem]) hs

theorem wf_execMmaBat {s : State} (hs : Memory.wf s.mem = true) (h : Hdr) (o : OpX) : NextWf (execMmaBat h o s) :=
  wf_runSeq (fun _ _ _ _ hs => by rwa [mmaRes_mem]) hs

theorem wf_execMzero {s : State} (hs : Memory.wf s.mem = true) (h : Hdr) (o : OpX) : NextWf (execMzero h o s) :=
  wf_runSeq (fun _ _ _ _ hs => by rwa [mzeroRes_mem]) hs

theorem wf_execMstacc {s : State} (hs : Memory.wf s.mem = true) (h : Hdr) (o : OpX) : NextWf (execMstacc h o s) :=
  wf_runSeq (fun _ _ _ _ hs => by rwa [mstaccRes_mem]) hs

theorem wf_execMldacc {s : State} (hs : Memory.wf s.mem = true) (h : Hdr) (o : OpX) : NextWf (execMldacc h o s) :=
  wf_runSeq (fun _ _ _ _ hs => by rwa [mldaccRes_mem]) hs

theorem wf_execMloop {s : State} (hs : Memory.wf s.mem = true) (h : Hdr) (o : OpX) : NextWf (execMloop h o s) :=
  wf_runSeq (fun _ _ _ _ hs => wf_mloopRes hs ..) hs

theorem wf_execMarr {s : State} (hs : Memory.wf s.mem = true) (h : Hdr) (o : OpX) : NextWf (execMarr h o s) :=
  wf_runSeq (fun _ _ _ _ hs => by rwa [marrRes_mem]) hs

theorem wf_execMwait {s : State} (hs : Memory.wf s.mem = true) (h : Hdr) (o : OpX) : NextWf (execMwait h o s) :=
    wf_runSeq (fun _ _ _ _ hs => hs) hs

theorem wf_execMend {s : State} (hs : Memory.wf s.mem = true) (h : Hdr) (o : OpX) : NextWf (execMend h o s) := by
  refine wf_runSeq (fun _ _ _ _ hs => ?_) hs
  grind only [SRes.state, wf_settleTeam, modSeq_mem]

theorem wf_execMatrixArbiterGrant {s : State} (hs : Memory.wf s.mem = true) (core : Nat) : NextWf (execMatrixArbiterGrant core s) :=
  nextWf_next (by rwa [arbitrate_mem])

theorem wf_execAcctagWrite {s : State} (hs : Memory.wf s.mem = true) (core : Nat) (tile : Nat) (value : Nat) :
    NextWf (execAcctagWrite core tile value s) := nextWf_next (wf_ctlWrite hs ..)

theorem wf_execAccWindowWrite {s : State} (hs : Memory.wf s.mem = true) (core : Nat) (tile : Nat) (offset : Nat) (value : Nat) :
    NextWf (execAccWindowWrite core tile offset value s) := nextWf_next (wf_ctlWrite hs ..)

/-! ### Machine/Xform -/

@[simp] theorem sendXf_mem (c : Ctx) (d : BitVec 9) (span : Nat) (f : Nat → Num.FRes) : (sendXf c d span f).state.mem = c.s.mem := by
  unfold sendXf
  split <;> simp

theorem wf_runXf {i : Instr} {h : Hdr} {o : OpR} {dspan aspan : Nat} {more : List Opnd} {f : Ctx → Nat → FRes} {s : State}
    (hs : Memory.wf s.mem = true) :
    NextWf (runXf i h o dspan aspan more f s) := wf_run (fun _ hc => by rwa [sendXf_mem]) hs

@[simp] theorem xfGrant_mem (s : State) (k : Nat) : (xfGrant s k).mem = s.mem := by
  unfold xfGrant
  grind only [setCore_mem]

@[simp] theorem xfReply_mem (s : State) (k : Nat) : (xfReply s k).mem = s.mem := by
  unfold xfReply
  split <;> simp

theorem wf_execXfCvt {s : State} (hs : Memory.wf s.mem = true) (h : Hdr) (o : OpR) : NextWf (execXfCvt h o s) := wf_runXf hs

theorem wf_execXfQuant {s : State} (hs : Memory.wf s.mem = true) (h : Hdr) (o : OpR) : NextWf (execXfQuant h o s) := wf_runXf hs

theorem wf_execXfDequant {s : State} (hs : Memory.wf s.mem = true) (h : Hdr) (o : OpR) : NextWf (execXfDequant h o s) := wf_runXf hs

theorem wf_execXfRkey {s : State} (hs : Memory.wf s.mem = true) (h : Hdr) (o : OpR) : NextWf (execXfRkey h o s) := wf_runXf hs

theorem wf_execXfHash {s : State} (hs : Memory.wf s.mem = true) (h : Hdr) (o : OpR) : NextWf (execXfHash h o s) := wf_runXf hs

theorem wf_execXfPenc {s : State} (hs : Memory.wf s.mem = true) (h : Hdr) (o : OpR) : NextWf (execXfPenc h o s) := wf_runXf hs

theorem wf_execXfPipeGrant {s : State} (hs : Memory.wf s.mem = true) (core : Nat) : NextWf (execXfPipeGrant core s) :=
  nextWf_next (by rwa [xfGrant_mem])

theorem wf_execXfPipeReply {s : State} (hs : Memory.wf s.mem = true) (core : Nat) : NextWf (execXfPipeReply core s) :=
  nextWf_next (by rwa [xfReply_mem])

/-! ### Machine/Neval -/

@[simp] theorem readPart_mem (s : State) (ctx k : Nat) (gs : List Nat) (r : Nat × Nat) : (readPart s ctx k gs r).2.mem = s.mem := by
  unfold readPart
  repeat' split
  all_goals simp

@[simp] theorem readParts_mem (ctx k : Nat) (gs : List Nat) (rs : List (Nat × Nat)) (s : State) :
    (readParts ctx k gs rs s).2.mem = s.mem := by
  induction rs generalizing s with
  | nil => rfl
  | cons r rs ih => exact (ih _).trans (readPart_mem ..)

theorem wf_writeRing {s : State} (hs : Memory.wf s.mem = true) (k n : Nat) : Memory.wf (writeRing s k n).mem = true := by
  induction n generalizing s with
  | zero => exact hs
  | succ n ih => exact ih (wf_hubWrite (by simpa using hs) ..)

@[simp] theorem refillStation_mem (s : State) (k : Nat) : (refillStation s k).mem = s.mem := by
  unfold refillStation
  grind only [setCore_mem]

@[simp] theorem kickSlots_mem (s : State) (k : Nat) (p : NevReq → Bool) : (kickSlots s k p).mem = s.mem := rfl

theorem nevJudge_error_mem {c : Ctx} {ts : List (Acc × Tr)} {s : State} {r : Res} (h : nevJudge c ts s = .error r) :
    r.state.mem = s.mem := by
  unfold nevJudge at h
  grind only [Res.state]

theorem nevAccess_ok_mem {c : Ctx} {s : State} {as : List Acc} {r : List (Acc × Nat × Nat) × State} (h : nevAccess c s as = .ok r) :
    r.2.mem = s.mem := by
  unfold nevAccess at h
  cases hj : nevJudge c (translateAll c nevNeeds as s).1 (translateAll c nevNeeds as s).2 with
  | error e => simp [hj, Except.map] at h
  | ok xs =>
    simp only [hj, Except.map, Except.ok.injEq] at h
    simp [← h]

theorem nevAccess_error_mem {c : Ctx} {s : State} {as : List Acc} {r : Res} (h : nevAccess c s as = .error r) : r.state.mem = s.mem := by
  unfold nevAccess at h
  cases hj : nevJudge c (translateAll c nevNeeds as s).1 (translateAll c nevNeeds as s).2 with
  | error e =>
    simp only [hj, Except.map, Except.error.injEq] at h
    rw [← h, nevJudge_error_mem hj, translateAll_mem]
  | ok xs => simp [hj, Except.map] at h

@[simp] theorem nevLoads_mem (c : Ctx) (as : List (Acc × Nat × Nat)) (s : State) : (nevLoads c as s).2.mem = s.mem := by
  induction as generalizing s with
  | nil => rfl
  | cons a as ih => exact (ih _).trans (loadPlace_mem ..)

@[simp] theorem nevDesc_mem (c : Ctx) (desc : Nat → Nat) (l : Nat) (s : State) : (nevDesc c desc l s).2.mem = s.mem := by
  unfold nevDesc
  grind only [translateAll_mem, nevLoads_mem]

@[simp] theorem nevDescs_mem (c : Ctx) (desc : Nat → Nat) (ls : List Nat) (s : State) : (nevDescs c desc ls s).2.mem = s.mem := by
  induction ls generalizing s with
  | nil => rfl
  | cons l ls ih => exact (ih _).trans (nevDesc_mem ..)

theorem nevFail_mem {c : Ctx} {s : State} {ok : Nat → Bool} {r : Res} (h : nevFail c s ok = some r) : r.state.mem = s.mem := by
  unfold nevFail at h
  grind only [Res.state]

theorem nevEntries_ok_mem {c : Ctx} {s : State} {as : List Acc} {r : List (Acc × Nat × Nat) × State} (h : nevEntries c s as = .ok r) :
    r.2.mem = s.mem := by
  unfold nevEntries at h
  grind only [nevAccess_ok_mem]

theorem nevEntries_error_mem {c : Ctx} {s : State} {as : List Acc} {r : Res} (h : nevEntries c s as = .error r) : r.state.mem = s.mem := by
  unfold nevEntries at h
  grind only [addrFault_mem, nevAccess_error_mem]

theorem nevNets_ok_mem {c : Ctx} {x : Context} (handle : Nat → Nat) {r : (Nat → Nat) × (Nat → List Byte) × State}
    (h : nevNets c x handle = .ok r) :
    r.2.2.mem = c.s.mem := by
  unfold nevNets at h
  grind only [→ nevEntries_ok_mem, nevLoads_mem, nevDescs_mem]

theorem nevNets_error_mem {c : Ctx} {x : Context} (handle : Nat → Nat) {r : Res} (h : nevNets c x handle = .error r) :
    r.state.mem = c.s.mem := by
  unfold nevNets at h
  grind only [→ nevFail_mem, → nevEntries_ok_mem, → nevEntries_error_mem, nevLoads_mem, nevDescs_mem, → nevJudge_error_mem]

@[simp] theorem openNev_mem (c : Ctx) (s : State) (reqs : List (NevReq × Nat)) : (openNev c s reqs).mem = s.mem := rfl

theorem wf_nevEnter {s : State} (hs : Memory.wf s.mem = true) (c : Ctx) (o : OpR) (entry : Nat → Nat) (net : Nat → List Byte) :
    Memory.wf (nevEnter c o entry net s).state.mem = true := by
  unfold nevEnter
  grind only [Res.state, nevFail_mem, refillStation_mem, setCore_mem, wf_writeRing, openNev_mem]

theorem wf_nevalRes {c : Ctx} (hc : Memory.wf c.s.mem = true) (o : OpR) : Memory.wf (nevalRes c o).state.mem = true := by
  unfold nevalRes
  grind only [Res.state, noEffect_mem, → nevNets_ok_mem, → nevNets_error_mem, wf_nevEnter]

@[simp] theorem timerExpiry_mem (s : State) (k slot : Nat) : (timerExpiry s k slot).mem = s.mem := by
  simp [timerExpiry]

@[simp] theorem fireTile_mem (s : State) (k : Nat) : (fireTile s k).mem = s.mem := by
  unfold fireTile
  grind only [refillStation_mem, setCore_mem]

@[simp] theorem modTile_mem (s : State) (k tile : Nat) (f : NevTile → NevTile) : (modTile s k tile f).mem = s.mem := rfl

theorem wf_parkTile {s : State} (hs : Memory.wf s.mem = true) (k : Nat) (t : NevTile) (pages : List (Nat × Nat × Nat)) :
    Memory.wf (parkTile s k t pages).mem = true := by
  unfold parkTile
  split
  · exact wf_terminate hs ..
  · exact wf_foldl (by rwa [modTile_mem]) fun _ _ h => by rwa [raise_mem]

theorem wf_doLayer {s : State} (hs : Memory.wf s.mem = true) (k : Nat) (t : NevTile) : Memory.wf (doLayer s k t).mem = true := by
  unfold doLayer
  grind only [modTile_mem, readParts_mem, wf_terminate, wf_parkTile]

@[simp] theorem retryTile_mem (s : State) (k : Nat) (t : NevTile) : (retryTile s k t).mem = s.mem := by
  unfold retryTile
  grind only [modTile_mem]

@[simp] theorem landRow_mem (t : NevTile) (s : State) (e : NevReq × List Nat) : (landRow t s e).mem = s.mem := rfl

@[simp] theorem landTile_mem (s : State) (k : Nat) (t : NevTile) : (landTile s k t).mem = s.mem := by
  have rows : ((t.rows.zip t.acts).foldl (landRow t) s).mem = s.mem := foldl_mem fun _ _ => landRow_mem ..
  have closed (s : State) : (t.rows.foldl (fun s r => modGroup s r.group landClosed) s).mem = s.mem := foldl_mem fun _ _ => modGroup_mem ..
  simp only [landTile, refillStation_mem, setCore_mem, closed, rows]

theorem wf_execNeval {s : State} (hs : Memory.wf s.mem = true) (h : Hdr) (o : OpR) : NextWf (execNeval h o s) :=
  wf_run (fun _ hc => wf_nevalRes hc ..) hs

theorem wf_execNevstatCnt {s : State} (hs : Memory.wf s.mem = true) (h : Hdr) (o : OpR) : NextWf (execNevstatCnt h o s) :=
  wf_run (fun _ hc => hc) hs

theorem wf_execNevstatKick {s : State} (hs : Memory.wf s.mem = true) (h : Hdr) (o : OpR) : NextWf (execNevstatKick h o s) := by
  unfold execNevstatKick
  refine wf_run (fun c hc => ?_) hs
  grind only [Res.state, kickSlots_mem]

theorem wf_execNevalTimerExpiry {s : State} (hs : Memory.wf s.mem = true) (core : Nat) (slot : Nat) :
    NextWf (execNevalTimerExpiry core slot s) := nextWf_next (by rwa [timerExpiry_mem])

theorem wf_execNevalTileFire {s : State} (hs : Memory.wf s.mem = true) (core : Nat) : NextWf (execNevalTileFire core s) :=
  nextWf_next (by rwa [fireTile_mem])

theorem wf_execNevalLayer {s : State} (hs : Memory.wf s.mem = true) (core : Nat) (tile : Nat) : NextWf (execNevalLayer core tile s) := by
  refine nextWf_next ?_
  grind only [retryTile_mem, wf_doLayer]

theorem wf_execNevalLanding {s : State} (hs : Memory.wf s.mem = true) (core : Nat) (tile : Nat) :
    NextWf (execNevalLanding core tile s) := by
  refine nextWf_next ?_
  grind only [landTile_mem]

theorem wf_execNvspillbWrite {s : State} (hs : Memory.wf s.mem = true) (core : Nat) (value : Nat) :
    NextWf (execNvspillbWrite core value s) := nextWf_next (wf_ctlWrite hs ..)

end Sys2Proof.Machine.Ops
end

section
/-! Memory stays in canonical form (continued). Sample sets, the binner, flushes, fragment programs and `exit`. -/

namespace Sys2Proof.Machine.Ops

open Sys2Proof.Bits Sys2Proof.Num

/-! ### Machine/Place -/

@[simp] theorem pickOne_mem (s : State) (xs : List Nat) : (pickOne s xs).2.mem = s.mem := rfl

@[simp] theorem pickMany_mem (n : Nat) (xs : List Nat) (s : State) : (pickMany n xs s).2.mem = s.mem := by
  induction n generalizing xs s with
  | zero => rfl
  | succ n ih => exact (ih ..).trans (pickOne_mem ..)

@[simp] theorem freshKey_mem (s : State) (ctx : Nat) : (freshKey s ctx).2.mem = s.mem := rfl

@[simp] theorem startGroup_mem (t k base : Nat) (h : Header) (st : Start) (s : State) (x : GroupSpec) :
    (startGroup t k base h st s x).mem = s.mem := rfl

@[simp] theorem startTeam_mem (s : State) (k base : Nat) (tm : Team) (st : Start) : (startTeam s k base tm st).2.mem = s.mem :=
  (foldl_mem fun _ _ => startGroup_mem ..).trans (by simp)

/-! ### Machine/Samples -/

theorem setRange_error_mem {c : Ctx} {s : State} {rd wr lanes va n : Nat} {r : Res} (h : setRange c s rd wr lanes va n = .error r) :
    r.state.mem = s.mem := by
  unfold setRange at h
  extract_lets access ts first fault at h
  split at h
  case h_4 =>
    repeat' split at h
    all_goals cases h <;> rfl
  all_goals cases h; rfl

theorem wf_setWrite {s : State} (hs : Memory.wf s.mem = true) (c : Ctx) (pa : Nat) (bs : List Byte) :
    Memory.wf (setWrite c s pa bs).mem = true := by
  unfold setWrite
  split <;> simp [wf_writeHome, hs]

theorem wf_setWrites (c : Ctx) (ws : List (Nat × List Byte)) {s : State} (hs : Memory.wf s.mem = true) :
    Memory.wf (setWrites c ws s).mem = true := wf_foldl hs fun _ _ h => wf_setWrite h ..

theorem wf_fillOpen (c : Ctx) (ps : List (Nat × Nat)) {s : State} (hs : Memory.wf s.mem = true) : Memory.wf (fillOpen c ps s).mem = true :=
  wf_foldl hs fun _ _ h => wf_setWrite (by rwa [freeBytes_mem]) ..

@[simp] theorem putSet_mem (s : State) (c : Ctx) (handle : Nat) (x : SetSt) : (putSet s c handle x).mem = s.mem := rfl

theorem wf_withRecord {c : Ctx} (hc : Memory.wf c.s.mem = true) (o : OpG) (lanes : Nat) (writes : Bool)
    {body : Nat → Nat → List Byte → State → Res}
    (hb : ∀ h pa rec s, Memory.wf s.mem = true → Memory.wf (body h pa rec s).state.mem = true) :
    Memory.wf (withRecord c o lanes writes body).state.mem = true := by
  unfold withRecord
  grind only [Res.state, noEffect_mem, → issueTr_ok_mem, → issueTr_error_mem]

theorem planBuild_error_mem {c : Ctx} {s : State} {rec : List Byte} {r : Res} (h : planBuild c s rec = .error r) : r.state.mem = s.mem := by
  unfold planBuild at h
  grind only [setRange_error_mem]

theorem wf_applyBuild {s : State} (hs : Memory.wf s.mem = true) (c : Ctx) (handle pa : Nat) (b : Built) :
    Memory.wf (applyBuild c handle pa b s).mem = true := by
  unfold applyBuild
  grind only [wf_setWrite, wf_fillOpen, wf_setWrites, putSet_mem]

theorem wf_newGrid {s : State} (hs : Memory.wf s.mem = true) (c : Ctx) (o : OpG) (h pa : Nat) (rec : List Byte) :
    Memory.wf (newGrid c o h pa rec s).state.mem = true := by
  unfold newGrid
  grind only [Res.state, illegal_mem, setRange_error_mem, wf_setWrites, wf_setWrite, wf_fillOpen, putSet_mem]

theorem wf_execSsnew {s : State} (hs : Memory.wf s.mem = true) (h : Hdr) (o : OpG) : NextWf (execSsnew h o s) := by
  unfold execSsnew
  refine wf_run (fun c hc => ?_) hs
  grind only [Res.state, wf_withRecord, illegal_mem, wf_newGrid, wf_setWrite, putSet_mem]

@[simp] theorem planAdd_mem (c : Ctx) (nd : Needs) (rec : List Byte) (ls : List Nat) (i : Nat) (s : State) :
    (planAdd c nd rec ls i s).2.mem = s.mem := by
  induction ls generalizing i s with
  | nil => rfl
  | cons l ls ih => unfold planAdd; grind only [translateLane_mem]

theorem wf_addSamples {s : State} (hs : Memory.wf s.mem = true) (c : Ctx) (o : OpG) (h pa : Nat) (rec : List Byte)
    (plan : List (Nat × Option (Acc × Tr × Nat))) : Memory.wf (addSamples c o h pa rec plan s).state.mem = true := by
  unfold addSamples
  dsimp only [Res.state_done]
  have h1 := wf_setWrites c (hs := hs)
  split
  · rw [orGstat_mem]
    split
    · exact h1 _
    · exact wf_setWrite (h1 _) ..
  · split
    · exact h1 _
    · exact wf_setWrite (h1 _) ..

theorem wf_addLanes {s : State} (hs : Memory.wf s.mem = true) (c : Ctx) (o : OpG) (h pa : Nat) (rec : List Byte) :
    Memory.wf (addLanes c o h pa rec s).state.mem = true := by
  unfold addLanes
  grind only [Res.state, planAdd_mem, judge_mem, wf_addSamples]

theorem wf_execSsadd {s : State} (hs : Memory.wf s.mem = true) (h : Hdr) (o : OpG) : NextWf (execSsadd h o s) := by
  unfold execSsadd
  refine wf_run (fun c hc => ?_) hs
  grind only [wf_withRecord, wf_addLanes]

theorem wf_execSsbuild {s : State} (hs : Memory.wf s.mem = true) (h : Hdr) (o : OpG) : NextWf (execSsbuild h o s) := by
  unfold execSsbuild
  refine wf_run (fun c hc => ?_) hs
  grind only [Res.state, wf_withRecord, illegal_mem, → planBuild_error_mem, wf_applyBuild]

theorem bindChecks_error_mem {c : Ctx} {s : State} {rec : List Byte} {a : BindArgs} {r : Res} (h : bindChecks c s rec a = .error r) :
    r.state.mem = s.mem := by
  unfold bindChecks at h
  grind only [illegal_mem, setRange_error_mem]

theorem planBind_error_mem {c : Ctx} {s : State} {rec : List Byte} {a : BindArgs} (heads : Nat) {r : Res}
    (h : planBind c s rec a heads = .error r) :
    r.state.mem = s.mem := by
  unfold planBind at h
  grind only [setRange_error_mem]

theorem wf_applyBind {s : State} (hs : Memory.wf s.mem = true) (c : Ctx) (o : OpG) (h pa : Nat) (rec : List Byte) (a : BindArgs)
    (hdr : Header) (ws : List (Nat × List Byte)) :
    Memory.wf (applyBind c o h pa rec a hdr ws s).state.mem = true := by
  unfold applyBind
  split <;> simp [wf_setWrite, wf_setWrites, hs]

theorem wf_bindSet {s : State} (hs : Memory.wf s.mem = true) (rebuild : Bool) (c : Ctx) (o : OpG) (h pa : Nat) (rec : List Byte) :
    Memory.wf (bindSet rebuild c o h pa rec s).state.mem = true := by
  unfold bindSet
  grind only [Res.state, bindChecks_error_mem, planBuild_error_mem, wf_applyBuild, planBind_error_mem, wf_applyBind]

theorem wf_execSsbind {s : State} (hs : Memory.wf s.mem = true) (h : Hdr) (o : OpG) : NextWf (execSsbind h o s) := by
  unfold execSsbind
  refine wf_run (fun c hc => ?_) hs
  grind only [wf_withRecord, wf_bindSet]

theorem wf_execSsrebind {s : State} (hs : Memory.wf s.mem = true) (h : Hdr) (o : OpG) : NextWf (execSsrebind h o s) := by
  unfold execSsrebind
  refine wf_run (fun c hc => ?_) hs
  grind only [wf_withRecord, wf_bindSet]

theorem wf_freeSet {s : State} (hs : Memory.wf s.mem = true) (c : Ctx) (h pa : Nat) : Memory.wf (freeSet c h pa s).mem = true := by
  simp [freeSet, wf_setWrite, hs]

theorem wf_freeLanes {s : State} (hs : Memory.wf s.mem = true) (c : Ctx) (h pa : Nat) (rec : List Byte) :
    Memory.wf (freeLanes c h pa rec s).state.mem = true := by
  unfold freeLanes
  grind only [Res.state, illegal_mem, putSet_mem, setStage_mem, wf_freeSet]

theorem wf_execSsfree {s : State} (hs : Memory.wf s.mem = true) (h : Hdr) (o : OpG) : NextWf (execSsfree h o s) := by
  unfold execSsfree
  refine wf_run (fun c hc => ?_) hs
  grind only [noEffect_mem, wf_withRecord, wf_freeLanes]

theorem wf_execSsget {s : State} (hs : Memory.wf s.mem = true) (h : Hdr) (o : OpG) : NextWf (execSsget h o s) := by
  unfold execSsget
  refine wf_run (fun c hc => ?_) hs
  grind only [Res.state, wf_withRecord]

/-! ### Machine/Raster -/

theorem wf_gfxWrite {s : State} (hs : Memory.wf s.mem = true) (cl : Nat) (w : Place × List Byte) :
    Memory.wf (gfxWrite cl s w).2.mem = true := by
  unfold gfxWrite
  split <;> simp [wf_engineWrite, hs]

theorem wf_gfxWrites {s : State} (hs : Memory.wf s.mem = true) (cl : Nat) (ws : List (Place × List Byte)) :
    Memory.wf (gfxWrites cl ws s).2.mem = true := by
  unfold gfxWrites
  exact List.foldlRecOn ws _ (motive := fun (r : Nat × State) => Memory.wf r.2.mem = true) hs fun _ h _ _ => wf_gfxWrite h ..

theorem wf_haltSet {s : State} (hs : Memory.wf s.mem = true) (d key : Nat) (x : SetSt) (w : Halt) :
    Memory.wf (haltSet s d key x w).mem = true := by
  unfold haltSet
  grind only [wf_terminate, raise_mem, setSet_mem]

theorem wf_addDisc {s : State} (hs : Memory.wf s.mem = true) (d n : Nat) (rec : Place × List Byte) :
    Memory.wf (addDisc s d n rec).mem = true := by
  unfold addDisc
  split <;> simp [wf_gfxWrite, hs]

theorem emitTrap_mem {c : Ctx} {plan : List (Nat × Emitted)} {s : State} {r : Res} (h : emitTrap c plan s = some r) :
    r.state.mem = s.mem := by
  unfold emitTrap at h
  grind only [Res.state, orGstat_mem]

@[simp] theorem emitVertices_mem (c : Ctx) (o : OpG) (h : Nat) (rec : List Byte) (s : State) :
    (emitVertices c o h rec s).state.mem = s.mem := by
  unfold emitVertices
  dsimp only
  split
  · rfl
  · split
    · next hr => exact emitTrap_mem hr
    · rw [Res.state_done, orGstat_mem, foldl_mem]
      intro s e
      split <;> simp

@[simp] theorem sendWork_mem (s : State) (d : Nat) (w : BinWork) : (sendWork s d w).mem = s.mem := rfl

@[simp] theorem emitPrims_mem (c : Ctx) (o : OpG) (splat : Bool) (bad : Nat → Bool) (verts : Nat → List (List Word)) (h : Nat)
    (rec : List Byte) (s : State) : (emitPrims c o splat bad verts h rec s).state.mem = s.mem := by
  unfold emitPrims
  dsimp only
  split
  · rfl
  · split
    · next hr => exact emitTrap_mem hr
    · rw [Res.state_done, orGstat_mem, foldl_mem]
      intro s e
      split <;> simp

theorem wf_withRun {c : Ctx} (hc : Memory.wf c.s.mem = true) (o : OpG) (n : Nat)
    {body : Nat → Nat → List Byte → State → Res}
    (hb : ∀ h pa rec s, Memory.wf s.mem = true → Memory.wf (body h pa rec s).state.mem = true) :
    Memory.wf (withRun c o n body).state.mem = true :=
  wf_withRecord hc _ _ _ fun h pa rec s hs => by
    split
    · exact hs
    · exact hb h pa rec s hs

theorem wf_execEmitv {s : State} (hs : Memory.wf s.mem = true) (hd : Hdr) (o : OpG) : NextWf (execEmitv hd o s) :=
  wf_run (fun _ hc => wf_withRun hc _ _ fun _ _ _ _ hs => by rwa [emitVertices_mem]) hs

theorem wf_execEmit {s : State} (hs : Memory.wf s.mem = true) (hd : Hdr) (o : OpG) : NextWf (execEmit hd o s) :=
  wf_run (fun _ hc => wf_withRun hc _ _ fun _ _ _ _ hs => by rwa [emitPrims_mem]) hs

theorem wf_execEmitsp {s : State} (hs : Memory.wf s.mem = true) (hd : Hdr) (o : OpG) : NextWf (execEmitsp hd o s) :=
  wf_run (fun _ hc => wf_withRun hc _ _ fun _ _ _ _ hs => by rwa [emitPrims_mem]) hs

theorem wf_execRflush {s : State} (hs : Memory.wf s.mem = true) (h : Hdr) (o : OpG) : NextWf (execRflush h o s) := by
  unfold execRflush
  refine wf_run (fun c hc => ?_) hs
  grind only [Res.state, wf_withRecord, illegal_mem, putSet_mem, sendWork_mem]

@[simp] theorem popWork_mem (s : State) (d : Nat) : (popWork s d).mem = s.mem := rfl

theorem wf_overflow {s : State} (hs : Memory.wf s.mem = true) (d : Nat) (w : BinWork) (rec : Place × List Byte) (j k : Nat) (next : Place) :
    Memory.wf (overflow s d w rec j k next).mem = true := by
  unfold overflow
  split <;> simp [wf_addDisc, wf_gfxWrite, hs]

theorem wf_insertPrim {s : State} (hs : Memory.wf s.mem = true) (d : Nat) (w : BinWork) (x : SetSt) (p : Prim) :
    Memory.wf (insertPrim s d w x p).mem = true := by
  unfold insertPrim
  grind only [wf_haltSet, setSet_mem, popWork_mem, wf_addDisc, wf_overflow, wf_gfxWrites]

/-! ### Machine/Flush -/

@[simp] theorem cutQuads_mem (fuel : Nat) (qs : List (Nat × Nat)) (s : State) : (cutQuads fuel qs s).2.mem = s.mem := by
  induction fuel, qs, s using cutQuads.induct <;> unfold cutQuads <;> grind

@[simp] theorem leafWork_mem (d pctl : Nat) (shaded : Bool) (l : Leaf) (es : List (Nat × Tri)) (s : State) :
    (leafWork d pctl shaded l es s).2.mem = s.mem := by
  induction es generalizing s with
  | nil => rfl
  | cons e es ih => unfold leafWork; grind only [cutQuads_mem]

@[simp] theorem leavesWork_mem (d pctl : Nat) (shaded : Bool) (cells : List (Nat × List Drawn)) (ls : List Leaf) (s : State) :
    (leavesWork d pctl shaded cells ls s).2.mem = s.mem := by
  induction ls generalizing s with
  | nil => rfl
  | cons l ls ih => unfold leavesWork; grind only [leafWork_mem]

theorem wf_startFlush {s : State} (hs : Memory.wf s.mem = true) (d : Nat) (w : BinWork) (x : SetSt) :
    Memory.wf (startFlush s d w x).mem = true := by
  unfold startFlush
  grind only [wf_haltSet, leavesWork_mem, setSet_mem]

theorem wf_serveBinner {s : State} (hs : Memory.wf s.mem = true) (d : Nat) : Memory.wf (serveBinner s d).mem = true := by
  unfold serveBinner
  grind only [popWork_mem, wf_insertPrim, wf_startFlush]

theorem wf_blendSample {s : State} (hs : Memory.wf s.mem = true) (key sample : Nat) : Memory.wf (blendSample s key sample).mem = true := by
  unfold blendSample
  repeat' split
  all_goals grind only [wf_haltSet, setSet_mem, wf_gfxWrites]

theorem wf_completeFlush {s : State} (hs : Memory.wf s.mem = true) (key : Nat) : Memory.wf (completeFlush s key).mem = true := by
  unfold completeFlush
  repeat' split
  all_goals grind only [wf_haltSet, popWork_mem, setSet_mem, wf_addDisc, wf_gfxWrites]

theorem wf_freeWaiting {s : State} (hs : Memory.wf s.mem = true) (key : Nat) (x : SetSt) (rec : Place × List Byte) (f : Nat × Nat)
    (more : List (Nat × Nat)) : Memory.wf (freeWaiting s key x rec f more).mem = true := by
  unfold freeWaiting
  refine wf_foldl ?_ fun _ _ h => by rwa [wakeStage_mem]
  rw [wakeStage_mem]
  dsimp only
  split
  · rw [returnCt_mem]
    exact wf_engineWrite hs ..
  · exact hs

theorem wf_endPass {s : State} (hs : Memory.wf s.mem = true) (key : Nat) : Memory.wf (endPass s key).mem = true := by
  unfold endPass
  grind only [wf_haltSet, wf_gfxWrite, setSet_mem, wf_freeWaiting]

theorem wf_execBinnerInsert {s : State} (hs : Memory.wf s.mem = true) (die : Nat) : NextWf (execBinnerInsert die s) :=
  nextWf_next (wf_serveBinner hs ..)

theorem wf_execBlendApply {s : State} (hs : Memory.wf s.mem = true) (set : Nat) (sample : Nat) : NextWf (execBlendApply set sample s) :=
  nextWf_next (wf_blendSample hs ..)

theorem wf_execFlushComplete {s : State} (hs : Memory.wf s.mem = true) (set : Nat) : NextWf (execFlushComplete set s) :=
  nextWf_next (wf_completeFlush hs ..)

theorem wf_execPassEnd {s : State} (hs : Memory.wf s.mem = true) (set : Nat) : NextWf (execPassEnd set s) := nextWf_next (wf_endPass hs ..)

/-! ### Machine/Fragment -/

theorem wf_launchFragment {s : State} (hs : Memory.wf s.mem = true) (key k base : Nat) :
    Memory.wf (launchFragment s key k base).mem = true := by
  unfold launchFragment
  repeat' split
  all_goals grind only [wf_haltSet, startTeam_mem, setSet_mem]

@[simp] theorem recordLanes_mem (c : Ctx) (f : Nat → FragLane → FragLane) : (recordLanes c f).mem = c.s.mem := by
  unfold recordLanes
  exact foldl_mem fun _ _ => rfl

@[simp] theorem takeResults_mem (g : Group) (lanes : Nat) (s : State) : (takeResults g lanes s).mem = s.mem := by
  unfold takeResults
  repeat' split
  all_goals simp

theorem wf_execFragmentLaunch {s : State} (hs : Memory.wf s.mem = true) (set : Nat) (core : Nat) (base : Nat) :
    NextWf (execFragmentLaunch set core base s) := nextWf_next (wf_launchFragment hs ..)

theorem wf_execFin {s : State} (hs : Memory.wf s.mem = true) (h : Hdr) (o : OpG) : NextWf (execFin h o s) := by
  unfold execFin
  exact wf_run (fun _ hc => hc) hs

theorem wf_execFout {s : State} (hs : Memory.wf s.mem = true) (h : Hdr) (o : OpG) : NextWf (execFout h o s) := by
  unfold execFout
  refine wf_run (fun c hc => ?_) hs
  grind only [Res.state, illegal_mem, recordLanes_mem]

theorem wf_execFdep {s : State} (hs : Memory.wf s.mem = true) (h : Hdr) (o : OpG) : NextWf (execFdep h o s) := by
  unfold execFdep
  refine wf_run (fun c hc => ?_) hs
  grind only [Res.state, recordLanes_mem]

theorem wf_execDisc {s : State} (hs : Memory.wf s.mem = true) (hd : Hdr) (o : OpG) : NextWf (execDisc hd o s) :=
  wf_run (fun _ hc => wf_foldl hc fun _ _ hs => by rwa [modGroup_mem]) hs

/-! ### Machine/Exit -/

theorem wf_endGroup {s : State} (hs : Memory.wf s.mem = true) (key team : Nat) : Memory.wf (endGroup s key team).mem = true := by
  simp [endGroup, wf_settleTeam, hs]

theorem wf_exitLanes {c : Ctx} (hc : Memory.wf c.s.mem = true) : Memory.wf (exitLanes c).state.mem = true := by
  unfold exitLanes
  grind only [Res.state, noEffect_mem, takeResults_mem, modGroup_mem, wf_endGroup, wf_drainDets]

theorem wf_execExit {s : State} (hs : Memory.wf s.mem = true) (h : Hdr) (o : OpS) : NextWf (execExit h o s) :=
  wf_run (fun _ hc => wf_exitLanes hc ..) hs

end Sys2Proof.Machine.Ops
end

section
/-! Memory stays in canonical form (continued). Queues, launches and the Almanac. -/

namespace Sys2Proof.Machine.Ops

open Sys2Proof.Bits Sys2Proof.Num

/-! ### Machine/Watch -/

theorem wf_haltQueue {s : State} (hs : Memory.wf s.mem = true) (q : Nat) (x : Queue) (w : Halt) :
    Memory.wf (haltQueue s q x w).mem = true := by
  unfold haltQueue
  grind only [wf_terminate, raise_mem, setQueue_mem]

@[simp] theorem dispatched_mem (s : State) (q ct : Nat) : (dispatched s q ct).mem = s.mem := rfl

theorem wf_consumeSlot {s : State} (hs : Memory.wf s.mem = true) (q : Nat) (x : Queue) (i : Nat) :
    Memory.wf (consumeSlot s q x i).mem = true := by
  unfold consumeSlot
  grind only [wf_haltQueue, setQueue_mem, wf_hubWrite]

theorem wf_dispatchCopy {s : State} (hs : Memory.wf s.mem = true) (q : Nat) (x : Queue) (bs : List Byte) :
    Memory.wf (dispatchCopy s q x bs).mem = true := by
  unfold dispatchCopy
  grind only [dispatched_mem, wf_haltQueue, wf_writeSignal, wf_refill, commitCopy_mem, wf_acceptCopy]

theorem wf_dispatchLaunch {s : State} (hs : Memory.wf s.mem = true) (q : Nat) (x : Queue) (bs : List Byte) :
    Memory.wf (dispatchLaunch s q x bs).mem = true := by
  unfold dispatchLaunch
  grind only [dispatched_mem, setQueue_mem, setLaunch_mem, wf_completeLaunch, wf_haltQueue]

theorem wf_dispatchSlot {s : State} (hs : Memory.wf s.mem = true) (q : Nat) (x : Queue) (bs : List Byte) :
    Memory.wf (dispatchSlot s q x bs).mem = true := by
  unfold dispatchSlot
  split <;> simp [wf_dispatchLaunch, wf_dispatchCopy, hs]

theorem wf_takeSlot {s : State} (hs : Memory.wf s.mem = true) (q : Nat) (x : Queue) (i : Nat) :
    Memory.wf (takeSlot s q x i).mem = true := by
  unfold takeSlot
  grind only [wf_haltQueue, wf_dispatchSlot, setQueue_mem]

theorem wf_freeSlot {s : State} (hs : Memory.wf s.mem = true) (q : Nat) (x : Queue) (i ct : Nat) :
    Memory.wf (freeSlot s q x i ct).mem = true := by
  unfold freeSlot
  grind only [wf_haltQueue, wf_hubWrite, removeQueue_mem, setQueue_mem]

theorem wf_watchQueue {s : State} (hs : Memory.wf s.mem = true) (q : Nat) : Memory.wf (watchQueue s q).mem = true := by
  unfold watchQueue
  grind only [removeQueue_mem, wf_haltQueue, wf_freeSlot, wf_consumeSlot, wf_dispatchSlot, wf_takeSlot]

theorem wf_execQueueSlotDispatch {s : State} (hs : Memory.wf s.mem = true) (queue : Nat) : NextWf (execQueueSlotDispatch queue s) :=
  nextWf_next (wf_watchQueue hs ..)

/-! ### Machine/Launches -/

theorem freeMembers_mem {s : State} {l : Launch} {first core base : Nat} {r : List Member × State}
    (h : freeMembers s l first core base = some r) :
    r.2.mem = s.mem := by
  unfold freeMembers at h
  grind only [pickMany_mem]

theorem members_mem {s : State} {l : Launch} {t core base : Nat} {r : List Member × State} (h : members s l t core base = some r) :
    r.2.mem = s.mem := by
  unfold members at h
  split at h
  · obtain ⟨ms, -, rfl⟩ := Option.map_eq_some_iff.1 h
    rfl
  · grind only [→ freeMembers_mem]

@[simp] theorem takeTo_mem (s : State) (id : Nat) (l : Launch) (t core base : Nat) : (takeTo s id l t core base).mem = s.mem := by
  unfold takeTo
  split <;> simp

theorem wf_recordingFails {s : State} (hs : Memory.wf s.mem = true) (id : Nat) (l : Launch) (w : Halt) :
    Memory.wf (recordingFails s id l w).mem = true := by
  unfold recordingFails
  split <;> simp [wf_terminate, hs]

theorem wf_writeEntry {s : State} (hs : Memory.wf s.mem = true) (id : Nat) (e : Nat × Member) :
    Memory.wf (writeEntry id s e).mem = true := by
  simp [writeEntry, wf_hubWrite, hs]

@[simp] theorem startMember_mem (id set : Nat) (l : Launch) (s : State) (m : Member) : (startMember id set l s m).mem = s.mem := by
  simp [startMember]

theorem wf_launchTeams {s : State} (hs : Memory.wf s.mem = true) (id t core base : Nat) :
    Memory.wf (launchTeams s id t core base).mem = true := by
  unfold launchTeams
  split
  · exact hs
  · split
    · exact hs
    · split
      · rwa [takeTo_mem]
      · next hm =>
        split
        · rwa [takeTo_mem]
        · split
          · exact wf_recordingFails hs ..
          · refine wf_foldl (wf_foldl ?_ fun _ _ h => wf_writeEntry h ..) fun _ _ h => by rwa [startMember_mem]
            rwa [setLaunch_mem, members_mem hm]

theorem wf_sealCalendar {s : State} (hs : Memory.wf s.mem = true) (id : Nat) (l : Launch) : Memory.wf (sealCalendar s id l).mem = true := by
  unfold sealCalendar
  split <;> simp [wf_recordingFails, wf_hubWrite, hs]

theorem wf_finishLaunch {s : State} (hs : Memory.wf s.mem = true) (id : Nat) : Memory.wf (finishLaunch s id).mem = true := by
  unfold finishLaunch
  grind only [lastRecord_mem, wf_failLaunch, wf_sealCalendar, wf_terminate, wf_completeLaunch]

@[simp] theorem promoteGroup_mem (s : State) (key : Nat) : (promoteGroup s key).mem = s.mem := by
  unfold promoteGroup
  split <;> simp

theorem wf_execTeamStart {s : State} (hs : Memory.wf s.mem = true) (launch : Nat) (team : Nat) (core : Nat) (base : Nat) :
    NextWf (execTeamStart launch team core base s) := nextWf_next (wf_launchTeams hs ..)

theorem wf_execLaunchCompletionRecord {s : State} (hs : Memory.wf s.mem = true) (launch : Nat) :
    NextWf (execLaunchCompletionRecord launch s) := nextWf_next (wf_finishLaunch hs ..)

theorem wf_execIssueCycle {s : State} (hs : Memory.wf s.mem = true) (core : Nat) (quarter : Nat) :
    NextWf (execIssueCycle core quarter s) := nextWf_next hs

theorem wf_execIssuePriorityPromotion {s : State} (hs : Memory.wf s.mem = true) (group : Nat) :
    NextWf (execIssuePriorityPromotion group s) := nextWf_next (by rwa [promoteGroup_mem])

/-! ### Machine/Almanac -/

theorem wf_recordLane {s : State} (hs : Memory.wf s.mem = true) (id : Nat) : Memory.wf (recordLane s id).mem = true := by
  unfold recordLane
  grind only [wf_formVersion]

theorem wf_updateHorizon {s : State} (hs : Memory.wf s.mem = true) (copies : List Nat) : Memory.wf (updateHorizon s copies).mem = true :=
  wf_formWaiting (wf_foldl (by rwa [setCtl_mem]) fun _ _ h => by rwa [setDie_mem])

@[simp] theorem tooWide_mem (c : Ctx) (st : Nat → Stage) (s : State) : (tooWide c st s).state.mem = s.mem := by
  simp [tooWide]

theorem widthWait_mem {c : Ctx} {st : Nat → Stage} {s : State} {r : Res} (h : widthWait c st s = some r) : r.state.mem = s.mem := by
  unfold widthWait at h
  grind only [Res.state, tooWide_mem, setStage_mem]

@[simp] theorem sendLanes_mem (c : Ctx) (o : OpM) (ps : List (Acc × Place)) (s : State) : (sendLanes c o ps s).mem = s.mem := rfl

@[simp] theorem commitDone_mem (c : Ctx) (o : OpM) (stamp discarded : Nat) (s : State) :
    (commitDone c o stamp discarded s).state.mem = s.mem := rfl

@[simp] theorem stcmStamp_mem (c : Ctx) (o : OpM) (ps : List (Acc × Place)) (s : State) : (stcmStamp c o ps s).state.mem = s.mem := by
  unfold stcmStamp
  grind only [Res.state, commitDone_mem, setStage_mem, sendLanes_mem]

theorem stcmPlaces_mem (c : Ctx) (o : OpM) {next : List (Acc × Place) → State → Res} (hn : ∀ ps s, (next ps s).state.mem = s.mem) :
    (stcmPlaces c o next).state.mem = c.s.mem := by
  unfold stcmPlaces
  grind only [Res.state, → access_ok_mem, → access_error_mem]

@[simp] theorem stcmWidth_mem (c : Ctx) (o : OpM) (ps : List (Acc × Place)) (s : State) : (stcmWidth c o ps s).state.mem = s.mem := by
  unfold stcmWidth
  grind only [widthWait_mem, stcmStamp_mem]

@[simp] theorem stcmSend_mem (c : Ctx) (o : OpM) : (stcmSend c o).state.mem = c.s.mem :=
  stcmPlaces_mem _ _ fun _ _ => stcmWidth_mem ..

@[simp] theorem asofLoad_mem (c : Ctx) (o : OpR) (t : Nat) (s : State) : (asofLoad c o t s).state.mem = s.mem := by
  unfold asofLoad
  grind only [Res.state, → resolve_ok_mem, → resolve_error_mem]

theorem wf_execAlm {s : State} (hs : Memory.wf s.mem = true) (h : Hdr) (o : OpR) : NextWf (execAlm h o s) := by
  unfold execAlm
  refine wf_run (fun c hc => ?_) hs
  grind only [Res.state, modGroup_mem]

theorem wf_execAlmhz {s : State} (hs : Memory.wf s.mem = true) (h : Hdr) (o : OpR) : NextWf (execAlmhz h o s) := by
  unfold execAlmhz
  refine wf_run (fun c hc => ?_) hs
  grind only [Res.state, modGroup_mem]

theorem wf_execStcm {s : State} (hs : Memory.wf s.mem = true) (h : Hdr) (o : OpM) : NextWf (execStcm h o s) := by
  unfold execStcm
  refine wf_run (fun c hc => ?_) hs
  grind only [Res.state, commitDone_mem, stcmSend_mem, stcmWidth_mem, noEffect_mem, beginRelease_mem, setStage_mem]

theorem wf_execLdasof {s : State} (hs : Memory.wf s.mem = true) (h : Hdr) (o : OpR) : NextWf (execLdasof h o s) := by
  unfold execLdasof
  refine wf_run (fun c hc => ?_) hs
  extract_lets d t
  split
  · exact hc
  · split
    · exact hc
    · split
      · split
        · exact hc
        · rwa [asofLoad_mem]
      · split
        · next r hr => rwa [widthWait_mem hr]
        · split
          · rwa [Res.state_wait, setStage_mem]
          · rwa [asofLoad_mem, setStage_mem]

theorem wf_execAlmwait {s : State} (hs : Memory.wf s.mem = true) (h : Hdr) (o : OpS) : NextWf (execAlmwait h o s) := by
  unfold execAlmwait
  refine wf_run (fun c hc => ?_) hs
  grind only [Res.state, noEffect_mem]

theorem wf_execStcmRecord {s : State} (hs : Memory.wf s.mem = true) (lane : Nat) : NextWf (execStcmRecord lane s) :=
    nextWf_next (wf_recordLane hs ..)

theorem wf_execHorizonUpdate {s : State} (hs : Memory.wf s.mem = true) (copies : List Nat) : NextWf (execHorizonUpdate copies s) :=
  nextWf_next (wf_updateHorizon hs ..)

theorem wf_execAlmanacAdvance {s : State} (hs : Memory.wf s.mem = true) (time : Nat) (die : Nat) (e : Nat) (l : Nat) :
    NextWf (execAlmanacAdvance time die e l s) := by
  refine nextWf_next ?_
  grind only [setDie_mem]

theorem wf_execAlmWideTimeout {s : State} (hs : Memory.wf s.mem = true) (group : Nat) : NextWf (execAlmWideTimeout group s) := by
  refine nextWf_next ?_
  grind only

theorem wf_execDieSilentTimeout {s : State} (hs : Memory.wf s.mem = true) (die : Nat) : NextWf (execDieSilentTimeout die s) := by
  refine nextWf_next ?_
  dsimp only
  split
  · exact wf_foldl (wf_devlog (by rwa [setDie_mem]) ..) fun _ _ h => wf_terminate h ..
  · exact hs

end Sys2Proof.Machine.Ops
end

section
/-! Memory stays in canonical form (continued). Switching, host and hub events, issue, and what a step prepares. -/

namespace Sys2Proof.Machine.Ops

open Sys2Proof.Bits Sys2Proof.Num

/-! ### Machine/Switch -/

@[simp] theorem dropOlder_mem (core : Nat) (s : State) : (dropOlder core s).mem = s.mem := rfl

theorem wf_writeImage {s : State} (hs : Memory.wf s.mem = true) (tm : Team) : Memory.wf (writeImage s tm).1.mem = true := by
  unfold writeImage
  grind only [freeBytes_mem, wf_hubWrite, wf_terminate]

theorem wf_saveTeam {s0 : State} (hs0 : Memory.wf s0.mem = true) (t : Nat) (tm : Team) : Memory.wf (saveTeam s0 t tm).mem = true := by
  unfold saveTeam
  grind only [wf_writeImage, setTeam_mem, kickAll_mem, settleSwitches_mem]

theorem wf_switchOut {s : State} (hs : Memory.wf s.mem = true) (t : Nat) : Memory.wf (switchOut s t).mem = true := by
  unfold switchOut
  grind only [kickSlots_mem, wf_saveTeam]

@[simp] theorem resumeTile_mem (tm : Team) (k l : Nat) (s : State) : (resumeTile tm k l s).2.mem = s.mem := by
  unfold resumeTile
  split <;> simp

@[simp] theorem resumeTiles_mem (t k n : Nat) (s : State) : (resumeTiles t k n s).mem = s.mem := by
  induction n generalizing s with
  | zero => rfl
  | succ n ih => unfold resumeTiles; grind only [resumeTile_mem, setTeam_mem]

@[simp] theorem resumeGroup_mem (k base : Nat) (s : State) (e : Nat × Group) : (resumeGroup k base s e).mem = s.mem := rfl

@[simp] theorem resumeOne_mem (s : State) (t : Nat) (tm : Team) (k base : Nat) : (resumeOne s t tm k base).mem = s.mem := by
  unfold resumeOne
  dsimp only
  rw [modLaunch_mem]
  exact (foldl_mem fun s e => resumeGroup_mem k base s e).trans (resumeTiles_mem t k _ _)

theorem resumeCores_mem {s : State} {k base : Nat} {ts : List (Nat × Team)} {r : List Nat × State} (h : resumeCores s k base ts = some r) :
    r.2.mem = s.mem := by
  unfold resumeCores at h
  grind only [pickMany_mem]

theorem wf_resumeTeam {s : State} (hs : Memory.wf s.mem = true) (t k base : Nat) : Memory.wf (resumeTeam s t k base).mem = true := by
  unfold resumeTeam
  split
  · exact hs
  · dsimp only
    split
    · exact hs
    · split
      · exact wf_terminate hs ..
      · split
        · exact hs
        · next h =>
          rw [settleSwitches_mem]
          exact wf_foldl (by rwa [resumeCores_mem h]) fun _ _ h => by rwa [dropOlder_mem, resumeOne_mem]

theorem wf_execTeamSwitchOut {s : State} (hs : Memory.wf s.mem = true) (team : Nat) : NextWf (execTeamSwitchOut team s) :=
  nextWf_next (wf_switchOut hs ..)

theorem wf_execTeamResume {s : State} (hs : Memory.wf s.mem = true) (team : Nat) (core : Nat) (base : Nat) :
    NextWf (execTeamResume team core base s) := nextWf_next (wf_resumeTeam hs ..)

/-! ### Machine/Events -/

theorem wf_ringBroken {s : State} (hs : Memory.wf s.mem = true) (ctx : Nat) (c : Context) : Memory.wf (ringBroken s ctx c).mem = true := by
  unfold ringBroken
  split <;> simp [wf_terminate, wf_finishLeaving, hs]

theorem wf_putRecord {s : State} (hs : Memory.wf s.mem = true) (ctx : Nat) (c : Context) (r : Rec) (w : Nat) :
    Memory.wf (putRecord s ctx c r w).mem = true := by
  simp [putRecord, wf_hubWrite, hs]

theorem wf_moveRing {s : State} (hs : Memory.wf s.mem = true) (ctx : Nat) : Memory.wf (moveRing s ctx).mem = true := by
  unfold moveRing
  grind only [wf_ringBroken, wf_finishLeaving, setContext_mem, wf_hubWrite, wf_putRecord]

theorem wf_hostWrite {s : State} (hs : Memory.wf s.mem = true) (addr : Nat) (bs : List Byte) :
    Memory.wf (hostWrite s addr bs).mem = true := by
  unfold hostWrite
  grind only [wf_devlog, wf_hubWrite]

@[simp] theorem hostRead_mem (s : State) (addr n : Nat) : (hostRead s addr n).mem = s.mem := by
  unfold hostRead
  repeat' split
  all_goals simp

theorem wf_hostStore {s : State} (hs : Memory.wf s.mem = true) (addr : Nat) (bs : List Byte) :
    Memory.wf (hostStore s addr bs).mem = true := by
  unfold hostStore
  grind only [wf_writeBytes]

theorem wf_resendFlit {s : State} (hs : Memory.wf s.mem = true) (port : Nat) : Memory.wf (resendFlit s port).mem = true := by
  unfold resendFlit
  grind only [drawFree_mem, countError_mem, wf_devlog]

@[simp] theorem leasePeer_mem (s : State) (line : Nat) : (leasePeer s line).mem = s.mem := by
  unfold leasePeer
  grind only [putCopy_mem]

theorem wf_remoteStep {s : State} (hs : Memory.wf s.mem = true) (addr n : Nat) (f : Nat → Option Nat) :
    Memory.wf (remoteStep s addr n f).mem = true := by
  unfold remoteStep
  grind only [wf_hubWrite]

theorem wf_serveRemote {s : State} (hs : Memory.wf s.mem = true) (a : RemoteAccess) : Memory.wf (serveRemote s a).mem = true := by
  cases a with
  | load addr n =>
    have h : Memory.wf ((plainLines s addr n).foldl leasePeer s).mem = true := wf_foldl hs fun _ _ h => by rwa [leasePeer_mem]
    simp only [serveRemote]
    split
    · exact hs
    · exact h
  | _ => simp only [serveRemote]; grind only [wf_hubWrite, wf_remoteStep]

@[simp] theorem markUnit_mem (s : State) (e : EccError) : (markUnit s e).mem = s.mem := by
  unfold markUnit
  split <;> simp

theorem wf_retryArray {s : State} (hs : Memory.wf s.mem = true) (e : EccError) : Memory.wf (retryArray s e).mem = true := by
  unfold retryArray
  grind only [countError_mem, drawFree_mem, markUnit_mem, wf_devlog, wf_terminate]

theorem wf_execLineParityRefetch {s : State} (hs : Memory.wf s.mem = true) (core : Nat) (line : Nat) :
    NextWf (execLineParityRefetch core line s) := by
  refine nextWf_next ?_
  grind only [fetchPhys_mem]

theorem wf_execEventRecordWrite {s : State} (hs : Memory.wf s.mem = true) (ctx : Nat) : NextWf (execEventRecordWrite ctx s) :=
  nextWf_next (wf_moveRing hs ..)

theorem wf_execReplayRecord {s : State} (hs : Memory.wf s.mem = true) (ctx : Nat) (seq : Nat) : NextWf (execReplayRecord ctx seq s) :=
  nextWf_next (wf_ctlWrite hs ..)

theorem wf_execAbandonRecord {s : State} (hs : Memory.wf s.mem = true) (ctx : Nat) (seq : Nat) : NextWf (execAbandonRecord ctx seq s) :=
  nextWf_next (wf_ctlWrite hs ..)

theorem wf_execTlbSweepStart {s : State} (hs : Memory.wf s.mem = true) (value : Nat) : NextWf (execTlbSweepStart value s) :=
  nextWf_next (wf_ctlWrite hs ..)

theorem wf_execTlbSweepDone {s : State} (hs : Memory.wf s.mem = true) : NextWf (execTlbSweepDone s) := nextWf_next (wf_sweepDone hs ..)

theorem wf_execPreemptRequest {s : State} (hs : Memory.wf s.mem = true) (value : Nat) : NextWf (execPreemptRequest value s) :=
  nextWf_next (wf_ctlWrite hs ..)

theorem wf_execResumeRequest {s : State} (hs : Memory.wf s.mem = true) (value : Nat) : NextWf (execResumeRequest value s) :=
  nextWf_next (wf_ctlWrite hs ..)

theorem wf_execMigrationGo {s : State} (hs : Memory.wf s.mem = true) (value : Nat) : NextWf (execMigrationGo value s) :=
  nextWf_next (wf_ctlWrite hs ..)

theorem wf_execMigrationSwap {s : State} (hs : Memory.wf s.mem = true) : NextWf (execMigrationSwap s) :=
    nextWf_next (wf_migrationSwap hs ..)

theorem wf_execBankModeRequest {s : State} (hs : Memory.wf s.mem = true) (cluster : Nat) (bank : Nat) (value : Nat) :
    NextWf (execBankModeRequest cluster bank value s) := by
  refine nextWf_next ?_
  grind only [wf_ctlWrite]

theorem wf_execBankModeChange {s : State} (hs : Memory.wf s.mem = true) (cluster : Nat) (bank : Nat) :
    NextWf (execBankModeChange cluster bank s) := nextWf_next (by rwa [serveBank_mem])

theorem wf_execBankModeTimeout {s : State} (hs : Memory.wf s.mem = true) (cluster : Nat) (bank : Nat) :
    NextWf (execBankModeTimeout cluster bank s) := nextWf_next (by rwa [timeoutBank_mem])

theorem wf_execL2clsWrite {s : State} (hs : Memory.wf s.mem = true) (die : Nat) (cls : Nat) (value : Nat) :
    NextWf (execL2clsWrite die cls value s) := by
  refine nextWf_next ?_
  grind only [wf_ctlWrite]

theorem wf_execContextRegister {s : State} (hs : Memory.wf s.mem = true) (value : Nat) : NextWf (execContextRegister value s) :=
  nextWf_next (wf_ctlWrite hs ..)

theorem wf_execContextUnregister {s : State} (hs : Memory.wf s.mem = true) (value : Nat) : NextWf (execContextUnregister value s) :=
  nextWf_next (wf_ctlWrite hs ..)

theorem wf_execQueueRegister {s : State} (hs : Memory.wf s.mem = true) (value : Nat) : NextWf (execQueueRegister value s) :=
  nextWf_next (wf_ctlWrite hs ..)

theorem wf_execQueueUnregister {s : State} (hs : Memory.wf s.mem = true) (value : Nat) : NextWf (execQueueUnregister value s) :=
  nextWf_next (wf_ctlWrite hs ..)

theorem wf_execMemmapWrite {s : State} (hs : Memory.wf s.mem = true) (entry : Nat) (value : Nat) :
    NextWf (execMemmapWrite entry value s) := by
  refine nextWf_next ?_
  grind only [wf_ctlWrite]

theorem wf_execErrorCounterClear {s : State} (hs : Memory.wf s.mem = true) (die : Nat) (counter : Nat) :
    NextWf (execErrorCounterClear die counter s) := by
  refine nextWf_next ?_
  grind only [wf_ctlWrite]

theorem wf_execHostMemWrite {s : State} (hs : Memory.wf s.mem = true) (addr : Nat) (bytes : List Byte) :
    NextWf (execHostMemWrite addr bytes s) := nextWf_next (wf_hostWrite hs ..)

theorem wf_execHostMemRead {s : State} (hs : Memory.wf s.mem = true) (addr : Nat) (count : Nat) :
    NextWf (execHostMemRead addr count s) := nextWf_next (by rwa [hostRead_mem])

theorem wf_execHostCacheInvalidate {s : State} (hs : Memory.wf s.mem = true) (addr : Nat) (bytes : List Byte) :
    NextWf (execHostCacheInvalidate addr bytes s) := nextWf_next (wf_hostStore hs ..)

theorem wf_execPhoathFlitResend {s : State} (hs : Memory.wf s.mem = true) (port : Nat) : NextWf (execPhoathFlitResend port s) :=
  nextWf_next (wf_resendFlit hs ..)

theorem wf_execEccRetry {s : State} (hs : Memory.wf s.mem = true) (err : EccError) : NextWf (execEccRetry err s) :=
    nextWf_next (wf_retryArray hs ..)

theorem wf_execBootStart {s : State} (hs : Memory.wf s.mem = true) (checks : BootChecks) : NextWf (execBootStart checks s) :=
  nextWf_next (by rwa [bootStart_mem])

theorem wf_execBootWatchdog {s : State} (hs : Memory.wf s.mem = true) : NextWf (execBootWatchdog s) :=
    nextWf_next (by rwa [bootWatchdog_mem])

theorem wf_execBootctlRestart {s : State} (hs : Memory.wf s.mem = true) (value : Nat) : NextWf (execBootctlRestart value s) :=
  nextWf_next (wf_ctlWrite hs ..)

theorem wf_execPowerStateRequest {s : State} (hs : Memory.wf s.mem = true) (value : Nat) : NextWf (execPowerStateRequest value s) :=
  nextWf_next (wf_ctlWrite hs ..)

theorem wf_execRegisterWrite {s : State} (hs : Memory.wf s.mem = true) (offset : Nat) (size : Nat) (value : Nat) :
    NextWf (execRegisterWrite offset size value s) := nextWf_next (wf_ctlWrite hs ..)

theorem wf_execPhoathRemoteAccess {s : State} (hs : Memory.wf s.mem = true) (access : RemoteAccess) :
    NextWf (execPhoathRemoteAccess access s) := nextWf_next (wf_serveRemote hs ..)

/-! ### Machine/Issue -/

theorem wf_issueQuarter {s : State} (hs : Memory.wf s.mem = true) (ready : Nat → Nat → Bool) (k q : Nat) :
    Memory.wf (issueQuarter s ready k q).mem = true := hs

/-! ### Machine/Act -/

@[simp] theorem tried_mem (s : State) (key frag : Nat) : (tried s key frag).mem = s.mem := rfl

theorem wf_prepare {s : State} (hs : Memory.wf s.mem = true) (ex : Instr → State → Host.Outcome State Fault Refusal) (a : Act) :
    Memory.wf (prepare ex s a).state.mem = true := by
  unfold prepare
  grind only [Ready.state, wf_fetchFrag, wf_fetchParked, wf_fetchStream, wf_issueQuarter]

theorem wf_prepareDrawn {s : State} (hs : Memory.wf s.mem = true) (ex : Instr → State → Host.Outcome State Fault Refusal) (a : Act) :
    Memory.wf (prepareDrawn ex s a).state.mem = true := by
  unfold prepareDrawn
  split <;> simp [wf_prepare, hs]

theorem wf_prepareNext {s0 : State} (hs0 : Memory.wf s0.mem = true) (ex : Instr → State → Host.Outcome State Fault Refusal) :
    Memory.wf (prepareNext ex s0).state.mem = true := by
  unfold prepareNext
  grind only [rereadContexts_mem, wf_prepare, wf_prepareDrawn]

end Sys2Proof.Machine.Ops
end

section
/-! Memory stays in canonical form (the end): every meaning keeps the form, and so does a step. -/

namespace Sys2Proof.Machine

open Ops

/-- Every instruction and event keeps memory in canonical form. -/
theorem wf_exec {s : State} (hs : Memory.wf s.mem = true) (i : Instr) : NextWf (exec i s) := by
  cases i
  case nop h o => exact wf_execNop hs h o
  case brk h o => exact wf_execBrk hs h o
  case sread h o => exact wf_execSread hs h o
  case swrite h o => exact wf_execSwrite hs h o
  case cycrd h o => exact wf_execCycrd hs h o
  case hint h o => exact wf_execHint hs h o
  case trap h o => exact wf_execTrap hs h o
  case rett h o => exact wf_execRett hs h o
  case rgn h o => exact wf_execRgn hs h o
  case rgnend h o => exact wf_execRgnend hs h o
  case bra h o => exact wf_execBra hs h o
  case brall h o => exact wf_execBrall hs h o
  case brany h o => exact wf_execBrany hs h o
  case brx h o => exact wf_execBrx hs h o
  case call h o => exact wf_execCall hs h o
  case callx h o => exact wf_execCallx hs h o
  case ret h o => exact wf_execRet hs h o
  case loop h o => exact wf_execLoop hs h o
  case mrg h o => exact wf_execMrg hs h o
  case mrgx h o => exact wf_execMrgx hs h o
  case add h o => exact wf_execAdd hs h o
  case addc h o => exact wf_execAddc hs h o
  case sub h o => exact wf_execSub hs h o
  case subb h o => exact wf_execSubb hs h o
  case addi h o => exact wf_execAddi hs h o
  case mul h o => exact wf_execMul hs h o
  case mulhi h o => exact wf_execMulhi hs h o
  case mulw h o => exact wf_execMulw hs h o
  case mad h o => exact wf_execMad hs h o
  case madw h o => exact wf_execMadw hs h o
  case div h o => exact wf_execDiv hs h o
  case rem h o => exact wf_execRem hs h o
  case divrem h o => exact wf_execDivrem hs h o
  case min h o => exact wf_execMin hs h o
  case max h o => exact wf_execMax hs h o
  case clamp h o => exact wf_execClamp hs h o
  case abs h o => exact wf_execAbs hs h o
  case sad h o => exact wf_execSad hs h o
  case dot4 h o => exact wf_execDot4 hs h o
  case dot2 h o => exact wf_execDot2 hs h o
  case lea h o => exact wf_execLea hs h o
  case leai h o => exact wf_execLeai hs h o
  case and h o => exact wf_execAnd hs h o
  case or h o => exact wf_execOr hs h o
  case xor h o => exact wf_execXor hs h o
  case not h o => exact wf_execNot hs h o
  case tern h o => exact wf_execTern hs h o
  case bini h o => exact wf_execBini hs h o
  case shl h o => exact wf_execShl hs h o
  case shr h o => exact wf_execShr hs h o
  case sra h o => exact wf_execSra hs h o
  case fsl h o => exact wf_execFsl hs h o
  case fsr h o => exact wf_execFsr hs h o
  case popc h o => exact wf_execPopc hs h o
  case clz h o => exact wf_execClz hs h o
  case brev h o => exact wf_execBrev hs h o
  case bfx h o => exact wf_execBfx hs h o
  case bfi h o => exact wf_execBfi hs h o
  case perm h o => exact wf_execPerm hs h o
  case setp h o => exact wf_execSetp hs h o
  case setpi h o => exact wf_execSetpi hs h o
  case fsetp h o => exact wf_execFsetp hs h o
  case plop h o => exact wf_execPlop hs h o
  case sel h o => exact wf_execSel hs h o
  case seli h o => exact wf_execSeli hs h o
  case mov h o => exact wf_execMov hs h o
  case movi h o => exact wf_execMovi hs h o
  case p2r h o => exact wf_execP2r hs h o
  case regToPred h o => exact wf_execRegToPred hs h o
  case fadd h o => exact wf_execFadd hs h o
  case fsub h o => exact wf_execFsub hs h o
  case fmul h o => exact wf_execFmul hs h o
  case fma h o => exact wf_execFma hs h o
  case fmin h o => exact wf_execFmin hs h o
  case fmax h o => exact wf_execFmax hs h o
  case frnd h o => exact wf_execFrnd hs h o
  case fclass h o => exact wf_execFclass hs h o
  case fadd2 h o => exact wf_execFadd2 hs h o
  case fmul2 h o => exact wf_execFmul2 hs h o
  case fma2 h o => exact wf_execFma2 hs h o
  case fdot2 h o => exact wf_execFdot2 hs h o
  case fex2 h o => exact wf_execFex2 hs h o
  case flg2 h o => exact wf_execFlg2 hs h o
  case frcp h o => exact wf_execFrcp hs h o
  case frsq h o => exact wf_execFrsq hs h o
  case fsin h o => exact wf_execFsin hs h o
  case fcos h o => exact wf_execFcos hs h o
  case cvt h o => exact wf_execCvt hs h o
  case pack h o => exact wf_execPack hs h o
  case unpack h o => exact wf_execUnpack hs h o
  case quant h o => exact wf_execQuant hs h o
  case dequant h o => exact wf_execDequant hs h o
  case pack4 h o => exact wf_execPack4 hs h o
  case shfl h o => exact wf_execShfl hs h o
  case shfli h o => exact wf_execShfli hs h o
  case vote h o => exact wf_execVote hs h o
  case pmask h o => exact wf_execPmask hs h o
  case lfold h o => exact wf_execLfold hs h o
  case matchLanes h o => exact wf_execMatchLanes hs h o
  case rdlane h o => exact wf_execRdlane hs h o
  case ddx h o => exact wf_execDdx hs h o
  case ddy h o => exact wf_execDdy hs h o
  case rpinit h o => exact wf_execRpinit hs h o
  case rparr h o => exact wf_execRparr hs h o
  case rpwait h o => exact wf_execRpwait hs h o
  case rparw h o => exact wf_execRparw hs h o
  case rpbytes h o => exact wf_execRpbytes hs h o
  case yield h o => exact wf_execYield hs h o
  case yieldto h o => exact wf_execYieldto hs h o
  case sleep h o => exact wf_execSleep hs h o
  case exit h o => exact wf_execExit hs h o
  case rendezvousArrivalCount arrival => exact wf_execRendezvousArrivalCount hs arrival
  case sleepExpiry group => exact wf_execSleepExpiry hs group
  case ld h o => exact wf_execLd hs h o
  case st h o => exact wf_execSt hs h o
  case ldacq h o => exact wf_execLdacq hs h o
  case strel h o => exact wf_execStrel hs h o
  case ldk h o => exact wf_execLdk hs h o
  case stk h o => exact wf_execStk hs h o
  case ldw h o => exact wf_execLdw hs h o
  case stw h o => exact wf_execStw hs h o
  case fpush h o => exact wf_execFpush hs h o
  case fpop h o => exact wf_execFpop hs h o
  case fpeek h o => exact wf_execFpeek hs h o
  case pref h o => exact wf_execPref hs h o
  case fifoWaitServed cluster bank => exact wf_execFifoWaitServed hs cluster bank
  case atom h o => exact wf_execAtom hs h o
  case atomcas h o => exact wf_execAtomcas hs h o
  case atomf h o => exact wf_execAtomf hs h o
  case red h o => exact wf_execRed hs h o
  case redDet h o => exact wf_execRedDet hs h o
  case redf h o => exact wf_execRedf hs h o
  case redfDet h o => exact wf_execRedfDet hs h o
  case dflush h o => exact wf_execDflush hs h o
  case fenceAcq h o => exact wf_execFenceAcq hs h o
  case fenceRel h o => exact wf_execFenceRel hs h o
  case fenceAr h o => exact wf_execFenceAr hs h o
  case fenceSmp h o => exact wf_execFenceSmp hs h o
  case fwait h o => exact wf_execFwait hs h o
  case ngath h o => exact wf_execNgath hs h o
  case nscat h o => exact wf_execNscat hs h o
  case cwb h o => exact wf_execCwb hs h o
  case cinv h o => exact wf_execCinv hs h o
  case cdisc h o => exact wf_execCdisc hs h o
  case icinv h o => exact wf_execIcinv hs h o
  case storePerform store => exact wf_execStorePerform hs store
  case releaseComplete release => exact wf_execReleaseComplete hs release
  case longLatencyResultLand group => exact wf_execLongLatencyResultLand hs group
  case cpy h o => exact wf_execCpy hs h o
  case cpyo h o => exact wf_execCpyo hs h o
  case cpyq h o => exact wf_execCpyq hs h o
  case halloc h o => exact wf_execHalloc hs h o
  case hfree h o => exact wf_execHfree hs h o
  case hwaitTake h o => exact wf_execHwaitTake hs h o
  case hwaitPeek h o => exact wf_execHwaitPeek hs h o
  case hstat h o => exact wf_execHstat hs h o
  case publish h o => exact wf_execPublish hs h o
  case publishSwap publish => exact wf_execPublishSwap hs publish
  case copyCommandStart cluster => exact wf_execCopyCommandStart hs cluster
  case copyChunkLand cluster command => exact wf_execCopyChunkLand hs cluster command
  case copySignalWrite cluster command => exact wf_execCopySignalWrite hs cluster command
  case spillRingRefill cluster => exact wf_execSpillRingRefill hs cluster
  case cespillbWrite cluster value => exact wf_execCespillbWrite hs cluster value
  case queueSlotDispatch queue => exact wf_execQueueSlotDispatch hs queue
  case teamStart launch team core base => exact wf_execTeamStart hs launch team core base
  case launchCompletionRecord launch => exact wf_execLaunchCompletionRecord hs launch
  case issueCycle core quarter => exact wf_execIssueCycle hs core quarter
  case issuePriorityPromotion group => exact wf_execIssuePriorityPromotion hs group
  case xfPipeGrant core => exact wf_execXfPipeGrant hs core
  case xfPipeReply core => exact wf_execXfPipeReply hs core
  case xfCvt h o => exact wf_execXfCvt hs h o
  case xfQuant h o => exact wf_execXfQuant hs h o
  case xfDequant h o => exact wf_execXfDequant hs h o
  case xfRkey h o => exact wf_execXfRkey hs h o
  case xfHash h o => exact wf_execXfHash hs h o
  case xfPenc h o => exact wf_execXfPenc hs h o
  case mlda h o => exact wf_execMlda hs h o
  case mldb h o => exact wf_execMldb hs h o
  case mldbs h o => exact wf_execMldbs hs h o
  case mscale h o => exact wf_execMscale hs h o
  case mma h o => exact wf_execMma hs h o
  case mmaBat h o => exact wf_execMmaBat hs h o
  case mzero h o => exact wf_execMzero hs h o
  case mstacc h o => exact wf_execMstacc hs h o
  case mldacc h o => exact wf_execMldacc hs h o
  case mloop h o => exact wf_execMloop hs h o
  case marr h o => exact wf_execMarr hs h o
  case mwait h o => exact wf_execMwait hs h o
  case mend h o => exact wf_execMend hs h o
  case matrixArbiterGrant core => exact wf_execMatrixArbiterGrant hs core
  case acctagWrite core tile value => exact wf_execAcctagWrite hs core tile value
  case accWindowWrite core tile offset value => exact wf_execAccWindowWrite hs core tile offset value
  case neval h o => exact wf_execNeval hs h o
  case nevstatCnt h o => exact wf_execNevstatCnt hs h o
  case nevstatKick h o => exact wf_execNevstatKick hs h o
  case nevalTimerExpiry core slot => exact wf_execNevalTimerExpiry hs core slot
  case nevalTileFire core => exact wf_execNevalTileFire hs core
  case nevalLayer core tile => exact wf_execNevalLayer hs core tile
  case nevalLanding core tile => exact wf_execNevalLanding hs core tile
  case nvspillbWrite core value => exact wf_execNvspillbWrite hs core value
  case ssnew h o => exact wf_execSsnew hs h o
  case ssadd h o => exact wf_execSsadd hs h o
  case ssbuild h o => exact wf_execSsbuild hs h o
  case ssbind h o => exact wf_execSsbind hs h o
  case ssrebind h o => exact wf_execSsrebind hs h o
  case ssfree h o => exact wf_execSsfree hs h o
  case ssget h o => exact wf_execSsget hs h o
  case emitv h o => exact wf_execEmitv hs h o
  case emit h o => exact wf_execEmit hs h o
  case emitsp h o => exact wf_execEmitsp hs h o
  case rflush h o => exact wf_execRflush hs h o
  case fin h o => exact wf_execFin hs h o
  case fout h o => exact wf_execFout hs h o
  case fdep h o => exact wf_execFdep hs h o
  case disc h o => exact wf_execDisc hs h o
  case binnerInsert die => exact wf_execBinnerInsert hs die
  case flushComplete set => exact wf_execFlushComplete hs set
  case fragmentLaunch set core base => exact wf_execFragmentLaunch hs set core base
  case blendApply set sample => exact wf_execBlendApply hs set sample
  case passEnd set => exact wf_execPassEnd hs set
  case alm h o => exact wf_execAlm hs h o
  case almhz h o => exact wf_execAlmhz hs h o
  case stcm h o => exact wf_execStcm hs h o
  case ldasof h o => exact wf_execLdasof hs h o
  case almwait h o => exact wf_execAlmwait hs h o
  case stcmRecord lane => exact wf_execStcmRecord hs lane
  case horizonUpdate copies => exact wf_execHorizonUpdate hs copies
  case almanacAdvance time die e l => exact wf_execAlmanacAdvance hs time die e l
  case almWideTimeout group => exact wf_execAlmWideTimeout hs group
  case dieSilentTimeout die => exact wf_execDieSilentTimeout hs die
  case lineParityRefetch core line => exact wf_execLineParityRefetch hs core line
  case eventRecordWrite ctx => exact wf_execEventRecordWrite hs ctx
  case replayRecord ctx seq => exact wf_execReplayRecord hs ctx seq
  case abandonRecord ctx seq => exact wf_execAbandonRecord hs ctx seq
  case tlbSweepStart value => exact wf_execTlbSweepStart hs value
  case tlbSweepDone => exact wf_execTlbSweepDone hs
  case preemptRequest value => exact wf_execPreemptRequest hs value
  case teamSwitchOut team => exact wf_execTeamSwitchOut hs team
  case resumeRequest value => exact wf_execResumeRequest hs value
  case teamResume team core base => exact wf_execTeamResume hs team core base
  case migrationGo value => exact wf_execMigrationGo hs value
  case migrationSwap => exact wf_execMigrationSwap hs
  case bankModeRequest cluster bank value => exact wf_execBankModeRequest hs cluster bank value
  case bankModeChange cluster bank => exact wf_execBankModeChange hs cluster bank
  case bankModeTimeout cluster bank => exact wf_execBankModeTimeout hs cluster bank
  case l2clsWrite die cls value => exact wf_execL2clsWrite hs die cls value
  case contextRegister value => exact wf_execContextRegister hs value
  case contextUnregister value => exact wf_execContextUnregister hs value
  case queueRegister value => exact wf_execQueueRegister hs value
  case queueUnregister value => exact wf_execQueueUnregister hs value
  case memmapWrite entry value => exact wf_execMemmapWrite hs entry value
  case errorCounterClear die counter => exact wf_execErrorCounterClear hs die counter
  case hostMemWrite addr bytes => exact wf_execHostMemWrite hs addr bytes
  case hostMemRead addr count => exact wf_execHostMemRead hs addr count
  case hostCacheInvalidate addr bytes => exact wf_execHostCacheInvalidate hs addr bytes
  case phoathFlitResend port => exact wf_execPhoathFlitResend hs port
  case eccRetry err => exact wf_execEccRetry hs err
  case bootStart checks => exact wf_execBootStart hs checks
  case bootWatchdog => exact wf_execBootWatchdog hs
  case bootctlRestart value => exact wf_execBootctlRestart hs value
  case powerStateRequest value => exact wf_execPowerStateRequest hs value
  case registerWrite offset size value => exact wf_execRegisterWrite hs offset size value
  case phoathRemoteAccess access => exact wf_execPhoathRemoteAccess hs access

/-- A step that answers a next state keeps the form: the act is prepared, and what it prepares is executed. -/
theorem wf_step {s : State} (hs : Memory.wf s.mem = true) : NextWf (step s) := by
  have hp := wf_prepareNext hs exec
  unfold step
  split
  · next h =>
    rw [h] at hp
    exact nextWf_next hp
  · next h =>
    rw [h] at hp
    exact wf_exec hp _

end Sys2Proof.Machine

/-- Settles O39: memory changes by writes of bytes, by a migration's copy and by a change of the memory map alone, and each of them
keeps the form. -/
theorem Sys2Proof.memoryStaysCanonical : Obligations.MemoryStaysCanonical := by
  unfold Obligations.MemoryStaysCanonical
  exact fun s t ht hs => Machine.wf_step hs t ht
end

section
/-! What a list of entries holds after an insertion, a removal or a change (Machine/Maps). -/

namespace Sys2Proof.Maps

variable {α : Type}

theorem mem_of_find? {k : Nat} {v : α} {m : List (Nat × α)} (h : find? k m = some v) : (k, v) ∈ m := by
  induction m with
  | nil => cases h
  | cons e m ih =>
    simp only [find?] at h
    split at h
    · next hk => cases h; cases hk; exact List.mem_cons_self ..
    · split at h
      · cases h
      · exact List.mem_cons_of_mem _ (ih h)

theorem mem_insert {k : Nat} {v : α} {m : List (Nat × α)} {e : Nat × α} (h : e ∈ insert k v m) : e = (k, v) ∨ e ∈ m := by
  induction m with
  | nil => simpa [insert] using h
  | cons x m ih =>
    simp only [insert] at h
    split at h
    · exact List.mem_cons.1 h
    · split at h
      · exact (List.mem_cons.1 h).imp_right (List.mem_cons_of_mem _)
      · rcases List.mem_cons.1 h with rfl | h
        · exact .inr (List.mem_cons_self ..)
        · exact (ih h).imp_right (List.mem_cons_of_mem _)

theorem mem_of_mem_erase {k : Nat} {m : List (Nat × α)} {e : Nat × α} (h : e ∈ erase k m) : e ∈ m := by
  induction m with
  | nil => exact h
  | cons x m ih =>
    simp only [erase] at h
    split at h
    · exact h
    · split at h
      · exact List.mem_cons_of_mem _ h
      · rcases List.mem_cons.1 h with rfl | h
        · exact List.mem_cons_self ..
        · exact List.mem_cons_of_mem _ (ih h)

end Sys2Proof.Maps
end

section
/-! The operations on one group: what each changes of it, and that each keeps its register files in canonical form (01 R26). A write of
a register or of a status bit is a `Maps.set` on one of the four files; landing a result is such writes; the split table and the
fragments are no part of the form. -/

namespace Sys2Proof.Machine

theorem Group.wf_iff {g : Group} : Group.wf g = true ↔ Maps.canonical (0 : Word) g.v = true ∧ Maps.canonical (0 : Word) g.k = true ∧
    Maps.canonical false g.p = true ∧ Maps.canonical (0 : Word) g.lstat = true := by
  simp [Group.wf, and_assoc]

/-- The form of the files is a matter of the files. -/
theorem Group.wf_of_files {g g' : Group} (h : Group.wf g = true) (hv : g'.v = g.v) (hk : g'.k = g.k) (hp : g'.p = g.p)
    (hl : g'.lstat = g.lstat) : Group.wf g' = true := by
  rw [Group.wf, hv, hk, hp, hl]
  exact h

namespace Ops

/-! ### Register writes and status bits -/

/-- A register write changes the three register files only. -/
theorem writeReg_eq (g : Group) (w : RegWrite) :
    writeReg g w = { g with v := (writeReg g w).v, k := (writeReg g w).k, p := (writeReg g w).p } := by
  cases w with
  | v l r x => rfl
  | k r x => rfl
  | p l r b => simp only [writeReg]; split <;> rfl

theorem foldl_writeReg_eq (ws : List RegWrite) (g : Group) : ws.foldl writeReg g =
    { g with v := (ws.foldl writeReg g).v, k := (ws.foldl writeReg g).k, p := (ws.foldl writeReg g).p } := by
  induction ws generalizing g with
  | nil => rfl
  | cons w ws ih => rw [List.foldl_cons, ih, writeReg_eq g w]

theorem foldl_orLstat_eq (fl : List (Nat × Nat)) (g : Group) : fl.foldl orLstat g = { g with lstat := (fl.foldl orLstat g).lstat } := by
  induction fl generalizing g with
  | nil => rfl
  | cons e fl ih => rw [List.foldl_cons, ih]; rfl

theorem noteFault_eq (w : Window) (g : Group) : noteFault w g = { g with nevTrap := (noteFault w g).nevTrap } := by
  unfold noteFault
  split
  · rfl
  · split <;> rfl

/-- A landing changes the four files and the NEVAL_FAULT to come. -/
theorem landWindow_eq (g : Group) (w : Window) : landWindow g w = { g with
    v := (landWindow g w).v, k := (landWindow g w).k, p := (landWindow g w).p, lstat := (landWindow g w).lstat,
        nevTrap := (landWindow g w).nevTrap } := by
  unfold landWindow
  rw [noteFault_eq, foldl_orLstat_eq, foldl_writeReg_eq]

theorem foldl_landWindow_eq (ws : List Window) (g : Group) : ws.foldl landWindow g = { g with
    v := (ws.foldl landWindow g).v, k := (ws.foldl landWindow g).k, p := (ws.foldl landWindow g).p,
    lstat := (ws.foldl landWindow g).lstat, nevTrap := (ws.foldl landWindow g).nevTrap } := by
  induction ws generalizing g with
  | nil => rfl
  | cons w ws ih => rw [List.foldl_cons, ih, landWindow_eq g w]

theorem wf_writeReg {g : Group} (h : Group.wf g = true) (w : RegWrite) : Group.wf (writeReg g w) = true := by
  obtain ⟨hv, hk, hp, hl⟩ := Group.wf_iff.1 h
  cases w with
  | v l r x => exact Group.wf_iff.2 ⟨Maps.set_canonical hv, hk, hp, hl⟩
  | k r x => exact Group.wf_iff.2 ⟨hv, Maps.set_canonical hk, hp, hl⟩
  | p l r b =>
    simp only [writeReg]
    split
    · exact h
    · exact Group.wf_iff.2 ⟨hv, hk, Maps.set_canonical hp, hl⟩

theorem wf_orLstat {g : Group} (h : Group.wf g = true) (e : Nat × Nat) : Group.wf (orLstat g e) = true := by
  obtain ⟨hv, hk, hp, hl⟩ := Group.wf_iff.1 h
  exact Group.wf_iff.2 ⟨hv, hk, hp, Maps.set_canonical hl⟩

/-- A fold of an operation that keeps the form keeps it. -/
theorem wf_groupFoldl {β : Type} {f : Group → β → Group} (hf : ∀ g x, Group.wf g = true → Group.wf (f g x) = true) (l : List β)
    {g : Group} (h : Group.wf g = true) : Group.wf (l.foldl f g) = true := by
  induction l generalizing g with
  | nil => exact h
  | cons x l ih => exact ih (hf g x h)

theorem wf_writes {g : Group} (h : Group.wf g = true) (ws : List RegWrite) : Group.wf (ws.foldl writeReg g) = true :=
  wf_groupFoldl (fun _ w h => wf_writeReg h w) ws h

theorem wf_orLstats {g : Group} (h : Group.wf g = true) (fl : List (Nat × Nat)) : Group.wf (fl.foldl orLstat g) = true :=
  wf_groupFoldl (fun _ e h => wf_orLstat h e) fl h

/-! ### Results that land -/

theorem wf_landWindow {g : Group} (h : Group.wf g = true) (w : Window) : Group.wf (landWindow g w) = true := by
  unfold landWindow
  rw [noteFault_eq]
  exact wf_orLstats (wf_writes h w.writes) w.flags

theorem wf_landWindows {g : Group} (h : Group.wf g = true) (ws : List Window) : Group.wf (ws.foldl landWindow g) = true :=
  wf_groupFoldl (fun _ w h => wf_landWindow h w) ws h

theorem wf_landed {g : Group} (h : Group.wf g = true) (ws rest : List Window) :
    Group.wf (ws.foldl landWindow { g with windows := rest }) = true :=
  wf_landWindows (g := { g with windows := rest }) h ws

theorem wf_landClosed {g : Group} (h : Group.wf g = true) : Group.wf (landClosed g) = true :=
  wf_landed h _ _

theorem wf_passWindows {g : Group} (h : Group.wf g = true) : Group.wf (passWindows g) = true :=
  wf_landed h _ _

theorem wf_landAll {g : Group} (h : Group.wf g = true) : Group.wf (landAll g) = true :=
  wf_landed h _ _

theorem wf_landReady {g : Group} (h : Group.wf g = true) : Group.wf (landReady g) = true :=
  wf_landed h _ _

/-! ### The split table -/

/-- Joins change the fragments, the split table and the stopped fragments only. -/
theorem settle_eq (n : Nat) (g : Group) : settle n g =
    { g with frags := (settle n g).frags, joins := (settle n g).joins, stopped := (settle n g).stopped } := by
  induction n generalizing g with
  | zero => rfl
  | succ n ih =>
    unfold settle
    split
    · rw [ih]
    · split
      · extract_lets g1
        rw [ih]
        split <;> rfl
      · rfl

theorem meetJoin_eq (frag : Nat) (g : Group) : meetJoin frag g =
    { g with frags := (meetJoin frag g).frags, joins := (meetJoin frag g).joins, stopped := (meetJoin frag g).stopped } := by
  unfold meetJoin
  split
  · rfl
  · split
    · split
      · exact settle_eq ..
      · rfl
    · rfl

theorem wf_settle {g : Group} (h : Group.wf g = true) (n : Nat) : Group.wf (settle n g) = true := by
  rw [settle_eq]
  exact h

theorem wf_meetJoin {g : Group} (h : Group.wf g = true) (frag : Nat) : Group.wf (meetJoin frag g) = true := by
  rw [meetJoin_eq]
  exact h

/-! ### Completion -/

/-- The group after a completion's own writes and the passing of its windows. -/
def counted (c : Ctx) (w : List RegWrite) (fl : List (Nat × Nat)) (g : Group) : Group :=
  passWindows (if c.h.la = 0 then fl.foldl orLstat (w.foldl writeReg g) else g)

/-- The same with the completion's own window, where it opens one. -/
def opened (c : Ctx) (w : List RegWrite) (fl : List (Nat × Nat)) (g : Group) : Group :=
  if c.h.la = 0 then counted c w fl g
  else { counted c w fl g with windows := (counted c w fl g).windows ++ [({ left := c.h.la.toNat, writes := w, flags := fl } : Window)] }

/-- The group of a completion with its region and its fragment placed, before joins are met. -/
def advanced (c : Ctx) (m : Marks) (pc : DWord) (w : List RegWrite) (fl : List (Nat × Nat)) (g : Group) : Group :=
  { opened c w fl g with
    region := if m.closes then none else (opened c w fl g).region
    fetchRep := if (opened c w fl g).fetchOwner = c.frag then 0 else (opened c w fl g).fetchRep
    frags := Maps.modify c.frag (fun f => { f with pc := pc, stage := .fresh, read := none, arrival := 0 }) (opened c w fl g).frags }

/-- A completion changes its group to the advanced one, with joins met. -/
theorem retire_eq (c : Ctx) (m : Marks) (s : State) (pc : DWord) (w : List RegWrite) (fl : List (Nat × Nat)) :
    retire c m s pc w fl = modGroup s c.key (fun g => settle settleFuel (advanced c m pc w fl g)) := rfl

/-- The group of a completion that has placed its fragments, before joins are met. -/
def advancedMoved (c : Ctx) (m : Marks) (g : Group) : Group :=
  { passWindows g with
    region := if m.closes then none else (passWindows g).region
    fetchRep := if (passWindows g).fetchOwner = c.frag then 0 else (passWindows g).fetchRep }

theorem retireMoved_eq (c : Ctx) (m : Marks) (s : State) :
    retireMoved c m s = modGroup s c.key (fun g => settle settleFuel (advancedMoved c m g)) := rfl

theorem wf_counted {g : Group} (h : Group.wf g = true) (c : Ctx) (w : List RegWrite) (fl : List (Nat × Nat)) :
    Group.wf (counted c w fl g) = true := by
  unfold counted
  split
  · exact wf_passWindows (wf_orLstats (wf_writes h w) fl)
  · exact wf_passWindows h

theorem wf_opened {g : Group} (h : Group.wf g = true) (c : Ctx) (w : List RegWrite) (fl : List (Nat × Nat)) :
    Group.wf (opened c w fl g) = true := by
  unfold opened
  split
  · exact wf_counted h c w fl
  · exact Group.wf_of_files (wf_counted h c w fl) rfl rfl rfl rfl

theorem wf_advanced {g : Group} (h : Group.wf g = true) (c : Ctx) (m : Marks) (pc : DWord) (w : List RegWrite) (fl : List (Nat × Nat)) :
    Group.wf (advanced c m pc w fl g) = true :=
  Group.wf_of_files (wf_opened h c w fl) rfl rfl rfl rfl

theorem wf_advancedMoved {g : Group} (h : Group.wf g = true) (c : Ctx) (m : Marks) : Group.wf (advancedMoved c m g) = true :=
  Group.wf_of_files (wf_passWindows h) rfl rfl rfl rfl

/-! ### Taking a trap -/

theorem wf_enter {g : Group} (h : Group.wf g = true) (frag : Nat) (t : Trap) (saved : DWord) (defer : Bool) (pc : DWord) :
    Group.wf (takeTrap.enter frag t saved defer pc g) = true := by
  unfold takeTrap.enter
  refine wf_meetJoin ?_ frag
  exact Group.wf_of_files (g := landReady g) (wf_landReady h) rfl rfl rfl rfl

end Ops

end Sys2Proof.Machine
end

section
/-! The register files of every group stay in canonical form (01 R26). The list of groups in its form: what keeps it. -/

namespace Sys2Proof.Machine

/-- The register files and %lstat of every group are in canonical form. -/
def Groups.wf (gs : List (Nat × Group)) : Bool := gs.all (fun e => Group.wf e.2)

namespace Groups

theorem wf_iff {gs : List (Nat × Group)} : Groups.wf gs = true ↔ ∀ e ∈ gs, Group.wf e.2 = true := by
  simp [Groups.wf]

theorem wf_find? {gs : List (Nat × Group)} (h : Groups.wf gs = true) {k : Nat} {g : Group} (hg : Maps.find? k gs = some g) :
    Group.wf g = true :=
  wf_iff.1 h _ (Maps.mem_of_find? hg)

theorem wf_filter {gs : List (Nat × Group)} (h : Groups.wf gs = true) (p : Nat × Group → Bool) : Groups.wf (gs.filter p) = true :=
  wf_iff.2 fun e he => wf_iff.1 h e (List.mem_of_mem_filter he)

theorem wf_insert {gs : List (Nat × Group)} (h : Groups.wf gs = true) (k : Nat) {g : Group} (hg : Group.wf g = true) :
    Groups.wf (Maps.insert k g gs) = true :=
  wf_iff.2 fun e he => by
    rcases Maps.mem_insert he with rfl | he
    · exact hg
    · exact wf_iff.1 h e he

theorem wf_erase {gs : List (Nat × Group)} (h : Groups.wf gs = true) (k : Nat) : Groups.wf (Maps.erase k gs) = true :=
  wf_iff.2 fun e he => wf_iff.1 h e (Maps.mem_of_mem_erase he)

theorem wf_modify {gs : List (Nat × Group)} (h : Groups.wf gs = true) (k : Nat) {f : Group → Group}
    (hf : ∀ g, Group.wf g = true → Group.wf (f g) = true) : Groups.wf (Maps.modify k f gs) = true := by
  unfold Maps.modify
  split
  · exact h
  · next g hg => exact wf_insert h k (hf g (wf_find? h hg))

theorem wf_map {gs : List (Nat × Group)} (h : Groups.wf gs = true) {f : Nat × Group → Nat × Group}
    (hf : ∀ e, Group.wf e.2 = true → Group.wf (f e).2 = true) : Groups.wf (gs.map f) = true :=
  wf_iff.2 fun e he => by
    obtain ⟨e', he', rfl⟩ := List.mem_map.1 he
    exact hf e' (wf_iff.1 h e' he')

end Groups

namespace Ops

theorem groupsWf_modGroup {s : State} (hs : Groups.wf s.groups = true) (k : Nat) {f : Group → Group}
    (hf : ∀ g, Group.wf g = true → Group.wf (f g) = true) : Groups.wf (modGroup s k f).groups = true :=
  Groups.wf_modify hs k hf

theorem foldl_groups {α : Type} {f : State → α → State} {l : List α} {s : State} (h : ∀ s a, (f s a).groups = s.groups) :
    (l.foldl f s).groups = s.groups := by
  induction l generalizing s with
  | nil => rfl
  | cons a l ih => exact ih.trans (h s a)

theorem groupsWf_foldl {α : Type} {f : State → α → State} {l : List α} {s : State} (hs : Groups.wf s.groups = true)
    (h : ∀ s a, Groups.wf s.groups = true → Groups.wf (f s a).groups = true) : Groups.wf (l.foldl f s).groups = true := by
  induction l generalizing s with
  | nil => exact hs
  | cons a l ih => exact ih (h s a hs)

end Ops

/-- In a next state that the outcome gives, the register files of every group are in canonical form. -/
def NextGroupsWf (x : Host.Outcome State Fault Refusal) : Prop := ∀ t, x = .next t → Groups.wf t.groups = true

theorem nextGroupsWf_next {t : State} (ht : Groups.wf t.groups = true) : NextGroupsWf (.next t) := fun _ h => by cases h; exact ht

theorem nextGroupsWf_fault (f : Fault) : NextGroupsWf (.fault f) := fun _ h => nomatch h

end Sys2Proof.Machine
end

section
/-! The register files of every group stay in canonical form (continued). Writes of memory leave the groups alone. -/

namespace Sys2Proof.Machine.Ops

@[simp] theorem writeNat_groups (s : State) (a n v : Nat) : (writeNat s a n v).groups = s.groups := rfl

@[simp] theorem backInvalidateSpan_groups (s : State) (pa n : Nat) : (backInvalidateSpan s pa n).groups = s.groups := rfl

@[simp] theorem copyRange_groups (s : State) (src dst len : Nat) : (copyRange s src dst len).groups = s.groups := rfl

@[simp] theorem hubPut_groups (s : State) (pa : Nat) (bs : List Byte) : (hubPut s pa bs).groups = s.groups := rfl

@[simp] theorem hubWrite_groups (s : State) (pa : Nat) (bs : List Byte) : (hubWrite s pa bs).groups = s.groups := by
  unfold hubWrite
  grind only [hubPut_groups]

@[simp] theorem dropStamps_groups (s : State) : (dropStamps s).groups = s.groups :=
  foldl_groups fun s e => by grind only [writeBytes_groups]

@[simp] theorem remap_groups (s : State) (r e : Nat) : (remap s r e).groups = s.groups := by
  unfold remap
  grind only [dropStamps_groups, setCtl_groups]

end Sys2Proof.Machine.Ops
end

section
/-! The register files of every group stay in canonical form (continued). Records, terminations, traps, fetches and the ends of an
instruction. Each operation of the model has one lemma: `f_groups` where it leaves the groups as they were, `groupsWf_f` where it keeps
the form. -/

namespace Sys2Proof.Machine.Ops

open Sys2Proof.Bits Sys2Proof.Num

/-! ### Machine/Ops -/

@[simp] theorem setBank_groups (s : State) (c b : Nat) (x : Bank) : (setBank s c b x).groups = s.groups := rfl

@[simp] theorem kickBanks_groups (s : State) (c : Nat) : (kickBanks s c).groups = s.groups := rfl

@[simp] theorem kickAll_groups (s : State) : (kickAll s).groups = s.groups := foldl_groups (fun _ _ => kickBanks_groups ..)

@[simp] theorem setHandle_groups (s : State) (c h : Nat) (x : Handle) : (setHandle s c h x).groups = s.groups := rfl

@[simp] theorem drawFree_groups (s : State) : (drawFree s).2.groups = s.groups := rfl

@[simp] theorem raise_groups (s : State) (r : Rec) : (raise s r).2.groups = s.groups := rfl

@[simp] theorem devlog_groups (s : State) (code ctx place detail : Nat) : (devlog s code ctx place detail).groups = s.groups := by
  unfold devlog
  grind only [setCtl_groups, hubWrite_groups]

theorem groupsWf_dropGroups {s : State} (hs : Groups.wf s.groups = true) (gs : List Nat) : Groups.wf (dropGroups gs s).groups = true :=
  Groups.wf_filter hs _

@[simp] theorem completeLaunch_groups (s : State) (id : Nat) (l : Launch) : (completeLaunch s id l).groups = s.groups := by
  unfold completeLaunch
  grind only [setLaunch_groups, hubWrite_groups, devlog_groups]

@[simp] theorem failLaunch_groups (code ctx : Nat) (s : State) (e : Nat × Launch) : (failLaunch code ctx s e).groups = s.groups := by
  unfold failLaunch
  grind only [completeLaunch_groups, setLaunch_groups]

@[simp] theorem lastRecord_groups (s : State) (ctx code : Nat) : (lastRecord s ctx code).groups = s.groups := by
  unfold lastRecord
  split <;> simp

@[simp] theorem dropForwards_groups (s : State) (ids : List Nat) : (dropForwards s ids).groups = s.groups := rfl

@[simp] theorem settlePreempts_groups (n : Nat) (s : State) : (settlePreempts n s).groups = s.groups := by
  obtain ⟨⟨_, _, _, _, e⟩, -⟩ := switchOnly_settlePreempts n s
  rw [e]

@[simp] theorem settleResumes_groups (n : Nat) (s : State) : (settleResumes n s).groups = s.groups := by
  obtain ⟨⟨_, _, _, _, e⟩, -⟩ := switchOnly_settleResumes n s
  rw [e]

@[simp] theorem settleSwitches_groups (s : State) : (settleSwitches s).groups = s.groups := by
  simp [settleSwitches]

theorem groupsWf_dropContext {s : State} (hs : Groups.wf s.groups = true) (ctx : Nat) : Groups.wf (dropContext s ctx).groups = true := by
  unfold dropContext
  rw [kickAll_groups]
  exact groupsWf_dropGroups hs _

theorem groupsWf_terminate {s : State} (hs : Groups.wf s.groups = true) (ctx code : Nat) :
    Groups.wf (terminate s ctx code).groups = true := by
  unfold terminate
  split
  · exact hs
  · split
    · exact hs
    · rw [lastRecord_groups]
      rw [foldl_groups fun _ _ => failLaunch_groups ..]
      simpa using groupsWf_dropContext hs ctx

@[simp] theorem countError_groups (s : State) (d i : Nat) : (countError s d i).groups = s.groups := rfl

@[simp] theorem markLine_groups (s : State) (line : Nat) : (markLine s line).groups = s.groups := by
  unfold markLine
  split <;> simp

@[simp] theorem failLine_groups (s : State) (c ctx pa : Nat) : (failLine s c ctx pa).groups = s.groups := by
  unfold failLine
  split <;> simp

@[simp] theorem fetchPhys_groups (s : State) (c pa : Nat) : (fetchPhys s c pa).2.groups = s.groups := by
  unfold fetchPhys
  grind only [setCore_groups, countError_groups]

@[simp] theorem noteTlb_groups (s : State) (c ctx base size leaf : Nat) : (noteTlb s c ctx base size leaf).groups = s.groups := by
  unfold noteTlb
  grind only [setCore_groups]

@[simp] theorem fetchStamped_groups (s : State) (home leaf pa : Nat) : (fetchStamped s home leaf pa).2.groups = s.groups := rfl

@[simp] theorem fetchLine_groups (s : State) (c ctx va : Nat) : (fetchLine s c ctx va).2.groups = s.groups := by
  unfold fetchLine
  grind only [fetchStamped_groups, fetchPhys_groups, noteTlb_groups, failLine_groups]

theorem groupsWf_of_fetchLine {s t : State} {c ctx va : Nat} {x : Fetched} (h : fetchLine s c ctx va = (x, t))
    (hs : Groups.wf s.groups = true) : Groups.wf t.groups = true := by
  rwa [← fetchLine_groups s c ctx va, h] at hs

theorem groupsWf_takeTrap {s : State} (hs : Groups.wf s.groups = true) (key frag : Nat) (t : Trap) (saved : DWord) (defer : Bool) :
    Groups.wf (takeTrap s key frag t saved defer).groups = true := by
  unfold takeTrap
  repeat' split
  all_goals grind only [groupsWf_modGroup, groupsWf_terminate, → groupsWf_of_fetchLine, wf_enter]

theorem groupsWf_returnFromTrap {s : State} (hs : Groups.wf s.groups = true) (key frag : Nat) :
    Groups.wf (returnFromTrap key frag s).groups = true :=
  groupsWf_modGroup hs key fun _ h => h

/-! ### Machine/Operands -/

theorem groupsWf_setStage {s : State} (hs : Groups.wf s.groups = true) (c : Ctx) (st : Stage) :
    Groups.wf (setStage c s st).groups = true := by
  unfold setStage
  split
  · exact groupsWf_modGroup hs c.key fun _ h => h
  · exact groupsWf_modGroup hs c.key fun _ h => h

/-- A completion keeps the form: it writes its results, lands what is to land, and changes no register else. -/
theorem groupsWf_retire {s : State} (hs : Groups.wf s.groups = true) (c : Ctx) (m : Marks) (pc : DWord) (w : List RegWrite)
    (fl : List (Nat × Nat)) : Groups.wf (retire c m s pc w fl).groups = true :=
  groupsWf_modGroup hs c.key fun _ h => wf_settle (wf_advanced h c m pc w fl) _

theorem groupsWf_retireMoved {s : State} (hs : Groups.wf s.groups = true) (c : Ctx) (m : Marks) :
    Groups.wf (retireMoved c m s).groups = true :=
  groupsWf_modGroup hs c.key fun _ h => wf_settle (wf_advancedMoved h c m) _

theorem groupsWf_unpark {s : State} (hs : Groups.wf s.groups = true) (c : Ctx) (m : Marks) (q : Parked) (w : List RegWrite)
    (fl : List (Nat × Nat)) : Groups.wf (unpark c m q s w fl).groups = true :=
  groupsWf_modGroup hs c.key fun _ h => wf_landClosed h

@[simp] theorem raiseFaults_groups (c : Ctx) (pid : Nat) (reps : List (Nat × Nat)) (s : State) (fs : List PageFault) :
    (raiseFaults c pid reps s fs).groups = s.groups := foldl_groups fun _ _ => raise_groups ..

theorem groupsWf_parkInstr {s : State} (hs : Groups.wf s.groups = true) (c : Ctx) (os : List Opnd) (fs : List PageFault) :
    Groups.wf (parkInstr c os s fs).groups = true := by
  unfold parkInstr
  split
  · split
    · exact groupsWf_terminate hs ..
    · rw [raiseFaults_groups]
      exact groupsWf_modGroup hs c.key fun _ h => h
  · dsimp only
    rw [raiseFaults_groups]
    refine groupsWf_retire ?_ ..
    exact groupsWf_modGroup hs c.key fun _ h => h

theorem groupsWf_deferTrap {s : State} (hs : Groups.wf s.groups = true) (key : Nat) (g : Group) (q : Parked) (t : Trap) :
    Groups.wf (deferTrap s key g q t).groups = true := by
  unfold deferTrap
  split
  · refine groupsWf_takeTrap ?_ ..
    exact groupsWf_modGroup hs key fun _ h => h
  · exact groupsWf_modGroup hs key fun g h => wf_landClosed (g := { withoutPark q g with late := _ }) h

theorem groupsWf_keepTrap {c : Ctx} (hc : Groups.wf c.s.groups = true) (t : Trap) (s : State) :
    Groups.wf (keepTrap c t s).groups = true := by
  obtain e | e := keepTrap_cases c t s <;> rw [e]
  · exact hc
  · exact groupsWf_setStage hc ..

theorem groupsWf_finish {c : Ctx} (hc : Groups.wf c.s.groups = true) (m : Marks) (os : List Opnd) {r : Res}
    (hr : Groups.wf r.state.groups = true) :
    Groups.wf (finish c m os r).groups = true := by
  cases r with
  | done s w fl =>
    simp only [finish]
    split
    · exact groupsWf_retire hr ..
    · exact groupsWf_unpark hr ..
  | issued s =>
    simp only [finish]
    split
    · exact groupsWf_retire hr ..
    · exact groupsWf_modGroup hr c.key fun _ h => h
  | moved s => exact groupsWf_retireMoved hr ..
  | wait s => exact hr
  | trap t s =>
    simp only [finish]
    grind only [Res.state, groupsWf_keepTrap, groupsWf_takeTrap, groupsWf_deferTrap]
  | kill code s => exact groupsWf_terminate hr ..
  | park s fs =>
    simp only [finish]
    split
    · exact hc
    · exact groupsWf_parkInstr hr ..

/-- An instruction keeps the form when its body does: what holds it back, its context and its end keep it. -/
theorem groupsWf_run {i : Instr} {h : Hdr} {m : Marks} {os : List Opnd} {ps : List Nat} {body : Ctx → Res} {s : State}
    (hb : ∀ c, Groups.wf c.s.groups = true → Groups.wf (body c).state.groups = true) (hs : Groups.wf s.groups = true) :
    NextGroupsWf (run i h m os ps body s) := by
  unfold run
  split
  · exact nextGroupsWf_fault _
  · next c0 h0 =>
    have hc : Groups.wf (withoutHelpers m c0).s.groups = true := by rwa [withoutHelpers_state, ctx?_state h0]
    refine nextGroupsWf_next ?_
    grind only [groupsWf_finish, Res.state]

theorem groupsWf_pend {s : State} (hs : Groups.wf s.groups = true) (c : Ctx) (names : List RegName) :
    Groups.wf (pend c s names).2.groups = true := by
  unfold pend
  split
  · exact hs
  · exact groupsWf_modGroup hs c.key fun _ h => h

theorem groupsWf_supply {s : State} (hs : Groups.wf s.groups = true) (key wid : Nat) (w : List RegWrite) (fl : List (Nat × Nat)) :
    Groups.wf (supply s key wid w fl).groups = true :=
  groupsWf_modGroup hs key fun _ h => h

@[simp] theorem illegal_groups (c : Ctx) (s : State) : (illegal c s).state.groups = s.groups := rfl

@[simp] theorem noEffect_groups (c : Ctx) : (noEffect c).state.groups = c.s.groups := rfl

/-! ### Machine/Fetch -/

theorem groupsWf_deliver {s : State} (hs : Groups.wf s.groups = true) (key frag : Nat) (t : Trap) (saved : DWord) :
    Groups.wf (deliver s key frag t saved).groups = true := by
  unfold deliver
  grind only [groupsWf_takeTrap]

theorem groupsWf_parkFetch {s : State} (hs : Groups.wf s.groups = true) (key frag : Nat) (f : Fragment) (cause line : Nat) :
    Groups.wf (parkFetch s key frag f cause line).groups = true := by
  unfold parkFetch
  split
  · exact hs
  · split
    · exact hs
    · extract_lets rep r p
      split
      · exact groupsWf_terminate hs ..
      · exact groupsWf_modGroup hs key fun _ h => h

theorem groupsWf_fetchFault {s : State} (hs : Groups.wf s.groups = true) (key frag : Nat) (f : Fragment) (ctx line : Nat) (t : Tr) :
    Groups.wf (fetchFault s key frag f ctx line t).groups = true := by
  unfold fetchFault
  grind only [groupsWf_deliver, groupsWf_parkFetch, groupsWf_terminate]

theorem groupsWf_deliverNev {s : State} (hs : Groups.wf s.groups = true) (key frag : Nat) (tm : Team) (g : Group) (t : DWord × Nat) :
    Groups.wf (deliverNev s key frag tm g t).groups = true := by
  unfold deliverNev
  split
  · exact hs
  · refine groupsWf_takeTrap ?_ ..
    exact groupsWf_modGroup hs key fun _ h => h

theorem groupsWf_deliverLate {s : State} (hs : Groups.wf s.groups = true) (key frag : Nat) (tm : Team) (g : Group) (pc : DWord)
    (x : LateTrap) : Groups.wf (deliverLate s key frag tm g pc x).groups = true := by
  unfold deliverLate
  split
  · exact hs
  · refine groupsWf_takeTrap ?_ ..
    exact groupsWf_modGroup hs key fun _ h => h

theorem groupsWf_fetchFrag {s : State} (hs : Groups.wf s.groups = true) (key frag : Nat) :
    Groups.wf (fetchFrag s key frag).state.groups = true := by
  unfold fetchFrag
  split
  · exact hs
  · split
    · split
      · exact hs
      · split
        · exact groupsWf_deliverLate hs ..
        · split
          · exact groupsWf_deliverNev hs ..
          · split
            · exact groupsWf_deliver hs ..
            · split
              · exact hs
              · split
                · next hf => exact groupsWf_terminate (groupsWf_of_fetchLine hf hs) ..
                · next hf => exact groupsWf_fetchFault (groupsWf_of_fetchLine hf hs) ..
                · next s' hf =>
                  have hs' : Groups.wf s'.groups = true := groupsWf_of_fetchLine hf hs
                  split
                  · exact groupsWf_deliver hs' ..
                  · split
                    · exact groupsWf_deliver hs' ..
                    · split
                      · exact groupsWf_deliver hs' ..
                      · exact hs'
    · exact hs

theorem groupsWf_fetchParked {s : State} (hs : Groups.wf s.groups = true) (key pid : Nat) :
    Groups.wf (fetchParked s key pid).state.groups = true := by
  unfold fetchParked
  grind only [Ready.state, groupsWf_deferTrap]

@[simp] theorem modSeq_groups (s : State) (team : Nat) (f : Seq → Seq) : (modSeq s team f).groups = s.groups := rfl

theorem groupsWf_stopSeq {s : State} (hs : Groups.wf s.groups = true) (team code cause access addr detail : Nat) :
    Groups.wf (stopSeq s team code cause access addr detail).groups = true := by
  unfold stopSeq
  grind only [groupsWf_terminate, raise_groups, modSeq_groups]

theorem groupsWf_streamFault {s : State} (hs : Groups.wf s.groups = true) (team ctx line : Nat) (t : Tr) :
    Groups.wf (streamFault s team ctx line t).groups = true := by
  unfold streamFault
  grind only [groupsWf_stopSeq, groupsWf_terminate]

theorem groupsWf_fetchStream {s : State} (hs : Groups.wf s.groups = true) (team : Nat) :
    Groups.wf (fetchStream s team).state.groups = true := by
  unfold fetchStream
  repeat' split
  all_goals grind only [Ready.state, → groupsWf_of_fetchLine, groupsWf_stopSeq, groupsWf_streamFault, modSeq_groups]

/-! ### Machine/Flags -/

theorem groupsWf_orGstat {s : State} (hs : Groups.wf s.groups = true) (key bits : Nat) : Groups.wf (orGstat s key bits).groups = true :=
  groupsWf_modGroup hs key fun _ h => h

theorem groupsWf_orLanes {s : State} (hs : Groups.wf s.groups = true) (key : Nat) (lanes : List Nat) (bits : Nat) :
    Groups.wf (orLanes s key lanes bits).groups = true :=
  groupsWf_modGroup hs key fun _ h => wf_groupFoldl (fun _ _ h => wf_orLstat h _) lanes h

@[simp] theorem doneN_groups (c : Ctx) (d : BitVec 9) (n : Nat) (f : Nat → Nat) : (doneN c d n f).state.groups = c.s.groups := rfl

end Sys2Proof.Machine.Ops
end

section
/-! The register files of every group stay in canonical form (continued). Copies, pending stores, translations, the hub's operations, bank
modes and the control region. -/

namespace Sys2Proof.Machine.Ops

open Sys2Proof.Bits Sys2Proof.Num

/-! ### Machine/Memory -/

@[simp] theorem putCopy_groups (s : State) (c : LineCopy) : (putCopy s c).groups = s.groups := rfl

@[simp] theorem dropClean_groups (s : State) (holder line : Nat) : (dropClean s holder line).groups = s.groups := rfl

theorem groupsWf_lostLane {s : State} (hs : Groups.wf s.groups = true) (l : StcmLane) : Groups.wf (lostLane s l).groups = true := by
  unfold lostLane
  split <;> simp [groupsWf_terminate, hs]

theorem groupsWf_formVersion {s : State} (hs : Groups.wf s.groups = true) (l : StcmLane) : Groups.wf (formVersion s l).groups = true := by
  unfold formVersion
  grind only [backInvalidateSpan_groups, groupsWf_lostLane]

theorem groupsWf_formWaiting {s : State} (hs : Groups.wf s.groups = true) : Groups.wf (formWaiting s).groups = true :=
  groupsWf_foldl hs fun _ _ h => groupsWf_formVersion h ..

@[simp] theorem updateCopies_groups (s : State) (core id pa : Nat) (bs : List Byte) (mark : Bool) :
    (updateCopies s core id pa bs mark).groups = s.groups := rfl

@[simp] theorem noteRead_groups (s : State) (core pa : Nat) (bs : List Byte) : (noteRead s core pa bs).groups = s.groups := rfl

@[simp] theorem serveDie_groups (s : State) (d home pa : Nat) : (serveDie s d home pa).2.groups = s.groups := by
  unfold serveDie
  grind only [putCopy_groups]

@[simp] theorem serveLine_groups (s : State) (core home pa leaf : Nat) (l2only : Bool) :
    (serveLine s core home pa leaf l2only).2.groups = s.groups := by
  unfold serveLine
  grind only [noteRead_groups, dropClean_groups, serveDie_groups, putCopy_groups]

@[simp] theorem loadMem_groups (s : State) (core pa leaf n : Nat) (l2only : Bool) :
    (loadMem s core pa leaf n l2only).2.groups = s.groups := by
  unfold loadMem
  split <;> simp

@[simp] theorem loadSampler_groups (s : State) (core pa leaf n : Nat) : (loadSampler s core pa leaf n).2.groups = s.groups := by
  unfold loadSampler
  grind only [setCore_groups]

@[simp] theorem storeScratch_groups (s : State) (team off : Nat) (bs : List Byte) : (storeScratch s team off bs).groups = s.groups := rfl

theorem wf_mergeCr {g : Group} (h : Group.wf g = true) (ct : Nat → Nat) : Group.wf (mergeCr g ct) = true := h

theorem groupsWf_returnCt {s : State} (hs : Groups.wf s.groups = true) (key id launch : Nat) (ct : Nat → Nat) :
    Groups.wf (returnCt s key id launch ct).groups = true :=
  groupsWf_modGroup hs key fun _ h => wf_mergeCr h ct

@[simp] theorem acceptStore_groups (s : State) (key lane also core ctx launch pa : Nat) (l2 : Bool) (bs : List Byte) (after : Option Nat) :
    (acceptStore s key lane also core ctx launch pa l2 bs after).groups = s.groups := by
  unfold acceptStore
  repeat' split
  all_goals simp

@[simp] theorem acceptScratch_groups (s : State) (key lane also core ctx launch team off : Nat) (bs : List Byte) (after : Option Nat) :
    (acceptScratch s key lane also core ctx launch team off bs after).groups = s.groups := by
  unfold acceptScratch
  split <;> simp

theorem groupsWf_writeHome {s : State} (hs : Groups.wf s.groups = true) (core id pa : Nat) (bs : List Byte) :
    Groups.wf (writeHome s core id pa bs).groups = true := by
  unfold writeHome
  grind only [updateCopies_groups, writeBytes_groups]

@[simp] theorem cleanOf_groups (s : State) (id : Nat) : (cleanOf s id).groups = s.groups := rfl

@[simp] theorem backInvalidate_groups (s : State) (pa : Nat) : (backInvalidate s pa).groups = s.groups := rfl

theorem groupsWf_performStore {s : State} (hs : Groups.wf s.groups = true) (p : PStore) : Groups.wf (performStore s p).groups = true := by
  unfold performStore
  grind only [storeScratch_groups, groupsWf_terminate, dropForwards_groups, cleanOf_groups, groupsWf_writeHome, backInvalidate_groups,
      dropClean_groups, kickBanks_groups, groupsWf_returnCt]

@[simp] theorem beginRelease_groups (s : State) (c : Ctx) (scope hold : Nat) : (beginRelease s c scope hold).2.groups = s.groups := rfl

theorem groupsWf_translateLane {s : State} (hs : Groups.wf s.groups = true) (c : Ctx) (nd : Needs) (a : Acc) :
    Groups.wf (translateLane c s nd a).2.groups = true := by
  unfold translateLane
  extract_lets last
  split
  · split
    · exact hs
    · split
      · exact hs
      · refine groupsWf_modGroup ?_ c.key fun _ h => h
        rwa [noteTlb_groups]
  · exact hs

theorem groupsWf_translateAll {s : State} (hs : Groups.wf s.groups = true) (c : Ctx) (nd : Needs) (as : List Acc) :
    Groups.wf (translateAll c nd as s).2.groups = true := by
  induction as generalizing s with
  | nil => exact hs
  | cons a as ih => exact ih (groupsWf_translateLane hs ..)

theorem judge_groups {s : State} {nd : Needs} {ts : List (Acc × Tr)} {r : Res} (h : judge s nd ts = some r) :
    r.state.groups = s.groups := by
  unfold judge at h
  grind only [Res.state]

theorem addrFault_groups {s : State} {as : List Acc} {r : Res} (h : addrFault s as = some r) : r.state.groups = s.groups := by
  unfold addrFault at h
  grind only [Res.state]

theorem groupsWf_resolve_ok {c : Ctx} {s : State} {space member : Nat} {nd : Needs} {as : List Acc} {r : List (Acc × Place) × State}
    (h : resolve c s space member nd as = .ok r) (hs : Groups.wf s.groups = true) : Groups.wf r.2.groups = true := by
  unfold resolve at h
  grind only [groupsWf_translateAll]

theorem groupsWf_resolve_error {c : Ctx} {s : State} {space member : Nat} {nd : Needs} {as : List Acc} {r : Res}
    (h : resolve c s space member nd as = .error r) (hs : Groups.wf s.groups = true) : Groups.wf r.state.groups = true := by
  unfold resolve at h
  grind only [Res.state, addrFault_groups, groupsWf_translateAll, judge_groups]

theorem issueFails_groups {s : State} {nd : Needs} {lanes : Nat} {ts : List (Acc × Tr)} {r : Res} (h : issueFails s nd lanes ts = some r) :
    r.state.groups = s.groups := by
  obtain ⟨e, -, rfl⟩ := Option.map_eq_some_iff.1 h
  grind only [Res.state]

theorem groupsWf_issueTr_ok {c : Ctx} {s : State} {nd : Needs} {lanes ea : Nat} {r : Nat × Nat × State}
    (h : issueTr c s nd lanes ea = .ok r) (hs : Groups.wf s.groups = true) : Groups.wf r.2.2.groups = true := by
  unfold issueTr at h
  grind only [groupsWf_translateLane]

theorem issueFails_getD_groups (s : State) (nd : Needs) (lanes : Nat) (ts : List (Acc × Tr)) :
    ((issueFails s nd lanes ts).getD (.wait s)).state.groups = s.groups := by
  cases h : issueFails s nd lanes ts with
  | none => rfl
  | some r => exact issueFails_groups h

theorem groupsWf_issueTr_error {c : Ctx} {s : State} {nd : Needs} {lanes ea : Nat} {r : Res} (h : issueTr c s nd lanes ea = .error r)
    (hs : Groups.wf s.groups = true) : Groups.wf r.state.groups = true := by
  unfold issueTr at h
  grind only [Res.state, groupsWf_translateLane, issueFails_getD_groups]

theorem groupsWf_issueLoad_ok {c : Ctx} {nd : Needs} {lanes ea n : Nat} {r : List Byte × State}
    (h : issueLoad c nd lanes ea n = .ok r) (hc : Groups.wf c.s.groups = true) : Groups.wf r.2.groups = true := by
  unfold issueLoad at h
  grind only [→ groupsWf_issueTr_ok, loadMem_groups]

theorem groupsWf_issueLoad_error {c : Ctx} {nd : Needs} {lanes ea n : Nat} {r : Res} (h : issueLoad c nd lanes ea n = .error r)
    (hc : Groups.wf c.s.groups = true) : Groups.wf r.state.groups = true := by
  unfold issueLoad at h
  grind only [Res.state, → groupsWf_issueTr_ok, → groupsWf_issueTr_error]

/-! ### Machine/Hub -/

theorem groupsWf_sweepRange {s : State} (hs : Groups.wf s.groups = true) (ctx base len : Nat) :
    Groups.wf (sweepRange s ctx base len).groups = true := by
  unfold sweepRange
  refine Groups.wf_map hs fun e h => ?_
  split
  · exact h
  · exact h

@[simp] theorem writeInvctl_groups (s : State) (value : Nat) : (writeInvctl s value).groups = s.groups := by
  unfold writeInvctl
  split <;> rw [setCtl_groups]

theorem groupsWf_sweepOf {s : State} (hs : Groups.wf s.groups = true) (x : Nat) : Groups.wf (sweepOf s x).groups = true := by
  unfold sweepOf
  grind only [groupsWf_sweepRange]

@[simp] theorem unmarkLines_groups (s : State) : (unmarkLines s).groups = s.groups := rfl

@[simp] theorem dropSwaps_groups (s : State) : (dropSwaps s).groups = s.groups := rfl

theorem groupsWf_sweepDone {s : State} (hs : Groups.wf s.groups = true) : Groups.wf (sweepDone s).groups = true := by
  unfold sweepDone
  grind only [dropSwaps_groups, unmarkLines_groups, dropStamps_groups, groupsWf_sweepOf, setCtl_groups]

theorem groupsWf_continueAgent {s : State} (hs : Groups.wf s.groups = true) (r : Rec) : Groups.wf (continueAgent s r).groups = true := by
  unfold continueAgent
  repeat' split
  · exact hs
  · exact groupsWf_modGroup hs _ fun _ h => h
  · exact groupsWf_modGroup hs _ fun _ h => h
  all_goals exact hs

@[simp] theorem serveRecs_groups (s : State) (a : RecAgent) : (serveRecs s a).groups = s.groups := rfl

@[simp] theorem dropRec_groups (s : State) (id : Nat) : (dropRec s id).groups = s.groups := rfl

theorem groupsWf_replayRec {s : State} (hs : Groups.wf s.groups = true) (ctx seq : Nat) :
    Groups.wf (replayRec s ctx seq).groups = true := by
  unfold replayRec
  repeat' split
  all_goals grind only [groupsWf_continueAgent, serveRecs_groups, dropRec_groups]

@[simp] theorem failCopy_groups (s : State) (c cmd code : Nat) : (failCopy s c cmd code).groups = s.groups := rfl

theorem groupsWf_abandonRec {s : State} (hs : Groups.wf s.groups = true) (ctx seq : Nat) :
    Groups.wf (abandonRec s ctx seq).groups = true := by
  unfold abandonRec
  grind only [dropRec_groups, failCopy_groups, serveRecs_groups, groupsWf_terminate]

theorem groupsWf_writeReplay {s : State} (hs : Groups.wf s.groups = true) (value : Nat) :
    Groups.wf (writeReplay s value).groups = true := by
  unfold writeReplay
  grind only [setCtl_groups, groupsWf_replayRec, groupsWf_abandonRec]

@[simp] theorem writePreempt_groups (s : State) (value : Nat) : (writePreempt s value).groups = s.groups := by
  unfold writePreempt
  extract_lets s1
  have h1 : s1.groups = s.groups := setCtl_groups ..
  split
  · rw [settlePreempts_groups]
    split <;> exact h1
  · rw [setCtl_groups]

@[simp] theorem writeResume_groups (s : State) (value : Nat) : (writeResume s value).groups = s.groups := by
  unfold writeResume
  split
  · rw [settleResumes_groups, setCtl_groups]
  · rw [setCtl_groups]

@[simp] theorem migrationGo_groups (s : State) (ctx : Nat) : (migrationGo s ctx).groups = s.groups := by
  unfold migrationGo
  grind only [setCtl_groups]

@[simp] theorem writeMigctl_groups (s : State) (value : Nat) : (writeMigctl s value).groups = s.groups := by
  unfold writeMigctl
  split
  · split
    · rfl
    · exact migrationGo_groups ..
  · rw [setCtl_groups]

@[simp] theorem refreshSlices_groups (s : State) : (refreshSlices s).groups = s.groups := foldl_groups fun _ _ => setDie_groups ..

theorem groupsWf_swapFrames {s : State} (hs : Groups.wf s.groups = true) (m : Migration) : Groups.wf (swapFrames s m).groups = true := by
  unfold swapFrames
  refine Groups.wf_map ?_ fun _ h => h
  refine groupsWf_sweepRange ?_ ..
  rwa [hubWrite_groups]

theorem groupsWf_performReady {s : State} (hs : Groups.wf s.groups = true) (ps : List PStore) :
    Groups.wf (performReady s ps).groups = true :=
  groupsWf_foldl hs fun _ _ h => by grind only [groupsWf_performStore]

@[simp] theorem putWaiting_groups (m : Migration) (s : State) (w : Nat × List Byte) : (putWaiting m s w).groups = s.groups :=
  foldl_groups fun _ _ => hubPut_groups ..

theorem groupsWf_lostMigration {s : State} (hs : Groups.wf s.groups = true) (m : Migration) :
    Groups.wf (lostMigration s m).groups = true := by
  unfold lostMigration
  rw [setCtl_groups]
  refine groupsWf_terminate ?_ ..
  rwa [foldl_groups fun _ _ => hubPut_groups ..]

theorem groupsWf_migrationSwap {s : State} (hs : Groups.wf s.groups = true) : Groups.wf (migrationSwap s).groups = true := by
  unfold migrationSwap
  split
  · exact hs
  · next m _ =>
    have h0 : Groups.wf (m.waits.foldl (putWaiting m) (swapFrames s m)).groups = true :=
      by
      rw [foldl_groups fun _ _ => putWaiting_groups ..]
      exact groupsWf_swapFrames hs m
    split
    · exact hs
    · split
      · exact groupsWf_lostMigration hs m
      · dsimp only
        rw [raise_groups, setCtl_groups]
        refine groupsWf_performReady ?_ _
        split
        · exact groupsWf_formWaiting (by rwa [refreshSlices_groups])
        · exact h0

@[simp] theorem rereadContexts_groups (s : State) : (rereadContexts s).groups = s.groups := rfl

@[simp] theorem registerContext_groups (s : State) (value : Nat) : (registerContext s value).groups = s.groups := by
  unfold registerContext
  grind only [setContext_groups, setCtl_groups]

@[simp] theorem removeQueue_groups (s : State) (q : Nat) : (removeQueue s q).groups = s.groups := rfl

theorem groupsWf_finishLeaving {s : State} (hs : Groups.wf s.groups = true) (ctx : Nat) :
    Groups.wf (finishLeaving s ctx).groups = true := by
  unfold finishLeaving
  split
  · exact hs
  · split
    · exact hs
    · rw [setCtl_groups, dropStamps_groups]
      exact (congrArg (Groups.wf ·) (foldl_groups fun _ _ => removeQueue_groups ..)).trans hs

theorem groupsWf_unregisterContext {s : State} (hs : Groups.wf s.groups = true) (value : Nat) :
    Groups.wf (unregisterContext s value).groups = true := by
  unfold unregisterContext
  grind only [setCtl_groups, groupsWf_terminate, groupsWf_finishLeaving, setContext_groups]

theorem groupsWf_writeCtxcmd {s : State} (hs : Groups.wf s.groups = true) (value : Nat) :
    Groups.wf (writeCtxcmd s value).groups = true := by
  unfold writeCtxcmd
  grind only [registerContext_groups, groupsWf_unregisterContext]

@[simp] theorem registerQueue_groups (s : State) (value : Nat) : (registerQueue s value).groups = s.groups := by
  unfold registerQueue
  grind only [setQueue_groups, setCtl_groups]

@[simp] theorem unregisterQueue_groups (s : State) (value : Nat) : (unregisterQueue s value).groups = s.groups := by
  unfold unregisterQueue
  grind only [setCtl_groups, setQueue_groups]

@[simp] theorem writeQcmd_groups (s : State) (value : Nat) : (writeQcmd s value).groups = s.groups := by
  unfold writeQcmd
  repeat' split
  all_goals simp

theorem groupsWf_writeMemmap {s : State} (hs : Groups.wf s.groups = true) (r value : Nat) :
    Groups.wf (writeMemmap s r value).groups = true := by
  unfold writeMemmap
  grind only [remap_groups]

@[simp] theorem unmapAll_groups (s : State) : (unmapAll s).groups = s.groups := foldl_groups fun _ _ => remap_groups ..

theorem groupsWf_restart (s0 : State) (keep : Bool) : Groups.wf (restart s0 keep).groups = true := rfl

@[simp] theorem enterMinimal_groups (s : State) : (enterMinimal s).groups = s.groups :=
  foldl_groups (l := upto 8) fun _ _ => by split <;> simp

@[simp] theorem bootFailed_groups (s : State) (reason : Nat) : (bootFailed s reason).groups = s.groups := rfl

@[simp] theorem bootStart_groups (s : State) (c : BootChecks) : (bootStart s c).groups = s.groups := by
  unfold bootStart
  repeat' split
  all_goals simp

@[simp] theorem bootWatchdog_groups (s : State) : (bootWatchdog s).groups = s.groups := by
  unfold bootWatchdog
  split <;> simp

theorem groupsWf_writeBootctl {s : State} (hs : Groups.wf s.groups = true) (value : Nat) :
    Groups.wf (writeBootctl s value).groups = true := by
  unfold writeBootctl
  split <;> simp [groupsWf_restart, hs]

theorem groupsWf_writePwrctl {s : State} (hs : Groups.wf s.groups = true) (value : Nat) :
    Groups.wf (writePwrctl s value).groups = true := by
  unfold writePwrctl
  grind only [setCtl_groups, groupsWf_restart]

/-! ### Machine/Banks -/

theorem groupsWf_endRequest {s : State} (hs : Groups.wf s.groups = true) (c b : Nat) (r : ModeReq) (result code : Nat) :
    Groups.wf (endRequest s c b r result code).groups = true := by
  unfold endRequest
  split
  · exact hs
  · exact groupsWf_modGroup hs _ fun _ h => h

@[simp] theorem changeBank_groups (s : State) (c b : Nat) (r : ModeReq) : (changeBank s c b r).groups = s.groups := by
  unfold changeBank
  grind only [setBank_groups]

theorem groupsWf_serveBank {s : State} (hs : Groups.wf s.groups = true) (c b fuel : Nat) :
    Groups.wf (serveBank c b fuel s).groups = true := by
  induction fuel generalizing s with
  | zero => exact hs
  | succ fuel ih => unfold serveBank; grind only [groupsWf_endRequest, changeBank_groups, setBank_groups]

theorem groupsWf_requestMode {s : State} (hs : Groups.wf s.groups = true) (c b value : Nat) (who : Option (Nat × Nat)) :
    Groups.wf (requestMode s c b value who).groups = true := by
  unfold requestMode
  exact groupsWf_serveBank (by rwa [setBank_groups]) ..

theorem groupsWf_timeoutBank {s : State} (hs : Groups.wf s.groups = true) (c b : Nat) : Groups.wf (timeoutBank s c b).groups = true := by
  unfold timeoutBank
  grind only [groupsWf_serveBank, groupsWf_endRequest]

/-! ### Machine/Ctl -/

@[simp] theorem writeAcctag_groups (s : State) (k t value : Nat) : (writeAcctag s k t value).groups = s.groups := by
  unfold writeAcctag
  split <;> simp

@[simp] theorem writeTileWord_groups (s : State) (k t o value : Nat) : (writeTileWord s k t o value).groups = s.groups := by
  unfold writeTileWord
  split <;> simp

@[simp] theorem writeL2cls_groups (s : State) (d c value : Nat) : (writeL2cls s d c value).groups = s.groups := by
  unfold writeL2cls
  extract_lets at_ quota
  have each (f : State → Nat → Nat) : ((upto 4).foldl (fun s x => setCtl s (at_ x) (f s x)) s).groups = s.groups :=
    foldl_groups fun _ _ => setCtl_groups ..
  rw [apply_ite State.groups, each, each, ite_self]

theorem groupsWf_ctlWrite {s : State} (hs : Groups.wf s.groups = true) (host : Bool) (off size value : Nat) :
    Groups.wf (ctlWrite s host off size value).groups = true := by
  unfold ctlWrite
  grind only [setCtl_groups, writeInvctl_groups, groupsWf_writeReplay, writePreempt_groups, writeResume_groups, writeMigctl_groups,
      groupsWf_writeBootctl, groupsWf_writeCtxcmd, writeQcmd_groups, groupsWf_writePwrctl, groupsWf_writeMemmap, writeL2cls_groups,
      groupsWf_requestMode, writeAcctag_groups, writeTileWord_groups]

theorem groupsWf_performPending {s : State} (hs : Groups.wf s.groups = true) (p : PStore) :
    Groups.wf (performPending s p).groups = true := by
  unfold performPending
  split <;> simp [groupsWf_ctlWrite, groupsWf_performStore, hs]

end Sys2Proof.Machine.Ops
end

section
/-! The register files of every group stay in canonical form (continued). Loads, stores, FIFO accesses, atomics, reductions, fences,
gathers and cache control (classes 0x9 and 0xA). -/

namespace Sys2Proof.Machine.Ops

open Sys2Proof.Bits Sys2Proof.Num

/-! ### Machine/LoadStore -/

theorem groupsWf_access_ok {c : Ctx} {o : OpM} {nd : Needs} {as : List Acc} {r : List (Acc × Place) × State}
    (h : access c o nd as = .ok r) (hc : Groups.wf c.s.groups = true) : Groups.wf r.2.groups = true := by
  unfold access at h
  grind only [groupsWf_resolve_ok]

theorem groupsWf_access_error {c : Ctx} {o : OpM} {nd : Needs} {as : List Acc} {r : Res} (h : access c o nd as = .error r)
    (hc : Groups.wf c.s.groups = true) : Groups.wf r.state.groups = true := by
  unfold access at h
  grind only [groupsWf_resolve_error]

@[simp] theorem loadPlace_groups (c : Ctx) (sampler l2 uni : Bool) (s : State) (a : Acc) (p : Place) :
    (loadPlace c sampler l2 uni s a p).2.groups = s.groups := by
  unfold loadPlace
  grind only [loadSampler_groups, loadMem_groups]

@[simp] theorem loadPlaces_groups (c : Ctx) (sampler l2 uni : Bool) (ps : List (Acc × Place)) (s : State) :
    (loadPlaces c sampler l2 uni ps s).2.groups = s.groups := by
  induction ps generalizing s with
  | nil => rfl
  | cons p ps ih => exact (ih _).trans (loadPlace_groups ..)

theorem groupsWf_loadLanes {c : Ctx} (hc : Groups.wf c.s.groups = true) (o : OpM) (spaces : List Nat) (l2 : Bool) (bytes n : Nat)
    (value : List Byte → Nat) : Groups.wf (loadLanes c o spaces l2 bytes n value).state.groups = true := by
  unfold loadLanes
  grind only [Res.state, noEffect_groups, → groupsWf_access_ok, → groupsWf_access_error, loadPlaces_groups]

@[simp] theorem loadHalf_groups (c : Ctx) (sampler l2 : Bool) (hi : Nat) (s : State) (a : Acc) (p : Place) :
    (loadHalf c sampler l2 hi s a p).2.groups = s.groups := by
  unfold loadHalf
  split <;> simp

@[simp] theorem loadHalves_groups (c : Ctx) (sampler l2 : Bool) (hi : Nat) (ps : List (Acc × Place)) (s : State) :
    (loadHalves c sampler l2 hi ps s).2.groups = s.groups := by
  induction ps generalizing s with
  | nil => rfl
  | cons p ps ih => exact (ih _).trans (loadHalf_groups ..)

theorem groupsWf_loadTwice {c : Ctx} (hc : Groups.wf c.s.groups = true) (o : OpM) (l2 : Bool) :
    Groups.wf (loadTwice c o l2).state.groups = true := by
  unfold loadTwice
  grind only [Res.state, loadHalves_groups, noEffect_groups, → groupsWf_access_ok, → groupsWf_access_error, groupsWf_setStage]

theorem groupsWf_loadOnce {c : Ctx} (hc : Groups.wf c.s.groups = true) (o : OpM) (l2 : Bool) (bytes n : Nat) (value : List Byte → Nat) :
    Groups.wf (loadOnce c o l2 bytes n value).state.groups = true := by
  unfold loadOnce
  grind only [Res.state, noEffect_groups, → groupsWf_access_ok, → groupsWf_access_error, wholeMask_state, loadPlaces_groups]

theorem groupsWf_storePlace {s : State} (hs : Groups.wf s.groups = true) (c : Ctx) (l2 : Bool) (lane also : Nat) (bs : List Byte)
    (after : Option Nat) (p : Place) : Groups.wf (storePlace c l2 s lane also bs after p).groups = true := by
  cases p with
  | mem pa leaf => exact groupsWf_foldl hs fun s e h => by rwa [acceptStore_groups]
  | scr t off => exact groupsWf_foldl hs fun s e h => by rwa [acceptScratch_groups]
  | ctrl off => unfold storePlace; grind only [groupsWf_ctlWrite, acceptStore_groups]
  | _ => exact hs

theorem groupsWf_storePlaces (c : Ctx) (l2 : Bool) (after : Option Nat) (bytes : Acc → List Byte) (ps : List (Acc × Place)) {s : State}
    (hs : Groups.wf s.groups = true) : Groups.wf (storePlaces c l2 after bytes ps s).groups = true :=
  groupsWf_foldl hs fun _ _ h => groupsWf_storePlace h ..

theorem groupsWf_storeLanes {c : Ctx} (hc : Groups.wf c.s.groups = true) (o : OpM) (l2 : Bool) (bytes n : Nat) :
    Groups.wf (storeLanes c o l2 bytes n).state.groups = true := by
  unfold storeLanes
  grind only [Res.state, noEffect_groups, → groupsWf_access_ok, → groupsWf_access_error, groupsWf_storePlaces]

theorem groupsWf_storeOnce {c : Ctx} (hc : Groups.wf c.s.groups = true) (o : OpM) (l2 : Bool) (bytes n : Nat) :
    Groups.wf (storeOnce c o l2 bytes n).state.groups = true := by
  unfold storeOnce
  split
  · exact hc
  · split
    · next r h => rwa [wholeMask_state, groupsWf_access_error h]
    · next ps s h =>
      have hs : Groups.wf s.groups = true := by rwa [groupsWf_access_ok h]
      exact groupsWf_foldl hs fun _ _ h => groupsWf_storePlace h ..

@[simp] theorem fifoEnqueue_groups (c : Ctx) (s : State) (id : Nat) (push : Bool) (bs : List (Nat × List Nat)) :
    (fifoEnqueue c s id push bs).groups = s.groups := by
  unfold fifoEnqueue
  exact foldl_groups fun _ _ => rfl

@[simp] theorem fifoDequeue_groups (c : Ctx) (s : State) (id : Nat) (bs : List (Nat × List Nat)) :
    (fifoDequeue c s id bs).groups = s.groups := by
  unfold fifoDequeue
  exact foldl_groups fun _ _ => rfl

@[simp] theorem fifoPushAll_groups (c : Ctx) (o : OpM) (s : State) (bs : List (Nat × List Nat)) :
    (fifoPushAll c o s bs).groups = s.groups := by
  unfold fifoPushAll
  exact foldl_groups fun _ _ => rfl

@[simp] theorem fifoDropAll_groups (c : Ctx) (s : State) (bs : List (Nat × List Nat)) : (fifoDropAll c s bs).groups = s.groups := by
  unfold fifoDropAll
  exact foldl_groups fun _ _ => rfl

theorem groupsWf_fifoAccess {c : Ctx} (hc : Groups.wf c.s.groups = true) (o : OpM) (push place : Bool) {effect : State → List
    (Nat × List Nat) → Res} (he : ∀ s bs, (effect s bs).state.groups = s.groups) :
    Groups.wf (fifoAccess c o push place effect).state.groups = true := by
  unfold fifoAccess
  grind only [Res.state, noEffect_groups, → groupsWf_access_ok, → groupsWf_access_error, fifoDequeue_groups, fifoEnqueue_groups,
      groupsWf_setStage]

theorem groupsWf_execLd {s : State} (hs : Groups.wf s.groups = true) (h : Hdr) (o : OpM) : NextGroupsWf (execLd h o s) := by
  unfold execLd
  refine groupsWf_run (fun c hc => ?_) hs
  grind only [groupsWf_loadLanes]

theorem groupsWf_execSt {s : State} (hs : Groups.wf s.groups = true) (h : Hdr) (o : OpM) : NextGroupsWf (execSt h o s) :=
    groupsWf_run (fun _ hc => groupsWf_storeLanes hc ..) hs

theorem groupsWf_execLdacq {s : State} (hs : Groups.wf s.groups = true) (h : Hdr) (o : OpM) : NextGroupsWf (execLdacq h o s) := by
  unfold execLdacq
  refine groupsWf_run (fun c hc => ?_) hs
  grind only [groupsWf_loadLanes]

theorem groupsWf_execStrel {s : State} (hs : Groups.wf s.groups = true) (h : Hdr) (o : OpM) : NextGroupsWf (execStrel h o s) := by
  unfold execStrel
  refine groupsWf_run (fun c hc => ?_) hs
  grind only [Res.state, noEffect_groups, → groupsWf_access_ok, → groupsWf_access_error, beginRelease_groups, groupsWf_storePlaces]

theorem groupsWf_execLdk {s : State} (hs : Groups.wf s.groups = true) (h : Hdr) (o : OpM) : NextGroupsWf (execLdk h o s) := by
  unfold execLdk
  refine groupsWf_run (fun c hc => ?_) hs
  grind only [groupsWf_loadOnce]

theorem groupsWf_execStk {s : State} (hs : Groups.wf s.groups = true) (h : Hdr) (o : OpM) : NextGroupsWf (execStk h o s) :=
  groupsWf_run (fun _ hc => groupsWf_storeOnce hc ..) hs

theorem groupsWf_execLdw {s : State} (hs : Groups.wf s.groups = true) (h : Hdr) (o : OpM) : NextGroupsWf (execLdw h o s) := by
  unfold execLdw
  refine groupsWf_run (fun c hc => ?_) hs
  grind only [groupsWf_loadLanes, groupsWf_loadTwice]

theorem groupsWf_execStw {s : State} (hs : Groups.wf s.groups = true) (h : Hdr) (o : OpM) : NextGroupsWf (execStw h o s) :=
  groupsWf_run (fun _ hc => groupsWf_storeLanes hc ..) hs

theorem groupsWf_execFpush {s : State} (hs : Groups.wf s.groups = true) (h : Hdr) (o : OpM) : NextGroupsWf (execFpush h o s) := by
  unfold execFpush
  refine groupsWf_run (fun c hc => ?_) hs
  grind only [Res.state, groupsWf_fifoAccess, kickBanks_groups, fifoPushAll_groups]

theorem groupsWf_execFpop {s : State} (hs : Groups.wf s.groups = true) (h : Hdr) (o : OpM) : NextGroupsWf (execFpop h o s) := by
  unfold execFpop
  refine groupsWf_run (fun c hc => ?_) hs
  grind only [Res.state, groupsWf_fifoAccess, kickBanks_groups, fifoDropAll_groups]

theorem groupsWf_execFpeek {s : State} (hs : Groups.wf s.groups = true) (h : Hdr) (o : OpM) : NextGroupsWf (execFpeek h o s) := by
  unfold execFpeek
  refine groupsWf_run (fun c hc => ?_) hs
  grind only [Res.state, groupsWf_fifoAccess]

theorem groupsWf_execPref {s : State} (hs : Groups.wf s.groups = true) (h : Hdr) (o : OpM) :
    NextGroupsWf (execPref h o s) := groupsWf_run (fun c hc => by
    split
    · exact hc
    · split
      · exact hc
      · exact groupsWf_foldl hc fun s a hs => by grind only [loadSampler_groups, loadMem_groups]) hs

theorem groupsWf_execFifoWaitServed {s : State} (hs : Groups.wf s.groups = true) (cluster : Nat) (bank : Nat) :
    NextGroupsWf (execFifoWaitServed cluster bank s) := nextGroupsWf_next hs

/-! ### Machine/Atomic -/

theorem groupsWf_homeAt {s : State} (hs : Groups.wf s.groups = true) (core pa n : Nat) (f : Nat → Option Nat) :
    Groups.wf (homeAt s core pa n f).2.2.groups = true := by
  unfold homeAt
  grind only [noteRead_groups, groupsWf_writeHome, backInvalidate_groups]

theorem groupsWf_homeStep {s : State} (hs : Groups.wf s.groups = true) (key core launch pa n : Nat) (f : Nat → Option Nat) :
    Groups.wf (homeStep s key core launch pa n f).2.groups = true := by
  unfold homeStep
  exact groupsWf_returnCt (groupsWf_homeAt hs ..) ..

theorem groupsWf_placeStep {s : State} (hs : Groups.wf s.groups = true) (c : Ctx) (n : Nat) (f : Nat → Option Nat) (p : Place) :
    Groups.wf (placeStep c s n f p).2.groups = true := by
  unfold placeStep
  grind only [groupsWf_homeStep, storeScratch_groups, groupsWf_ctlWrite]

theorem groupsWf_placeSteps (c : Ctx) (n : Nat) (f : Nat → Nat → Option Nat) (ps : List (Acc × Place)) {s : State}
    (hs : Groups.wf s.groups = true) : Groups.wf (placeSteps c n f ps s).2.groups = true := by
  induction ps generalizing s with
  | nil => exact hs
  | cons p ps ih => exact ih (groupsWf_placeStep hs ..)

theorem groupsWf_atomLanes {c : Ctx} (hc : Groups.wf c.s.groups = true) (o : OpM) (n : Nat) (f : Nat → Nat → Option Nat) :
    Groups.wf (atomLanes c o n f).state.groups = true := by
  unfold atomLanes
  grind only [Res.state, noEffect_groups, → groupsWf_access_ok, → groupsWf_access_error, groupsWf_placeSteps]

theorem groupsWf_requestModes {s : State} (hs : Groups.wf s.groups = true) (c : Ctx) (v : Nat → Nat) (ps : List (Acc × Place)) :
    Groups.wf (requestModes c v ps s).groups = true := groupsWf_foldl hs fun s e h => by
    split
    · exact groupsWf_requestMode h ..
    · exact h

theorem groupsWf_forgetModes {s : State} (hs : Groups.wf s.groups = true) (c : Ctx) :
    Groups.wf (forgetModes c s).groups = true := groupsWf_modGroup hs c.key fun _ h => h

theorem groupsWf_modesDone {s : State} (hs : Groups.wf s.groups = true) (c : Ctx) (o : OpM) (v : Nat → Nat) (id : Nat)
    (ps : List (Acc × Place)) :
    Groups.wf (modesDone c o v id ps s).state.groups = true := by
  unfold modesDone
  grind only [Res.state, groupsWf_forgetModes, groupsWf_placeSteps]

theorem groupsWf_exchange {c : Ctx} (hc : Groups.wf c.s.groups = true) (o : OpM) : Groups.wf (exchange c o).state.groups = true := by
  unfold exchange
  grind only [Res.state, groupsWf_modesDone, noEffect_groups, → groupsWf_access_ok, → groupsWf_access_error, groupsWf_atomLanes,
      groupsWf_forgetModes, groupsWf_setStage, groupsWf_requestModes]

theorem groupsWf_drainDets {s : State} (hs : Groups.wf s.groups = true) (team : Nat) (flusher : Option Nat) :
    Groups.wf (drainDets s team flusher).groups = true := by
  unfold drainDets
  split
  · exact hs
  · refine groupsWf_foldl hs (fun s x h => ?_)
    split
    · exact h
    · split
      · exact groupsWf_terminate h ..
      · split
        · exact groupsWf_modGroup (groupsWf_returnCt (groupsWf_homeAt h ..) ..) _ fun _ h => wf_mergeCr h _
        · exact groupsWf_returnCt (groupsWf_homeAt h ..) ..

theorem groupsWf_countDet {s : State} (hs : Groups.wf s.groups = true) (key : Nat) :
    Groups.wf (countDet s key).groups = true := groupsWf_modGroup hs key fun _ h => h

theorem groupsWf_redLanes {c : Ctx} (hc : Groups.wf c.s.groups = true) (o : OpM) (h : Hdr) (float det : Bool) :
    Groups.wf (redLanes c o h float det).state.groups = true := by
  unfold redLanes
  extract_lets fmt op regs step
  split
  · split
    · exact groupsWf_countDet hc ..
    · exact hc
  · split
    · next h => exact groupsWf_access_error h hc
    · next ps s h =>
      have hs : Groups.wf s.groups = true := groupsWf_access_ok h hc
      split
      · extract_lets entry
        split
        · exact hs
        · exact groupsWf_countDet hs ..
      · split
        · exact hs
        · exact groupsWf_placeSteps _ _ _ _ hs

@[simp] theorem modCores_groups (s : State) (scope core : Nat) (f : Core → Core) : (modCores s scope core f).groups = s.groups := rfl

@[simp] theorem dropSampler_groups (s : State) (scope core : Nat) : (dropSampler s scope core).groups = s.groups := rfl

theorem groupsWf_cachePas_ok {c : Ctx} {o : OpM} {spaces : List Nat} {r : List Nat × State} (h : cachePas c o spaces = .ok r)
    (hc : Groups.wf c.s.groups = true) : Groups.wf r.2.groups = true := by
  unfold cachePas at h
  grind only [groupsWf_translateAll]

theorem groupsWf_cachePas_error {c : Ctx} {o : OpM} {spaces : List Nat} {r : Res} (h : cachePas c o spaces = .error r)
    (hc : Groups.wf c.s.groups = true) : Groups.wf r.state.groups = true := by
  unfold cachePas at h
  grind only [Res.state, groupsWf_translateAll]

@[simp] theorem giveUp_groups (s : State) (scope core : Nat) (blk : Bool) (pas : List Nat) :
    (giveUp s scope core blk pas).groups = s.groups := rfl

@[simp] theorem dropNamed_groups (s : State) (scope core : Nat) (blk : Bool) (pas : List Nat) :
    (dropNamed s scope core blk pas).groups = s.groups := rfl

@[simp] theorem freeBytes_groups (s : State) (n : Nat) : (freeBytes s n).2.groups = s.groups := rfl

theorem groupsWf_discardLine {s : State} (hs : Groups.wf s.groups = true) (c : Ctx) (line : Nat) :
    Groups.wf (discardLine c s line).groups = true := by
  simp [discardLine, groupsWf_homeStep, hs]

@[simp] theorem noteWord_groups (c : Ctx) (s : State) (e : Acc × Place) : (noteWord c s e).groups = s.groups := by
  unfold noteWord
  repeat' split
  all_goals simp

theorem groupsWf_execAtom {s : State} (hs : Groups.wf s.groups = true) (h : Hdr) (o : OpM) : NextGroupsWf (execAtom h o s) := by
  unfold execAtom
  refine groupsWf_run (fun c hc => ?_) hs
  grind only [groupsWf_exchange, groupsWf_atomLanes]

theorem groupsWf_execAtomcas {s : State} (hs : Groups.wf s.groups = true) (h : Hdr) (o : OpM) : NextGroupsWf (execAtomcas h o s) := by
  unfold execAtomcas
  refine groupsWf_run (fun c hc => ?_) hs
  grind only [groupsWf_atomLanes]

theorem groupsWf_execAtomf {s : State} (hs : Groups.wf s.groups = true) (h : Hdr) (o : OpM) : NextGroupsWf (execAtomf h o s) :=
  groupsWf_run (fun _ hc => groupsWf_atomLanes hc ..) hs

theorem groupsWf_execRed {s : State} (hs : Groups.wf s.groups = true) (h : Hdr) (o : OpM) : NextGroupsWf (execRed h o s) :=
  groupsWf_run (fun _ hc => groupsWf_redLanes hc ..) hs

theorem groupsWf_execRedDet {s : State} (hs : Groups.wf s.groups = true) (h : Hdr) (o : OpM) : NextGroupsWf (execRedDet h o s) :=
  groupsWf_run (fun _ hc => groupsWf_redLanes hc ..) hs

theorem groupsWf_execRedf {s : State} (hs : Groups.wf s.groups = true) (h : Hdr) (o : OpM) : NextGroupsWf (execRedf h o s) :=
  groupsWf_run (fun _ hc => groupsWf_redLanes hc ..) hs

theorem groupsWf_execRedfDet {s : State} (hs : Groups.wf s.groups = true) (h : Hdr) (o : OpM) : NextGroupsWf (execRedfDet h o s) :=
  groupsWf_run (fun _ hc => groupsWf_redLanes hc ..) hs

theorem groupsWf_execDflush {s : State} (hs : Groups.wf s.groups = true) (h : Hdr) (o : OpS) : NextGroupsWf (execDflush h o s) := by
  unfold execDflush
  refine groupsWf_run (fun c hc => ?_) hs
  grind only [Res.state, noEffect_groups, groupsWf_drainDets]

theorem groupsWf_execFenceAcq {s : State} (hs : Groups.wf s.groups = true) (h : Hdr) (o : OpS) : NextGroupsWf (execFenceAcq h o s) := by
  unfold execFenceAcq
  refine groupsWf_run (fun c hc => ?_) hs
  grind only [Res.state, beginRelease_groups, noEffect_groups]

theorem groupsWf_execFenceRel {s : State} (hs : Groups.wf s.groups = true) (h : Hdr) (o : OpS) : NextGroupsWf (execFenceRel h o s) := by
  unfold execFenceRel
  refine groupsWf_run (fun c hc => ?_) hs
  grind only [Res.state, beginRelease_groups, noEffect_groups]

theorem groupsWf_execFenceAr {s : State} (hs : Groups.wf s.groups = true) (h : Hdr) (o : OpS) : NextGroupsWf (execFenceAr h o s) := by
  unfold execFenceAr
  refine groupsWf_run (fun c hc => ?_) hs
  grind only [Res.state, beginRelease_groups, noEffect_groups]

theorem groupsWf_execFenceSmp {s : State} (hs : Groups.wf s.groups = true) (h : Hdr) (o : OpS) : NextGroupsWf (execFenceSmp h o s) := by
  unfold execFenceSmp
  refine groupsWf_run (fun c hc => ?_) hs
  grind only [Res.state, beginRelease_groups, dropSampler_groups, noEffect_groups]

theorem groupsWf_execFwait {s : State} (hs : Groups.wf s.groups = true) (h : Hdr) (o : OpS) : NextGroupsWf (execFwait h o s) := by
  unfold execFwait
  refine groupsWf_run (fun c hc => ?_) hs
  grind only [Res.state, noEffect_groups, beginRelease_groups, groupsWf_setStage]

theorem groupsWf_execNgath {s : State} (hs : Groups.wf s.groups = true) (h : Hdr) (o : OpM) : NextGroupsWf (execNgath h o s) := by
  unfold execNgath
  refine groupsWf_run (fun c hc => ?_) hs
  have noted (ps : List (Acc × Place)) (s : State) : (ps.foldl (noteWord c) s).groups = s.groups :=
    foldl_groups fun _ _ => noteWord_groups ..
  grind only [Res.state, noEffect_groups, → groupsWf_access_ok, → groupsWf_access_error]

theorem groupsWf_execNscat {s : State} (hs : Groups.wf s.groups = true) (h : Hdr) (o : OpM) : NextGroupsWf (execNscat h o s) := by
  unfold execNscat
  refine groupsWf_run (fun c hc => ?_) hs
  grind only [Res.state, noEffect_groups, → groupsWf_access_ok, → groupsWf_access_error, groupsWf_storePlaces]

theorem groupsWf_execCwb {s : State} (hs : Groups.wf s.groups = true) (h : Hdr) (o : OpM) : NextGroupsWf (execCwb h o s) := by
  unfold execCwb
  refine groupsWf_run (fun c hc => ?_) hs
  grind only [Res.state, noEffect_groups, → groupsWf_cachePas_ok, → groupsWf_cachePas_error, giveUp_groups]

theorem groupsWf_execCinv {s : State} (hs : Groups.wf s.groups = true) (h : Hdr) (o : OpM) : NextGroupsWf (execCinv h o s) := by
  unfold execCinv
  refine groupsWf_run (fun c hc => ?_) hs
  grind only [Res.state, noEffect_groups, → groupsWf_cachePas_ok, → groupsWf_cachePas_error, modCores_groups, dropNamed_groups,
      giveUp_groups]

theorem groupsWf_execCdisc {s : State} (hs : Groups.wf s.groups = true) (h : Hdr) (o : OpM) : NextGroupsWf (execCdisc h o s) := by
  unfold execCdisc
  refine groupsWf_run (fun c hc => ?_) hs
  have discarded (lines : List Nat) {s : State} (hs : Groups.wf s.groups = true) : Groups.wf (lines.foldl (discardLine c) s).groups = true
      :=
    groupsWf_foldl hs fun _ _ h => groupsWf_discardLine h ..
  grind only [Res.state, noEffect_groups, → groupsWf_access_ok, → groupsWf_access_error, dropNamed_groups]

theorem groupsWf_execIcinv {s : State} (hs : Groups.wf s.groups = true) (h : Hdr) (o : OpM) : NextGroupsWf (execIcinv h o s) := by
  unfold execIcinv
  refine groupsWf_run (fun c hc => ?_) hs
  grind only [Res.state, noEffect_groups, → groupsWf_cachePas_ok, → groupsWf_cachePas_error, modCores_groups]

theorem groupsWf_execStorePerform {s : State} (hs : Groups.wf s.groups = true) (store : Nat) : NextGroupsWf (execStorePerform store s) := by
  refine nextGroupsWf_next ?_
  grind only [groupsWf_performPending]

theorem groupsWf_execReleaseComplete {s : State} (hs : Groups.wf s.groups = true) (release : Nat) :
    NextGroupsWf (execReleaseComplete release s) := by
  refine nextGroupsWf_next ?_
  grind only [dropSampler_groups]

theorem groupsWf_execLongLatencyResultLand {s : State} (hs : Groups.wf s.groups = true) (group : Nat) :
    NextGroupsWf (execLongLatencyResultLand group s) := nextGroupsWf_next (groupsWf_modGroup hs group fun _ h => wf_landClosed h)

end Sys2Proof.Machine.Ops
end

section
/-! The register files of every group stay in canonical form (continued). Classes 0x0 to 0x8: register instructions write registers only
through their completion; transfers move fragments, and arrivals drain reductions. -/

namespace Sys2Proof.Machine.Ops

open Sys2Proof.Bits Sys2Proof.Num

/-! ### Machine/Integer -/

section
variable {i : Instr} {h : Hdr} {o : OpR} {s : State} (hs : Groups.wf s.groups = true)
include hs

theorem groupsWf_unaryR {f : Nat → Nat} : NextGroupsWf (unaryR i h o f s) := by
  unfold unaryR
  exact groupsWf_run (fun _ hc => hc) hs

theorem groupsWf_binaryR {f : Nat → Nat → Nat} : NextGroupsWf (binaryR i h o f s) := by
  unfold binaryR
  exact groupsWf_run (fun _ hc => hc) hs

theorem groupsWf_ternaryR {f : Nat → Nat → Nat → Nat} : NextGroupsWf (ternaryR i h o f s) := by
  unfold ternaryR
  exact groupsWf_run (fun _ hc => hc) hs

theorem groupsWf_ternaryS {f : Nat → Nat → Nat → Nat} : NextGroupsWf (ternaryS i h o f s) := groupsWf_run (fun _ hc => hc) hs

theorem groupsWf_carryR {f : Nat → Nat → Bool → Nat × Bool} : NextGroupsWf (carryR i h o f s) := by
  unfold carryR
  exact groupsWf_run (fun _ hc => hc) hs

theorem groupsWf_divideR {os : List Opnd} {res : Ctx → List RegWrite} : NextGroupsWf (divideR i h o os res s) := by
  unfold divideR
  exact groupsWf_run (fun c hc => by grind only [Res.state, groupsWf_orLanes]) hs

theorem groupsWf_shiftR {f : Nat → Nat → Nat → Nat} : NextGroupsWf (shiftR i h o f s) := by
  unfold shiftR
  exact groupsWf_run (fun _ hc => hc) hs

theorem groupsWf_funnelR {f : Nat → Nat → Nat → Nat} : NextGroupsWf (funnelR i h o f s) := groupsWf_run (fun _ hc => hc) hs

theorem groupsWf_countR {f : Nat → Nat → Nat} : NextGroupsWf (countR i h o f s) := by
  unfold countR
  exact groupsWf_run (fun _ hc => hc) hs

theorem groupsWf_float1 {f : Nat → FRes} : NextGroupsWf (float1 i h o f s) := groupsWf_run (fun _ hc => hc) hs

theorem groupsWf_float2 {f : Nat → Nat → FRes} : NextGroupsWf (float2 i h o f s) := groupsWf_run (fun _ hc => hc) hs

theorem groupsWf_float3 {f : Nat → Nat → Nat → FRes} : NextGroupsWf (float3 i h o f s) := groupsWf_run (fun _ hc => hc) hs

theorem groupsWf_packedR {third : Bool} {f : FFmt → Nat → Nat → Nat → FRes} : NextGroupsWf (packedR i h o third f s) := by
  unfold packedR
  exact groupsWf_run (fun _ hc => hc) hs

theorem groupsWf_derivative {y : Bool} : NextGroupsWf (derivative i h o y s) := by
  unfold derivative
  exact groupsWf_run (fun c hc => by grind only [Res.state, groupsWf_orLanes]) hs

end

theorem groupsWf_execAdd {s : State} (hs : Groups.wf s.groups = true) (h : Hdr) (o : OpR) :
    NextGroupsWf (execAdd h o s) := groupsWf_binaryR hs

theorem groupsWf_execAddc {s : State} (hs : Groups.wf s.groups = true) (h : Hdr) (o : OpR) :
    NextGroupsWf (execAddc h o s) := groupsWf_carryR hs

theorem groupsWf_execSub {s : State} (hs : Groups.wf s.groups = true) (h : Hdr) (o : OpR) :
    NextGroupsWf (execSub h o s) := groupsWf_binaryR hs

theorem groupsWf_execSubb {s : State} (hs : Groups.wf s.groups = true) (h : Hdr) (o : OpR) :
    NextGroupsWf (execSubb h o s) := groupsWf_carryR hs

theorem groupsWf_execAddi {s : State} (hs : Groups.wf s.groups = true) (h : Hdr) (o : OpI) : NextGroupsWf (execAddi h o s) := by
  unfold execAddi
  exact groupsWf_run (fun _ hc => hc) hs

theorem groupsWf_execMul {s : State} (hs : Groups.wf s.groups = true) (h : Hdr) (o : OpR) :
    NextGroupsWf (execMul h o s) := groupsWf_binaryR hs

theorem groupsWf_execMulhi {s : State} (hs : Groups.wf s.groups = true) (h : Hdr) (o : OpR) :
    NextGroupsWf (execMulhi h o s) := groupsWf_binaryR hs

theorem groupsWf_execMulw {s : State} (hs : Groups.wf s.groups = true) (h : Hdr) (o : OpR) :
    NextGroupsWf (execMulw h o s) := groupsWf_run (fun _ hc => hc) hs

theorem groupsWf_execMad {s : State} (hs : Groups.wf s.groups = true) (h : Hdr) (o : OpR) :
    NextGroupsWf (execMad h o s) := groupsWf_ternaryR hs

theorem groupsWf_execMadw {s : State} (hs : Groups.wf s.groups = true) (h : Hdr) (o : OpR) :
    NextGroupsWf (execMadw h o s) := groupsWf_run (fun _ hc => hc) hs

theorem groupsWf_execDiv {s : State} (hs : Groups.wf s.groups = true) (h : Hdr) (o : OpR) : NextGroupsWf (execDiv h o s) := by
  unfold execDiv
  exact groupsWf_divideR hs

theorem groupsWf_execRem {s : State} (hs : Groups.wf s.groups = true) (h : Hdr) (o : OpR) : NextGroupsWf (execRem h o s) := by
  unfold execRem
  exact groupsWf_divideR hs

theorem groupsWf_execDivrem {s : State} (hs : Groups.wf s.groups = true) (h : Hdr) (o : OpR) : NextGroupsWf (execDivrem h o s) := by
  unfold execDivrem
  exact groupsWf_divideR hs

theorem groupsWf_execMin {s : State} (hs : Groups.wf s.groups = true) (h : Hdr) (o : OpR) :
    NextGroupsWf (execMin h o s) := groupsWf_binaryR hs

theorem groupsWf_execMax {s : State} (hs : Groups.wf s.groups = true) (h : Hdr) (o : OpR) :
    NextGroupsWf (execMax h o s) := groupsWf_binaryR hs

theorem groupsWf_execClamp {s : State} (hs : Groups.wf s.groups = true) (h : Hdr) (o : OpR) :
    NextGroupsWf (execClamp h o s) := groupsWf_ternaryR hs

theorem groupsWf_execAbs {s : State} (hs : Groups.wf s.groups = true) (h : Hdr) (o : OpR) :
    NextGroupsWf (execAbs h o s) := groupsWf_unaryR hs

theorem groupsWf_execSad {s : State} (hs : Groups.wf s.groups = true) (h : Hdr) (o : OpR) :
    NextGroupsWf (execSad h o s) := groupsWf_ternaryR hs

theorem groupsWf_execDot4 {s : State} (hs : Groups.wf s.groups = true) (h : Hdr) (o : OpR) :
    NextGroupsWf (execDot4 h o s) := groupsWf_ternaryS hs

theorem groupsWf_execDot2 {s : State} (hs : Groups.wf s.groups = true) (h : Hdr) (o : OpR) :
    NextGroupsWf (execDot2 h o s) := groupsWf_ternaryS hs

theorem groupsWf_execLea {s : State} (hs : Groups.wf s.groups = true) (h : Hdr) (o : OpR) :
    NextGroupsWf (execLea h o s) := groupsWf_run (fun _ hc => hc) hs

theorem groupsWf_execLeai {s : State} (hs : Groups.wf s.groups = true) (h : Hdr) (o : OpI) :
    NextGroupsWf (execLeai h o s) := groupsWf_run (fun _ hc => hc) hs

/-! ### Machine/Control -/

theorem groupsWf_targetFault {s : State} (hs : Groups.wf s.groups = true) (c : Ctx) (line : Nat) (t : Tr) :
    Groups.wf (targetFault c s line t).state.groups = true := by
  unfold targetFault
  grind only [Res.state, groupsWf_parkFetch]

theorem badForm_groups {c : Ctx} {s : State} {pc : DWord} {r : Res} (h : badForm c s pc = some r) : r.state.groups = s.groups := by
  unfold badForm at h
  grind only [Res.state]

theorem groupsWf_checkTarget_ok {s : State} (hs : Groups.wf s.groups = true) {c : Ctx} {pc : DWord} {r : State}
    (h : checkTarget c s pc = .ok r) :
    Groups.wf r.groups = true := by
  unfold checkTarget at h
  grind only [fetchLine_groups]

theorem groupsWf_checkTarget_error {s : State} (hs : Groups.wf s.groups = true) {c : Ctx} {pc : DWord} {r : Res}
    (h : checkTarget c s pc = .error r) :
    Groups.wf r.state.groups = true := by
  unfold checkTarget at h
  grind only [Res.state, badForm_groups, fetchLine_groups, groupsWf_targetFault]

theorem groupsWf_checkTargets_ok {c : Ctx} {pcs : List DWord} {s t : State} (hs : Groups.wf s.groups = true)
    (h : checkTargets c pcs s = .ok t) : Groups.wf t.groups = true := by
  induction pcs generalizing s with
  | nil => cases h; exact hs
  | cons pc rest ih => unfold checkTargets at h; grind only [→ groupsWf_checkTarget_ok]

theorem groupsWf_checkTargets_error {c : Ctx} {pcs : List DWord} {s : State} {r : Res} (hs : Groups.wf s.groups = true)
    (h : checkTargets c pcs s = .error r) : Groups.wf r.state.groups = true := by
  induction pcs generalizing s with
  | nil => cases h
  | cons pc rest ih => unfold checkTargets at h; grind only [→ groupsWf_checkTarget_ok, → groupsWf_checkTarget_error]

theorem wf_splitInto {g : Group} (h : Group.wf g = true) (c : Ctx) (parts : List (DWord × Nat)) (j : Option Nat) :
    Group.wf (splitInto c parts j g) = true := h

theorem groupsWf_transfer {c : Ctx} (hc : Groups.wf c.s.groups = true) (w : List RegWrite) (moves : List (Nat × DWord)) :
    Groups.wf (transfer c w moves).state.groups = true := by
  unfold transfer
  split
  · next h => exact groupsWf_checkTargets_error hc h
  · next s h =>
    have hs : Groups.wf s.groups = true := groupsWf_checkTargets_ok hc h
    have hw : ∀ g, Group.wf g = true → Group.wf (w.foldl writeReg g) = true := fun g hg => wf_writes hg w
    dsimp only
    split
    · exact groupsWf_modGroup hs c.key fun g hg => Group.wf_of_files (hw g hg) rfl rfl rfl rfl
    · split
      · split
        · exact hc
        · exact groupsWf_modGroup hs c.key fun g hg => wf_splitInto (hw g hg) ..
      · exact groupsWf_modGroup hs c.key fun g hg => wf_splitInto (hw g hg) ..

theorem groupsWf_branchX {i : Instr} {h : Hdr} {o : OpB} {s : State} (hs : Groups.wf s.groups = true) : NextGroupsWf (branchX i h o s) :=
  groupsWf_run (fun _ hc => groupsWf_transfer hc _ _) hs

theorem groupsWf_branchAll {i : Instr} {h : Hdr} {o : OpB} {taken : Ctx → Bool} {s : State} (hs : Groups.wf s.groups = true) :
    NextGroupsWf (branchAll i h o taken s) := groupsWf_run (fun c hc => by grind only [groupsWf_transfer, noEffect_groups]) hs

theorem groupsWf_setRecon {c : Ctx} (hc : Groups.wf c.s.groups = true) (pc : DWord) :
    Groups.wf (setRecon c pc).state.groups = true := groupsWf_modGroup hc c.key fun _ h => h

theorem groupsWf_execBra {s : State} (hs : Groups.wf s.groups = true) (h : Hdr) (o : OpB) : NextGroupsWf (execBra h o s) :=
    groupsWf_run (fun _ hc => groupsWf_transfer hc ..) hs

theorem groupsWf_execBrall {s : State} (hs : Groups.wf s.groups = true) (h : Hdr) (o : OpB) :
    NextGroupsWf (execBrall h o s) := groupsWf_branchAll hs

theorem groupsWf_execBrany {s : State} (hs : Groups.wf s.groups = true) (h : Hdr) (o : OpB) :
    NextGroupsWf (execBrany h o s) := groupsWf_branchAll hs

theorem groupsWf_execBrx {s : State} (hs : Groups.wf s.groups = true) (h : Hdr) (o : OpB) :
    NextGroupsWf (execBrx h o s) := groupsWf_branchX hs

theorem groupsWf_execCall {s : State} (hs : Groups.wf s.groups = true) (h : Hdr) (o : OpB) : NextGroupsWf (execCall h o s) :=
  groupsWf_run (fun _ hc => groupsWf_transfer hc ..) hs

theorem groupsWf_execCallx {s : State} (hs : Groups.wf s.groups = true) (h : Hdr) (o : OpB) : NextGroupsWf (execCallx h o s) :=
  groupsWf_run (fun _ hc => groupsWf_transfer hc ..) hs

theorem groupsWf_execRet {s : State} (hs : Groups.wf s.groups = true) (h : Hdr) (o : OpB) :
    NextGroupsWf (execRet h o s) := groupsWf_branchX hs

theorem groupsWf_execLoop {s : State} (hs : Groups.wf s.groups = true) (h : Hdr) (o : OpB) : NextGroupsWf (execLoop h o s) :=
  groupsWf_run (fun _ hc => groupsWf_transfer hc ..) hs

theorem groupsWf_execMrg {s : State} (hs : Groups.wf s.groups = true) (h : Hdr) (o : OpB) : NextGroupsWf (execMrg h o s) := by
  unfold execMrg
  refine groupsWf_run (fun c hc => ?_) hs
  grind only [groupsWf_setRecon, noEffect_groups]

theorem groupsWf_execMrgx {s : State} (hs : Groups.wf s.groups = true) (h : Hdr) (o : OpB) : NextGroupsWf (execMrgx h o s) := by
  unfold execMrgx
  refine groupsWf_run (fun c hc => ?_) hs
  grind only [→ badForm_groups, groupsWf_setRecon, noEffect_groups]

/-! ### Machine/Rendezvous -/

@[simp] theorem setRp_groups (s : State) (team n : Nat) (x : Rp) : (setRp s team n x).groups = s.groups := rfl

theorem groupsWf_supplyP {s : State} (hs : Groups.wf s.groups = true) (a : Arrival) (flag : Bool) :
    Groups.wf (supplyP s a flag).groups = true := by
  unfold supplyP
  split
  · exact hs
  · exact groupsWf_supply hs ..

theorem groupsWf_decideFlags {s : State} (hs : Groups.wf s.groups = true) (team n phase : Nat) :
    Groups.wf (decideFlags s team n phase).groups = true := groupsWf_foldl hs fun _ _ h => groupsWf_supplyP h ..

theorem groupsWf_settleRp {s : State} (hs : Groups.wf s.groups = true) (team n fuel : Nat) :
    Groups.wf (settleRp team n fuel s).groups = true := by
  induction fuel generalizing s with
  | zero => exact hs
  | succ fuel ih => unfold settleRp; grind only [groupsWf_decideFlags, setRp_groups]

@[simp] theorem forgetArrivals_groups (s : State) : (forgetArrivals s).groups = s.groups := rfl

theorem groupsWf_addPend {s : State} (hs : Groups.wf s.groups = true) (team n : Nat) (x : ℤ) :
    Groups.wf (addPend s team n x).groups = true := by
  unfold addPend
  split
  · exact hs
  · rw [forgetArrivals_groups]
    exact groupsWf_settleRp (by rwa [setRp_groups]) ..

theorem groupsWf_noteArrival {s : State} (hs : Groups.wf s.groups = true) (a : Arrival) (det : Bool) (phase : Word) (last : Bool) :
    Groups.wf (noteArrival s a det phase last).groups = true := by
  unfold noteArrival
  extract_lets a1 s1
  have h1 : Groups.wf s1.groups = true := hs
  split
  · exact h1
  · split
    · exact groupsWf_supply h1 ..
    · exact groupsWf_supplyP (groupsWf_supply h1 ..) ..

theorem groupsWf_countArrival {s : State} (hs : Groups.wf s.groups = true) (a : Arrival) : Groups.wf (countArrival s a).groups = true := by
  unfold countArrival
  grind only [setRp_groups, forgetArrivals_groups, groupsWf_settleRp, groupsWf_noteArrival]

theorem groupsWf_pendClosed {s : State} (hs : Groups.wf s.groups = true) (key : Nat) (names : List RegName) :
    Groups.wf (pendClosed s key names).2.groups = true := groupsWf_modGroup hs key fun _ h => h

theorem groupsWf_arrive {c : Ctx} (hc : Groups.wf c.s.groups = true) (o : OpR) (scope : Nat) :
    Groups.wf (arrive c o scope).2.groups = true := by
  unfold arrive
  grind only [groupsWf_drainDets, beginRelease_groups, groupsWf_pendClosed]

theorem groupsWf_yielded {c : Ctx} (hc : Groups.wf c.s.groups = true) :
    Groups.wf (yielded c).state.groups = true := groupsWf_modGroup hc c.key fun _ h => h

theorem groupsWf_sleepRes {c : Ctx} (hc : Groups.wf c.s.groups = true) (imm : Nat) : Groups.wf (sleepRes c imm).state.groups = true := by
  unfold sleepRes
  grind only [Res.state, noEffect_groups, groupsWf_yielded, groupsWf_setStage]

theorem groupsWf_execRpinit {s : State} (hs : Groups.wf s.groups = true) (h : Hdr) (o : OpI) : NextGroupsWf (execRpinit h o s) := by
  unfold execRpinit
  refine groupsWf_run (fun c hc => ?_) hs
  grind only [Res.state, illegal_groups, noEffect_groups, setRp_groups]

theorem groupsWf_execRparr {s : State} (hs : Groups.wf s.groups = true) (h : Hdr) (o : OpR) : NextGroupsWf (execRparr h o s) := by
  unfold execRparr
  refine groupsWf_run (fun c hc => ?_) hs
  grind only [Res.state, illegal_groups, noEffect_groups, groupsWf_arrive]

theorem groupsWf_execRpwait {s : State} (hs : Groups.wf s.groups = true) (h : Hdr) (o : OpR) : NextGroupsWf (execRpwait h o s) := by
  unfold execRpwait
  refine groupsWf_run (fun c hc => ?_) hs
  grind only [Res.state, illegal_groups, noEffect_groups, groupsWf_setStage]

theorem groupsWf_execRparw {s : State} (hs : Groups.wf s.groups = true) (h : Hdr) (o : OpR) : NextGroupsWf (execRparw h o s) := by
  unfold execRparw
  refine groupsWf_run (fun c hc => ?_) hs
  split
  · split
    · rw [Res.state_done, forgetArrivals_groups]
      exact groupsWf_setStage hc ..
    · exact hc
  · split
    · exact hc
    · split
      · exact hc
      · split
        · exact hc
        · exact groupsWf_modGroup (groupsWf_setStage (groupsWf_arrive hc ..) ..) c.key fun _ h => h

theorem groupsWf_execRpbytes {s : State} (hs : Groups.wf s.groups = true) (h : Hdr) (o : OpR) : NextGroupsWf (execRpbytes h o s) := by
  unfold execRpbytes
  refine groupsWf_run (fun c hc => ?_) hs
  grind only [Res.state, illegal_groups, noEffect_groups, groupsWf_addPend]

theorem groupsWf_execYield {s : State} (hs : Groups.wf s.groups = true) (h : Hdr) (o : OpS) : NextGroupsWf (execYield h o s) := by
  unfold execYield
  refine groupsWf_run (fun c hc => ?_) hs
  grind only [groupsWf_yielded, noEffect_groups]

theorem groupsWf_execYieldto {s : State} (hs : Groups.wf s.groups = true) (h : Hdr) (o : OpB) : NextGroupsWf (execYieldto h o s) := by
  unfold execYieldto
  refine groupsWf_run (fun c hc => ?_) hs
  grind only [Res.state, groupsWf_transfer, illegal_groups, noEffect_groups, groupsWf_setStage]

theorem groupsWf_execSleep {s : State} (hs : Groups.wf s.groups = true) (h : Hdr) (o : OpS) : NextGroupsWf (execSleep h o s) :=
  groupsWf_run (fun _ hc => groupsWf_sleepRes hc ..) hs

theorem groupsWf_execRendezvousArrivalCount {s : State} (hs : Groups.wf s.groups = true) (arrival : Nat) :
    NextGroupsWf (execRendezvousArrivalCount arrival s) := by
  refine nextGroupsWf_next ?_
  grind only [groupsWf_countArrival]

theorem groupsWf_execSleepExpiry {s : State} (hs : Groups.wf s.groups = true) (group : Nat) : NextGroupsWf (execSleepExpiry group s) := by
  refine nextGroupsWf_next ?_
  grind only

/-! ### Machine/Sys -/

@[simp] theorem setLimit_groups (s : State) (d v : Nat) : (setLimit s d v).groups = s.groups := rfl

theorem wf_writeLstat {g : Group} (h : Group.wf g = true) (c : Ctx) (x : Nat → Nat) : Group.wf (writeLstat c x g) = true := by
  refine wf_groupFoldl (fun g l hg => ?_) _ h
  obtain ⟨hv, hk, hp, hl⟩ := Group.wf_iff.1 hg
  exact Group.wf_iff.2 ⟨hv, hk, hp, Maps.set_canonical hl⟩

theorem groupsWf_sregWrite {c : Ctx} (hc : Groups.wf c.s.groups = true) (n : Nat) (x : Nat → Nat) :
    Groups.wf (sregWrite c n x).groups = true := by
  unfold sregWrite
  extract_lets v d
  have keep {f : Group → Group} (hf : ∀ g, Group.wf g = true → Group.wf (f g) = true) :
      Groups.wf (modGroup c.s c.key f).groups = true := groupsWf_modGroup hc c.key hf
  split
  · exact keep fun _ h => wf_writeLstat h c x
  · split
    · exact keep fun _ h => Group.wf_of_files h rfl rfl rfl rfl
    · split
      · rwa [setCore_groups]
      · split
        · exact keep fun _ h => Group.wf_of_files h rfl rfl rfl rfl
        · split
          · rwa [setLimit_groups]
          · split
            · rwa [setDie_groups]
            · split
              · exact keep fun _ h => Group.wf_of_files h rfl rfl rfl rfl
              · split
                · exact keep fun _ h => Group.wf_of_files h rfl rfl rfl rfl
                · exact hc

theorem wf_openRegion {g : Group} (h : Group.wf g = true) (c : Ctx) (n : Nat) (entry : List Byte) :
    Group.wf (openRegion c n entry g) = true := by
  unfold openRegion
  exact Group.wf_of_files (g := landAll g) (wf_landAll h) rfl rfl rfl rfl

theorem groupsWf_beginRegion {c : Ctx} (hc : Groups.wf c.s.groups = true) (n : Nat) : Groups.wf (beginRegion c n).state.groups = true := by
  unfold beginRegion
  grind only [Res.state, illegal_groups, → groupsWf_issueLoad_ok, → groupsWf_issueLoad_error, groupsWf_modGroup, wf_openRegion]

theorem groupsWf_execNop {s : State} (hs : Groups.wf s.groups = true) (h : Hdr) (o : OpS) :
    NextGroupsWf (execNop h o s) := groupsWf_run (fun _ hc => hc) hs

theorem groupsWf_execBrk {s : State} (hs : Groups.wf s.groups = true) (h : Hdr) (o : OpS) : NextGroupsWf (execBrk h o s) := by
  unfold execBrk
  refine groupsWf_run (fun c hc => ?_) hs
  grind only [Res.state, noEffect_groups]

theorem groupsWf_execSread {s : State} (hs : Groups.wf s.groups = true) (h : Hdr) (o : OpS) : NextGroupsWf (execSread h o s) := by
  unfold execSread
  refine groupsWf_run (fun c hc => ?_) hs
  grind only [Res.state, illegal_groups, doneN_groups]

theorem groupsWf_execSwrite {s : State} (hs : Groups.wf s.groups = true) (h : Hdr) (o : OpS) : NextGroupsWf (execSwrite h o s) := by
  unfold execSwrite
  refine groupsWf_run (fun c hc => ?_) hs
  grind only [Res.state, illegal_groups, groupsWf_sregWrite, noEffect_groups]

theorem groupsWf_execCycrd {s : State} (hs : Groups.wf s.groups = true) (h : Hdr) (o : OpR) :
    NextGroupsWf (execCycrd h o s) := groupsWf_run (fun _ hc => hc) hs

theorem groupsWf_execHint {s : State} (hs : Groups.wf s.groups = true) (h : Hdr) (o : OpS) :
    NextGroupsWf (execHint h o s) := groupsWf_run (fun _ hc => hc) hs

theorem groupsWf_execTrap {s : State} (hs : Groups.wf s.groups = true) (h : Hdr) (o : OpS) : NextGroupsWf (execTrap h o s) := by
  unfold execTrap
  refine groupsWf_run (fun c hc => ?_) hs
  grind only [Res.state, noEffect_groups]

theorem groupsWf_execRett {s : State} (hs : Groups.wf s.groups = true) (h : Hdr) (o : OpS) : NextGroupsWf (execRett h o s) := by
  unfold execRett
  refine groupsWf_run (fun c hc => ?_) hs
  grind only [Res.state, noEffect_groups, illegal_groups, → badForm_groups, groupsWf_returnFromTrap]

theorem groupsWf_execRgn {s : State} (hs : Groups.wf s.groups = true) (h : Hdr) (o : OpS) : NextGroupsWf (execRgn h o s) := by
  unfold execRgn
  refine groupsWf_run (fun c hc => ?_) hs
  grind only [groupsWf_beginRegion, noEffect_groups]

theorem groupsWf_execRgnend {s : State} (hs : Groups.wf s.groups = true) (h : Hdr) (o : OpS) : NextGroupsWf (execRgnend h o s) := by
  unfold execRgnend
  refine groupsWf_run (fun c hc => ?_) hs
  split
  · exact groupsWf_modGroup hc c.key fun _ h => h
  · exact hc

/-! ### Machine/Logic -/

theorem groupsWf_execAnd {s : State} (hs : Groups.wf s.groups = true) (h : Hdr) (o : OpR) :
    NextGroupsWf (execAnd h o s) := groupsWf_binaryR hs

theorem groupsWf_execOr {s : State} (hs : Groups.wf s.groups = true) (h : Hdr) (o : OpR) :
    NextGroupsWf (execOr h o s) := groupsWf_binaryR hs

theorem groupsWf_execXor {s : State} (hs : Groups.wf s.groups = true) (h : Hdr) (o : OpR) :
    NextGroupsWf (execXor h o s) := groupsWf_binaryR hs

theorem groupsWf_execNot {s : State} (hs : Groups.wf s.groups = true) (h : Hdr) (o : OpR) :
    NextGroupsWf (execNot h o s) := groupsWf_unaryR hs

theorem groupsWf_execTern {s : State} (hs : Groups.wf s.groups = true) (h : Hdr) (o : OpR) :
    NextGroupsWf (execTern h o s) := groupsWf_ternaryR hs

theorem groupsWf_execBini {s : State} (hs : Groups.wf s.groups = true) (h : Hdr) (o : OpI) : NextGroupsWf (execBini h o s) := by
  unfold execBini
  exact groupsWf_run (fun _ hc => hc) hs

theorem groupsWf_execShl {s : State} (hs : Groups.wf s.groups = true) (h : Hdr) (o : OpR) :
    NextGroupsWf (execShl h o s) := groupsWf_shiftR hs

theorem groupsWf_execShr {s : State} (hs : Groups.wf s.groups = true) (h : Hdr) (o : OpR) :
    NextGroupsWf (execShr h o s) := groupsWf_shiftR hs

theorem groupsWf_execSra {s : State} (hs : Groups.wf s.groups = true) (h : Hdr) (o : OpR) :
    NextGroupsWf (execSra h o s) := groupsWf_shiftR hs

theorem groupsWf_execFsl {s : State} (hs : Groups.wf s.groups = true) (h : Hdr) (o : OpR) :
    NextGroupsWf (execFsl h o s) := groupsWf_funnelR hs

theorem groupsWf_execFsr {s : State} (hs : Groups.wf s.groups = true) (h : Hdr) (o : OpR) :
    NextGroupsWf (execFsr h o s) := groupsWf_funnelR hs

theorem groupsWf_execPopc {s : State} (hs : Groups.wf s.groups = true) (h : Hdr) (o : OpR) :
    NextGroupsWf (execPopc h o s) := groupsWf_countR hs

theorem groupsWf_execClz {s : State} (hs : Groups.wf s.groups = true) (h : Hdr) (o : OpR) :
    NextGroupsWf (execClz h o s) := groupsWf_countR hs

theorem groupsWf_execBrev {s : State} (hs : Groups.wf s.groups = true) (h : Hdr) (o : OpR) :
    NextGroupsWf (execBrev h o s) := groupsWf_unaryR hs

theorem groupsWf_execBfx {s : State} (hs : Groups.wf s.groups = true) (h : Hdr) (o : OpR) : NextGroupsWf (execBfx h o s) := by
  unfold execBfx
  exact groupsWf_run (fun _ hc => hc) hs

theorem groupsWf_execBfi {s : State} (hs : Groups.wf s.groups = true) (h : Hdr) (o : OpR) : NextGroupsWf (execBfi h o s) := by
  unfold execBfi
  exact groupsWf_run (fun _ hc => hc) hs

theorem groupsWf_execPerm {s : State} (hs : Groups.wf s.groups = true) (h : Hdr) (o : OpR) :
    NextGroupsWf (execPerm h o s) := groupsWf_ternaryS hs

/-! ### Machine/Move -/

theorem groupsWf_execSetp {s : State} (hs : Groups.wf s.groups = true) (h : Hdr) (o : OpR) : NextGroupsWf (execSetp h o s) := by
  unfold execSetp
  exact groupsWf_run (fun _ hc => hc) hs

theorem groupsWf_execSetpi {s : State} (hs : Groups.wf s.groups = true) (h : Hdr) (o : OpI) : NextGroupsWf (execSetpi h o s) := by
  unfold execSetpi
  exact groupsWf_run (fun _ hc => hc) hs

theorem groupsWf_execFsetp {s : State} (hs : Groups.wf s.groups = true) (h : Hdr) (o : OpR) :
    NextGroupsWf (execFsetp h o s) := groupsWf_run (fun _ hc => hc) hs

theorem groupsWf_execPlop {s : State} (hs : Groups.wf s.groups = true) (h : Hdr) (o : OpR) :
    NextGroupsWf (execPlop h o s) := groupsWf_run (fun _ hc => hc) hs

theorem groupsWf_execSel {s : State} (hs : Groups.wf s.groups = true) (h : Hdr) (o : OpR) : NextGroupsWf (execSel h o s) := by
  unfold execSel
  exact groupsWf_run (fun _ hc => hc) hs

theorem groupsWf_execSeli {s : State} (hs : Groups.wf s.groups = true) (h : Hdr) (o : OpI) :
    NextGroupsWf (execSeli h o s) := groupsWf_run (fun _ hc => hc) hs

theorem groupsWf_execMov {s : State} (hs : Groups.wf s.groups = true) (h : Hdr) (o : OpR) : NextGroupsWf (execMov h o s) := by
  unfold execMov
  exact groupsWf_run (fun _ hc => hc) hs

theorem groupsWf_execMovi {s : State} (hs : Groups.wf s.groups = true) (h : Hdr) (o : OpI) : NextGroupsWf (execMovi h o s) := by
  unfold execMovi
  exact groupsWf_run (fun _ hc => hc) hs

theorem groupsWf_execP2r {s : State} (hs : Groups.wf s.groups = true) (h : Hdr) (o : OpR) :
    NextGroupsWf (execP2r h o s) := groupsWf_run (fun _ hc => hc) hs

theorem groupsWf_execRegToPred {s : State} (hs : Groups.wf s.groups = true) (h : Hdr) (o : OpR) : NextGroupsWf (execRegToPred h o s) := by
  unfold execRegToPred
  exact groupsWf_run (fun _ hc => hc) hs

/-! ### Machine/Exchange -/

theorem groupsWf_execShfl {s : State} (hs : Groups.wf s.groups = true) (h : Hdr) (o : OpR) : NextGroupsWf (execShfl h o s) := by
  unfold execShfl
  exact groupsWf_run (fun _ hc => hc) hs

theorem groupsWf_execShfli {s : State} (hs : Groups.wf s.groups = true) (h : Hdr) (o : OpI) : NextGroupsWf (execShfli h o s) := by
  unfold execShfli
  exact groupsWf_run (fun _ hc => hc) hs

theorem groupsWf_execVote {s : State} (hs : Groups.wf s.groups = true) (h : Hdr) (o : OpR) :
    NextGroupsWf (execVote h o s) := groupsWf_run (fun _ hc => hc) hs

theorem groupsWf_execPmask {s : State} (hs : Groups.wf s.groups = true) (h : Hdr) (o : OpR) :
    NextGroupsWf (execPmask h o s) := groupsWf_run (fun _ hc => hc) hs

theorem groupsWf_execLfold {s : State} (hs : Groups.wf s.groups = true) (h : Hdr) (o : OpR) : NextGroupsWf (execLfold h o s) := by
  unfold execLfold
  exact groupsWf_run (fun _ hc => hc) hs

theorem groupsWf_execMatchLanes {s : State} (hs : Groups.wf s.groups = true) (h : Hdr) (o : OpR) : NextGroupsWf (execMatchLanes h o s) := by
  unfold execMatchLanes
  exact groupsWf_run (fun _ hc => hc) hs

theorem groupsWf_execRdlane {s : State} (hs : Groups.wf s.groups = true) (h : Hdr) (o : OpR) : NextGroupsWf (execRdlane h o s) := by
  unfold execRdlane
  exact groupsWf_run (fun _ hc => hc) hs

theorem groupsWf_execDdx {s : State} (hs : Groups.wf s.groups = true) (h : Hdr) (o : OpR) :
    NextGroupsWf (execDdx h o s) := groupsWf_derivative hs

theorem groupsWf_execDdy {s : State} (hs : Groups.wf s.groups = true) (h : Hdr) (o : OpR) :
    NextGroupsWf (execDdy h o s) := groupsWf_derivative hs

/-! ### Machine/Float -/

theorem groupsWf_execFadd {s : State} (hs : Groups.wf s.groups = true) (h : Hdr) (o : OpR) :
    NextGroupsWf (execFadd h o s) := groupsWf_float2 hs

theorem groupsWf_execFsub {s : State} (hs : Groups.wf s.groups = true) (h : Hdr) (o : OpR) :
    NextGroupsWf (execFsub h o s) := groupsWf_float2 hs

theorem groupsWf_execFmul {s : State} (hs : Groups.wf s.groups = true) (h : Hdr) (o : OpR) :
    NextGroupsWf (execFmul h o s) := groupsWf_float2 hs

theorem groupsWf_execFma {s : State} (hs : Groups.wf s.groups = true) (h : Hdr) (o : OpR) :
    NextGroupsWf (execFma h o s) := groupsWf_float3 hs

theorem groupsWf_execFmin {s : State} (hs : Groups.wf s.groups = true) (h : Hdr) (o : OpR) :
    NextGroupsWf (execFmin h o s) := groupsWf_float2 hs

theorem groupsWf_execFmax {s : State} (hs : Groups.wf s.groups = true) (h : Hdr) (o : OpR) :
    NextGroupsWf (execFmax h o s) := groupsWf_float2 hs

theorem groupsWf_execFrnd {s : State} (hs : Groups.wf s.groups = true) (h : Hdr) (o : OpR) :
    NextGroupsWf (execFrnd h o s) := groupsWf_float1 hs

theorem groupsWf_execFclass {s : State} (hs : Groups.wf s.groups = true) (h : Hdr) (o : OpR) : NextGroupsWf (execFclass h o s) :=
  groupsWf_run (fun _ hc => hc) hs

theorem groupsWf_execFadd2 {s : State} (hs : Groups.wf s.groups = true) (h : Hdr) (o : OpR) :
    NextGroupsWf (execFadd2 h o s) := groupsWf_packedR hs

theorem groupsWf_execFmul2 {s : State} (hs : Groups.wf s.groups = true) (h : Hdr) (o : OpR) :
    NextGroupsWf (execFmul2 h o s) := groupsWf_packedR hs

theorem groupsWf_execFma2 {s : State} (hs : Groups.wf s.groups = true) (h : Hdr) (o : OpR) :
    NextGroupsWf (execFma2 h o s) := groupsWf_packedR hs

theorem groupsWf_execFdot2 {s : State} (hs : Groups.wf s.groups = true) (h : Hdr) (o : OpR) :
    NextGroupsWf (execFdot2 h o s) := groupsWf_float3 hs

theorem groupsWf_execFex2 {s : State} (hs : Groups.wf s.groups = true) (h : Hdr) (o : OpR) :
    NextGroupsWf (execFex2 h o s) := groupsWf_float1 hs

theorem groupsWf_execFlg2 {s : State} (hs : Groups.wf s.groups = true) (h : Hdr) (o : OpR) :
    NextGroupsWf (execFlg2 h o s) := groupsWf_float1 hs

theorem groupsWf_execFrcp {s : State} (hs : Groups.wf s.groups = true) (h : Hdr) (o : OpR) :
    NextGroupsWf (execFrcp h o s) := groupsWf_float1 hs

theorem groupsWf_execFrsq {s : State} (hs : Groups.wf s.groups = true) (h : Hdr) (o : OpR) :
    NextGroupsWf (execFrsq h o s) := groupsWf_float1 hs

theorem groupsWf_execFsin {s : State} (hs : Groups.wf s.groups = true) (h : Hdr) (o : OpR) :
    NextGroupsWf (execFsin h o s) := groupsWf_float1 hs

theorem groupsWf_execFcos {s : State} (hs : Groups.wf s.groups = true) (h : Hdr) (o : OpR) :
    NextGroupsWf (execFcos h o s) := groupsWf_float1 hs

theorem groupsWf_execCvt {s : State} (hs : Groups.wf s.groups = true) (h : Hdr) (o : OpR) : NextGroupsWf (execCvt h o s) := by
  unfold execCvt
  exact groupsWf_run (fun _ hc => hc) hs

theorem groupsWf_execPack {s : State} (hs : Groups.wf s.groups = true) (h : Hdr) (o : OpR) :
    NextGroupsWf (execPack h o s) := groupsWf_run (fun _ hc => hc) hs

theorem groupsWf_execUnpack {s : State} (hs : Groups.wf s.groups = true) (h : Hdr) (o : OpR) : NextGroupsWf (execUnpack h o s) :=
  groupsWf_run (fun _ hc => hc) hs

theorem groupsWf_execQuant {s : State} (hs : Groups.wf s.groups = true) (h : Hdr) (o : OpR) :
    NextGroupsWf (execQuant h o s) := groupsWf_run (fun _ hc => hc) hs

theorem groupsWf_execDequant {s : State} (hs : Groups.wf s.groups = true) (h : Hdr) (o : OpR) : NextGroupsWf (execDequant h o s) :=
  groupsWf_run (fun _ hc => hc) hs

theorem groupsWf_execPack4 {s : State} (hs : Groups.wf s.groups = true) (h : Hdr) (o : OpR) :
    NextGroupsWf (execPack4 h o s) := groupsWf_run (fun _ hc => hc) hs

end Sys2Proof.Machine.Ops
end

section
/-! The register files of every group stay in canonical form (continued). The copy engine, buffer handles and `publish` (class 0xB). -/

namespace Sys2Proof.Machine.Ops

open Sys2Proof.Bits Sys2Proof.Num

/-! ### Machine/Copy -/

theorem groupsWf_engineWrite {s : State} (hs : Groups.wf s.groups = true) (cl pa leaf : Nat) (bs : List Byte) :
    Groups.wf (engineWrite s cl pa leaf bs).2.groups = true := by
  unfold engineWrite
  grind only [groupsWf_writeHome, backInvalidate_groups]

theorem engineRead_ok_groups {s : State} {ctx cl va n : Nat} {r : List Byte × State} (h : engineRead s ctx cl va n = .ok r) :
    r.2.groups = s.groups := by
  unfold engineRead at h
  grind only [loadMem_groups]

theorem readElem_ok_groups {s : State} {cl : Nat} {x : Copy} {row e : Nat} {r : Nat × State} (h : readElem s cl x row e = .ok r) :
    r.2.groups = s.groups := by
  unfold readElem at h
  grind only [→ engineRead_ok_groups]

theorem readUnit_ok_groups {s : State} {cl : Nat} {x : Copy} {u : Nat × Nat} {r : List Byte × State} (h : readUnit s cl x u = .ok r) :
    r.2.groups = s.groups := by
  unfold readUnit at h
  grind only [→ readElem_ok_groups]

theorem planChunk_groups {cl : Nat} {x : Copy} {us : List (Nat × Nat)} {s : State} {r : List (Place × List Byte) × State}
    (h : planChunk cl x us s = .ok r) : r.2.groups = s.groups := by
  induction us generalizing s r with
  | nil => cases h; rfl
  | cons u us ih => unfold planChunk at h; grind only [→ readUnit_ok_groups]

theorem groupsWf_writeChunk (cl : Nat) (ws : List (Place × List Byte)) {s : State} (hs : Groups.wf s.groups = true) :
    Groups.wf (writeChunk cl ws s).2.groups = true := by
  induction ws generalizing s with
  | nil => exact hs
  | cons w ws ih => unfold writeChunk; grind only [groupsWf_engineWrite, storeScratch_groups]

theorem pushChunk_groups {s : State} {cl b : Nat} {bs : List Byte} {r : State} (h : pushChunk s cl b bs = some r) :
    r.groups = s.groups := by
  unfold pushChunk at h
  grind only [setBank_groups]

theorem groupsWf_wakeStage {s : State} (hs : Groups.wf s.groups = true) (at_x st : Stage) :
    Groups.wf (wakeStage s at_x st).groups = true := Groups.wf_map hs fun _ h => h

theorem groupsWf_wakeYieldto {s : State} (hs : Groups.wf s.groups = true) (cl h : Nat) (st : Stage) :
    Groups.wf (wakeYieldto s cl h st).groups = true := by
  unfold wakeYieldto
  refine Groups.wf_map hs fun e h => ?_
  split
  · exact h
  · exact h

theorem groupsWf_releaseHandle {s : State} (hs : Groups.wf s.groups = true) (cl h : Nat) :
    Groups.wf (releaseHandle s cl h).groups = true := by
  unfold releaseHandle
  refine groupsWf_wakeYieldto ?_ ..
  exact groupsWf_foldl (by rwa [setHandle_groups]) fun _ _ h => groupsWf_wakeStage h ..

theorem groupsWf_fillHandle {s : State} (hs : Groups.wf s.groups = true) (cl h : Nat) : Groups.wf (fillHandle s cl h).groups = true := by
  unfold fillHandle
  refine groupsWf_wakeYieldto ?_ ..
  exact groupsWf_foldl (by rwa [setHandle_groups]) fun _ _ h => groupsWf_wakeStage h ..

theorem groupsWf_landHandle {s : State} (hs : Groups.wf s.groups = true) (cl h n : Nat) :
    Groups.wf (landHandle s cl h n).groups = true := by
  unfold landHandle
  grind only [setHandle_groups, groupsWf_fillHandle]

theorem groupsWf_freeTeamHandles {s : State} (hs : Groups.wf s.groups = true) (t : Nat) :
    Groups.wf (freeTeamHandles s t).groups = true := by
  refine groupsWf_foldl hs fun _ _ h => groupsWf_foldl h fun _ _ h => ?_
  split
  · exact groupsWf_releaseHandle h ..
  · exact h

@[simp] theorem dropTeam_groups (s : State) (t : Nat) (tm : Team) : (dropTeam s t tm).groups = s.groups := by
  unfold dropTeam
  grind only [setTeam_groups]

theorem groupsWf_settleTeam {s : State} (hs : Groups.wf s.groups = true) (t : Nat) : Groups.wf (settleTeam s t).groups = true := by
  unfold settleTeam
  grind only [groupsWf_drainDets, groupsWf_freeTeamHandles, modLaunch_groups, dropTeam_groups, kickBanks_groups, settleSwitches_groups]

@[simp] theorem modCopy_groups (s : State) (cl id : Nat) (f : Copy → Copy) : (modCopy s cl id f).groups = s.groups := rfl

@[simp] theorem dropCopy_groups (s : State) (cl id : Nat) : (dropCopy s cl id).groups = s.groups := rfl

@[simp] theorem finishCopy_groups (s : State) (cl : Nat) (x : Copy) : (finishCopy s cl x).groups = s.groups := by
  unfold finishCopy
  split <;> simp

theorem groupsWf_landChunk {s : State} (hs : Groups.wf s.groups = true) (cl : Nat) (x : Copy) :
    Groups.wf (landChunk s cl x).groups = true := by
  unfold landChunk
  grind only [modCopy_groups, groupsWf_addPend, kickBanks_groups, finishCopy_groups, groupsWf_landHandle, groupsWf_settleTeam]

theorem groupsWf_haltChunk {s : State} (hs : Groups.wf s.groups = true) (cl : Nat) (x : Copy) (w : Halt) :
    Groups.wf (haltChunk s cl x w).groups = true := by
  unfold haltChunk
  grind only [groupsWf_terminate, raise_groups, modCopy_groups]

theorem groupsWf_noteWritten {s : State} (hs : Groups.wf s.groups = true) (cl : Nat) (x : Copy) (ct : Nat × Nat) :
    Groups.wf (noteWritten s cl x ct).groups = true := by
  unfold noteWritten
  grind only [modCopy_groups, modLaunch_groups, groupsWf_landChunk]

theorem groupsWf_runChunk {s : State} (hs : Groups.wf s.groups = true) (cl : Nat) (x : Copy) :
    Groups.wf (runChunk s cl x).groups = true := by
  unfold runChunk
  grind only [→ planChunk_groups, groupsWf_haltChunk, → pushChunk_groups, groupsWf_noteWritten, groupsWf_writeChunk]

theorem groupsWf_retryChunk {s : State} (hs : Groups.wf s.groups = true) (cl : Nat) (x : Copy) (id : Nat) :
    Groups.wf (retryChunk s cl x id).groups = true := by
  unfold retryChunk
  grind only [groupsWf_runChunk, modCopy_groups]

theorem groupsWf_advanceCopy {s : State} (hs : Groups.wf s.groups = true) (cl : Nat) (x : Copy) :
    Groups.wf (advanceCopy s cl x).groups = true := by
  unfold advanceCopy
  grind only [groupsWf_retryChunk, groupsWf_landChunk, groupsWf_runChunk]

theorem groupsWf_writeSignal {s : State} (hs : Groups.wf s.groups = true) (cl ctx addr value : Nat) (queue : Option Nat) :
    Groups.wf (writeSignal s cl ctx addr value queue).2.groups = true := by
  unfold writeSignal
  grind only [groupsWf_engineWrite, groupsWf_terminate, devlog_groups]

theorem groupsWf_signalCopy {s : State} (hs : Groups.wf s.groups = true) (cl : Nat) (x : Copy) :
    Groups.wf (signalCopy s cl x).groups = true := by
  unfold signalCopy
  split <;> simp [groupsWf_writeSignal, hs]

theorem groupsWf_refill (cl fuel : Nat) {s : State} (hs : Groups.wf s.groups = true) : Groups.wf (refill cl fuel s).groups = true := by
  induction fuel generalizing s with
  | zero => exact hs
  | succ fuel ih => unfold refill; grind only [groupsWf_terminate, setCluster_groups]

theorem groupsWf_acceptCopy {s : State} (hs : Groups.wf s.groups = true) (cl : Nat) (x : Copy) :
    Groups.wf (acceptCopy s cl x).groups = true := by
  unfold acceptCopy
  grind only [setCluster_groups, groupsWf_terminate, hubWrite_groups]

theorem groupsWf_startCopy {s : State} (hs : Groups.wf s.groups = true) (cl : Nat) : Groups.wf (startCopy s cl).groups = true := by
  unfold startCopy
  grind only [modCopy_groups, setCluster_groups, groupsWf_refill, finishCopy_groups]

@[simp] theorem commitCopy_groups (s : State) (cl : Nat) (x : Copy) : (commitCopy s cl x).groups = s.groups := by
  unfold commitCopy
  split <;> simp

theorem groupsWf_issueCopy {s : State} (hs : Groups.wf s.groups = true) (c : Ctx) (y : Copy) :
    Groups.wf (issueCopy c s y).state.groups = true := by
  unfold issueCopy
  grind only [Res.state, illegal_groups, groupsWf_setStage, groupsWf_refill, beginRelease_groups, commitCopy_groups, groupsWf_addPend,
      groupsWf_acceptCopy]

theorem groupsWf_readPacket_ok {c : Ctx} {ea : Nat} {r : List Byte × State} (h : readPacket c ea = .ok r)
    (hc : Groups.wf c.s.groups = true) : Groups.wf r.2.groups = true := by
  unfold readPacket at h
  grind only [groupsWf_issueLoad_ok]

theorem groupsWf_readPacket_error {c : Ctx} {ea : Nat} {r : Res} (h : readPacket c ea = .error r) (hc : Groups.wf c.s.groups = true) :
    Groups.wf r.state.groups = true := by
  unfold readPacket at h
  grind only [illegal_groups, groupsWf_issueLoad_error]

theorem groupsWf_execCpy {s : State} (hs : Groups.wf s.groups = true) (h : Hdr) (o : OpR) : NextGroupsWf (execCpy h o s) := by
  unfold execCpy
  refine groupsWf_run (fun c hc => ?_) hs
  grind only [noEffect_groups, groupsWf_issueCopy]

theorem groupsWf_execCpyo {s : State} (hs : Groups.wf s.groups = true) (h : Hdr) (o : OpR) : NextGroupsWf (execCpyo h o s) := by
  unfold execCpyo
  refine groupsWf_run (fun c hc => ?_) hs
  grind only [noEffect_groups, groupsWf_issueCopy]

theorem groupsWf_execCpyq {s : State} (hs : Groups.wf s.groups = true) (h : Hdr) (o : OpR) : NextGroupsWf (execCpyq h o s) := by
  unfold execCpyq
  refine groupsWf_run (fun c hc => ?_) hs
  grind only [noEffect_groups, → groupsWf_readPacket_ok, → groupsWf_readPacket_error, illegal_groups, groupsWf_issueCopy]

theorem groupsWf_execCopyCommandStart {s : State} (hs : Groups.wf s.groups = true) (cluster : Nat) :
    NextGroupsWf (execCopyCommandStart cluster s) :=
  nextGroupsWf_next (groupsWf_startCopy hs ..)

theorem groupsWf_execCopyChunkLand {s : State} (hs : Groups.wf s.groups = true) (cluster : Nat) (command : Nat) :
    NextGroupsWf (execCopyChunkLand cluster command s) := by
  refine nextGroupsWf_next ?_
  grind only [groupsWf_advanceCopy]

theorem groupsWf_execCopySignalWrite {s : State} (hs : Groups.wf s.groups = true) (cluster : Nat) (command : Nat) :
    NextGroupsWf (execCopySignalWrite cluster command s) := by
  refine nextGroupsWf_next ?_
  grind only [groupsWf_signalCopy]

theorem groupsWf_execSpillRingRefill {s : State} (hs : Groups.wf s.groups = true) (cluster : Nat) :
    NextGroupsWf (execSpillRingRefill cluster s) := by
  refine nextGroupsWf_next ?_
  grind only [groupsWf_refill]

theorem groupsWf_execCespillbWrite {s : State} (hs : Groups.wf s.groups = true) (cluster : Nat) (value : Nat) :
    NextGroupsWf (execCespillbWrite cluster value s) := nextGroupsWf_next (groupsWf_ctlWrite hs ..)

/-! ### Machine/Handles -/

theorem groupsWf_awaitHandle {c : Ctx} (hc : Groups.wf c.s.groups = true) (r : BitVec 9) (kind : Nat) :
    Groups.wf (awaitHandle c r kind).state.groups = true := by
  unfold awaitHandle
  split
  · exact hc
  · exact groupsWf_setStage (by rwa [setHandle_groups]) ..

@[simp] theorem leaveHandle_groups (c : Ctx) (r : BitVec 9) : (leaveHandle c r).groups = c.s.groups := by
  unfold leaveHandle
  split <;> simp

theorem groupsWf_hallocRes {c : Ctx} (hc : Groups.wf c.s.groups = true) (o : OpR) : Groups.wf (hallocRes c o).state.groups = true := by
  unfold hallocRes
  grind only [Res.state, illegal_groups, groupsWf_setStage, setHandle_groups]

theorem groupsWf_hfreeRes {c : Ctx} (hc : Groups.wf c.s.groups = true) (o : OpR) : Groups.wf (hfreeRes c o).state.groups = true := by
  unfold hfreeRes
  grind only [Res.state, illegal_groups, groupsWf_awaitHandle, groupsWf_releaseHandle, leaveHandle_groups]

theorem groupsWf_takeRes {c : Ctx} (hc : Groups.wf c.s.groups = true) (o : OpR) : Groups.wf (takeRes c o).state.groups = true := by
  unfold takeRes
  grind only [Res.state, noEffect_groups, illegal_groups, leaveHandle_groups, setHandle_groups, groupsWf_awaitHandle]

theorem groupsWf_peekRes {c : Ctx} (hc : Groups.wf c.s.groups = true) (o : OpR) : Groups.wf (peekRes c o).state.groups = true := by
  unfold peekRes
  grind only [Res.state, noEffect_groups, illegal_groups, groupsWf_awaitHandle, leaveHandle_groups]

theorem groupsWf_publishTr_ok {c : Ctx} {pages : List Nat} {s : State} {r : State} (h : publishTr c pages s = .ok r)
    (hs : Groups.wf s.groups = true) : Groups.wf r.groups = true := by
  unfold publishTr at h
  grind only [groupsWf_translateAll]

theorem groupsWf_publishTr_error {c : Ctx} {pages : List Nat} {s : State} {r : Res} (h : publishTr c pages s = .error r)
    (hs : Groups.wf s.groups = true) : Groups.wf r.state.groups = true := by
  unfold publishTr at h
  grind only [groupsWf_translateAll, issueFails_groups]

theorem groupsWf_swapLeaf {s : State} (hs : Groups.wf s.groups = true) (ctx stamp : Nat) (e : Nat × Nat × Nat × Nat) :
    Groups.wf (swapLeaf ctx stamp s e).groups = true := by
  simp [swapLeaf, hubWrite_groups, hs]

theorem groupsWf_swapPublish {s : State} (hs : Groups.wf s.groups = true) (p : Publish) : Groups.wf (swapPublish s p).groups = true := by
  unfold swapPublish
  split
  · exact hs
  · dsimp only
    split
    · exact hs
    · dsimp only
      rw [groupsWf_sweepRange]
      exact groupsWf_foldl hs fun _ _ h => groupsWf_swapLeaf h ..

@[simp] theorem publishEnd_groups (c : Ctx) (o : OpR) (id : Nat) : (publishEnd c o id).state.groups = c.s.groups := by
  unfold publishEnd
  repeat' split
  all_goals simp

theorem groupsWf_publishRes {c : Ctx} (hc : Groups.wf c.s.groups = true) (h : Hdr) (o : OpR) :
    Groups.wf (publishRes c h o).state.groups = true := by
  unfold publishRes
  grind only [Res.state, illegal_groups, → groupsWf_publishTr_ok, → groupsWf_publishTr_error, groupsWf_setStage]

theorem groupsWf_execHalloc {s : State} (hs : Groups.wf s.groups = true) (h : Hdr) (o : OpR) : NextGroupsWf (execHalloc h o s) := by
  unfold execHalloc
  refine groupsWf_run (fun c hc => ?_) hs
  grind only [groupsWf_hallocRes, noEffect_groups]

theorem groupsWf_execHfree {s : State} (hs : Groups.wf s.groups = true) (h : Hdr) (o : OpR) : NextGroupsWf (execHfree h o s) := by
  unfold execHfree
  refine groupsWf_run (fun c hc => ?_) hs
  grind only [groupsWf_hfreeRes, noEffect_groups]

theorem groupsWf_execHwaitTake {s : State} (hs : Groups.wf s.groups = true) (h : Hdr) (o : OpR) : NextGroupsWf (execHwaitTake h o s) := by
  unfold execHwaitTake
  refine groupsWf_run (fun c hc => ?_) hs
  grind only [groupsWf_takeRes, noEffect_groups]

theorem groupsWf_execHwaitPeek {s : State} (hs : Groups.wf s.groups = true) (h : Hdr) (o : OpR) : NextGroupsWf (execHwaitPeek h o s) := by
  unfold execHwaitPeek
  refine groupsWf_run (fun c hc => ?_) hs
  grind only [groupsWf_peekRes, noEffect_groups]

theorem groupsWf_execHstat {s : State} (hs : Groups.wf s.groups = true) (h : Hdr) (o : OpR) : NextGroupsWf (execHstat h o s) := by
  unfold execHstat
  refine groupsWf_run (fun c hc => ?_) hs
  grind only [noEffect_groups, illegal_groups, doneN_groups]

theorem groupsWf_execPublish {s : State} (hs : Groups.wf s.groups = true) (h : Hdr) (o : OpR) : NextGroupsWf (execPublish h o s) :=
  groupsWf_run (fun c hc => by grind only [publishEnd_groups, groupsWf_publishRes, noEffect_groups]) hs

theorem groupsWf_execPublishSwap {s : State} (hs : Groups.wf s.groups = true) (publish : Nat) :
    NextGroupsWf (execPublishSwap publish s) := by
  refine nextGroupsWf_next ?_
  grind only [groupsWf_swapPublish]

end Sys2Proof.Machine.Ops
end

section
/-! The register files of every group stay in canonical form (continued). Matrix streams, transforms and network evaluation. -/

namespace Sys2Proof.Machine.Ops

open Sys2Proof.Bits Sys2Proof.Num

/-! ### Machine/Matrix -/

@[simp] theorem sIllegal_groups (s : State) : (sIllegal s).state.groups = s.groups := rfl

@[simp] theorem moveSeq_groups (s : State) (t : Nat) (pc : DWord → DWord) : (moveSeq s t pc).groups = s.groups := rfl

theorem groupsWf_finishSeq (t ctx : Nat) {r : SRes} (hr : Groups.wf r.state.groups = true) :
    Groups.wf (finishSeq t ctx r).groups = true := by
  cases r <;> unfold finishSeq
  all_goals grind only [SRes.state, moveSeq_groups, modSeq_groups, groupsWf_stopSeq, groupsWf_terminate]

theorem groupsWf_runSeqOf {s : State} (hs : Groups.wf s.groups = true) (t : Nat) (tm : Team) (q : Seq) (o : OpX) (arrives : Bool)
    {body : Nat → Team → Seq → State → SRes} (hb : ∀ q s, Groups.wf s.groups = true → Groups.wf (body t tm q s).state.groups = true) :
    Groups.wf (runSeqOf t tm q o arrives body s).groups = true := by
  unfold runSeqOf
  grind only [groupsWf_finishSeq, sIllegal_groups, modSeq_groups]

/-- A stream instruction keeps the form when its body does. -/
theorem groupsWf_runSeq {o : OpX} {arrives : Bool} {body : Nat → Team → Seq → State → SRes} {s : State}
    (hb : ∀ k tm q s, Groups.wf s.groups = true → Groups.wf (body k tm q s).state.groups = true) (hs : Groups.wf s.groups = true) :
    NextGroupsWf (runSeq o arrives body s) := by
  unfold runSeq
  split
  · split
    · exact nextGroupsWf_fault _
    · split
      · exact nextGroupsWf_fault _
      · exact nextGroupsWf_next (groupsWf_runSeqOf hs _ _ _ _ _ fun q s hs => hb _ _ q s hs)
  · exact nextGroupsWf_fault _

@[simp] theorem putTile_groups (s : State) (k t : Nat) (ws : List Word) : (putTile s k t ws).groups = s.groups := rfl

theorem claimTile_ok_groups {t : Nat} {tm : Team} {q : Seq} {l : Nat} {s : State} {r : Nat × State} (h : claimTile t tm q l s = .ok r) :
    r.2.groups = s.groups := by
  unfold claimTile at h
  grind only [putTile_groups, setCore_groups, modSeq_groups]

theorem claimTile_error_groups {t : Nat} {tm : Team} {q : Seq} {l : Nat} {s : State} {r : SRes} (h : claimTile t tm q l s = .error r) :
    r.state.groups = s.groups := by
  unfold claimTile at h
  grind only [SRes.state, sIllegal_groups]

@[simp] theorem mmaRes_groups (batched : Bool) (o : OpX) (t : Nat) (tm : Team) (q : Seq) (s : State) :
    (mmaRes batched o t tm q s).state.groups = s.groups := by
  unfold mmaRes
  grind only [SRes.state, sIllegal_groups, → claimTile_ok_groups, → claimTile_error_groups, modSeq_groups, putTile_groups]

@[simp] theorem setLatch_groups (s : State) (t fmt : Nat) (batched : Bool) (img : List Byte) (n : Nat) (block : List Byte) :
    (setLatch s t fmt batched img n block).state.groups = s.groups := rfl

@[simp] theorem mldbRes_groups (fmt : Nat) (o : OpX) (t : Nat) (tm : Team) (s : State) :
    (mldbRes fmt o t tm s).state.groups = s.groups := by
  unfold mldbRes
  grind only [SRes.state, sIllegal_groups, setLatch_groups]

@[simp] theorem mldbsRes_groups (fmt : Nat) (o : OpX) (t : Nat) (tm : Team) (s : State) :
    (mldbsRes fmt o t tm s).state.groups = s.groups := by
  unfold mldbsRes
  grind only [sIllegal_groups, setLatch_groups]

@[simp] theorem mscaleRes_groups (o : OpX) (t : Nat) (tm : Team) (s : State) : (mscaleRes o t tm s).state.groups = s.groups := by
  unfold mscaleRes
  grind only [SRes.state, sIllegal_groups, modSeq_groups]

@[simp] theorem mstaccRes_groups (o : OpX) (t : Nat) (tm : Team) (q : Seq) (s : State) :
    (mstaccRes o t tm q s).state.groups = s.groups := by
  unfold mstaccRes
  grind only [SRes.state, sIllegal_groups, → claimTile_ok_groups, → claimTile_error_groups, modTeam_groups]

@[simp] theorem mldaccRes_groups (o : OpX) (t : Nat) (tm : Team) (q : Seq) (s : State) :
    (mldaccRes o t tm q s).state.groups = s.groups := by
  unfold mldaccRes
  grind only [SRes.state, sIllegal_groups, → claimTile_ok_groups, → claimTile_error_groups, putTile_groups]

@[simp] theorem mzeroRes_groups (o : OpX) (t : Nat) (tm : Team) (q : Seq) (s : State) : (mzeroRes o t tm q s).state.groups = s.groups := by
  unfold mzeroRes
  grind only [SRes.state, → claimTile_ok_groups, → claimTile_error_groups, putTile_groups]

theorem groupsWf_checkStreamTarget_ok {s : State} (hs : Groups.wf s.groups = true) {tm : Team} {pc : DWord} {r : State}
    (h : checkStreamTarget tm pc s = .ok r) :
    Groups.wf r.groups = true := by
  unfold checkStreamTarget at h
  grind only [fetchLine_groups]

theorem groupsWf_checkStreamTarget_error {s : State} (hs : Groups.wf s.groups = true) {tm : Team} {pc : DWord} {r : SRes}
    (h : checkStreamTarget tm pc s = .error r) :
    Groups.wf r.state.groups = true := by
  unfold checkStreamTarget at h
  grind only [SRes.state, fetchLine_groups]

theorem groupsWf_mloopRes {s : State} (hs : Groups.wf s.groups = true) (o : OpX) (t : Nat) (tm : Team) (q : Seq) :
    Groups.wf (mloopRes o t tm q s).state.groups = true := by
  unfold mloopRes
  grind only [SRes.state, sIllegal_groups, modSeq_groups, groupsWf_checkStreamTarget_ok, groupsWf_checkStreamTarget_error]

theorem groupsWf_marrRes {s : State} (hs : Groups.wf s.groups = true) (o : OpX) (t : Nat) (tm : Team) :
    Groups.wf (marrRes o t tm s).state.groups = true := by
  unfold marrRes
  grind only [SRes.state, groupsWf_countArrival]

@[simp] theorem grantTo_groups (s : State) (k r : Nat) : (grantTo s k r).groups = s.groups := by
  unfold grantTo
  repeat' split
  all_goals simp

@[simp] theorem arbitrate_groups (s : State) (k : Nat) : (arbitrate s k).groups = s.groups := by
  unfold arbitrate
  grind only [grantTo_groups, setCore_groups]

theorem groupsWf_execMlda {s : State} (hs : Groups.wf s.groups = true) (h : Hdr) (o : OpX) : NextGroupsWf (execMlda h o s) := by
  refine groupsWf_runSeq (fun _ _ _ _ hs => ?_) hs
  grind only [SRes.state, modSeq_groups]

theorem groupsWf_execMldb {s : State} (hs : Groups.wf s.groups = true) (h : Hdr) (o : OpX) : NextGroupsWf (execMldb h o s) :=
  groupsWf_runSeq (fun _ _ _ _ hs => by rwa [mldbRes_groups]) hs

theorem groupsWf_execMldbs {s : State} (hs : Groups.wf s.groups = true) (h : Hdr) (o : OpX) : NextGroupsWf (execMldbs h o s) :=
  groupsWf_runSeq (fun _ _ _ _ hs => by rwa [mldbsRes_groups]) hs

theorem groupsWf_execMscale {s : State} (hs : Groups.wf s.groups = true) (h : Hdr) (o : OpX) : NextGroupsWf (execMscale h o s) :=
  groupsWf_runSeq (fun _ _ _ _ hs => by rwa [mscaleRes_groups]) hs

theorem groupsWf_execMma {s : State} (hs : Groups.wf s.groups = true) (h : Hdr) (o : OpX) : NextGroupsWf (execMma h o s) :=
  groupsWf_runSeq (fun _ _ _ _ hs => by rwa [mmaRes_groups]) hs

theorem groupsWf_execMmaBat {s : State} (hs : Groups.wf s.groups = true) (h : Hdr) (o : OpX) : NextGroupsWf (execMmaBat h o s) :=
  groupsWf_runSeq (fun _ _ _ _ hs => by rwa [mmaRes_groups]) hs

theorem groupsWf_execMzero {s : State} (hs : Groups.wf s.groups = true) (h : Hdr) (o : OpX) : NextGroupsWf (execMzero h o s) :=
  groupsWf_runSeq (fun _ _ _ _ hs => by rwa [mzeroRes_groups]) hs

theorem groupsWf_execMstacc {s : State} (hs : Groups.wf s.groups = true) (h : Hdr) (o : OpX) : NextGroupsWf (execMstacc h o s) :=
  groupsWf_runSeq (fun _ _ _ _ hs => by rwa [mstaccRes_groups]) hs

theorem groupsWf_execMldacc {s : State} (hs : Groups.wf s.groups = true) (h : Hdr) (o : OpX) : NextGroupsWf (execMldacc h o s) :=
  groupsWf_runSeq (fun _ _ _ _ hs => by rwa [mldaccRes_groups]) hs

theorem groupsWf_execMloop {s : State} (hs : Groups.wf s.groups = true) (h : Hdr) (o : OpX) : NextGroupsWf (execMloop h o s) :=
  groupsWf_runSeq (fun _ _ _ _ hs => groupsWf_mloopRes hs ..) hs

theorem groupsWf_execMarr {s : State} (hs : Groups.wf s.groups = true) (h : Hdr) (o : OpX) : NextGroupsWf (execMarr h o s) :=
  groupsWf_runSeq (fun _ _ _ _ hs => by rwa [groupsWf_marrRes]) hs

theorem groupsWf_execMwait {s : State} (hs : Groups.wf s.groups = true) (h : Hdr) (o : OpX) : NextGroupsWf (execMwait h o s) :=
    groupsWf_runSeq (fun _ _ _ _ hs => hs) hs

theorem groupsWf_execMend {s : State} (hs : Groups.wf s.groups = true) (h : Hdr) (o : OpX) : NextGroupsWf (execMend h o s) := by
  refine groupsWf_runSeq (fun _ _ _ _ hs => ?_) hs
  grind only [SRes.state, groupsWf_settleTeam, modSeq_groups]

theorem groupsWf_execMatrixArbiterGrant {s : State} (hs : Groups.wf s.groups = true) (core : Nat) :
    NextGroupsWf (execMatrixArbiterGrant core s) :=
  nextGroupsWf_next (by rwa [arbitrate_groups])

theorem groupsWf_execAcctagWrite {s : State} (hs : Groups.wf s.groups = true) (core : Nat) (tile : Nat) (value : Nat) :
    NextGroupsWf (execAcctagWrite core tile value s) := nextGroupsWf_next (groupsWf_ctlWrite hs ..)

theorem groupsWf_execAccWindowWrite {s : State} (hs : Groups.wf s.groups = true) (core : Nat) (tile : Nat) (offset : Nat) (value : Nat) :
    NextGroupsWf (execAccWindowWrite core tile offset value s) := nextGroupsWf_next (groupsWf_ctlWrite hs ..)

/-! ### Machine/Xform -/

theorem groupsWf_sendXf {c : Ctx} (hc : Groups.wf c.s.groups = true) (d : BitVec 9) (span : Nat) (f : Nat → Num.FRes) :
    Groups.wf (sendXf c d span f).state.groups = true := by
  unfold sendXf
  grind only [Res.state, noEffect_groups, setCore_groups, groupsWf_pend]

theorem groupsWf_runXf {i : Instr} {h : Hdr} {o : OpR} {dspan aspan : Nat} {more : List Opnd} {f : Ctx → Nat → FRes} {s : State}
    (hs : Groups.wf s.groups = true) :
    NextGroupsWf (runXf i h o dspan aspan more f s) := groupsWf_run (fun _ hc => groupsWf_sendXf hc ..) hs

@[simp] theorem xfGrant_groups (s : State) (k : Nat) : (xfGrant s k).groups = s.groups := by
  unfold xfGrant
  grind only [setCore_groups]

theorem groupsWf_xfReply {s : State} (hs : Groups.wf s.groups = true) (k : Nat) : Groups.wf (xfReply s k).groups = true := by
  unfold xfReply
  split
  · exact hs
  · exact groupsWf_supply (by rwa [setCore_groups]) ..

theorem groupsWf_execXfCvt {s : State} (hs : Groups.wf s.groups = true) (h : Hdr) (o : OpR) :
    NextGroupsWf (execXfCvt h o s) := groupsWf_runXf hs

theorem groupsWf_execXfQuant {s : State} (hs : Groups.wf s.groups = true) (h : Hdr) (o : OpR) :
    NextGroupsWf (execXfQuant h o s) := groupsWf_runXf hs

theorem groupsWf_execXfDequant {s : State} (hs : Groups.wf s.groups = true) (h : Hdr) (o : OpR) :
    NextGroupsWf (execXfDequant h o s) := groupsWf_runXf hs

theorem groupsWf_execXfRkey {s : State} (hs : Groups.wf s.groups = true) (h : Hdr) (o : OpR) :
    NextGroupsWf (execXfRkey h o s) := groupsWf_runXf hs

theorem groupsWf_execXfHash {s : State} (hs : Groups.wf s.groups = true) (h : Hdr) (o : OpR) :
    NextGroupsWf (execXfHash h o s) := groupsWf_runXf hs

theorem groupsWf_execXfPenc {s : State} (hs : Groups.wf s.groups = true) (h : Hdr) (o : OpR) :
    NextGroupsWf (execXfPenc h o s) := groupsWf_runXf hs

theorem groupsWf_execXfPipeGrant {s : State} (hs : Groups.wf s.groups = true) (core : Nat) : NextGroupsWf (execXfPipeGrant core s) :=
  nextGroupsWf_next (by rwa [xfGrant_groups])

theorem groupsWf_execXfPipeReply {s : State} (hs : Groups.wf s.groups = true) (core : Nat) : NextGroupsWf (execXfPipeReply core s) :=
  nextGroupsWf_next (by rwa [groupsWf_xfReply])

/-! ### Machine/Neval -/

@[simp] theorem readPart_groups (s : State) (ctx k : Nat) (gs : List Nat) (r : Nat × Nat) :
    (readPart s ctx k gs r).2.groups = s.groups := by
  unfold readPart
  repeat' split
  all_goals simp

@[simp] theorem readParts_groups (ctx k : Nat) (gs : List Nat) (rs : List (Nat × Nat)) (s : State) :
    (readParts ctx k gs rs s).2.groups = s.groups := by
  induction rs generalizing s with
  | nil => rfl
  | cons r rs ih => exact (ih _).trans (readPart_groups ..)

@[simp] theorem writeRing_groups (s : State) (k n : Nat) : (writeRing s k n).groups = s.groups := by
  induction n generalizing s with
  | zero => rfl
  | succ n ih => exact (ih _).trans (hubWrite_groups ..)

@[simp] theorem refillStation_groups (s : State) (k : Nat) : (refillStation s k).groups = s.groups := by
  unfold refillStation
  grind only [setCore_groups]

@[simp] theorem kickSlots_groups (s : State) (k : Nat) (p : NevReq → Bool) : (kickSlots s k p).groups = s.groups := rfl

theorem nevJudge_error_groups {c : Ctx} {ts : List (Acc × Tr)} {s : State} {r : Res} (h : nevJudge c ts s = .error r) :
    r.state.groups = s.groups := by
  unfold nevJudge at h
  grind only [Res.state]

theorem groupsWf_nevAccess_ok {c : Ctx} {s : State} {as : List Acc} {r : List (Acc × Nat × Nat) × State}
    (h : nevAccess c s as = .ok r) (hs : Groups.wf s.groups = true) : Groups.wf r.2.groups = true := by
  unfold nevAccess at h
  cases hj : nevJudge c (translateAll c nevNeeds as s).1 (translateAll c nevNeeds as s).2 with
  | error e => simp [hj, Except.map] at h
  | ok xs =>
    simp only [hj, Except.map, Except.ok.injEq] at h
    rw [← h]
    exact groupsWf_translateAll hs ..

theorem groupsWf_nevAccess_error {c : Ctx} {s : State} {as : List Acc} {r : Res} (h : nevAccess c s as = .error r)
    (hs : Groups.wf s.groups = true) : Groups.wf r.state.groups = true := by
  unfold nevAccess at h
  cases hj : nevJudge c (translateAll c nevNeeds as s).1 (translateAll c nevNeeds as s).2 with
  | error e =>
    simp only [hj, Except.map, Except.error.injEq] at h
    rw [← h, nevJudge_error_groups hj]
    exact groupsWf_translateAll hs ..
  | ok xs => simp [hj, Except.map] at h

@[simp] theorem nevLoads_groups (c : Ctx) (as : List (Acc × Nat × Nat)) (s : State) : (nevLoads c as s).2.groups = s.groups := by
  induction as generalizing s with
  | nil => rfl
  | cons a as ih => exact (ih _).trans (loadPlace_groups ..)

theorem groupsWf_nevDesc {s : State} (hs : Groups.wf s.groups = true) (c : Ctx) (desc : Nat → Nat) (l : Nat) :
    Groups.wf (nevDesc c desc l s).2.groups = true := by
  unfold nevDesc
  grind only [groupsWf_translateAll, nevLoads_groups]

theorem groupsWf_nevDescs {s : State} (hs : Groups.wf s.groups = true) (c : Ctx) (desc : Nat → Nat) (ls : List Nat) :
    Groups.wf (nevDescs c desc ls s).2.groups = true := by
  induction ls generalizing s with
  | nil => exact hs
  | cons l ls ih => exact ih (groupsWf_nevDesc hs ..)

theorem nevFail_groups {c : Ctx} {s : State} {ok : Nat → Bool} {r : Res} (h : nevFail c s ok = some r) : r.state.groups = s.groups := by
  unfold nevFail at h
  grind only [Res.state]

theorem groupsWf_nevEntries_ok {c : Ctx} {s : State} {as : List Acc} {r : List (Acc × Nat × Nat) × State}
    (h : nevEntries c s as = .ok r) (hs : Groups.wf s.groups = true) : Groups.wf r.2.groups = true := by
  unfold nevEntries at h
  grind only [groupsWf_nevAccess_ok]

theorem groupsWf_nevEntries_error {c : Ctx} {s : State} {as : List Acc} {r : Res} (h : nevEntries c s as = .error r)
    (hs : Groups.wf s.groups = true) : Groups.wf r.state.groups = true := by
  unfold nevEntries at h
  grind only [addrFault_groups, groupsWf_nevAccess_error]

theorem groupsWf_nevNets_ok {c : Ctx} {x : Context} (handle : Nat → Nat) {r : (Nat → Nat) × (Nat → List Byte) × State}
    (h : nevNets c x handle = .ok r) (hc : Groups.wf c.s.groups = true) : Groups.wf r.2.2.groups = true := by
  unfold nevNets at h
  grind only [→ groupsWf_nevEntries_ok, nevLoads_groups, groupsWf_nevDescs]

theorem groupsWf_nevNets_error {c : Ctx} {x : Context} (handle : Nat → Nat) {r : Res} (h : nevNets c x handle = .error r)
    (hc : Groups.wf c.s.groups = true) : Groups.wf r.state.groups = true := by
  unfold nevNets at h
  grind only [→ nevFail_groups, → groupsWf_nevEntries_ok, → groupsWf_nevEntries_error, nevLoads_groups, groupsWf_nevDescs,
      → nevJudge_error_groups]

theorem groupsWf_openNev {s : State} (hs : Groups.wf s.groups = true) (c : Ctx) (reqs : List (NevReq × Nat)) :
    Groups.wf (openNev c s reqs).groups = true := groupsWf_modGroup hs c.key fun _ h => h

theorem groupsWf_nevEnter {s : State} (hs : Groups.wf s.groups = true) (c : Ctx) (o : OpR) (entry : Nat → Nat) (net : Nat → List Byte) :
    Groups.wf (nevEnter c o entry net s).state.groups = true := by
  unfold nevEnter
  grind only [Res.state, nevFail_groups, refillStation_groups, setCore_groups, writeRing_groups, groupsWf_openNev]

theorem groupsWf_nevalRes {c : Ctx} (hc : Groups.wf c.s.groups = true) (o : OpR) : Groups.wf (nevalRes c o).state.groups = true := by
  unfold nevalRes
  grind only [Res.state, noEffect_groups, → groupsWf_nevNets_ok, → groupsWf_nevNets_error, groupsWf_nevEnter]

@[simp] theorem timerExpiry_groups (s : State) (k slot : Nat) : (timerExpiry s k slot).groups = s.groups := by
  simp [timerExpiry]

@[simp] theorem fireTile_groups (s : State) (k : Nat) : (fireTile s k).groups = s.groups := by
  unfold fireTile
  grind only [refillStation_groups, setCore_groups]

@[simp] theorem modTile_groups (s : State) (k tile : Nat) (f : NevTile → NevTile) : (modTile s k tile f).groups = s.groups := rfl

theorem groupsWf_parkTile {s : State} (hs : Groups.wf s.groups = true) (k : Nat) (t : NevTile) (pages : List (Nat × Nat × Nat)) :
    Groups.wf (parkTile s k t pages).groups = true := by
  unfold parkTile
  split
  · exact groupsWf_terminate hs ..
  · exact groupsWf_foldl (by rwa [modTile_groups]) fun _ _ h => by rwa [raise_groups]

theorem groupsWf_doLayer {s : State} (hs : Groups.wf s.groups = true) (k : Nat) (t : NevTile) :
    Groups.wf (doLayer s k t).groups = true := by
  unfold doLayer
  grind only [modTile_groups, readParts_groups, groupsWf_terminate, groupsWf_parkTile]

@[simp] theorem retryTile_groups (s : State) (k : Nat) (t : NevTile) : (retryTile s k t).groups = s.groups := by
  unfold retryTile
  grind only [modTile_groups]

theorem groupsWf_landRow {s : State} (hs : Groups.wf s.groups = true) (t : NevTile) (e : NevReq × List Nat) :
    Groups.wf (landRow t s e).groups = true := by
  unfold landRow
  refine groupsWf_supply ?_ ..
  exact groupsWf_modGroup hs e.1.group fun _ h => h

theorem groupsWf_landTile {s : State} (hs : Groups.wf s.groups = true) (k : Nat) (t : NevTile) :
    Groups.wf (landTile s k t).groups = true := by
  have rows : Groups.wf ((t.rows.zip t.acts).foldl (landRow t) s).groups = true := groupsWf_foldl hs fun _ _ h => groupsWf_landRow h ..
  unfold landTile
  rw [refillStation_groups, setCore_groups]
  exact groupsWf_foldl rows fun _ r h => groupsWf_modGroup h r.group fun _ h => wf_landClosed h

theorem groupsWf_execNeval {s : State} (hs : Groups.wf s.groups = true) (h : Hdr) (o : OpR) : NextGroupsWf (execNeval h o s) :=
  groupsWf_run (fun _ hc => groupsWf_nevalRes hc ..) hs

theorem groupsWf_execNevstatCnt {s : State} (hs : Groups.wf s.groups = true) (h : Hdr) (o : OpR) : NextGroupsWf (execNevstatCnt h o s) :=
  groupsWf_run (fun _ hc => hc) hs

theorem groupsWf_execNevstatKick {s : State} (hs : Groups.wf s.groups = true) (h : Hdr) (o : OpR) :
    NextGroupsWf (execNevstatKick h o s) := by
  unfold execNevstatKick
  refine groupsWf_run (fun c hc => ?_) hs
  grind only [Res.state, kickSlots_groups]

theorem groupsWf_execNevalTimerExpiry {s : State} (hs : Groups.wf s.groups = true) (core : Nat) (slot : Nat) :
    NextGroupsWf (execNevalTimerExpiry core slot s) := nextGroupsWf_next (by rwa [timerExpiry_groups])

theorem groupsWf_execNevalTileFire {s : State} (hs : Groups.wf s.groups = true) (core : Nat) : NextGroupsWf (execNevalTileFire core s) :=
  nextGroupsWf_next (by rwa [fireTile_groups])

theorem groupsWf_execNevalLayer {s : State} (hs : Groups.wf s.groups = true) (core : Nat) (tile : Nat) :
    NextGroupsWf (execNevalLayer core tile s) := by
  refine nextGroupsWf_next ?_
  grind only [retryTile_groups, groupsWf_doLayer]

theorem groupsWf_execNevalLanding {s : State} (hs : Groups.wf s.groups = true) (core : Nat) (tile : Nat) :
    NextGroupsWf (execNevalLanding core tile s) := by
  refine nextGroupsWf_next ?_
  grind only [groupsWf_landTile]

theorem groupsWf_execNvspillbWrite {s : State} (hs : Groups.wf s.groups = true) (core : Nat) (value : Nat) :
    NextGroupsWf (execNvspillbWrite core value s) := nextGroupsWf_next (groupsWf_ctlWrite hs ..)

end Sys2Proof.Machine.Ops
end

section
/-! The register files of every group stay in canonical form (continued). Sample sets, the binner, flushes, fragment programs and `exit`.
-/

namespace Sys2Proof.Machine.Ops

open Sys2Proof.Bits Sys2Proof.Num

/-! ### Machine/Place -/

@[simp] theorem pickOne_groups (s : State) (xs : List Nat) : (pickOne s xs).2.groups = s.groups := rfl

@[simp] theorem pickMany_groups (n : Nat) (xs : List Nat) (s : State) : (pickMany n xs s).2.groups = s.groups := by
  induction n generalizing xs s with
  | zero => rfl
  | succ n ih => exact (ih ..).trans (pickOne_groups ..)

@[simp] theorem freshKey_groups (s : State) (ctx : Nat) : (freshKey s ctx).2.groups = s.groups := rfl

/-- A group starts with its files in the form (01 R26): its pairs written, and LIVE in its lanes. -/
theorem wf_newGroup (t slot : Nat) (h : Header) (x : GroupSpec) (st : Start) : Group.wf (newGroup t slot h x st) = true := by
  refine Group.wf_iff.2 ⟨rfl, Maps.foldl_canonical (fun m e hm => ?_) _ rfl, rfl, ?_⟩
  · split
    · exact Maps.set_canonical (Maps.set_canonical hm)
    · exact hm
  · have lanes : (lanesOf st.mask).map (fun l => (l, (0x8000 : Word))) =
        ((upto 8).map (fun l => (l, (0x8000 : Word)))).filter (fun e => st.mask.testBit e.1) := by
      rw [List.filter_map]
      rfl
    simp only [newGroup, lanes]
    exact Maps.filter_canonical _ (by decide)

theorem groupsWf_startGroup {s : State} (hs : Groups.wf s.groups = true) (t k base : Nat) (h : Header) (st : Start) (x : GroupSpec) :
    Groups.wf (startGroup t k base h st s x).groups = true :=
  Groups.wf_insert hs _ (Group.wf_of_files (g := newGroup t (pickOne s (freeSlots s k ((base + x.idx) % 4))).1 h x st)
    (wf_newGroup ..) rfl rfl rfl rfl)

theorem groupsWf_startTeam {s : State} (hs : Groups.wf s.groups = true) (k base : Nat) (tm : Team) (st : Start) :
    Groups.wf (startTeam s k base tm st).2.groups = true := by
  unfold startTeam
  refine groupsWf_foldl ?_ fun _ _ h => groupsWf_startGroup h ..
  simpa using hs

/-! ### Machine/Samples -/

theorem setRange_error_groups {c : Ctx} {s : State} {rd wr lanes va n : Nat} {r : Res} (h : setRange c s rd wr lanes va n = .error r) :
    r.state.groups = s.groups := by
  unfold setRange at h
  extract_lets access ts first fault at h
  split at h
  case h_4 =>
    repeat' split at h
    all_goals cases h <;> rfl
  all_goals cases h; rfl

theorem groupsWf_setWrite {s : State} (hs : Groups.wf s.groups = true) (c : Ctx) (pa : Nat) (bs : List Byte) :
    Groups.wf (setWrite c s pa bs).groups = true := by
  unfold setWrite
  split
  · exact hs
  · exact groupsWf_returnCt (groupsWf_writeHome (by rwa [backInvalidateSpan_groups]) ..) ..

theorem groupsWf_setWrites (c : Ctx) (ws : List (Nat × List Byte)) {s : State} (hs : Groups.wf s.groups = true) :
    Groups.wf (setWrites c ws s).groups = true := groupsWf_foldl hs fun _ _ h => groupsWf_setWrite h ..

theorem groupsWf_fillOpen (c : Ctx) (ps : List (Nat × Nat)) {s : State} (hs : Groups.wf s.groups = true) :
    Groups.wf (fillOpen c ps s).groups = true :=
  groupsWf_foldl hs fun _ _ h => groupsWf_setWrite (by rwa [freeBytes_groups]) ..

@[simp] theorem putSet_groups (s : State) (c : Ctx) (handle : Nat) (x : SetSt) : (putSet s c handle x).groups = s.groups := rfl

theorem groupsWf_withRecord {c : Ctx} (hc : Groups.wf c.s.groups = true) (o : OpG) (lanes : Nat) (writes : Bool)
    {body : Nat → Nat → List Byte → State → Res}
    (hb : ∀ h pa rec s, Groups.wf s.groups = true → Groups.wf (body h pa rec s).state.groups = true) :
    Groups.wf (withRecord c o lanes writes body).state.groups = true := by
  unfold withRecord
  grind only [Res.state, noEffect_groups, → groupsWf_issueTr_ok, → groupsWf_issueTr_error]

theorem planBuild_error_groups {c : Ctx} {s : State} {rec : List Byte} {r : Res} (h : planBuild c s rec = .error r) :
    r.state.groups = s.groups := by
  unfold planBuild at h
  grind only [setRange_error_groups]

theorem groupsWf_applyBuild {s : State} (hs : Groups.wf s.groups = true) (c : Ctx) (handle pa : Nat) (b : Built) :
    Groups.wf (applyBuild c handle pa b s).groups = true := by
  unfold applyBuild
  grind only [groupsWf_setWrite, groupsWf_fillOpen, groupsWf_setWrites, putSet_groups]

theorem groupsWf_newGrid {s : State} (hs : Groups.wf s.groups = true) (c : Ctx) (o : OpG) (h pa : Nat) (rec : List Byte) :
    Groups.wf (newGrid c o h pa rec s).state.groups = true := by
  unfold newGrid
  grind only [Res.state, illegal_groups, setRange_error_groups, groupsWf_setWrites, groupsWf_setWrite, groupsWf_fillOpen, putSet_groups]

theorem groupsWf_execSsnew {s : State} (hs : Groups.wf s.groups = true) (h : Hdr) (o : OpG) : NextGroupsWf (execSsnew h o s) := by
  unfold execSsnew
  refine groupsWf_run (fun c hc => ?_) hs
  grind only [Res.state, groupsWf_withRecord, illegal_groups, groupsWf_newGrid, groupsWf_setWrite, putSet_groups]

theorem groupsWf_planAdd {s : State} (hs : Groups.wf s.groups = true) (c : Ctx) (nd : Needs) (rec : List Byte) (ls : List Nat) (i : Nat) :
    Groups.wf (planAdd c nd rec ls i s).2.groups = true := by
  induction ls generalizing i s with
  | nil => exact hs
  | cons l ls ih => unfold planAdd; grind only [groupsWf_translateLane]

theorem groupsWf_addSamples {s : State} (hs : Groups.wf s.groups = true) (c : Ctx) (o : OpG) (h pa : Nat) (rec : List Byte)
    (plan : List (Nat × Option (Acc × Tr × Nat))) : Groups.wf (addSamples c o h pa rec plan s).state.groups = true := by
  unfold addSamples
  dsimp only [Res.state_done]
  have h1 := groupsWf_setWrites c (hs := hs)
  split
  · rw [groupsWf_orGstat]
    split
    · exact h1 _
    · exact groupsWf_setWrite (h1 _) ..
  · split
    · exact h1 _
    · exact groupsWf_setWrite (h1 _) ..

theorem groupsWf_addLanes {s : State} (hs : Groups.wf s.groups = true) (c : Ctx) (o : OpG) (h pa : Nat) (rec : List Byte) :
    Groups.wf (addLanes c o h pa rec s).state.groups = true := by
  unfold addLanes
  grind only [Res.state, groupsWf_planAdd, judge_groups, groupsWf_addSamples]

theorem groupsWf_execSsadd {s : State} (hs : Groups.wf s.groups = true) (h : Hdr) (o : OpG) : NextGroupsWf (execSsadd h o s) := by
  unfold execSsadd
  refine groupsWf_run (fun c hc => ?_) hs
  grind only [groupsWf_withRecord, groupsWf_addLanes]

theorem groupsWf_execSsbuild {s : State} (hs : Groups.wf s.groups = true) (h : Hdr) (o : OpG) : NextGroupsWf (execSsbuild h o s) := by
  unfold execSsbuild
  refine groupsWf_run (fun c hc => ?_) hs
  grind only [Res.state, groupsWf_withRecord, illegal_groups, → planBuild_error_groups, groupsWf_applyBuild]

theorem bindChecks_error_groups {c : Ctx} {s : State} {rec : List Byte} {a : BindArgs} {r : Res} (h : bindChecks c s rec a = .error r) :
    r.state.groups = s.groups := by
  unfold bindChecks at h
  grind only [illegal_groups, setRange_error_groups]

theorem planBind_error_groups {c : Ctx} {s : State} {rec : List Byte} {a : BindArgs} (heads : Nat) {r : Res}
    (h : planBind c s rec a heads = .error r) :
    r.state.groups = s.groups := by
  unfold planBind at h
  grind only [setRange_error_groups]

theorem groupsWf_applyBind {s : State} (hs : Groups.wf s.groups = true) (c : Ctx) (o : OpG) (h pa : Nat) (rec : List Byte) (a : BindArgs)
    (hdr : Header) (ws : List (Nat × List Byte)) :
    Groups.wf (applyBind c o h pa rec a hdr ws s).state.groups = true := by
  unfold applyBind
  have h1 := groupsWf_setWrite (groupsWf_setWrites c ws hs) c pa (boundRecord c rec a)
  dsimp only
  rw [Res.state_done]
  split
  · rwa [putSet_groups]
  · exact groupsWf_orGstat (by rwa [putSet_groups]) ..

theorem groupsWf_bindSet {s : State} (hs : Groups.wf s.groups = true) (rebuild : Bool) (c : Ctx) (o : OpG) (h pa : Nat) (rec : List Byte) :
    Groups.wf (bindSet rebuild c o h pa rec s).state.groups = true := by
  unfold bindSet
  grind only [Res.state, bindChecks_error_groups, planBuild_error_groups, groupsWf_applyBuild, planBind_error_groups, groupsWf_applyBind]

theorem groupsWf_execSsbind {s : State} (hs : Groups.wf s.groups = true) (h : Hdr) (o : OpG) : NextGroupsWf (execSsbind h o s) := by
  unfold execSsbind
  refine groupsWf_run (fun c hc => ?_) hs
  grind only [groupsWf_withRecord, groupsWf_bindSet]

theorem groupsWf_execSsrebind {s : State} (hs : Groups.wf s.groups = true) (h : Hdr) (o : OpG) : NextGroupsWf (execSsrebind h o s) := by
  unfold execSsrebind
  refine groupsWf_run (fun c hc => ?_) hs
  grind only [groupsWf_withRecord, groupsWf_bindSet]

theorem groupsWf_freeSet {s : State} (hs : Groups.wf s.groups = true) (c : Ctx) (h pa : Nat) :
    Groups.wf (freeSet c h pa s).groups = true := by
  simp [freeSet, groupsWf_setWrite, hs]

theorem groupsWf_freeLanes {s : State} (hs : Groups.wf s.groups = true) (c : Ctx) (h pa : Nat) (rec : List Byte) :
    Groups.wf (freeLanes c h pa rec s).state.groups = true := by
  unfold freeLanes
  grind only [Res.state, illegal_groups, putSet_groups, groupsWf_setStage, groupsWf_freeSet]

theorem groupsWf_execSsfree {s : State} (hs : Groups.wf s.groups = true) (h : Hdr) (o : OpG) : NextGroupsWf (execSsfree h o s) := by
  unfold execSsfree
  refine groupsWf_run (fun c hc => ?_) hs
  grind only [noEffect_groups, groupsWf_withRecord, groupsWf_freeLanes]

theorem groupsWf_execSsget {s : State} (hs : Groups.wf s.groups = true) (h : Hdr) (o : OpG) : NextGroupsWf (execSsget h o s) := by
  unfold execSsget
  refine groupsWf_run (fun c hc => ?_) hs
  grind only [Res.state, groupsWf_withRecord]

/-! ### Machine/Raster -/

theorem groupsWf_gfxWrite {s : State} (hs : Groups.wf s.groups = true) (cl : Nat) (w : Place × List Byte) :
    Groups.wf (gfxWrite cl s w).2.groups = true := by
  unfold gfxWrite
  split <;> simp [groupsWf_engineWrite, hs]

theorem groupsWf_gfxWrites {s : State} (hs : Groups.wf s.groups = true) (cl : Nat) (ws : List (Place × List Byte)) :
    Groups.wf (gfxWrites cl ws s).2.groups = true := by
  unfold gfxWrites
  exact List.foldlRecOn ws _ (motive := fun (r : Nat × State) => Groups.wf r.2.groups = true) hs fun _ h _ _ => groupsWf_gfxWrite h ..

theorem groupsWf_haltSet {s : State} (hs : Groups.wf s.groups = true) (d key : Nat) (x : SetSt) (w : Halt) :
    Groups.wf (haltSet s d key x w).groups = true := by
  unfold haltSet
  grind only [groupsWf_terminate, raise_groups, setSet_groups]

theorem groupsWf_addDisc {s : State} (hs : Groups.wf s.groups = true) (d n : Nat) (rec : Place × List Byte) :
    Groups.wf (addDisc s d n rec).groups = true := by
  unfold addDisc
  split <;> simp [groupsWf_gfxWrite, hs]

theorem groupsWf_emitTrap {c : Ctx} {plan : List (Nat × Emitted)} {s : State} {r : Res} (h : emitTrap c plan s = some r)
    (hs : Groups.wf s.groups = true) : Groups.wf r.state.groups = true := by
  unfold emitTrap at h
  grind only [Res.state, groupsWf_orGstat]

theorem groupsWf_emitVertices {s : State} (hs : Groups.wf s.groups = true) (c : Ctx) (o : OpG) (h : Nat) (rec : List Byte) :
    Groups.wf (emitVertices c o h rec s).state.groups = true := by
  unfold emitVertices
  dsimp only
  split
  · exact hs
  · split
    · next hr => exact groupsWf_emitTrap hr hs
    · refine groupsWf_orGstat (groupsWf_foldl hs fun s e h => ?_) ..
      split
      · exact groupsWf_modGroup h c.key fun _ h => h
      · exact h

@[simp] theorem sendWork_groups (s : State) (d : Nat) (w : BinWork) : (sendWork s d w).groups = s.groups := rfl

theorem groupsWf_emitPrims {s : State} (hs : Groups.wf s.groups = true) (c : Ctx) (o : OpG) (splat : Bool) (bad : Nat → Bool)
    (verts : Nat → List (List Word)) (h : Nat) (rec : List Byte) :
    Groups.wf (emitPrims c o splat bad verts h rec s).state.groups = true := by
  unfold emitPrims
  dsimp only
  split
  · exact hs
  · split
    · next hr => exact groupsWf_emitTrap hr hs
    · refine groupsWf_orGstat (groupsWf_foldl hs fun s e h => ?_) ..
      split
      · exact groupsWf_modGroup h c.key fun _ h => h
      · exact h

theorem groupsWf_withRun {c : Ctx} (hc : Groups.wf c.s.groups = true) (o : OpG) (n : Nat)
    {body : Nat → Nat → List Byte → State → Res}
    (hb : ∀ h pa rec s, Groups.wf s.groups = true → Groups.wf (body h pa rec s).state.groups = true) :
    Groups.wf (withRun c o n body).state.groups = true :=
  groupsWf_withRecord hc _ _ _ fun h pa rec s hs => by
    split
    · exact hs
    · exact hb h pa rec s hs

theorem groupsWf_execEmitv {s : State} (hs : Groups.wf s.groups = true) (hd : Hdr) (o : OpG) : NextGroupsWf (execEmitv hd o s) :=
  groupsWf_run (fun _ hc => groupsWf_withRun hc _ _ fun _ _ _ _ hs => by rwa [groupsWf_emitVertices]) hs

theorem groupsWf_execEmit {s : State} (hs : Groups.wf s.groups = true) (hd : Hdr) (o : OpG) : NextGroupsWf (execEmit hd o s) :=
  groupsWf_run (fun _ hc => groupsWf_withRun hc _ _ fun _ _ _ _ hs => by rwa [groupsWf_emitPrims]) hs

theorem groupsWf_execEmitsp {s : State} (hs : Groups.wf s.groups = true) (hd : Hdr) (o : OpG) : NextGroupsWf (execEmitsp hd o s) :=
  groupsWf_run (fun _ hc => groupsWf_withRun hc _ _ fun _ _ _ _ hs => by rwa [groupsWf_emitPrims]) hs

theorem groupsWf_execRflush {s : State} (hs : Groups.wf s.groups = true) (h : Hdr) (o : OpG) : NextGroupsWf (execRflush h o s) := by
  unfold execRflush
  refine groupsWf_run (fun c hc => ?_) hs
  grind only [Res.state, groupsWf_withRecord, illegal_groups, putSet_groups, sendWork_groups]

@[simp] theorem popWork_groups (s : State) (d : Nat) : (popWork s d).groups = s.groups := rfl

theorem groupsWf_overflow {s : State} (hs : Groups.wf s.groups = true) (d : Nat) (w : BinWork) (rec : Place × List Byte) (j k : Nat)
    (next : Place) :
    Groups.wf (overflow s d w rec j k next).groups = true := by
  unfold overflow
  split <;> simp [groupsWf_addDisc, groupsWf_gfxWrite, hs]

theorem groupsWf_insertPrim {s : State} (hs : Groups.wf s.groups = true) (d : Nat) (w : BinWork) (x : SetSt) (p : Prim) :
    Groups.wf (insertPrim s d w x p).groups = true := by
  unfold insertPrim
  grind only [groupsWf_haltSet, setSet_groups, popWork_groups, groupsWf_addDisc, groupsWf_overflow, groupsWf_gfxWrites]

/-! ### Machine/Flush -/

@[simp] theorem cutQuads_groups (fuel : Nat) (qs : List (Nat × Nat)) (s : State) : (cutQuads fuel qs s).2.groups = s.groups := by
  induction fuel, qs, s using cutQuads.induct <;> unfold cutQuads <;> grind

@[simp] theorem leafWork_groups (d pctl : Nat) (shaded : Bool) (l : Leaf) (es : List (Nat × Tri)) (s : State) :
    (leafWork d pctl shaded l es s).2.groups = s.groups := by
  induction es generalizing s with
  | nil => rfl
  | cons e es ih => unfold leafWork; grind only [cutQuads_groups]

@[simp] theorem leavesWork_groups (d pctl : Nat) (shaded : Bool) (cells : List (Nat × List Drawn)) (ls : List Leaf) (s : State) :
    (leavesWork d pctl shaded cells ls s).2.groups = s.groups := by
  induction ls generalizing s with
  | nil => rfl
  | cons l ls ih => unfold leavesWork; grind only [leafWork_groups]

theorem groupsWf_startFlush {s : State} (hs : Groups.wf s.groups = true) (d : Nat) (w : BinWork) (x : SetSt) :
    Groups.wf (startFlush s d w x).groups = true := by
  unfold startFlush
  grind only [groupsWf_haltSet, leavesWork_groups, setSet_groups]

theorem groupsWf_serveBinner {s : State} (hs : Groups.wf s.groups = true) (d : Nat) : Groups.wf (serveBinner s d).groups = true := by
  unfold serveBinner
  grind only [popWork_groups, groupsWf_insertPrim, groupsWf_startFlush]

theorem groupsWf_blendSample {s : State} (hs : Groups.wf s.groups = true) (key sample : Nat) :
    Groups.wf (blendSample s key sample).groups = true := by
  unfold blendSample
  repeat' split
  all_goals grind only [groupsWf_haltSet, setSet_groups, groupsWf_gfxWrites]

theorem groupsWf_completeFlush {s : State} (hs : Groups.wf s.groups = true) (key : Nat) :
    Groups.wf (completeFlush s key).groups = true := by
  unfold completeFlush
  repeat' split
  all_goals grind only [groupsWf_haltSet, popWork_groups, setSet_groups, groupsWf_addDisc, groupsWf_gfxWrites]

theorem groupsWf_freeWaiting {s : State} (hs : Groups.wf s.groups = true) (key : Nat) (x : SetSt) (rec : Place × List Byte) (f : Nat × Nat)
    (more : List (Nat × Nat)) : Groups.wf (freeWaiting s key x rec f more).groups = true := by
  unfold freeWaiting
  refine groupsWf_foldl ?_ fun _ _ h => by rwa [groupsWf_wakeStage]
  rw [groupsWf_wakeStage]
  dsimp only
  split
  · rw [groupsWf_returnCt]
    exact groupsWf_engineWrite hs ..
  · exact hs

theorem groupsWf_endPass {s : State} (hs : Groups.wf s.groups = true) (key : Nat) : Groups.wf (endPass s key).groups = true := by
  unfold endPass
  grind only [groupsWf_haltSet, groupsWf_gfxWrite, setSet_groups, groupsWf_freeWaiting]

theorem groupsWf_execBinnerInsert {s : State} (hs : Groups.wf s.groups = true) (die : Nat) : NextGroupsWf (execBinnerInsert die s) :=
  nextGroupsWf_next (groupsWf_serveBinner hs ..)

theorem groupsWf_execBlendApply {s : State} (hs : Groups.wf s.groups = true) (set : Nat) (sample : Nat) :
    NextGroupsWf (execBlendApply set sample s) :=
  nextGroupsWf_next (groupsWf_blendSample hs ..)

theorem groupsWf_execFlushComplete {s : State} (hs : Groups.wf s.groups = true) (set : Nat) : NextGroupsWf (execFlushComplete set s) :=
  nextGroupsWf_next (groupsWf_completeFlush hs ..)

theorem groupsWf_execPassEnd {s : State} (hs : Groups.wf s.groups = true) (set : Nat) :
    NextGroupsWf (execPassEnd set s) := nextGroupsWf_next (groupsWf_endPass hs ..)

/-! ### Machine/Fragment -/

theorem groupsWf_launchFragment {s : State} (hs : Groups.wf s.groups = true) (key k base : Nat) :
    Groups.wf (launchFragment s key k base).groups = true := by
  unfold launchFragment
  repeat' split
  all_goals grind only [groupsWf_haltSet, groupsWf_startTeam, setSet_groups]

theorem groupsWf_recordLanes {c : Ctx} (hc : Groups.wf c.s.groups = true) (f : Nat → FragLane → FragLane) :
    Groups.wf (recordLanes c f).groups = true := groupsWf_foldl hc fun _ _ h => groupsWf_modGroup h c.key fun _ h => h

@[simp] theorem takeResults_groups (g : Group) (lanes : Nat) (s : State) : (takeResults g lanes s).groups = s.groups := by
  unfold takeResults
  repeat' split
  all_goals simp

theorem groupsWf_execFragmentLaunch {s : State} (hs : Groups.wf s.groups = true) (set : Nat) (core : Nat) (base : Nat) :
    NextGroupsWf (execFragmentLaunch set core base s) := nextGroupsWf_next (groupsWf_launchFragment hs ..)

theorem groupsWf_execFin {s : State} (hs : Groups.wf s.groups = true) (h : Hdr) (o : OpG) : NextGroupsWf (execFin h o s) := by
  unfold execFin
  exact groupsWf_run (fun _ hc => hc) hs

theorem groupsWf_execFout {s : State} (hs : Groups.wf s.groups = true) (h : Hdr) (o : OpG) : NextGroupsWf (execFout h o s) := by
  unfold execFout
  refine groupsWf_run (fun c hc => ?_) hs
  grind only [Res.state, illegal_groups, groupsWf_recordLanes]

theorem groupsWf_execFdep {s : State} (hs : Groups.wf s.groups = true) (h : Hdr) (o : OpG) : NextGroupsWf (execFdep h o s) := by
  unfold execFdep
  refine groupsWf_run (fun c hc => ?_) hs
  grind only [Res.state, groupsWf_recordLanes]

theorem groupsWf_execDisc {s : State} (hs : Groups.wf s.groups = true) (hd : Hdr) (o : OpG) : NextGroupsWf (execDisc hd o s) :=
  groupsWf_run (fun c hc => groupsWf_foldl hc fun _ _ h => groupsWf_modGroup h c.key fun _ h => h) hs

/-! ### Machine/Exit -/

theorem groupsWf_endGroup {s : State} (hs : Groups.wf s.groups = true) (key team : Nat) :
    Groups.wf (endGroup s key team).groups = true := groupsWf_settleTeam (Groups.wf_erase hs key) team

theorem wf_leaveLanes {g : Group} (h : Group.wf g = true) (frag out : Nat) : Group.wf (leaveLanes frag out g) = true := by
  obtain ⟨hv, hk, hp, hl⟩ := Group.wf_iff.1 h
  exact Group.wf_iff.2 ⟨hv, hk, hp, Maps.foldl_canonical (fun _ _ hm => Maps.set_canonical hm) _ hl⟩

theorem groupsWf_exitLanes {c : Ctx} (hc : Groups.wf c.s.groups = true) : Groups.wf (exitLanes c).state.groups = true := by
  unfold exitLanes
  grind only [Res.state, noEffect_groups, takeResults_groups, groupsWf_modGroup, wf_leaveLanes, groupsWf_endGroup, groupsWf_drainDets]

theorem groupsWf_execExit {s : State} (hs : Groups.wf s.groups = true) (h : Hdr) (o : OpS) : NextGroupsWf (execExit h o s) :=
  groupsWf_run (fun _ hc => groupsWf_exitLanes hc ..) hs

end Sys2Proof.Machine.Ops
end

section
/-! The register files of every group stay in canonical form (continued). Queues, launches and the Almanac. -/

namespace Sys2Proof.Machine.Ops

open Sys2Proof.Bits Sys2Proof.Num

/-! ### Machine/Watch -/

theorem groupsWf_haltQueue {s : State} (hs : Groups.wf s.groups = true) (q : Nat) (x : Queue) (w : Halt) :
    Groups.wf (haltQueue s q x w).groups = true := by
  unfold haltQueue
  grind only [groupsWf_terminate, raise_groups, setQueue_groups]

@[simp] theorem dispatched_groups (s : State) (q ct : Nat) : (dispatched s q ct).groups = s.groups := rfl

theorem groupsWf_consumeSlot {s : State} (hs : Groups.wf s.groups = true) (q : Nat) (x : Queue) (i : Nat) :
    Groups.wf (consumeSlot s q x i).groups = true := by
  unfold consumeSlot
  grind only [groupsWf_haltQueue, setQueue_groups, hubWrite_groups]

theorem groupsWf_dispatchCopy {s : State} (hs : Groups.wf s.groups = true) (q : Nat) (x : Queue) (bs : List Byte) :
    Groups.wf (dispatchCopy s q x bs).groups = true := by
  unfold dispatchCopy
  grind only [dispatched_groups, groupsWf_haltQueue, groupsWf_writeSignal, groupsWf_refill, commitCopy_groups, groupsWf_acceptCopy]

theorem groupsWf_dispatchLaunch {s : State} (hs : Groups.wf s.groups = true) (q : Nat) (x : Queue) (bs : List Byte) :
    Groups.wf (dispatchLaunch s q x bs).groups = true := by
  unfold dispatchLaunch
  grind only [dispatched_groups, setQueue_groups, setLaunch_groups, completeLaunch_groups, groupsWf_haltQueue]

theorem groupsWf_dispatchSlot {s : State} (hs : Groups.wf s.groups = true) (q : Nat) (x : Queue) (bs : List Byte) :
    Groups.wf (dispatchSlot s q x bs).groups = true := by
  unfold dispatchSlot
  split <;> simp [groupsWf_dispatchLaunch, groupsWf_dispatchCopy, hs]

theorem groupsWf_takeSlot {s : State} (hs : Groups.wf s.groups = true) (q : Nat) (x : Queue) (i : Nat) :
    Groups.wf (takeSlot s q x i).groups = true := by
  unfold takeSlot
  grind only [groupsWf_haltQueue, groupsWf_dispatchSlot, setQueue_groups]

theorem groupsWf_freeSlot {s : State} (hs : Groups.wf s.groups = true) (q : Nat) (x : Queue) (i ct : Nat) :
    Groups.wf (freeSlot s q x i ct).groups = true := by
  unfold freeSlot
  grind only [groupsWf_haltQueue, hubWrite_groups, removeQueue_groups, setQueue_groups]

theorem groupsWf_watchQueue {s : State} (hs : Groups.wf s.groups = true) (q : Nat) : Groups.wf (watchQueue s q).groups = true := by
  unfold watchQueue
  grind only [removeQueue_groups, groupsWf_haltQueue, groupsWf_freeSlot, groupsWf_consumeSlot, groupsWf_dispatchSlot, groupsWf_takeSlot]

theorem groupsWf_execQueueSlotDispatch {s : State} (hs : Groups.wf s.groups = true) (queue : Nat) :
    NextGroupsWf (execQueueSlotDispatch queue s) :=
  nextGroupsWf_next (groupsWf_watchQueue hs ..)

/-! ### Machine/Launches -/

theorem freeMembers_groups {s : State} {l : Launch} {first core base : Nat} {r : List Member × State}
    (h : freeMembers s l first core base = some r) :
    r.2.groups = s.groups := by
  unfold freeMembers at h
  grind only [pickMany_groups]

theorem members_groups {s : State} {l : Launch} {t core base : Nat} {r : List Member × State} (h : members s l t core base = some r) :
    r.2.groups = s.groups := by
  unfold members at h
  split at h
  · obtain ⟨ms, -, rfl⟩ := Option.map_eq_some_iff.1 h
    rfl
  · grind only [→ freeMembers_groups]

@[simp] theorem takeTo_groups (s : State) (id : Nat) (l : Launch) (t core base : Nat) : (takeTo s id l t core base).groups = s.groups := by
  unfold takeTo
  split <;> simp

theorem groupsWf_recordingFails {s : State} (hs : Groups.wf s.groups = true) (id : Nat) (l : Launch) (w : Halt) :
    Groups.wf (recordingFails s id l w).groups = true := by
  unfold recordingFails
  split <;> simp [groupsWf_terminate, hs]

theorem groupsWf_writeEntry {s : State} (hs : Groups.wf s.groups = true) (id : Nat) (e : Nat × Member) :
    Groups.wf (writeEntry id s e).groups = true := by
  simp [writeEntry, hubWrite_groups, hs]

theorem groupsWf_startMember {s : State} (hs : Groups.wf s.groups = true) (id set : Nat) (l : Launch) (m : Member) :
    Groups.wf (startMember id set l s m).groups = true := groupsWf_startTeam hs ..

theorem groupsWf_launchTeams {s : State} (hs : Groups.wf s.groups = true) (id t core base : Nat) :
    Groups.wf (launchTeams s id t core base).groups = true := by
  unfold launchTeams
  split
  · exact hs
  · split
    · exact hs
    · split
      · rwa [takeTo_groups]
      · next hm =>
        split
        · rwa [takeTo_groups]
        · split
          · exact groupsWf_recordingFails hs ..
          · refine groupsWf_foldl (groupsWf_foldl ?_ fun _ _ h => groupsWf_writeEntry h ..) fun _ _ h => groupsWf_startMember h ..
            rwa [setLaunch_groups, members_groups hm]

theorem groupsWf_sealCalendar {s : State} (hs : Groups.wf s.groups = true) (id : Nat) (l : Launch) :
    Groups.wf (sealCalendar s id l).groups = true := by
  unfold sealCalendar
  split <;> simp [groupsWf_recordingFails, hubWrite_groups, hs]

theorem groupsWf_finishLaunch {s : State} (hs : Groups.wf s.groups = true) (id : Nat) : Groups.wf (finishLaunch s id).groups = true := by
  unfold finishLaunch
  grind only [lastRecord_groups, failLaunch_groups, groupsWf_sealCalendar, groupsWf_terminate, completeLaunch_groups]

theorem groupsWf_promoteGroup {s : State} (hs : Groups.wf s.groups = true) (key : Nat) : Groups.wf (promoteGroup s key).groups = true := by
  unfold promoteGroup
  split
  · exact hs
  · next g hg => exact Groups.wf_insert hs key (Group.wf_of_files (Groups.wf_find? hs hg) rfl rfl rfl rfl)

theorem groupsWf_execTeamStart {s : State} (hs : Groups.wf s.groups = true) (launch : Nat) (team : Nat) (core : Nat) (base : Nat) :
    NextGroupsWf (execTeamStart launch team core base s) := nextGroupsWf_next (groupsWf_launchTeams hs ..)

theorem groupsWf_execLaunchCompletionRecord {s : State} (hs : Groups.wf s.groups = true) (launch : Nat) :
    NextGroupsWf (execLaunchCompletionRecord launch s) := nextGroupsWf_next (groupsWf_finishLaunch hs ..)

theorem groupsWf_execIssueCycle {s : State} (hs : Groups.wf s.groups = true) (core : Nat) (quarter : Nat) :
    NextGroupsWf (execIssueCycle core quarter s) := nextGroupsWf_next hs

theorem groupsWf_execIssuePriorityPromotion {s : State} (hs : Groups.wf s.groups = true) (group : Nat) :
    NextGroupsWf (execIssuePriorityPromotion group s) := nextGroupsWf_next (groupsWf_promoteGroup hs group)

/-! ### Machine/Almanac -/

theorem groupsWf_recordLane {s : State} (hs : Groups.wf s.groups = true) (id : Nat) : Groups.wf (recordLane s id).groups = true := by
  unfold recordLane
  grind only [groupsWf_formVersion]

theorem groupsWf_updateHorizon {s : State} (hs : Groups.wf s.groups = true) (copies : List Nat) :
    Groups.wf (updateHorizon s copies).groups = true :=
  groupsWf_formWaiting (groupsWf_foldl (by rwa [setCtl_groups]) fun _ _ h => by rwa [setDie_groups])

theorem groupsWf_tooWide {s : State} (hs : Groups.wf s.groups = true) (c : Ctx) (st : Nat → Stage) :
    Groups.wf (tooWide c st s).state.groups = true := groupsWf_setStage hs ..

theorem groupsWf_widthWait {c : Ctx} {st : Nat → Stage} {s : State} {r : Res} (h : widthWait c st s = some r)
    (hs : Groups.wf s.groups = true) : Groups.wf r.state.groups = true := by
  unfold widthWait at h
  grind only [Res.state, groupsWf_tooWide, groupsWf_setStage]

@[simp] theorem sendLanes_groups (c : Ctx) (o : OpM) (ps : List (Acc × Place)) (s : State) : (sendLanes c o ps s).groups = s.groups := rfl

theorem groupsWf_commitDone {s : State} (hs : Groups.wf s.groups = true) (c : Ctx) (o : OpM) (stamp discarded : Nat) :
    Groups.wf (commitDone c o stamp discarded s).state.groups = true := by
  unfold commitDone
  rw [Res.state_done]
  refine groupsWf_returnCt ?_ ..
  exact hs

theorem groupsWf_stcmStamp {s : State} (hs : Groups.wf s.groups = true) (c : Ctx) (o : OpM) (ps : List (Acc × Place)) :
    Groups.wf (stcmStamp c o ps s).state.groups = true := by
  unfold stcmStamp
  grind only [Res.state, groupsWf_commitDone, groupsWf_setStage, sendLanes_groups]

theorem groupsWf_stcmPlaces {c : Ctx} (hc : Groups.wf c.s.groups = true) (o : OpM) {next : List (Acc × Place) → State → Res}
    (hn : ∀ ps s,
        Groups.wf s.groups = true → Groups.wf (next ps s).state.groups = true) : Groups.wf (stcmPlaces c o next).state.groups = true := by
  unfold stcmPlaces
  grind only [Res.state, → groupsWf_access_ok, → groupsWf_access_error]

theorem groupsWf_stcmWidth {s : State} (hs : Groups.wf s.groups = true) (c : Ctx) (o : OpM) (ps : List (Acc × Place)) :
    Groups.wf (stcmWidth c o ps s).state.groups = true := by
  unfold stcmWidth
  grind only [groupsWf_widthWait, groupsWf_stcmStamp]

theorem groupsWf_stcmSend {c : Ctx} (hc : Groups.wf c.s.groups = true) (o : OpM) :
    Groups.wf (stcmSend c o).state.groups = true := groupsWf_stcmPlaces hc o fun _ _ h => groupsWf_stcmWidth h ..

theorem groupsWf_asofLoad {s : State} (hs : Groups.wf s.groups = true) (c : Ctx) (o : OpR) (t : Nat) :
    Groups.wf (asofLoad c o t s).state.groups = true := by
  unfold asofLoad
  grind only [Res.state, → groupsWf_resolve_ok, → groupsWf_resolve_error]

theorem groupsWf_execAlm {s : State} (hs : Groups.wf s.groups = true) (h : Hdr) (o : OpR) : NextGroupsWf (execAlm h o s) := by
  unfold execAlm
  refine groupsWf_run (fun c hc => ?_) hs
  dsimp only
  rw [Res.state_done]
  split
  · exact groupsWf_modGroup hc c.key fun _ h => h
  · exact hc

theorem groupsWf_execAlmhz {s : State} (hs : Groups.wf s.groups = true) (h : Hdr) (o : OpR) : NextGroupsWf (execAlmhz h o s) := by
  unfold execAlmhz
  refine groupsWf_run (fun c hc => ?_) hs
  dsimp only
  rw [Res.state_done]
  split
  · exact groupsWf_modGroup hc c.key fun _ h => h
  · exact hc

theorem groupsWf_execStcm {s : State} (hs : Groups.wf s.groups = true) (h : Hdr) (o : OpM) : NextGroupsWf (execStcm h o s) := by
  unfold execStcm
  refine groupsWf_run (fun c hc => ?_) hs
  grind only [Res.state, groupsWf_commitDone, groupsWf_stcmSend, groupsWf_stcmWidth, noEffect_groups, beginRelease_groups,
      groupsWf_setStage]

theorem groupsWf_execLdasof {s : State} (hs : Groups.wf s.groups = true) (h : Hdr) (o : OpR) : NextGroupsWf (execLdasof h o s) := by
  unfold execLdasof
  refine groupsWf_run (fun c hc => ?_) hs
  extract_lets d t
  split
  · exact hc
  · split
    · exact hc
    · split
      · split
        · exact hc
        · exact groupsWf_asofLoad hc ..
      · split
        · next r hr => exact groupsWf_widthWait hr hc
        · split
          · exact groupsWf_setStage hc ..
          · exact groupsWf_asofLoad (groupsWf_setStage hc ..) ..

theorem groupsWf_execAlmwait {s : State} (hs : Groups.wf s.groups = true) (h : Hdr) (o : OpS) : NextGroupsWf (execAlmwait h o s) := by
  unfold execAlmwait
  refine groupsWf_run (fun c hc => ?_) hs
  grind only [Res.state, noEffect_groups]

theorem groupsWf_execStcmRecord {s : State} (hs : Groups.wf s.groups = true) (lane : Nat) : NextGroupsWf (execStcmRecord lane s) :=
    nextGroupsWf_next (groupsWf_recordLane hs ..)

theorem groupsWf_execHorizonUpdate {s : State} (hs : Groups.wf s.groups = true) (copies : List Nat) :
    NextGroupsWf (execHorizonUpdate copies s) :=
  nextGroupsWf_next (groupsWf_updateHorizon hs ..)

theorem groupsWf_execAlmanacAdvance {s : State} (hs : Groups.wf s.groups = true) (time : Nat) (die : Nat) (e : Nat) (l : Nat) :
    NextGroupsWf (execAlmanacAdvance time die e l s) := by
  refine nextGroupsWf_next ?_
  grind only [setDie_groups]

theorem groupsWf_execAlmWideTimeout {s : State} (hs : Groups.wf s.groups = true) (group : Nat) :
    NextGroupsWf (execAlmWideTimeout group s) := by
  refine nextGroupsWf_next ?_
  grind only

theorem groupsWf_execDieSilentTimeout {s : State} (hs : Groups.wf s.groups = true) (die : Nat) :
    NextGroupsWf (execDieSilentTimeout die s) := by
  refine nextGroupsWf_next ?_
  dsimp only
  split
  · exact groupsWf_foldl (by rwa [devlog_groups, setDie_groups]) fun _ _ h => groupsWf_terminate h ..
  · exact hs

end Sys2Proof.Machine.Ops
end

section
/-! The register files of every group stay in canonical form (continued). Switching, host and hub events, issue, and what a step prepares.
-/

namespace Sys2Proof.Machine.Ops

open Sys2Proof.Bits Sys2Proof.Num

/-! ### Machine/Switch -/

@[simp] theorem dropOlder_groups (core : Nat) (s : State) : (dropOlder core s).groups = s.groups := rfl

theorem groupsWf_writeImage {s : State} (hs : Groups.wf s.groups = true) (tm : Team) : Groups.wf (writeImage s tm).1.groups = true := by
  unfold writeImage
  grind only [freeBytes_groups, hubWrite_groups, groupsWf_terminate]

theorem wf_restartGroup {g : Group} (h : Group.wf g = true) (r : Region) : Group.wf (restartGroup r g) = true := by
  obtain ⟨hv, hk, hp, hl⟩ := Group.wf_iff.1 h
  exact Group.wf_iff.2 ⟨Maps.filter_canonical _ hv, Maps.filter_canonical _ hk, hp, hl⟩

/-- The image of a group has the form: of the registers it keeps the live-in ones, or all. -/
theorem wf_imageOf {g : Group} (h : Group.wf g = true) : Group.wf (imageOf g) = true := by
  unfold imageOf
  split
  · next r _ => exact Group.wf_of_files (wf_restartGroup h r) rfl rfl rfl rfl
  · exact h

theorem groupsWf_saveTeam {s0 : State} (hs0 : Groups.wf s0.groups = true) (t : Nat) (tm : Team) :
    Groups.wf (saveTeam s0 t tm).groups = true := by
  unfold saveTeam
  extract_lets saved s
  have h : Groups.wf s.groups = true := groupsWf_writeImage hs0 tm
  split
  · exact h
  · rw [kickAll_groups, settleSwitches_groups, setTeam_groups]
    refine Groups.wf_map h fun e he => ?_
    split
    · exact wf_imageOf he
    · exact he

theorem groupsWf_switchOut {s : State} (hs : Groups.wf s.groups = true) (t : Nat) : Groups.wf (switchOut s t).groups = true := by
  unfold switchOut
  grind only [kickSlots_groups, groupsWf_saveTeam]

@[simp] theorem resumeTile_groups (tm : Team) (k l : Nat) (s : State) : (resumeTile tm k l s).2.groups = s.groups := by
  unfold resumeTile
  split <;> simp

@[simp] theorem resumeTiles_groups (t k n : Nat) (s : State) : (resumeTiles t k n s).groups = s.groups := by
  induction n generalizing s with
  | zero => rfl
  | succ n ih => unfold resumeTiles; grind only [resumeTile_groups, setTeam_groups]

/-- A resumed group takes its place with the files that it was saved with. -/
theorem groupsWf_resumeGroup {s : State} (hs : Groups.wf s.groups = true) (k base : Nat) {e : Nat × Group}
    (he : Group.wf e.2 = true) : Groups.wf (resumeGroup k base s e).groups = true :=
  Groups.wf_insert hs e.1 (Group.wf_of_files he rfl rfl rfl rfl)

theorem groupsWf_resumeGroups {s : State} (hs : Groups.wf s.groups = true) (k base : Nat) {es : List (Nat × Group)}
    (hes : Groups.wf es = true) : Groups.wf (es.foldl (resumeGroup k base) s).groups = true := by
  induction es generalizing s with
  | nil => exact hs
  | cons e es ih =>
    simp only [Groups.wf, List.all_cons, Bool.and_eq_true] at hes
    exact ih (groupsWf_resumeGroup hs k base hes.1) hes.2

theorem groupsWf_resumeOne {s : State} (hs : Groups.wf s.groups = true) (t : Nat) (tm : Team) (k base : Nat) :
    Groups.wf (resumeOne s t tm k base).groups = true := by
  unfold resumeOne
  dsimp only
  rw [modLaunch_groups]
  refine groupsWf_resumeGroups ?_ k base (Groups.wf_filter hs _)
  rw [resumeTiles_groups]
  refine Groups.wf_map hs fun e he => ?_
  split
  · exact he
  · exact he

theorem resumeCores_groups {s : State} {k base : Nat} {ts : List (Nat × Team)} {r : List Nat × State} (h : resumeCores s k base ts = some r) :
    r.2.groups = s.groups := by
  unfold resumeCores at h
  grind only [pickMany_groups]

theorem groupsWf_resumeTeam {s : State} (hs : Groups.wf s.groups = true) (t k base : Nat) :
    Groups.wf (resumeTeam s t k base).groups = true := by
  unfold resumeTeam
  split
  · exact hs
  · dsimp only
    split
    · exact hs
    · split
      · exact groupsWf_terminate hs ..
      · split
        · exact hs
        · next h =>
          rw [settleSwitches_groups]
          exact groupsWf_foldl (by rwa [resumeCores_groups h]) fun _ _ h => by rwa [dropOlder_groups, groupsWf_resumeOne]

theorem groupsWf_execTeamSwitchOut {s : State} (hs : Groups.wf s.groups = true) (team : Nat) : NextGroupsWf (execTeamSwitchOut team s) :=
  nextGroupsWf_next (groupsWf_switchOut hs ..)

theorem groupsWf_execTeamResume {s : State} (hs : Groups.wf s.groups = true) (team : Nat) (core : Nat) (base : Nat) :
    NextGroupsWf (execTeamResume team core base s) := nextGroupsWf_next (groupsWf_resumeTeam hs ..)

/-! ### Machine/Events -/

theorem groupsWf_ringBroken {s : State} (hs : Groups.wf s.groups = true) (ctx : Nat) (c : Context) :
    Groups.wf (ringBroken s ctx c).groups = true := by
  unfold ringBroken
  split <;> simp [groupsWf_terminate, groupsWf_finishLeaving, hs]

theorem groupsWf_putRecord {s : State} (hs : Groups.wf s.groups = true) (ctx : Nat) (c : Context) (r : Rec) (w : Nat) :
    Groups.wf (putRecord s ctx c r w).groups = true := by
  simp [putRecord, hubWrite_groups, hs]

theorem groupsWf_moveRing {s : State} (hs : Groups.wf s.groups = true) (ctx : Nat) : Groups.wf (moveRing s ctx).groups = true := by
  unfold moveRing
  grind only [groupsWf_ringBroken, groupsWf_finishLeaving, setContext_groups, hubWrite_groups, groupsWf_putRecord]

theorem groupsWf_hostWrite {s : State} (hs : Groups.wf s.groups = true) (addr : Nat) (bs : List Byte) :
    Groups.wf (hostWrite s addr bs).groups = true := by
  unfold hostWrite
  grind only [devlog_groups, hubWrite_groups]

@[simp] theorem hostRead_groups (s : State) (addr n : Nat) : (hostRead s addr n).groups = s.groups := by
  unfold hostRead
  repeat' split
  all_goals simp

theorem groupsWf_hostStore {s : State} (hs : Groups.wf s.groups = true) (addr : Nat) (bs : List Byte) :
    Groups.wf (hostStore s addr bs).groups = true := by
  unfold hostStore
  grind only [writeBytes_groups]

theorem groupsWf_resendFlit {s : State} (hs : Groups.wf s.groups = true) (port : Nat) : Groups.wf (resendFlit s port).groups = true := by
  unfold resendFlit
  grind only [drawFree_groups, countError_groups, devlog_groups]

@[simp] theorem leasePeer_groups (s : State) (line : Nat) : (leasePeer s line).groups = s.groups := by
  unfold leasePeer
  grind only [putCopy_groups]

theorem groupsWf_remoteStep {s : State} (hs : Groups.wf s.groups = true) (addr n : Nat) (f : Nat → Option Nat) :
    Groups.wf (remoteStep s addr n f).groups = true := by
  unfold remoteStep
  grind only [hubWrite_groups]

theorem groupsWf_serveRemote {s : State} (hs : Groups.wf s.groups = true) (a : RemoteAccess) :
    Groups.wf (serveRemote s a).groups = true := by
  cases a with
  | load addr n =>
    have h : Groups.wf ((plainLines s addr n).foldl leasePeer s).groups = true := groupsWf_foldl hs fun _ _ h => by rwa [leasePeer_groups]
    simp only [serveRemote]
    split
    · exact hs
    · exact h
  | _ => simp only [serveRemote]; grind only [hubWrite_groups, groupsWf_remoteStep]

@[simp] theorem markUnit_groups (s : State) (e : EccError) : (markUnit s e).groups = s.groups := by
  unfold markUnit
  split <;> simp

theorem groupsWf_retryArray {s : State} (hs : Groups.wf s.groups = true) (e : EccError) : Groups.wf (retryArray s e).groups = true := by
  unfold retryArray
  grind only [countError_groups, drawFree_groups, markUnit_groups, devlog_groups, groupsWf_terminate]

theorem groupsWf_execLineParityRefetch {s : State} (hs : Groups.wf s.groups = true) (core : Nat) (line : Nat) :
    NextGroupsWf (execLineParityRefetch core line s) := by
  refine nextGroupsWf_next ?_
  grind only [fetchPhys_groups]

theorem groupsWf_execEventRecordWrite {s : State} (hs : Groups.wf s.groups = true) (ctx : Nat) :
    NextGroupsWf (execEventRecordWrite ctx s) :=
  nextGroupsWf_next (groupsWf_moveRing hs ..)

theorem groupsWf_execReplayRecord {s : State} (hs : Groups.wf s.groups = true) (ctx : Nat) (seq : Nat) :
    NextGroupsWf (execReplayRecord ctx seq s) :=
  nextGroupsWf_next (groupsWf_ctlWrite hs ..)

theorem groupsWf_execAbandonRecord {s : State} (hs : Groups.wf s.groups = true) (ctx : Nat) (seq : Nat) :
    NextGroupsWf (execAbandonRecord ctx seq s) :=
  nextGroupsWf_next (groupsWf_ctlWrite hs ..)

theorem groupsWf_execTlbSweepStart {s : State} (hs : Groups.wf s.groups = true) (value : Nat) : NextGroupsWf (execTlbSweepStart value s) :=
  nextGroupsWf_next (groupsWf_ctlWrite hs ..)

theorem groupsWf_execTlbSweepDone {s : State} (hs : Groups.wf s.groups = true) :
    NextGroupsWf (execTlbSweepDone s) := nextGroupsWf_next (groupsWf_sweepDone hs ..)

theorem groupsWf_execPreemptRequest {s : State} (hs : Groups.wf s.groups = true) (value : Nat) :
    NextGroupsWf (execPreemptRequest value s) :=
  nextGroupsWf_next (groupsWf_ctlWrite hs ..)

theorem groupsWf_execResumeRequest {s : State} (hs : Groups.wf s.groups = true) (value : Nat) : NextGroupsWf (execResumeRequest value s) :=
  nextGroupsWf_next (groupsWf_ctlWrite hs ..)

theorem groupsWf_execMigrationGo {s : State} (hs : Groups.wf s.groups = true) (value : Nat) : NextGroupsWf (execMigrationGo value s) :=
  nextGroupsWf_next (groupsWf_ctlWrite hs ..)

theorem groupsWf_execMigrationSwap {s : State} (hs : Groups.wf s.groups = true) : NextGroupsWf (execMigrationSwap s) :=
    nextGroupsWf_next (groupsWf_migrationSwap hs ..)

theorem groupsWf_execBankModeRequest {s : State} (hs : Groups.wf s.groups = true) (cluster : Nat) (bank : Nat) (value : Nat) :
    NextGroupsWf (execBankModeRequest cluster bank value s) := by
  refine nextGroupsWf_next ?_
  grind only [groupsWf_ctlWrite]

theorem groupsWf_execBankModeChange {s : State} (hs : Groups.wf s.groups = true) (cluster : Nat) (bank : Nat) :
    NextGroupsWf (execBankModeChange cluster bank s) := nextGroupsWf_next (by rwa [groupsWf_serveBank])

theorem groupsWf_execBankModeTimeout {s : State} (hs : Groups.wf s.groups = true) (cluster : Nat) (bank : Nat) :
    NextGroupsWf (execBankModeTimeout cluster bank s) := nextGroupsWf_next (by rwa [groupsWf_timeoutBank])

theorem groupsWf_execL2clsWrite {s : State} (hs : Groups.wf s.groups = true) (die : Nat) (cls : Nat) (value : Nat) :
    NextGroupsWf (execL2clsWrite die cls value s) := by
  refine nextGroupsWf_next ?_
  grind only [groupsWf_ctlWrite]

theorem groupsWf_execContextRegister {s : State} (hs : Groups.wf s.groups = true) (value : Nat) :
    NextGroupsWf (execContextRegister value s) :=
  nextGroupsWf_next (groupsWf_ctlWrite hs ..)

theorem groupsWf_execContextUnregister {s : State} (hs : Groups.wf s.groups = true) (value : Nat) :
    NextGroupsWf (execContextUnregister value s) :=
  nextGroupsWf_next (groupsWf_ctlWrite hs ..)

theorem groupsWf_execQueueRegister {s : State} (hs : Groups.wf s.groups = true) (value : Nat) : NextGroupsWf (execQueueRegister value s) :=
  nextGroupsWf_next (groupsWf_ctlWrite hs ..)

theorem groupsWf_execQueueUnregister {s : State} (hs : Groups.wf s.groups = true) (value : Nat) :
    NextGroupsWf (execQueueUnregister value s) :=
  nextGroupsWf_next (groupsWf_ctlWrite hs ..)

theorem groupsWf_execMemmapWrite {s : State} (hs : Groups.wf s.groups = true) (entry : Nat) (value : Nat) :
    NextGroupsWf (execMemmapWrite entry value s) := by
  refine nextGroupsWf_next ?_
  grind only [groupsWf_ctlWrite]

theorem groupsWf_execErrorCounterClear {s : State} (hs : Groups.wf s.groups = true) (die : Nat) (counter : Nat) :
    NextGroupsWf (execErrorCounterClear die counter s) := by
  refine nextGroupsWf_next ?_
  grind only [groupsWf_ctlWrite]

theorem groupsWf_execHostMemWrite {s : State} (hs : Groups.wf s.groups = true) (addr : Nat) (bytes : List Byte) :
    NextGroupsWf (execHostMemWrite addr bytes s) := nextGroupsWf_next (groupsWf_hostWrite hs ..)

theorem groupsWf_execHostMemRead {s : State} (hs : Groups.wf s.groups = true) (addr : Nat) (count : Nat) :
    NextGroupsWf (execHostMemRead addr count s) := nextGroupsWf_next (by rwa [hostRead_groups])

theorem groupsWf_execHostCacheInvalidate {s : State} (hs : Groups.wf s.groups = true) (addr : Nat) (bytes : List Byte) :
    NextGroupsWf (execHostCacheInvalidate addr bytes s) := nextGroupsWf_next (groupsWf_hostStore hs ..)

theorem groupsWf_execPhoathFlitResend {s : State} (hs : Groups.wf s.groups = true) (port : Nat) :
    NextGroupsWf (execPhoathFlitResend port s) :=
  nextGroupsWf_next (groupsWf_resendFlit hs ..)

theorem groupsWf_execEccRetry {s : State} (hs : Groups.wf s.groups = true) (err : EccError) : NextGroupsWf (execEccRetry err s) :=
    nextGroupsWf_next (groupsWf_retryArray hs ..)

theorem groupsWf_execBootStart {s : State} (hs : Groups.wf s.groups = true) (checks : BootChecks) : NextGroupsWf (execBootStart checks s) :=
  nextGroupsWf_next (by rwa [bootStart_groups])

theorem groupsWf_execBootWatchdog {s : State} (hs : Groups.wf s.groups = true) : NextGroupsWf (execBootWatchdog s) :=
    nextGroupsWf_next (by rwa [bootWatchdog_groups])

theorem groupsWf_execBootctlRestart {s : State} (hs : Groups.wf s.groups = true) (value : Nat) :
    NextGroupsWf (execBootctlRestart value s) :=
  nextGroupsWf_next (groupsWf_ctlWrite hs ..)

theorem groupsWf_execPowerStateRequest {s : State} (hs : Groups.wf s.groups = true) (value : Nat) :
    NextGroupsWf (execPowerStateRequest value s) :=
  nextGroupsWf_next (groupsWf_ctlWrite hs ..)

theorem groupsWf_execRegisterWrite {s : State} (hs : Groups.wf s.groups = true) (offset : Nat) (size : Nat) (value : Nat) :
    NextGroupsWf (execRegisterWrite offset size value s) := nextGroupsWf_next (groupsWf_ctlWrite hs ..)

theorem groupsWf_execPhoathRemoteAccess {s : State} (hs : Groups.wf s.groups = true) (access : RemoteAccess) :
    NextGroupsWf (execPhoathRemoteAccess access s) := nextGroupsWf_next (groupsWf_serveRemote hs ..)

/-! ### Machine/Issue -/

theorem wf_afterCycle {g : Group} (h : Group.wf g = true) (now : Nat) (offers : List Offer) (picks : List (Offer × Act)) (key : Nat) :
    Group.wf (afterCycle now offers picks key g) = true := by
  unfold afterCycle
  split
  · exact h
  · exact h

theorem groupsWf_issueQuarter {s : State} (hs : Groups.wf s.groups = true) (ready : Nat → Nat → Bool) (k q : Nat) :
    Groups.wf (issueQuarter s ready k q).groups = true := by
  unfold issueQuarter
  refine Groups.wf_map hs fun e he => ?_
  split
  · exact wf_afterCycle he ..
  · exact he

/-! ### Machine/Act -/

theorem groupsWf_tried {s : State} (hs : Groups.wf s.groups = true) (key frag : Nat) :
    Groups.wf (tried s key frag).groups = true := groupsWf_modGroup hs key fun _ h => h

theorem groupsWf_prepare {s : State} (hs : Groups.wf s.groups = true) (ex : Instr → State → Host.Outcome State Fault Refusal) (a : Act) :
    Groups.wf (prepare ex s a).state.groups = true := by
  unfold prepare
  grind only [Ready.state, groupsWf_fetchFrag, groupsWf_fetchParked, groupsWf_fetchStream, groupsWf_issueQuarter]

theorem groupsWf_prepareDrawn {s : State} (hs : Groups.wf s.groups = true) (ex : Instr → State → Host.Outcome State Fault Refusal) (a : Act) :
    Groups.wf (prepareDrawn ex s a).state.groups = true := by
  unfold prepareDrawn
  split <;> simp [groupsWf_prepare, hs]

theorem groupsWf_prepareNext {s0 : State} (hs0 : Groups.wf s0.groups = true) (ex : Instr → State → Host.Outcome State Fault Refusal) :
    Groups.wf (prepareNext ex s0).state.groups = true := by
  unfold prepareNext
  grind only [rereadContexts_groups, groupsWf_prepare, groupsWf_prepareDrawn]

end Sys2Proof.Machine.Ops
end

section
/-! The register files of every group stay in canonical form (the end): every meaning keeps the form, and so does a step. -/

namespace Sys2Proof.Machine

open Ops

/-- Every instruction and event keeps the register files of every group in canonical form. -/
theorem groupsWf_exec {s : State} (hs : Groups.wf s.groups = true) (i : Instr) : NextGroupsWf (exec i s) := by
  cases i
  case nop h o => exact groupsWf_execNop hs h o
  case brk h o => exact groupsWf_execBrk hs h o
  case sread h o => exact groupsWf_execSread hs h o
  case swrite h o => exact groupsWf_execSwrite hs h o
  case cycrd h o => exact groupsWf_execCycrd hs h o
  case hint h o => exact groupsWf_execHint hs h o
  case trap h o => exact groupsWf_execTrap hs h o
  case rett h o => exact groupsWf_execRett hs h o
  case rgn h o => exact groupsWf_execRgn hs h o
  case rgnend h o => exact groupsWf_execRgnend hs h o
  case bra h o => exact groupsWf_execBra hs h o
  case brall h o => exact groupsWf_execBrall hs h o
  case brany h o => exact groupsWf_execBrany hs h o
  case brx h o => exact groupsWf_execBrx hs h o
  case call h o => exact groupsWf_execCall hs h o
  case callx h o => exact groupsWf_execCallx hs h o
  case ret h o => exact groupsWf_execRet hs h o
  case loop h o => exact groupsWf_execLoop hs h o
  case mrg h o => exact groupsWf_execMrg hs h o
  case mrgx h o => exact groupsWf_execMrgx hs h o
  case add h o => exact groupsWf_execAdd hs h o
  case addc h o => exact groupsWf_execAddc hs h o
  case sub h o => exact groupsWf_execSub hs h o
  case subb h o => exact groupsWf_execSubb hs h o
  case addi h o => exact groupsWf_execAddi hs h o
  case mul h o => exact groupsWf_execMul hs h o
  case mulhi h o => exact groupsWf_execMulhi hs h o
  case mulw h o => exact groupsWf_execMulw hs h o
  case mad h o => exact groupsWf_execMad hs h o
  case madw h o => exact groupsWf_execMadw hs h o
  case div h o => exact groupsWf_execDiv hs h o
  case rem h o => exact groupsWf_execRem hs h o
  case divrem h o => exact groupsWf_execDivrem hs h o
  case min h o => exact groupsWf_execMin hs h o
  case max h o => exact groupsWf_execMax hs h o
  case clamp h o => exact groupsWf_execClamp hs h o
  case abs h o => exact groupsWf_execAbs hs h o
  case sad h o => exact groupsWf_execSad hs h o
  case dot4 h o => exact groupsWf_execDot4 hs h o
  case dot2 h o => exact groupsWf_execDot2 hs h o
  case lea h o => exact groupsWf_execLea hs h o
  case leai h o => exact groupsWf_execLeai hs h o
  case and h o => exact groupsWf_execAnd hs h o
  case or h o => exact groupsWf_execOr hs h o
  case xor h o => exact groupsWf_execXor hs h o
  case not h o => exact groupsWf_execNot hs h o
  case tern h o => exact groupsWf_execTern hs h o
  case bini h o => exact groupsWf_execBini hs h o
  case shl h o => exact groupsWf_execShl hs h o
  case shr h o => exact groupsWf_execShr hs h o
  case sra h o => exact groupsWf_execSra hs h o
  case fsl h o => exact groupsWf_execFsl hs h o
  case fsr h o => exact groupsWf_execFsr hs h o
  case popc h o => exact groupsWf_execPopc hs h o
  case clz h o => exact groupsWf_execClz hs h o
  case brev h o => exact groupsWf_execBrev hs h o
  case bfx h o => exact groupsWf_execBfx hs h o
  case bfi h o => exact groupsWf_execBfi hs h o
  case perm h o => exact groupsWf_execPerm hs h o
  case setp h o => exact groupsWf_execSetp hs h o
  case setpi h o => exact groupsWf_execSetpi hs h o
  case fsetp h o => exact groupsWf_execFsetp hs h o
  case plop h o => exact groupsWf_execPlop hs h o
  case sel h o => exact groupsWf_execSel hs h o
  case seli h o => exact groupsWf_execSeli hs h o
  case mov h o => exact groupsWf_execMov hs h o
  case movi h o => exact groupsWf_execMovi hs h o
  case p2r h o => exact groupsWf_execP2r hs h o
  case regToPred h o => exact groupsWf_execRegToPred hs h o
  case fadd h o => exact groupsWf_execFadd hs h o
  case fsub h o => exact groupsWf_execFsub hs h o
  case fmul h o => exact groupsWf_execFmul hs h o
  case fma h o => exact groupsWf_execFma hs h o
  case fmin h o => exact groupsWf_execFmin hs h o
  case fmax h o => exact groupsWf_execFmax hs h o
  case frnd h o => exact groupsWf_execFrnd hs h o
  case fclass h o => exact groupsWf_execFclass hs h o
  case fadd2 h o => exact groupsWf_execFadd2 hs h o
  case fmul2 h o => exact groupsWf_execFmul2 hs h o
  case fma2 h o => exact groupsWf_execFma2 hs h o
  case fdot2 h o => exact groupsWf_execFdot2 hs h o
  case fex2 h o => exact groupsWf_execFex2 hs h o
  case flg2 h o => exact groupsWf_execFlg2 hs h o
  case frcp h o => exact groupsWf_execFrcp hs h o
  case frsq h o => exact groupsWf_execFrsq hs h o
  case fsin h o => exact groupsWf_execFsin hs h o
  case fcos h o => exact groupsWf_execFcos hs h o
  case cvt h o => exact groupsWf_execCvt hs h o
  case pack h o => exact groupsWf_execPack hs h o
  case unpack h o => exact groupsWf_execUnpack hs h o
  case quant h o => exact groupsWf_execQuant hs h o
  case dequant h o => exact groupsWf_execDequant hs h o
  case pack4 h o => exact groupsWf_execPack4 hs h o
  case shfl h o => exact groupsWf_execShfl hs h o
  case shfli h o => exact groupsWf_execShfli hs h o
  case vote h o => exact groupsWf_execVote hs h o
  case pmask h o => exact groupsWf_execPmask hs h o
  case lfold h o => exact groupsWf_execLfold hs h o
  case matchLanes h o => exact groupsWf_execMatchLanes hs h o
  case rdlane h o => exact groupsWf_execRdlane hs h o
  case ddx h o => exact groupsWf_execDdx hs h o
  case ddy h o => exact groupsWf_execDdy hs h o
  case rpinit h o => exact groupsWf_execRpinit hs h o
  case rparr h o => exact groupsWf_execRparr hs h o
  case rpwait h o => exact groupsWf_execRpwait hs h o
  case rparw h o => exact groupsWf_execRparw hs h o
  case rpbytes h o => exact groupsWf_execRpbytes hs h o
  case yield h o => exact groupsWf_execYield hs h o
  case yieldto h o => exact groupsWf_execYieldto hs h o
  case sleep h o => exact groupsWf_execSleep hs h o
  case exit h o => exact groupsWf_execExit hs h o
  case rendezvousArrivalCount arrival => exact groupsWf_execRendezvousArrivalCount hs arrival
  case sleepExpiry group => exact groupsWf_execSleepExpiry hs group
  case ld h o => exact groupsWf_execLd hs h o
  case st h o => exact groupsWf_execSt hs h o
  case ldacq h o => exact groupsWf_execLdacq hs h o
  case strel h o => exact groupsWf_execStrel hs h o
  case ldk h o => exact groupsWf_execLdk hs h o
  case stk h o => exact groupsWf_execStk hs h o
  case ldw h o => exact groupsWf_execLdw hs h o
  case stw h o => exact groupsWf_execStw hs h o
  case fpush h o => exact groupsWf_execFpush hs h o
  case fpop h o => exact groupsWf_execFpop hs h o
  case fpeek h o => exact groupsWf_execFpeek hs h o
  case pref h o => exact groupsWf_execPref hs h o
  case fifoWaitServed cluster bank => exact groupsWf_execFifoWaitServed hs cluster bank
  case atom h o => exact groupsWf_execAtom hs h o
  case atomcas h o => exact groupsWf_execAtomcas hs h o
  case atomf h o => exact groupsWf_execAtomf hs h o
  case red h o => exact groupsWf_execRed hs h o
  case redDet h o => exact groupsWf_execRedDet hs h o
  case redf h o => exact groupsWf_execRedf hs h o
  case redfDet h o => exact groupsWf_execRedfDet hs h o
  case dflush h o => exact groupsWf_execDflush hs h o
  case fenceAcq h o => exact groupsWf_execFenceAcq hs h o
  case fenceRel h o => exact groupsWf_execFenceRel hs h o
  case fenceAr h o => exact groupsWf_execFenceAr hs h o
  case fenceSmp h o => exact groupsWf_execFenceSmp hs h o
  case fwait h o => exact groupsWf_execFwait hs h o
  case ngath h o => exact groupsWf_execNgath hs h o
  case nscat h o => exact groupsWf_execNscat hs h o
  case cwb h o => exact groupsWf_execCwb hs h o
  case cinv h o => exact groupsWf_execCinv hs h o
  case cdisc h o => exact groupsWf_execCdisc hs h o
  case icinv h o => exact groupsWf_execIcinv hs h o
  case storePerform store => exact groupsWf_execStorePerform hs store
  case releaseComplete release => exact groupsWf_execReleaseComplete hs release
  case longLatencyResultLand group => exact groupsWf_execLongLatencyResultLand hs group
  case cpy h o => exact groupsWf_execCpy hs h o
  case cpyo h o => exact groupsWf_execCpyo hs h o
  case cpyq h o => exact groupsWf_execCpyq hs h o
  case halloc h o => exact groupsWf_execHalloc hs h o
  case hfree h o => exact groupsWf_execHfree hs h o
  case hwaitTake h o => exact groupsWf_execHwaitTake hs h o
  case hwaitPeek h o => exact groupsWf_execHwaitPeek hs h o
  case hstat h o => exact groupsWf_execHstat hs h o
  case publish h o => exact groupsWf_execPublish hs h o
  case publishSwap publish => exact groupsWf_execPublishSwap hs publish
  case copyCommandStart cluster => exact groupsWf_execCopyCommandStart hs cluster
  case copyChunkLand cluster command => exact groupsWf_execCopyChunkLand hs cluster command
  case copySignalWrite cluster command => exact groupsWf_execCopySignalWrite hs cluster command
  case spillRingRefill cluster => exact groupsWf_execSpillRingRefill hs cluster
  case cespillbWrite cluster value => exact groupsWf_execCespillbWrite hs cluster value
  case queueSlotDispatch queue => exact groupsWf_execQueueSlotDispatch hs queue
  case teamStart launch team core base => exact groupsWf_execTeamStart hs launch team core base
  case launchCompletionRecord launch => exact groupsWf_execLaunchCompletionRecord hs launch
  case issueCycle core quarter => exact groupsWf_execIssueCycle hs core quarter
  case issuePriorityPromotion group => exact groupsWf_execIssuePriorityPromotion hs group
  case xfPipeGrant core => exact groupsWf_execXfPipeGrant hs core
  case xfPipeReply core => exact groupsWf_execXfPipeReply hs core
  case xfCvt h o => exact groupsWf_execXfCvt hs h o
  case xfQuant h o => exact groupsWf_execXfQuant hs h o
  case xfDequant h o => exact groupsWf_execXfDequant hs h o
  case xfRkey h o => exact groupsWf_execXfRkey hs h o
  case xfHash h o => exact groupsWf_execXfHash hs h o
  case xfPenc h o => exact groupsWf_execXfPenc hs h o
  case mlda h o => exact groupsWf_execMlda hs h o
  case mldb h o => exact groupsWf_execMldb hs h o
  case mldbs h o => exact groupsWf_execMldbs hs h o
  case mscale h o => exact groupsWf_execMscale hs h o
  case mma h o => exact groupsWf_execMma hs h o
  case mmaBat h o => exact groupsWf_execMmaBat hs h o
  case mzero h o => exact groupsWf_execMzero hs h o
  case mstacc h o => exact groupsWf_execMstacc hs h o
  case mldacc h o => exact groupsWf_execMldacc hs h o
  case mloop h o => exact groupsWf_execMloop hs h o
  case marr h o => exact groupsWf_execMarr hs h o
  case mwait h o => exact groupsWf_execMwait hs h o
  case mend h o => exact groupsWf_execMend hs h o
  case matrixArbiterGrant core => exact groupsWf_execMatrixArbiterGrant hs core
  case acctagWrite core tile value => exact groupsWf_execAcctagWrite hs core tile value
  case accWindowWrite core tile offset value => exact groupsWf_execAccWindowWrite hs core tile offset value
  case neval h o => exact groupsWf_execNeval hs h o
  case nevstatCnt h o => exact groupsWf_execNevstatCnt hs h o
  case nevstatKick h o => exact groupsWf_execNevstatKick hs h o
  case nevalTimerExpiry core slot => exact groupsWf_execNevalTimerExpiry hs core slot
  case nevalTileFire core => exact groupsWf_execNevalTileFire hs core
  case nevalLayer core tile => exact groupsWf_execNevalLayer hs core tile
  case nevalLanding core tile => exact groupsWf_execNevalLanding hs core tile
  case nvspillbWrite core value => exact groupsWf_execNvspillbWrite hs core value
  case ssnew h o => exact groupsWf_execSsnew hs h o
  case ssadd h o => exact groupsWf_execSsadd hs h o
  case ssbuild h o => exact groupsWf_execSsbuild hs h o
  case ssbind h o => exact groupsWf_execSsbind hs h o
  case ssrebind h o => exact groupsWf_execSsrebind hs h o
  case ssfree h o => exact groupsWf_execSsfree hs h o
  case ssget h o => exact groupsWf_execSsget hs h o
  case emitv h o => exact groupsWf_execEmitv hs h o
  case emit h o => exact groupsWf_execEmit hs h o
  case emitsp h o => exact groupsWf_execEmitsp hs h o
  case rflush h o => exact groupsWf_execRflush hs h o
  case fin h o => exact groupsWf_execFin hs h o
  case fout h o => exact groupsWf_execFout hs h o
  case fdep h o => exact groupsWf_execFdep hs h o
  case disc h o => exact groupsWf_execDisc hs h o
  case binnerInsert die => exact groupsWf_execBinnerInsert hs die
  case flushComplete set => exact groupsWf_execFlushComplete hs set
  case fragmentLaunch set core base => exact groupsWf_execFragmentLaunch hs set core base
  case blendApply set sample => exact groupsWf_execBlendApply hs set sample
  case passEnd set => exact groupsWf_execPassEnd hs set
  case alm h o => exact groupsWf_execAlm hs h o
  case almhz h o => exact groupsWf_execAlmhz hs h o
  case stcm h o => exact groupsWf_execStcm hs h o
  case ldasof h o => exact groupsWf_execLdasof hs h o
  case almwait h o => exact groupsWf_execAlmwait hs h o
  case stcmRecord lane => exact groupsWf_execStcmRecord hs lane
  case horizonUpdate copies => exact groupsWf_execHorizonUpdate hs copies
  case almanacAdvance time die e l => exact groupsWf_execAlmanacAdvance hs time die e l
  case almWideTimeout group => exact groupsWf_execAlmWideTimeout hs group
  case dieSilentTimeout die => exact groupsWf_execDieSilentTimeout hs die
  case lineParityRefetch core line => exact groupsWf_execLineParityRefetch hs core line
  case eventRecordWrite ctx => exact groupsWf_execEventRecordWrite hs ctx
  case replayRecord ctx seq => exact groupsWf_execReplayRecord hs ctx seq
  case abandonRecord ctx seq => exact groupsWf_execAbandonRecord hs ctx seq
  case tlbSweepStart value => exact groupsWf_execTlbSweepStart hs value
  case tlbSweepDone => exact groupsWf_execTlbSweepDone hs
  case preemptRequest value => exact groupsWf_execPreemptRequest hs value
  case teamSwitchOut team => exact groupsWf_execTeamSwitchOut hs team
  case resumeRequest value => exact groupsWf_execResumeRequest hs value
  case teamResume team core base => exact groupsWf_execTeamResume hs team core base
  case migrationGo value => exact groupsWf_execMigrationGo hs value
  case migrationSwap => exact groupsWf_execMigrationSwap hs
  case bankModeRequest cluster bank value => exact groupsWf_execBankModeRequest hs cluster bank value
  case bankModeChange cluster bank => exact groupsWf_execBankModeChange hs cluster bank
  case bankModeTimeout cluster bank => exact groupsWf_execBankModeTimeout hs cluster bank
  case l2clsWrite die cls value => exact groupsWf_execL2clsWrite hs die cls value
  case contextRegister value => exact groupsWf_execContextRegister hs value
  case contextUnregister value => exact groupsWf_execContextUnregister hs value
  case queueRegister value => exact groupsWf_execQueueRegister hs value
  case queueUnregister value => exact groupsWf_execQueueUnregister hs value
  case memmapWrite entry value => exact groupsWf_execMemmapWrite hs entry value
  case errorCounterClear die counter => exact groupsWf_execErrorCounterClear hs die counter
  case hostMemWrite addr bytes => exact groupsWf_execHostMemWrite hs addr bytes
  case hostMemRead addr count => exact groupsWf_execHostMemRead hs addr count
  case hostCacheInvalidate addr bytes => exact groupsWf_execHostCacheInvalidate hs addr bytes
  case phoathFlitResend port => exact groupsWf_execPhoathFlitResend hs port
  case eccRetry err => exact groupsWf_execEccRetry hs err
  case bootStart checks => exact groupsWf_execBootStart hs checks
  case bootWatchdog => exact groupsWf_execBootWatchdog hs
  case bootctlRestart value => exact groupsWf_execBootctlRestart hs value
  case powerStateRequest value => exact groupsWf_execPowerStateRequest hs value
  case registerWrite offset size value => exact groupsWf_execRegisterWrite hs offset size value
  case phoathRemoteAccess access => exact groupsWf_execPhoathRemoteAccess hs access

/-- A step that answers a next state keeps the form: the act is prepared, and what it prepares is executed. -/
theorem groupsWf_step {s : State} (hs : Groups.wf s.groups = true) : NextGroupsWf (step s) := by
  have hp := groupsWf_prepareNext hs exec
  unfold step
  split
  · next h =>
    rw [h] at hp
    exact nextGroupsWf_next hp
  · next h =>
    rw [h] at hp
    exact groupsWf_exec hp _

end Sys2Proof.Machine

/-- Settles O40: every operation on a group writes its files by `Maps.set`, filters them or leaves them alone, and the groups that
start do so in the form. -/
theorem Sys2Proof.registersStayCanonical : Obligations.RegistersStayCanonical := by
  unfold Obligations.RegistersStayCanonical
  exact fun s t ht hs => Machine.groupsWf_step hs t ht
end

section
/-! Frames that do not hold. A completion also frees the join entries of its group that are complete (08 R172); the fragment that an entry
releases while a trap handler runs in another one is added to the stopped fragments (21 R386), which the frames keep. -/

namespace Sys2Proof.Claims

open Sys2Proof.Machine Sys2Proof.Machine.Ops

/-- A trap handler runs in lane 0, the fragment of lane 1 is stopped, and a join entry awaits lane 2 alone, which has arrived. -/
def joinGroup : Group :=
  { team := 1, nv := 256, nk := 64, lstat := [(0, 0x8000), (1, 0x8000), (2, 0x8000)], stopped := [1]
    frags := [(0, { mask := 1, pc := 64 }), (1, { mask := 2, pc := 64 })], joins := [(0, { ra := 128, arrived := 4, expected := 4 })] }

def joinTeam : Team := { ctx := 1, hdr := { scratch := 0x100 } }

def joinState : State := { cur := .frag 32 0, groups := [(32, joinGroup)], teams := [(1, joinTeam)], contexts := [(1, {})] }

/-- `add.u32 v0 = v4 + v6`. -/
def joinAdd : Instr := .add (always 0x60) ⟨0, false, 0, 8, 6, 4, 0⟩

/-- The operands of a load from scratch, with its base in k0:1, into v0. -/
def joinMem : OpM := ⟨0, 1, 0, 0, false, 0, 0x100, 0⟩

def joinLd : Instr := .ld (always 0x60) joinMem

def joinCtx (i : Instr) : Ctx :=
  { s := joinState, key := 32, g := joinGroup, tm := joinTeam, frag := 0, f := { mask := 1, pc := 64 }
    v := [], k := [], p := [], active := 1, pass := 1, h := always 0x60, i := i, park := none }

/-- The stopped fragments of a group after an instruction. -/
def stoppedAfter (i : Instr) (s : State) (key : Nat) : Option (List Nat) :=
  match exec i s with
  | .next t => (group? t key).map (fun g => g.stopped)
  | _ => none

theorem next_of_stoppedAfter {i : Instr} {s : State} {key : Nat} {x : List Nat} (h : stoppedAfter i s key = some x) :
    ∃ t, exec i s = .next t ∧ (group? t key).map (fun g => g.stopped) = some x := by
  unfold stoppedAfter at h
  split at h
  · next t ht => exact ⟨t, ht, h⟩
  · cases h

/-- A group in which the stopped fragments have changed is none that a frame keeps. -/
theorem not_keepsGroup_of_stopped {t : State} {key : Nat} {g g' : Group} {x : List Nat}
    (ht : (group? t key).map (fun g => g.stopped) = some x) (hg : group? t key = some g') (hx : x ≠ g.stopped) : ¬ keepsGroup g g' := by
  rintro ⟨-, -, -, -, -, -, -, -, -, -, -, -, -, -, -, -, -, -, hst, -⟩
  rw [hg] at ht
  exact hx ((Option.some.inj ht).symm.trans hst)

theorem joinAdd_ready : readyFor joinState joinAdd = some (joinCtx joinAdd) := rfl

theorem joinLd_ready : readyFor joinState joinLd = some (joinCtx joinLd) := rfl

theorem joinGroup_ok : groupOk joinGroup := ⟨by decide +kernel, by decide⟩

/-- The fragment of lane 2 is stopped with that of lane 1. -/
theorem joinAdd_stops : stoppedAfter joinAdd joinState 32 = some [2, 1] := by decide +kernel

theorem joinLd_stops : stoppedAfter joinLd joinState 32 = some [2, 1] := by decide +kernel

theorem retire_joins :
    (group? (retire (joinCtx joinAdd) {} joinState 65 [] []) 32).map (fun g => g.stopped) = some [2, 1] := by decide +kernel

/-- The load's accesses pass every check, and nothing makes it wait. -/
theorem joinLd_reaches : ∃ ps s1,
    reaches (joinCtx joinLd) joinMem (loadNeeds joinMem [0, 1, 2, 4]) (laneAccs (joinCtx joinLd) joinMem 4) ps s1 ∧
      readable (joinCtx joinLd) ps :=
  ⟨[({ lane := 0, ea := 0, n := 4 }, .scr 1 0)], joinState, ⟨by decide +kernel, rfl⟩, by decide +kernel, by decide +kernel⟩

end Sys2Proof.Claims

namespace Sys2Proof

open Claims

/-- Refutes O42: a completion frees a complete join entry while a handler runs, and the fragment that it releases is stopped. -/
theorem not_completionFrame : ¬ Obligations.CompletionFrame := by
  unfold Obligations.CompletionFrame
  intro h
  obtain ⟨⟨-, g', hg, -, hw⟩, -⟩ := h (joinCtx joinAdd) {} joinState 65 [] [] joinGroup rfl joinGroup_ok.1
  exact not_keepsGroup_of_stopped retire_joins hg (by decide) hw.1

/-- Refutes O43: an `add` of a handler whose completion frees a complete join entry. -/
theorem not_registerInstructionFrame : ¬ Obligations.RegisterInstructionFrame := by
  unfold Obligations.RegisterInstructionFrame
  intro h
  obtain ⟨t, ht, hs⟩ := next_of_stoppedAfter joinAdd_stops
  obtain ⟨-, g', hg, hk, -⟩ := h joinState t joinAdd _ _ rfl joinAdd_ready (by decide) (by decide) rfl joinGroup_ok ht
  exact not_keepsGroup_of_stopped hs hg (by decide) hk

/-- Refutes O44: a load of a handler from scratch whose completion frees a complete join entry. -/
theorem not_loadFrame : ¬ Obligations.LoadFrame := by
  unfold Obligations.LoadFrame
  rintro ⟨h, -⟩
  obtain ⟨t, ht, hs⟩ := next_of_stoppedAfter joinLd_stops
  obtain ⟨ps, s1, hr, hq⟩ := joinLd_reaches
  obtain ⟨-, -, ⟨-, x, g', -, hg, hk, -⟩, -⟩ := h joinState t s1 joinLd _ joinMem _ 4 ps rfl joinLd_ready rfl joinGroup_ok hr hq ht
  exact not_keepsGroup_of_stopped hs hg (by decide) hk

end Sys2Proof
end

section
/-! System instructions and `exit` (06 R134 to R137; 21 R411, R412; 01 R32): what each completes with. -/

namespace Sys2Proof.Claims

open Sys2Proof.Machine Sys2Proof.Machine.Ops Sys2Proof.Bits

section
variable {i : Instr} {x : Shape} {body : Ctx → Res} {ok : Ctx → Prop} {next : Ctx → State}

theorem moves_of_moved (hx : shapeOf i = some x) (he : ∀ s, exec i s = run i x.hdr x.marks x.opnds x.preds body s)
    (hb : ∀ c, ok c → body c = .moved (next c)) : moves i ok next := fun s c hr hk => by
  rw [he, marksOf_eq hx]
  exact run_moved (ready_of_readyFor hx hr) (hb c hk)

theorem traps_of_trap {t : Ctx → Trap} (hx : shapeOf i = some x) (he : ∀ s, exec i s = run i x.hdr x.marks x.opnds x.preds body s)
    (hb : ∀ c, ok c → body c = .trap (t c) (next c)) : traps i ok t next := fun s c hr hk hh => by
  rw [he]
  exact run_trap (ready_of_readyFor hx hr) (hb c hk) hh

end

theorem nop_done (h : Hdr) (o : OpS) : done (.nop h o) (fun _ => []) :=
  completes_of_done rfl (fun s => Eq.refl (execNop h o s)) fun _ _ => rfl

theorem hint_done (h : Hdr) (o : OpS) : done (.hint h o) (fun _ => []) :=
  completes_of_done rfl (fun s => Eq.refl (execHint h o s)) fun _ _ => rfl

theorem brk_traps (h : Hdr) (o : OpS) : traps (.brk h o) (fun c => acts c = true)
    (fun c => { code := 0x18, lanes := c.active, info := o.imm.toNat }) (fun c => c.s) :=
  traps_of_trap rfl (fun s => Eq.refl (execBrk h o s)) fun _ ha => if_pos ha

theorem trap_traps (h : Hdr) (o : OpS) : traps (.trap h o) (fun c => acts c = true)
    (fun c => { code := 0x19, lanes := c.active, info := o.imm.toNat }) (fun c => c.s) :=
  traps_of_trap rfl (fun s => Eq.refl (execTrap h o s)) fun _ ha => if_pos ha

theorem sread_completes (h : Hdr) (o : OpS) :
    completes (.sread h o) (fun c => (sregRead c o.sreg.toNat 0).isSome = true ∧ lstatAwaits c o.sreg.toNat = false) (fun c => c.s)
      (fun c => wrLanes c o.a 1 (fun l => (sregRead c o.sreg.toNat l).getD 0)) (fun _ => []) :=
  completes_of_done rfl (fun s => Eq.refl (execSread h o s)) fun c ⟨hs, hw⟩ => by
    obtain ⟨v, hv⟩ := Option.isSome_iff_exists.1 hs
    simp [hv, hw, doneN]

theorem swrite_effects (h : Hdr) (o : OpS) :
    effects (.swrite h o) (fun c => acts c = true ∧ sregWritable o.sreg.toNat = true ∧ lstatAwaits c o.sreg.toNat = false)
      (fun c => sregWrite c o.sreg.toNat (fun l => rd c o.a l)) :=
  completes_of_done rfl (fun s => Eq.refl (execSwrite h o s)) fun c ⟨ha, hs, hw⟩ => by simp [ha, hs, hw]

theorem cycrd_completes (h : Hdr) (r : OpR) :
    let n (c : Ctx) := c.s.cycles + Config.freeCycles c.s.fresh % (2 ^ 64 - c.s.cycles)
    completes (.cycrd h r) (fun _ => True) (fun c => { c.s with fresh := c.s.fresh + 1, cycles := n c })
      (fun c => wrLanes c r.d 2 (fun _ => n c)) (fun _ => []) :=
  completes_of_done rfl (fun s => Eq.refl (execCycrd h r s)) fun _ _ => rfl

theorem rett_moves (h : Hdr) (o : OpS) : moves (.rett h o)
    (fun c => acts c = true ∧ inh c.g = true ∧ badForm c c.s c.g.epc = none) (fun c => returnFromTrap c.key c.frag c.s) :=
  moves_of_moved rfl (fun s => Eq.refl (execRett h o s)) fun c ⟨ha, hi, hf⟩ => by simp [ha, hi, hf]

/-- `rgn` opens the region whose entry it has read, when no other fragment is there and every other result is known (R412). -/
theorem beginRegion_done {c : Ctx} {n : Nat} {bs : List Byte} {s1 : State} (h1 : fragCount c.g ≤ 1) (hn : n < c.tm.hdr.rcount)
    (ha : tableAddr c n % 64 = 0) (hl : issueLoad c tableNeeds c.active (tableAddr c n) 64 = .ok (bs, s1))
    (hv : (bs.getD 40 0).toNat.testBit 0 = true) (ho : othersReady c = true) :
    beginRegion c n = .done (modGroup s1 c.key (openRegion c n bs)) [] [] := by
  have hodd : tableOdd c n = false := by simp [tableOdd, ha]
  simp only [beginRegion, Nat.not_lt.2 h1, Nat.not_le.2 hn, or_self, if_false, hodd, hl, hv, ho]
  rfl

theorem rgn_completes (h : Hdr) (o : OpS) {s s1 : State} {c : Ctx} {bs : List Byte} (hr : readyFor s (.rgn h o) = some c)
    (ha : acts c = true) (h1 : fragCount c.g ≤ 1) (hn : field o.imm.toNat 0 12 < c.tm.hdr.rcount)
    (hal : tableAddr c (field o.imm.toNat 0 12) % 64 = 0)
    (hl : issueLoad c tableNeeds c.active (tableAddr c (field o.imm.toNat 0 12)) 64 = .ok (bs, s1))
    (hv : (bs.getD 40 0).toNat.testBit 0 = true) (ho : othersReady c = true) :
    exec (.rgn h o) s =
      .next (retire c mMem (modGroup s1 c.key (openRegion c (field o.imm.toNat 0 12) bs)) (nextSlot c.f.pc) [] []) := by
  have he : exec (.rgn h o) s = execRgn h o s := rfl
  have hr' := ready_of_readyFor (i := .rgn h o) rfl hr
  rw [he, execRgn]
  exact run_done hr' ((if_pos ha).trans (beginRegion_done h1 hn hal hl hv ho))

theorem rgnend_effects (h : Hdr) (o : OpS) :
    effects (.rgnend h o) (fun c => acts c = true) (fun c => modGroup c.s c.key (fun g => { g with region := none })) :=
  completes_of_done rfl (fun s => Eq.refl (execRgnend h o s)) fun _ ha => if_pos ha

theorem exit_effects (h : Hdr) (o : OpS) :
    effects (.exit h o) (fun c => acts c = true ∧ liveMask (leaveLanes c.frag c.pass c.g) ≠ 0)
      (fun c => modGroup (takeResults c.g c.pass c.s) c.key (leaveLanes c.frag c.pass)) :=
  completes_of_done rfl (fun s => Eq.refl (execExit h o s)) fun c ⟨ha, hl⟩ => by simp [exitLanes, ha, hl]

theorem exit_ends (h : Hdr) (o : OpS) :
    moves (.exit h o) (fun c => acts c = true ∧ liveMask (leaveLanes c.frag c.pass c.g) = 0 ∧ lastWithDets c = false)
      (fun c => endGroup (takeResults c.g c.pass c.s) c.key c.g.team) :=
  moves_of_moved rfl (fun s => Eq.refl (execExit h o s)) fun c ⟨ha, hl, hd⟩ => by simp [exitLanes, ha, hl, hd]

/-- The last group of a team drains the reductions that are left before it ends (11 R223). -/
theorem exit_drains (h : Hdr) (o : OpS) :
    moves (.exit h o) (fun c => acts c = true ∧ liveMask (leaveLanes c.frag c.pass c.g) = 0 ∧ lastWithDets c = true ∧
        detsBlocked c.s c.tm = false ∧ storeGate c.s c.key = none)
      (fun c => endGroup (drainDets (takeResults c.g c.pass c.s) c.g.team (some c.key)) c.key c.g.team) :=
  moves_of_moved rfl (fun s => Eq.refl (execExit h o s)) fun c ⟨ha, hl, hd, hb, hg⟩ => by simp [exitLanes, ha, hl, hd, hb, hg]

end Sys2Proof.Claims

/-- Settles O9: each instruction's effect ends as its lemma above says, in every context in which it is ready. -/
theorem Sys2Proof.systemInstructionsComplete : Obligations.SystemInstructionsComplete := by
  unfold Obligations.SystemInstructionsComplete
  exact fun h o r => ⟨Claims.nop_done h o, Claims.hint_done h o, Claims.brk_traps h o, Claims.trap_traps h o, Claims.sread_completes h o,
    Claims.swrite_effects h o, Claims.cycrd_completes h r, Claims.rett_moves h o,
    fun _ _ _ _ hr ha h1 hn ⟨hal, hl⟩ hv ho => Claims.rgn_completes h o hr ha h1 hn hal hl hv ho, Claims.rgnend_effects h o,
    Claims.exit_effects h o, Claims.exit_ends h o, Claims.exit_drains h o⟩
end

section
/-! Pairs and predicates (01 R13, R16): what a register reads after the writes of a result. -/

namespace Sys2Proof.Maps

variable {α : Type} [DecidableEq α] {d : α} {k : Nat} {x y : α} {m : List (Nat × α)}

theorem rising_of_canonical (h : canonical d m = true) : rising m = true := (Bool.and_eq_true_iff.1 h).1

/-- Two neighbouring entries written one after the other both read as written. -/
theorem get_set_pair (h : canonical d m = true) :
    get d k (set d (k + 1) y (set d k x m)) = x ∧ get d (k + 1) (set d (k + 1) y (set d k x m)) = y := by
  have h1 := rising_of_canonical h
  have h2 := rising_of_canonical (set_canonical (k := k) (v := x) h)
  exact ⟨by rw [get_set_ne h2 (by omega), get_set_self h1], get_set_self h2⟩

end Sys2Proof.Maps

namespace Sys2Proof.Machine.Ops

open Sys2Proof.Bits

theorem rd_lt (c : Ctx) (r : BitVec 9) (l : Nat) : rd c r l < 2 ^ 32 := by
  unfold rd
  split <;> exact BitVec.isLt _

theorem rdAt_lt (c : Ctx) (r : BitVec 9) (i l : Nat) : rdAt c r i l < 2 ^ 32 := by
  unfold rdAt
  split <;> exact BitVec.isLt _

theorem rdPair_low (c : Ctx) (r : BitVec 9) (l : Nat) : field (rdPair c r l) 0 32 = rd c r l := by
  have := rd_lt c r l
  simp only [field, rdPair, Nat.shiftRight_zero]
  omega

theorem rdPair_high (c : Ctx) (r : BitVec 9) (l : Nat) : field (rdPair c r l) 32 32 = rdAt c r 1 l := by
  have := rd_lt c r l
  have := rdAt_lt c r 1 l
  simp only [field, rdPair, Nat.shiftRight_eq_div_pow]
  omega

theorem rdPair_lt (c : Ctx) (r : BitVec 9) (l : Nat) : rdPair c r l < 2 ^ 64 := by
  have := rd_lt c r l
  have := rdAt_lt c r 1 l
  simp only [rdPair]
  omega

theorem writes_pair_v {g : Group} (hg : Group.wf g = true) {r : BitVec 9} (hr : isUni r = false) (l x : Nat) :
    Maps.get 0 (l * 256 + regNo r) ((wrN r 2 l x).foldl writeReg g).v = BitVec.ofNat 32 x ∧
      Maps.get 0 (l * 256 + (regNo r + 1)) ((wrN r 2 l x).foldl writeReg g).v = BitVec.ofNat 32 (x >>> 32) := by
  obtain ⟨hv, -⟩ := Group.wf_iff.1 hg
  simpa [wrN, upto, List.range_succ, hr, writeReg, Nat.add_assoc] using
    Maps.get_set_pair (k := l * 256 + regNo r) (x := BitVec.ofNat 32 x) (y := BitVec.ofNat 32 (x >>> 32)) hv

theorem writes_pair_k {g : Group} (hg : Group.wf g = true) {r : BitVec 9} (hr : isUni r = true) (l x : Nat) :
    Maps.get 0 (regNo r) ((wrN r 2 l x).foldl writeReg g).k = BitVec.ofNat 32 x ∧
      Maps.get 0 (regNo r + 1) ((wrN r 2 l x).foldl writeReg g).k = BitVec.ofNat 32 (x >>> 32) := by
  obtain ⟨-, hk, -⟩ := Group.wf_iff.1 hg
  simpa [wrN, upto, List.range_succ, hr, writeReg] using
    Maps.get_set_pair (k := regNo r) (x := BitVec.ofNat 32 x) (y := BitVec.ofNat 32 (x >>> 32)) hk

@[simp] theorem predAt_seven (p : List (Nat × Bool)) (l : Nat) : predAt p l 7 = true := rfl

@[simp] theorem writeReg_seven (g : Group) (l : Nat) (b : Bool) : writeReg g (.p l 7 b) = g := rfl

/-- Below p7 a predicate is its entry, which a write sets. -/
theorem predAt_of_lt {p : List (Nat × Bool)} {l r : Nat} (hr : r < 7) : predAt p l r = Maps.get false (l * 8 + r) p := by
  have : (r == 7) = false := by simpa using Nat.ne_of_lt hr
  simp [predAt, this]

theorem writeReg_p {g : Group} {l r : Nat} {b : Bool} (hr : r < 7) :
    writeReg g (.p l r b) = { g with p := Maps.set false (l * 8 + r) b g.p } := if_neg (Nat.ne_of_lt hr)

theorem predAt_writeReg_self {g : Group} (hg : Group.wf g = true) {l r : Nat} (b : Bool) (hr : r < 7) :
    predAt (writeReg g (.p l r b)).p l r = b := by
  obtain ⟨-, -, hp, -⟩ := Group.wf_iff.1 hg
  rw [writeReg_p hr, predAt_of_lt hr]
  exact Maps.get_set_self (Maps.rising_of_canonical hp)

theorem predAt_writeReg_ne {g : Group} (hg : Group.wf g = true) {l r l' r' : Nat} (b : Bool) (hr : r < 7) (hr' : r' < 8)
    (hne : (l', r') ≠ (l, r)) : predAt (writeReg g (.p l r b)).p l' r' = predAt g.p l' r' := by
  obtain ⟨-, -, hp, -⟩ := Group.wf_iff.1 hg
  obtain rfl | h7 : r' = 7 ∨ r' < 7 := by omega
  · rfl
  · have hk : l' * 8 + r' ≠ l * 8 + r := fun he => hne (Prod.ext (by simp only; omega) (by simp only; omega))
    rw [writeReg_p hr, predAt_of_lt h7, predAt_of_lt h7]
    exact Maps.get_set_ne (Maps.rising_of_canonical hp) hk

end Sys2Proof.Machine.Ops

open Sys2Proof.Machine.Ops in
/-- Settles O49: a pair is its two registers weighted by 2^32, and each write is one entry of a register file in canonical form. -/
theorem Sys2Proof.pairsAndPredicateSeven : Obligations.PairsAndPredicateSeven := by
  unfold Obligations.PairsAndPredicateSeven
  exact ⟨fun c r l => ⟨rdPair_low c r l, rdPair_high c r l, rdPair_lt c r l⟩,
    fun g r l x hg => ⟨fun hr => writes_pair_v hg hr l x, fun hr => writes_pair_k hg hr l x⟩,
    fun g l r b hg => ⟨predAt_seven .., writeReg_seven .., fun hr => ⟨predAt_writeReg_self hg b hr,
      fun l' r' hr' hne => predAt_writeReg_ne hg b hr hr' hne⟩⟩⟩
end

section
/-! What a completion does to its group: the results that land, the joins that are met and where the fragment stands (01 R30, R31, R47;
08 R172). -/

namespace Sys2Proof.Machine.Ops

open Sys2Proof.Bits

/-! ### Landing a result -/

theorem writeReg_windows (g : Group) (ws : List Window) (x : RegWrite) :
    writeReg { g with windows := ws } x = { writeReg g x with windows := ws } := by
  cases x with
  | v l r x => rfl
  | k r x => rfl
  | p l r b => simp only [writeReg]; split <;> rfl

theorem noteFault_windows (g : Group) (ws : List Window) (w : Window) :
    noteFault w { g with windows := ws } = { noteFault w g with windows := ws } := by
  unfold noteFault
  split
  · rfl
  · cases g.nevTrap <;> rfl

/-- A landing does not look at the windows. -/
theorem landWindow_windows (g : Group) (ws : List Window) (w : Window) :
    landWindow { g with windows := ws } w = { landWindow g w with windows := ws } := by
  have hw := List.foldl_hom (l := w.writes) (init := g) (fun g : Group => ({ g with windows := ws } : Group)) fun g x => writeReg_windows g ws x
  have hf := List.foldl_hom (g₁ := orLstat) (g₂ := orLstat) (l := w.flags) (init := w.writes.foldl writeReg g)
    (fun g : Group => ({ g with windows := ws } : Group)) fun _ _ => rfl
  unfold landWindow
  rw [hw, hf, noteFault_windows]

/-! ### Windows that pass -/

/-- Passing the windows changes them, the four files and the NEVAL_FAULT to come. -/
theorem passWindows_eq (g : Group) : passWindows g = { g with
    windows := (passWindows g).windows, v := (passWindows g).v, k := (passWindows g).k, p := (passWindows g).p
    lstat := (passWindows g).lstat, nevTrap := (passWindows g).nevTrap } := by
  unfold passWindows landClosed
  rw [foldl_landWindow_eq]

theorem passWindows_none {g : Group} (h : g.windows = []) : passWindows g = g := by
  have hg : g = { g with windows := [] } := by rw [← h]
  rw [hg]
  rfl

/-- While more than one instruction is left, the window stays, with one less. -/
theorem passWindows_open {g : Group} {w : Window} (h : g.windows = [w]) (hl : 1 < w.left) :
    passWindows g = { g with windows := [{ w with left := w.left - 1 }] } := by
  have h0 : w.left ≠ 0 := by omega
  have h1 : w.left - 1 ≠ 0 := by omega
  simp [passWindows, landClosed, h, h0, h1, splitClosed]

/-- The last instruction of its window writes a known result. -/
theorem passWindows_last {g : Group} {w : Window} (h : g.windows = [w]) (hr : w.ready = true) (hl : w.left = 1) :
    passWindows g = landWindow { g with windows := [] } { w with left := 0 } := by
  simp [passWindows, landClosed, h, hl, splitClosed, hr]

theorem passWindows_iterate {g : Group} {w : Window} (h : g.windows = [w]) {n : Nat} (hn : n < w.left) :
    passWindows^[n] g = { g with windows := [{ w with left := w.left - n }] } := by
  induction n with
  | zero => rw [Function.iterate_zero_apply, Nat.sub_zero, ← h]
  | succ n ih =>
    rw [Function.iterate_succ_apply', ih (by omega),
      passWindows_open (w := { w with left := w.left - n }) rfl (show 1 < w.left - n by omega)]
    rfl

/-- The n-th later completion writes the result of a window of n. -/
theorem passWindows_iterate_left {g : Group} {w : Window} (h : g.windows = [w]) (hr : w.ready = true) (hl : 0 < w.left) :
    passWindows^[w.left] g = landWindow { g with windows := [] } { w with left := 0 } := by
  obtain ⟨n, hn⟩ : ∃ n, w.left = n + 1 := ⟨w.left - 1, by omega⟩
  rw [hn, Function.iterate_succ_apply', passWindows_iterate h (by omega),
    passWindows_last (w := { w with left := w.left - n }) rfl hr (show w.left - n = 1 by omega)]

/-! ### The group of a completion -/

theorem foldl_writes_windows (w : List RegWrite) (fl : List (Nat × Nat)) (g : Group) :
    (fl.foldl orLstat (w.foldl writeReg g)).windows = g.windows := by
  rw [foldl_orLstat_eq, foldl_writeReg_eq]

theorem foldl_writes_frags (w : List RegWrite) (fl : List (Nat × Nat)) (g : Group) :
    (fl.foldl orLstat (w.foldl writeReg g)).frags = g.frags := by
  rw [foldl_orLstat_eq, foldl_writeReg_eq]

theorem foldl_writes_joins (w : List RegWrite) (fl : List (Nat × Nat)) (g : Group) :
    (fl.foldl orLstat (w.foldl writeReg g)).joins = g.joins := by
  rw [foldl_orLstat_eq, foldl_writeReg_eq]

theorem counted_frags (c : Ctx) (w : List RegWrite) (fl : List (Nat × Nat)) (g : Group) : (counted c w fl g).frags = g.frags := by
  unfold counted
  rw [passWindows_eq]
  split
  · exact foldl_writes_frags w fl g
  · rfl

theorem counted_joins (c : Ctx) (w : List RegWrite) (fl : List (Nat × Nat)) (g : Group) : (counted c w fl g).joins = g.joins := by
  unfold counted
  rw [passWindows_eq]
  split
  · exact foldl_writes_joins w fl g
  · rfl

theorem opened_frags (c : Ctx) (w : List RegWrite) (fl : List (Nat × Nat)) (g : Group) : (opened c w fl g).frags = g.frags := by
  unfold opened
  split <;> exact counted_frags c w fl g

theorem opened_joins (c : Ctx) (w : List RegWrite) (fl : List (Nat × Nat)) (g : Group) : (opened c w fl g).joins = g.joins := by
  unfold opened
  split <;> exact counted_joins c w fl g

/-- A result with a lookahead changes nothing but the windows, when no other result is pending. -/
theorem opened_of_la {c : Ctx} (w : List RegWrite) (fl : List (Nat × Nat)) {g : Group} (hw : g.windows = []) (hla : c.h.la ≠ 0) :
    opened c w fl g = { g with windows := [{ left := c.h.la.toNat, writes := w, flags := fl }] } := by
  have hc : counted c w fl g = g := by rw [counted, if_neg hla, passWindows_none hw]
  rw [opened, if_neg hla, hc, hw, List.nil_append]

theorem group?_retire {s : State} {c : Ctx} {g : Group} (hg : group? s c.key = some g) (m : Marks) (pc : DWord) (w : List RegWrite)
    (fl : List (Nat × Nat)) : group? (retire c m s pc w fl) c.key = some (settle settleFuel (advanced c m pc w fl g)) := by
  rw [retire_eq, group?_modGroup, hg, Option.map_some]

theorem group?_retireMoved {s : State} {c : Ctx} {g : Group} (hg : group? s c.key = some g) (m : Marks) :
    group? (retireMoved c m s) c.key = some (settle settleFuel (advancedMoved c m g)) := by
  rw [retireMoved_eq, group?_modGroup, hg, Option.map_some]

@[simp] theorem settle_v (n : Nat) (g : Group) : (settle n g).v = g.v := by rw [settle_eq]

@[simp] theorem settle_k (n : Nat) (g : Group) : (settle n g).k = g.k := by rw [settle_eq]

@[simp] theorem settle_p (n : Nat) (g : Group) : (settle n g).p = g.p := by rw [settle_eq]

@[simp] theorem settle_lstat (n : Nat) (g : Group) : (settle n g).lstat = g.lstat := by rw [settle_eq]

@[simp] theorem settle_gstat (n : Nat) (g : Group) : (settle n g).gstat = g.gstat := by rw [settle_eq]

@[simp] theorem settle_windows (n : Nat) (g : Group) : (settle n g).windows = g.windows := by rw [settle_eq]

/-- Without join entries there is nothing to meet. -/
theorem settle_of_no_joins {g : Group} (h : g.joins = []) (n : Nat) : settle n g = g := by
  cases n with
  | zero => rfl
  | succ n =>
    unfold settle
    split
    · next e he =>
      have hm := List.find?_some he
      rw [h] at hm
      cases hl : e.2.link <;> simp [hl, Maps.find?] at hm
    · rw [h]
      rfl

/-! ### The next slot -/

theorem pcFormOk_iff {pc : DWord} : pcFormOk pc = true ↔ pc.toNat / 8 % 8 = 0 ∧ slotOf pc ≤ 4 := by
  simp [pcFormOk, field, Nat.shiftRight_eq_div_pow]

theorem nextSlot_toNat (pc : DWord) :
    (nextSlot pc).toNat = if slotOf pc < 4 then (pc.toNat + 1) % 2 ^ 64 else (pc.toNat + 60) % 2 ^ 64 := by
  unfold nextSlot slotOf
  split <;> simp [BitVec.toNat_add]

theorem nextSlot_within {pc : DWord} (hf : pcFormOk pc = true) (hs : slotOf pc < 4) :
    lineOf (nextSlot pc) = lineOf pc ∧ slotOf (nextSlot pc) = slotOf pc + 1 := by
  obtain ⟨h3, -⟩ := pcFormOk_iff.1 hf
  have hn := nextSlot_toNat pc
  have := pc.isLt
  rw [if_pos hs] at hn
  simp only [lineOf, slotOf] at *
  omega

theorem nextSlot_boundary {pc : DWord} (hf : pcFormOk pc = true) (hs : slotOf pc = 4) :
    lineOf (nextSlot pc) = (lineOf pc + 64) % 2 ^ 64 ∧ slotOf (nextSlot pc) = 0 := by
  obtain ⟨h3, -⟩ := pcFormOk_iff.1 hf
  have hn := nextSlot_toNat pc
  have := pc.isLt
  rw [if_neg (by omega)] at hn
  simp only [lineOf, slotOf] at *
  omega

theorem pcFormOk_nextSlot {pc : DWord} (hf : pcFormOk pc = true) : pcFormOk (nextSlot pc) = true := by
  obtain ⟨h3, h4⟩ := pcFormOk_iff.1 hf
  have hn := nextSlot_toNat pc
  have := pc.isLt
  refine pcFormOk_iff.2 ?_
  by_cases hs : slotOf pc < 4
  · rw [if_pos hs] at hn
    simp only [slotOf] at *
    omega
  · rw [if_neg hs] at hn
    simp only [slotOf] at *
    omega

/-- The fragment that completes without a branch stands where it is told, without an arrival's mark to check. -/
theorem retire_places {s : State} {c : Ctx} {g : Group} {f : Fragment} (hg : group? s c.key = some g)
    (hf : Maps.find? c.frag g.frags = some f) (hj : g.joins = []) (m : Marks) (pc : DWord) (w : List RegWrite) (fl : List (Nat × Nat)) :
    ∃ g', group? (retire c m s pc w fl) c.key = some g' ∧
      Maps.find? c.frag g'.frags = some { f with pc := pc, stage := .fresh, read := none, arrival := 0 } := by
  refine ⟨_, group?_retire hg m pc w fl, ?_⟩
  rw [settle_of_no_joins (g := advanced c m pc w fl g) ((opened_joins c w fl g).trans hj)]
  simp only [advanced]
  rw [opened_frags, Maps.modify_find?, hf, Option.map_some]

end Sys2Proof.Machine.Ops

open Sys2Proof.Machine.Ops in
/-- Settles O51: within a line the program counter goes up by 1 and from slot 4 by 60; a group without joins keeps the fragment where
the completion has placed it. (It stands in a namespace of its own, since `nextSlot` names the model's function.) -/
theorem Sys2Proof.Rules.nextSlot : Obligations.NextSlot := by
  unfold Obligations.NextSlot
  refine ⟨fun pc hf => ⟨nextSlot_within hf, nextSlot_boundary hf, pcFormOk_nextSlot hf⟩, fun c m s w fl g f hg hf hj => ?_⟩
  obtain ⟨g', hg', hf'⟩ := retire_places hg hf hj m (Sys2Proof.Machine.Ops.nextSlot c.f.pc) w fl
  exact ⟨g', _, hg', hf', rfl, rfl, fun _ => rfl⟩
end

section
/-! The lookahead window (01 R30, R47): what completions do to a pending result. -/

namespace Sys2Proof.Machine.Ops

/-- A completion with a lookahead opens a window and writes nothing. -/
theorem retire_opens {s : State} {c : Ctx} {g : Group} (hg : group? s c.key = some g) (hw : g.windows = []) (hla : c.h.la ≠ 0)
    (m : Marks) (pc : DWord) (w : List RegWrite) (fl : List (Nat × Nat)) :
    ∃ g', group? (retire c m s pc w fl) c.key = some g' ∧ g'.v = g.v ∧ g'.k = g.k ∧ g'.p = g.p ∧ g'.lstat = g.lstat ∧
      g'.windows = [{ left := c.h.la.toNat, writes := w, flags := fl }] := by
  refine ⟨_, group?_retire hg m pc w fl, ?_⟩
  have ho := opened_of_la w fl hw hla
  simp only [settle_v, settle_k, settle_p, settle_lstat, settle_windows, advanced, ho, and_self]

/-- Where its lookahead is 0, a completion, with a branch or without, writes its own results and then counts for the windows. -/
theorem completion_counts {s : State} {c : Ctx} {g : Group} (hg : group? s c.key = some g) (hla : c.h.la = 0) (m : Marks) (pc : DWord)
    (ws : List RegWrite) (fl : List (Nat × Nat)) (moved : Bool) :
    let own : Group := if moved then g else fl.foldl orLstat (ws.foldl writeReg g)
    ∃ g', group? (if moved then retireMoved c m s else retire c m s pc ws fl) c.key = some g' ∧
      g'.windows = (passWindows own).windows ∧ g'.v = (passWindows own).v ∧ g'.k = (passWindows own).k ∧ g'.p = (passWindows own).p ∧
      g'.lstat = (passWindows own).lstat := by
  cases moved with
  | true =>
    refine ⟨_, group?_retireMoved hg m, ?_⟩
    simp only [settle_v, settle_k, settle_p, settle_lstat, settle_windows, advancedMoved, if_true, and_self]
  | false =>
    refine ⟨_, group?_retire hg m pc ws fl, ?_⟩
    simp only [settle_v, settle_k, settle_p, settle_lstat, settle_windows, advanced, opened, counted, hla, if_true, Bool.false_eq_true,
      if_false, and_self]

/-- A landing after the window is gone writes what a landing before it would. -/
theorem landWindow_after (g : Group) (w : Window) : landWindow { g with windows := [] } w = { landWindow g w with windows := [] } :=
  landWindow_windows g [] w

end Sys2Proof.Machine.Ops

namespace Sys2Proof

open Machine Machine.Ops

/-- Settles O54: a completion passes the windows once, and a single known result lands when its count has come to 0. -/
theorem lookaheadDelay : Obligations.LookaheadDelay := by
  unfold Obligations.LookaheadDelay
  refine ⟨fun c m s pc w fl g hg hw hla => retire_opens hg hw hla m pc w fl, fun c m s pc ws fl g w moved hg hw hr hla => ?_,
    fun g w n hw hr hl => ⟨passWindows_iterate hw, fun hn => hn ▸ passWindows_iterate_left hw hr hl⟩⟩
  intro own late
  have hown : own.windows = [w] := by
    cases moved with
    | true => exact hw
    | false => exact (foldl_writes_windows ws fl g).trans hw
  obtain ⟨g', hg', hwin, hv, hk, hp, hl⟩ := completion_counts hg hla m pc ws fl moved
  refine ⟨g', hg', fun h1 => ?_, fun h1 => ?_⟩
  · have ho : passWindows own = _ := passWindows_open hown h1
    rw [hwin, hv, hk, hp, hl, ho]
    exact ⟨rfl, rfl, rfl, rfl, rfl⟩
  · have ho : passWindows own = { late with windows := [] } := (passWindows_last hown hr h1).trans (landWindow_after own _)
    rw [hwin, hv, hk, hp, hl, ho]
    exact ⟨rfl, rfl, rfl, rfl, rfl⟩

end Sys2Proof
end

section
/-! Writes of status bits (01 R19, R20, R32, R136), and what the context of a ready instruction says of its state. -/

namespace Sys2Proof.Bits

theorem mem_lanesOf {mask l : Nat} : l ∈ lanesOf mask ↔ l < 8 ∧ mask.testBit l = true := by
  simp [lanesOf, upto]

theorem nodup_lanesOf (mask : Nat) : (lanesOf mask).Nodup := List.Nodup.filter _ List.nodup_range

theorem ldiff_add_and (a : Nat) : ∀ m, a.ldiff m + (a &&& m) = a := by
  induction a using Nat.binaryRec with
  | zero => intro m; simp [Nat.ldiff]
  | bit b n ih =>
    intro m
    cases m using Nat.bitCasesOn with
    | bit b' n' =>
      have hn := ih n'
      rw [Nat.ldiff_bit, Nat.land_bit]
      simp only [Nat.bit_val]
      cases b <;> cases b' <;> simp <;> omega

/-- Subtracting the bits that it shares with a mask clears them. -/
theorem testBit_sub_and (a m i : Nat) : (a - (a &&& m)).testBit i = (a.testBit i && !m.testBit i) := by
  rw [← Nat.testBit_ldiff, ← Nat.eq_sub_of_add_eq (ldiff_add_and a m)]

end Sys2Proof.Bits

namespace Sys2Proof.Maps

/-- Each entry of a list of different keys is changed from its own value once. -/
theorem get_foldl_set {α : Type} [DecidableEq α] {d : α} (f : Nat → α → α) {ls : List Nat} (hn : ls.Nodup) {m : List (Nat × α)}
    (hm : canonical d m = true) (n : Nat) :
    get d n (ls.foldl (fun m l => set d l (f l (get d l m)) m) m) = if n ∈ ls then f n (get d n m) else get d n m := by
  induction ls generalizing m with
  | nil => simp
  | cons l ls ih =>
    obtain ⟨hl, hn⟩ := List.nodup_cons.1 hn
    have hr := rising_of_canonical hm
    rw [List.foldl_cons, ih hn (set_canonical hm)]
    by_cases h : n = l
    · subst h
      simp [hl, get_set_self hr]
    · simp [h, get_set_ne hr h]

end Sys2Proof.Maps

namespace Sys2Proof.Machine.Ops

open Sys2Proof.Bits

/-! ### The context of a ready instruction -/

/-- An instruction that is not parked executes in the state given, in a fragment of a group of a team. -/
theorem ctx?_spec {s : State} {i : Instr} {h : Hdr} {c : Ctx} (hc : ctx? s i h = some c) (hp : c.park = none) :
    s.cur = .frag c.key c.frag ∧ c.s = s ∧ group? s c.key = some c.g ∧ team? s c.g.team = some c.tm ∧
      Maps.find? c.frag c.g.frags = some c.f ∧ c.active = c.f.mask ∧ c.h = h ∧ c.i = i := by
  unfold ctx? at hc
  split at hc
  · next key fr hcur =>
    split at hc
    · cases hc
    · next g hg =>
      split at hc
      · cases hc
      · next tm ht =>
        split at hc
        · cases hc
        · next f hf => cases hc; exact ⟨hcur, rfl, hg, ht, hf, rfl, rfl, rfl⟩
  · split at hc
    · cases hc
    · split at hc
      · cases hc
      · split at hc
        · cases hc
        · cases hc; cases hp
  · cases hc

/-- Helper lanes leave the guarded lanes alone out. -/
theorem withoutHelpers_eq (m : Marks) (c : Ctx) : withoutHelpers m c = { c with pass := (withoutHelpers m c).pass } := by
  unfold withoutHelpers
  split <;> rfl

/-- What the context of an instruction that is ready says of the state. -/
theorem readyFor_spec {s : State} {i : Instr} {c : Ctx} (hr : readyFor s i = some c) :
    ∃ x, shapeOf i = some x ∧ ready s i x.hdr x.marks x.opnds x.preds = some c ∧ s.cur = .frag c.key c.frag ∧ c.s = s ∧
      group? s c.key = some c.g ∧ team? s c.g.team = some c.tm ∧ Maps.find? c.frag c.g.frags = some c.f ∧ c.active = c.f.mask ∧
      c.h = x.hdr ∧ c.i = i := by
  unfold readyFor at hr
  split at hr
  · cases hr
  · next x hx =>
    obtain ⟨c0, hc, rfl, hp, -, -⟩ := ready_spec hr
    refine ⟨x, hx, hr, ?_⟩
    rw [withoutHelpers_eq] at hp ⊢
    exact ctx?_spec (c := c0) hc hp

theorem group?_of_readyFor {s : State} {i : Instr} {c : Ctx} (hr : readyFor s i = some c) : group? c.s c.key = some c.g := by
  obtain ⟨x, -, -, -, hs, hg, -⟩ := readyFor_spec hr
  rw [hs, hg]

/-! ### Status bits -/

theorem lstatOf_foldl_set {g : Group} (hg : Group.wf g = true) (f : Nat → Word → Word) (mask l : Nat) :
    Maps.get 0 l ((lanesOf mask).foldl (fun m l => Maps.set 0 l (f l (Maps.get 0 l m)) m) g.lstat) =
      if l < 8 ∧ mask.testBit l = true then f l (Maps.get 0 l g.lstat) else Maps.get 0 l g.lstat := by
  obtain ⟨-, -, -, hl⟩ := Group.wf_iff.1 hg
  simp only [Maps.get_foldl_set f (nodup_lanesOf mask) hl, mem_lanesOf]

/-- A write of %lstat changes %lstat alone, lane by lane. -/
theorem writeLstat_eq (c : Ctx) (x : Nat → Nat) (g : Group) : writeLstat c x g =
    { g with
      lstat := (lanesOf c.pass).foldl (fun m l => Maps.set 0 l (BitVec.ofNat 32 (lstatStore (Maps.get 0 l m).toNat (x l))) m) g.lstat } :=
  List.foldl_hom (fun m => ({ g with lstat := m } : Group)) fun _ _ => rfl

theorem lstatOf_writeLstat {g : Group} (hg : Group.wf g = true) (c : Ctx) (x : Nat → Nat) {l i : Nat} (hl : l < 8) (hi : i < 32) :
    (lstatOf (writeLstat c x g) l).testBit i =
      if c.pass.testBit l then (lstatStore (lstatOf g l) (x l)).testBit i else (lstatOf g l).testBit i := by
  have h := lstatOf_foldl_set hg (fun l w => BitVec.ofNat 32 (lstatStore w.toNat (x l))) c.pass l
  rw [writeLstat_eq]
  unfold lstatOf
  rw [h]
  simp only [hl, true_and]
  split
  · rw [BitVec.toNat_ofNat, Nat.testBit_mod_two_pow, decide_eq_true hi, Bool.true_and]
  · rfl

/-- Bits [12:8] and [4:0] are written, the others stay. -/
theorem testBit_lstatStore (old x : Nat) {i : Nat} (hi : i < 32) : (lstatStore old x).testBit i =
    if (decide (i < 5) || (decide (8 ≤ i) && decide (i ≤ 12))) then x.testBit i else old.testBit i := by
  have hm : ∀ i, i < 32 → lstatMask.testBit i = (decide (i < 5) || (decide (8 ≤ i) && decide (i ≤ 12))) := by decide
  rw [lstatStore, Nat.testBit_or, testBit_sub_and, Nat.testBit_and, ← hm i hi]
  cases lstatMask.testBit i <;> simp

theorem testBit_gstatStore (x i : Nat) : (gstatStore x).testBit i = (decide (16 ≤ i) && decide (i ≤ 18) && x.testBit i) := by
  have hm : ∀ i, i < 32 → (0x70000 : Nat).testBit i = (decide (16 ≤ i) && decide (i ≤ 18)) := by decide
  rw [gstatStore, Nat.testBit_and]
  by_cases hi : i < 32
  · rw [hm i hi, Bool.and_comm]
  · have h0 : (0x70000 : Nat).testBit i = false :=
      Nat.testBit_lt_two_pow (lt_of_lt_of_le (by decide : 0x70000 < 2 ^ 32) (Nat.pow_le_pow_right (by decide) (Nat.not_lt.1 hi)))
    have h18 : decide (i ≤ 18) = false := by simp; omega
    rw [h0, h18]
    simp

/-- A completion without results, where none is pending, leaves the registers and the status bits of its group as they are. -/
theorem retire_quiet {s : State} {c : Ctx} {g : Group} (hg : group? s c.key = some g) (hw : g.windows = []) (m : Marks) (pc : DWord) :
    ∃ g', group? (retire c m s pc [] []) c.key = some g' ∧ g'.lstat = g.lstat ∧ g'.gstat = g.gstat := by
  refine ⟨_, group?_retire hg m pc [] [], ?_⟩
  have hc : counted c [] [] g = g := by
    unfold counted
    split <;> exact passWindows_none hw
  simp only [settle_lstat, settle_gstat, advanced, opened, hc]
  split <;> exact ⟨rfl, rfl⟩

theorem lstatOf_eq {g g' : Group} (h : g'.lstat = g.lstat) (l : Nat) : lstatOf g' l = lstatOf g l := by
  rw [lstatOf, h, lstatOf]

/-- `swrite` completes as a quiet completion of the changed group. -/
theorem swrite_group {s : State} {h : Hdr} {o : OpS} {c : Ctx} (hr : readyFor s (.swrite h o) = some c) (ha : acts c = true)
    (hw : c.g.windows = []) (hn : sregWritable o.sreg.toNat = true) {f : Group → Group} (hf : (f c.g).windows = [])
    (he : sregWrite c o.sreg.toNat (fun l => rd c o.a l) = modGroup c.s c.key f) :
    ∃ t g', exec (.swrite h o) s = .next t ∧ group? t c.key = some g' ∧ g'.lstat = (f c.g).lstat ∧ g'.gstat = (f c.g).gstat := by
  have hl : lstatAwaits c o.sreg.toNat = false := by simp [lstatAwaits, hw]
  have hg : group? (modGroup c.s c.key f) c.key = some (f c.g) := by
    rw [group?_modGroup, group?_of_readyFor hr, Option.map_some]
  obtain ⟨g', hg', h1, h2⟩ := retire_quiet hg hf (Claims.marksOf (.swrite h o)) (nextSlot c.f.pc)
  rw [← he] at hg'
  exact ⟨_, g', Claims.swrite_effects h o s c hr ⟨ha, hn, hl⟩, hg', h1, h2⟩

end Sys2Proof.Machine.Ops

open Sys2Proof.Machine.Ops in
/-- Settles O60: `swrite` stores through `lstatStore` and `gstatStore`, whose masks are the writable bits, and completes quietly. -/
theorem Sys2Proof.statusRegisterWrites : Obligations.StatusRegisterWrites := by
  unfold Obligations.StatusRegisterWrites
  refine fun s h o c hr ha hw hwf => ⟨fun hs => ?_, fun hs => ?_⟩
  · obtain ⟨t, g', ht, hg', hls, hgs⟩ := swrite_group hr ha hw (by rw [hs]; rfl) (f := writeLstat c fun l => rd c o.a l)
      (by rw [writeLstat_eq]; exact hw) (by rw [hs]; rfl)
    refine ⟨t, g', ht, hg', by rw [hgs, writeLstat_eq], fun l i hl hi => ?_⟩
    rw [lstatOf_eq hls, lstatOf_writeLstat hwf c _ hl hi, testBit_lstatStore _ _ hi]
    cases c.pass.testBit l <;> simp
  · obtain ⟨t, g', ht, hg', hls, hgs⟩ := swrite_group hr ha hw (by rw [hs]; rfl)
      (f := fun g => { g with gstat := gstatStore (rd c o.a (lowActive c)) }) hw (by rw [hs]; rfl)
    exact ⟨t, g', ht, hg', lstatOf_eq hls, fun i => by rw [hgs, testBit_gstatStore]⟩
end

section
/-! The end of a group (01 R32): what ends a team leaves its groups as they are, changes them in place or drops them, so that none
appears. -/

namespace Sys2Proof.Maps

theorem le_of_mem {α : Type} {lo : Nat} {m : List (Nat × α)} (h : risingFrom lo m = true) {e : Nat × α} (he : e ∈ m) : lo ≤ e.1 := by
  induction m generalizing lo with
  | nil => cases he
  | cons x m ih =>
    simp only [risingFrom, Bool.and_eq_true, decide_eq_true_eq] at h
    rcases List.mem_cons.1 he with rfl | he
    · exact h.1
    · exact Nat.le_trans (Nat.le_succ_of_le h.1) (ih h.2 he)

theorem ne_of_mem_erase {α : Type} {lo k : Nat} {m : List (Nat × α)} (h : risingFrom lo m = true) {e : Nat × α} (he : e ∈ erase k m) :
    e.1 ≠ k := by
  induction m generalizing lo with
  | nil => cases he
  | cons x m ih =>
    simp only [risingFrom, Bool.and_eq_true, decide_eq_true_eq] at h
    simp only [erase] at he
    split at he
    · next hk =>
      rcases List.mem_cons.1 he with rfl | he
      · exact Nat.ne_of_gt hk
      · have := le_of_mem h.2 he
        omega
    · split at he
      · have := le_of_mem h.2 he
        omega
      · next hx =>
        rcases List.mem_cons.1 he with rfl | he
        · exact hx
        · exact ih h.2 he

end Sys2Proof.Maps

namespace Sys2Proof.Machine

open Ops

/-- No entry is listed under the key. -/
structure Lacks (k : Nat) (gs : List (Nat × Group)) : Prop where
  ne : ∀ e ∈ gs, e.1 ≠ k

namespace Lacks

variable {k : Nat} {gs : List (Nat × Group)}

theorem filter (h : Lacks k gs) (p : Nat × Group → Bool) : Lacks k (gs.filter p) := ⟨fun e he => h.ne e (List.mem_of_mem_filter he)⟩

/-- A change of every group in its place. -/
theorem map (h : Lacks k gs) {f : Nat × Group → Nat × Group} (hf : ∀ e, (f e).1 = e.1) : Lacks k (gs.map f) := by
  refine ⟨fun e he => ?_⟩
  obtain ⟨e', he', rfl⟩ := List.mem_map.1 he
  rw [hf]
  exact h.ne e' he'

theorem modify (h : Lacks k gs) (j : Nat) (f : Group → Group) : Lacks k (Maps.modify j f gs) := by
  refine ⟨fun e he => ?_⟩
  simp only [Maps.modify] at he
  split at he
  · exact h.ne e he
  · next g hg =>
    obtain rfl | he := Maps.mem_insert he
    · exact h.ne (j, g) (Maps.mem_of_find? hg)
    · exact h.ne e he

theorem erase (hr : Maps.rising gs = true) : Lacks k (Maps.erase k gs) := ⟨fun _ he => Maps.ne_of_mem_erase hr he⟩

theorem modGroup {s : State} (h : Lacks k s.groups) (j : Nat) (f : Group → Group) : Lacks k (Ops.modGroup s j f).groups := h.modify j f

theorem foldl {α : Type} {f : State → α → State} {l : List α} {s : State} (h : Lacks k s.groups)
    (hf : ∀ s a, Lacks k s.groups → Lacks k (f s a).groups) : Lacks k (l.foldl f s).groups := by
  induction l generalizing s with
  | nil => exact h
  | cons a l ih => exact ih (hf s a h)

end Lacks

theorem group?_of_lacks {k : Nat} {s : State} (h : Lacks k s.groups) : group? s k = none := by
  cases hg : group? s k with
  | none => rfl
  | some g => exact absurd rfl (h.ne (k, g) (Maps.mem_of_find? hg))

namespace Ops

theorem lacks_dropContext {k : Nat} {s : State} (h : Lacks k s.groups) (ctx : Nat) : Lacks k (dropContext s ctx).groups := by
  unfold dropContext
  rw [kickAll_groups]
  exact h.filter _

theorem lacks_terminate {k : Nat} {s : State} (h : Lacks k s.groups) (ctx code : Nat) : Lacks k (terminate s ctx code).groups := by
  unfold terminate
  split
  · exact h
  · split
    · exact h
    · rw [lastRecord_groups]
      rw [foldl_groups fun _ _ => failLaunch_groups ..]
      simpa using lacks_dropContext h ctx

theorem lacks_returnCt {k : Nat} {s : State} (h : Lacks k s.groups) (key id launch : Nat) (ct : Nat → Nat) :
    Lacks k (returnCt s key id launch ct).groups := h.modify key fun f => mergeCr f ct

theorem writeHome_groups (s : State) (core id pa : Nat) (bs : List Byte) : (writeHome s core id pa bs).groups = s.groups := by
  unfold writeHome
  simp

theorem homeAt_groups (s : State) (core pa n : Nat) (f : Nat → Option Nat) : (homeAt s core pa n f).2.2.groups = s.groups := by
  unfold homeAt
  split
  · rfl
  · dsimp only
    split
    · exact noteRead_groups ..
    · exact (writeHome_groups ..).trans (backInvalidate_groups ..)

theorem lacks_drainDets {k : Nat} {s : State} (h : Lacks k s.groups) (team : Nat) (flusher : Option Nat) :
    Lacks k (drainDets s team flusher).groups := by
  unfold drainDets
  split
  · exact h
  · refine Lacks.foldl (s := modTeam s team _) h fun s x h => ?_
    split
    · exact h
    · split
      · exact lacks_terminate h ..
      · have hh := homeAt_groups s
        dsimp only
        split
        · refine Lacks.modGroup (lacks_returnCt ?_ ..) ..
          rwa [hh]
        · refine lacks_returnCt ?_ ..
          rwa [hh]

theorem lacks_wakeStage {k : Nat} {s : State} (h : Lacks k s.groups) (at_x st : Stage) : Lacks k (wakeStage s at_x st).groups :=
  h.map fun _ => rfl

theorem lacks_wakeYieldto {k : Nat} {s : State} (h : Lacks k s.groups) (cl x : Nat) (st : Stage) :
    Lacks k (wakeYieldto s cl x st).groups := by
  unfold wakeYieldto
  refine h.map fun e => ?_
  split <;> rfl

theorem lacks_releaseHandle {k : Nat} {s : State} (h : Lacks k s.groups) (cl x : Nat) : Lacks k (releaseHandle s cl x).groups := by
  unfold releaseHandle
  refine lacks_wakeYieldto ?_ ..
  exact Lacks.foldl (by rwa [setHandle_groups]) fun _ _ h => lacks_wakeStage h ..

theorem lacks_freeTeamHandles {k : Nat} {s : State} (h : Lacks k s.groups) (t : Nat) : Lacks k (freeTeamHandles s t).groups := by
  refine Lacks.foldl h fun _ _ h => Lacks.foldl h fun _ _ h => ?_
  split
  · exact lacks_releaseHandle h ..
  · exact h

theorem lacks_settleTeam {k : Nat} {s : State} (h : Lacks k s.groups) (t : Nat) : Lacks k (settleTeam s t).groups := by
  unfold settleTeam
  split
  · exact h
  · split
    · exact h
    · have hd := lacks_drainDets h t none
      dsimp only
      split
      · exact hd
      · rw [kickBanks_groups, settleSwitches_groups, modLaunch_groups, dropTeam_groups]
        exact lacks_freeTeamHandles hd t

/-- The group that ends is gone. -/
theorem lacks_endGroup {s : State} (hr : Maps.rising s.groups = true) (key team : Nat) : Lacks key (endGroup s key team).groups :=
  lacks_settleTeam (s := { s with groups := Maps.erase key s.groups }) (Lacks.erase hr) team

theorem lacks_retireMoved {k : Nat} {s : State} (h : Lacks k s.groups) (c : Ctx) (m : Marks) : Lacks k (retireMoved c m s).groups :=
  h.modify ..

/-! ### `exit` -/

/-- The lanes that leave are live no more, and the others stay as they are. -/
theorem live_leaveLanes {g : Group} (hg : Group.wf g = true) (frag out : Nat) {l : Nat} (hl : l < 8) :
    live (leaveLanes frag out g) l = (live g l && !out.testBit l) := by
  have h := lstatOf_foldl_set hg (fun _ w => w &&& BitVec.ofNat 32 0xFFFF7FFF) out l
  have h15 : (0xFFFF7FFF : Nat).testBit 15 = false := by decide
  simp only [live, lstatOf, leaveLanes]
  rw [h]
  cases ho : out.testBit l with
  | false => simp
  | true => simp [hl, BitVec.toNat_and, Nat.testBit_and, h15]

end Ops

end Sys2Proof.Machine

open Sys2Proof.Machine Sys2Proof.Machine.Ops in
/-- Settles O52: `exit` completes quietly with the group without its lanes, or ends the group and what ends with it. -/
theorem Sys2Proof.exitClearsLive : Obligations.ExitClearsLive := by
  unfold Obligations.ExitClearsLive
  refine fun s h o c hr ha hw hwf => ⟨fun hl => ?_, fun hl hd hs => ?_⟩
  · have hg : group? (modGroup (takeResults c.g c.pass c.s) c.key (leaveLanes c.frag c.pass)) c.key = some (leaveLanes c.frag c.pass c.g) := by
      have hc : group? (takeResults c.g c.pass c.s) c.key = some c.g := by
        rw [group?, takeResults_groups]
        exact group?_of_readyFor hr
      rw [group?_modGroup, hc, Option.map_some]
    obtain ⟨g', hg', hls, -⟩ := retire_quiet hg (show (leaveLanes c.frag c.pass c.g).windows = [] from hw)
      (Claims.marksOf (.exit h o)) (nextSlot c.f.pc)
    refine ⟨_, g', Claims.exit_effects h o s c hr ⟨ha, hl⟩, hg', fun l hl => ?_⟩
    rw [live, lstatOf_eq hls]
    exact live_leaveLanes hwf c.frag c.pass hl
  · have hrise : Maps.rising (takeResults c.g c.pass c.s).groups = true := by
      obtain ⟨-, -, -, -, he, -⟩ := readyFor_spec hr
      rwa [takeResults_groups, he]
    exact ⟨_, Claims.exit_ends h o s c hr ⟨ha, hl, hd⟩, group?_of_lacks (lacks_retireMoved (lacks_endGroup hrise ..) ..)⟩
end

section
/-! Enabled arithmetic traps (01 R29; 06 R117; 09 R181): the check of the lanes comes before any write. -/

namespace Sys2Proof.Claims

open Sys2Proof.Machine Sys2Proof.Machine.Ops Sys2Proof.Bits

/-- An enabled condition that some lane meets ends the instruction. -/
theorem end_of_enabled {enabled : Bool} {lanes : List Nat} {t r : Res} (he : enabled = true) (hl : lanes ≠ []) :
    (if (enabled && !lanes.isEmpty) = true then t else r) = t :=
  if_pos (by simp [he, hl])

/-- A division traps DIVZ in the lanes whose divisor is 0 (06 R117). -/
def divzTraps (h : Hdr) (o : OpR) (i : Instr) : Prop :=
  traps i (fun c => tdivz c = true ∧ zeroDivisors c (width h) (Checks.fmt h) o.b ≠ [])
    (fun c => { code := 0x0B, lanes := maskOf (zeroDivisors c (width h) (Checks.fmt h) o.b) })
    (fun c => orLanes c.s c.key (zeroDivisors c (width h) (Checks.fmt h) o.b) lsDivz)

/-- A derivative traps DERIV in the lanes whose pair is not whole (09 R181). -/
def derivTraps (h : Hdr) (y : Bool) (i : Instr) : Prop :=
  traps i (fun c => c.tm.hdr.traps.testBit 3 = true ∧ brokenLanes h y c ≠ [])
    (fun c => { code := 0x0C, lanes := maskOf (brokenLanes h y c) }) (fun c => orLanes c.s c.key (brokenLanes h y c) lsDeriv)

/-- The end of a division with the results `res` (06 R117). -/
def divisionEnd (h : Hdr) (o : OpR) (res : Ctx → List RegWrite) (c : Ctx) : Res :=
  let z := zeroDivisors c (width h) (Checks.fmt h) o.b
  if tdivz c && !z.isEmpty then .trap (trapOf 0x0B (maskOf z)) (orLanes c.s c.key z lsDivz)
  else .done c.s (res c) (z.map (fun l => (l, lsDivz)))

/-- An instruction that divides traps so, whatever its results are. -/
theorem traps_of_divideR {h : Hdr} {o : OpR} {i : Instr} {os : List Opnd} {res : Ctx → List RegWrite}
    (hx : shapeOf i = some (Shape.plain h os)) (he : ∀ s, exec i s = divideR i h o os res s) :
    divzTraps h o i :=
  traps_of_trap (body := divisionEnd h o res) hx he fun _ ⟨ht, hl⟩ => end_of_enabled ht hl

/-- The end of a derivative (09 R181). -/
def derivativeEnd (h : Hdr) (o : OpR) (y : Bool) (c : Ctx) : Res :=
  if c.tm.hdr.traps.testBit 3 && !(brokenLanes h y c).isEmpty then
    .trap (trapOf 0x0C (maskOf (brokenLanes h y c))) (orLanes c.s c.key (brokenLanes h y c) lsDeriv)
  else .done c.s (wrLanes c o.d 1 (fun l => (gradient h y o.a c l).bits))
    (flagLanes c (fun l => (gradient h y o.a c l).flags ||| (if wholePair h y c l then 0 else lsDeriv)))

theorem derivative_eq (i : Instr) (h : Hdr) (o : OpR) (y : Bool) (s : State) :
    derivative i h o y s = run i h mPlain [(dst o.d).inVec, src o.a] [] (derivativeEnd h o y) s := rfl

theorem div_traps (h : Hdr) (o : OpR) : divzTraps h o (.div h o) :=
  traps_of_divideR (res := fun c => wrLanes c o.d (regsOf (width h)) (quotOf h o c)) rfl
    fun s => Eq.refl (execDiv h o s)

theorem rem_traps (h : Hdr) (o : OpR) : divzTraps h o (.rem h o) :=
  traps_of_divideR (res := fun c => wrLanes c o.d (regsOf (width h)) (remOf h o c)) rfl
    fun s => Eq.refl (execRem h o s)

theorem divrem_traps (h : Hdr) (o : OpR) : divzTraps h o (.divrem h o) :=
  traps_of_divideR (res := fun c => wrLanes c o.d (regsOf (width h)) (quotOf h o c) ++ wrLanes c o.c (regsOf (width h)) (remOf h o c)) rfl
    fun s => Eq.refl (execDivrem h o s)

theorem ddx_traps (h : Hdr) (o : OpR) : derivTraps h false (.ddx h o) :=
  traps_of_trap rfl (fun s => (Eq.refl (execDdx h o s)).trans (derivative_eq ..)) fun _ ⟨he, hl⟩ => end_of_enabled he hl

theorem ddy_traps (h : Hdr) (o : OpR) : derivTraps h true (.ddy h o) :=
  traps_of_trap rfl (fun s => (Eq.refl (execDdy h o s)).trans (derivative_eq ..)) fun _ ⟨he, hl⟩ => end_of_enabled he hl

end Sys2Proof.Claims

/-- Settles O55: each of the five instructions ends with its trap before it makes a result. -/
theorem Sys2Proof.enabledArithmeticTraps : Obligations.EnabledArithmeticTraps := by
  unfold Obligations.EnabledArithmeticTraps
  exact fun h o => ⟨Claims.div_traps h o, Claims.rem_traps h o, Claims.divrem_traps h o, Claims.ddx_traps h o, Claims.ddy_traps h o⟩
end

section
/-! Taking a trap and returning from it (21 R384 to R386, R412): the group at its vector entry. -/

namespace Sys2Proof.Machine.Ops

open Sys2Proof.Bits

/-! ### The trap state -/

theorem ecodeOf_toNat {t : Trap} (hc : t.code < 2 ^ 8) (hk : t.cause < 2 ^ 8) (hl : t.lanes < 2 ^ 8) (defer : Bool) :
    (ecodeOf t defer).toNat = t.code + 2 ^ 8 * t.cause + 2 ^ 16 * t.lanes + 2 ^ 24 + 2 ^ 25 * b2n defer := by
  have hb : b2n defer ≤ 1 := by cases defer <;> decide
  rw [ecodeOf, BitVec.toNat_ofNat, Nat.mod_eq_of_lt]
  omega

/-- The fields of %ecode after a delivery (R385). -/
theorem ecodeOf_fields {t : Trap} (hc : t.code < 2 ^ 8) (hk : t.cause < 2 ^ 8) (hl : t.lanes < 2 ^ 8) (defer : Bool) :
    field (ecodeOf t defer).toNat 0 8 = t.code ∧ field (ecodeOf t defer).toNat 8 8 = t.cause ∧
      field (ecodeOf t defer).toNat 16 8 = t.lanes ∧ (ecodeOf t defer).toNat.testBit 24 = true ∧
      (ecodeOf t defer).toNat.testBit 25 = defer := by
  have hb : b2n defer = if defer then 1 else 0 := by cases defer <;> rfl
  rw [ecodeOf_toNat hc hk hl, hb]
  simp only [field, Nat.shiftRight_eq_div_pow, Nat.testBit_eq_decide_div_mod_eq]
  cases defer <;> simp <;> omega

/-- A return clears bit 24 of %ecode, INH, and no other. -/
theorem testBit_clearInh (w : Word) (i : Nat) :
    (w &&& BitVec.ofNat 32 0xFEFFFFFF).toNat.testBit i = (w.toNat.testBit i && decide (i ≠ 24)) := by
  rw [BitVec.toNat_and, Nat.testBit_and]
  by_cases hi : i < 32
  · have hm : ∀ i, i < 32 → (BitVec.ofNat 32 0xFEFFFFFF).toNat.testBit i = decide (i ≠ 24) := by decide
    rw [hm i hi]
  · have hw : w.toNat.testBit i = false :=
      Nat.testBit_lt_two_pow (lt_of_lt_of_le w.isLt (Nat.pow_le_pow_right (by decide) (Nat.not_lt.1 hi)))
    rw [hw, Bool.false_and, Bool.false_and]

/-! ### The group at the handler -/

/-- What is known lands in the four files. -/
theorem landReady_eq (g : Group) : landReady g = { g with
    windows := (landReady g).windows, v := (landReady g).v, k := (landReady g).k, p := (landReady g).p
    lstat := (landReady g).lstat, nevTrap := (landReady g).nevTrap } := by
  unfold landReady
  rw [foldl_landWindow_eq]

/-- The group with its trap state saved and its fragment at `pc`, before joins are met. -/
def entered (frag : Nat) (t : Trap) (saved : DWord) (defer : Bool) (pc : DWord) (g : Group) : Group :=
  { landReady g with
    epc := saved
    ecode := ecodeOf t defer
    einf := BitVec.ofNat 64 t.info
    fetchRep := 0
    stopped := (g.frags.map Prod.fst).filter (fun k => k != frag)
    frags := Maps.modify frag (fun f => { f with pc := pc, stage := .fresh, read := none, arrival := 2 }) g.frags }

theorem enter_eq (frag : Nat) (t : Trap) (saved : DWord) (defer : Bool) (pc : DWord) (g : Group) :
    takeTrap.enter frag t saved defer pc g = meetJoin frag (entered frag t saved defer pc g) := by
  have hf : (landReady g).frags = g.frags := by rw [landReady_eq]
  simp only [takeTrap.enter, entered, hf]

/-- A fragment that does not stand at the reconvergence address of its own join entry meets none. -/
theorem meetJoin_of_ne {frag : Nat} {g : Group} {f : Fragment} (hf : Maps.find? frag g.frags = some f)
    (hj : ∀ j z, f.link = some j → Maps.find? j g.joins = some z → z.ra ≠ f.pc) : meetJoin frag g = g := by
  unfold meetJoin
  rw [hf]
  dsimp only
  split
  · next x hx =>
    obtain ⟨j, hl, hz⟩ := Option.bind_eq_some_iff.1 hx
    exact if_neg (hj j x hl hz)
  · rfl

theorem find?_entered {frag : Nat} {g : Group} {f : Fragment} (hf : Maps.find? frag g.frags = some f) (t : Trap) (saved : DWord)
    (defer : Bool) (pc : DWord) : Maps.find? frag (entered frag t saved defer pc g).frags =
      some { f with pc := pc, stage := .fresh, read := none, arrival := 2 } := by
  simp only [entered, Maps.modify_find?, hf, Option.map_some]

theorem enter_of_ne {frag : Nat} {g : Group} {f : Fragment} (hf : Maps.find? frag g.frags = some f) {pc : DWord}
    (hj : ∀ j z, f.link = some j → Maps.find? j g.joins = some z → z.ra ≠ pc) (t : Trap) (saved : DWord) (defer : Bool) :
    takeTrap.enter frag t saved defer pc g = entered frag t saved defer pc g := by
  have hjoins : (entered frag t saved defer pc g).joins = g.joins := by
    simp only [entered]
    rw [landReady_eq]
  rw [enter_eq]
  refine meetJoin_of_ne (find?_entered hf t saved defer pc) fun j z hl hz => ?_
  rw [hjoins] at hz
  exact hj j z hl hz

theorem mem_stopped_entered {frag k : Nat} (t : Trap) (saved : DWord) (defer : Bool) (pc : DWord) (g : Group) :
    k ∈ (entered frag t saved defer pc g).stopped ↔ k ≠ frag ∧ ∃ y, (k, y) ∈ g.frags := by
  simp [entered, and_comm]

/-! ### Delivery and return -/

theorem fetchLine_line_mem {s s1 : State} {c ctx va : Nat} {bs : List Byte} (h : fetchLine s c ctx va = (.line bs, s1)) :
    s1.mem = s.mem := by
  unfold fetchLine at h
  grind only [fetchStamped_mem, fetchPhys_mem, noteTlb_mem]

/-- A trap whose vector entry can be read and is marked is delivered. -/
theorem takeTrap_enters {s s1 : State} {key frag e : Nat} {t : Trap} {g : Group} {tm : Team} {x : Context} {bs : List Byte}
    (hg : group? s key = some g) (ht : team? s g.team = some tm) (hx : Maps.find? tm.ctx s.contexts = some x) (hi : inh g = false)
    (he : vectorEntry s x tm.ctx (tm.core / 64) t.code = some e) (hform : pcFormOk (BitVec.ofNat 64 e) = true)
    (hcan : canonical (lineOf (BitVec.ofNat 64 e)) = true) (hl : fetchLine s tm.core tm.ctx (lineOf (BitVec.ofNat 64 e)) = (.line bs, s1))
    (hm : marked (lineWord bs) (slotOf (BitVec.ofNat 64 e)) = true) (saved : DWord) (defer : Bool) :
    takeTrap s key frag t saved defer = modGroup s1 key (takeTrap.enter frag t saved defer (BitVec.ofNat 64 e)) := by
  simp [takeTrap, hg, ht, hx, hi, he, hform, hcan, hl, hm]

theorem group?_of_fetchLine {s s1 : State} {c ctx va key : Nat} {x : Fetched} (h : fetchLine s c ctx va = (x, s1)) :
    group? s1 key = group? s key := by
  have hs : s1.groups = s.groups := by rw [← fetchLine_groups s c ctx va, h]
  rw [group?, group?, hs]

/-- The group of a return: INH is clear, the fragment stands at the saved program counter, and no fragment is stopped. -/
def returned (frag : Nat) (g : Group) : Group :=
  { g with
    ecode := g.ecode &&& BitVec.ofNat 32 0xFEFFFFFF
    stopped := []
    frags := Maps.modify frag (fun f => { f with pc := g.epc, stage := .fresh, read := none, arrival := 0 }) g.frags }

theorem returnFromTrap_eq (key frag : Nat) (s : State) : returnFromTrap key frag s = modGroup s key (returned frag) := rfl

end Sys2Proof.Machine.Ops

namespace Sys2Proof

open Machine Machine.Ops

/-- Settles O56: the group that is entered has the fields of the trap, and a return from it changes what `returned` says. -/
theorem trapEntryAndReturn : Obligations.TrapEntryAndReturn := by
  unfold Obligations.TrapEntryAndReturn
  intro s s1 key frag e t saved defer g tm x f bs hg ht hx hf hi hj he hform hcan hl hm hcode hcause hlanes
  have hs := takeTrap_enters (frag := frag) hg ht hx hi he hform hcan hl hm saved defer
  have hg1 : group? s1 key = some g := (group?_of_fetchLine hl).trans hg
  have hg' : group? (takeTrap s key frag t saved defer) key = some (entered frag t saved defer (BitVec.ofNat 64 e) g) := by
    rw [hs, group?_modGroup, hg1, Option.map_some, enter_of_ne hf hj]
  have hf' := find?_entered hf t saved defer (BitVec.ofNat 64 e)
  obtain ⟨hc, hk, hln, h24, h25⟩ := ecodeOf_fields hcode hcause hlanes defer
  refine ⟨_, _, hg', hf', rfl, rfl, rfl, rfl, h24, hc, hk, hln, h25, rfl, rfl, rfl, fun k => mem_stopped_entered t saved defer _ g,
    fun a => ?_, ?_⟩
  · rw [hs, readByte_modGroup, readByte, fetchLine_line_mem hl, readByte]
  · have hg2 : group? (returnFromTrap key frag (takeTrap s key frag t saved defer)) key =
        some (returned frag (entered frag t saved defer (BitVec.ofNat 64 e) g)) := by
      rw [returnFromTrap_eq, group?_modGroup, hg', Option.map_some]
    refine ⟨_, { f with pc := saved, stage := .fresh, read := none, arrival := 0 }, hg2, ?_, rfl, rfl, rfl, ?_, rfl,
      fun i hi => ?_, rfl, rfl, rfl, rfl⟩
    · simp only [returned]
      rw [Maps.modify_find?, hf', Option.map_some]
      rfl
    · simp only [inh, returned, testBit_clearInh]
      simp
    · simp only [returned, testBit_clearInh]
      simp [hi]

end Sys2Proof
end

section
/-! Misaligned accesses (01 R22, 12 R234): the check comes before any access. -/

namespace Sys2Proof.Claims

open Sys2Proof.Machine Sys2Proof.Machine.Ops Sys2Proof.Bits

/-- In a space that the instruction takes, but for the FIFO space, a misaligned lane is found once the earlier checks have passed. -/
theorem access_misaligned {c : Ctx} {o : OpM} {nd : Needs} {as : List Acc} (hs : o.space.toNat ∈ nd.spaces) (h3 : o.space.toNat ≠ 3)
    (hc : o.space = 0 ∨ o.space = 4 → failing as (fun a => canonical a.ea) = 0) (hm : misaligned as ≠ 0) :
    access c o nd as = .error (.trap { code := 0x03, lanes := misaligned as } c.s) := by
  have hin : (!nd.spaces.contains o.space.toNat) = false := by simpa using hs
  have hodd : failing as (fun a => a.ea % a.n == 0) ≠ 0 := hm
  unfold access resolve
  rw [if_neg (by rw [hin]; exact Bool.false_ne_true)]
  by_cases h04 : o.space.toNat = 0 ∨ o.space.toNat = 4
  · have hcan := hc (h04.imp (fun h => BitVec.eq_of_toNat_eq h) (fun h => BitVec.eq_of_toNat_eq h))
    have hf : addrFault c.s as = some (.trap (trapOf 0x03 (misaligned as)) c.s) := by
      simp only [addrFault, hcan, ne_eq, not_true_eq_false, if_false, hodd, not_false_eq_true, if_true]
      rfl
    rw [if_pos h04, hf]
    rfl
  · rw [if_neg h04, if_neg h3]
    exact if_pos hodd

/-- The conditions under which an access of `n` bytes per lane comes to its check of alignment and fails it. -/
structure Misaligned (o : OpM) (n : Nat) (c : Ctx) : Prop where
  acts : acts c = true
  half : inHalf c.f.stage = false
  mode : inMode c.f.stage = false
  canonical : o.space = 0 ∨ o.space = 4 → failing (laneAccs c o n) (fun a => canonical a.ea) = 0
  lanes : misaligned (laneAccs c o n) ≠ 0

/-- The instruction traps with its misaligned lanes. -/
def misalignedTraps (i : Instr) (o : OpM) (n : Nat) : Prop :=
  traps i (Misaligned o n) (fun c => { code := 0x03, lanes := misaligned (laneAccs c o n) }) (fun c => c.s)

/-! ### The ends of accesses that fail a check -/

section
variable {c : Ctx} {o : OpM} {r : Res}

theorem loadLanes_error {spaces : List Nat} {bytes : Nat} (ha : acts c = true)
    (he : access c o (loadNeeds o spaces) (laneAccs c o bytes) = .error r) (l2 : Bool) (n : Nat) (value : List Byte → Nat) :
    loadLanes c o spaces l2 bytes n value = r := by simp [loadLanes, ha, he]

theorem loadTwice_error (hh : inHalf c.f.stage = false) (ha : acts c = true)
    (he : access c o (loadNeeds o [0, 1, 2, 4]) (laneAccs c o 16) = .error r) (l2 : Bool) : loadTwice c o l2 = r := by
  unfold loadTwice
  split
  · next hs => rw [hs] at hh; cases hh
  · simp [ha, he]

theorem storeLanes_error {bytes : Nat} (ha : acts c = true) (he : access c o (storeNeeds [0, 1, 2]) (laneAccs c o bytes) = .error r)
    (l2 : Bool) (n : Nat) : storeLanes c o l2 bytes n = r := by simp [storeLanes, ha, he]

/-- The end of `strel`: a store that its release orders. -/
def strelEnd (h : Hdr) (o : OpM) (c : Ctx) : Res :=
  if !acts c then noEffect c
  else match access c o (storeNeeds [0, 1, 2]) (laneAccs c o (fmtBytes (Checks.fmt h))) with
  | .error r => r
  | .ok (ps, s) =>
    let r := beginRelease s c h.sc.toNat 0
    .done (storePlaces c (l2Only h) (some r.1)
        (fun a => toBytes (fmtBytes (Checks.fmt h)) (rdData c o (fmtRegs (Checks.fmt h)) a.lane)) ps r.2)
      [] (storeFlags ps)

theorem strelEnd_error {h : Hdr} (ha : acts c = true)
    (he : access c o (storeNeeds [0, 1, 2]) (laneAccs c o (fmtBytes (Checks.fmt h))) = .error r) : strelEnd h o c = r := by
  simp [strelEnd, ha, he]

/-- The step of `atomcas` in a lane: what is compared stands in the low half of its data, what is stored in the high half. -/
def casStep (h : Hdr) (o : OpM) (c : Ctx) (l old : Nat) : Option Nat :=
  let n := fmtRegs (Checks.fmt h)
  let x := rdData c o (2 * n) l
  if old = field x 0 (32 * n) then some (field x (32 * n) (32 * n)) else none

theorem atomLanes_error {n : Nat} (ha : acts c = true) (he : access c o atomNeeds (laneAccs c o n) = .error r)
    (f : Nat → Nat → Option Nat) : atomLanes c o n f = r := by simp [atomLanes, ha, he]

theorem exchange_error (hm : inMode c.f.stage = false) (ha : acts c = true) (he : access c o atomNeeds (laneAccs c o 4) = .error r) :
    exchange c o = r := by
  unfold exchange
  dsimp only
  split
  · next hs => rw [hs] at hm; cases hm
  · simp [ha, he]

theorem redLanes_error {h : Hdr} (ha : acts c = true)
    (he : access c o (redNeeds [0, 1, 2]) (laneAccs c o (4 * fmtRegs (Checks.fmt h))) = .error r) (float : Bool) :
    redLanes c o h float false = r := by simp [redLanes, ha, he]

end

/-! ### The instructions -/

theorem ld_misaligned (h : Hdr) (o : OpM) (hs : o.space.toNat ∈ [0, 1, 2, 4]) : misalignedTraps (.ld h o) o (fmtBytes (Checks.fmt h)) :=
  traps_of_trap (body := fun c => loadLanes c o [0, 1, 2, 4] (l2Only h) (fmtBytes (Checks.fmt h)) (fmtRegs (Checks.fmt h))
      (fmtLoad (Checks.fmt h)))
    rfl (fun s => Eq.refl (execLd h o s)) fun _ hm =>
    loadLanes_error hm.acts (access_misaligned hs (fun h3 => by simp [h3] at hs) hm.canonical hm.lanes) ..

theorem ldacq_misaligned (h : Hdr) (o : OpM) (hs : o.space.toNat ∈ [0, 1, 2]) :
    misalignedTraps (.ldacq h o) o (fmtBytes (Checks.fmt h)) :=
  traps_of_trap (body := fun c => loadLanes c o [0, 1, 2] (l2Only h) (fmtBytes (Checks.fmt h)) (fmtRegs (Checks.fmt h))
      (fmtLoad (Checks.fmt h)))
    rfl (fun s => Eq.refl (execLdacq h o s)) fun _ hm =>
    loadLanes_error hm.acts (access_misaligned hs (fun h3 => by simp [h3] at hs) hm.canonical hm.lanes) ..

theorem ldw_misaligned (h : Hdr) (o : OpM) (hs : o.space.toNat ∈ [0, 1, 2, 4]) : misalignedTraps (.ldw h o) o (4 * wideRegs h) :=
  traps_of_trap (body := fun c => if wideRegs h = 2 then loadLanes c o [0, 1, 2, 4] (l2Only h) 8 2 ofBytes else loadTwice c o (l2Only h))
    rfl (fun s => Eq.refl (execLdw h o s)) fun c hm => by
    have he := access_misaligned (c := c) (nd := loadNeeds o [0, 1, 2, 4]) hs (fun h3 => by simp [h3] at hs) hm.canonical hm.lanes
    by_cases h2 : wideRegs h = 2
    · rw [if_pos h2, h2]
      rw [h2] at he
      exact loadLanes_error hm.acts he ..
    · have h4 : wideRegs h = 4 := (ite_eq_or_eq _ _ _).resolve_left h2
      rw [if_neg h2, h4]
      rw [h4] at he
      exact loadTwice_error hm.half hm.acts he ..

theorem not_fifo_of_le {n : Nat} (hs : n ≤ 2) : n ≠ 3 := by omega

theorem mem_spaces_of_le {n : Nat} (hs : n ≤ 2) : n ∈ [0, 1, 2] := by
  simp only [List.mem_cons, List.not_mem_nil, or_false]
  omega

theorem st_misaligned (h : Hdr) (o : OpM) (hs : o.space.toNat ≤ 2) : misalignedTraps (.st h o) o (fmtBytes (Checks.fmt h)) :=
  traps_of_trap (body := fun c => storeLanes c o (l2Only h) (fmtBytes (Checks.fmt h)) (fmtRegs (Checks.fmt h)))
    rfl (fun s => Eq.refl (execSt h o s)) fun _ hm =>
    storeLanes_error hm.acts (access_misaligned (mem_spaces_of_le hs) (not_fifo_of_le hs) hm.canonical hm.lanes) ..

theorem stw_misaligned (h : Hdr) (o : OpM) (hs : o.space.toNat ≤ 2) : misalignedTraps (.stw h o) o (4 * wideRegs h) :=
  traps_of_trap (body := fun c => storeLanes c o (l2Only h) (4 * wideRegs h) (wideRegs h))
    rfl (fun s => Eq.refl (execStw h o s)) fun _ hm =>
    storeLanes_error hm.acts (access_misaligned (mem_spaces_of_le hs) (not_fifo_of_le hs) hm.canonical hm.lanes) ..

theorem strel_misaligned (h : Hdr) (o : OpM) (hs : o.space.toNat ≤ 2) : misalignedTraps (.strel h o) o (fmtBytes (Checks.fmt h)) :=
  traps_of_trap (body := strelEnd h o) rfl (fun s => Eq.refl (execStrel h o s)) fun _ hm =>
    strelEnd_error hm.acts (access_misaligned (mem_spaces_of_le hs) (not_fifo_of_le hs) hm.canonical hm.lanes)

theorem atom_misaligned (h : Hdr) (o : OpM) (hs : o.space.toNat ≤ 2) : misalignedTraps (.atom h o) o (4 * fmtRegs (Checks.fmt h)) :=
  traps_of_trap (body := fun c => if field h.mod.toNat 0 3 = 6 ∧ fmtRegs (Checks.fmt h) = 1 then exchange c o
      else atomLanes c o (4 * fmtRegs (Checks.fmt h)) (fun l old =>
        some (atomInt (field h.mod.toNat 0 3) (Checks.fmt h) old (rdData c o (fmtRegs (Checks.fmt h)) l))))
    rfl (fun s => Eq.refl (execAtom h o s)) fun c hm => by
    have he := access_misaligned (c := c) (nd := atomNeeds) (mem_spaces_of_le hs) (not_fifo_of_le hs) hm.canonical hm.lanes
    by_cases hx : field h.mod.toNat 0 3 = 6 ∧ fmtRegs (Checks.fmt h) = 1
    · rw [if_pos hx, hx.2]
      rw [hx.2] at he
      exact exchange_error hm.mode hm.acts he
    · rw [if_neg hx]
      exact atomLanes_error hm.acts he _

theorem atomcas_misaligned (h : Hdr) (o : OpM) (hs : o.space.toNat ≤ 2) :
    misalignedTraps (.atomcas h o) o (4 * fmtRegs (Checks.fmt h)) :=
  traps_of_trap (body := fun c => atomLanes c o (4 * fmtRegs (Checks.fmt h)) (casStep h o c))
    rfl (fun s => Eq.refl (execAtomcas h o s)) fun _ hm =>
    atomLanes_error hm.acts (access_misaligned (mem_spaces_of_le hs) (not_fifo_of_le hs) hm.canonical hm.lanes) _

theorem atomf_misaligned (h : Hdr) (o : OpM) (hs : o.space.toNat ≤ 2) : misalignedTraps (.atomf h o) o 4 :=
  traps_of_trap rfl (fun s => Eq.refl (execAtomf h o s)) fun _ hm =>
    atomLanes_error hm.acts (access_misaligned (mem_spaces_of_le hs) (not_fifo_of_le hs) hm.canonical hm.lanes) _

theorem red_misaligned (h : Hdr) (o : OpM) (hs : o.space.toNat ≤ 2) : misalignedTraps (.red h o) o (4 * fmtRegs (Checks.fmt h)) :=
  traps_of_trap rfl (fun s => Eq.refl (execRed h o s)) fun _ hm =>
    redLanes_error hm.acts (access_misaligned (mem_spaces_of_le hs) (not_fifo_of_le hs) hm.canonical hm.lanes) _

theorem redf_misaligned (h : Hdr) (o : OpM) (hs : o.space.toNat ≤ 2) : misalignedTraps (.redf h o) o (4 * fmtRegs (Checks.fmt h)) :=
  traps_of_trap rfl (fun s => Eq.refl (execRedf h o s)) fun _ hm =>
    redLanes_error hm.acts (access_misaligned (mem_spaces_of_le hs) (not_fifo_of_le hs) hm.canonical hm.lanes) _

theorem laneLoad_misaligned {i : Instr} {o : OpM} {sp : List Nat} {n : Nat} (hi : laneLoad i = some (o, sp, n)) (hs : o.space.toNat ∈ sp) :
    misalignedTraps i o n := by
  unfold laneLoad at hi
  split at hi
  · cases hi; exact ld_misaligned _ _ hs
  · cases hi; exact ldacq_misaligned _ _ hs
  · cases hi; exact ldw_misaligned _ _ hs
  · cases hi

theorem laneStore_misaligned {i : Instr} {o : OpM} {n r : Nat} (hi : laneStore i = some (o, n, r)) (hs : o.space.toNat ≤ 2) :
    misalignedTraps i o n := by
  unfold laneStore at hi
  split at hi
  · cases hi; exact st_misaligned _ _ hs
  · cases hi; exact stw_misaligned _ _ hs
  · cases hi; exact strel_misaligned _ _ hs
  · cases hi

theorem laneStep_misaligned {i : Instr} {o : OpM} {n : Nat} {nd : Needs} (hi : laneStep i = some (o, n, nd)) (hs : o.space.toNat ≤ 2) :
    misalignedTraps i o n := by
  unfold laneStep at hi
  split at hi
  · cases hi; exact atom_misaligned _ _ hs
  · cases hi; exact atomcas_misaligned _ _ hs
  · cases hi; exact atomf_misaligned _ _ hs
  · cases hi; exact red_misaligned _ _ hs
  · cases hi; exact redf_misaligned _ _ hs
  · cases hi

end Sys2Proof.Claims

open Sys2Proof.Claims in
/-- Settles O50: every instruction named makes the checks of its addresses, in the order of R234, before it does anything. -/
theorem Sys2Proof.misalignedAccessTraps : Obligations.MisalignedAccessTraps := by
  unfold Obligations.MisalignedAccessTraps
  intro s i c o n hi hr ha hh hhalf hmode hcan hm
  have ht : misalignedTraps i o n := by
    obtain ⟨sp, hi, hs⟩ | ⟨r, hi, hs⟩ | ⟨nd, hi, hs⟩ := hi
    · exact laneLoad_misaligned hi hs
    · exact laneStore_misaligned hi hs
    · exact laneStep_misaligned hi hs
  obtain ⟨-, -, -, -, hcs, -⟩ := Machine.Ops.readyFor_spec hr
  subst hcs
  exact ht c.s c hr ⟨ha, hhalf, hmode, hcan, hm⟩ hh
end

section
/-! Instructions whose guard holds in no active lane (01 R27, 02 R46): each completes without any write. -/

namespace Sys2Proof.Machine.Ops

open Sys2Proof.Bits

/-! ### Effects of no lane -/

section
variable {c : Ctx} (ha : acts c = false)
include ha

theorem pass_of_off : c.pass = 0 := by simpa [acts] using ha

theorem lanesOf_off : lanesOf c.pass = [] := by rw [pass_of_off ha]; rfl

theorem wrLanes_off (r : BitVec 9) (n : Nat) (x : Nat → Nat) : wrLanes c r n x = [] := by simp [wrLanes, ha, lanesOf_off ha]

theorem wrPred_off (p : BitVec 3) (b : Nat → Bool) : wrPred c p b = [] := by simp [wrPred, lanesOf_off ha]

theorem flagLanes_off (f : Nat → Nat) : flagLanes c f = [] := by simp [flagLanes, lanesOf_off ha]

theorem recordLanes_off (f : Nat → FragLane → FragLane) : recordLanes c f = c.s := by simp [recordLanes, lanesOf_off ha]

/-- An effect that is made only where the guard holds in some lane. -/
theorem off_if (r : Res) : (if acts c = true then r else noEffect c) = noEffect c := if_neg (by simp [ha])

theorem off_ifNot (r : Res) : (if (!acts c) = true then noEffect c else r) = noEffect c := if_pos (by simp [ha])

theorem doneN_off (d : BitVec 9) (n : Nat) (f : Nat → Nat) : doneN c d n f = noEffect c := by rw [doneN, wrLanes_off ha, noEffect]

theorem doneF_off (d : BitVec 9) (f : Nat → Num.FRes) : doneF c d f = noEffect c := by
  rw [doneF, wrLanes_off ha, flagLanes_off ha, noEffect]

theorem shuffle_off (w mode : Nat) (d : BitVec 9) (p : BitVec 3) (a : BitVec 9) (mask : Nat) (b : Nat → Int) :
    shuffle c w mode d p a mask b = noEffect c := by simp [shuffle, wrLanes_off ha, wrPred_off ha, noEffect]

theorem divisionEnd_off (h : Hdr) (o : OpR) {res : Ctx → List RegWrite} (hr : res c = []) : Claims.divisionEnd h o res c = noEffect c := by
  simp [Claims.divisionEnd, zeroDivisors, lanesOf_off ha, hr, noEffect]

theorem loadLanes_off (o : OpM) (spaces : List Nat) (l2 : Bool) (bytes n : Nat) (value : List Byte → Nat) :
    loadLanes c o spaces l2 bytes n value = noEffect c := off_ifNot ha _

theorem loadTwice_off (hf : c.f.stage = .fresh) (o : OpM) (l2 : Bool) : loadTwice c o l2 = noEffect c := by simp [loadTwice, hf, ha]

theorem storeLanes_off (o : OpM) (l2 : Bool) (bytes n : Nat) : storeLanes c o l2 bytes n = noEffect c := off_ifNot ha _

theorem atomLanes_off (o : OpM) (n : Nat) (f : Nat → Nat → Option Nat) : atomLanes c o n f = noEffect c := off_ifNot ha _

theorem exchange_off (hf : c.f.stage = .fresh) (o : OpM) : exchange c o = noEffect c := by simp [exchange, hf, ha]

theorem redLanes_off (o : OpM) (h : Hdr) (float : Bool) : redLanes c o h float false = noEffect c := by simp [redLanes, ha, noEffect]

/-- A deterministic reduction counts as issued (12 R249). -/
theorem redLanes_det_off (o : OpM) (h : Hdr) (float : Bool) : redLanes c o h float true = .done (countDet c.s c.key) [] [] := by
  simp [redLanes, ha]

theorem withRecord_off (o : OpG) (lanes : Nat) (writes : Bool) (body : Nat → Nat → List Byte → State → Res) :
    withRecord c o lanes writes body = noEffect c := off_ifNot ha _

end

/-! ### The completion without any write -/

/-- The guard of a new instruction holds in none of its active lanes. -/
structure GuardedOff (c : Ctx) : Prop where
  acts : acts c = false
  active : c.active ≠ 0
  fresh : c.f.stage = .fresh

/-- The answer is the completion without any write. -/
def Off (c : Ctx) (m : Marks) (r : Host.Outcome State Fault Refusal) : Prop := r = .next (retire c m c.s (nextSlot c.f.pc) [] [])

/-- Under a guard that holds in no lane the instruction completes without any write. -/
def OffFor (i : Instr) : Prop := Claims.effects i GuardedOff (fun c => c.s)

theorem off_run {s : State} {c : Ctx} {i : Instr} {h : Hdr} {m : Marks} {os : List Opnd} {ps : List Nat} {body : Ctx → Res}
    (hr : ready s i h m os ps = some c) (hb : body c = noEffect c) : Off c m (run i h m os ps body s) := run_done hr hb

section
variable {i : Instr} {x : Shape} {body : Ctx → Res} {h : Hdr}

theorem offFor_of (hx : shapeOf i = some x) (he : ∀ s, exec i s = run i x.hdr x.marks x.opnds x.preds body s)
    (hb : ∀ c, GuardedOff c → body c = noEffect c) : OffFor i := Claims.completes_of_done hx he hb

theorem offFor_intro (hx : shapeOf i = some x)
    (he : ∀ s c, ready s i x.hdr x.marks x.opnds x.preds = some c → GuardedOff c → Off c x.marks (exec i s)) : OffFor i :=
  fun s c hr hc => by
    rw [Claims.marksOf_eq hx]
    exact he s c (Claims.ready_of_readyFor hx hr) hc

/-- A division, whatever results it makes of its lanes. -/
theorem offFor_divideR {o : OpR} {os : List Opnd} {res : Ctx → List RegWrite} (hx : shapeOf i = some (Shape.plain h os))
    (he : ∀ s, exec i s = divideR i h o os res s) (hr : ∀ c, acts c = false → res c = []) : OffFor i :=
  offFor_of (body := Claims.divisionEnd h o res) hx he fun c hc => divisionEnd_off hc.acts h o (hr c hc.acts)

theorem offFor_binaryR {o : OpR} {f : Nat → Nat → Nat}
    (hx : shapeOf i = some (Shape.plain h (Shape.binW h o))) (he : ∀ s, exec i s = binaryR i h o f s) : OffFor i :=
  offFor_intro hx fun s c hr ⟨ha, _, _⟩ => by
    rw [he]
    unfold binaryR
    exact off_run hr (doneN_off ha ..)

theorem offFor_carryR {o : OpR} {f : Nat → Nat → Bool → Nat × Bool}
    (hx : shapeOf i = some (Shape.plain h (Shape.binW h o) [o.p.toNat] [o.p.toNat])) (he : ∀ s, exec i s = carryR i h o f s) : OffFor i :=
  offFor_intro hx fun s c hr ⟨ha, _, _⟩ => by
    rw [he]
    unfold carryR
    exact off_run hr (by simp [wrLanes_off ha, wrPred_off ha, noEffect])

theorem offFor_ternaryR {o : OpR} {f : Nat → Nat → Nat → Nat}
    (hx : shapeOf i = some (Shape.plain h (Shape.terW h o))) (he : ∀ s, exec i s = ternaryR i h o f s) : OffFor i :=
  offFor_intro hx fun s c hr ⟨ha, _, _⟩ => by
    rw [he]
    unfold ternaryR
    exact off_run hr (doneN_off ha ..)

theorem offFor_ternaryS {o : OpR} {f : Nat → Nat → Nat → Nat}
    (hx : shapeOf i = some (Shape.plain h (Shape.terS o))) (he : ∀ s, exec i s = ternaryS i h o f s) : OffFor i :=
  offFor_intro hx fun s c hr ⟨ha, _, _⟩ => by
    rw [he]
    unfold ternaryS
    exact off_run hr (doneN_off ha ..)

theorem offFor_unaryR {o : OpR} {f : Nat → Nat}
    (hx : shapeOf i = some (Shape.plain h [dstW (width h) o.d, srcW (width h) o.a])) (he : ∀ s, exec i s = unaryR i h o f s) : OffFor i :=
  offFor_intro hx fun s c hr ⟨ha, _, _⟩ => by
    rw [he]
    unfold unaryR
    exact off_run hr (doneN_off ha ..)

theorem offFor_shiftR {o : OpR} {f : Nat → Nat → Nat → Nat}
    (hx : shapeOf i = some (Shape.plain h (Shape.shift h o))) (he : ∀ s, exec i s = shiftR i h o f s) : OffFor i :=
  offFor_intro hx fun s c hr ⟨ha, _, _⟩ => by
    rw [he]
    unfold shiftR
    exact off_run hr (doneN_off ha ..)

theorem offFor_funnelR {o : OpR} {f : Nat → Nat → Nat → Nat}
    (hx : shapeOf i = some (Shape.plain h (Shape.funnel o))) (he : ∀ s, exec i s = funnelR i h o f s) : OffFor i :=
  offFor_intro hx fun s c hr ⟨ha, _, _⟩ => by
    rw [he]
    unfold funnelR
    exact off_run hr (doneN_off ha ..)

theorem offFor_countR {o : OpR} {f : Nat → Nat → Nat}
    (hx : shapeOf i = some (Shape.plain h [dst o.d, srcW (width h) o.a])) (he : ∀ s, exec i s = countR i h o f s) : OffFor i :=
  offFor_intro hx fun s c hr ⟨ha, _, _⟩ => by
    rw [he]
    unfold countR
    exact off_run hr (doneN_off ha ..)

theorem offFor_float1 {o : OpR} {f : Nat → Num.FRes}
    (hx : shapeOf i = some (Shape.plain h [dst o.d, src o.a])) (he : ∀ s, exec i s = float1 i h o f s) : OffFor i :=
  offFor_intro hx fun s c hr ⟨ha, _, _⟩ => by
    rw [he]
    unfold float1
    exact off_run hr (doneF_off ha ..)

theorem offFor_float2 {o : OpR} {f : Nat → Nat → Num.FRes}
    (hx : shapeOf i = some (Shape.plain h [dst o.d, src o.a, src o.b])) (he : ∀ s, exec i s = float2 i h o f s) : OffFor i :=
  offFor_intro hx fun s c hr ⟨ha, _, _⟩ => by
    rw [he]
    unfold float2
    exact off_run hr (doneF_off ha ..)

theorem offFor_float3 {o : OpR} {f : Nat → Nat → Nat → Num.FRes}
    (hx : shapeOf i = some (Shape.plain h (Shape.terS o))) (he : ∀ s, exec i s = float3 i h o f s) : OffFor i :=
  offFor_intro hx fun s c hr ⟨ha, _, _⟩ => by
    rw [he]
    unfold float3
    exact off_run hr (doneF_off ha ..)

theorem offFor_packedR {o : OpR} {third : Bool} {f : Num.FFmt → Nat → Nat → Nat → Num.FRes}
    (hx : shapeOf i = some (Shape.plain h ([dst o.d, src o.a, src o.b] ++ if third then [src o.c] else [])))
    (he : ∀ s, exec i s = packedR i h o third f s) : OffFor i :=
  offFor_intro hx fun s c hr ⟨ha, _, _⟩ => by
    rw [he]
    unfold packedR
    exact off_run hr (doneF_off ha ..)

theorem offFor_derivative {o : OpR} {y : Bool}
    (hx : shapeOf i = some (Shape.plain h [(dst o.d).inVec, src o.a])) (he : ∀ s, exec i s = derivative i h o y s) : OffFor i :=
  offFor_intro hx fun s c hr ⟨ha, _, _⟩ => by
    rw [he]
    unfold derivative
    exact off_run hr (by simp [lanesOf_off ha, wrLanes_off ha, flagLanes_off ha, noEffect])

theorem offFor_branchAll {o : OpB} {taken : Ctx → Bool} (ht : ∀ c, GuardedOff c → taken c = false)
    (hx : shapeOf i = some (Shape.plain h [])) (he : ∀ s, exec i s = branchAll i h o taken s) : OffFor i :=
  offFor_intro hx fun s c hr hc => by
    rw [he]
    unfold branchAll
    exact off_run hr (if_neg (by simp [ht c hc]))

theorem offFor_runXf {o : OpR} {dspan aspan : Nat} {more : List Opnd} {f : Ctx → Nat → Num.FRes}
    (hx : shapeOf i = some (Shape.plain h (Shape.runs o dspan aspan ++ more)))
    (he : ∀ s, exec i s = runXf i h o dspan aspan more f s) : OffFor i :=
  offFor_intro hx fun s c hr ⟨ha, _, _⟩ => by
    rw [he]
    unfold runXf
    exact off_run hr (off_ifNot ha ..)

end

/-! ### The instructions -/

theorem off_nop (h : Hdr) (o : OpS) : OffFor (.nop h o) :=
  offFor_of rfl (fun s => Eq.refl (execNop h o s)) fun _ _ => rfl

theorem off_brk (h : Hdr) (o : OpS) : OffFor (.brk h o) :=
  offFor_of rfl (fun s => Eq.refl (execBrk h o s)) fun _ ⟨ha, _, _⟩ => off_if ha ..

theorem off_hint (h : Hdr) (o : OpS) : OffFor (.hint h o) :=
  offFor_of rfl (fun s => Eq.refl (execHint h o s)) fun _ _ => rfl

theorem off_trap (h : Hdr) (o : OpS) : OffFor (.trap h o) :=
  offFor_of rfl (fun s => Eq.refl (execTrap h o s)) fun _ ⟨ha, _, _⟩ => off_if ha ..

theorem off_rett (h : Hdr) (o : OpS) : OffFor (.rett h o) :=
  offFor_of rfl (fun s => Eq.refl (execRett h o s)) fun _ ⟨ha, _, _⟩ => off_ifNot ha ..

theorem off_rgn (h : Hdr) (o : OpS) : OffFor (.rgn h o) :=
  offFor_of rfl (fun s => Eq.refl (execRgn h o s)) fun _ ⟨ha, _, _⟩ => off_if ha ..

theorem off_rgnend (h : Hdr) (o : OpS) : OffFor (.rgnend h o) :=
  offFor_of rfl (fun s => Eq.refl (execRgnend h o s)) fun _ ⟨ha, _, _⟩ => off_if ha ..

theorem off_brall (h : Hdr) (o : OpB) : OffFor (.brall h o) :=
  offFor_branchAll (fun _ ⟨ha, hn, _⟩ => by simpa [pass_of_off ha] using hn.symm) rfl fun s => Eq.refl (execBrall h o s)

theorem off_brany (h : Hdr) (o : OpB) : OffFor (.brany h o) :=
  offFor_branchAll (fun _ hc => hc.acts) rfl fun s => Eq.refl (execBrany h o s)

theorem off_mrg (h : Hdr) (o : OpB) : OffFor (.mrg h o) :=
  offFor_of rfl (fun s => Eq.refl (execMrg h o s)) fun _ ⟨ha, _, _⟩ => off_if ha ..

theorem off_mrgx (h : Hdr) (o : OpB) : OffFor (.mrgx h o) :=
  offFor_of rfl (fun s => Eq.refl (execMrgx h o s)) fun _ ⟨ha, _, _⟩ => off_if ha ..

theorem off_add (h : Hdr) (o : OpR) : OffFor (.add h o) :=
  offFor_binaryR rfl fun s => Eq.refl (execAdd h o s)

theorem off_addc (h : Hdr) (o : OpR) : OffFor (.addc h o) :=
  offFor_carryR rfl fun s => Eq.refl (execAddc h o s)

theorem off_sub (h : Hdr) (o : OpR) : OffFor (.sub h o) :=
  offFor_binaryR rfl fun s => Eq.refl (execSub h o s)

theorem off_subb (h : Hdr) (o : OpR) : OffFor (.subb h o) :=
  offFor_carryR rfl fun s => Eq.refl (execSubb h o s)

theorem off_addi (h : Hdr) (o : OpI) : OffFor (.addi h o) := offFor_intro rfl fun s c hr ⟨ha, _, _⟩ => by
  change Off c _ (execAddi h o s)
  unfold execAddi
  exact off_run hr (doneN_off ha ..)

theorem off_mul (h : Hdr) (o : OpR) : OffFor (.mul h o) :=
  offFor_binaryR rfl fun s => Eq.refl (execMul h o s)

theorem off_mulhi (h : Hdr) (o : OpR) : OffFor (.mulhi h o) :=
  offFor_binaryR rfl fun s => Eq.refl (execMulhi h o s)

theorem off_mulw (h : Hdr) (o : OpR) : OffFor (.mulw h o) :=
  offFor_of rfl (fun s => Eq.refl (execMulw h o s)) fun _ ⟨ha, _, _⟩ => doneN_off ha ..

theorem off_mad (h : Hdr) (o : OpR) : OffFor (.mad h o) :=
  offFor_ternaryR rfl fun s => Eq.refl (execMad h o s)

theorem off_madw (h : Hdr) (o : OpR) : OffFor (.madw h o) :=
  offFor_of rfl (fun s => Eq.refl (execMadw h o s)) fun _ ⟨ha, _, _⟩ => doneN_off ha ..

theorem off_div (h : Hdr) (o : OpR) : OffFor (.div h o) :=
  offFor_divideR (res := fun c => wrLanes c o.d (regsOf (width h)) (Claims.quotOf h o c)) rfl
    (fun s => Eq.refl (execDiv h o s)) fun _ ha => wrLanes_off ha ..

theorem off_rem (h : Hdr) (o : OpR) : OffFor (.rem h o) :=
  offFor_divideR (res := fun c => wrLanes c o.d (regsOf (width h)) (Claims.remOf h o c)) rfl
    (fun s => Eq.refl (execRem h o s)) fun _ ha => wrLanes_off ha ..

theorem off_divrem (h : Hdr) (o : OpR) : OffFor (.divrem h o) :=
  offFor_divideR (res := fun c => wrLanes c o.d (regsOf (width h)) (Claims.quotOf h o c) ++
      wrLanes c o.c (regsOf (width h)) (Claims.remOf h o c)) rfl
    (fun s => Eq.refl (execDivrem h o s)) fun c ha => by simp [wrLanes_off ha]

theorem off_min (h : Hdr) (o : OpR) : OffFor (.min h o) :=
  offFor_binaryR rfl fun s => Eq.refl (execMin h o s)

theorem off_max (h : Hdr) (o : OpR) : OffFor (.max h o) :=
  offFor_binaryR rfl fun s => Eq.refl (execMax h o s)

theorem off_clamp (h : Hdr) (o : OpR) : OffFor (.clamp h o) :=
  offFor_ternaryR rfl fun s => Eq.refl (execClamp h o s)

theorem off_abs (h : Hdr) (o : OpR) : OffFor (.abs h o) :=
  offFor_unaryR rfl fun s => Eq.refl (execAbs h o s)

theorem off_sad (h : Hdr) (o : OpR) : OffFor (.sad h o) :=
  offFor_ternaryR rfl fun s => Eq.refl (execSad h o s)

theorem off_dot4 (h : Hdr) (o : OpR) : OffFor (.dot4 h o) :=
  offFor_ternaryS rfl fun s => Eq.refl (execDot4 h o s)

theorem off_dot2 (h : Hdr) (o : OpR) : OffFor (.dot2 h o) :=
  offFor_ternaryS rfl fun s => Eq.refl (execDot2 h o s)

theorem off_lea (h : Hdr) (o : OpR) : OffFor (.lea h o) :=
  offFor_of rfl (fun s => Eq.refl (execLea h o s)) fun _ ⟨ha, _, _⟩ => doneN_off ha ..

theorem off_leai (h : Hdr) (o : OpI) : OffFor (.leai h o) :=
  offFor_of rfl (fun s => Eq.refl (execLeai h o s)) fun _ ⟨ha, _, _⟩ => doneN_off ha ..

theorem off_and (h : Hdr) (o : OpR) : OffFor (.and h o) :=
  offFor_binaryR rfl fun s => Eq.refl (execAnd h o s)

theorem off_or (h : Hdr) (o : OpR) : OffFor (.or h o) :=
  offFor_binaryR rfl fun s => Eq.refl (execOr h o s)

theorem off_xor (h : Hdr) (o : OpR) : OffFor (.xor h o) :=
  offFor_binaryR rfl fun s => Eq.refl (execXor h o s)

theorem off_not (h : Hdr) (o : OpR) : OffFor (.not h o) :=
  offFor_unaryR rfl fun s => Eq.refl (execNot h o s)

theorem off_tern (h : Hdr) (o : OpR) : OffFor (.tern h o) :=
  offFor_ternaryR rfl fun s => Eq.refl (execTern h o s)

theorem off_bini (h : Hdr) (o : OpI) : OffFor (.bini h o) := offFor_intro rfl fun s c hr ⟨ha, _, _⟩ => by
  change Off c _ (execBini h o s)
  unfold execBini
  exact off_run hr (doneN_off ha ..)

theorem off_shl (h : Hdr) (o : OpR) : OffFor (.shl h o) :=
  offFor_shiftR rfl fun s => Eq.refl (execShl h o s)

theorem off_shr (h : Hdr) (o : OpR) : OffFor (.shr h o) :=
  offFor_shiftR rfl fun s => Eq.refl (execShr h o s)

theorem off_sra (h : Hdr) (o : OpR) : OffFor (.sra h o) :=
  offFor_shiftR rfl fun s => Eq.refl (execSra h o s)

theorem off_fsl (h : Hdr) (o : OpR) : OffFor (.fsl h o) :=
  offFor_funnelR rfl fun s => Eq.refl (execFsl h o s)

theorem off_fsr (h : Hdr) (o : OpR) : OffFor (.fsr h o) :=
  offFor_funnelR rfl fun s => Eq.refl (execFsr h o s)

theorem off_popc (h : Hdr) (o : OpR) : OffFor (.popc h o) :=
  offFor_countR rfl fun s => Eq.refl (execPopc h o s)

theorem off_clz (h : Hdr) (o : OpR) : OffFor (.clz h o) :=
  offFor_countR rfl fun s => Eq.refl (execClz h o s)

theorem off_brev (h : Hdr) (o : OpR) : OffFor (.brev h o) :=
  offFor_unaryR rfl fun s => Eq.refl (execBrev h o s)

theorem off_bfx (h : Hdr) (o : OpR) : OffFor (.bfx h o) := offFor_intro rfl fun s c hr ⟨ha, _, _⟩ => by
  change Off c _ (execBfx h o s)
  unfold execBfx
  exact off_run hr (doneN_off ha ..)

theorem off_bfi (h : Hdr) (o : OpR) : OffFor (.bfi h o) := offFor_intro rfl fun s c hr ⟨ha, _, _⟩ => by
  change Off c _ (execBfi h o s)
  unfold execBfi
  exact off_run hr (doneN_off ha ..)

theorem off_perm (h : Hdr) (o : OpR) : OffFor (.perm h o) :=
  offFor_ternaryS rfl fun s => Eq.refl (execPerm h o s)

theorem off_setp (h : Hdr) (o : OpR) : OffFor (.setp h o) := offFor_intro rfl fun s c hr ⟨ha, _, _⟩ => by
  change Off c _ (execSetp h o s)
  unfold execSetp
  exact off_run hr (by simp [wrPred_off ha, noEffect])

theorem off_setpi (h : Hdr) (o : OpI) : OffFor (.setpi h o) := offFor_intro rfl fun s c hr ⟨ha, _, _⟩ => by
  change Off c _ (execSetpi h o s)
  unfold execSetpi
  exact off_run hr (by simp [wrPred_off ha, noEffect])

theorem off_fsetp (h : Hdr) (o : OpR) : OffFor (.fsetp h o) :=
  offFor_of rfl (fun s => Eq.refl (execFsetp h o s)) fun _ ⟨ha, _, _⟩ => by simp [wrPred_off ha, flagLanes_off ha, noEffect]

theorem off_plop (h : Hdr) (o : OpR) : OffFor (.plop h o) :=
  offFor_of rfl (fun s => Eq.refl (execPlop h o s)) fun _ ⟨ha, _, _⟩ => by simp [wrPred_off ha, noEffect]

theorem off_sel (h : Hdr) (o : OpR) : OffFor (.sel h o) := offFor_intro rfl fun s c hr ⟨ha, _, _⟩ => by
  change Off c _ (execSel h o s)
  unfold execSel
  exact off_run hr (doneN_off ha ..)

theorem off_seli (h : Hdr) (o : OpI) : OffFor (.seli h o) :=
  offFor_of rfl (fun s => Eq.refl (execSeli h o s)) fun _ ⟨ha, _, _⟩ => doneN_off ha ..

theorem off_mov (h : Hdr) (o : OpR) : OffFor (.mov h o) := offFor_intro rfl fun s c hr ⟨ha, _, _⟩ => by
  change Off c _ (execMov h o s)
  unfold execMov
  exact off_run hr (doneN_off ha ..)

theorem off_movi (h : Hdr) (o : OpI) : OffFor (.movi h o) := offFor_intro rfl fun s c hr ⟨ha, _, _⟩ => by
  change Off c _ (execMovi h o s)
  unfold execMovi
  exact off_run hr (doneN_off ha ..)

theorem off_p2r (h : Hdr) (o : OpR) : OffFor (.p2r h o) :=
  offFor_of rfl (fun s => Eq.refl (execP2r h o s)) fun _ ⟨ha, _, _⟩ => doneN_off ha ..

theorem off_regToPred (h : Hdr) (o : OpR) : OffFor (.regToPred h o) := offFor_intro rfl fun s c hr ⟨ha, _, _⟩ => by
  change Off c _ (execRegToPred h o s)
  unfold execRegToPred
  exact off_run hr (by simp [lanesOf_off ha, noEffect])

theorem off_fadd (h : Hdr) (o : OpR) : OffFor (.fadd h o) :=
  offFor_float2 rfl fun s => Eq.refl (execFadd h o s)

theorem off_fsub (h : Hdr) (o : OpR) : OffFor (.fsub h o) :=
  offFor_float2 rfl fun s => Eq.refl (execFsub h o s)

theorem off_fmul (h : Hdr) (o : OpR) : OffFor (.fmul h o) :=
  offFor_float2 rfl fun s => Eq.refl (execFmul h o s)

theorem off_fma (h : Hdr) (o : OpR) : OffFor (.fma h o) :=
  offFor_float3 rfl fun s => Eq.refl (execFma h o s)

theorem off_fmin (h : Hdr) (o : OpR) : OffFor (.fmin h o) :=
  offFor_float2 rfl fun s => Eq.refl (execFmin h o s)

theorem off_fmax (h : Hdr) (o : OpR) : OffFor (.fmax h o) :=
  offFor_float2 rfl fun s => Eq.refl (execFmax h o s)

theorem off_frnd (h : Hdr) (o : OpR) : OffFor (.frnd h o) :=
  offFor_float1 rfl fun s => Eq.refl (execFrnd h o s)

theorem off_fclass (h : Hdr) (o : OpR) : OffFor (.fclass h o) :=
  offFor_of rfl (fun s => Eq.refl (execFclass h o s)) fun _ ⟨ha, _, _⟩ => doneN_off ha ..

theorem off_fadd2 (h : Hdr) (o : OpR) : OffFor (.fadd2 h o) :=
  offFor_packedR rfl fun s => Eq.refl (execFadd2 h o s)

theorem off_fmul2 (h : Hdr) (o : OpR) : OffFor (.fmul2 h o) :=
  offFor_packedR rfl fun s => Eq.refl (execFmul2 h o s)

theorem off_fma2 (h : Hdr) (o : OpR) : OffFor (.fma2 h o) :=
  offFor_packedR rfl fun s => Eq.refl (execFma2 h o s)

theorem off_fdot2 (h : Hdr) (o : OpR) : OffFor (.fdot2 h o) :=
  offFor_float3 rfl fun s => Eq.refl (execFdot2 h o s)

theorem off_fex2 (h : Hdr) (o : OpR) : OffFor (.fex2 h o) :=
  offFor_float1 rfl fun s => Eq.refl (execFex2 h o s)

theorem off_flg2 (h : Hdr) (o : OpR) : OffFor (.flg2 h o) :=
  offFor_float1 rfl fun s => Eq.refl (execFlg2 h o s)

theorem off_frcp (h : Hdr) (o : OpR) : OffFor (.frcp h o) :=
  offFor_float1 rfl fun s => Eq.refl (execFrcp h o s)

theorem off_frsq (h : Hdr) (o : OpR) : OffFor (.frsq h o) :=
  offFor_float1 rfl fun s => Eq.refl (execFrsq h o s)

theorem off_fsin (h : Hdr) (o : OpR) : OffFor (.fsin h o) :=
  offFor_float1 rfl fun s => Eq.refl (execFsin h o s)

theorem off_fcos (h : Hdr) (o : OpR) : OffFor (.fcos h o) :=
  offFor_float1 rfl fun s => Eq.refl (execFcos h o s)

theorem off_cvt (h : Hdr) (o : OpR) : OffFor (.cvt h o) := offFor_intro rfl fun s c hr ⟨ha, _, _⟩ => by
  change Off c _ (execCvt h o s)
  unfold execCvt
  exact off_run hr (by simp [wrLanes_off ha, flagLanes_off ha, noEffect])

theorem off_pack (h : Hdr) (o : OpR) : OffFor (.pack h o) :=
  offFor_of rfl (fun s => Eq.refl (execPack h o s)) fun _ ⟨ha, _, _⟩ => doneF_off ha ..

theorem off_unpack (h : Hdr) (o : OpR) : OffFor (.unpack h o) :=
  offFor_of rfl (fun s => Eq.refl (execUnpack h o s)) fun _ ⟨ha, _, _⟩ => by simp [doneF2, wrLanes_off ha, flagLanes_off ha, noEffect]

theorem off_quant (h : Hdr) (o : OpR) : OffFor (.quant h o) :=
  offFor_of rfl (fun s => Eq.refl (execQuant h o s)) fun _ ⟨ha, _, _⟩ => doneF_off ha ..

theorem off_dequant (h : Hdr) (o : OpR) : OffFor (.dequant h o) :=
  offFor_of rfl (fun s => Eq.refl (execDequant h o s)) fun _ ⟨ha, _, _⟩ => doneF_off ha ..

theorem off_pack4 (h : Hdr) (o : OpR) : OffFor (.pack4 h o) :=
  offFor_of rfl (fun s => Eq.refl (execPack4 h o s)) fun _ ⟨ha, _, _⟩ => doneN_off ha ..

theorem off_shfl (h : Hdr) (o : OpR) : OffFor (.shfl h o) := offFor_intro rfl fun s c hr ⟨ha, _, _⟩ => by
  change Off c _ (execShfl h o s)
  unfold execShfl
  exact off_run hr (shuffle_off ha ..)

theorem off_shfli (h : Hdr) (o : OpI) : OffFor (.shfli h o) := offFor_intro rfl fun s c hr ⟨ha, _, _⟩ => by
  change Off c _ (execShfli h o s)
  unfold execShfli
  exact off_run hr (shuffle_off ha ..)

theorem off_vote (h : Hdr) (o : OpR) : OffFor (.vote h o) :=
  offFor_of rfl (fun s => Eq.refl (execVote h o s)) fun _ ⟨ha, _, _⟩ => by simp [wrPred_off ha, noEffect]

theorem off_pmask (h : Hdr) (o : OpR) : OffFor (.pmask h o) :=
  offFor_of rfl (fun s => Eq.refl (execPmask h o s)) fun _ ⟨ha, _, _⟩ => doneN_off ha ..

theorem off_lfold (h : Hdr) (o : OpR) : OffFor (.lfold h o) := offFor_intro rfl fun s c hr ⟨ha, _, _⟩ => by
  change Off c _ (execLfold h o s)
  unfold execLfold
  exact off_run hr (doneN_off ha ..)

theorem off_matchLanes (h : Hdr) (o : OpR) : OffFor (.matchLanes h o) := offFor_intro rfl fun s c hr ⟨ha, _, _⟩ => by
  change Off c _ (execMatchLanes h o s)
  unfold execMatchLanes
  exact off_run hr (doneN_off ha ..)

theorem off_rdlane (h : Hdr) (o : OpR) : OffFor (.rdlane h o) := offFor_intro rfl fun s c hr ⟨ha, _, _⟩ => by
  change Off c _ (execRdlane h o s)
  unfold execRdlane
  exact off_run hr (by simp [wrLanes_off ha, wrPred_off ha, noEffect])

theorem off_ddx (h : Hdr) (o : OpR) : OffFor (.ddx h o) :=
  offFor_derivative rfl fun s => Eq.refl (execDdx h o s)

theorem off_ddy (h : Hdr) (o : OpR) : OffFor (.ddy h o) :=
  offFor_derivative rfl fun s => Eq.refl (execDdy h o s)

theorem off_yield (h : Hdr) (o : OpS) : OffFor (.yield h o) :=
  offFor_of rfl (fun s => Eq.refl (execYield h o s)) fun _ ⟨ha, _, _⟩ => off_if ha ..

theorem off_yieldto (h : Hdr) (o : OpB) : OffFor (.yieldto h o) :=
  offFor_of rfl (fun s => Eq.refl (execYieldto h o s)) fun _ ⟨ha, _, hf⟩ => by simp [ha, hf]

theorem off_sleep (h : Hdr) (o : OpS) : OffFor (.sleep h o) :=
  offFor_of rfl (fun s => Eq.refl (execSleep h o s)) fun _ ⟨ha, _, hf⟩ => by simp [sleepRes, ha, hf]

theorem off_exit (h : Hdr) (o : OpS) : OffFor (.exit h o) :=
  offFor_of rfl (fun s => Eq.refl (execExit h o s)) fun _ ⟨ha, _, _⟩ => off_ifNot ha ..

theorem off_ld (h : Hdr) (o : OpM) : OffFor (.ld h o) := offFor_intro rfl fun s c hr ⟨ha, _, _⟩ => by
  change Off c _ (execLd h o s)
  unfold execLd
  exact off_run hr (loadLanes_off ha ..)

theorem off_st (h : Hdr) (o : OpM) : OffFor (.st h o) := offFor_intro rfl fun s c hr ⟨ha, _, _⟩ => by
  change Off c _ (execSt h o s)
  unfold execSt
  exact off_run hr (storeLanes_off ha ..)

theorem off_ldacq (h : Hdr) (o : OpM) : OffFor (.ldacq h o) := offFor_intro rfl fun s c hr ⟨ha, _, _⟩ => by
  change Off c _ (execLdacq h o s)
  unfold execLdacq
  exact off_run hr (loadLanes_off ha ..)

theorem off_strel (h : Hdr) (o : OpM) : OffFor (.strel h o) := offFor_intro rfl fun s c hr ⟨ha, _, _⟩ => by
  change Off c _ (execStrel h o s)
  unfold execStrel
  exact off_run hr (off_ifNot ha ..)

theorem off_ldk (h : Hdr) (o : OpM) : OffFor (.ldk h o) := offFor_intro rfl fun s c hr ⟨ha, _, _⟩ => by
  change Off c _ (execLdk h o s)
  unfold execLdk
  exact off_run hr (off_ifNot ha ..)

theorem off_stk (h : Hdr) (o : OpM) : OffFor (.stk h o) := offFor_intro rfl fun s c hr ⟨ha, _, _⟩ => by
  change Off c _ (execStk h o s)
  unfold execStk
  exact off_run hr (off_ifNot ha ..)

theorem off_ldw (h : Hdr) (o : OpM) : OffFor (.ldw h o) := offFor_intro rfl fun s c hr ⟨ha, _, hf⟩ => by
  change Off c _ (execLdw h o s)
  unfold execLdw
  exact off_run hr (by split; exacts [loadLanes_off ha .., loadTwice_off ha hf ..])

theorem off_stw (h : Hdr) (o : OpM) : OffFor (.stw h o) := offFor_intro rfl fun s c hr ⟨ha, _, _⟩ => by
  change Off c _ (execStw h o s)
  unfold execStw
  exact off_run hr (storeLanes_off ha ..)

theorem off_fpush (h : Hdr) (o : OpM) : OffFor (.fpush h o) :=
  offFor_of rfl (fun s => Eq.refl (execFpush h o s)) fun _ ⟨ha, _, _⟩ => off_ifNot ha ..

theorem off_fpop (h : Hdr) (o : OpM) : OffFor (.fpop h o) :=
  offFor_of rfl (fun s => Eq.refl (execFpop h o s)) fun _ ⟨ha, _, _⟩ => off_ifNot ha ..

theorem off_fpeek (h : Hdr) (o : OpM) : OffFor (.fpeek h o) :=
  offFor_of rfl (fun s => Eq.refl (execFpeek h o s)) fun _ ⟨ha, _, _⟩ => off_ifNot ha ..

theorem off_pref (h : Hdr) (o : OpM) : OffFor (.pref h o) :=
  offFor_of rfl (fun s => Eq.refl (execPref h o s)) fun _ ⟨ha, _, _⟩ => off_ifNot ha ..

theorem off_atom (h : Hdr) (o : OpM) : OffFor (.atom h o) := offFor_intro rfl fun s c hr ⟨ha, _, hf⟩ => by
  change Off c _ (execAtom h o s)
  unfold execAtom
  exact off_run hr (by split; exacts [exchange_off ha hf .., atomLanes_off ha ..])

theorem off_atomcas (h : Hdr) (o : OpM) : OffFor (.atomcas h o) := offFor_intro rfl fun s c hr ⟨ha, _, _⟩ => by
  change Off c _ (execAtomcas h o s)
  unfold execAtomcas
  exact off_run hr (atomLanes_off ha ..)

theorem off_atomf (h : Hdr) (o : OpM) : OffFor (.atomf h o) :=
  offFor_of rfl (fun s => Eq.refl (execAtomf h o s)) fun _ ⟨ha, _, _⟩ => atomLanes_off ha ..

theorem off_red (h : Hdr) (o : OpM) : OffFor (.red h o) :=
  offFor_of rfl (fun s => Eq.refl (execRed h o s)) fun _ ⟨ha, _, _⟩ => redLanes_off ha ..

theorem off_redf (h : Hdr) (o : OpM) : OffFor (.redf h o) :=
  offFor_of rfl (fun s => Eq.refl (execRedf h o s)) fun _ ⟨ha, _, _⟩ => redLanes_off ha ..

theorem off_dflush (h : Hdr) (o : OpS) : OffFor (.dflush h o) :=
  offFor_of rfl (fun s => Eq.refl (execDflush h o s)) fun _ ⟨ha, _, _⟩ => by simp [ha]

theorem off_fenceAcq (h : Hdr) (o : OpS) : OffFor (.fenceAcq h o) :=
  offFor_of rfl (fun s => Eq.refl (execFenceAcq h o s)) fun _ ⟨ha, _, _⟩ => by simp [ha]

theorem off_fenceRel (h : Hdr) (o : OpS) : OffFor (.fenceRel h o) :=
  offFor_of rfl (fun s => Eq.refl (execFenceRel h o s)) fun _ ⟨ha, _, _⟩ => off_if ha ..

theorem off_fenceAr (h : Hdr) (o : OpS) : OffFor (.fenceAr h o) :=
  offFor_of rfl (fun s => Eq.refl (execFenceAr h o s)) fun _ ⟨ha, _, _⟩ => off_if ha ..

theorem off_fenceSmp (h : Hdr) (o : OpS) : OffFor (.fenceSmp h o) :=
  offFor_of rfl (fun s => Eq.refl (execFenceSmp h o s)) fun _ ⟨ha, _, _⟩ => off_if ha ..

theorem off_fwait (h : Hdr) (o : OpS) : OffFor (.fwait h o) :=
  offFor_of rfl (fun s => Eq.refl (execFwait h o s)) fun _ ⟨ha, _, hf⟩ => by simp [ha, hf]

theorem off_ngath (h : Hdr) (o : OpM) : OffFor (.ngath h o) := offFor_intro rfl fun s c hr ⟨ha, _, _⟩ => by
  change Off c _ (execNgath h o s)
  unfold execNgath
  exact off_run hr (off_ifNot ha ..)

theorem off_nscat (h : Hdr) (o : OpM) : OffFor (.nscat h o) := offFor_intro rfl fun s c hr ⟨ha, _, _⟩ => by
  change Off c _ (execNscat h o s)
  unfold execNscat
  exact off_run hr (off_ifNot ha ..)

theorem off_cwb (h : Hdr) (o : OpM) : OffFor (.cwb h o) :=
  offFor_of rfl (fun s => Eq.refl (execCwb h o s)) fun _ ⟨ha, _, _⟩ => off_ifNot ha ..

theorem off_cinv (h : Hdr) (o : OpM) : OffFor (.cinv h o) :=
  offFor_of rfl (fun s => Eq.refl (execCinv h o s)) fun _ ⟨ha, _, _⟩ => off_ifNot ha ..

theorem off_cdisc (h : Hdr) (o : OpM) : OffFor (.cdisc h o) := offFor_intro rfl fun s c hr ⟨ha, _, _⟩ => by
  change Off c _ (execCdisc h o s)
  unfold execCdisc
  exact off_run hr (off_ifNot ha ..)

theorem off_icinv (h : Hdr) (o : OpM) : OffFor (.icinv h o) :=
  offFor_of rfl (fun s => Eq.refl (execIcinv h o s)) fun _ ⟨ha, _, _⟩ => off_ifNot ha ..

theorem off_cpy (h : Hdr) (o : OpR) : OffFor (.cpy h o) :=
  offFor_of rfl (fun s => Eq.refl (execCpy h o s)) fun _ ⟨ha, _, _⟩ => off_ifNot ha ..

theorem off_cpyo (h : Hdr) (o : OpR) : OffFor (.cpyo h o) := offFor_intro rfl fun s c hr ⟨ha, _, _⟩ => by
  change Off c _ (execCpyo h o s)
  unfold execCpyo
  exact off_run hr (off_ifNot ha ..)

theorem off_cpyq (h : Hdr) (o : OpR) : OffFor (.cpyq h o) :=
  offFor_of rfl (fun s => Eq.refl (execCpyq h o s)) fun _ ⟨ha, _, _⟩ => off_ifNot ha ..

theorem off_halloc (h : Hdr) (o : OpR) : OffFor (.halloc h o) :=
  offFor_of rfl (fun s => Eq.refl (execHalloc h o s)) fun _ ⟨ha, _, _⟩ => off_if ha ..

theorem off_hfree (h : Hdr) (o : OpR) : OffFor (.hfree h o) :=
  offFor_of rfl (fun s => Eq.refl (execHfree h o s)) fun _ ⟨ha, _, _⟩ => off_if ha ..

theorem off_hwaitTake (h : Hdr) (o : OpR) : OffFor (.hwaitTake h o) :=
  offFor_of rfl (fun s => Eq.refl (execHwaitTake h o s)) fun _ ⟨ha, _, _⟩ => off_if ha ..

theorem off_hwaitPeek (h : Hdr) (o : OpR) : OffFor (.hwaitPeek h o) :=
  offFor_of rfl (fun s => Eq.refl (execHwaitPeek h o s)) fun _ ⟨ha, _, _⟩ => off_if ha ..

theorem off_hstat (h : Hdr) (o : OpR) : OffFor (.hstat h o) :=
  offFor_of rfl (fun s => Eq.refl (execHstat h o s)) fun _ ⟨ha, _, _⟩ => off_ifNot ha ..

theorem off_publish (h : Hdr) (o : OpR) : OffFor (.publish h o) :=
  offFor_of rfl (fun s => Eq.refl (execPublish h o s)) fun _ ⟨ha, _, hf⟩ => by simp [ha, hf]

theorem off_xfCvt (h : Hdr) (o : OpR) : OffFor (.xfCvt h o) :=
  offFor_runXf rfl fun s => Eq.refl (execXfCvt h o s)

theorem off_xfQuant (h : Hdr) (o : OpR) : OffFor (.xfQuant h o) :=
  offFor_runXf rfl fun s => Eq.refl (execXfQuant h o s)

theorem off_xfDequant (h : Hdr) (o : OpR) : OffFor (.xfDequant h o) :=
  offFor_runXf rfl fun s => Eq.refl (execXfDequant h o s)

theorem off_xfRkey (h : Hdr) (o : OpR) : OffFor (.xfRkey h o) :=
  offFor_runXf rfl fun s => Eq.refl (execXfRkey h o s)

theorem off_xfHash (h : Hdr) (o : OpR) : OffFor (.xfHash h o) :=
  offFor_runXf rfl fun s => Eq.refl (execXfHash h o s)

theorem off_xfPenc (h : Hdr) (o : OpR) : OffFor (.xfPenc h o) :=
  offFor_runXf rfl fun s => Eq.refl (execXfPenc h o s)

theorem off_neval (h : Hdr) (o : OpR) : OffFor (.neval h o) :=
  offFor_of rfl (fun s => Eq.refl (execNeval h o s)) fun _ ⟨ha, _, _⟩ => off_ifNot ha ..

theorem off_nevstatCnt (h : Hdr) (o : OpR) : OffFor (.nevstatCnt h o) :=
  offFor_of rfl (fun s => Eq.refl (execNevstatCnt h o s)) fun _ ⟨ha, _, _⟩ => doneN_off ha ..

theorem off_nevstatKick (h : Hdr) (o : OpR) : OffFor (.nevstatKick h o) :=
  offFor_of rfl (fun s => Eq.refl (execNevstatKick h o s)) fun _ ⟨ha, _, _⟩ => by simp [ha, wrLanes_off ha, noEffect]

theorem off_ssnew (h : Hdr) (o : OpG) : OffFor (.ssnew h o) :=
  offFor_of rfl (fun s => Eq.refl (execSsnew h o s)) fun _ ⟨ha, _, _⟩ => withRecord_off ha ..

theorem off_ssadd (h : Hdr) (o : OpG) : OffFor (.ssadd h o) :=
  offFor_of rfl (fun s => Eq.refl (execSsadd h o s)) fun _ ⟨ha, _, _⟩ => withRecord_off ha ..

theorem off_ssbuild (h : Hdr) (o : OpG) : OffFor (.ssbuild h o) :=
  offFor_of rfl (fun s => Eq.refl (execSsbuild h o s)) fun _ ⟨ha, _, _⟩ => withRecord_off ha ..

theorem off_ssbind (h : Hdr) (o : OpG) : OffFor (.ssbind h o) :=
  offFor_of rfl (fun s => Eq.refl (execSsbind h o s)) fun _ ⟨ha, _, _⟩ => withRecord_off ha ..

theorem off_ssrebind (h : Hdr) (o : OpG) : OffFor (.ssrebind h o) :=
  offFor_of rfl (fun s => Eq.refl (execSsrebind h o s)) fun _ ⟨ha, _, _⟩ => withRecord_off ha ..

theorem off_ssfree (h : Hdr) (o : OpG) : OffFor (.ssfree h o) :=
  offFor_of rfl (fun s => Eq.refl (execSsfree h o s)) fun _ ⟨ha, _, hf⟩ => by simp [hf, withRecord_off ha]

theorem off_ssget (h : Hdr) (o : OpG) : OffFor (.ssget h o) :=
  offFor_of rfl (fun s => Eq.refl (execSsget h o s)) fun _ ⟨ha, _, _⟩ => withRecord_off ha ..

theorem off_emitv (h : Hdr) (o : OpG) : OffFor (.emitv h o) :=
  offFor_of rfl (fun s => Eq.refl (execEmitv h o s)) fun _ ⟨ha, _, _⟩ => withRecord_off ha ..

theorem off_emit (h : Hdr) (o : OpG) : OffFor (.emit h o) :=
  offFor_of rfl (fun s => Eq.refl (execEmit h o s)) fun _ ⟨ha, _, _⟩ => withRecord_off ha ..

theorem off_emitsp (h : Hdr) (o : OpG) : OffFor (.emitsp h o) :=
  offFor_of rfl (fun s => Eq.refl (execEmitsp h o s)) fun _ ⟨ha, _, _⟩ => withRecord_off ha ..

theorem off_rflush (h : Hdr) (o : OpG) : OffFor (.rflush h o) :=
  offFor_of rfl (fun s => Eq.refl (execRflush h o s)) fun _ ⟨ha, _, _⟩ => withRecord_off ha ..

theorem off_fin (h : Hdr) (o : OpG) : OffFor (.fin h o) := offFor_intro rfl fun s c hr ⟨ha, _, _⟩ => by
  change Off c _ (execFin h o s)
  unfold execFin
  exact off_run hr (doneN_off ha ..)

theorem off_fout (h : Hdr) (o : OpG) : OffFor (.fout h o) := offFor_intro rfl fun s c hr ⟨ha, _, _⟩ => by
  change Off c _ (execFout h o s)
  unfold execFout
  exact off_run hr (by simp [ha, recordLanes_off ha, noEffect])

theorem off_fdep (h : Hdr) (o : OpG) : OffFor (.fdep h o) :=
  offFor_of rfl (fun s => Eq.refl (execFdep h o s)) fun _ ⟨ha, _, _⟩ => by simp [recordLanes_off ha, noEffect]

theorem off_disc (h : Hdr) (o : OpG) : OffFor (.disc h o) :=
  offFor_of rfl (fun s => Eq.refl (execDisc h o s)) fun _ ⟨ha, _, _⟩ => by simp [lanesOf_off ha, noEffect]

theorem off_alm (h : Hdr) (o : OpR) : OffFor (.alm h o) :=
  offFor_of rfl (fun s => Eq.refl (execAlm h o s)) fun _ ⟨ha, _, _⟩ => by simp [ha, wrLanes_off ha, noEffect]

theorem off_almhz (h : Hdr) (o : OpR) : OffFor (.almhz h o) :=
  offFor_of rfl (fun s => Eq.refl (execAlmhz h o s)) fun _ ⟨ha, _, _⟩ => by simp [ha, wrLanes_off ha, noEffect]

theorem off_stcm (h : Hdr) (o : OpM) : OffFor (.stcm h o) :=
  offFor_of rfl (fun s => Eq.refl (execStcm h o s)) fun _ ⟨ha, _, hf⟩ => by simp [ha, hf]

theorem off_ldasof (h : Hdr) (o : OpR) : OffFor (.ldasof h o) :=
  offFor_of rfl (fun s => Eq.refl (execLdasof h o s)) fun _ ⟨ha, _, _⟩ => off_ifNot ha ..

theorem off_almwait (h : Hdr) (o : OpS) : OffFor (.almwait h o) :=
  offFor_of rfl (fun s => Eq.refl (execAlmwait h o s)) fun _ ⟨ha, _, _⟩ => by simp [ha]

/-- Every instruction that does nothing and traps nothing under such a guard. -/
theorem offFor {i : Instr} (hi : (!Claims.actsAnyway i && (shapeOf i).isSome) = true) : OffFor i := by
  cases i
  case nop h o => exact off_nop h o
  case brk h o => exact off_brk h o
  case hint h o => exact off_hint h o
  case trap h o => exact off_trap h o
  case rett h o => exact off_rett h o
  case rgn h o => exact off_rgn h o
  case rgnend h o => exact off_rgnend h o
  case brall h o => exact off_brall h o
  case brany h o => exact off_brany h o
  case mrg h o => exact off_mrg h o
  case mrgx h o => exact off_mrgx h o
  case add h o => exact off_add h o
  case addc h o => exact off_addc h o
  case sub h o => exact off_sub h o
  case subb h o => exact off_subb h o
  case addi h o => exact off_addi h o
  case mul h o => exact off_mul h o
  case mulhi h o => exact off_mulhi h o
  case mulw h o => exact off_mulw h o
  case mad h o => exact off_mad h o
  case madw h o => exact off_madw h o
  case div h o => exact off_div h o
  case rem h o => exact off_rem h o
  case divrem h o => exact off_divrem h o
  case min h o => exact off_min h o
  case max h o => exact off_max h o
  case clamp h o => exact off_clamp h o
  case abs h o => exact off_abs h o
  case sad h o => exact off_sad h o
  case dot4 h o => exact off_dot4 h o
  case dot2 h o => exact off_dot2 h o
  case lea h o => exact off_lea h o
  case leai h o => exact off_leai h o
  case and h o => exact off_and h o
  case or h o => exact off_or h o
  case xor h o => exact off_xor h o
  case not h o => exact off_not h o
  case tern h o => exact off_tern h o
  case bini h o => exact off_bini h o
  case shl h o => exact off_shl h o
  case shr h o => exact off_shr h o
  case sra h o => exact off_sra h o
  case fsl h o => exact off_fsl h o
  case fsr h o => exact off_fsr h o
  case popc h o => exact off_popc h o
  case clz h o => exact off_clz h o
  case brev h o => exact off_brev h o
  case bfx h o => exact off_bfx h o
  case bfi h o => exact off_bfi h o
  case perm h o => exact off_perm h o
  case setp h o => exact off_setp h o
  case setpi h o => exact off_setpi h o
  case fsetp h o => exact off_fsetp h o
  case plop h o => exact off_plop h o
  case sel h o => exact off_sel h o
  case seli h o => exact off_seli h o
  case mov h o => exact off_mov h o
  case movi h o => exact off_movi h o
  case p2r h o => exact off_p2r h o
  case regToPred h o => exact off_regToPred h o
  case fadd h o => exact off_fadd h o
  case fsub h o => exact off_fsub h o
  case fmul h o => exact off_fmul h o
  case fma h o => exact off_fma h o
  case fmin h o => exact off_fmin h o
  case fmax h o => exact off_fmax h o
  case frnd h o => exact off_frnd h o
  case fclass h o => exact off_fclass h o
  case fadd2 h o => exact off_fadd2 h o
  case fmul2 h o => exact off_fmul2 h o
  case fma2 h o => exact off_fma2 h o
  case fdot2 h o => exact off_fdot2 h o
  case fex2 h o => exact off_fex2 h o
  case flg2 h o => exact off_flg2 h o
  case frcp h o => exact off_frcp h o
  case frsq h o => exact off_frsq h o
  case fsin h o => exact off_fsin h o
  case fcos h o => exact off_fcos h o
  case cvt h o => exact off_cvt h o
  case pack h o => exact off_pack h o
  case unpack h o => exact off_unpack h o
  case quant h o => exact off_quant h o
  case dequant h o => exact off_dequant h o
  case pack4 h o => exact off_pack4 h o
  case shfl h o => exact off_shfl h o
  case shfli h o => exact off_shfli h o
  case vote h o => exact off_vote h o
  case pmask h o => exact off_pmask h o
  case lfold h o => exact off_lfold h o
  case matchLanes h o => exact off_matchLanes h o
  case rdlane h o => exact off_rdlane h o
  case ddx h o => exact off_ddx h o
  case ddy h o => exact off_ddy h o
  case yield h o => exact off_yield h o
  case yieldto h o => exact off_yieldto h o
  case sleep h o => exact off_sleep h o
  case exit h o => exact off_exit h o
  case ld h o => exact off_ld h o
  case st h o => exact off_st h o
  case ldacq h o => exact off_ldacq h o
  case strel h o => exact off_strel h o
  case ldk h o => exact off_ldk h o
  case stk h o => exact off_stk h o
  case ldw h o => exact off_ldw h o
  case stw h o => exact off_stw h o
  case fpush h o => exact off_fpush h o
  case fpop h o => exact off_fpop h o
  case fpeek h o => exact off_fpeek h o
  case pref h o => exact off_pref h o
  case atom h o => exact off_atom h o
  case atomcas h o => exact off_atomcas h o
  case atomf h o => exact off_atomf h o
  case red h o => exact off_red h o
  case redf h o => exact off_redf h o
  case dflush h o => exact off_dflush h o
  case fenceAcq h o => exact off_fenceAcq h o
  case fenceRel h o => exact off_fenceRel h o
  case fenceAr h o => exact off_fenceAr h o
  case fenceSmp h o => exact off_fenceSmp h o
  case fwait h o => exact off_fwait h o
  case ngath h o => exact off_ngath h o
  case nscat h o => exact off_nscat h o
  case cwb h o => exact off_cwb h o
  case cinv h o => exact off_cinv h o
  case cdisc h o => exact off_cdisc h o
  case icinv h o => exact off_icinv h o
  case cpy h o => exact off_cpy h o
  case cpyo h o => exact off_cpyo h o
  case cpyq h o => exact off_cpyq h o
  case halloc h o => exact off_halloc h o
  case hfree h o => exact off_hfree h o
  case hwaitTake h o => exact off_hwaitTake h o
  case hwaitPeek h o => exact off_hwaitPeek h o
  case hstat h o => exact off_hstat h o
  case publish h o => exact off_publish h o
  case xfCvt h o => exact off_xfCvt h o
  case xfQuant h o => exact off_xfQuant h o
  case xfDequant h o => exact off_xfDequant h o
  case xfRkey h o => exact off_xfRkey h o
  case xfHash h o => exact off_xfHash h o
  case xfPenc h o => exact off_xfPenc h o
  case neval h o => exact off_neval h o
  case nevstatCnt h o => exact off_nevstatCnt h o
  case nevstatKick h o => exact off_nevstatKick h o
  case ssnew h o => exact off_ssnew h o
  case ssadd h o => exact off_ssadd h o
  case ssbuild h o => exact off_ssbuild h o
  case ssbind h o => exact off_ssbind h o
  case ssrebind h o => exact off_ssrebind h o
  case ssfree h o => exact off_ssfree h o
  case ssget h o => exact off_ssget h o
  case emitv h o => exact off_emitv h o
  case emit h o => exact off_emit h o
  case emitsp h o => exact off_emitsp h o
  case rflush h o => exact off_rflush h o
  case fin h o => exact off_fin h o
  case fout h o => exact off_fout h o
  case fdep h o => exact off_fdep h o
  case disc h o => exact off_disc h o
  case alm h o => exact off_alm h o
  case almhz h o => exact off_almhz h o
  case stcm h o => exact off_stcm h o
  case ldasof h o => exact off_ldasof h o
  case almwait h o => exact off_almwait h o
  all_goals cases hi

end Sys2Proof.Machine.Ops

namespace Sys2Proof.Machine.Ops

/-! ### Numbers and counts that an instruction looks at first -/

/-- The number that the instruction names is legal, and no status bits are awaited: it completes without any write. -/
def OffWithNumber (i : Instr) : Prop := Claims.effects i (fun c => GuardedOff c ∧ Claims.numberOk c i) (fun c => c.s)

theorem offWithNumber_sread (h : Hdr) (o : OpS) : OffWithNumber (.sread h o) :=
  Claims.completes_of_done rfl (fun s => Eq.refl (execSread h o s)) fun c ⟨⟨ha, _, _⟩, hs, hw⟩ => by
    obtain ⟨v, hv⟩ := Option.isSome_iff_exists.1 hs
    simp [hv, hw, doneN_off ha, noEffect]

theorem offWithNumber_swrite (h : Hdr) (o : OpS) : OffWithNumber (.swrite h o) :=
  Claims.completes_of_done rfl (fun s => Eq.refl (execSwrite h o s)) fun c ⟨⟨ha, _, _⟩, hs, hw⟩ => by
    simp [ha, hs, hw, noEffect]

theorem rpLegal_of_lt {n : Nat} (hn : n < 24) : rpLegal n = true := decide_eq_true hn

theorem offWithNumber_rpinit (h : Hdr) (o : OpI) : OffWithNumber (.rpinit h o) :=
  Claims.completes_of_done rfl (fun s => Eq.refl (execRpinit h o s)) fun c ⟨⟨ha, _, _⟩, hn⟩ => by
    simp [ha, rpLegal_of_lt hn, noEffect]

theorem offWithNumber_rparr (h : Hdr) (o : OpR) : OffWithNumber (.rparr h o) :=
  Claims.completes_of_done rfl (fun s => Eq.refl (execRparr h o s)) fun c ⟨⟨ha, _, _⟩, hn⟩ => by
    simp [ha, rpLegal_of_lt hn, noEffect]

theorem offWithNumber_rpwait (h : Hdr) (o : OpR) : OffWithNumber (.rpwait h o) :=
  Claims.completes_of_done rfl (fun s => Eq.refl (execRpwait h o s)) fun c ⟨⟨ha, _, _⟩, hn⟩ => by
    simp [ha, rpLegal_of_lt hn, noEffect]

theorem offWithNumber_rparw (h : Hdr) (o : OpR) : OffWithNumber (.rparw h o) :=
  Claims.completes_of_done rfl (fun s => Eq.refl (execRparw h o s)) fun c ⟨⟨ha, _, hf⟩, hn⟩ => by
    simp [ha, hf, rpLegal_of_lt hn, noEffect]

theorem offWithNumber_rpbytes (h : Hdr) (o : OpR) : OffWithNumber (.rpbytes h o) :=
  Claims.completes_of_done rfl (fun s => Eq.refl (execRpbytes h o s)) fun c ⟨⟨ha, _, _⟩, hn⟩ => by
    simp [ha, rpLegal_of_lt hn, noEffect]

theorem offWithNumber (i : Instr) : OffWithNumber i := fun s c hr hc => by
  have hn := hc.2
  unfold Claims.numberOk at hn
  split at hn
  · exact offWithNumber_swrite _ _ s c hr hc
  · exact offWithNumber_sread _ _ s c hr hc
  · exact offWithNumber_rpinit _ _ s c hr hc
  · exact offWithNumber_rparr _ _ s c hr hc
  · exact offWithNumber_rpwait _ _ s c hr hc
  · exact offWithNumber_rparw _ _ s c hr hc
  · exact offWithNumber_rpbytes _ _ s c hr hc
  · exact hn.elim

theorem redDet_off (h : Hdr) (o : OpM) : Claims.effects (.redDet h o) GuardedOff (fun c => countDet c.s c.key) :=
  Claims.completes_of_done rfl (fun s => Eq.refl (execRedDet h o s)) fun _ ⟨ha, _, _⟩ => redLanes_det_off ha o h false

theorem redfDet_off (h : Hdr) (o : OpM) : Claims.effects (.redfDet h o) GuardedOff (fun c => countDet c.s c.key) :=
  Claims.completes_of_done rfl (fun s => Eq.refl (execRedfDet h o s)) fun _ ⟨ha, _, _⟩ => redLanes_det_off ha o h true

end Sys2Proof.Machine.Ops

open Sys2Proof.Machine.Ops in
/-- Settles O38: `offFor` for the instructions that do nothing then, `offWithNumber` for those that check a number first, and the
two deterministic reductions, which count. -/
theorem Sys2Proof.guardedOffDoesNothing : Obligations.GuardedOffDoesNothing := by
  unfold Obligations.GuardedOffDoesNothing
  intro s i c hr hp ha hf
  have hc : GuardedOff c := ⟨by simp [acts, hp], ha, hf⟩
  obtain ⟨x, hx, -, -, rfl, -⟩ := readyFor_spec hr
  refine ⟨fun hi => ?_, fun h o hi => ?_⟩
  · obtain hi | hi := hi
    · exact offFor (by simp [hi, hx]) _ c hr hc
    · exact offWithNumber i _ c hr ⟨hc, hi⟩
  · obtain rfl | rfl := hi
    · exact redDet_off h o _ c hr hc
    · exact redfDet_off h o _ c hr hc
end

section
/-! What a group instruction answers before its effect: it waits while something holds it back, and illegal operands trap
(02 R51, R53; 01 R27). -/

namespace Sys2Proof.Machine.Ops

open Sys2Proof.Bits

/-! ### A run before its effect -/

section
variable {s : State} {i : Instr} {x : Shape} {c : Ctx} {m : Marks} {os : List Opnd} {ps : List Nat}

theorem withoutHelpers_park (m : Marks) (c : Ctx) : (withoutHelpers m c).park = c.park := by rw [withoutHelpers_eq]

/-- The guarded lanes do not matter for what holds an instruction back. -/
theorem stalled_withoutHelpers (m' : Marks) (c : Ctx) : stalled (withoutHelpers m' c) m os ps = stalled c m os ps := by
  rw [withoutHelpers_eq]
  rfl

/-- A stalled instruction changes nothing. -/
theorem exec_stalled (hx : shapeOf i = some x) (hc : ctx? s i x.hdr = some c) (hp : c.park = none)
    (hs : stalled c x.marks x.opnds x.preds = true) : exec i s = .next s := by
  obtain ⟨body, hb⟩ := exec_run hx
  rw [hb, run, hc]
  simp only [withoutHelpers_park, hp, stalled_withoutHelpers, hs, if_true]

/-- Illegal operands of an instruction that nothing holds back end it with their trap. -/
theorem exec_illegal (hx : shapeOf i = some x) (hc : ctx? s i x.hdr = some c) (hp : c.park = none)
    (hs : stalled c x.marks x.opnds x.preds = false) (ho : operandsOk c.g x.opnds = false)
    (hh : trapHeld c.s c.tm c.g c.frag 0x03 = false) : exec i s = .next (takeTrap s c.key c.frag (trapOf 0x03 c.active) c.f.pc false) := by
  obtain ⟨body, hb⟩ := exec_run hx
  rw [hb, run, hc]
  simp only [withoutHelpers_park, hp, stalled_withoutHelpers, hs]
  rw [withoutHelpers_eq]
  simp [ho, finish, hp, trapOf, hh, savedPc]

end

/-! ### Illegal operands -/

section
variable {g : Group} {o : Opnd} {os : List Opnd}

theorem operandsOk_of_illegal (ho : o ∈ os) (hl : Opnd.legal g o = false) : operandsOk g os = false := by
  have : os.all (Opnd.legal g) = false := by
    rw [List.all_eq_false]
    exact ⟨o, ho, by simp [hl]⟩
  simp [operandsOk, this]

theorem operandsOk_of_twice (h : ¬ (destNames os).Nodup) : operandsOk g os = false := by simp [operandsOk, h]

/-- What a legal operand satisfies (01 R14, R15, 02 R51). -/
theorem legal_iff : Opnd.legal g o = true ↔
    ¬ ((o.file = .uni ∧ isUni o.reg = false) ∨ (o.file = .vec ∧ isUni o.reg = true)) ∧ regNo o.reg % o.align = 0 ∧
      (isUni o.reg = true → regNo o.reg + o.count ≤ g.nk ∧ regNo o.reg + o.count ≤ 64) ∧
      (isUni o.reg = false → regNo o.reg + o.count ≤ g.nv) := by
  unfold Opnd.legal
  cases hf : o.file <;> cases hu : isUni o.reg <;> simp

/-- An operand that breaks one of the rules is not legal. -/
theorem legal_false (h : (isUni o.reg = true ∧ 64 < regNo o.reg + o.count) ∨ (isUni o.reg = true ∧ g.nk < regNo o.reg + o.count) ∨
    (isUni o.reg = false ∧ g.nv < regNo o.reg + o.count) ∨ (o.align = 2 ∧ regNo o.reg % 2 = 1) ∨
    ((o.file = .uni ∧ isUni o.reg = false) ∨ (o.file = .vec ∧ isUni o.reg = true))) : Opnd.legal g o = false := by
  rw [Bool.eq_false_iff]
  intro hl
  obtain ⟨hfile, halign, huni, hvec⟩ := legal_iff.1 hl
  obtain ⟨hu, hn⟩ | ⟨hu, hn⟩ | ⟨hu, hn⟩ | ⟨ha, hn⟩ | hf := h
  · exact absurd (huni hu).2 (by omega)
  · exact absurd (huni hu).1 (by omega)
  · exact absurd (hvec hu) (by omega)
  · rw [ha] at halign
    omega
  · exact hfile hf

end

end Sys2Proof.Machine.Ops

open Sys2Proof.Machine Sys2Proof.Machine.Ops in
/-- Settles O36: each kind of illegal operand makes `operandsOk` false, which ends the instruction before its effect. -/
theorem Sys2Proof.illegalOperandTraps : Obligations.IllegalOperandTraps := by
  unfold Obligations.IllegalOperandTraps
  intro s i x c hx hc hp hs hh hi
  rw [stalled_withoutHelpers] at hs
  refine exec_illegal hx hc hp hs ?_ hh
  obtain ⟨o, ho, h⟩ | ⟨o, ho, h⟩ | ⟨o, ho, h⟩ | ⟨o, ho, h⟩ | ⟨o, ho, h⟩ | h := hi
  · exact operandsOk_of_illegal ho (legal_false (.inl h))
  · exact operandsOk_of_illegal ho (legal_false (.inr (.inl h)))
  · exact operandsOk_of_illegal ho (legal_false (.inr (.inr (.inl h))))
  · exact operandsOk_of_illegal ho (legal_false (.inr (.inr (.inr (.inl h)))))
  · exact operandsOk_of_illegal ho (legal_false (.inr (.inr (.inr (.inr h)))))
  · exact operandsOk_of_twice h

namespace Sys2Proof.Machine.Ops

open Sys2Proof.Bits

/-! ### What holds an instruction back -/

section
variable {c : Ctx} {m : Marks} {os : List Opnd} {ps : List Nat}

theorem stalled_of_out (h : c.tm.out = true) : stalled c m os ps = true := by simp [stalled, groupHeld, h]

theorem stalled_of_fetchPark (hb : begun c.f.stage = false) (h : c.g.fetchPark.isSome = true) : stalled c m os ps = true := by
  simp [stalled, groupHeld, hb, h]

theorem stalled_of_issueHeld (hb : begun c.f.stage = false) (h : issueHeld c.s c.key c.g c.tm c.frag c.f.stage = true) :
    stalled c m os ps = true := by simp [stalled, groupHeld, hb, h]

theorem stalled_of_instrHeld (hb : begun c.f.stage = false) (h : instrHeld c m os ps = true) : stalled c m os ps = true := by
  simp [stalled, hb, h]

/-- A register that the instruction names, or reads as part of a run, awaits a result. -/
theorem instrHeld_of_name {n : RegName} (hn : n ∈ os.flatMap Opnd.names ++ runSrc c.g c.i ++ (c.h.gp.toNat :: ps).map RegName.p)
    (hh : n ∈ held c.g) (ho : inOwn c.f.stage = false) : instrHeld c m os ps = true := by
  have hany : (os.flatMap Opnd.names ++ runSrc c.g c.i ++ (c.h.gp.toNat :: ps).map RegName.p).any
      (fun n => (held c.g).contains n) = true := List.any_eq_true.2 ⟨n, hn, List.contains_iff_mem.2 hh⟩
  simp only [instrHeld, hany, ho, Bool.not_false, Bool.and_self, Bool.or_true, Bool.true_or]

theorem instrHeld_of_fence {r : Rel} (hm : m.mem = true) (hr : r ∈ c.s.rels) (hk : r.group = c.key) (hh : r.hold = 2) :
    instrHeld c m os ps = true := by
  have hany : c.s.rels.any (fun r => r.group == c.key && r.hold == 2 && m.mem) = true :=
    List.any_eq_true.2 ⟨r, hr, by simp [hk, hh, hm]⟩
  simp only [instrHeld, hany, Bool.true_or]

theorem instrHeld_of_acquire (hm : m.mem = true) (ha : acquireOpen c.g c.frag = true) : instrHeld c m os ps = true := by
  simp only [instrHeld, hm, ha, Bool.and_self, Bool.or_true, Bool.true_or]

theorem instrHeld_of_set (hm : namesSet c.i = true) (ha : setOpen c.g c.frag = true) : instrHeld c m os ps = true := by
  simp only [instrHeld, hm, ha, Bool.and_self, Bool.or_true, Bool.true_or]

theorem instrHeld_of_parked (hm : m.waits = true) (hq : c.g.parked ≠ []) : instrHeld c m os ps = true := by
  have he : c.g.parked.isEmpty = false := by simpa using hq
  simp only [instrHeld, hm, he, Bool.not_false, Bool.and_self, Bool.or_true, Bool.true_or]

end

section
variable {g : Group} {frag : Nat} {e : Nat × Fragment}

theorem acquireOpen_of_mem (he : e ∈ g.frags) (hn : e.1 ≠ frag)
    (h : inAcquire e.2.stage = true ∨ (begun e.2.stage = true ∧ ∃ r, e.2.read = some r ∧ acquires r.instr = true)) :
    acquireOpen g frag = true := by
  refine List.any_eq_true.2 ⟨e, he, ?_⟩
  obtain ha | ⟨hb, r, hr, ha⟩ := h
  · simp [hn, ha]
  · simp [hn, hb, hr, ha]

theorem setOpen_of_mem (he : e ∈ g.frags) (hn : e.1 ≠ frag) (hs : e.2.stage ≠ .released)
    (h : ∃ r, e.2.read = some r ∧ namesSet r.instr = true) : setOpen g frag = true := by
  obtain ⟨r, hr, hn'⟩ := h
  exact List.any_eq_true.2 ⟨e, he, by simp [hn, hs, hr, hn']⟩

theorem soleHolds_of_mem (he : e ∈ g.frags) (hn : e.1 ≠ frag) (h : inStcm e.2.stage = true) : soleHolds g frag = true :=
  Bool.or_eq_true_iff.2 (.inl (List.any_eq_true.2 ⟨e, he, by simp [hn, stcmOpen, h]⟩))

theorem soleHolds_of_parked {q : Parked} (hq : q ∈ g.parked) (h : isSole q.instr = true) : soleHolds g frag = true :=
  Bool.or_eq_true_iff.2 (.inr (List.any_eq_true.2 ⟨q, hq, h⟩))

theorem waitsElsewhere_of_mem (he : e ∈ g.frags) (hn : e.1 ≠ frag) (h : holdsGroup e.2.stage = true) (hs : e.1 ∉ g.stopped) :
    waitsElsewhere g frag = true := List.any_eq_true.2 ⟨e, he, by simp [hn, h, hs]⟩

end

section
variable {s : State} {key : Nat} {g : Group} {tm : Team} {frag : Nat} {st : Stage}

theorem issueHeld_of_stopped (hf : frag ∈ g.stopped) (ha : inAcquire st = false) : issueHeld s key g tm frag st = true := by
  simp [issueHeld, hf, ha]

theorem issueHeld_of_fwait {r : Rel} (hr : r ∈ s.rels) (hk : r.group = key) (hh : r.hold = 3) (hs : inRelease st = false) :
    issueHeld s key g tm frag st = true := by
  have hany : s.rels.any (fun r => r.group == key && r.hold == 3 && !inRelease st) = true :=
    List.any_eq_true.2 ⟨r, hr, by simp [hk, hh, hs]⟩
  simp only [issueHeld, hany, Bool.or_true, Bool.true_or]

theorem issueHeld_of_sole (h : soleHolds g frag = true) : issueHeld s key g tm frag st = true := by simp [issueHeld, h]

theorem issueHeld_of_waits (hs : st = .fresh) (h : waitsElsewhere g frag = true) : issueHeld s key g tm frag st = true := by
  simp [issueHeld, hs, h]

end

end Sys2Proof.Machine.Ops

open Sys2Proof.Machine Sys2Proof.Machine.Ops in
/-- Settles O37: each way of being held back is a disjunct of `stalled`, and a stalled instruction changes nothing. -/
theorem Sys2Proof.heldInstructionWaits : Obligations.HeldInstructionWaits := by
  unfold Obligations.HeldInstructionWaits
  intro s i x c hx hc hp h
  refine exec_stalled hx hc hp ?_
  obtain ⟨-, -, -, -, -, -, hh, rfl⟩ := ctx?_spec hc hp
  obtain hout | ⟨hb, h⟩ := h
  · exact stalled_of_out hout
  obtain hf | ⟨hf, ha⟩ | ⟨o, ho, n, hn, hd, hw⟩ | ⟨n, hn, hd, hw⟩ | ⟨hd, hw⟩ | ⟨hm, hq⟩ |
    ⟨r, hr, hk, h3, hw⟩ | ⟨hm, r, hr, hk, h2⟩ | ⟨hm, e, he, hne, ha⟩ | ⟨hm, e, he, hne, hs, hr⟩ | ⟨e, he, hne, hs⟩ |
    ⟨q, hq, hs⟩ | ⟨hs, e, he, hne, hg, hst⟩ := h
  · exact stalled_of_fetchPark hb hf
  · exact stalled_of_issueHeld hb (issueHeld_of_stopped hf ha)
  · exact stalled_of_instrHeld hb (instrHeld_of_name
      (List.mem_append_left _ (List.mem_append_left _ (List.mem_flatMap.2 ⟨o, ho, hn⟩))) hd hw)
  · exact stalled_of_instrHeld hb (instrHeld_of_name (List.mem_append_left _ (List.mem_append_right _ hn)) hd hw)
  · exact stalled_of_instrHeld hb (instrHeld_of_name (List.mem_append_right _ (by simp [hh])) hd hw)
  · exact stalled_of_instrHeld hb (instrHeld_of_parked hm hq)
  · exact stalled_of_issueHeld hb (issueHeld_of_fwait hr hk h3 hw)
  · exact stalled_of_instrHeld hb (instrHeld_of_fence hm hr hk h2)
  · exact stalled_of_instrHeld hb (instrHeld_of_acquire hm (acquireOpen_of_mem he hne ha))
  · exact stalled_of_instrHeld hb (instrHeld_of_set hm (setOpen_of_mem he hne hs hr))
  · exact stalled_of_issueHeld hb (issueHeld_of_sole (soleHolds_of_mem he hne hs))
  · exact stalled_of_issueHeld hb (issueHeld_of_sole (soleHolds_of_parked hq hs))
  · exact stalled_of_issueHeld hb (issueHeld_of_waits hs (waitsElsewhere_of_mem he hne hg hst))
end

section
/-! What a step runs (01 R27; 02 R38, R43, R45, R50, R53; 08 R168; 14 R286; 21 R398): the act that it takes, and what fetching
and decoding make of that act. -/

namespace Sys2Proof

theorem decode_ok {stream : Bool} {w : IWord} {i : Instr} (h : decode stream w = .ok i) : rawDecode w = some i ∧ isStream i = stream := by
  unfold decode at h
  split at h
  · cases h
  · next j hj =>
    split at h
    · cases h
    · next hs =>
      split at h
      · cases h
        exact ⟨hj, by simpa using hs⟩
      · cases h

theorem decode_illegalOpcode {stream : Bool} {w : IWord} (h : decode stream w = .error .illegalOpcode) :
    rawDecode w = none ∨ ∃ i, rawDecode w = some i ∧ isStream i = !stream := by
  unfold decode at h
  split at h
  · next hn => exact .inl hn
  · next i hi =>
    split at h
    · next hs => exact .inr ⟨i, hi, by cases stream <;> simpa using hs⟩
    · split at h <;> cases h

theorem decode_illegalEncoding {stream : Bool} {w : IWord} {i : Instr} (hi : rawDecode w = some i)
    (h : decode stream w = .error .illegalEncoding) : isStream i = stream := by
  unfold decode at h
  rw [hi] at h
  dsimp only at h
  split at h
  · cases h
  · next hs => simpa using hs

end Sys2Proof

namespace Sys2Proof.Machine.Ops

/-! ### The act of a step -/

section
variable {s s0 s1 : State} {i : Instr}

theorem step_of_run (h : prepareNext exec s = .run i s1) : step s = exec i s1 := by
  rw [step, h]

theorem step_of_settled (h : prepareNext exec s = .settled s1) : step s = .next s1 := by
  rw [step, h]

theorem prepareNext_cons {a : Act} {rest : List Act} (h : (rereadContexts s).agenda = a :: rest) :
    prepareNext exec s = prepare exec { rereadContexts s with agenda := rest, turn := (rereadContexts s).turn + 1 } a := by
  unfold prepareNext
  dsimp only
  split
  · next hr => rw [hr] at h; cases h; rfl
  · next hr => rw [hr] at h; cases h

theorem prepareNext_nil (h : (rereadContexts s).agenda = []) :
    prepareNext exec s = prepareDrawn exec { rereadContexts s with turn := (rereadContexts s).turn + 1 }
      (Config.schedule (rereadContexts s).turn) := by
  unfold prepareNext
  dsimp only
  split
  · next hr => rw [hr] at h; cases h
  · rfl

/-- An act that begins no instruction of a fragment is prepared as it is, wherever it comes from. -/
theorem prepareNext_of_takes {a : Act} (h : Claims.takes s a s0) (ha : ∀ ex t, prepareDrawn ex t a = prepare ex t a) :
    prepareNext exec s = prepare exec s0 a := by
  obtain ⟨rest, hr, rfl⟩ | ⟨hr, hs, rfl, -, -⟩ := h
  · exact prepareNext_cons hr
  · rw [prepareNext_nil hr, hs, ha]

theorem standsAt_begins {key frag pc mask : Nat} (h : standsAt s key frag pc mask = true) : begins s key frag = true := by
  unfold standsAt at h
  unfold begins
  split at h
  · cases h
  · split at h
    · simp only [Bool.and_eq_true] at h
      exact h.1.1
    · cases h

/-- The act of a fragment comes to its fetch: by a cycle's selection, as the second half of a pair, or while it waits. -/
theorem prepareNext_of_takesFrag {key frag : Nat} (h : Claims.takesFrag s key frag s0) : prepareNext exec s = fetchFrag s0 key frag := by
  obtain h | ⟨h, hb⟩ | ⟨pc, mask, h, hst⟩ := h
  · obtain ⟨rest, hr, rfl⟩ | ⟨hr, hs, rfl, hi, -⟩ := h
    · exact prepareNext_cons hr
    · rw [prepareNext_nil hr, hs]
      exact if_neg (Bool.eq_false_iff.1 (hi key frag rfl))
  · rw [prepareNext_of_takes h fun _ _ => rfl]
    exact if_neg (Bool.eq_false_iff.1 hb)
  · obtain ⟨rest, hr, rfl⟩ | ⟨hr, hs, rfl, -, hp⟩ := h
    · rw [prepareNext_cons hr]
      exact if_pos hst
    · exact absurd (standsAt_begins hst) (Bool.eq_false_iff.1 (hp key frag pc mask rfl))

end

/-! ### Words -/

theorem decodeFor_ok {hd : Header} {w : IWord} {i : Instr} (hk : kernelAllows hd i = true) (hd' : decode false w = .ok i) :
    decodeFor hd w = .ok i := by
  obtain ⟨hr, hs⟩ := decode_ok hd'
  simp [decodeFor, hr, hs, hk, hd']

theorem decodeFor_error {hd : Header} {w : IWord} {code : Nat} (h : Claims.wordTrap hd w code) : decodeFor hd w = .error code := by
  obtain ⟨h, rfl⟩ | ⟨i, hi, hk, rfl⟩ | ⟨i, hi, hk, h, rfl⟩ := h
  · obtain hn | ⟨i, hi, hs⟩ := decode_illegalOpcode h
    · simp [decodeFor, hn]
    · simp [decodeFor, hi, hs]
  · simp [decodeFor, hi, hk]
  · simp [decodeFor, hi, hk, decode_illegalEncoding hi h, h]

/-! ### Fragments -/

@[simp] theorem fetchPhys_teams (s : State) (c pa : Nat) : (fetchPhys s c pa).2.teams = s.teams := by
  unfold fetchPhys
  grind only [setCore_teams, countError, setCtl_teams]

@[simp] theorem noteTlb_teams (s : State) (c ctx base size leaf : Nat) : (noteTlb s c ctx base size leaf).teams = s.teams := by
  unfold noteTlb
  grind only [setCore_teams]

theorem team?_of_fetchLine {s s1 : State} {c ctx va : Nat} {bs : List Byte} (h : fetchLine s c ctx va = (.line bs, s1)) (t : Nat) :
    team? s1 t = team? s t := by
  have hs : s1.teams = s.teams := by
    unfold fetchLine at h
    grind only [fetchStamped, fetchPhys_teams, noteTlb_teams]
  rw [team?, team?, hs]

section
variable {s s1 : State} {key frag : Nat} {g : Group} {tm : Team} {f : Fragment}

theorem deliver_eq (hg : group? s key = some g) (ht : team? s g.team = some tm) (t : Trap) (saved : DWord) :
    deliver s key frag t saved = if trapHeld s tm g frag t.code then s else takeTrap s key frag t saved false := by
  simp only [deliver, hg, ht]

/-- A fragment that nothing holds back and that may fetch goes by its line. -/
theorem fetchFrag_of_fetches {bs : List Byte} (h : Claims.fetches s key frag g tm f bs s1) :
    fetchFrag s key frag =
      if !lineWordOk false (lineWord bs) then .settled (deliver s1 key frag (trapOf 0x02 f.mask) f.pc)
      else if badArrival f bs then .settled (deliver s1 key frag (trapOf 0x04 f.mask) f.pc)
      else match decodeFor tm.hdr (slotWord bs (slotOf f.pc)) with
        | .error code => .settled (deliver s1 key frag (trapOf code f.mask) f.pc)
        | .ok i => .run i { s1 with cur := .frag key frag } := by
  obtain ⟨⟨hg, ht, hf, hh⟩, ⟨hl, hd, hr, hn⟩, hline⟩ := h
  have hn' : (if f.stage = .fresh then g.nevTrap else none) = none := by
    split
    · next hs => exact hn hs
    · rfl
  have hr' : (if f.stage = .fresh then none else f.read) = none := by
    split
    · rfl
    · next hs => exact hr.resolve_left hs
  simp only [fetchFrag, hg, ht, hf, hh, hl, hn', hd, hr', hline]
  rfl

theorem lateOf_of_stage (hs : f.stage ≠ .fresh) : lateOf g f = none := if_neg hs

/-- A fragment that keeps a trap comes to its delivery. -/
theorem fetchFrag_of_trapDue {t : Trap} (h : Claims.mayGoOn s key frag g tm f) (hs : f.stage ≠ .fresh) (hd : trapDue f.stage = some t) :
    fetchFrag s key frag = .settled (deliver s key frag t (savedPc t.code f.pc)) := by
  obtain ⟨hg, ht, hf, hh⟩ := h
  simp only [fetchFrag, hg, ht, hf, hh, lateOf_of_stage hs, if_neg hs, hd]
  rfl

/-- A fragment that has an instruction under way goes on with it as kept. -/
theorem fetchFrag_of_read {r : ReadRegs} (h : Claims.mayGoOn s key frag g tm f) (hs : f.stage ≠ .fresh) (hd : trapDue f.stage = none)
    (hr : f.read = some r) : fetchFrag s key frag = .run r.instr { s with cur := .frag key frag } := by
  obtain ⟨hg, ht, hf, hh⟩ := h
  simp only [fetchFrag, hg, ht, hf, hh, lateOf_of_stage hs, if_neg hs, hd, hr]
  rfl

/-- A trap that a step delivers is taken, unless something holds it back. -/
theorem step_deliver {s0 : State} (hg : group? s1 key = some g) (ht : team? s1 g.team = some tm) {t : Trap} {saved : DWord}
    (h : prepareNext exec s0 = .settled (deliver s1 key frag t saved)) :
    (trapHeld s1 tm g frag t.code = false → step s0 = .next (takeTrap s1 key frag t saved false)) ∧
      (trapHeld s1 tm g frag t.code = true → step s0 = .next s1) := by
  rw [step_of_settled h, deliver_eq hg ht]
  exact ⟨fun hh => by simp [hh], fun hh => by simp [hh]⟩

/-- The trap of a line word, of an unmarked arrival or of a word. -/
theorem fetchFrag_trap {bs : List Byte} {code : Nat} (h : Claims.fetches s key frag g tm f bs s1)
    (hc : (lineWordOk false (lineWord bs) = false ∧ code = 0x02) ∨
      (lineWordOk false (lineWord bs) = true ∧ badArrival f bs = true ∧ code = 0x04) ∨
      (lineWordOk false (lineWord bs) = true ∧ badArrival f bs = false ∧ Claims.wordTrap tm.hdr (slotWord bs (slotOf f.pc)) code)) :
    fetchFrag s key frag = .settled (deliver s1 key frag (trapOf code f.mask) f.pc) := by
  rw [fetchFrag_of_fetches h]
  obtain ⟨hl, rfl⟩ | ⟨hl, ha, rfl⟩ | ⟨hl, ha, hw⟩ := hc
  · simp [hl]
  · simp [hl, ha]
  · simp [hl, ha, decodeFor_error hw]

end

/-! ### Steps of a fragment -/

section
variable {s s0 s1 : State} {key frag : Nat} {g : Group} {tm : Team} {f : Fragment} (ht : Claims.takesFrag s key frag s0)
include ht

theorem step_of_fetches {bs : List Byte} {i : Instr} (hf : Claims.fetches s0 key frag g tm f bs s1)
    (hl : lineWordOk false (lineWord bs) = true) (ha : badArrival f bs = false) (hk : kernelAllows tm.hdr i = true)
    (hd : decode false (slotWord bs (slotOf f.pc)) = .ok i) : step s = exec i { s1 with cur := .frag key frag } :=
  step_of_run (by rw [prepareNext_of_takesFrag ht, fetchFrag_of_fetches hf, hl, ha, decodeFor_ok hk hd]; rfl)

theorem step_of_fetches_trap {bs : List Byte} {code : Nat} (hf : Claims.fetches s0 key frag g tm f bs s1)
    (hc : (lineWordOk false (lineWord bs) = false ∧ code = 0x02) ∨
      (lineWordOk false (lineWord bs) = true ∧ badArrival f bs = true ∧ code = 0x04) ∨
      (lineWordOk false (lineWord bs) = true ∧ badArrival f bs = false ∧ Claims.wordTrap tm.hdr (slotWord bs (slotOf f.pc)) code)) :
    (trapHeld s1 tm g frag code = false → step s = .next (takeTrap s1 key frag (trapOf code f.mask) f.pc false)) ∧
      (trapHeld s1 tm g frag code = true → step s = .next s1) := by
  have h := (prepareNext_of_takesFrag ht).trans (fetchFrag_trap hf hc)
  obtain ⟨⟨hg, htm, -, -⟩, -, hline⟩ := hf
  have hd := step_deliver ((group?_of_fetchLine hline).trans hg) ((team?_of_fetchLine hline _).trans htm) h
  exact hd

section
variable (hgo : Claims.mayGoOn s0 key frag g tm f) (hs : f.stage ≠ .fresh)
include hgo hs

theorem step_of_read {r : ReadRegs} (hd : trapDue f.stage = none) (hr : f.read = some r) :
    step s = exec r.instr { s0 with cur := .frag key frag } :=
  step_of_run (by rw [prepareNext_of_takesFrag ht, fetchFrag_of_read hgo hs hd hr])

theorem step_of_trapDue {t : Trap} (hd : trapDue f.stage = some t) :
    (trapHeld s0 tm g frag t.code = false → step s = .next (takeTrap s0 key frag t (savedPc t.code f.pc) false)) ∧
      (trapHeld s0 tm g frag t.code = true → step s = .next s0) := by
  have h := (prepareNext_of_takesFrag ht).trans (fetchFrag_of_trapDue hgo hs hd)
  obtain ⟨hg, htm, -, -⟩ := hgo
  exact step_deliver hg htm h

end

end

/-! ### Sequencers and replays -/

section
variable {s s1 : State} {t : Nat} {tm : Team} {q : Seq} {i : Instr}

theorem fetchStream_of_granted (ht : team? s t = some tm) (hq : tm.seq = some q) (hi : seqIdle tm q = false) (hg : q.granted = true)
    (ho : q.op = some i) (hs : isStream i = true) : fetchStream s t = .run i { s with cur := .seq t } := by
  have hop : (if q.granted then q.op.filter isStream else none) = some i := by rw [if_pos hg, ho, Option.filter_some, if_pos hs]
  simp only [fetchStream, ht, hq, hi, hop]
  rfl

theorem fetchStream_of_line {bs : List Byte} (ht : team? s t = some tm) (hq : tm.seq = some q) (hi : seqIdle tm q = false)
    (hg : q.granted = true → q.op = none) (hl : fetchLine s tm.core tm.ctx (lineOf q.spc) = (.line bs, s1))
    (hw : lineWordOk true (lineWord bs) = true) (hm : q.arrival = false ∨ marked (lineWord bs) (slotOf q.spc) = true)
    (hd : decode true (slotWord bs (slotOf q.spc)) = .ok i) :
    fetchStream s t = .run i { modSeq s1 t (fun q => { q with arrival := false, op := some i }) with cur := .seq t } := by
  obtain ⟨hr, hs⟩ := decode_ok hd
  have hop : (if q.granted then q.op.filter isStream else none) = none := by
    split
    · next hgr => rw [hg hgr]; rfl
    · rfl
  have har : (q.arrival && !marked (lineWord bs) (slotOf q.spc)) = false := by
    obtain h | h := hm <;> simp [h]
  simp [fetchStream, ht, hq, hi, hop, hl, hw, har, hr, hs, hd]

theorem fetchParked_of_go {key pid : Nat} {g : Group} {p : Parked} (hg : group? s key = some g)
    (hp : g.parked.find? (fun q => q.id == pid) = some p) (hgo : p.go = true) (ht : team? s g.team = some tm) (hout : tm.out = false)
    (hd : trapDue p.stage = none) : fetchParked s key pid = .run p.instr { s with cur := .replay key pid } := by
  simp [fetchParked, hg, hp, hgo, ht, hout, hd]

end

end Sys2Proof.Machine.Ops

open Sys2Proof.Machine Sys2Proof.Machine.Ops in
/-- Settles O33: a step prepares the act that it takes, and each kind of act comes to what fetching and decoding make of it. -/
theorem Sys2Proof.stepRunsTheInstruction : Obligations.StepRunsTheInstruction := by
  unfold Obligations.StepRunsTheInstruction
  intro s s0 i
  refine ⟨?_, ?_, ?_, ?_, ?_, ?_, ?_, ?_⟩
  · exact fun key frag g tm f bs s1 ht hf hl ha hk hd => step_of_fetches ht hf hl ha hk hd
  · exact fun key frag g tm f bs s1 code ht hf hc => step_of_fetches_trap ht hf hc
  · exact fun key frag g tm f ht hgo hs => ⟨fun r hd hr => step_of_read ht hgo hs hd hr, fun t hd => step_of_trapDue ht hgo hs hd⟩
  · intro k q ht
    exact step_of_settled (by rw [prepareNext_of_takes ht fun _ _ => rfl, prepare])
  · intro t tm q ht htm hq hi hg ho hs
    exact step_of_run (by rw [prepareNext_of_takes ht fun _ _ => rfl, prepare, fetchStream_of_granted htm hq hi hg ho hs])
  · intro t tm q bs s1 ht htm hq hi hg hl hw hm hd
    exact step_of_run (by rw [prepareNext_of_takes ht fun _ _ => rfl, prepare, fetchStream_of_line htm hq hi hg hl hw hm hd])
  · intro key pid g tm q ht hg hp hgo htm hout hd
    exact step_of_run (by rw [prepareNext_of_takes ht fun _ _ => rfl, prepare, fetchParked_of_go hg hp hgo htm hout hd])
  · intro ht he
    exact step_of_run (by rw [prepareNext_of_takes ht fun _ _ => rfl, prepare, if_pos (by simp [isEvent, he])])
end

section
/-! Every step answers a next state (01 R27): what `exec` answers for an instruction of a group, of a sequencer, and for an event,
and that a step executes the first two only while their agent is there. -/

namespace Sys2Proof.Machine.Ops

/-! ### The three kinds of instructions -/

/-- An instruction is one of a group, one of a sequencer, or an event. -/
theorem shapeOf_or (i : Instr) : (∃ x, shapeOf i = some x) ∨ isStream i = true ∨ isEvent i = true := by
  cases i
  case rendezvousArrivalCount | sleepExpiry | fifoWaitServed | storePerform | releaseComplete | longLatencyResultLand |
      publishSwap | copyCommandStart | copyChunkLand | copySignalWrite | spillRingRefill | cespillbWrite | queueSlotDispatch |
      teamStart | launchCompletionRecord | issueCycle | issuePriorityPromotion | xfPipeGrant | xfPipeReply | matrixArbiterGrant |
      acctagWrite | accWindowWrite | nevalTimerExpiry | nevalTileFire | nevalLayer | nevalLanding | nvspillbWrite | binnerInsert |
      flushComplete | fragmentLaunch | blendApply | passEnd | stcmRecord | horizonUpdate | almanacAdvance | almWideTimeout |
      dieSilentTimeout | lineParityRefetch | eventRecordWrite | replayRecord | abandonRecord | tlbSweepStart | tlbSweepDone |
      preemptRequest | teamSwitchOut | resumeRequest | teamResume | migrationGo | migrationSwap | bankModeRequest |
      bankModeChange | bankModeTimeout | l2clsWrite | contextRegister | contextUnregister | queueRegister | queueUnregister |
      memmapWrite | errorCounterClear | hostMemWrite | hostMemRead | hostCacheInvalidate | phoathFlitResend | eccRetry |
      bootStart | bootWatchdog | bootctlRestart | powerStateRequest | registerWrite | phoathRemoteAccess =>
    exact .inr (.inr rfl)
  case mlda | mldb | mldbs | mscale | mma | mmaBat | mzero | mstacc | mldacc | mloop | marr | mwait | mend => exact .inr (.inl rfl)
  all_goals exact .inl ⟨_, rfl⟩

/-- An event answers a next state in every state. -/
theorem exec_event {i : Instr} (h : isEvent i = true) (s : State) : ∃ t, exec i s = .next t := by
  cases i
  case rendezvousArrivalCount | sleepExpiry | fifoWaitServed | storePerform | releaseComplete | longLatencyResultLand |
      publishSwap | copyCommandStart | copyChunkLand | copySignalWrite | spillRingRefill | cespillbWrite | queueSlotDispatch |
      teamStart | launchCompletionRecord | issueCycle | issuePriorityPromotion | xfPipeGrant | xfPipeReply | matrixArbiterGrant |
      acctagWrite | accWindowWrite | nevalTimerExpiry | nevalTileFire | nevalLayer | nevalLanding | nvspillbWrite | binnerInsert |
      flushComplete | fragmentLaunch | blendApply | passEnd | stcmRecord | horizonUpdate | almanacAdvance | almWideTimeout |
      dieSilentTimeout | lineParityRefetch | eventRecordWrite | replayRecord | abandonRecord | tlbSweepStart | tlbSweepDone |
      preemptRequest | teamSwitchOut | resumeRequest | teamResume | migrationGo | migrationSwap | bankModeRequest |
      bankModeChange | bankModeTimeout | l2clsWrite | contextRegister | contextUnregister | queueRegister | queueUnregister |
      memmapWrite | errorCounterClear | hostMemWrite | hostMemRead | hostCacheInvalidate | phoathFlitResend | eccRetry |
      bootStart | bootWatchdog | bootctlRestart | powerStateRequest | registerWrite | phoathRemoteAccess =>
    exact ⟨_, rfl⟩
  all_goals cases h

/-- A stream instruction is one run of a sequencer. -/
theorem exec_stream {i : Instr} (h : isStream i = true) : ∃ o arrives body, ∀ s, exec i s = runSeq o arrives body s := by
  cases i
  case mlda | mldb | mldbs | mscale | mma | mmaBat | mzero | mstacc | mldacc | mloop | marr | mwait | mend => exact ⟨_, _, _, fun _ => rfl⟩
  all_goals cases h

/-- No meaning refuses its instruction. -/
theorem exec_answers (i : Instr) (s : State) : (∃ t, exec i s = .next t) ∨ exec i s = .fault .noAgent := by
  obtain ⟨x, hx⟩ | hs | he := shapeOf_or i
  · obtain ⟨body, hb⟩ := exec_run hx
    rw [hb]
    exact (run_cases ..).symm
  · obtain ⟨o, arrives, body, hb⟩ := exec_stream hs
    rw [hb]
    exact (runSeq_cases ..).symm
  · exact .inl (exec_event he s)

/-! ### The agent is there -/

/-- The fragment, or the parked instruction, that executes now is there. -/
def agentThere (s : State) : Prop := ∀ i h, ∃ c, ctx? s i h = some c

theorem agentThere_frag {s : State} {key frag : Nat} {g : Group} {tm : Team} {f : Fragment} (hc : s.cur = .frag key frag)
    (hg : group? s key = some g) (ht : team? s g.team = some tm) (hf : Maps.find? frag g.frags = some f) : agentThere s := by
  intro i h
  unfold ctx?
  simp only [hc, hg, ht, hf]
  exact ⟨_, rfl⟩

theorem agentThere_replay {s : State} {key pid : Nat} {g : Group} {tm : Team} {q : Parked} (hc : s.cur = .replay key pid)
    (hg : group? s key = some g) (ht : team? s g.team = some tm) (hq : g.parked.find? (fun q => q.id == pid) = some q) :
    agentThere s := by
  intro i h
  unfold ctx?
  simp only [hc, hg, ht, hq]
  exact ⟨_, rfl⟩

/-- What is no stream instruction answers a next state while its agent is there. -/
theorem exec_next_of_agent {s : State} {i : Instr} (ha : agentThere s) (hi : isStream i = false) : ∃ t, exec i s = .next t := by
  obtain ⟨x, hx⟩ | hs | he := shapeOf_or i
  · obtain ⟨body, hb⟩ := exec_run hx
    obtain ⟨c, hc⟩ := ha i x.hdr
    rw [hb, run, hc]
    exact ⟨_, rfl⟩
  · rw [hi] at hs
    cases hs
  · exact exec_event he s

theorem exec_next_of_seq {s : State} {i : Instr} {t : Nat} {tm : Team} {q : Seq} (hi : isStream i = true) (hc : s.cur = .seq t)
    (ht : team? s t = some tm) (hq : tm.seq = some q) : ∃ t, exec i s = .next t := by
  obtain ⟨o, arrives, body, hb⟩ := exec_stream hi
  rw [hb]
  unfold runSeq
  simp only [hc, ht, hq]
  exact ⟨_, rfl⟩

/-! ### What is prepared answers -/

/-- A prepared act answers a next state. -/
def Ready.Answers : Ready → Prop
  | .settled _ => True
  | .run i s => ∃ t, exec i s = .next t

/-- No stream instruction is parked in a group or kept by a fragment of one. -/
def NoStreamKept (s : State) : Prop :=
  ∀ e ∈ s.groups, (∀ q ∈ e.2.parked, isStream q.instr = false) ∧
    ∀ f ∈ e.2.frags, ∀ r, f.2.read = some r → isStream r.instr = false

theorem NoStreamKept.of_groups {s t : State} (hs : NoStreamKept s) (h : t.groups = s.groups) : NoStreamKept t := by
  rw [NoStreamKept, h]
  exact hs

theorem NoStreamKept.parked {s : State} (hs : NoStreamKept s) {key : Nat} {g : Group} (hg : group? s key = some g) {q : Parked}
    (hq : q ∈ g.parked) : isStream q.instr = false := (hs _ (Maps.mem_of_find? hg)).1 q hq

theorem NoStreamKept.read {s : State} (hs : NoStreamKept s) {key frag : Nat} {g : Group} (hg : group? s key = some g) {f : Fragment}
    (hf : Maps.find? frag g.frags = some f) {r : ReadRegs} (hr : f.read = some r) : isStream r.instr = false :=
  (hs _ (Maps.mem_of_find? hg)).2 _ (Maps.mem_of_find? hf) r hr

/-- A word of an ordinary line decodes to no stream instruction. -/
theorem not_isStream_of_decodeFor {hd : Header} {w : IWord} {i : Instr} (h : decodeFor hd w = .ok i) : isStream i = false := by
  unfold decodeFor at h
  split at h
  · cases h
  · split at h
    · cases h
    · split at h
      · next hd' => cases h; exact (decode_ok hd').2
      · cases h

theorem answers_fetchFrag {s : State} (hs : NoStreamKept s) (key frag : Nat) : (fetchFrag s key frag).Answers := by
  unfold fetchFrag
  split
  · trivial
  · next g hg =>
    split
    · next tm f ht hf =>
      split
      · trivial
      · split
        · trivial
        · split
          · trivial
          · split
            · trivial
            · split
              · next r hr =>
                have hr : f.read = some r := by
                  split at hr
                  · cases hr
                  · exact hr
                exact exec_next_of_agent (agentThere_frag rfl hg ht hf) (hs.read hg hf hr)
              · split
                · trivial
                · trivial
                · next hl =>
                  split
                  · trivial
                  · split
                    · trivial
                    · split
                      · trivial
                      · next hd =>
                        exact exec_next_of_agent (agentThere_frag rfl ((group?_of_fetchLine hl).trans hg)
                          ((team?_of_fetchLine hl _).trans ht) hf) (not_isStream_of_decodeFor hd)
    · trivial

theorem answers_fetchParked {s : State} (hs : NoStreamKept s) (key pid : Nat) : (fetchParked s key pid).Answers := by
  unfold fetchParked
  split
  · trivial
  · next g hg =>
    split
    · next q tm hq ht =>
      split
      · trivial
      · split
        · trivial
        · exact exec_next_of_agent (agentThere_replay rfl hg ht hq) (hs.parked hg (List.mem_of_find?_eq_some hq))
    · trivial

theorem team?_modSeq {s : State} {t : Nat} {tm : Team} {q : Seq} (ht : team? s t = some tm) (hq : tm.seq = some q) (f : Seq → Seq) :
    ∃ tm', team? (modSeq s t f) t = some tm' ∧ tm'.seq = some (f q) := by
  refine ⟨{ tm with seq := tm.seq.map f }, ?_, by simp [hq]⟩
  rw [team?, modSeq, modTeam_teams, Maps.modify_find?]
  rw [team?] at ht
  rw [ht, Option.map_some]

theorem answers_fetchStream (s : State) (t : Nat) : (fetchStream s t).Answers := by
  unfold fetchStream
  split
  · trivial
  · next tm ht =>
    split
    · trivial
    · next q hq =>
      split
      · trivial
      · split
        · next i hi =>
          have hi : isStream i = true := by
            split at hi
            · exact (Option.filter_eq_some_iff.1 hi).2
            · cases hi
          exact exec_next_of_seq hi rfl ht hq
        · split
          · trivial
          · trivial
          · next hl =>
            dsimp only
            split
            · trivial
            · split
              · trivial
              · split
                · trivial
                · split
                  · trivial
                  · split
                    · trivial
                    · next i hd =>
                      obtain ⟨tm', ht', hq'⟩ := team?_modSeq ((team?_of_fetchLine hl _).trans ht) hq
                        (fun q => { q with arrival := false, op := some i })
                      exact exec_next_of_seq (decode_ok hd).2 rfl ht' hq'

theorem answers_prepare {s : State} (hs : NoStreamKept s) (a : Act) : (prepare exec s a).Answers := by
  cases a with
  | issue key frag => exact answers_fetchFrag hs key frag
  | wake key frag =>
    rw [prepare]
    split
    · trivial
    · exact answers_fetchFrag hs key frag
  | pair key frag pc mask =>
    rw [prepare]
    split
    · exact answers_fetchFrag hs key frag
    · trivial
  | replay key park => exact answers_fetchParked hs key park
  | stream team => exact answers_fetchStream s team
  | cycle k q => trivial
  | event i =>
    rw [prepare]
    split
    · next he => exact exec_event he _
    · trivial

theorem answers_prepareDrawn {s : State} (hs : NoStreamKept s) (a : Act) : (prepareDrawn exec s a).Answers := by
  unfold prepareDrawn
  split <;> exact answers_prepare hs _

theorem answers_prepareNext {s : State} (hs : NoStreamKept s) : (prepareNext exec s).Answers := by
  cases ha : (rereadContexts s).agenda with
  | nil =>
    rw [prepareNext_nil ha]
    refine answers_prepareDrawn (hs.of_groups ?_) _
    exact rereadContexts_groups s
  | cons a rest =>
    rw [prepareNext_cons ha]
    refine answers_prepare (hs.of_groups ?_) a
    exact rereadContexts_groups s

end Sys2Proof.Machine.Ops

open Sys2Proof.Machine Sys2Proof.Machine.Ops in
/-- Settles O35: an event answers in every state, and a step runs an instruction only where its agent stands. -/
theorem Sys2Proof.stepAnswers : Obligations.StepAnswers := by
  unfold Obligations.StepAnswers
  refine ⟨fun s hs => ?_, exec_answers⟩
  have ha := answers_prepareNext hs
  unfold step
  split
  · next s1 _ => exact ⟨s1, rfl⟩
  · next i s1 h =>
    rw [h] at ha
    exact ha
end

section
/-! Words and instructions (02 R44, R53; 05 R106): the word of a well-formed instruction decodes to it, and a word that decodes is the
word of its instruction. -/

namespace Sys2Proof.Laws.Decodes

/-- An event has no word. -/
theorem statement_of_no_word {i : Instr} (h : encode i = none) : Statement i := fun _ w hw => by
  rw [h] at hw
  cases hw

/-- The word of every well-formed instruction is read as that instruction. -/
theorem rawDecode_encode (i : Instr) : Statement i := by
  cases i
  case nop h o => exact nop h o
  case brk h o => exact brk h o
  case sread h o => exact sread h o
  case swrite h o => exact swrite h o
  case cycrd h o => exact cycrd h o
  case hint h o => exact hint h o
  case trap h o => exact trap h o
  case rett h o => exact rett h o
  case rgn h o => exact rgn h o
  case rgnend h o => exact rgnend h o
  case bra h o => exact bra h o
  case brall h o => exact brall h o
  case brany h o => exact brany h o
  case brx h o => exact brx h o
  case call h o => exact call h o
  case callx h o => exact callx h o
  case ret h o => exact ret h o
  case loop h o => exact loop h o
  case mrg h o => exact mrg h o
  case mrgx h o => exact mrgx h o
  case add h o => exact add h o
  case addc h o => exact addc h o
  case sub h o => exact sub h o
  case subb h o => exact subb h o
  case addi h o => exact addi h o
  case mul h o => exact mul h o
  case mulhi h o => exact mulhi h o
  case mulw h o => exact mulw h o
  case mad h o => exact mad h o
  case madw h o => exact madw h o
  case div h o => exact div h o
  case rem h o => exact rem h o
  case divrem h o => exact divrem h o
  case min h o => exact min h o
  case max h o => exact max h o
  case clamp h o => exact clamp h o
  case abs h o => exact abs h o
  case sad h o => exact sad h o
  case dot4 h o => exact dot4 h o
  case dot2 h o => exact dot2 h o
  case lea h o => exact lea h o
  case leai h o => exact leai h o
  case and h o => exact and h o
  case or h o => exact or h o
  case xor h o => exact xor h o
  case not h o => exact not h o
  case tern h o => exact tern h o
  case bini h o => exact bini h o
  case shl h o => exact shl h o
  case shr h o => exact shr h o
  case sra h o => exact sra h o
  case fsl h o => exact fsl h o
  case fsr h o => exact fsr h o
  case popc h o => exact popc h o
  case clz h o => exact clz h o
  case brev h o => exact brev h o
  case bfx h o => exact bfx h o
  case bfi h o => exact bfi h o
  case perm h o => exact perm h o
  case setp h o => exact setp h o
  case setpi h o => exact setpi h o
  case fsetp h o => exact fsetp h o
  case plop h o => exact plop h o
  case sel h o => exact sel h o
  case seli h o => exact seli h o
  case mov h o => exact mov h o
  case movi h o => exact movi h o
  case p2r h o => exact p2r h o
  case regToPred h o => exact regToPred h o
  case fadd h o => exact fadd h o
  case fsub h o => exact fsub h o
  case fmul h o => exact fmul h o
  case fma h o => exact fma h o
  case fmin h o => exact fmin h o
  case fmax h o => exact fmax h o
  case frnd h o => exact frnd h o
  case fclass h o => exact fclass h o
  case fadd2 h o => exact fadd2 h o
  case fmul2 h o => exact fmul2 h o
  case fma2 h o => exact fma2 h o
  case fdot2 h o => exact fdot2 h o
  case fex2 h o => exact fex2 h o
  case flg2 h o => exact flg2 h o
  case frcp h o => exact frcp h o
  case frsq h o => exact frsq h o
  case fsin h o => exact fsin h o
  case fcos h o => exact fcos h o
  case cvt h o => exact cvt h o
  case pack h o => exact pack h o
  case unpack h o => exact unpack h o
  case quant h o => exact quant h o
  case dequant h o => exact dequant h o
  case pack4 h o => exact pack4 h o
  case shfl h o => exact shfl h o
  case shfli h o => exact shfli h o
  case vote h o => exact vote h o
  case pmask h o => exact pmask h o
  case lfold h o => exact lfold h o
  case matchLanes h o => exact matchLanes h o
  case rdlane h o => exact rdlane h o
  case ddx h o => exact ddx h o
  case ddy h o => exact ddy h o
  case rpinit h o => exact rpinit h o
  case rparr h o => exact rparr h o
  case rpwait h o => exact rpwait h o
  case rparw h o => exact rparw h o
  case rpbytes h o => exact rpbytes h o
  case yield h o => exact yield h o
  case yieldto h o => exact yieldto h o
  case sleep h o => exact sleep h o
  case exit h o => exact exit h o
  case ld h o => exact ld h o
  case st h o => exact st h o
  case ldacq h o => exact ldacq h o
  case strel h o => exact strel h o
  case ldk h o => exact ldk h o
  case stk h o => exact stk h o
  case ldw h o => exact ldw h o
  case stw h o => exact stw h o
  case fpush h o => exact fpush h o
  case fpop h o => exact fpop h o
  case fpeek h o => exact fpeek h o
  case pref h o => exact pref h o
  case atom h o => exact atom h o
  case atomcas h o => exact atomcas h o
  case atomf h o => exact atomf h o
  case red h o => exact red h o
  case redDet h o => exact redDet h o
  case redf h o => exact redf h o
  case redfDet h o => exact redfDet h o
  case dflush h o => exact dflush h o
  case fenceAcq h o => exact fenceAcq h o
  case fenceRel h o => exact fenceRel h o
  case fenceAr h o => exact fenceAr h o
  case fenceSmp h o => exact fenceSmp h o
  case fwait h o => exact fwait h o
  case ngath h o => exact ngath h o
  case nscat h o => exact nscat h o
  case cwb h o => exact cwb h o
  case cinv h o => exact cinv h o
  case cdisc h o => exact cdisc h o
  case icinv h o => exact icinv h o
  case cpy h o => exact cpy h o
  case cpyo h o => exact cpyo h o
  case cpyq h o => exact cpyq h o
  case halloc h o => exact halloc h o
  case hfree h o => exact hfree h o
  case hwaitTake h o => exact hwaitTake h o
  case hwaitPeek h o => exact hwaitPeek h o
  case hstat h o => exact hstat h o
  case publish h o => exact publish h o
  case xfCvt h o => exact xfCvt h o
  case xfQuant h o => exact xfQuant h o
  case xfDequant h o => exact xfDequant h o
  case xfRkey h o => exact xfRkey h o
  case xfHash h o => exact xfHash h o
  case xfPenc h o => exact xfPenc h o
  case mlda h o => exact mlda h o
  case mldb h o => exact mldb h o
  case mldbs h o => exact mldbs h o
  case mscale h o => exact mscale h o
  case mma h o => exact mma h o
  case mmaBat h o => exact mmaBat h o
  case mzero h o => exact mzero h o
  case mstacc h o => exact mstacc h o
  case mldacc h o => exact mldacc h o
  case mloop h o => exact mloop h o
  case marr h o => exact marr h o
  case mwait h o => exact mwait h o
  case mend h o => exact mend h o
  case neval h o => exact neval h o
  case nevstatCnt h o => exact nevstatCnt h o
  case nevstatKick h o => exact nevstatKick h o
  case ssnew h o => exact ssnew h o
  case ssadd h o => exact ssadd h o
  case ssbuild h o => exact ssbuild h o
  case ssbind h o => exact ssbind h o
  case ssrebind h o => exact ssrebind h o
  case ssfree h o => exact ssfree h o
  case ssget h o => exact ssget h o
  case emitv h o => exact emitv h o
  case emit h o => exact emit h o
  case emitsp h o => exact emitsp h o
  case rflush h o => exact rflush h o
  case fin h o => exact fin h o
  case fout h o => exact fout h o
  case fdep h o => exact fdep h o
  case disc h o => exact disc h o
  case alm h o => exact alm h o
  case almhz h o => exact almhz h o
  case stcm h o => exact stcm h o
  case ldasof h o => exact ldasof h o
  case almwait h o => exact almwait h o
  all_goals exact statement_of_no_word rfl

end Sys2Proof.Laws.Decodes

namespace Sys2Proof

theorem decode_of_rawDecode {w : IWord} {i : Instr} (hr : rawDecode w = some i) (hl : i.wellFormed = true) (he : encode i = some w) :
    decode (isStream i) w = .ok i := by
  simp [decode, hr, hl, he]

theorem decode_of_encode {w : IWord} {i : Instr} (hl : i.wellFormed = true) (he : encode i = some w) : decode (isStream i) w = .ok i :=
  decode_of_rawDecode (Laws.Decodes.rawDecode_encode i hl w he) hl he

theorem encode_of_decode {stream : Bool} {w : IWord} {i : Instr} (h : decode stream w = .ok i) :
    encode i = some w ∧ i.wellFormed = true := by
  obtain ⟨hr, hs⟩ := decode_ok h
  simp only [decode, hr, hs, bne_self_eq_false, Bool.false_eq_true, if_false] at h
  split at h
  · next hc => simpa [and_comm] using hc
  · cases h

/-- Settles O32: the opcode of an instruction's word is read as that instruction, and the checks of decode are well-formedness and
the word itself. -/
theorem decodeEncode : Obligations.DecodeEncode := by
  unfold Obligations.DecodeEncode
  refine ⟨fun i w hl he => decode_of_encode hl he, fun stream w i h => ?_⟩
  obtain ⟨he, hl⟩ := encode_of_decode h
  exact ⟨he, hl, (decode_ok h).2⟩

end Sys2Proof
end

section
/-! Assigned opcodes (02 R45; 05 R104, R106): what the opcode of a word alone decides. -/

namespace Sys2Proof

open Claims

/-- What 05 R106 says of the functions `raw` of an opcode class: the first `n` are assigned, and function `f` of these to a matrix-stream
opcode when `stream f`. -/
def Assigns (raw : Nat → IWord → Option Instr) (n : Nat) (stream : Nat → Bool) : Prop :=
  ∀ f w, (raw f w).map isStream = if f < n then some (stream f) else none

theorem assigns_of {raw : Nat → IWord → Option Instr} {n : Nat} {stream : Nat → Bool}
    (hlt : ∀ f < n, ∀ w, (raw f w).map isStream = some (stream f)) (hge : ∀ k w, raw (k + n) w = none) : Assigns raw n stream :=
  fun f w => by
    split
    · next h => exact hlt f h w
    · next h =>
      obtain ⟨k, rfl⟩ := Nat.exists_eq_add_of_le' (Nat.le_of_not_lt h)
      rw [hge k w, Option.map_none]

theorem assigns_class0 : Assigns rawClass0 10 (fun _ => false) :=
  assigns_of (fun f hf w => by interval_cases f <;> rfl) fun _ _ => rfl

theorem assigns_class1 : Assigns rawClass1 10 (fun _ => false) :=
  assigns_of (fun f hf w => by interval_cases f <;> rfl) fun _ _ => rfl

theorem assigns_class2 : Assigns rawClass2 22 (fun _ => false) :=
  assigns_of (fun f hf w => by interval_cases f <;> rfl) fun _ _ => rfl

theorem assigns_class3 : Assigns rawClass3 17 (fun _ => false) :=
  assigns_of (fun f hf w => by interval_cases f <;> rfl) fun _ _ => rfl

theorem assigns_class4 : Assigns rawClass4 10 (fun _ => false) :=
  assigns_of (fun f hf w => by interval_cases f <;> rfl) fun _ _ => rfl

theorem assigns_class5 : Assigns rawClass5 18 (fun _ => false) :=
  assigns_of (fun f hf w => by interval_cases f <;> rfl) fun _ _ => rfl

theorem assigns_class6 : Assigns rawClass6 6 (fun _ => false) :=
  assigns_of (fun f hf w => by interval_cases f <;> rfl) fun _ _ => rfl

theorem assigns_class7 : Assigns rawClass7 9 (fun _ => false) :=
  assigns_of (fun f hf w => by interval_cases f <;> rfl) fun _ _ => rfl

theorem assigns_class8 : Assigns rawClass8 9 (fun _ => false) :=
  assigns_of (fun f hf w => by interval_cases f <;> rfl) fun _ _ => rfl

theorem assigns_class9 : Assigns rawClass9 12 (fun _ => false) :=
  assigns_of (fun f hf w => by interval_cases f <;> rfl) fun _ _ => rfl

theorem assigns_classA : Assigns rawClassA 14 (fun _ => false) :=
  assigns_of (fun f hf w => by interval_cases f <;> simp [rawClassA, apply_ite (Option.map isStream), isStream]) fun _ _ => rfl

theorem assigns_classB : Assigns rawClassB 8 (fun _ => false) :=
  assigns_of (fun f hf w => by interval_cases f <;> simp [rawClassB, apply_ite (Option.map isStream), isStream]) fun _ _ => rfl

theorem assigns_classC : Assigns rawClassC 6 (fun _ => false) :=
  assigns_of (fun f hf w => by interval_cases f <;> rfl) fun _ _ => rfl

theorem assigns_classD : Assigns rawClassD 15 (fun f => decide (f ≤ 12)) :=
  assigns_of (fun f hf w => by interval_cases f <;> simp [rawClassD, apply_ite (Option.map isStream), isStream]) fun _ _ => rfl

theorem assigns_classE : Assigns rawClassE 15 (fun _ => false) :=
  assigns_of (fun f hf w => by interval_cases f <;> rfl) fun _ _ => rfl

theorem assigns_classF : Assigns rawClassF 5 (fun _ => false) :=
  assigns_of (fun f hf w => by interval_cases f <;> rfl) fun _ _ => rfl

/-- The opcode of a word alone decides whether it names an instruction, and whether that is one of a stream line. -/
theorem rawDecode_map_isStream (w : IWord) : (rawDecode w).map isStream = if opcodeAssigned w then some (opcodeStream w) else none := by
  unfold rawDecode
  dsimp only
  split
  · next h => simpa [opcodeAssigned, opcodeStream, h, assigned] using assigns_class0 _ w
  · next h => simpa [opcodeAssigned, opcodeStream, h, assigned] using assigns_class1 _ w
  · next h => simpa [opcodeAssigned, opcodeStream, h, assigned] using assigns_class2 _ w
  · next h => simpa [opcodeAssigned, opcodeStream, h, assigned] using assigns_class3 _ w
  · next h => simpa [opcodeAssigned, opcodeStream, h, assigned] using assigns_class4 _ w
  · next h => simpa [opcodeAssigned, opcodeStream, h, assigned] using assigns_class5 _ w
  · next h => simpa [opcodeAssigned, opcodeStream, h, assigned] using assigns_class6 _ w
  · next h => simpa [opcodeAssigned, opcodeStream, h, assigned] using assigns_class7 _ w
  · next h => simpa [opcodeAssigned, opcodeStream, h, assigned] using assigns_class8 _ w
  · next h => simpa [opcodeAssigned, opcodeStream, h, assigned] using assigns_class9 _ w
  · next h => simpa [opcodeAssigned, opcodeStream, h, assigned] using assigns_classA _ w
  · next h => simpa [opcodeAssigned, opcodeStream, h, assigned] using assigns_classB _ w
  · next h => simpa [opcodeAssigned, opcodeStream, h, assigned] using assigns_classC _ w
  · next h => simpa [opcodeAssigned, opcodeStream, h, assigned] using assigns_classD _ w
  · next h => simpa [opcodeAssigned, opcodeStream, h, assigned] using assigns_classE _ w
  · next h => simpa [opcodeAssigned, opcodeStream, h, assigned] using assigns_classF _ w
  · have hc := (w.extractLsb' 92 4).isLt
    exfalso
    simp only [imp_false] at *
    omega

theorem decode_illegalOpcode_iff {stream : Bool} {w : IWord} :
    decode stream w = .error .illegalOpcode ↔ ∀ i, rawDecode w = some i → isStream i ≠ stream := by
  unfold decode
  split
  · next h => simp [h]
  · next i h =>
    rw [h]
    split
    · next hs => simpa using hs
    · next hs =>
      have hs : isStream i = stream := by simpa using hs
      split <;> simp [hs]

/-- Settles O31: decode answers ILLEGAL_OPCODE before it looks at a field, by the assignment of the opcodes. -/
theorem opcodeErrors : Obligations.OpcodeErrors := by
  unfold Obligations.OpcodeErrors
  intro stream w
  have hw := rawDecode_map_isStream w
  cases ha : opcodeAssigned w
  · have hn : rawDecode w = none := by simpa [ha] using hw
    simp [decode_illegalOpcode_iff, hn]
  · obtain ⟨i, hi, hs⟩ : ∃ i, rawDecode w = some i ∧ isStream i = opcodeStream w := by simpa [ha] using hw
    simp [decode_illegalOpcode_iff, hi, hs]

end Sys2Proof
end

section
/-! Worked words (02 R61, and the chapters of the words). -/

namespace Sys2Proof

open Claims

/-- Settles O29: each word of the three lists is decoded. -/
theorem wordsDecode : Obligations.WordsDecode := by
  unfold Obligations.WordsDecode
  simp only [List.forall_mem_append]
  exact ⟨⟨by decide, by decide⟩, by decide⟩

/-- Settles O30: both words are encodings of `nop`, whose effect is empty. -/
theorem nopWords : Obligations.NopWords := by
  unfold Obligations.NopWords
  have padding : encode (.nop (always 0) ⟨0, 0, 0⟩) = some 0x0001_C000_0000_0000_0000_0000 := by decide
  have zero : encode (.nop ⟨0, false, 0, 0, 0, 0⟩ ⟨0, 0, 0⟩) = some 0 := by decide
  exact ⟨padding, by decide, decode_of_encode (by decide) padding, decode_of_encode (by decide) zero, fun h _ => nop_done h _⟩

end Sys2Proof
end

section
/-! The parity of a line (02 R35), and the legality of its line word (02 R38). -/

namespace Sys2Proof

open Claims

namespace Bits

/-! ### Bits of numbers -/

theorem ofBitFn_succ (w : Nat) (f : Nat → Bool) : ofBitFn (w + 1) f = 2 ^ w * b2n (f w) + ofBitFn w f := by
  simp only [ofBitFn, upto, List.range_succ, List.foldl_append, List.foldl_cons, List.foldl_nil]
  rw [Nat.add_comm, Nat.mul_comm]

theorem ofBitFn_lt (w : Nat) (f : Nat → Bool) : ofBitFn w f < 2 ^ w := by
  induction w with
  | zero => exact Nat.one_pos
  | succ w ih =>
    rw [ofBitFn_succ, Nat.pow_succ]
    cases f w <;> simp [b2n] <;> omega

theorem testBit_ofBitFn {w i : Nat} (f : Nat → Bool) (hi : i < w) : (ofBitFn w f).testBit i = f i := by
  induction w with
  | zero => omega
  | succ w ih =>
    rw [ofBitFn_succ, Nat.testBit_two_pow_mul_add _ (ofBitFn_lt w f)]
    split
    · next h => exact ih h
    · next h =>
      obtain rfl : i = w := by omega
      cases f i <;> simp [b2n]

/-- The set bits of a number, counted by their positions. -/
theorem popcount_eq (w n : Nat) : popcount w n = ((List.range w).filter n.testBit).length := by
  induction w generalizing n with
  | zero => rfl
  | succ w ih =>
    have tail : n.testBit ∘ Nat.succ = (n / 2).testBit := by
      funext i
      exact Nat.testBit_succ n i
    rw [popcount, ih, List.range_succ_eq_map, List.filter_cons, List.filter_map, tail, Nat.testBit_zero]
    cases hb : n % 2 == 1 <;> simp_all [b2n, Nat.add_comm]

theorem odd_eq (w n : Nat) : odd w n = decide (((List.range w).filter n.testBit).length % 2 = 1) := by
  rw [odd, popcount_eq]
  rfl

theorem testBit_ofBytes (bs : List Byte) (b : Nat) : (ofBytes bs).testBit b = (bs.getD (b / 8) 0).getLsbD (b % 8) := by
  have hb : (ofBytes bs >>> (8 * (b / 8)) % 2 ^ 8).testBit (b % 8) = (ofBytes bs).testBit b := by
    rw [Nat.testBit_mod_two_pow, Nat.testBit_shiftRight, Nat.div_add_mod]
    simp [Nat.mod_lt]
  rw [← hb, show 2 ^ 8 = 256 from rfl, ofBytes_byte]
  rfl

end Bits

namespace Machine.Ops

open Sys2Proof.Bits

/-! ### Parity of a line -/

/-- The bits of the five slots are the bits of the line's first 60 bytes. -/
theorem lineBit_eq (bs : List Byte) {b : Nat} (hb : b < 480) : lineBit bs b = (ofBytes (bs.take 60)).testBit b := by
  have inSlot : b % 96 / 8 < 12 := by omega
  have inLine : b / 8 < 60 := by omega
  have byte : 12 * (b / 96) + b % 96 / 8 = b / 8 := by omega
  have bit : b % 96 % 8 = b % 8 := by omega
  rw [lineBit, BitVec.getLsbD, slotWord_toNat, testBit_ofBytes, testBit_ofBytes, bit]
  simp only [List.getD_eq_getElem?_getD, List.getElem?_take_of_lt inSlot, List.getElem?_take_of_lt inLine, List.getElem?_drop, byte]

theorem testBit_parityOf (bs : List Byte) {j : Nat} (hj : j < 16) :
    (parityOf bs).testBit j = decide (((List.range 30).filter (fun i => lineBit bs (30 * j + i))).length % 2 = 1) := by
  have bits : (List.range 30).filter (ofBytes (bs.take 60) >>> (30 * j)).testBit = (List.range 30).filter (fun i => lineBit bs (30 * j + i)) := by
    refine List.filter_congr fun i hi => ?_
    have hi : i < 30 := List.mem_range.1 hi
    rw [Nat.testBit_shiftRight, lineBit_eq bs (by omega)]
  rw [parityOf, testBit_ofBitFn _ hj, odd_eq, bits]

theorem parityOf_congr {bs bs' : List Byte} (h : bs.take 60 = bs'.take 60) : parityOf bs = parityOf bs' := by
  rw [parityOf, parityOf, h]

theorem parityOk_iff (bs : List Byte) : parityOk bs = true ↔ lineWord bs % 2 ^ 16 = parityOf bs := by
  simp [parityOk, field]

theorem lineWordOk_iff (stream : Bool) (lw : Nat) : lineWordOk stream lw = true ↔
    lw >>> 20 % 16 = (if stream then 1 else 0) ∧ lw >>> 16 % 16 = 0 ∧ (stream = true → lw >>> 24 % 8 = 0) := by
  cases stream <;> simp [lineWordOk, field, b2n, and_assoc]

end Machine.Ops

/-- Settles O53: a bit of the parity counts the set bits of its 30, and a bit of a slot is a bit of the line's first 60 bytes. -/
theorem lineParity : Obligations.LineParity := by
  unfold Obligations.LineParity
  exact ⟨fun bs _ _ hj => Machine.Ops.testBit_parityOf bs hj, fun _ _ h => Machine.Ops.parityOf_congr h, fun bs _ => Machine.Ops.parityOk_iff bs,
    Machine.Ops.lineWordOk_iff⟩

end Sys2Proof
end

section
/-! Fetches (02 R39 to R41, R43; 24 R424; 26 R444): which line a core reads, what a line that fails its parity leaves behind, and the
page's permission after that. -/

namespace Sys2Proof.Machine.Ops

open Sys2Proof.Bits

/-! ### What a failed line leaves behind -/

@[simp] theorem core_setCore (s : State) (c : Nat) (x : Core) : core (setCore s c x) c = x := by simp [core]

theorem core_congr {s t : State} (h : t.cores = s.cores) (c : Nat) : core t c = core s c := by rw [core, core, h]

theorem windowOf_eq_device {pa : Nat} : windowOf pa = .device ↔ pa < 2 ^ 40 := by
  unfold windowOf
  split
  · simp_all
  · next h =>
    refine iff_of_false ?_ h
    repeat' split
    all_goals simp

@[simp] theorem hubWrite_badLines (s : State) (pa : Nat) (bs : List Byte) : (hubWrite s pa bs).badLines = s.badLines := by
  obtain e | ⟨m, -, -, e⟩ := hubWrite_cases s pa bs
  · rw [e]; rfl
  · rw [e]

@[simp] theorem hubWrite_cores (s : State) (pa : Nat) (bs : List Byte) : (hubWrite s pa bs).cores = s.cores := by
  obtain e | ⟨m, -, -, e⟩ := hubWrite_cases s pa bs
  · rw [e]; rfl
  · rw [e]

@[simp] theorem devlog_badLines (s : State) (code ctx place detail : Nat) : (devlog s code ctx place detail).badLines = s.badLines := by
  unfold devlog
  dsimp only
  split
  · exact setCtl_badLines ..
  · exact (setCtl_badLines ..).trans (hubWrite_badLines ..)

@[simp] theorem devlog_cores (s : State) (code ctx place detail : Nat) : (devlog s code ctx place detail).cores = s.cores := by
  unfold devlog
  dsimp only
  split
  · exact setCtl_cores ..
  · exact (setCtl_cores ..).trans (hubWrite_cores ..)

@[simp] theorem markLine_cores (s : State) (line : Nat) : (markLine s line).cores = s.cores := by
  unfold markLine
  split <;> rfl

theorem mem_markLine_badLines (s : State) (line : Nat) : line ∈ (markLine s line).badLines := by
  unfold markLine
  split
  · next h => simpa using h
  · exact List.mem_cons_self ..

@[simp] theorem countError_cores (s : State) (d i : Nat) : (countError s d i).cores = s.cores := rfl

@[simp] theorem failLine_cores (s : State) (c ctx pa : Nat) : (failLine s c ctx pa).cores = s.cores := by
  unfold failLine
  split <;> simp

theorem mem_failLine_badLines (s : State) (c ctx : Nat) {pa : Nat} (h : windowOf pa = .device) : pa / 128 ∈ (failLine s c ctx pa).badLines := by
  simp [failLine, h, mem_markLine_badLines]

/-! ### The error counters (26 R444) -/

theorem ctlReset_errorCounter (d : Nat) {i : Nat} (hi : i < 7) : State.ctlReset (dieOff d + 0x180 + 4 * i) = 0 := by
  have low : (dieOff d + 0x180 + 4 * i) % 0x04000000 = 0x180 + 4 * i := by unfold dieOff; omega
  have far : 0x04000000 ≤ dieOff d + 0x180 + 4 * i := by unfold dieOff; omega
  simp only [State.ctlReset, low]
  simp (disch := omega) only [if_neg]

theorem ctl_setCtl {s : State} {off v : Nat} (h : v ≠ State.ctlReset off) : ctl (setCtl s off v) off = v := by
  simp [ctl, Maps.set, h]

theorem ctl_countError {s : State} {d i : Nat} (hi : i < 7) (h : ctl s (dieOff d + 0x180 + 4 * i) < 2 ^ 32 - 1) :
    ctl (countError s d i) (dieOff d + 0x180 + 4 * i) = ctl s (dieOff d + 0x180 + 4 * i) + 1 := by
  have room : ctl s (dieOff d + 0x180 + 4 * i) + 1 < 2 ^ 32 := by omega
  simp only [countError, if_pos room]
  refine ctl_setCtl ?_
  rw [ctlReset_errorCounter d hi]
  exact Nat.succ_ne_zero _

/-! ### The state that a fetch reads -/

/-- The state in which a core reads a line of a page that is not stamped: where the page permits, its TLB has the translation. -/
def noted (s : State) (c ctx leaf base size : Nat) : State := if leaf.testBit 4 then noteTlb s c ctx base size leaf else s

section
variable (s : State) (c ctx leaf base size : Nat)

theorem noteTlb_core_ilines : (core (noteTlb s c ctx base size leaf) c).ilines = (core s c).ilines := by
  unfold noteTlb
  dsimp only
  split <;> simp

theorem noteTlb_ctl (off : Nat) : ctl (noteTlb s c ctx base size leaf) off = ctl s off := by
  unfold noteTlb
  dsimp only
  split <;> rfl

@[simp] theorem noted_core_ilines : (core (noted s c ctx leaf base size) c).ilines = (core s c).ilines := by
  unfold noted
  split
  · exact noteTlb_core_ilines ..
  · rfl

@[simp] theorem noted_ctl (off : Nat) : ctl (noted s c ctx leaf base size) off = ctl s off := by
  unfold noted
  split
  · exact noteTlb_ctl ..
  · rfl

@[simp] theorem readBytes_noted (a n : Nat) : readBytes (noted s c ctx leaf base size) a n = readBytes s a n := by
  unfold noted
  split
  · rw [readBytes, noteTlb_mem, readBytes]
  · rfl

end

/-! ### One read of a line -/

section
variable {s : State} {c pa : Nat} {bs : List Byte}

theorem fetchPhys_of_copy (h : Maps.find? pa (core s c).ilines = some bs) (hp : parityOk bs = true) : fetchPhys s c pa = (.line bs, s) := by
  simp [fetchPhys, h, hp]

theorem fetchPhys_of_memory (h : Maps.find? pa (core s c).ilines = none) (hp : parityOk (readBytes s pa 64) = true) :
    ∃ t, fetchPhys s c pa = (.line (readBytes s pa 64), t) := by
  simp [fetchPhys, h, hp]

theorem fetchPhys_of_bad_memory (h : Maps.find? pa (core s c).ilines = none) (hp : parityOk (readBytes s pa 64) = false) :
    fetchPhys s c pa = (.check, s) := by
  simp [fetchPhys, h, hp]

/-- A copy that fails is fetched once more, and the die counts one error. -/
theorem fetchPhys_of_bad_copy (h : Maps.find? pa (core s c).ilines = some bs) (hb : parityOk bs = false)
    (hp : parityOk (readBytes s pa 64) = true) :
    ∃ t, fetchPhys s c pa = (.line (readBytes s pa 64), countError t (c / 64) 0) ∧ ∀ off, ctl t off = ctl s off := by
  simp only [fetchPhys, h, hb, hp, Bool.false_eq_true, if_false, if_true]
  exact ⟨_, rfl, fun _ => rfl⟩

/-- Where memory fails too, the core keeps no copy. -/
theorem fetchPhys_of_both_bad (h : Maps.find? pa (core s c).ilines = some bs) (hb : parityOk bs = false)
    (hp : parityOk (readBytes s pa 64) = false) :
    fetchPhys s c pa = (.check, setCore s c { core s c with ilines := Maps.erase pa (core s c).ilines }) := by
  simp [fetchPhys, h, hb, hp]

end

/-! ### The whole fetch -/

/-- The line at a page's physical address as the core reads it: at its home for a stamped page, else as `fetchPhys` does. -/
def lineRead (s : State) (c ctx leaf base size home line : Nat) : Fetched × State :=
  if leaf.testBit 61 then fetchStamped s home leaf line else fetchPhys (noted s c ctx leaf base size) c line

/-- What a core gets of a line that passes its parity: the page's permission is looked at only now (02 R43, R53). -/
def permitted (leaf : Nat) (bs : List Byte) : Fetched := if leaf.testBit 4 then .line bs else .fault .denied

section
variable {s : State} {c ctx va pa leaf base size d : Nat}

/-- The address translates, outside the control region, to a line that can be reached and does not wait for a migration. -/
structure Fetchable (s : State) (c ctx va pa leaf base size d : Nat) : Prop where
  translates : translate s ctx (c / 64) none (core s c).tlb va 0 0 0 false = .ok pa leaf base size
  memory : windowOf pa ≠ .control
  reached : homeDie s (c / 64) pa = some d
  settled : stampedMoves s pa = false

theorem Fetchable.line (h : Fetchable s c ctx va pa leaf base size d) {bs : List Byte} {t : State}
    (hr : lineRead s c ctx leaf base size d (pa / 64 * 64) = (.line bs, t)) : fetchLine s c ctx va = (permitted leaf bs, t) := by
  unfold lineRead noted at hr
  simp [fetchLine, h.translates, h.memory, h.reached, h.settled, hr, permitted]

theorem Fetchable.check (h : Fetchable s c ctx va pa leaf base size d) {t : State}
    (hr : lineRead s c ctx leaf base size d (pa / 64 * 64) = (.check, t)) :
    fetchLine s c ctx va = (.check, failLine t c ctx (pa / 64 * 64)) := by
  unfold lineRead noted at hr
  simp [fetchLine, h.translates, h.memory, h.reached, h.settled, hr]

theorem device_of_line (h : windowOf pa = .device) : windowOf (pa / 64 * 64) = .device :=
  windowOf_eq_device.2 (lt_of_le_of_lt (Nat.div_mul_le_self pa 64) (windowOf_eq_device.1 h))

/-- The fetch raises MACHINE_CHECK and marks a line of the device's memory as failed (26 R444). -/
def ChecksAndMarks (s : State) (c ctx va pa : Nat) : Prop :=
  (fetchLine s c ctx va).1 = .check ∧ (windowOf pa = .device → pa / 64 * 64 / 128 ∈ (fetchLine s c ctx va).2.badLines)

theorem Fetchable.marks (h : Fetchable s c ctx va pa leaf base size d) {t : State}
    (hr : lineRead s c ctx leaf base size d (pa / 64 * 64) = (.check, t)) : ChecksAndMarks s c ctx va pa := by
  rw [ChecksAndMarks, h.check hr]
  exact ⟨rfl, fun hd => mem_failLine_badLines t c ctx (device_of_line hd)⟩

/-! ### A line of a stamped page -/

theorem lineRead_stamped (hs : leaf.testBit 61 = true) (line : Nat) :
    lineRead s c ctx leaf base size d line =
      (if parityOk (homeBytesAt s d leaf line 64) then .line (homeBytesAt s d leaf line 64) else .check, s) := by
  rw [lineRead, if_pos hs, fetchStamped]

theorem Fetchable.stamped (h : Fetchable s c ctx va pa leaf base size d) (hs : leaf.testBit 61 = true)
    (hp : parityOk (homeBytesAt s d leaf (pa / 64 * 64) 64) = true) :
    (fetchLine s c ctx va).1 = permitted leaf (homeBytesAt s d leaf (pa / 64 * 64) 64) := by
  rw [h.line (by rw [lineRead_stamped hs, if_pos hp])]

theorem Fetchable.stamped_marks (h : Fetchable s c ctx va pa leaf base size d) (hs : leaf.testBit 61 = true)
    (hp : parityOk (homeBytesAt s d leaf (pa / 64 * 64) 64) = false) : ChecksAndMarks s c ctx va pa :=
  h.marks (by rw [lineRead_stamped hs, if_neg (ne_true_of_eq_false hp)])

/-! ### A line of any other page -/

theorem lineRead_unstamped (hs : leaf.testBit 61 = false) (line : Nat) :
    lineRead s c ctx leaf base size d line = fetchPhys (noted s c ctx leaf base size) c line :=
  if_neg (ne_true_of_eq_false hs)

section
variable {bs : List Byte} (h : Fetchable s c ctx va pa leaf base size d) (hs : leaf.testBit 61 = false)
include h hs

theorem Fetchable.from_memory (hn : Maps.find? (pa / 64 * 64) (core s c).ilines = none)
    (hp : parityOk (readBytes s (pa / 64 * 64) 64) = true) :
    (fetchLine s c ctx va).1 = permitted leaf (readBytes s (pa / 64 * 64) 64) := by
  obtain ⟨t, ht⟩ := fetchPhys_of_memory (s := noted s c ctx leaf base size) (c := c) (pa := pa / 64 * 64) (by simpa using hn) (by simpa using hp)
  rw [h.line ((lineRead_unstamped hs _).trans ht), readBytes_noted]

theorem Fetchable.memory_marks (hn : Maps.find? (pa / 64 * 64) (core s c).ilines = none)
    (hp : parityOk (readBytes s (pa / 64 * 64) 64) = false) : ChecksAndMarks s c ctx va pa :=
  h.marks ((lineRead_unstamped hs _).trans (fetchPhys_of_bad_memory (c := c) (pa := pa / 64 * 64) (by simpa using hn) (by simpa using hp)))

theorem Fetchable.from_copy (hc : Maps.find? (pa / 64 * 64) (core s c).ilines = some bs) (hp : parityOk bs = true) :
    (fetchLine s c ctx va).1 = permitted leaf bs := by
  rw [h.line ((lineRead_unstamped hs _).trans (fetchPhys_of_copy (c := c) (pa := pa / 64 * 64) (by simpa using hc) hp))]

/-- The refetch answers memory's bytes, and the error counter of the core's die goes up by one. -/
theorem Fetchable.refetched (hc : Maps.find? (pa / 64 * 64) (core s c).ilines = some bs) (hb : parityOk bs = false)
    (hp : parityOk (readBytes s (pa / 64 * 64) 64) = true) :
    (fetchLine s c ctx va).1 = permitted leaf (readBytes s (pa / 64 * 64) 64) ∧
      (ctl s (dieOff (c / 64) + 0x180) < 2 ^ 32 - 1 →
        ctl (fetchLine s c ctx va).2 (dieOff (c / 64) + 0x180) = ctl s (dieOff (c / 64) + 0x180) + 1) := by
  obtain ⟨t, ht, hctl⟩ := fetchPhys_of_bad_copy (s := noted s c ctx leaf base size) (c := c) (pa := pa / 64 * 64)
    (by simpa using hc) hb (by simpa using hp)
  rw [h.line ((lineRead_unstamped hs _).trans ht), readBytes_noted]
  refine ⟨rfl, fun hlt => ?_⟩
  have same : ctl t (dieOff (c / 64) + 0x180) = ctl s (dieOff (c / 64) + 0x180) := by rw [hctl, noted_ctl]
  rw [← same] at hlt ⊢
  exact ctl_countError (i := 0) (by decide) hlt

/-- Where the refetch fails too, the core's copy is gone. -/
theorem Fetchable.refetch_marks (hc : Maps.find? (pa / 64 * 64) (core s c).ilines = some bs) (hb : parityOk bs = false)
    (hp : parityOk (readBytes s (pa / 64 * 64) 64) = false) :
    ChecksAndMarks s c ctx va pa ∧ (Maps.rising (core s c).ilines = true →
      Maps.find? (pa / 64 * 64) (core (fetchLine s c ctx va).2 c).ilines = none) := by
  have hr := (lineRead_unstamped (s := s) (c := c) (ctx := ctx) (base := base) (size := size) (d := d) hs _).trans
    (fetchPhys_of_both_bad (by simpa using hc) hb (by simpa using hp))
  refine ⟨h.marks hr, fun hi => ?_⟩
  rw [h.check hr, core_congr (failLine_cores ..), core_setCore, noted_core_ilines]
  exact Maps.find?_erase_self hi

end

end

end Sys2Proof.Machine.Ops

namespace Sys2Proof

open Machine.Ops in
/-- Settles O34: a fetch is one read of the line, and each kind of read answers a line, which the page may permit, or fails. -/
theorem fetchReadsTheLine : Obligations.FetchReadsTheLine := by
  unfold Obligations.FetchReadsTheLine
  intro s c ctx va pa leaf base size d ht hw hh hm
  have h : Fetchable s c ctx va pa leaf base size d := ⟨ht, hw, hh, hm⟩
  exact ⟨h.stamped, h.stamped_marks, fun hs => ⟨h.from_memory hs, h.memory_marks hs, fun _ => h.from_copy hs, fun _ => h.refetched hs,
    fun _ => h.refetch_marks hs⟩⟩

end Sys2Proof
end

section
/-! Integer and address arithmetic (06 R113 to R118) and conversion (07 R152 to R156): what each instruction completes with. A
lemma of the run that several instructions share says how it ends; the lemma of an instruction names its function. -/

namespace Sys2Proof.Claims

open Sys2Proof.Machine Sys2Proof.Machine.Ops Sys2Proof.Bits

/-! ### The ends of register instructions -/

section
variable {i : Instr} {x : Shape} {h : Hdr} {o : OpR}

/-- An effect on registers alone completes with its writes and its status bits. -/
theorem doneFl_of_run {w : Ctx → List RegWrite} {fl : Ctx → List (Nat × Nat)} (hx : shapeOf i = some x)
    (he : ∀ s, exec i s = run i x.hdr x.marks x.opnds x.preds (fun c => .done c.s (w c) (fl c)) s) : doneFl i w fl :=
  completes_of_done hx he fun _ _ => rfl

/-- One result per lane, written to D. -/
theorem done_of_doneN {d : BitVec 9} {n : Nat} {f : Ctx → Nat → Nat} (hx : shapeOf i = some x)
    (he : ∀ s, exec i s = run i x.hdr x.marks x.opnds x.preds (fun c => doneN c d n (f c)) s) :
    done i (fun c => wrLanes c d n (f c)) :=
  doneFl_of_run hx he

/-- One result per lane with the flags of its computation (07 R138). -/
theorem floats_of_doneF {d : BitVec 9} {f : Ctx → Nat → Num.FRes} (hx : shapeOf i = some x)
    (he : ∀ s, exec i s = run i x.hdr x.marks x.opnds x.preds (fun c => doneF c d (f c)) s) : floats i d f :=
  doneFl_of_run hx he

theorem unary_of_unaryR {f : Nat → Nat} (hx : shapeOf i = some (.plain h [dstW (width h) o.d, srcW (width h) o.a]))
    (he : ∀ s, exec i s = unaryR i h o f s) : unary i h o f :=
  done_of_doneN hx he

theorem binary_of_binaryR {f : Nat → Nat → Nat} (hx : shapeOf i = some (.plain h (Shape.binW h o)))
    (he : ∀ s, exec i s = binaryR i h o f s) : binary i h o f :=
  done_of_doneN hx he

theorem ternary_of_ternaryR {f : Nat → Nat → Nat → Nat} (hx : shapeOf i = some (.plain h (Shape.terW h o)))
    (he : ∀ s, exec i s = ternaryR i h o f s) : ternary i h o f :=
  done_of_doneN hx he

theorem ternary1_of_ternaryS {f : Nat → Nat → Nat → Nat} (hx : shapeOf i = some (.plain h (Shape.terS o)))
    (he : ∀ s, exec i s = ternaryS i h o f s) : ternary1 i o f :=
  done_of_doneN hx he

/-- A carry or borrow goes through P with the result (R116). -/
theorem carrying_of_carryR {f : Nat → Nat → Bool → Nat × Bool}
    (hx : shapeOf i = some (.plain h (Shape.binW h o) [o.p.toNat] [o.p.toNat])) (he : ∀ s, exec i s = carryR i h o f s) :
    carrying i h o f :=
  doneFl_of_run hx he

/-- A division without an enabled trap completes with its results, and DIVZ where a divisor is zero (R117). -/
theorem divisionEnd_done {res : Ctx → List RegWrite} {c : Ctx} (hk : noDivTrap h o c) :
    divisionEnd h o res c = .done c.s (res c) (divFlags h o c) := by
  have hoff : ¬ (tdivz c && !(zeroDivisors c (width h) (Checks.fmt h) o.b).isEmpty) = true := by
    obtain ht | hz := hk
    · simp [ht]
    · simp [hz]
  exact if_neg hoff

theorem completes_of_divideR {os : List Opnd} {res : Ctx → List RegWrite} (hx : shapeOf i = some (Shape.plain h os))
    (he : ∀ s, exec i s = divideR i h o os res s) : completes i (noDivTrap h o) (fun c => c.s) res (divFlags h o) :=
  completes_of_done (body := divisionEnd h o res) hx he fun _ hk => divisionEnd_done hk

end

/-! ### Class 0x2: sums and differences (R115, R116) -/

theorem add_binary (h : Hdr) (o : OpR) : binary (.add h o) h o (Alu.add (Checks.fmt h) (sat2 h)) :=
  binary_of_binaryR rfl fun s => Eq.refl (execAdd h o s)

theorem addc_carrying (h : Hdr) (o : OpR) : carrying (.addc h o) h o (Alu.addc (Checks.fmt h)) :=
  carrying_of_carryR rfl fun s => Eq.refl (execAddc h o s)

theorem sub_binary (h : Hdr) (o : OpR) : binary (.sub h o) h o (Alu.sub (Checks.fmt h) (sat2 h)) :=
  binary_of_binaryR rfl fun s => Eq.refl (execSub h o s)

theorem subb_carrying (h : Hdr) (o : OpR) : carrying (.subb h o) h o (Alu.subb (Checks.fmt h)) :=
  carrying_of_carryR rfl fun s => Eq.refl (execSubb h o s)

theorem addi_done (h : Hdr) (j : OpI) : done (.addi h j) (fun c => wrLanes c j.d (regsOf (width h)) (fun l =>
    Alu.add (Checks.fmt h) (sat2 h) (rdW (width h) c j.a l) (Alu.immVal (Checks.fmt h) j.imm.toNat))) :=
  done_of_doneN rfl fun s => Eq.refl (execAddi h j s)

/-! ### Class 0x2: products (R114, R115) -/

theorem mul_binary (h : Hdr) (o : OpR) : binary (.mul h o) h o (Alu.mul (Checks.fmt h) (sat2 h)) :=
  binary_of_binaryR rfl fun s => Eq.refl (execMul h o s)

theorem mulhi_binary (h : Hdr) (o : OpR) : binary (.mulhi h o) h o (Alu.mulhi (Checks.fmt h)) :=
  binary_of_binaryR rfl fun s => Eq.refl (execMulhi h o s)

theorem mulw_done (h : Hdr) (o : OpR) :
    done (.mulw h o) (fun c => wrLanes c o.d 2 (fun l => Alu.mulw (Checks.fmt h) (rd c o.a l) (rd c o.b l))) :=
  done_of_doneN rfl fun s => Eq.refl (execMulw h o s)

theorem mad_ternary (h : Hdr) (o : OpR) : ternary (.mad h o) h o (Alu.mad (Checks.fmt h) (sat2 h)) :=
  ternary_of_ternaryR rfl fun s => Eq.refl (execMad h o s)

theorem madw_done (h : Hdr) (o : OpR) : done (.madw h o) (fun c => wrLanes c o.d 2 (fun l =>
    Alu.madw (Checks.fmt h) (rd c o.a l) (rd c o.b l) (rdPair c o.c l))) :=
  done_of_doneN rfl fun s => Eq.refl (execMadw h o s)

theorem dot4_ternary1 (h : Hdr) (o : OpR) : ternary1 (.dot4 h o) o (Alu.dot 4 (Checks.fmt h) (sat2 h)) :=
  ternary1_of_ternaryS rfl fun s => Eq.refl (execDot4 h o s)

theorem dot2_ternary1 (h : Hdr) (o : OpR) : ternary1 (.dot2 h o) o (Alu.dot 2 (Checks.fmt h) (sat2 h)) :=
  ternary1_of_ternaryS rfl fun s => Eq.refl (execDot2 h o s)

/-! ### Class 0x2: divisions (R117) -/

theorem div_completes (h : Hdr) (o : OpR) : completes (.div h o) (noDivTrap h o) (fun c => c.s)
    (fun c => wrLanes c o.d (regsOf (width h)) (quotOf h o c)) (divFlags h o) :=
  completes_of_divideR rfl fun s => Eq.refl (execDiv h o s)

theorem rem_completes (h : Hdr) (o : OpR) : completes (.rem h o) (noDivTrap h o) (fun c => c.s)
    (fun c => wrLanes c o.d (regsOf (width h)) (remOf h o c)) (divFlags h o) :=
  completes_of_divideR rfl fun s => Eq.refl (execRem h o s)

theorem divrem_completes (h : Hdr) (o : OpR) : completes (.divrem h o) (noDivTrap h o) (fun c => c.s)
    (fun c => wrLanes c o.d (regsOf (width h)) (quotOf h o c) ++ wrLanes c o.c (regsOf (width h)) (remOf h o c)) (divFlags h o) :=
  completes_of_divideR rfl fun s => Eq.refl (execDivrem h o s)

/-! ### Class 0x2: orders, distances and addresses (R114, R115, R118) -/

theorem min_binary (h : Hdr) (o : OpR) : binary (.min h o) h o (Alu.min (Checks.fmt h)) :=
  binary_of_binaryR rfl fun s => Eq.refl (execMin h o s)

theorem max_binary (h : Hdr) (o : OpR) : binary (.max h o) h o (Alu.max (Checks.fmt h)) :=
  binary_of_binaryR rfl fun s => Eq.refl (execMax h o s)

theorem clamp_ternary (h : Hdr) (o : OpR) : ternary (.clamp h o) h o (Alu.clamp (Checks.fmt h)) :=
  ternary_of_ternaryR rfl fun s => Eq.refl (execClamp h o s)

theorem abs_unary (h : Hdr) (o : OpR) : unary (.abs h o) h o (Alu.abs (Checks.fmt h) (sat2 h)) :=
  unary_of_unaryR rfl fun s => Eq.refl (execAbs h o s)

theorem sad_ternary (h : Hdr) (o : OpR) : ternary (.sad h o) h o (Alu.sad (Checks.fmt h) (sat2 h)) :=
  ternary_of_ternaryR rfl fun s => Eq.refl (execSad h o s)

theorem lea_done (h : Hdr) (o : OpR) : done (.lea h o)
    (fun c => wrLanes c o.d 2 (fun l => Alu.lea (Checks.fmt h) (rdPair c o.a l) (rd c o.b l) o.aux.toNat)) :=
  done_of_doneN rfl fun s => Eq.refl (execLea h o s)

theorem leai_done (h : Hdr) (j : OpI) :
    done (.leai h j) (fun c => wrLanes c j.d 2 (fun l => Alu.leai (rdPair c j.a l) j.imm.toNat)) :=
  done_of_doneN rfl fun s => Eq.refl (execLeai h j s)

/-! ### Class 0x6: conversions (07 R152 to R156) -/

/-- A 64-bit operand of a conversion is a pair (R153). -/
theorem cvt_completes (h : Hdr) (o : OpR) :
    let r (c : Ctx) (l : Nat) :=
      Num.cvt (Checks.fmt h) (Checks.lo4 h) (cMode h) (cSat h) (rdW (codeWidth (Checks.lo4 h)) c o.a l)
    doneFl (.cvt h o) (fun c => wrLanes c o.d (regsOf (codeWidth (Checks.fmt h))) (fun l => (r c l).bits))
      (fun c => flagLanes c (fun l => (r c l).flags)) :=
  doneFl_of_run rfl fun s => Eq.refl (execCvt h o s)

theorem pack_floats (h : Hdr) (o : OpR) :
    floats (.pack h o) o.d (fun c l => Alu.pack (Checks.fmt h) (cMode h) (cSat h) (rd c o.a l) (rd c o.b l)) :=
  floats_of_doneF rfl fun s => Eq.refl (execPack h o s)

/-- Element 0 goes to D and element 1 to C, with the flags of both (R154). -/
theorem unpack_completes (h : Hdr) (o : OpR) :
    let u (c : Ctx) (n l : Nat) := Alu.unpack (Checks.lo4 h) (cSat h) n (rd c o.a l)
    doneFl (.unpack h o) (fun c => wrLanes c o.d 1 (fun l => (u c 0 l).bits) ++ wrLanes c o.c 1 (fun l => (u c 1 l).bits))
      (fun c => flagLanes c (fun l => (u c 0 l).flags ||| (u c 1 l).flags)) :=
  doneFl_of_run rfl fun s => Eq.refl (execUnpack h o s)

theorem quant_floats (h : Hdr) (o : OpR) : floats (.quant h o) o.d (fun c l =>
    Num.quant (Checks.fmt h) (Checks.lo4 h) (cMode h) (rd c o.a l) (rd c o.b l) (rd c o.c l)) :=
  floats_of_doneF rfl fun s => Eq.refl (execQuant h o s)

theorem dequant_floats (h : Hdr) (o : OpR) : floats (.dequant h o) o.d (fun c l =>
    Num.dequant (Checks.fmt h) (Checks.lo4 h) (cMode h) (cSat h) (rd c o.a l) (rd c o.b l) (rd c o.c l)) :=
  floats_of_doneF rfl fun s => Eq.refl (execDequant h o s)

theorem pack4_done (h : Hdr) (o : OpR) :
    done (.pack4 h o) (fun c => wrLanes c o.d 1 (fun l => Alu.pack4 (rd c o.a l) (rd c o.b l))) :=
  done_of_doneN rfl fun s => Eq.refl (execPack4 h o s)

end Sys2Proof.Claims

/-- Settles O1: each instruction's effect ends as its lemma above says; a division's end turns on the trap that is not enabled. -/
theorem Sys2Proof.integerInstructionsComplete : Obligations.IntegerInstructionsComplete := by
  unfold Obligations.IntegerInstructionsComplete
  exact fun h o j => ⟨Claims.add_binary h o, Claims.addc_carrying h o, Claims.sub_binary h o, Claims.subb_carrying h o,
    Claims.addi_done h j, Claims.mul_binary h o, Claims.mulhi_binary h o, Claims.mulw_done h o, Claims.mad_ternary h o,
    Claims.madw_done h o, Claims.div_completes h o, Claims.rem_completes h o, Claims.divrem_completes h o, Claims.min_binary h o,
    Claims.max_binary h o, Claims.clamp_ternary h o, Claims.abs_unary h o, Claims.sad_ternary h o, Claims.dot4_ternary1 h o,
    Claims.dot2_ternary1 h o, Claims.lea_done h o, Claims.leai_done h j⟩

/-- Settles O5: each instruction's effect ends as its lemma above says, in every context in which it is ready. -/
theorem Sys2Proof.conversionInstructionsComplete : Obligations.ConversionInstructionsComplete := by
  unfold Obligations.ConversionInstructionsComplete
  exact fun h o => ⟨Claims.cvt_completes h o, Claims.pack_floats h o, Claims.unpack_completes h o, Claims.quant_floats h o,
    Claims.dequant_floats h o, Claims.pack4_done h o⟩
end

section
/-! Logic and bit operations (06 R119 to R123), and compares, predicate logic, selects and moves (06 R124 to R127): what each
instruction completes with. -/

namespace Sys2Proof.Claims

open Sys2Proof.Machine Sys2Proof.Machine.Ops Sys2Proof.Bits

/-! ### Runs that several logic instructions share -/

section
variable {i : Instr} {h : Hdr} {o : OpR}

/-- A shift by AUX or B (R121). -/
theorem done_of_shiftR {f : Nat → Nat → Nat → Nat} (hx : shapeOf i = some (.plain h (Shape.shift h o)))
    (he : ∀ s, exec i s = shiftR i h o f s) : done i (fun c => wrLanes c o.d (regsOf (width h))
      (fun l => f (width h) (rdW (width h) c o.a l) (shiftCount c o.aux o.b l))) :=
  done_of_doneN hx he

/-- A funnel shift by AUX or C (R121). -/
theorem done_of_funnelR {f : Nat → Nat → Nat → Nat} (hx : shapeOf i = some (.plain h (Shape.funnel o)))
    (he : ∀ s, exec i s = funnelR i h o f s) :
    done i (fun c => wrLanes c o.d 1 (fun l => f (rd c o.a l) (rd c o.b l) (shiftCount c o.aux o.c l))) :=
  done_of_doneN hx he

/-- A count of the bits of A, in one register (R119). -/
theorem done_of_countR {f : Nat → Nat → Nat} (hx : shapeOf i = some (.plain h [dst o.d, srcW (width h) o.a]))
    (he : ∀ s, exec i s = countR i h o f s) :
    done i (fun c => wrLanes c o.d 1 (fun l => f (width h) (rdW (width h) c o.a l))) :=
  done_of_doneN hx he

end

/-! ### Class 0x3: functions of the bits (R119, R120) -/

theorem and_binary (h : Hdr) (o : OpR) : binary (.and h o) h o (fun a b => a &&& b) :=
  binary_of_binaryR rfl fun s => Eq.refl (execAnd h o s)

theorem or_binary (h : Hdr) (o : OpR) : binary (.or h o) h o (fun a b => a ||| b) :=
  binary_of_binaryR rfl fun s => Eq.refl (execOr h o s)

theorem xor_binary (h : Hdr) (o : OpR) : binary (.xor h o) h o (fun a b => a ^^^ b) :=
  binary_of_binaryR rfl fun s => Eq.refl (execXor h o s)

theorem not_unary (h : Hdr) (o : OpR) : unary (.not h o) h o (Alu.not (width h)) :=
  unary_of_unaryR rfl fun s => Eq.refl (execNot h o s)

theorem tern_ternary (h : Hdr) (o : OpR) : ternary (.tern h o) h o (Alu.tern (width h) o.aux.toNat) :=
  ternary_of_ternaryR rfl fun s => Eq.refl (execTern h o s)

theorem bini_done (h : Hdr) (j : OpI) : done (.bini h j) (fun c => wrLanes c j.d (regsOf (width h)) (fun l =>
    Alu.bini (width h) (j.p.toNat + 8 * b2n j.pn) (rdW (width h) c j.a l) j.imm.toNat)) :=
  done_of_doneN rfl fun s => Eq.refl (execBini h j s)

/-! ### Class 0x3: shifts (R121) -/

theorem shl_done (h : Hdr) (o : OpR) : done (.shl h o) (fun c => wrLanes c o.d (regsOf (width h))
    (fun l => Alu.shl (width h) (rdW (width h) c o.a l) (shiftCount c o.aux o.b l))) :=
  done_of_shiftR rfl fun s => Eq.refl (execShl h o s)

theorem shr_done (h : Hdr) (o : OpR) : done (.shr h o) (fun c => wrLanes c o.d (regsOf (width h))
    (fun l => Alu.shr (width h) (rdW (width h) c o.a l) (shiftCount c o.aux o.b l))) :=
  done_of_shiftR rfl fun s => Eq.refl (execShr h o s)

theorem sra_done (h : Hdr) (o : OpR) : done (.sra h o) (fun c => wrLanes c o.d (regsOf (width h))
    (fun l => Alu.sra (width h) (rdW (width h) c o.a l) (shiftCount c o.aux o.b l))) :=
  done_of_shiftR rfl fun s => Eq.refl (execSra h o s)

theorem fsl_done (h : Hdr) (o : OpR) : done (.fsl h o)
    (fun c => wrLanes c o.d 1 (fun l => Alu.fsl (rd c o.a l) (rd c o.b l) (shiftCount c o.aux o.c l))) :=
  done_of_funnelR rfl fun s => Eq.refl (execFsl h o s)

theorem fsr_done (h : Hdr) (o : OpR) : done (.fsr h o)
    (fun c => wrLanes c o.d 1 (fun l => Alu.fsr (rd c o.a l) (rd c o.b l) (shiftCount c o.aux o.c l))) :=
  done_of_funnelR rfl fun s => Eq.refl (execFsr h o s)

/-! ### Class 0x3: counts, bit fields and permutations (R119, R122, R123) -/

theorem popc_done (h : Hdr) (o : OpR) :
    done (.popc h o) (fun c => wrLanes c o.d 1 (fun l => popcount (width h) (rdW (width h) c o.a l))) :=
  done_of_countR rfl fun s => Eq.refl (execPopc h o s)

theorem clz_done (h : Hdr) (o : OpR) :
    done (.clz h o) (fun c => wrLanes c o.d 1 (fun l => Alu.clz (width h) (rdW (width h) c o.a l))) :=
  done_of_countR rfl fun s => Eq.refl (execClz h o s)

theorem brev_unary (h : Hdr) (o : OpR) : unary (.brev h o) h o (Alu.brev (width h)) :=
  unary_of_unaryR rfl fun s => Eq.refl (execBrev h o s)

theorem bfx_done (h : Hdr) (o : OpR) : done (.bfx h o) (fun c => wrLanes c o.d (regsOf (width h))
    (fun l => Alu.bfx (Checks.fmt h) (rdW (width h) c o.a l) (rd c o.b l))) :=
  done_of_doneN rfl fun s => Eq.refl (execBfx h o s)

theorem bfi_done (h : Hdr) (o : OpR) : done (.bfi h o) (fun c => wrLanes c o.d (regsOf (width h))
    (fun l => Alu.bfi (width h) (rdW (width h) c o.a l) (rd c o.b l) (rdW (width h) c o.c l))) :=
  done_of_doneN rfl fun s => Eq.refl (execBfi h o s)

theorem perm_ternary1 (h : Hdr) (o : OpR) : ternary1 (.perm h o) o Alu.perm :=
  ternary1_of_ternaryS rfl fun s => Eq.refl (execPerm h o s)

/-! ### Class 0x4: compares and predicate logic (R124, R125) -/

theorem setp_done (h : Hdr) (o : OpR) : done (.setp h o) (fun c => wrPred c o.p (fun l =>
    Alu.setp (Checks.fmt h) (Checks.lo4 h) (rdW (width h) c o.a l) (rdW (width h) c o.b l))) :=
  doneFl_of_run rfl fun s => Eq.refl (execSetp h o s)

theorem setpi_done (h : Hdr) (j : OpI) : done (.setpi h j) (fun c => wrPred c j.p (fun l =>
    Alu.setp (Checks.fmt h) (Checks.lo4 h) (rdW (width h) c j.a l) (Alu.immVal (Checks.fmt h) j.imm.toNat))) :=
  doneFl_of_run rfl fun s => Eq.refl (execSetpi h j s)

/-- The flags of each lane's compare are written with its predicate (R124). -/
theorem fsetp_completes (h : Hdr) (o : OpR) :
    let r (c : Ctx) (l : Nat) := Alu.fsetp (Checks.fmt h) (Checks.lo4 h) (rd c o.a l) (rd c o.b l)
    doneFl (.fsetp h o) (fun c => wrPred c o.p (fun l => (r c l).1)) (fun c => flagLanes c (fun l => (r c l).2)) :=
  doneFl_of_run rfl fun s => Eq.refl (execFsetp h o s)

theorem plop_done (h : Hdr) (o : OpR) : done (.plop h o) (fun c => wrPred c o.p (fun l =>
    o.aux.toNat.testBit (b2n (predOf c o.a l) + 2 * b2n (predOf c o.b l) + 4 * b2n (predOf c o.c l)))) :=
  doneFl_of_run rfl fun s => Eq.refl (execPlop h o s)

/-! ### Class 0x4: selects and moves (R126, R127) -/

theorem sel_done (h : Hdr) (o : OpR) : done (.sel h o) (fun c => wrLanes c o.d (regsOf (moveWidth h)) (fun l =>
    if rdP c o.pn o.p l then rdW (moveWidth h) c o.a l else rdW (moveWidth h) c o.b l)) :=
  done_of_doneN rfl fun s => Eq.refl (execSel h o s)

theorem seli_done (h : Hdr) (j : OpI) :
    done (.seli h j) (fun c => wrLanes c j.d 1 (fun l => if rdP c j.pn j.p l then rd c j.a l else j.imm.toNat)) :=
  done_of_doneN rfl fun s => Eq.refl (execSeli h j s)

theorem mov_done (h : Hdr) (o : OpR) :
    done (.mov h o) (fun c => wrLanes c o.d (regsOf (moveWidth h)) (fun l => rdW (moveWidth h) c o.a l)) :=
  done_of_doneN rfl fun s => Eq.refl (execMov h o s)

theorem movi_done (h : Hdr) (j : OpI) : done (.movi h j) (fun c => wrLanes c j.d (regsOf (moveWidth h)) (fun _ =>
    if Checks.fmt h = 3 then wrap 64 (sext 32 j.imm.toNat) else j.imm.toNat)) :=
  done_of_doneN rfl fun s => Eq.refl (execMovi h j s)

theorem p2r_done (h : Hdr) (o : OpR) : done (.p2r h o) (fun c => wrLanes c o.d 1 (predBits c)) :=
  done_of_doneN rfl fun s => Eq.refl (execP2r h o s)

theorem regToPred_done (h : Hdr) (o : OpR) : done (.regToPred h o) (fun c => (lanesOf c.pass).flatMap (fun l =>
    ((upto 7).filter (fun i => o.aux.getLsbD i)).map (fun i => .p l i ((rd c o.a l).testBit i)))) :=
  doneFl_of_run rfl fun s => Eq.refl (execRegToPred h o s)

end Sys2Proof.Claims

/-- Settles O2: each instruction's effect ends as its lemma above says, in every context in which it is ready. -/
theorem Sys2Proof.logicInstructionsComplete : Obligations.LogicInstructionsComplete := by
  unfold Obligations.LogicInstructionsComplete
  exact fun h o j => ⟨Claims.and_binary h o, Claims.or_binary h o, Claims.xor_binary h o, Claims.not_unary h o,
    Claims.tern_ternary h o, Claims.bini_done h j, Claims.shl_done h o, Claims.shr_done h o, Claims.sra_done h o,
    Claims.fsl_done h o, Claims.fsr_done h o, Claims.popc_done h o, Claims.clz_done h o, Claims.brev_unary h o,
    Claims.bfx_done h o, Claims.bfi_done h o, Claims.perm_ternary1 h o⟩

/-- Settles O3: each instruction's effect ends as its lemma above says; `fsetp` alone has flags. -/
theorem Sys2Proof.compareAndMoveInstructionsComplete : Obligations.CompareAndMoveInstructionsComplete := by
  unfold Obligations.CompareAndMoveInstructionsComplete
  exact fun h o j => ⟨Claims.setp_done h o, Claims.setpi_done h j, Claims.fsetp_completes h o, Claims.plop_done h o,
    Claims.sel_done h o, Claims.seli_done h j, Claims.mov_done h o, Claims.movi_done h j, Claims.p2r_done h o,
    Claims.regToPred_done h o⟩
end

section
/-! Transfers of control (06 R128 to R133; 08 R172): each ends as a transfer of its lanes, or sets the pending reconvergence
address. -/

namespace Sys2Proof.Claims

open Sys2Proof.Machine Sys2Proof.Machine.Ops Sys2Proof.Bits

/-! ### Direct and indirect branches (R129, R130) -/

theorem bra_transfers (h : Hdr) (o : OpB) :
    transfers (.bra h o) (fun _ => True) (fun _ => []) (fun c => toAll c.pass (directTarget c.f.pc o)) :=
  transfers_of_transfer rfl (fun s => Eq.refl (execBra h o s)) fun _ _ => rfl

section
variable {i : Instr} {h : Hdr} {o : OpB}

/-- A branch of the whole fragment that is taken. -/
theorem transfers_of_branchAll {taken : Ctx → Bool} {ok : Ctx → Prop} (hx : shapeOf i = some (.plain h []))
    (he : ∀ s, exec i s = branchAll i h o taken s) (hk : ∀ c, ok c → taken c = true) :
    transfers i ok (fun _ => []) (fun c => toAll c.active (directTarget c.f.pc o)) :=
  transfers_of_transfer hx he fun c hc => if_pos (hk c hc)

/-- A branch of the whole fragment that is not taken. -/
theorem completes_of_branchAll {taken : Ctx → Bool} {ok : Ctx → Prop} (hx : shapeOf i = some (.plain h []))
    (he : ∀ s, exec i s = branchAll i h o taken s) (hk : ∀ c, ok c → taken c = false) :
    completes i ok (fun c => c.s) (fun _ => []) (fun _ => []) :=
  completes_of_done hx he fun c hc => if_neg (ne_true_of_eq_false (hk c hc))

/-- A branch to a register pair. -/
theorem transfers_of_branchX (hx : shapeOf i = some (.plain h [srcP o.a])) (he : ∀ s, exec i s = branchX i h o s) :
    transfers i (fun _ => True) (fun _ => []) (fun c => toPair c o.a) :=
  transfers_of_transfer hx he fun _ _ => rfl

end

theorem brall_transfers (h : Hdr) (o : OpB) : transfers (.brall h o) (fun c => c.pass = c.active) (fun _ => [])
    (fun c => toAll c.active (directTarget c.f.pc o)) :=
  transfers_of_branchAll rfl (fun s => Eq.refl (execBrall h o s)) fun _ hk => beq_iff_eq.2 hk

/-- Where the guard fails in some active lane, `brall` is not taken. -/
theorem brall_falls_through (h : Hdr) (o : OpB) :
    completes (.brall h o) (fun c => c.pass ≠ c.active) (fun c => c.s) (fun _ => []) (fun _ => []) :=
  completes_of_branchAll rfl (fun s => Eq.refl (execBrall h o s)) fun _ hk => beq_eq_false_iff_ne.2 hk

theorem brany_transfers (h : Hdr) (o : OpB) : transfers (.brany h o) (fun c => acts c = true) (fun _ => [])
    (fun c => toAll c.active (directTarget c.f.pc o)) :=
  transfers_of_branchAll rfl (fun s => Eq.refl (execBrany h o s)) fun _ hk => hk

theorem brx_transfers (h : Hdr) (o : OpB) : transfers (.brx h o) (fun _ => True) (fun _ => []) (fun c => toPair c o.a) :=
  transfers_of_branchX rfl fun s => Eq.refl (execBrx h o s)

/-! ### Calls and returns (R130, R131) -/

theorem call_transfers (h : Hdr) (o : OpB) : transfers (.call h o) (fun _ => True) (fun c => linkWrites c o.l)
    (fun c => toAll c.pass (directTarget c.f.pc o)) :=
  transfers_of_transfer rfl (fun s => Eq.refl (execCall h o s)) fun _ _ => rfl

theorem callx_transfers (h : Hdr) (o : OpB) :
    transfers (.callx h o) (fun _ => True) (fun c => linkWrites c o.l) (fun c => toPair c o.a) :=
  transfers_of_transfer rfl (fun s => Eq.refl (execCallx h o s)) fun _ _ => rfl

theorem ret_transfers (h : Hdr) (o : OpB) : transfers (.ret h o) (fun _ => True) (fun _ => []) (fun c => toPair c o.a) :=
  transfers_of_branchX rfl fun s => Eq.refl (execRet h o s)

/-! ### Loops and reconvergence (R132, R133) -/

/-- The counter of the first lane that counts, or no write where none does, is what a uniform counter gets (R132). -/
theorem loopWrites_eq (o : OpB) (c : Ctx) : loopWrites o c =
    if isUni o.a then (match loopLanes o c with
      | [] => []
      | l :: _ => wrN o.a 1 0 (rd c o.a l - 1))
    else (loopLanes o c).flatMap (fun l => wrN o.a 1 l (rd c o.a l - 1)) := by
  unfold loopWrites
  cases loopLanes o c <;> simp

theorem loop_transfers (h : Hdr) (o : OpB) : transfers (.loop h o) (fun _ => True) (loopWrites o) (loopBack o) :=
  transfers_of_transfer rfl (fun s => Eq.refl (execLoop h o s)) fun c _ => by
    rw [loopWrites_eq]
    rfl

theorem mrg_effects (h : Hdr) (o : OpB) : effects (.mrg h o) (fun c => acts c = true) (fun c => modGroup c.s c.key (fun g =>
    { g with frags := Maps.modify c.frag (fun f => { f with recon := some (directTarget c.f.pc o) }) g.frags })) :=
  completes_of_done rfl (fun s => Eq.refl (execMrg h o s)) fun _ ha => if_pos ha

/-- `mrgx` sets an address that passes the checks of a computed program counter (R133). -/
theorem mrgx_effects (h : Hdr) (o : OpB) :
    effects (.mrgx h o) (fun c => acts c = true ∧ badForm c c.s (BitVec.ofNat 64 (rdPair c o.a 0)) = none)
      (fun c => modGroup c.s c.key (fun g => { g with
        frags := Maps.modify c.frag (fun f => { f with recon := some (BitVec.ofNat 64 (rdPair c o.a 0)) }) g.frags })) :=
  completes_of_done rfl (fun s => Eq.refl (execMrgx h o s)) fun _ ⟨ha, hf⟩ => by simp only [ha, hf, if_true, setRecon]

end Sys2Proof.Claims

/-- Settles O8: each transfer places its lanes by R172, and `mrg` and `mrgx` set the pending reconvergence address. -/
theorem Sys2Proof.controlInstructionsComplete : Obligations.ControlInstructionsComplete := by
  unfold Obligations.ControlInstructionsComplete
  exact fun h o => ⟨Claims.bra_transfers h o, Claims.brall_transfers h o, Claims.brall_falls_through h o,
    Claims.brany_transfers h o, Claims.brx_transfers h o, Claims.call_transfers h o, Claims.callx_transfers h o,
    Claims.ret_transfers h o, Claims.loop_transfers h o, Claims.mrg_effects h o, Claims.mrgx_effects h o⟩
end

section
/-! Carries, addresses, function bytes and permutations as the rules give them (06 R116, R118, R120, R123). Each function of
Machine/Alu.lean is first said as its rule says it; the instruction then completes with it. -/

namespace Sys2Proof.Bits

theorem sext_eq_toInt (w n : Nat) : sext w n = (BitVec.ofNat w n).toInt := by
  have half : n % 2 ^ w < 2 ^ (w - 1) ↔ 2 * (n % 2 ^ w) < 2 ^ w := by
    cases w with
    | zero => simp [Nat.mod_one]
    | succ w => rw [Nat.add_sub_cancel, Nat.pow_succ]; omega
  simp only [sext, BitVec.toInt_eq_toNat_cond, BitVec.toNat_ofNat, half]

theorem wrap_eq_toNat (w : Nat) (x : Int) : wrap w x = (BitVec.ofInt w x).toNat := (BitVec.toNat_ofInt x).symm

/-- Two moduli lift a difference of two residues and a borrow to a natural number. -/
theorem wrap_sub_sub {w a b n : Nat} (hb : b < 2 ^ w) (hn : n < 2 ^ w) :
    wrap w ((a : Int) - b - n) = (a + 2 * 2 ^ w - b - n) % 2 ^ w := by
  have lifted : ((a + 2 * 2 ^ w - b - n : Nat) : Int) = (a : Int) - b - n + ((2 ^ w : Nat) : Int) * 2 := by omega
  have same : (a : Int) - b - n ≡ ((a + 2 * 2 ^ w - b - n : Nat) : Int) [ZMOD ((2 ^ w : Nat) : Int)] := by
    rw [lifted]
    exact (Int.add_mul_emod_self_left ..).symm
  rw [wrap, same, ← Int.natCast_emod, Int.toNat_natCast]

/-- A number is known from its bits. -/
theorem ofBitFn_eq {w x : Nat} {b : Nat → Bool} (hx : Claims.bitsAre w x b) : ofBitFn w b = x := by
  obtain ⟨hlt, hbits⟩ := hx
  refine Nat.eq_of_testBit_eq fun i => ?_
  by_cases hi : i < w
  · rw [testBit_ofBitFn b hi, hbits i hi]
  · have top : 2 ^ w ≤ 2 ^ i := Nat.pow_le_pow_right (by decide) (Nat.le_of_not_lt hi)
    rw [Nat.testBit_lt_two_pow ((ofBitFn_lt w b).trans_le top), Nat.testBit_lt_two_pow (hlt.trans_le top)]

theorem field_lt (n lo w : Nat) : field n lo w < 2 ^ w := Nat.mod_lt _ (Nat.two_pow_pos w)

/-- A number assembled from its bytes 0 to n - 1. -/
def ofByteFn (n : Nat) (f : Nat → Nat) : Nat := (upto n).foldl (fun acc i => acc + f i * 2 ^ (8 * i)) 0

theorem ofByteFn_succ (n : Nat) (f : Nat → Nat) : ofByteFn (n + 1) f = ofByteFn n f + f n * 2 ^ (8 * n) := by
  simp only [ofByteFn, upto, List.range_succ, List.foldl_append, List.foldl_cons, List.foldl_nil]

theorem ofByteFn_congr {n : Nat} {f g : Nat → Nat} (h : ∀ i, i < n → f i = g i) : ofByteFn n f = ofByteFn n g := by
  induction n with
  | zero => rfl
  | succ n ih => rw [ofByteFn_succ, ofByteFn_succ, ih fun i hi => h i (Nat.lt_succ_of_lt hi), h n (Nat.lt_succ_self n)]

/-- The bytes of a number assemble it. -/
theorem ofByteFn_field (n x : Nat) : ofByteFn n (fun i => field x (8 * i) 8) = x % 2 ^ (8 * n) := by
  induction n with
  | zero => exact (Nat.mod_one x).symm
  | succ n ih => rw [ofByteFn_succ, ih, Nat.mul_succ, Nat.pow_add, Nat.mod_mul, field, Nat.shiftRight_eq_div_pow,
      Nat.mul_comm (2 ^ (8 * n))]

end Sys2Proof.Bits

namespace Sys2Proof.Alu

open Sys2Proof.Bits Sys2Proof.Num

/-! ### Carries (R116) -/

theorem addc_of_lt {fmt a b : Nat} (cin : Bool) (ha : a < 2 ^ intWidth fmt) (hb : b < 2 ^ intWidth fmt) :
    addc fmt a b cin = ((a + b + b2n cin) % 2 ^ intWidth fmt, decide (2 ^ intWidth fmt ≤ a + b + b2n cin)) := by
  simp only [addc, Nat.mod_eq_of_lt ha, Nat.mod_eq_of_lt hb]

theorem subb_of_lt {fmt a b : Nat} (bin : Bool) (ha : a < 2 ^ intWidth fmt) (hb : b < 2 ^ intWidth fmt) :
    subb fmt a b bin = ((a + 2 * 2 ^ intWidth fmt - b - b2n bin) % 2 ^ intWidth fmt, decide (a < b + b2n bin)) := by
  have one : b2n bin < 2 ^ intWidth fmt := by
    have : 1 < 2 ^ intWidth fmt := Nat.one_lt_two_pow (Nat.mul_ne_zero (by decide) (Nat.two_pow_pos _).ne')
    cases bin <;> simp only [b2n, if_true, Bool.false_eq_true, if_false] <;> omega
  have borrow : (a : Int) - b - b2n bin < 0 ↔ a < b + b2n bin := by omega
  simp only [subb, Nat.mod_eq_of_lt ha, Nat.mod_eq_of_lt hb, wrap_sub_sub hb one, borrow]

/-! ### Addresses (R118) -/

/-- The index of `lea` as 64 bits: sign-extended for i32 and zero-extended for n32. -/
theorem ofInt_intVal {fmt : Nat} (hf : fmt = 2 ∨ fmt = 6) (b : Nat) : BitVec.ofInt 64 (intVal fmt b) =
    if fmt = 2 then (BitVec.ofNat 32 b).signExtend 64 else (BitVec.ofNat 32 b).zeroExtend 64 := by
  obtain rfl | rfl := hf
  · simp [intVal, intSigned, intWidth, sext_eq_toInt, BitVec.signExtend]
  · refine BitVec.eq_of_toNat_eq ?_
    simp [intVal, intSigned, intWidth]
    omega

theorem lea_eq {fmt : Nat} (hf : fmt = 2 ∨ fmt = 6) (a b s : Nat) : lea fmt a b s =
    (BitVec.ofNat 64 a + ((if fmt = 2 then (BitVec.ofNat 32 b).signExtend 64 else (BitVec.ofNat 32 b).zeroExtend 64) <<< s)).toNat := by
  have scaled : BitVec.ofInt 64 ((2 ^ s : Nat) : Int) = BitVec.twoPow 64 s := by
    rw [BitVec.ofInt_natCast]
    exact BitVec.eq_of_toNat_eq (by simp [BitVec.toNat_twoPow])
  rw [lea, wrap_eq_toNat, BitVec.ofInt_add, BitVec.ofInt_mul, BitVec.ofInt_natCast, ofInt_intVal hf, scaled,
    ← BitVec.shiftLeft_eq_mul_twoPow]

theorem leai_eq (a : Nat) (imm : BitVec 32) : leai a imm.toNat = (BitVec.ofNat 64 a + imm.signExtend 64).toNat := by
  rw [leai, wrap_eq_toNat, BitVec.ofInt_add, BitVec.ofInt_natCast, sext_eq_toInt, BitVec.ofNat_toNat, BitVec.setWidth_eq,
    BitVec.signExtend]

/-! ### Permutations (R123) -/

/-- Byte `n` of the eight bytes of A and B. -/
def poolByte (a b n : Nat) : Nat := if n < 4 then field a (8 * n) 8 else field b (8 * (n - 4)) 8

theorem poolByte_lt (a b n : Nat) : poolByte a b n < 2 ^ 8 := by
  unfold poolByte
  split <;> exact field_lt ..

theorem field_pool (a b : Nat) {n : Nat} (hn : n < 8) :
    field (a % 2 ^ 32 + b % 2 ^ 32 * 2 ^ 32) (8 * n) 8 = poolByte a b n := by
  simp only [poolByte, field, Nat.shiftRight_eq_div_pow]
  interval_cases n <;> simp only [Nat.reduceLT, if_true, if_false] <;> omega

/-- What a nibble of C selects: a byte of A or B, or eight copies of that byte's sign. -/
def permByte (a b nib : Nat) : Nat :=
  if nib < 8 then poolByte a b (nib % 8) else if poolByte a b (nib % 8) < 128 then 0 else 255

/-- The top bit of a number is set from half its range upward. -/
theorem testBit_top {w n : Nat} (hn : n < 2 ^ (w + 1)) : n.testBit w = decide (2 ^ w ≤ n) := by
  obtain hlt | hle := Nat.lt_or_ge n (2 ^ w)
  · rw [Nat.testBit_lt_two_pow hlt, decide_eq_false (Nat.not_le.2 hlt)]
  · rw [Nat.testBit_of_two_pow_le_and_two_pow_add_one_gt hle hn, decide_eq_true hle]

/-- The model's selection by bit 3 of the nibble and by the sign of the byte. -/
theorem select_eq_permByte (a b : Nat) {nib : Nat} (hn : nib < 2 ^ 4) :
    (if nib.testBit 3 then (if (poolByte a b (nib % 8)).testBit 7 then 255 else 0) else poolByte a b (nib % 8)) = permByte a b nib := by
  simp only [testBit_top hn, testBit_top (poolByte_lt a b (nib % 8)), permByte, decide_eq_true_eq, ← Nat.not_lt, ite_not, Nat.reducePow]

theorem perm_eq_ofByteFn (a b c : Nat) : perm a b c = ofByteFn 4 (fun i => permByte a b (field c (4 * i) 4)) := by
  have selected (i : Nat) := select_eq_permByte a b (field_lt c (4 * i) 4)
  have pool (i : Nat) := field_pool a b (Nat.mod_lt (field c (4 * i) 4) (show 0 < 8 by decide))
  simp only [perm, pool, selected, ofByteFn]

/-- The result of `perm` is the one number with these bytes. -/
theorem perm_eq_of_bytes {a b c x : Nat} (hx : x < 2 ^ 32) (h : ∀ i, i < 4 → field x (8 * i) 8 = permByte a b (field c (4 * i) 4)) :
    perm a b c = x := by
  rw [perm_eq_ofByteFn, ← ofByteFn_congr h, ofByteFn_field, Nat.mod_eq_of_lt hx]

end Sys2Proof.Alu

namespace Sys2Proof.Machine.Ops

open Sys2Proof.Num

section
variable {h : Hdr} (hf : Checks.fmt h = 6 ∨ Checks.fmt h = 7)
include hf

/-- The formats n32 and n64 have the width of one register and of a pair. -/
theorem width_of_natural : width h = 32 * (Checks.fmt h - 5) := by
  obtain hf | hf := hf <;> simp [width, intWidth, hf]

theorem regsOf_width_of_natural : regsOf (width h) = width h / 32 := by
  rw [width_of_natural hf]
  obtain hf | hf := hf <;> simp [regsOf, hf]

theorem rdW_lt_of_natural (c : Ctx) (r : BitVec 9) (l : Nat) : rdW (width h) c r l < 2 ^ width h := by
  rw [width_of_natural hf]
  obtain hf | hf := hf <;> simp only [rdW, hf, Nat.reduceSub, Nat.reduceMul, Nat.reduceEqDiff, if_true, if_false]
  · exact rd_lt c r l
  · exact rdPair_lt c r l

end

end Sys2Proof.Machine.Ops

namespace Sys2Proof.Claims

open Sys2Proof.Machine Sys2Proof.Machine.Ops Sys2Proof.Bits

theorem done_congr {i : Instr} {w w' : Ctx → List RegWrite} (hd : done i w) (hw : ∀ c, w c = w' c) : done i w' := funext hw ▸ hd

/-- A result may be given by another name for each lane's value. -/
theorem done_wrLanes_congr {i : Instr} {d : BitVec 9} {n : Nat} {f g : Ctx → Nat → Nat}
    (hd : done i (fun c => wrLanes c d n (f c))) (hfg : ∀ c l, f c l = g c l) : done i (fun c => wrLanes c d n (g c)) :=
  done_congr hd fun c => congrArg (wrLanes c d n) (funext (hfg c))

section
variable {h : Hdr} (hf : Checks.fmt h = 6 ∨ Checks.fmt h = 7)
include hf

theorem addc_done_of_natural (o : OpR) : done (.addc h o) (fun c =>
    wrLanes c o.d (width h / 32) (fun l => (rdW (width h) c o.a l + rdW (width h) c o.b l + b2n (rdP c o.pn o.p l)) % 2 ^ width h) ++
    wrPred c o.p (fun l => decide (2 ^ width h ≤ rdW (width h) c o.a l + rdW (width h) c o.b l + b2n (rdP c o.pn o.p l)))) :=
  done_congr (addc_carrying h o) fun c => by
    have sum (l : Nat) := Alu.addc_of_lt (fmt := Checks.fmt h) (rdP c o.pn o.p l) (rdW_lt_of_natural hf c o.a l)
      (rdW_lt_of_natural hf c o.b l)
    simp only [sum, regsOf_width_of_natural hf]
    rfl

theorem subb_done_of_natural (o : OpR) : done (.subb h o) (fun c =>
    wrLanes c o.d (width h / 32)
      (fun l => (rdW (width h) c o.a l + 2 * 2 ^ width h - rdW (width h) c o.b l - b2n (rdP c o.pn o.p l)) % 2 ^ width h) ++
    wrPred c o.p (fun l => decide (rdW (width h) c o.a l < rdW (width h) c o.b l + b2n (rdP c o.pn o.p l)))) :=
  done_congr (subb_carrying h o) fun c => by
    have difference (l : Nat) := Alu.subb_of_lt (fmt := Checks.fmt h) (rdP c o.pn o.p l) (rdW_lt_of_natural hf c o.a l)
      (rdW_lt_of_natural hf c o.b l)
    simp only [difference, regsOf_width_of_natural hf]
    rfl

/-- `tern` completes with any number that has the bits of its function byte (R120). -/
theorem tern_done_of_bits (o : OpR) {x : Ctx → Nat → Nat} (hx : ∀ c l, bitsAre (width h) (x c l) (fun i => o.aux.toNat.testBit
    (b2n ((rdW (width h) c o.a l).testBit i) + 2 * b2n ((rdW (width h) c o.b l).testBit i) +
      4 * b2n ((rdW (width h) c o.c l).testBit i)))) :
    done (.tern h o) (fun c => wrLanes c o.d (width h / 32) (x c)) := by
  rw [← regsOf_width_of_natural hf]
  exact done_wrLanes_congr (tern_ternary h o) fun c l => ofBitFn_eq (hx c l)

/-- `bini` completes with any number that has the bits of its function nibble (R120). -/
theorem bini_done_of_bits (j : OpI) {x : Ctx → Nat → Nat} (hx : ∀ c l, bitsAre (width h) (x c l) (fun i =>
    (j.p.toNat + 8 * b2n j.pn).testBit (b2n ((rdW (width h) c j.a l).testBit i) + 2 * b2n (j.imm.toNat.testBit i)))) :
    done (.bini h j) (fun c => wrLanes c j.d (width h / 32) (x c)) := by
  rw [← regsOf_width_of_natural hf]
  exact done_wrLanes_congr (bini_done h j) fun c l => ofBitFn_eq (hx c l)

end

/-- A scale above 31 is not an encoding of `lea` (R118). -/
theorem lea_not_wellFormed (h : Hdr) {o : OpR} (ho : 31 < o.aux.toNat) : Instr.wellFormed (.lea h o) = false := by
  have scale : decide (o.aux.toNat ≤ 31) = false := decide_eq_false (Nat.not_le.2 ho)
  simp only [Instr.wellFormed, Checks.legal, scale, Bool.and_false]

end Sys2Proof.Claims

open Sys2Proof.Claims in
/-- Settles O59: on n32 and n64 the operands are below 2^w, the addresses are sums of 64-bit vectors, and a number is known from its
bits or its bytes. -/
theorem Sys2Proof.carryAddressAndFunctionResults : Obligations.CarryAddressAndFunctionResults := by
  unfold Obligations.CarryAddressAndFunctionResults
  refine fun h o j => ⟨fun hf => ⟨Machine.Ops.width_of_natural hf, addc_done_of_natural hf o, subb_done_of_natural hf o,
      fun _ hx => tern_done_of_bits hf o hx, fun _ hx => bini_done_of_bits hf j hx⟩,
    fun hf => done_wrLanes_congr (lea_done h o) fun _ _ => Alu.lea_eq hf .., done_wrLanes_congr (leai_done h j) fun _ _ => Alu.leai_eq ..,
    lea_not_wellFormed h, fun _ hx => done_wrLanes_congr (perm_ternary1 h o) fun c l => ?_⟩
  obtain ⟨hlt, hbytes⟩ := hx c l
  exact Alu.perm_eq_of_bytes hlt hbytes
end

section
/-! Floating-point arithmetic (07 R141 to R151): what each instruction completes with, by the number of its operands and by whether
it works on packed elements. -/

namespace Sys2Proof.Claims

open Sys2Proof.Machine Sys2Proof.Machine.Ops Sys2Proof.Bits

/-! ### Runs that several floating-point instructions share -/

section
variable {i : Instr} {h : Hdr} {o : OpR}

theorem f1_of_float1 {f : Nat → Num.FRes} (hx : shapeOf i = some (.plain h [dst o.d, src o.a]))
    (he : ∀ s, exec i s = float1 i h o f s) : f1 i h o f :=
  floats_of_doneF hx he

theorem f2_of_float2 {f : Nat → Nat → Num.FRes} (hx : shapeOf i = some (.plain h [dst o.d, src o.a, src o.b]))
    (he : ∀ s, exec i s = float2 i h o f s) : f2 i h o f :=
  floats_of_doneF hx he

theorem f3_of_float3 {f : Nat → Nat → Nat → Num.FRes} (hx : shapeOf i = some (.plain h (Shape.terS o)))
    (he : ∀ s, exec i s = float3 i h o f s) : f3 i h o f :=
  floats_of_doneF hx he

/-- Without a third operand a packed run names D, A and B alone, and its function sees 0 for the element of C (R142). -/
theorem packed2_of_packedR {f : Num.FFmt → Nat → Nat → Num.FRes} (hx : shapeOf i = some (.plain h [dst o.d, src o.a, src o.b]))
    (he : ∀ s, exec i s = packedR i h o false (fun fm a b _ => f fm a b) s) : packed2 i h o f :=
  floats_of_doneF hx he

theorem packed3_of_packedR {f : Num.FFmt → Nat → Nat → Nat → Num.FRes} (hx : shapeOf i = some (.plain h (Shape.terS o)))
    (he : ∀ s, exec i s = packedR i h o true f s) : packed3 i h o f :=
  floats_of_doneF hx he

end

/-! ### Class 0x5: arithmetic of f32 values (R142, R143) -/

theorem fadd_f2 (h : Hdr) (o : OpR) : f2 (.fadd h o) h o (Alu.fadd Num.f32 (fMode h)) :=
  f2_of_float2 rfl fun s => Eq.refl (execFadd h o s)

theorem fsub_f2 (h : Hdr) (o : OpR) : f2 (.fsub h o) h o (Alu.fsub Num.f32 (fMode h)) :=
  f2_of_float2 rfl fun s => Eq.refl (execFsub h o s)

theorem fmul_f2 (h : Hdr) (o : OpR) : f2 (.fmul h o) h o (Alu.fmul Num.f32 (fMode h)) :=
  f2_of_float2 rfl fun s => Eq.refl (execFmul h o s)

theorem fma_f3 (h : Hdr) (o : OpR) : f3 (.fma h o) h o (Alu.fma Num.f32 (fMode h)) :=
  f3_of_float3 rfl fun s => Eq.refl (execFma h o s)

/-! ### Class 0x5: orders, rounding to integral and classification (R144 to R146) -/

theorem fmin_f2 (h : Hdr) (o : OpR) : f2 (.fmin h o) h o (Alu.fminmax false) :=
  f2_of_float2 rfl fun s => Eq.refl (execFmin h o s)

theorem fmax_f2 (h : Hdr) (o : OpR) : f2 (.fmax h o) h o (Alu.fminmax true) :=
  f2_of_float2 rfl fun s => Eq.refl (execFmax h o s)

theorem frnd_f1 (h : Hdr) (o : OpR) : f1 (.frnd h o) h o (Alu.frnd (fMode h)) :=
  f1_of_float1 rfl fun s => Eq.refl (execFrnd h o s)

/-- A classification sets no flag (R146). -/
theorem fclass_done (h : Hdr) (o : OpR) : done (.fclass h o) (fun c => wrLanes c o.d 1 (fun l => Alu.fclass (rd c o.a l))) :=
  done_of_doneN rfl fun s => Eq.refl (execFclass h o s)

/-! ### Class 0x5: packed elements (R142) -/

theorem fadd2_packed2 (h : Hdr) (o : OpR) : packed2 (.fadd2 h o) h o (fun f a b => Alu.fadd f (fMode h) a b) :=
  packed2_of_packedR rfl fun s => Eq.refl (execFadd2 h o s)

theorem fmul2_packed2 (h : Hdr) (o : OpR) : packed2 (.fmul2 h o) h o (fun f a b => Alu.fmul f (fMode h) a b) :=
  packed2_of_packedR rfl fun s => Eq.refl (execFmul2 h o s)

theorem fma2_packed3 (h : Hdr) (o : OpR) : packed3 (.fma2 h o) h o (fun f a b x => Alu.fma f (fMode h) a b x) :=
  packed3_of_packedR rfl fun s => Eq.refl (execFma2 h o s)

/-- The elements of A and B are packed, and C and D are f32 (R141). -/
theorem fdot2_f3 (h : Hdr) (o : OpR) : f3 (.fdot2 h o) h o (Alu.fdot2 (Alu.packFmt (fTy h)) (fMode h)) :=
  f3_of_float3 rfl fun s => Eq.refl (execFdot2 h o s)

/-! ### Class 0x5: transcendental instructions (R147 to R151) -/

theorem fex2_f1 (h : Hdr) (o : OpR) : f1 (.fex2 h o) h o Num.fex2 := f1_of_float1 rfl fun s => Eq.refl (execFex2 h o s)

theorem flg2_f1 (h : Hdr) (o : OpR) : f1 (.flg2 h o) h o Num.flg2 := f1_of_float1 rfl fun s => Eq.refl (execFlg2 h o s)

theorem frcp_f1 (h : Hdr) (o : OpR) : f1 (.frcp h o) h o Num.frcp := f1_of_float1 rfl fun s => Eq.refl (execFrcp h o s)

theorem frsq_f1 (h : Hdr) (o : OpR) : f1 (.frsq h o) h o Num.frsq := f1_of_float1 rfl fun s => Eq.refl (execFrsq h o s)

theorem fsin_f1 (h : Hdr) (o : OpR) : f1 (.fsin h o) h o Num.fsin := f1_of_float1 rfl fun s => Eq.refl (execFsin h o s)

theorem fcos_f1 (h : Hdr) (o : OpR) : f1 (.fcos h o) h o Num.fcos := f1_of_float1 rfl fun s => Eq.refl (execFcos h o s)

end Sys2Proof.Claims

/-- Settles O4: each instruction's effect ends as its lemma above says; `fclass` alone has no flags. -/
theorem Sys2Proof.floatInstructionsComplete : Obligations.FloatInstructionsComplete := by
  unfold Obligations.FloatInstructionsComplete
  exact fun h o => ⟨Claims.fadd_f2 h o, Claims.fsub_f2 h o, Claims.fmul_f2 h o, Claims.fma_f3 h o, Claims.fmin_f2 h o,
    Claims.fmax_f2 h o, Claims.frnd_f1 h o, Claims.fclass_done h o, Claims.fadd2_packed2 h o, Claims.fmul2_packed2 h o,
    Claims.fma2_packed3 h o, Claims.fdot2_f3 h o, Claims.fex2_f1 h o, Claims.flg2_f1 h o, Claims.frcp_f1 h o, Claims.frsq_f1 h o,
    Claims.fsin_f1 h o, Claims.fcos_f1 h o⟩
end

section
/-! Lane exchange, votes, folds and derivatives (09 R175 to R181): what each completes with. -/

namespace Sys2Proof.Claims

open Sys2Proof.Machine Sys2Proof.Machine.Ops Sys2Proof.Bits

/-! ### Class 0x7: shuffles (R176, R177) -/

theorem shfl_done (h : Hdr) (o : OpR) : done (.shfl h o) (fun c =>
    wrLanes c o.d (regsOf (width h)) (fun l => rdW (width h) c o.a ((shuffled h o c l).getD l)) ++
      wrPred c o.p (fun l => (shuffled h o c l).isSome)) :=
  doneFl_of_run rfl fun s => Eq.refl (execShfl h o s)

theorem shfli_done (h : Hdr) (j : OpI) : done (.shfli h j) (fun c =>
    wrLanes c j.d (regsOf (width h)) (fun l => rdW (width h) c j.a ((shuffledImm h j c l).getD l)) ++
      wrPred c j.p (fun l => (shuffledImm h j c l).isSome)) :=
  doneFl_of_run rfl fun s => Eq.refl (execShfli h j s)

/-! ### Class 0x7: votes, folds, matches and lane reads (R178, R179) -/

theorem vote_done (h : Hdr) (o : OpR) : done (.vote h o) (fun c => wrPred c o.p (fun _ => voted h o c)) :=
  doneFl_of_run rfl fun s => Eq.refl (execVote h o s)

theorem pmask_done (h : Hdr) (o : OpR) : done (.pmask h o)
    (fun c => wrLanes c o.d 1 (fun _ => maskOf ((lanesOf c.pass).filter (fun l => predOf c o.a l)))) :=
  done_of_doneN rfl fun s => Eq.refl (execPmask h o s)

theorem lfold_done (h : Hdr) (o : OpR) : done (.lfold h o)
    (fun c => wrLanes c o.d (regsOf (width h)) (fun _ => foldLanes c (exMode h) (Checks.fmt h) (width h) o.a)) :=
  done_of_doneN rfl fun s => Eq.refl (execLfold h o s)

theorem matchLanes_done (h : Hdr) (o : OpR) : done (.matchLanes h o) (fun c => wrLanes c o.d 1 (fun l =>
    maskOf ((lanesOf c.pass).filter (fun m => rdW (width h) c o.a m == rdW (width h) c o.a l)))) :=
  done_of_doneN rfl fun s => Eq.refl (execMatchLanes h o s)

/-- P says whether the lane that is read takes part; D is 0 where it does not. -/
theorem rdlane_done (h : Hdr) (o : OpR) :
    let n := field o.aux.toNat 0 3
    done (.rdlane h o) (fun c =>
      wrLanes c o.d (regsOf (width h)) (fun _ => if c.pass.testBit n then rdW (width h) c o.a n else 0) ++
        wrPred c o.p (fun _ => c.pass.testBit n)) :=
  doneFl_of_run rfl fun s => Eq.refl (execRdlane h o s)

/-! ### Class 0x7: derivatives (R180, R181) -/

/-- A condition that is not enabled, or that no lane meets, does not end the instruction. -/
theorem goesOn_of_disabled {enabled : Bool} {lanes : List Nat} {t r : Res} (h : enabled = false ∨ lanes = []) :
    (if (enabled && !lanes.isEmpty) = true then t else r) = r := by
  refine if_neg ?_
  obtain he | hl := h
  · simp [he]
  · simp [hl]

/-- Without an enabled trap a derivative completes: a pair that is not whole gives 0 and sets DERIV_INCOMPLETE. -/
theorem derives_of_derivative {i : Instr} {h : Hdr} {o : OpR} {y : Bool}
    (hx : shapeOf i = some (.plain h [(dst o.d).inVec, src o.a])) (he : ∀ s, exec i s = derivative i h o y s) :
    derives i h o y :=
  completes_of_done (body := derivativeEnd h o y) hx (fun s => (he s).trans (derivative_eq ..))
    fun _ hk => goesOn_of_disabled hk

theorem ddx_derives (h : Hdr) (o : OpR) : derives (.ddx h o) h o false :=
  derives_of_derivative rfl fun s => Eq.refl (execDdx h o s)

theorem ddy_derives (h : Hdr) (o : OpR) : derives (.ddy h o) h o true :=
  derives_of_derivative rfl fun s => Eq.refl (execDdy h o s)

end Sys2Proof.Claims

/-- Settles O6: each instruction's effect ends as its lemma above says; a derivative's end turns on the trap that is not enabled. -/
theorem Sys2Proof.exchangeInstructionsComplete : Obligations.ExchangeInstructionsComplete := by
  unfold Obligations.ExchangeInstructionsComplete
  exact fun h o j => ⟨Claims.shfl_done h o, Claims.shfli_done h j, Claims.vote_done h o, Claims.pmask_done h o,
    Claims.lfold_done h o, Claims.matchLanes_done h o, Claims.rdlane_done h o, Claims.ddx_derives h o, Claims.ddy_derives h o⟩
end

section
/-! Events of memory, rendezvous points, copy engines, queues and issue ports (08 R163 to R170; 09 R185, R190; 10 R202; 11 R211, R219,
R229; 13 R259 to R268): each finds what it names, and comes to the operation of its engine. -/

namespace Sys2Proof.Machine

open Sys2Proof.Bits
open Ops

namespace Ops

/-! ### CESPILLB, the base of a cluster's spill ring (13 R266) -/

theorem ctlTarget_cespillb {c : Nat} (hc : c < 64) : ctlTarget (clusterOff c + 0x200) 8 = some (.cespillb c) :=
  ctlTarget_of (ws := [8]) ((ctlReg_cluster c 0x200 hc (by decide)).trans rfl) rfl

/-- While the cluster's ring is empty, a write keeps the bits of the base. -/
theorem ctlWrite_cespillb {s : State} {c : Nat} (hp : s.power ≠ 4) (hc : c < 64) (hr : (cluster s c).spilled = []) (host : Bool)
    (value : Nat) : ctlWrite s host (clusterOff c + 0x200) 8 value = setCtl s (clusterOff c + 0x200) (value &&& (2 ^ 52 - 2 ^ 12)) := by
  simp only [ctlWrite, if_neg hp, ctlTarget_cespillb hc, hr, List.isEmpty_nil, if_true]

end Ops

section
variable {s : State} {n k : Nat}

/-! ### Rendezvous and sleep (09 R185, R190) -/

theorem exec_rendezvousArrivalCount {a : Arrival} (ha : s.arrivals.find? (fun x => x.id == n) = some a) :
    exec (.rendezvousArrivalCount n) s = .next (countArrival s a) := by
  change execRendezvousArrivalCount n s = _
  rw [execRendezvousArrivalCount, ha]

/-- Every fragment of the group whose time has passed wakes. -/
theorem exec_sleepExpiry {g : Group} (hg : group? s n = some g) :
    exec (.sleepExpiry n) s = .next { s with agenda := s.agenda ++ (g.frags.filter (fun e =>
      match e.2.stage with | .asleep t => decide (t ≤ s.now) | _ => false)).map (fun e => Act.wake n e.1) } := by
  change execSleepExpiry n s = _
  simp only [execSleepExpiry, hg] <;> rfl

/-! ### Stores, releases and swaps (11 R211, R219, R229) -/

/-- A store that may be performed, and that no earlier store of its lane to its control block precedes, is performed. -/
theorem exec_storePerform {p : PStore} (hp : s.stores.find? (fun x => x.id == n) = some p) (hm : mayPerform s p = true)
    (hb : ctlBehind s p = false) : exec (.storePerform n) s = .next (performPending s p) := by
  change execStorePerform n s = _
  simp [execStorePerform, hp, hm, hb]

/-- A release that holds is done with; that of a `fence.smp` drops the sampler lines once more (R225). -/
theorem exec_releaseComplete {r : Rel} (hr : s.rels.find? (fun x => x.id == n) = some r) (hh : releaseHolds s r = true) :
    exec (.releaseComplete n) s = .next
      (match r.smp with
       | some c => dropSampler { s with rels := s.rels.filter (fun x => x.id != n) } r.scope c
       | none => { s with rels := s.rels.filter (fun x => x.id != n) }) := by
  change execReleaseComplete n s = _
  simp only [execReleaseComplete, hr, hh, if_true] <;> rfl

theorem exec_publishSwap {p : Publish} (hp : s.publishes.find? (fun x => x.id == n) = some p) :
    exec (.publishSwap n) s = .next (swapPublish s p) := by
  change execPublishSwap n s = _
  rw [execPublishSwap, hp]

/-! ### Copies and the spill ring (13 R260, R262, R266) -/

theorem exec_copyChunkLand {x : Copy} (hx : (cluster s n).copies.find? (fun y => y.id == k) = some x) :
    exec (.copyChunkLand n k) s = .next (advanceCopy s n x) := by
  change execCopyChunkLand n k s = _
  rw [execCopyChunkLand, hx]

theorem exec_copySignalWrite {x : Copy} (hx : (cluster s n).copies.find? (fun y => y.id == k) = some x) :
    exec (.copySignalWrite n k) s = .next (signalCopy s n x) := by
  change execCopySignalWrite n k s = _
  rw [execCopySignalWrite, hx]

theorem exec_cespillbWrite (hp : s.power ≠ 4) (hn : n < 64) (hr : (cluster s n).spilled = []) :
    exec (.cespillbWrite n k) s = .next (setCtl s (clusterOff n + 0x200) (k &&& (2 ^ 52 - 2 ^ 12))) := by
  change execCespillbWrite n k s = _
  rw [execCespillbWrite, ctlWrite_cespillb hp hn hr]

end

end Sys2Proof.Machine

/-- Settles O24: an event that names something finds it, and comes by its lemma above to the operation; the others are the operation
of their engine in every state, and their meanings say so. -/
theorem Sys2Proof.memoryAndEngineEventsComplete : Obligations.MemoryAndEngineEventsComplete := by
  unfold Obligations.MemoryAndEngineEventsComplete
  intro s n k a b
  exact ⟨fun _ => Machine.exec_rendezvousArrivalCount, fun _ => Machine.exec_sleepExpiry, Eq.refl (Machine.execFifoWaitServed n k s),
    fun _ => Machine.exec_storePerform, fun _ => Machine.exec_releaseComplete, Eq.refl (Machine.execLongLatencyResultLand n s),
    fun _ hp _ _ _ => Machine.exec_publishSwap hp, Eq.refl (Machine.execCopyCommandStart n s), fun _ => Machine.exec_copyChunkLand,
    fun _ => Machine.exec_copySignalWrite, Eq.refl (Machine.execSpillRingRefill n s), Machine.exec_cespillbWrite,
    Eq.refl (Machine.execQueueSlotDispatch n s), Eq.refl (Machine.execTeamStart n k a b s),
    Eq.refl (Machine.execLaunchCompletionRecord n s), Eq.refl (Machine.execIssueCycle n k s),
    Eq.refl (Machine.execIssuePriorityPromotion n s), Eq.refl (Machine.execXfPipeGrant n s), Eq.refl (Machine.execXfPipeReply n s)⟩
end

section
/-! FIFO accesses (10 R201, R202; 12 R242): what each completes with once every bank that it names serves it. -/

namespace Sys2Proof.Claims

open Sys2Proof.Machine Sys2Proof.Machine.Ops

/-- An access whose checks pass and whose banks all serve it gives up its place among the waiters and has its effect. -/
theorem fifoAccess_go {c : Ctx} {o : OpM} {push place : Bool} {ps : List (Acc × Place)} {s1 : State}
    (hg : fifoGo c o push place ps s1) (effect : State → List (Nat × List Nat) → Res) :
    fifoAccess c o push place effect = effect (fifoLeft c o s1) (fifoBanks (laneAccs c o 4)) := by
  obtain ⟨⟨ha, hacc⟩, hlegal, hheld, hserved⟩ := hg
  simp only [fifoAccess, ha, hacc, hlegal, hheld, hserved, fifoLeft]
  rfl

/-- An instruction that is ready completes as its effect does. -/
theorem exec_of_done {i : Instr} {x : Shape} {body : Ctx → Res} {s s1 : State} {c : Ctx} {w : List RegWrite} {fl : List (Nat × Nat)}
    (hx : shapeOf i = some x) (he : exec i s = run i x.hdr x.marks x.opnds x.preds body s) (hr : readyFor s i = some c)
    (hb : body c = .done s1 w fl) : exec i s = .next (retire c x.marks s1 (nextSlot c.f.pc) w fl) :=
  he.trans (run_done (ready_of_readyFor hx hr) hb)

/-- Once its banks serve it, the FIFO access completes with the state and the register writes given, which it makes of its banks
with their lanes. -/
def fifoCompletes (i : Instr) (o : OpM) (push place : Bool) (m : Marks) (next : Ctx → State → List (Nat × List Nat) → State)
    (w : Ctx → State → List (Nat × List Nat) → List RegWrite) : Prop :=
  ∀ s c ps s1, readyFor s i = some c → fifoGo c o push place ps s1 →
    exec i s = .next (retire c m (next c (fifoLeft c o s1) (fifoBanks (laneAccs c o 4))) (nextSlot c.f.pc)
      (w c (fifoLeft c o s1) (fifoBanks (laneAccs c o 4))) [])

theorem fifoCompletes_of_fifoAccess {i : Instr} {x : Shape} {o : OpM} {push place : Bool}
    {next : Ctx → State → List (Nat × List Nat) → State} {w : Ctx → State → List (Nat × List Nat) → List RegWrite}
    (hx : shapeOf i = some x) (he : ∀ s, exec i s = run i x.hdr x.marks x.opnds x.preds
      (fun c => fifoAccess c o push place (fun s bs => .done (next c s bs) (w c s bs) [])) s) :
    fifoCompletes i o push place x.marks next w :=
  fun s _ _ _ hr hg => exec_of_done hx (he s) hr (fifoAccess_go hg _)

theorem fpush_completes (h : Hdr) (o : OpM) : fifoCompletes (.fpush h o) o true true mCopy
    (fun c s bs => kickBanks (fifoPushAll c o s bs) (clusterOf c.tm.core)) (fun _ _ _ => []) :=
  fifoCompletes_of_fifoAccess (i := .fpush h o) rfl fun s => Eq.refl (execFpush h o s)

theorem fpop_completes (h : Hdr) (o : OpM) : fifoCompletes (.fpop h o) o false true mSysC
    (fun c s bs => kickBanks (fifoDropAll c s bs) (clusterOf c.tm.core)) (fun c => fifoWrites c o) :=
  fifoCompletes_of_fifoAccess (i := .fpop h o) rfl fun s => Eq.refl (execFpop h o s)

/-- A peek takes no place among the waiters, and leaves every entry. -/
theorem fpeek_completes (h : Hdr) (o : OpM) :
    fifoCompletes (.fpeek h o) o false false mSys (fun _ s _ => s) (fun c => fifoWrites c o) :=
  fifoCompletes_of_fifoAccess (i := .fpeek h o) rfl fun s => Eq.refl (execFpeek h o s)

end Sys2Proof.Claims

/-- Settles O13: an access that its banks serve has its effect, and each instruction names the effect. -/
theorem Sys2Proof.fifoInstructionsComplete : Obligations.FifoInstructionsComplete := by
  unfold Obligations.FifoInstructionsComplete
  exact fun h o => ⟨Claims.fpush_completes h o, Claims.fpop_completes h o, Claims.fpeek_completes h o⟩
end

section
/-! Atomics and reductions (12 R244 to R250): what each completes with once nothing holds its steps back. -/

namespace Sys2Proof.Claims

open Sys2Proof.Machine Sys2Proof.Machine.Ops Sys2Proof.Bits

/-! ### The ends of accesses that pass their checks -/

section
variable {c : Ctx} {o : OpM} {ps : List (Acc × Place)} {s1 : State}

theorem atomLanes_done {n : Nat} (hs : reaches c o atomNeeds (laneAccs c o n) ps s1) (hb : stepBlocked c s1 ps = false)
    (f : Nat → Nat → Option Nat) : atomLanes c o n f =
      .done (placeSteps c n f ps s1).2 (stepWrites o (n / 4) (placeSteps c n f ps s1).1) (stepFlags ps) := by
  obtain ⟨ha, hacc⟩ := hs
  simp [atomLanes, ha, hacc, hb]

/-- An exchange of which no lane names a BANKMODE register is an atomic as any other. -/
theorem exchange_plain (hm : inMode c.f.stage = false) (hs : reaches c o atomNeeds (laneAccs c o 4) ps s1)
    (hp : ps.any (fun e => (bankOf e.2).isSome) = false) :
    exchange c o = atomLanes c o 4 (fun l _ => some (rd c o.data l)) := by
  obtain ⟨ha, hacc⟩ := hs
  unfold exchange
  dsimp only
  split
  · next hst => rw [hst] at hm; cases hm
  · simp [ha, hacc, hp]

/-- While its requests are under way, an exchange does what their outcomes say (10 R198). -/
theorem exchange_mode {id : Nat} (hst : c.f.stage = .mode id ps) (hl : placesLost c ps = false) :
    exchange c o = modesDone c o (fun l => rd c o.data l) id ps c.s := by
  simp [exchange, hst, hl]

/-- The outcomes of the mode requests of this instruction's lanes. -/
def modeOutcomes (c : Ctx) (g : Group) : List (Nat × Nat) := g.modeDone.filter (fun x => c.pass.testBit x.1)

/-- An outcome that is the old mode of a bank is no rejection and no timeout (10 R198). -/
theorem maskOf_outcomes_eq_zero {out : List (Nat × Nat)} (ho : out.all (fun x => decide (x.2 < 2 ^ 32)) = true) {code : Nat}
    (hc : 2 ^ 32 ≤ code) : maskOf ((out.filter (fun e => e.2 == code)).map Prod.fst) = 0 := by
  have hnone : out.filter (fun e => e.2 == code) = [] := List.filter_eq_nil_iff.2 fun e he hcode => by
    have hlt := of_decide_eq_true (List.all_eq_true.1 ho e he)
    have heq := beq_iff_eq.1 hcode
    omega
  rw [hnone]
  rfl

/-- Once every request has its outcome, none of them a trap, and the other lanes' steps can be made, the exchange is done. -/
theorem modesDone_done {s : State} {g : Group} {id : Nat} (v : Nat → Nat) (hg : group? s c.key = some g)
    (hall : (ps.filter (fun e => (bankOf e.2).isSome)).all (fun e => (modeOutcomes c g).any (fun x => x.1 == e.1.lane)) = true)
    (hok : (modeOutcomes c g).all (fun x => decide (x.2 < 2 ^ 32)) = true)
    (hw : stepsWait c s id (ps.filter (fun e => (bankOf e.2).isNone)) = false) :
    ∃ s1 w fl, modesDone c o v id ps s = .done s1 w fl := by
  have hrejected := maskOf_outcomes_eq_zero hok (code := 2 ^ 32 + 1) (by decide)
  have hlate := maskOf_outcomes_eq_zero hok (code := 2 ^ 32) (by decide)
  unfold modeOutcomes at hall hrejected hlate
  unfold modesDone
  simp only [hg, hall, hrejected, hlate, hw]
  exact ⟨_, _, _, rfl⟩

theorem redLanes_done {h : Hdr} {float : Bool} (hs : reaches c o (redNeeds [0, 1, 2]) (laneAccs c o (4 * fmtRegs (Checks.fmt h))) ps s1)
    (hb : stepBlocked c s1 ps = false) : redLanes c o h float false =
      .done (placeSteps c (4 * fmtRegs (Checks.fmt h)) (redStep h o float c) ps s1).2 [] (storeFlags ps) := by
  obtain ⟨ha, hacc⟩ := hs
  simp only [redLanes, ha, Bool.not_true, Bool.false_eq_true, if_false, hacc, hb]
  cases float <;> rfl

/-- While the buffer of its team has room, a deterministic reduction appends its entries (11 R223, 12 R249). -/
theorem redLanes_det_done {h : Hdr} {float : Bool} (hs : reaches c o (redNeeds [0]) (laneAccs c o (4 * fmtRegs (Checks.fmt h))) ps s1)
    (hroom : c.tm.dets.length + (detEntries h o float c ps).length ≤ 4096) : redLanes c o h float true =
      .done (countDet (modTeam s1 c.g.team (fun t => { t with dets := t.dets ++ detEntries h o float c ps })) c.key) []
        (storeFlags ps) := by
  obtain ⟨ha, hacc⟩ := hs
  simp only [redLanes, ha, if_true, hacc]
  exact if_neg (Nat.not_lt.2 hroom)

end

/-! ### The instructions -/

section
variable {i : Instr} {x : Shape} {h : Hdr} {o : OpM} {body : Ctx → Res}

theorem steps_of_atomLanes {ok : Ctx → List (Acc × Place) → Prop} {n : Nat} {f : Ctx → Nat → Nat → Option Nat}
    (hx : shapeOf i = some x) (he : ∀ s, exec i s = run i x.hdr x.marks x.opnds x.preds body s)
    (hb : ∀ c ps s1, reaches c o atomNeeds (laneAccs c o n) ps s1 → ok c ps → body c = atomLanes c o n (f c)) :
    steps i o ok n f := fun s c ps s1 hr hs hk hf => by
  rw [marksOf_eq hx]
  exact exec_of_done hx (he s) hr ((hb c ps s1 hs hk).trans (atomLanes_done hs hf _))

theorem reduces_of_redLanes {float : Bool} (hx : shapeOf i = some x)
    (he : ∀ s, exec i s = run i x.hdr x.marks x.opnds x.preds (fun c => redLanes c o h float false) s) :
    reduces i h o float := fun s c ps s1 hr hs hf => by
  rw [marksOf_eq hx]
  exact exec_of_done hx (he s) hr (redLanes_done hs hf)

theorem buffers_of_redLanes {float : Bool} (hx : shapeOf i = some x)
    (he : ∀ s, exec i s = run i x.hdr x.marks x.opnds x.preds (fun c => redLanes c o h float true) s) :
    buffers i h o float := fun s c ps s1 hr hs hroom => by
  rw [marksOf_eq hx]
  exact exec_of_done hx (he s) hr (redLanes_det_done hs hroom)

end

/-- The end of `atom`: the 32-bit exchange, or the step of another operation (R246). -/
def atomEnd (h : Hdr) (o : OpM) (c : Ctx) : Res :=
  if field h.mod.toNat 0 3 = 6 ∧ fmtRegs (Checks.fmt h) = 1 then exchange c o
  else atomLanes c o (4 * fmtRegs (Checks.fmt h))
    (fun l old => some (atomInt (field h.mod.toNat 0 3) (Checks.fmt h) old (rdData c o (fmtRegs (Checks.fmt h)) l)))

theorem exec_atom (h : Hdr) (o : OpM) (s : State) : exec (.atom h o) s = run (.atom h o) h mStoreC
    ([{ dataOpnd o (fmtRegs (Checks.fmt h)) with file := .vec, dest := true }] ++ addrOpnds o) [] (atomEnd h o) s :=
  Eq.refl (execAtom h o s)

theorem atom_steps (h : Hdr) (o : OpM) :
    let n := fmtRegs (Checks.fmt h)
    let op := field h.mod.toNat 0 3
    steps (.atom h o) o
      (fun c ps => op = 6 ∧ n = 1 → ps.any (fun e => (bankOf e.2).isSome) = false ∧ inMode c.f.stage = false) (4 * n)
      (fun c l old => some (if op = 6 ∧ n = 1 then rd c o.data l else atomInt op (Checks.fmt h) old (rdData c o n l))) :=
  steps_of_atomLanes rfl (exec_atom h o) fun c ps s1 hs hk => by
    unfold atomEnd
    split
    · next hx =>
      obtain ⟨hp, hm⟩ := hk hx
      rw [hx.2] at hs ⊢
      exact exchange_plain hm hs hp
    · rfl

/-- An exchange that has made its mode requests completes with their outcomes (10 R198). -/
theorem atom_mode_completes (h : Hdr) (o : OpM) {s : State} {c : Ctx} {ps : List (Acc × Place)} {id : Nat} {g : Group}
    (hr : readyFor s (.atom h o) = some c) (hop : field h.mod.toNat 0 3 = 6) (hn : fmtRegs (Checks.fmt h) = 1)
    (hst : c.f.stage = .mode id ps) (hl : placesLost c ps = false) (hg : group? c.s c.key = some g)
    (hall : (ps.filter (fun e => (bankOf e.2).isSome)).all (fun e => (modeOutcomes c g).any (fun x => x.1 == e.1.lane)) = true)
    (hok : (modeOutcomes c g).all (fun x => decide (x.2 < 2 ^ 32)) = true)
    (hw : stepsWait c c.s id (ps.filter (fun e => (bankOf e.2).isNone)) = false) :
    finishesWith (.atom h o) s c (modesDone c o (fun l => rd c o.data l) id ps c.s) := by
  obtain ⟨s1, w, fl, hd⟩ := modesDone_done (o := o) (fun l => rd c o.data l) hg hall hok hw
  exact ⟨s1, w, fl, hd, exec_of_done (i := .atom h o) rfl (exec_atom h o s) hr
    ((if_pos ⟨hop, hn⟩).trans ((exchange_mode hst hl).trans hd))⟩

theorem atomcas_steps (h : Hdr) (o : OpM) :
    steps (.atomcas h o) o (fun _ _ => True) (4 * fmtRegs (Checks.fmt h)) (casStep h o) :=
  steps_of_atomLanes (body := fun c => atomLanes c o (4 * fmtRegs (Checks.fmt h)) (casStep h o c)) rfl
    (fun s => Eq.refl (execAtomcas h o s)) fun _ _ _ _ _ => rfl

theorem atomf_steps (h : Hdr) (o : OpM) : steps (.atomf h o) o (fun _ _ => True) 4
    (fun c l old => some (atomFloat (field h.mod.toNat 0 2) (Checks.fmt h) old (rd c o.data l))) :=
  steps_of_atomLanes rfl (fun s => Eq.refl (execAtomf h o s)) fun _ _ _ _ _ => rfl

theorem red_reduces (h : Hdr) (o : OpM) : reduces (.red h o) h o false :=
  reduces_of_redLanes rfl fun s => Eq.refl (execRed h o s)

theorem redf_reduces (h : Hdr) (o : OpM) : reduces (.redf h o) h o true :=
  reduces_of_redLanes rfl fun s => Eq.refl (execRedf h o s)

theorem redDet_buffers (h : Hdr) (o : OpM) : buffers (.redDet h o) h o false :=
  buffers_of_redLanes rfl fun s => Eq.refl (execRedDet h o s)

theorem redfDet_buffers (h : Hdr) (o : OpM) : buffers (.redfDet h o) h o true :=
  buffers_of_redLanes rfl fun s => Eq.refl (execRedfDet h o s)

theorem dflush_effects (h : Hdr) (x : OpS) : effects (.dflush h x)
    (fun c => acts c = true ∧ c.tm.dets ≠ [] ∧ detsBlocked c.s c.tm = false ∧ storeGate c.s c.key = none)
    (fun c => drainDets c.s c.g.team (some c.key)) :=
  completes_of_done rfl (fun s => Eq.refl (execDflush h x s)) fun c ⟨ha, hd, hb, hg⟩ => by simp [ha, hd, hb, hg]

end Sys2Proof.Claims

/-- Settles O14: each instruction's effect ends as its lemma above says; the exchange on BANKMODE ends with the outcomes of its
requests, and any other one as an atomic. -/
theorem Sys2Proof.atomicInstructionsComplete : Obligations.AtomicInstructionsComplete := by
  unfold Obligations.AtomicInstructionsComplete
  exact fun h o x => ⟨Claims.atom_steps h o,
    fun _ _ _ _ _ hr hop hn hst hl hg ⟨hall, hok⟩ hw => Claims.atom_mode_completes h o hr hop hn hst hl hg hall hok hw,
    Claims.atomcas_steps h o, Claims.atomf_steps h o, Claims.red_reduces h o, Claims.redf_reduces h o, Claims.redDet_buffers h o,
    Claims.redfDet_buffers h o, Claims.dflush_effects h x⟩
end

section
/-! Reset (10 R197, R198, R207; 11 R215; 14 R290; 16 R321; 24 R426): the control registers that do not start at 0. -/

namespace Sys2Proof.Machine.Ops

/-- The reset value of a register of a die's block is that of its offset in the block. -/
theorem ctlReset_die (d : Nat) {o : Nat} (ho : o < 0x04000000) : State.ctlReset (dieOff d + o) =
    if o = 0x100 then 0x24
    else if o = 0x104 then 0x24
    else if o = 0x108 then 0x12
    else if o = 0x10C then 0x32
    else if o = 0x110 then 0x1000
    else if 0x00100000 ≤ o ∧ o < 0x00900000 ∧ o % 0x00100000 = 0x80 then 0x00100000
    else if 0x01000000 ≤ o ∧ (o - 0x01000000) % 0x00080000 = 0x300 then 0x0100
    else 0 := by
  have hoff : (dieOff d + o) % 0x04000000 = o := by unfold dieOff; omega
  have hlow : ∀ n, n < 0x04000000 → dieOff d + o ≠ n := fun n hn => by unfold dieOff; omega
  have hblock : ¬ dieOff d + o < 0x04000000 := by unfold dieOff; omega
  simp only [State.ctlReset, hlow, hblock, hoff, or_self, if_false, Nat.reduceLT]

/-- No control register is listed at reset. -/
theorem ctl_reset (off : Nat) : ctl State.reset off = State.ctlReset off := rfl

/-- The classes of the L2 (10 R207) and LEASE (11 R215), of every die. -/
theorem ctl_reset_die (d : Nat) :
    ctl State.reset (dieOff d + 0x100) = 0x24 ∧ ctl State.reset (dieOff d + 0x104) = 0x24 ∧
    ctl State.reset (dieOff d + 0x108) = 0x12 ∧ ctl State.reset (dieOff d + 0x10C) = 0x32 ∧
    ctl State.reset (dieOff d + 0x110) = 0x1000 := by
  refine ⟨?_, ?_, ?_, ?_, ?_⟩ <;> rw [ctl_reset, ctlReset_die d (by decide)] <;> rfl

/-- BMTIMEOUT of every cluster (10 R198). -/
theorem ctl_reset_bmtimeout (c : Nat) : ctl State.reset (clusterOff c + 0x80) = 0x00100000 := by
  have hoff : clusterOff c + 0x80 = dieOff (c / 8) + (0x00100000 * (c % 8 + 1) + 0x80) := by unfold clusterOff; omega
  rw [ctl_reset, hoff, ctlReset_die _ (by omega),
    if_neg (by omega), if_neg (by omega), if_neg (by omega), if_neg (by omega), if_neg (by omega), if_pos (by omega)]

/-- NVCTL of every core (16 R321). -/
theorem ctl_reset_nvctl (k : Nat) : ctl State.reset (coreOff k + 0x300) = 0x0100 := by
  have hoff : coreOff k + 0x300 = dieOff (k / 64) + (0x01000000 + k % 64 * 0x00080000 + 0x300) := by unfold coreOff; omega
  rw [ctl_reset, hoff, ctlReset_die _ (by omega),
    if_neg (by omega), if_neg (by omega), if_neg (by omega), if_neg (by omega), if_neg (by omega), if_neg (by omega),
    if_pos (by omega)]

end Sys2Proof.Machine.Ops

open Sys2Proof.Machine Sys2Proof.Machine.Ops in
/-- Settles O41: reset lists no register and no resident, so that each reads at its unlisted value; those of the control region
stand in `State.ctlReset`. -/
theorem Sys2Proof.resetState : Obligations.ResetState := by
  unfold Obligations.ResetState
  exact ⟨wf_reset, rfl, rfl, rfl, rfl, rfl, rfl, rfl, rfl, fun _ _ => ⟨rfl, rfl⟩, fun _ => ⟨rfl, rfl⟩, fun _ => ⟨rfl, rfl⟩,
    fun d _ => ctl_reset_die d, fun c _ => ctl_reset_bmtimeout c, fun k _ => ctl_reset_nvctl k⟩
end

section
/-! Events of the outside world (11 R224, R231; 26 R443 to R448): each is the operation of the device that takes it; BOOTCTL and PWRCTL
take theirs as registers of the hub block. -/

namespace Sys2Proof.Machine

open Ops

namespace Ops

theorem ctlTarget_bootctl : ctlTarget 0xC8 8 = some .bootctl := ctlTarget_of (ws := [4, 8]) rfl rfl

theorem ctlTarget_pwrctl : ctlTarget 0x140 8 = some .pwrctl := ctlTarget_of (ws := [4, 8]) rfl rfl

/-- In minimal mode a write of BOOTCTL with bit 0 set boots the device again (26 R447). -/
theorem writeBootctl_restarts {s : State} {value : Nat} (hv : value.testBit 0 = true) (hm : s.minimal = true) :
    writeBootctl s value = { restart s true with fails := 0 } := by
  rw [writeBootctl, hv, hm]
  rfl

/-- A host write that lies in host memory takes the device's copy away (11 R224). -/
theorem hostStore_inside {s : State} {addr : Nat} {bs : List Byte} (hfirst : windowOf addr = .host)
    (hlast : windowOf (addr + bs.length - 1) = .host) : hostStore s addr bs =
      { writeBytes s addr bs with hostLines := s.hostLines.filter (fun e => !meets (e.1 * 128) 128 addr bs.length) } :=
  if_neg (by rw [hfirst, hlast]; exact not_or_intro (not_not_intro rfl) (not_not_intro rfl))

end Ops

theorem exec_hostCacheInvalidate {s : State} {n : Nat} {bs : List Byte} (hfirst : windowOf n = .host)
    (hlast : windowOf (n + bs.length - 1) = .host) : exec (.hostCacheInvalidate n bs) s =
      .next { writeBytes s n bs with hostLines := s.hostLines.filter (fun e => !meets (e.1 * 128) 128 n bs.length) } :=
  congrArg Host.Outcome.next (hostStore_inside hfirst hlast)

theorem exec_bootctlRestart {s : State} {n : Nat} (hp : s.power ≠ 4) (hv : n.testBit 0 = true) (hm : s.minimal = true) :
    exec (.bootctlRestart n) s = .next { restart s true with fails := 0 } := by
  change execBootctlRestart n s = _
  simp only [execBootctlRestart, ctlWrite, if_neg hp, ctlTarget_bootctl, writeBootctl_restarts hv hm]

theorem exec_powerStateRequest {s : State} {n : Nat} (hp : s.power ≠ 4) :
    exec (.powerStateRequest n) s = .next (writePwrctl s n) := by
  change execPowerStateRequest n s = _
  simp only [execPowerStateRequest, ctlWrite, if_neg hp, ctlTarget_pwrctl]

end Sys2Proof.Machine

/-- Settles O28: the registers take their writes in the hub block, a host write in host memory passes its check, and the other
events are the operations themselves. -/
theorem Sys2Proof.outsideEventsComplete : Obligations.OutsideEventsComplete := by
  unfold Obligations.OutsideEventsComplete
  intro s n k a bs err ck acc
  exact ⟨Eq.refl (Machine.execHostMemWrite n bs s), Eq.refl (Machine.execHostMemRead n k s), Machine.exec_hostCacheInvalidate,
    Eq.refl (Machine.execPhoathFlitResend n s), Eq.refl (Machine.execEccRetry err s), Eq.refl (Machine.execBootStart ck s),
    Eq.refl (Machine.execBootWatchdog s), Machine.exec_bootctlRestart, Machine.exec_powerStateRequest,
    Eq.refl (Machine.execRegisterWrite n k a s), Eq.refl (Machine.execPhoathRemoteAccess acc s)⟩
end

section
/-! Fences and `fwait` (12 R251; 11 R219 to R225): which release each begins, and what it completes with. -/

namespace Sys2Proof.Claims

open Sys2Proof.Machine Sys2Proof.Machine.Ops

/-- While no access of its group is open, an acquire only advances (R222). -/
theorem fenceAcq_advances (h : Hdr) (x : OpS) :
    effects (.fenceAcq h x) (fun c => acts c = true → accessOpen c.s c.key = false) (fun c => c.s) :=
  completes_of_done rfl (fun s => Eq.refl (execFenceAcq h x s)) fun c hopen => by
    cases ha : acts c with
    | false => rfl
    | true => simp [hopen ha, noEffect]

/-- An acquire after accesses that are not complete begins a release that waits for these alone (R220). -/
theorem fenceAcq_waitsForAccesses (h : Hdr) (x : OpS) :
    effects (.fenceAcq h x) (fun c => acts c = true ∧ accessOpen c.s c.key = true) (fun c =>
      let s1 := (beginRelease c.s c h.sc.toNat 2).2
      { s1 with rels := s1.rels.map (fun r => if r.id = c.s.uid then { r with acq := true } else r) }) :=
  completes_of_done rfl (fun s => Eq.refl (execFenceAcq h x s)) fun c ⟨ha, hopen⟩ => by
    rw [ha, hopen]
    rfl

theorem fenceRel_begins (h : Hdr) (x : OpS) :
    effects (.fenceRel h x) (fun c => acts c = true) (fun c => (beginRelease c.s c h.sc.toNat 1).2) :=
  completes_of_done rfl (fun s => Eq.refl (execFenceRel h x s)) fun _ ha => if_pos ha

theorem fenceAr_begins (h : Hdr) (x : OpS) :
    effects (.fenceAr h x) (fun c => acts c = true) (fun c => (beginRelease c.s c h.sc.toNat 2).2) :=
  completes_of_done rfl (fun s => Eq.refl (execFenceAr h x s)) fun _ ha => if_pos ha

/-- `fence.smp` drops the sampler lines in its scope, and its release will drop them once more (R225). -/
theorem fenceSmp_begins (h : Hdr) (x : OpS) :
    effects (.fenceSmp h x) (fun c => acts c = true) (fun c =>
      let s1 := (beginRelease (dropSampler c.s h.sc.toNat c.tm.core) c h.sc.toNat 2).2
      { s1 with rels := s1.rels.map (fun r => if r.id = c.s.uid then { r with smp := some c.tm.core } else r) }) :=
  completes_of_done rfl (fun s => Eq.refl (execFenceSmp h x s)) fun _ ha => if_pos ha

theorem fwait_begins (h : Hdr) (x : OpS) :
    waits (.fwait h x) (fun c => c.f.stage = .fresh ∧ acts c = true)
      (fun c => setStage c (beginRelease c.s c h.sc.toNat 3).2 (.release c.s.uid)) :=
  waits_of_wait rfl (fun s => Eq.refl (execFwait h x s)) fun c ⟨hf, ha⟩ => by
    rw [hf, ha]
    rfl

theorem fwait_completes (h : Hdr) (x : OpS) (id : Nat) :
    effects (.fwait h x) (fun c => c.f.stage = .release id ∧ released c.s id = true) (fun c => c.s) :=
  completes_of_done rfl (fun s => Eq.refl (execFwait h x s)) fun c ⟨hf, hd⟩ => by
    simp only [hf, hd, if_true, noEffect]

end Sys2Proof.Claims

/-- Settles O15: each fence begins its release or only advances, and `fwait` completes once its release has. -/
theorem Sys2Proof.fenceInstructionsComplete : Obligations.FenceInstructionsComplete := by
  unfold Obligations.FenceInstructionsComplete
  exact fun h x => ⟨Claims.fenceAcq_advances h x, Claims.fenceAcq_waitsForAccesses h x, Claims.fenceRel_begins h x,
    Claims.fenceAr_begins h x, Claims.fenceSmp_begins h x, Claims.fwait_begins h x, Claims.fwait_completes h x⟩
end

section
/-! Stores (12 R238 to R240): each accepts one store for every place of its accesses. -/

namespace Sys2Proof.Claims

open Sys2Proof.Machine Sys2Proof.Machine.Ops Sys2Proof.Bits

section
variable {c : Ctx} {o : OpM} {ps : List (Acc × Place)} {s1 : State} {bytes : Nat}

theorem storeLanes_done (hs : reaches c o (storeNeeds [0, 1, 2]) (laneAccs c o bytes) ps s1) (l2 : Bool) (n : Nat) :
    storeLanes c o l2 bytes n =
      .done (storePlaces c l2 (storeGate s1 c.key) (fun a => toBytes bytes (rdData c o n a.lane)) ps s1) [] (storeFlags ps) := by
  obtain ⟨ha, hacc⟩ := hs
  simp [storeLanes, ha, hacc]

theorem storeOnce_done (hs : reaches c o (storeNeeds [0, 1, 2]) (uniAccs c o bytes) ps s1) (l2 : Bool) (n : Nat) :
    storeOnce c o l2 bytes n = .done
      (ps.foldl (fun s e => storePlace c l2 s 8 0 (toBytes bytes (rdData c o n 0)) (storeGate s c.key) e.2) s1) []
      ((ps.flatMap (fun e => (lanesOf c.pass).map (fun l => (l, policyFlags e.2 &&& lsFaulted)))).filter (fun e => e.2 != 0)) := by
  obtain ⟨ha, hacc⟩ := hs
  simp [storeOnce, ha, hacc]

end

theorem stores_of_storeLanes {i : Instr} {x : Shape} {o : OpM} {l2 : Bool} {bytes n : Nat} (hx : shapeOf i = some x)
    (he : ∀ s, exec i s = run i x.hdr x.marks x.opnds x.preds (fun c => storeLanes c o l2 bytes n) s) :
    stores i o l2 bytes n := fun s c ps s1 hr hs => by
  rw [marksOf_eq hx]
  exact exec_of_done hx (he s) hr (storeLanes_done hs l2 n)

theorem st_stores (h : Hdr) (o : OpM) : stores (.st h o) o (l2Only h) (fmtBytes (Checks.fmt h)) (fmtRegs (Checks.fmt h)) :=
  stores_of_storeLanes rfl fun s => Eq.refl (execSt h o s)

theorem stw_stores (h : Hdr) (o : OpM) : stores (.stw h o) o (l2Only h) (4 * wideRegs h) (wideRegs h) :=
  stores_of_storeLanes rfl fun s => Eq.refl (execStw h o s)

/-- The stores of a `strel` wait for the release that it begins (R240). -/
theorem strel_completes (h : Hdr) (o : OpM) {s : State} {c : Ctx} {ps : List (Acc × Place)} {s1 : State}
    (hr : readyFor s (.strel h o) = some c)
    (hs : reaches c o (storeNeeds [0, 1, 2]) (laneAccs c o (fmtBytes (Checks.fmt h))) ps s1) :
    exec (.strel h o) s = .next (retire c mStore
      (storePlaces c (l2Only h) (some s1.uid)
        (fun a => toBytes (fmtBytes (Checks.fmt h)) (rdData c o (fmtRegs (Checks.fmt h)) a.lane)) ps (beginRelease s1 c h.sc.toNat 0).2)
      (nextSlot c.f.pc) [] (storeFlags ps)) := by
  obtain ⟨ha, hacc⟩ := hs
  have hend : strelEnd h o c = .done
      (storePlaces c (l2Only h) (some s1.uid)
        (fun a => toBytes (fmtBytes (Checks.fmt h)) (rdData c o (fmtRegs (Checks.fmt h)) a.lane)) ps (beginRelease s1 c h.sc.toNat 0).2)
      [] (storeFlags ps) := by
    simp only [strelEnd, ha, Bool.not_true, Bool.false_eq_true, if_false, hacc]
    rfl
  exact exec_of_done (x := ⟨h, mStore, _, _, _⟩) (body := strelEnd h o) rfl (Eq.refl (execStrel h o s)) hr hend

/-- A uniform store is made by no lane, which the number 8 stands for (R238). -/
theorem stk_completes (h : Hdr) (o : OpM) {s : State} {c : Ctx} {ps : List (Acc × Place)} {s1 : State}
    (hr : readyFor s (.stk h o) = some c)
    (hs : reaches c o (storeNeeds [0, 1, 2]) (uniAccs c o (fmtBytes (Checks.fmt h))) ps s1) :
    exec (.stk h o) s = .next (retire c mStore
      (ps.foldl (fun s e => storePlace c (l2Only h) s 8 0
        (toBytes (fmtBytes (Checks.fmt h)) (rdData c o (fmtRegs (Checks.fmt h)) 0)) (storeGate s c.key) e.2) s1)
      (nextSlot c.f.pc) []
      ((ps.flatMap (fun e => (lanesOf c.pass).map (fun l => (l, policyFlags e.2 &&& lsFaulted)))).filter (fun e => e.2 != 0))) :=
  exec_of_done (x := ⟨h, mStore, _, _, _⟩)
    (body := fun c => storeOnce c o (l2Only h) (fmtBytes (Checks.fmt h)) (fmtRegs (Checks.fmt h)))
    rfl (Eq.refl (execStk h o s)) hr (storeOnce_done hs _ _)

end Sys2Proof.Claims

/-- Settles O12: each store accepts the stores of its places; those of a `strel` stand behind the release that it begins. -/
theorem Sys2Proof.storeInstructionsComplete : Obligations.StoreInstructionsComplete := by
  unfold Obligations.StoreInstructionsComplete
  exact fun h o => ⟨Claims.st_stores h o, Claims.stw_stores h o, fun _ _ _ _ => Claims.strel_completes h o,
    fun _ _ _ _ => Claims.stk_completes h o⟩
end

section
/-! Loads and `pref` (12 R237 to R243): each binds the bytes of its places when it issues. -/

namespace Sys2Proof.Machine.Ops

/-- The state that reads leave: copies of lines, the host's lines that dies hold, sampler lines and the count of free values may have
changed, and nothing else. -/
def OnlyReads (s t : State) : Prop :=
  t = { s with copies := t.copies, hostLines := t.hostLines, cores := t.cores, fresh := t.fresh }

namespace OnlyReads

variable {s t u : State}

theorem refl (s : State) : OnlyReads s s := rfl

theorem trans (h : OnlyReads s t) (k : OnlyReads t u) : OnlyReads s u := by
  unfold OnlyReads at *
  rw [k, h]

theorem mem (h : OnlyReads s t) : t.mem = s.mem := by rw [h]

theorem groups (h : OnlyReads s t) : t.groups = s.groups := by rw [h]

theorem teams (h : OnlyReads s t) : t.teams = s.teams := by rw [h]

theorem stores (h : OnlyReads s t) : t.stores = s.stores := by rw [h]

end OnlyReads

theorem onlyReads_serveDie (s : State) (d home pa : Nat) : OnlyReads s (serveDie s d home pa).2 := by
  unfold serveDie
  dsimp only
  generalize (if home = d then none else usableCopy s (l2Holder d) (pa / 128)) = hit
  cases hit with
  | some c => exact .refl s
  | none =>
    repeat' split
    all_goals rfl

theorem onlyReads_serveLine (s : State) (core home pa leaf : Nat) (l2only : Bool) :
    OnlyReads s (serveLine s core home pa leaf l2only).2 := by
  unfold serveLine
  dsimp only
  generalize (!l2only && ccOf leaf == 0 && hasCache s (clusterOf core)) = keeps
  have hkept : OnlyReads s (if keeps then s else dropClean s (clusterOf core) (pa / 128)) := by cases keeps <;> rfl
  generalize (if keeps then s else dropClean s (clusterOf core) (pa / 128)) = s0 at hkept ⊢
  have hdie := hkept.trans (onlyReads_serveDie s0 (dieOf core) home pa)
  split
  · exact .refl s
  · split
    · dsimp only
      split <;> rfl
    · split
      · rfl
      · split
        · split
          · exact hkept
          · exact hdie
        · dsimp only
          split
          · exact hdie.trans rfl
          · exact hdie

theorem onlyReads_loadMem (s : State) (core pa leaf n : Nat) (l2only : Bool) : OnlyReads s (loadMem s core pa leaf n l2only).2 := by
  unfold loadMem
  split
  · exact .refl s
  · exact onlyReads_serveLine ..

theorem onlyReads_loadSampler (s : State) (core pa leaf n : Nat) : OnlyReads s (loadSampler s core pa leaf n).2 := by
  unfold loadSampler
  dsimp only
  repeat' split
  all_goals rfl

end Sys2Proof.Machine.Ops

namespace Sys2Proof.Claims

open Sys2Proof.Machine Sys2Proof.Machine.Ops Sys2Proof.Bits

/-! ### The ends of loads -/

section
variable {c : Ctx} {o : OpM} {ps : List (Acc × Place)} {s1 : State} {l2 : Bool} {bytes n : Nat} {value : List Byte → Nat}

theorem loadLanes_done {spaces : List Nat} (hs : reaches c o (loadNeeds o spaces) (laneAccs c o bytes) ps s1) (hq : readable c ps) :
    loadLanes c o spaces l2 bytes n value = .done (loadPlaces c (o.space == 4) l2 false ps s1).2
      ((loadPlaces c (o.space == 4) l2 false ps s1).1.flatMap (fun e => wrN o.data n e.1.lane (loadResult n value e.2.1 e.2.2)))
      (((loadPlaces c (o.space == 4) l2 false ps s1).1.map (fun e => (e.1.lane, policyFlags e.2.1))).filter (fun e => e.2 != 0)) := by
  obtain ⟨ha, hacc⟩ := hs
  obtain ⟨hctrl, hhome⟩ := hq
  simp [loadLanes, ha, hacc, hctrl, hhome]

theorem loadOnce_done (hs : reaches c o (loadNeeds o [0, 1, 2, 4]) (uniAccs c o bytes) ps s1) (hq : readable c ps) :
    loadOnce c o l2 bytes n value = .done (loadPlaces c (o.space == 4) l2 true ps s1).2
      ((loadPlaces c (o.space == 4) l2 true ps s1).1.flatMap (fun e => wrN o.data n 0 (loadResult n value e.2.1 e.2.2)))
      (((loadPlaces c (o.space == 4) l2 true ps s1).1.flatMap (fun e => (lanesOf c.pass).map (fun l => (l, policyFlags e.2.1)))).filter
        (fun e => e.2 != 0)) := by
  obtain ⟨ha, hacc⟩ := hs
  obtain ⟨hctrl, hhome⟩ := hq
  simp [loadOnce, ha, hacc, hctrl, hhome]

/-- The first half of a 16-byte load: which one it is, a free value decides (R239). -/
theorem loadTwice_first (hst : inHalf c.f.stage = false) (hs : reaches c o (loadNeeds o [0, 1, 2, 4]) (laneAccs c o 16) ps s1)
    (hq : readable c ps) : loadTwice c o l2 =
      let hi := Config.freeNat s1.fresh % 2
      let r := loadHalves c (o.space == 4) l2 hi ps { s1 with fresh := s1.fresh + 1 }
      .wait (setStage c r.2 (.half hi (r.1.map halfRead))) := by
  obtain ⟨ha, hacc⟩ := hs
  obtain ⟨hctrl, hhome⟩ := hq
  unfold loadTwice
  split
  · next hhalf => rw [hhalf] at hst; cases hst
  · simp [ha, hacc, hctrl, hhome]

/-- The second half, at the places of the first. -/
theorem loadTwice_second {hi : Nat} {got : List HalfRead} (hst : c.f.stage = .half hi got) (hl : placesLost c (halfPlaces got) = false)
    (hhome : homeWaits c (halfPlaces got) = false) : loadTwice c o l2 =
      let r := loadHalves c (o.space == 4) l2 (1 - hi) (halfPlaces got) c.s
      .done r.2
        ((r.1.zip got).flatMap (fun e => wrN o.data 4 e.1.1.lane (loadResult 4 ofBytes e.1.2.1 (wholeBytes hi e.2.bytes e.1.2.2))))
        ((r.1.map (fun e => (e.1.lane, policyFlags e.2.1))).filter (fun e => e.2 != 0)) := by
  simp [loadTwice, hst, hl, hhome]

end

/-! ### The instructions -/

theorem loads_of_loadLanes {i : Instr} {x : Shape} {body : Ctx → Res} {o : OpM} {spaces : List Nat} {l2 : Bool} {bytes n : Nat}
    {value : List Byte → Nat} (hx : shapeOf i = some x) (he : ∀ s, exec i s = run i x.hdr x.marks x.opnds x.preds body s)
    (hb : ∀ c, body c = loadLanes c o spaces l2 bytes n value) : loads i o spaces l2 bytes n value := fun s c ps s1 hr hs hq => by
  rw [marksOf_eq hx]
  exact exec_of_done hx (he s) hr ((hb c).trans (loadLanes_done hs hq))

theorem exec_ldw (h : Hdr) (o : OpM) (s : State) : exec (.ldw h o) s = run (.ldw h o) h mMem (Shape.loadV o (wideRegs h)) []
    (fun c => if wideRegs h = 2 then loadLanes c o [0, 1, 2, 4] (l2Only h) 8 2 ofBytes else loadTwice c o (l2Only h)) s :=
  Eq.refl (execLdw h o s)

theorem ld_loads (h : Hdr) (o : OpM) :
    let f := Checks.fmt h
    loads (.ld h o) o [0, 1, 2, 4] (l2Only h) (fmtBytes f) (fmtRegs f) (fmtLoad f) :=
  loads_of_loadLanes
    (body := fun c => loadLanes c o [0, 1, 2, 4] (l2Only h) (fmtBytes (Checks.fmt h)) (fmtRegs (Checks.fmt h)) (fmtLoad (Checks.fmt h)))
    rfl (fun s => Eq.refl (execLd h o s)) fun _ => rfl

theorem ldacq_loads (h : Hdr) (o : OpM) :
    let f := Checks.fmt h
    loads (.ldacq h o) o [0, 1, 2] (l2Only h) (fmtBytes f) (fmtRegs f) (fmtLoad f) :=
  loads_of_loadLanes
    (body := fun c => loadLanes c o [0, 1, 2] (l2Only h) (fmtBytes (Checks.fmt h)) (fmtRegs (Checks.fmt h)) (fmtLoad (Checks.fmt h)))
    rfl (fun s => Eq.refl (execLdacq h o s)) fun _ => rfl

theorem ldw_loads (h : Hdr) (o : OpM) (hw : wideRegs h = 2) : loads (.ldw h o) o [0, 1, 2, 4] (l2Only h) 8 2 ofBytes :=
  loads_of_loadLanes rfl (exec_ldw h o) fun _ => if_pos hw

theorem ldw_loadsInHalves (h : Hdr) (o : OpM) (hw : wideRegs h = 4) : loadsInHalves (.ldw h o) o (l2Only h) := by
  have hbody : ∀ c, (if wideRegs h = 2 then loadLanes c o [0, 1, 2, 4] (l2Only h) 8 2 ofBytes else loadTwice c o (l2Only h)) =
      loadTwice c o (l2Only h) := fun c => if_neg (by rw [hw]; decide)
  constructor
  · intro s c ps s1 hr hst hs hq
    rw [exec_ldw]
    exact run_wait (ready_of_readyFor (x := ⟨h, mMem, _, _, _⟩) rfl hr) ((hbody c).trans (loadTwice_first hst hs hq))
  · intro s c hi got hr hst hl hhome
    exact exec_of_done (x := ⟨h, mMem, _, _, _⟩) rfl (exec_ldw h o s) hr ((hbody c).trans (loadTwice_second hst hl hhome))

theorem ldk_loadsOnce (h : Hdr) (o : OpM) :
    let f := Checks.fmt h
    loadsOnce (.ldk h o) o (l2Only h) (fmtBytes f) (fmtRegs f) (fmtLoad f) := fun s _ _ _ hr hs hq =>
  exec_of_done (x := ⟨h, mMem, _, _, _⟩)
    (body := fun c => loadOnce c o (l2Only h) (fmtBytes (Checks.fmt h)) (fmtRegs (Checks.fmt h)) (fmtLoad (Checks.fmt h)))
    rfl (Eq.refl (execLdk h o s)) hr (loadOnce_done hs hq)

/-- `pref` reads the lines that it reaches (R243). -/
theorem pref_completes (h : Hdr) (o : OpM) {s : State} {c : Ctx} (hr : readyFor s (.pref h o) = some c) (ha : acts c = true)
    (hsp : o.space = 0 ∨ o.space = 4) :
    ∃ s1, exec (.pref h o) s = .next (retire c mMem s1 (nextSlot c.f.pc) [] []) ∧ OnlyReads s s1 := by
  obtain ⟨x, -, -, -, rfl, -⟩ := readyFor_spec hr
  have hlegal : (o.space != 0 && o.space != 4) = false := by rcases hsp with h | h <;> rw [h] <;> rfl
  refine ⟨_, exec_of_done (x := ⟨h, mMem, _, _, _⟩) rfl (Eq.refl (execPref h o c.s)) hr (by
    rw [ha, hlegal]
    exact Eq.refl _), ?_⟩
  refine List.foldlRecOn (motive := OnlyReads c.s) _ _ (.refl _) fun t ht a _ => ?_
  split
  · exact ht
  · split
    · split
      · exact ht
      · split
        · exact ht.trans (onlyReads_loadSampler ..)
        · exact ht.trans (onlyReads_loadMem ..)
    · exact ht

end Sys2Proof.Claims

/-- Settles O11: each load ends with the bytes of its places, in one read or in two, and `pref` only reads. -/
theorem Sys2Proof.loadInstructionsComplete : Obligations.LoadInstructionsComplete := by
  unfold Obligations.LoadInstructionsComplete
  exact fun h o => ⟨Claims.ld_loads h o, Claims.ldacq_loads h o, Claims.ldw_loads h o, Claims.ldw_loadsInHalves h o,
    Claims.ldk_loadsOnce h o, fun _ _ hr ha hsp =>
    (Claims.pref_completes h o hr ha hsp).imp fun _ ⟨he, hreads⟩ => ⟨he, hreads.mem, hreads.groups, hreads.teams, hreads.stores⟩⟩
end

section
/-! The store frame does not hold: a store of a trap handler completes as any instruction does, and its completion may free a complete
join entry (08 R172), whose fragment is then stopped too (21 R386). -/

namespace Sys2Proof.Claims

open Sys2Proof.Machine Sys2Proof.Machine.Ops

/-- `st.u32` of v0 to scratch, with its base in k0. -/
def joinSt : Instr := .st (always 0x60) joinMem

theorem joinSt_ready : readyFor joinState joinSt = some (joinCtx joinSt) := rfl

/-- The fragment of lane 2 is stopped with that of lane 1. -/
theorem joinSt_stops : stoppedAfter joinSt joinState 32 = some [2, 1] := by decide +kernel

theorem joinState_scratchWf : scratchWf joinState := by
  intro e he
  rw [List.mem_singleton.1 he]
  rfl

/-- The store's one access passes every check, and reaches scratch. -/
theorem joinSt_reaches : ∃ ps s1,
    reaches (joinCtx joinSt) joinMem (storeNeeds [0, 1, 2]) (laneAccs (joinCtx joinSt) joinMem 4) ps s1 ∧ noControl ps :=
  ⟨[({ lane := 0, ea := 0, n := 4 }, .scr 1 0)], joinState, ⟨by decide +kernel, rfl⟩, fun e he off hp => by
    rw [List.mem_singleton.1 he] at hp
    cases hp⟩

end Sys2Proof.Claims

open Sys2Proof.Claims in
/-- Refutes O45: a store of a handler to scratch whose completion frees a complete join entry. -/
theorem Sys2Proof.not_storeFrame : ¬ Obligations.StoreFrame := by
  unfold Obligations.StoreFrame
  intro h
  obtain ⟨t, ht, hs⟩ := next_of_stoppedAfter joinSt_stops
  obtain ⟨ps, s1, hr, hc⟩ := joinSt_reaches
  obtain ⟨-, -, -, ⟨-, x, g', -, hg, hk, -⟩, -⟩ :=
    h joinState t s1 joinSt _ joinMem 4 1 ps rfl joinSt_ready joinGroup_ok joinState_scratchWf hr hc ht
  exact not_keepsGroup_of_stopped hs hg (by decide) hk
end

section
/-! A store that is performed at its home (11 R211, R217): what changes of the state. -/

namespace Sys2Proof.Machine.Ops

/-- The state after a write at a home: memory, copies of lines, the host's lines and versions may have changed, and nothing else. -/
def OnlyHomeWrite (s t : State) : Prop :=
  t = { s with mem := t.mem, hist := t.hist, copies := t.copies, hostLines := t.hostLines, hostCached := t.hostCached,
               versions := t.versions }

namespace OnlyHomeWrite

variable {s t u : State}

theorem trans (h : OnlyHomeWrite s t) (k : OnlyHomeWrite t u) : OnlyHomeWrite s u := by
  unfold OnlyHomeWrite at *
  rw [k, h]

theorem stores (h : OnlyHomeWrite s t) : t.stores = s.stores := by rw [h]

theorem teams (h : OnlyHomeWrite s t) : t.teams = s.teams := by rw [h]

theorem groups (h : OnlyHomeWrite s t) : t.groups = s.groups := by rw [h]

end OnlyHomeWrite

theorem onlyHomeWrite_writeHome (s : State) (core id pa : Nat) (bs : List Byte) : OnlyHomeWrite s (writeHome s core id pa bs) := by
  have hcopies (u : State) : OnlyHomeWrite u (updateCopies u core id pa bs false) := rfl
  exact .trans (t := writeBytes s pa bs) rfl (.trans (hcopies _) rfl)

/-- The write of a store: the host's copy goes first, and its own forward is pending no more (R216, R224). -/
theorem onlyHomeWrite_written (s : State) (core id pa : Nat) (bs : List Byte) :
    OnlyHomeWrite s (cleanOf (writeHome (backInvalidate s pa) core id pa bs) id) := by
  have hhost : OnlyHomeWrite s (backInvalidate s pa) := rfl
  have hclean (u : State) : OnlyHomeWrite u (cleanOf u id) := rfl
  exact hhost.trans ((onlyHomeWrite_writeHome ..).trans (hclean _))

/-- The bytes stand in memory afterwards. -/
theorem writeHome_mem_eq (s : State) (core id pa : Nat) (bs : List Byte) :
    (cleanOf (writeHome (backInvalidate s pa) core id pa bs) id).mem = (writeBytes s pa bs).mem := rfl

theorem onlyHomeWrite_dropClean (s : State) (holder line : Nat) : OnlyHomeWrite s (dropClean s holder line) := rfl

/-- A store to device memory that has a home writes its bytes there and then returns its completion times. -/
theorem performStore_home {s : State} {p : PStore} (hscr : p.scratch = none) (hhome : (homeDie s (dieOf p.core) p.pa).isSome = true) :
    ∃ u ct, performStore s p = kickBanks (returnCt u p.group p.id p.launch ct) (clusterOf p.core) ∧
      OnlyHomeWrite { s with stores := s.stores.filter (fun q => q.id != p.id) } u ∧ u.mem = (writeBytes s p.pa p.bytes).mem := by
  obtain ⟨home, hhome⟩ := Option.isSome_iff_exists.1 hhome
  have hhome : homeDie { s with stores := s.stores.filter (fun q => q.id != p.id) } (dieOf p.core) p.pa = some home := hhome
  unfold performStore
  simp only [hscr, hhome]
  refine ⟨_, _, rfl, ?_⟩
  have hw := onlyHomeWrite_written { s with stores := s.stores.filter (fun q => q.id != p.id) } p.core p.id p.pa p.bytes
  split
  · exact ⟨hw.trans (onlyHomeWrite_dropClean ..), rfl⟩
  · exact ⟨hw, rfl⟩

theorem returnCt_groups_eq (s : State) (key id launch : Nat) (ct : Nat → Nat) :
    (returnCt s key id launch ct).groups = Maps.modify key (fun g => mergeCr g ct) s.groups := rfl

/-- A store elsewhere than the control region is performed at its home. -/
theorem performPending_of_not_control {s : State} {p : PStore} (hw : windowOf p.pa ≠ .control) :
    performPending s p = performStore s p := if_neg fun h => hw h.2

theorem readByte_of_mem {s t : State} (h : t.mem = s.mem) (a : Nat) : readByte t a = readByte s a := by
  rw [readByte, h]
  rfl

end Sys2Proof.Machine.Ops

open Sys2Proof.Machine Sys2Proof.Machine.Ops in
/-- Settles O46: performing a store is one write of its bytes and one merge of its completion times into its group. -/
theorem Sys2Proof.storePerformFrame : Obligations.StorePerformFrame := by
  unfold Obligations.StorePerformFrame
  intro s t n p hp hm hb hscr hw hhome hwf he
  obtain ⟨u, ct, hu, hwrite, hmem⟩ := performStore_home hscr hhome
  rw [exec_storePerform hp hm hb, performPending_of_not_control hw, hu] at he
  cases he
  have hbytes : (kickBanks (returnCt u p.group p.id p.launch ct) (clusterOf p.core)).mem = (writeBytes s p.pa p.bytes).mem := by
    rw [kickBanks_mem, returnCt_mem, hmem]
  have hgroups : (kickBanks (returnCt u p.group p.id p.launch ct) (clusterOf p.core)).groups =
      Maps.modify p.group (fun g => mergeCr g ct) s.groups := by
    rw [kickBanks_groups, returnCt_groups_eq, hwrite.groups]
  refine ⟨fun a => ?_, hwrite.stores, hwrite.teams, fun k hk => ?_, fun g hg => ⟨mergeCr g ct, ?_, rfl⟩⟩
  · rw [readByte_of_mem hbytes, readByte_writeBytes hwf]
  · rw [group?, hgroups, Maps.modify_find?_ne _ _ hk]
    rfl
  · rw [group?, hgroups, Maps.modify_find?]
    exact congrArg (Option.map _) hg
end

section
/-! Gathers, scatters and cache control (12 R252 to R254): what each completes with once its accesses pass their checks. -/

namespace Sys2Proof.Claims

open Sys2Proof.Machine Sys2Proof.Machine.Ops Sys2Proof.Bits

/-! ### Gathers and scatters (R252, R253) -/

/-- What a gather needs of the pages that it reaches. -/
def gatherNeeds : Needs := { spaces := [0], rd := 1, access := 1, ctrl := false }

/-- What a scatter, or a `cdisc`, needs of the pages that it reaches. -/
def scatterNeeds : Needs := { spaces := [0], wr := 1, access := 2, stamped := false, ctrl := false }

/-- The effect of `ngath` in a context. -/
def ngathEnd (o : OpM) (c : Ctx) : Res :=
  if !acts c then noEffect c
  else match access c o gatherNeeds (gatherAccs c o) with
  | .error r => r
  | .ok (ps, s) =>
    if ps.any (wordWaits c) then .wait c.s
    else .done (ps.foldl (noteWord c) s)
      (ps.map (fun e => .v e.1.lane (regNo o.data + e.1.j) (BitVec.ofNat 32 (gatherWord c s e.1 e.2))))
      ((ps.map (fun e => (e.1.lane, policyFlags e.2))).filter (fun e => e.2 != 0))

/-- The effect of `nscat` in a context. -/
def nscatEnd (o : OpM) (c : Ctx) : Res :=
  if !acts c then noEffect c
  else match access c o scatterNeeds (gatherAccs c o) with
  | .error r => r
  | .ok (ps, s) =>
    .done (storePlaces c false (storeGate s c.key) (fun a => toBytes 4 (rdAt c o.data (8 + a.j) a.lane)) ps s) [] (storeFlags ps)

theorem exec_ngath (h : Hdr) (o : OpM) (s : State) : exec (.ngath h o) s =
    run (.ngath h o) h mMem ([{ dataOpnd o 8 with file := .vec, dest := true }] ++ addrOpnds o) [] (ngathEnd o) s :=
  Eq.refl (execNgath h o s)

theorem exec_nscat (h : Hdr) (o : OpM) (s : State) : exec (.nscat h o) s =
    run (.nscat h o) h mStore ([{ dataOpnd o 16 with file := .vec }] ++ addrOpnds o) [] (nscatEnd o) s :=
  Eq.refl (execNscat h o s)

section
variable {s s1 : State} {c : Ctx} {o : OpM} {ps : List (Acc × Place)}

/-- A gather binds its words at their homes, once none of them is on its way there (11 R213). -/
theorem ngath_completes (h : Hdr) (hr : readyFor s (.ngath h o) = some c) (hs : reaches c o gatherNeeds (gatherAccs c o) ps s1)
    (hw : ps.any (wordWaits c) = false) :
    exec (.ngath h o) s = .next (retire c mMem (ps.foldl (noteWord c) s1) (nextSlot c.f.pc)
      (ps.map (fun e => .v e.1.lane (regNo o.data + e.1.j) (BitVec.ofNat 32 (gatherWord c s1 e.1 e.2))))
      ((ps.map (fun e => (e.1.lane, policyFlags e.2))).filter (fun e => e.2 != 0))) := by
  obtain ⟨ha, hacc⟩ := hs
  exact exec_of_done (x := ⟨h, mMem, _, _, _⟩) rfl (exec_ngath h o s) hr (by simp [ngathEnd, ha, hacc, hw])

/-- A scatter accepts one store for each of its words, as any store instruction does. -/
theorem nscat_completes (h : Hdr) (hr : readyFor s (.nscat h o) = some c)
    (hs : reaches c o scatterNeeds (gatherAccs c o) ps s1) :
    exec (.nscat h o) s = .next (retire c mStore
      (storePlaces c false (storeGate s1 c.key) (fun a => toBytes 4 (rdAt c o.data (8 + a.j) a.lane)) ps s1)
      (nextSlot c.f.pc) [] (storeFlags ps)) := by
  obtain ⟨ha, hacc⟩ := hs
  exact exec_of_done (x := ⟨h, mStore, _, _, _⟩) rfl (exec_nscat h o s) hr (by simp [nscatEnd, ha, hacc])

end

/-! ### Cache control (R254) -/

/-- The core keeps no sampler line that one of the addresses names. -/
def dropSamplerLines (blk : Bool) (pas : List Nat) (k : Core) : Core :=
  { k with smlines := k.smlines.filter (fun e => !pas.any (fun pa => namedBy blk pa e.1)) }

/-- The core keeps no instruction line that one of the addresses names. -/
def dropFetchLines (blk : Bool) (pas : List Nat) (k : Core) : Core :=
  { k with ilines := k.ilines.filter (fun e => !pas.any (fun pa => namedBy blk pa e.1)) }

/-- The physical addresses among the places of a `cdisc`. -/
def memoryPas (ps : List (Acc × Place)) : List Nat := ps.flatMap (fun e => match e.2 with | .mem pa _ => [pa] | _ => [])

/-- The effect of `cdisc` in a context. -/
def cdiscEnd (h : Hdr) (o : OpM) (c : Ctx) : Res :=
  if !acts c then noEffect c
  else match access c o scatterNeeds (laneAccs c o 1) with
  | .error r => r
  | .ok (ps, s) =>
    let lines := namedLines (isBlk h) (memoryPas ps)
    if lines.any (fun l => !reachable s (dieOf c.tm.core) (l * 128) 128) then .kill 0x1F s
    else if (storeGate s c.key).isSome || stillDirty s h.sc.toNat c.tm.core (isBlk h) (memoryPas ps) ||
        lines.any (fun l => migrating s (l * 128) || overlapping s (dieOf c.tm.core) none (l * 128) 128 s.uid) then .wait s
    else .done (dropNamed (lines.foldl (discardLine c) s) h.sc.toNat c.tm.core (isBlk h) (memoryPas ps)) [] (storeFlags ps)

theorem exec_cdisc (h : Hdr) (o : OpM) (s : State) :
    exec (.cdisc h o) s = run (.cdisc h o) h mStore (addrOpnds o) [] (cdiscEnd h o) s :=
  Eq.refl (execCdisc h o s)

section
variable {s s1 : State} {c : Ctx} {h : Hdr} {o : OpM} {pas : List Nat}

theorem cwb_completes (hr : readyFor s (.cwb h o) = some c) (ha : acts c = true) (hp : cachePas c o [0] = .ok (pas, s1))
    (hd : stillDirty s1 h.sc.toNat c.tm.core (isBlk h) pas = false) :
    exec (.cwb h o) s = .next (retire c mMem (giveUp s1 h.sc.toNat c.tm.core (isBlk h) pas) (nextSlot c.f.pc) [] []) :=
  exec_of_done (x := ⟨h, mMem, _, _, _⟩) rfl (Eq.refl (execCwb h o s)) hr (by simp [ha, hp, hd])

/-- In space 4 `cinv` drops sampler lines, which are never dirty. -/
theorem cinv_sampler_completes (hr : readyFor s (.cinv h o) = some c) (ha : acts c = true)
    (hp : cachePas c o [0, 4] = .ok (pas, s1)) (hsp : o.space = 4) :
    exec (.cinv h o) s = .next (retire c mMem (modCores s1 h.sc.toNat c.tm.core (dropSamplerLines (isBlk h) pas))
      (nextSlot c.f.pc) [] []) :=
  exec_of_done (x := ⟨h, mMem, _, _, _⟩) rfl (Eq.refl (execCinv h o s)) hr (by
    simp only [ha, hp, hsp]
    rfl)

/-- In space 0 `cinv` drops clean copies, once the dirty ones have gone home. -/
theorem cinv_memory_completes (hr : readyFor s (.cinv h o) = some c) (ha : acts c = true)
    (hp : cachePas c o [0, 4] = .ok (pas, s1)) (hsp : o.space ≠ 4)
    (hd : stillDirty s1 h.sc.toNat c.tm.core (isBlk h) pas = false) :
    exec (.cinv h o) s = .next (retire c mMem
      (dropNamed (giveUp s1 h.sc.toNat c.tm.core (isBlk h) pas) h.sc.toNat c.tm.core (isBlk h) pas) (nextSlot c.f.pc) [] []) := by
  have hsp : (o.space == 4) = false := beq_false_of_ne hsp
  exact exec_of_done (x := ⟨h, mMem, _, _, _⟩) rfl (Eq.refl (execCinv h o s)) hr (by
    simp only [ha, hp, hsp, hd]
    rfl)

/-- `cdisc` discards its lines at issue, once every one of them has a home and nothing to them is under way. -/
theorem cdisc_completes {ps : List (Acc × Place)} (hr : readyFor s (.cdisc h o) = some c)
    (hs : reaches c o scatterNeeds (laneAccs c o 1) ps s1) (hg : storeGate s1 c.key = none)
    (hhome : (namedLines (isBlk h) (memoryPas ps)).any (fun l => !reachable s1 (dieOf c.tm.core) (l * 128) 128) = false)
    (hd : stillDirty s1 h.sc.toNat c.tm.core (isBlk h) (memoryPas ps) = false)
    (hw : (namedLines (isBlk h) (memoryPas ps)).any (fun l => migrating s1 (l * 128) ||
      overlapping s1 (dieOf c.tm.core) none (l * 128) 128 s1.uid) = false) :
    exec (.cdisc h o) s = .next (retire c mStore
      (dropNamed ((namedLines (isBlk h) (memoryPas ps)).foldl (discardLine c) s1) h.sc.toNat c.tm.core (isBlk h) (memoryPas ps))
      (nextSlot c.f.pc) [] (storeFlags ps)) := by
  obtain ⟨ha, hacc⟩ := hs
  have hend : cdiscEnd h o c = .done
      (dropNamed ((namedLines (isBlk h) (memoryPas ps)).foldl (discardLine c) s1) h.sc.toNat c.tm.core (isBlk h) (memoryPas ps))
      [] (storeFlags ps) := by
    simp only [cdiscEnd, ha, hacc, hhome, hg, hd, hw, Bool.not_true, Bool.false_eq_true, if_false, Option.isSome_none, Bool.or_self]
  exact exec_of_done (x := ⟨h, mStore, _, _, _⟩) rfl (exec_cdisc h o s) hr hend

theorem icinv_completes (hr : readyFor s (.icinv h o) = some c) (ha : acts c = true) (hp : cachePas c o [0] = .ok (pas, s1)) :
    exec (.icinv h o) s = .next (retire c mMem (modCores s1 h.sc.toNat c.tm.core (dropFetchLines (isBlk h) pas))
      (nextSlot c.f.pc) [] []) :=
  exec_of_done (x := ⟨h, mMem, _, _, _⟩) rfl (Eq.refl (execIcinv h o s)) hr (by
    simp only [ha, hp]
    rfl)

end

end Sys2Proof.Claims

/-- Settles O16: each instruction's effect ends as its lemma above says; `cinv` by the space of its addresses. -/
theorem Sys2Proof.gatherAndCacheInstructionsComplete : Obligations.GatherAndCacheInstructionsComplete := by
  unfold Obligations.GatherAndCacheInstructionsComplete
  exact fun h _ => ⟨fun _ _ _ _ => Claims.ngath_completes h, fun _ _ _ _ => Claims.nscat_completes h,
    fun _ _ _ _ => Claims.cwb_completes, fun _ _ _ _ => Claims.cinv_sampler_completes, fun _ _ _ _ => Claims.cinv_memory_completes,
    fun _ _ _ _ => Claims.cdisc_completes, fun _ _ _ _ => Claims.icinv_completes⟩
end

section
/-! The frame of atomics does not hold: the completion of a trap handler's reduction may free a complete join entry (08 R172), whose
fragment is then stopped too (21 R386). -/

namespace Sys2Proof.Claims

open Sys2Proof.Machine Sys2Proof.Machine.Ops

/-- `red` of v0 to scratch, with its base in k0. -/
def joinRed : Instr := .red (always 0x60) joinMem

/-- The one place that the reduction reaches, in the scratch of the team. -/
def joinRedPlaces : List (Acc × Place) := [({ lane := 0, ea := 0, n := 4 }, .scr 1 0)]

theorem joinRed_ready : readyFor joinState joinRed = some (joinCtx joinRed) := rfl

/-- The fragment of lane 2 is stopped with that of lane 1. -/
theorem joinRed_stops : stoppedAfter joinRed joinState 32 = some [2, 1] := by decide +kernel

/-- The reduction's one access passes every check. -/
theorem joinRed_reaches :
    reaches (joinCtx joinRed) joinMem (redNeeds [0, 1, 2]) (laneAccs (joinCtx joinRed) joinMem 4) joinRedPlaces joinState :=
  ⟨by decide +kernel, rfl⟩

theorem joinRed_noControl : noControl joinRedPlaces := fun e he off hp => by
  rw [List.mem_singleton.1 he] at hp
  cases hp

theorem joinRed_notBlocked : stepBlocked (joinCtx joinRed) joinState joinRedPlaces = false := by decide +kernel

end Sys2Proof.Claims

open Sys2Proof.Claims in
/-- Refutes O47: a `red` of a handler to scratch whose completion frees a complete join entry. -/
theorem Sys2Proof.not_atomicFrame : ¬ Obligations.AtomicFrame := by
  unfold Obligations.AtomicFrame
  intro h
  obtain ⟨t, ht, hs⟩ := next_of_stoppedAfter joinRed_stops
  obtain ⟨-, -, ⟨-, x, g', -, hg, hk, -⟩, -⟩ :=
    h joinState t joinState joinRed _ joinMem 4 _ _ rfl joinRed_ready rfl joinGroup_ok rfl joinState_scratchWf joinRed_reaches
      joinRed_noControl joinRed_notBlocked ht
  exact not_keepsGroup_of_stopped hs hg (by decide) hk
end

section
/-! Copies (13 R263 to R265): a command that passes every check is queued at the copy engine. -/

namespace Sys2Proof.Claims

open Sys2Proof.Machine Sys2Proof.Machine.Ops

/-- A command that passes the checks of R265 is accepted. -/
theorem issueCopy_done {c : Ctx} {s : State} {y : Copy} (hk : copyOk c s y) : issueCopy c s y = .done (copyTaken c s y) [] [] := by
  obtain ⟨hfields, hcanon, hshape, hbounds, hfree, hgood, hlive, hroom⟩ := hk
  have hlive := Option.isNone_eq_false_iff.2 hlive
  simp only [issueCopy, hfields, hcanon, hshape, hbounds, hfree, hgood, hlive, hroom]
  rfl

theorem cpy_effects (h : Hdr) (o : OpR) :
    effects (.cpy h o) (fun c => acts c = true ∧ copyOk c c.s (cpyCommand h o c)) (fun c => copyTaken c c.s (cpyCommand h o c)) :=
  completes_of_done rfl (fun s => Eq.refl (execCpy h o s)) fun c ⟨ha, hk⟩ => by
    rw [ha]
    exact issueCopy_done hk

/-- The effect of `cpyo` in a context. -/
def cpyoEnd (h : Hdr) (o : OpR) (c : Ctx) : Res :=
  if !acts c then noEffect c else issueCopy c c.s (cpyoCommand h o c)

theorem exec_cpyo (h : Hdr) (o : OpR) (s : State) : exec (.cpyo h o) s = run (.cpyo h o) h mCopy
    ([srcP o.d, srcP o.a, src o.b, { reg := o.c, count := 5, align := 2 }].map Opnd.inUni) [] (cpyoEnd h o) s :=
  Eq.refl (execCpyo h o s)

theorem cpyo_effects (h : Hdr) (o : OpR) :
    effects (.cpyo h o) (fun c => acts c = true ∧ copyOk c c.s (cpyoCommand h o c)) (fun c => copyTaken c c.s (cpyoCommand h o c)) :=
  completes_of_done rfl (exec_cpyo h o) fun c ⟨ha, hk⟩ => by
    rw [cpyoEnd, ha]
    exact issueCopy_done hk

/-- `cpyq` queues the command of the packet that it reads, where that is a copy packet in order (R264). -/
theorem cpyq_completes (h : Hdr) (o : OpR) {s s1 : State} {c : Ctx} {bs : List Byte} (hr : readyFor s (.cpyq h o) = some c)
    (ha : acts c = true) (hp : readPacket c (rdPair c o.a 0) = .ok (bs, s1)) (hkind : descField bs 0 4 = 2)
    (hres : packetReserved bs = true) (hpair : Checks.copyPair (packetCopy bs).dfmt (packetCopy bs).sfmt = true)
    (hk : copyOk c s1 (packetCopy bs)) :
    exec (.cpyq h o) s = .next (retire c mStoreC (copyTaken c s1 (packetCopy bs)) (nextSlot c.f.pc) [] []) :=
  exec_of_done (x := ⟨h, mStoreC, _, _, _⟩) rfl (Eq.refl (execCpyq h o s)) hr (by
    simp [ha, hp, hkind, hres, hpair, issueCopy_done hk])

end Sys2Proof.Claims

/-- Settles O17: each form queues its command, which passes every check, by the one lemma about issuing a copy. -/
theorem Sys2Proof.copyInstructionsComplete : Obligations.CopyInstructionsComplete := by
  unfold Obligations.CopyInstructionsComplete
  exact fun h o => ⟨Claims.cpy_effects h o, Claims.cpyo_effects h o, fun _ _ _ _ => Claims.cpyq_completes h o⟩
end

section
/-! Buffer handles and `publish` (13 R270 to R274): what each completes with, by the state of the handle that it names. -/

namespace Sys2Proof.Claims

open Sys2Proof.Machine Sys2Proof.Machine.Ops

/-! ### Handles (R272, R273) -/

section
variable {c : Ctx} {o : OpR}

/-- A handle that is FREE is taken by the team that allocates it. -/
theorem hallocRes_done (hn : rd c o.a 0 ≤ 63) (hsize : rd c o.c 0 ≠ 0)
    (hfit : o.aux.toNat = 1 → hallocFits c (rdPair c o.b 0) (rd c o.c 0) = true)
    (hown : foreign (handleOf c o.a) c.tm.ctx = false) (hst : (handleOf c o.a).state = 0) :
    hallocRes c o = .done (setHandle c.s (clusterOf c.tm.core) (rd c o.a 0)
      { state := 1, base := rdPair c o.b 0, size := rd c o.c 0, space := o.aux.toNat, owner := c.tm.ctx, team := c.g.team }) [] [] := by
  have hlies : (decide (o.aux.toNat = 1) && !hallocFits c (rdPair c o.b 0) (rd c o.c 0)) = false := by
    simpa using hfit
  simp [hallocRes, Nat.not_lt.2 hn, hsize, hlies, hown, hst]

/-- A FULL or DRAINING handle is released at once. -/
theorem hfreeRes_done (hgone : handleGone c.f.stage = false) (hlegal : handleLegal c o.a = true)
    (hfree : (handleOf c o.a).state ≠ 0) (hfilling : (handleOf c o.a).state ≠ 1) :
    hfreeRes c o = .done (releaseHandle (leaveHandle c o.a) (clusterOf c.tm.core) (rd c o.a 0)) [] [] := by
  simp [hfreeRes, hgone, hlegal, hfree, hfilling]

/-- A FULL handle is taken: it becomes DRAINING. -/
theorem takeRes_done (hstage : c.f.stage ≠ .released) (hgone : handleGone c.f.stage = false) (hlegal : handleLegal c o.a = true)
    (hfull : (handleOf c o.a).state = 2) :
    takeRes c o = .done (setHandle (leaveHandle c o.a) (clusterOf c.tm.core) (rd c o.a 0)
      { handle (cluster (leaveHandle c o.a) (clusterOf c.tm.core)) (rd c o.a 0) with state := 3 }) [] [] := by
  simp [takeRes, hstage, hgone, hlegal, hfull]

theorem peekRes_done (hstage : c.f.stage ≠ .released) (hgone : handleGone c.f.stage = false) (hlegal : handleLegal c o.a = true)
    (hfree : (handleOf c o.a).state ≠ 0) (hfilling : (handleOf c o.a).state ≠ 1) :
    peekRes c o = .done (leaveHandle c o.a) [] [] := by
  simp [peekRes, hstage, hgone, hlegal, hfree, hfilling]

end

theorem halloc_effects (h : Hdr) (o : OpR) :
    effects (.halloc h o)
      (fun c => acts c = true ∧ rd c o.a 0 ≤ 63 ∧ rd c o.c 0 ≠ 0 ∧
        (o.aux.toNat = 1 → hallocFits c (rdPair c o.b 0) (rd c o.c 0) = true) ∧ foreign (handleOf c o.a) c.tm.ctx = false ∧
        (handleOf c o.a).state = 0)
      (fun c => setHandle c.s (clusterOf c.tm.core) (rd c o.a 0)
        { state := 1, base := rdPair c o.b 0, size := rd c o.c 0, space := o.aux.toNat, owner := c.tm.ctx, team := c.g.team }) :=
  completes_of_done rfl (fun s => Eq.refl (execHalloc h o s)) fun _ ⟨ha, hn, hsize, hfit, hown, hst⟩ =>
    (if_pos ha).trans (hallocRes_done hn hsize hfit hown hst)

theorem hfree_effects (h : Hdr) (o : OpR) :
    effects (.hfree h o)
      (fun c => acts c = true ∧ handleGone c.f.stage = false ∧ handleLegal c o.a = true ∧ (handleOf c o.a).state ≠ 0 ∧
        (handleOf c o.a).state ≠ 1)
      (fun c => releaseHandle (leaveHandle c o.a) (clusterOf c.tm.core) (rd c o.a 0)) :=
  completes_of_done rfl (fun s => Eq.refl (execHfree h o s)) fun _ ⟨ha, hgone, hlegal, hfree, hfilling⟩ =>
    (if_pos ha).trans (hfreeRes_done hgone hlegal hfree hfilling)

theorem hwaitTake_effects (h : Hdr) (o : OpR) :
    effects (.hwaitTake h o)
      (fun c => acts c = true ∧ c.f.stage ≠ .released ∧ handleGone c.f.stage = false ∧ handleLegal c o.a = true ∧
        (handleOf c o.a).state = 2)
      (fun c => setHandle (leaveHandle c o.a) (clusterOf c.tm.core) (rd c o.a 0)
        { handle (cluster (leaveHandle c o.a) (clusterOf c.tm.core)) (rd c o.a 0) with state := 3 }) :=
  completes_of_done rfl (fun s => Eq.refl (execHwaitTake h o s)) fun _ ⟨ha, hstage, hgone, hlegal, hfull⟩ =>
    (if_pos ha).trans (takeRes_done hstage hgone hlegal hfull)

/-- A waiter to which the handle was given only advances (R271). -/
theorem hwaitTake_released (h : Hdr) (o : OpR) :
    effects (.hwaitTake h o) (fun c => acts c = true ∧ c.f.stage = .released) (fun c => c.s) :=
  completes_of_done rfl (fun s => Eq.refl (execHwaitTake h o s)) fun _ ⟨ha, hstage⟩ => (if_pos ha).trans (if_pos hstage)

theorem hwaitPeek_effects (h : Hdr) (o : OpR) :
    effects (.hwaitPeek h o)
      (fun c => acts c = true ∧ c.f.stage ≠ .released ∧ handleGone c.f.stage = false ∧ handleLegal c o.a = true ∧
        (handleOf c o.a).state ≠ 0 ∧ (handleOf c o.a).state ≠ 1)
      (fun c => leaveHandle c o.a) :=
  completes_of_done rfl (fun s => Eq.refl (execHwaitPeek h o s)) fun _ ⟨ha, hstage, hgone, hlegal, hfree, hfilling⟩ =>
    (if_pos ha).trans (peekRes_done hstage hgone hlegal hfree hfilling)

theorem hwaitPeek_released (h : Hdr) (o : OpR) :
    effects (.hwaitPeek h o) (fun c => acts c = true ∧ c.f.stage = .released) (fun c => c.s) :=
  completes_of_done rfl (fun s => Eq.refl (execHwaitPeek h o s)) fun _ ⟨ha, hstage⟩ => (if_pos ha).trans (if_pos hstage)

/-- `hstat` reads the handle's state and the bytes that have landed in it. -/
theorem hstat_completes (h : Hdr) (o : OpR) :
    completes (.hstat h o) (fun c => acts c = true ∧ handleLegal c o.a = true) (fun c => c.s)
      (fun c => wrLanes c o.d 2 (fun _ => (handleOf c o.a).state + 2 ^ 32 * (handleOf c o.a).landed)) (fun _ => []) :=
  completes_of_done rfl (fun s => Eq.refl (execHstat h o s)) fun _ ⟨ha, hlegal⟩ => by simp [ha, hlegal, doneN]

/-! ### Publish (R274) -/

/-- The state after a publish has taken its place at the hub, and its fragment waits for the stamp. -/
def publishTaken (h : Hdr) (o : OpR) (c : Ctx) (s1 : State) : State :=
  setStage c { s1 with uid := s1.uid + 1, publishes := s1.publishes ++
    [{ id := s1.uid, ctx := c.tm.ctx, group := c.key, frag := c.frag, base := rdPair c o.a 0, count := rd c o.b 0,
       scope := h.sc.toNat }] } (.publish s1.uid)

/-- A publish whose pages are translated and publishable takes its place at the hub. -/
theorem publishRes_wait (h : Hdr) {o : OpR} {c : Ctx} {s1 : State} (hcanon : canonical (rdPair c o.a 0) = true)
    (halign : rdPair c o.a 0 % 65536 = 0) (hpos : rd c o.b 0 ≠ 0) (hmax : rd c o.b 0 ≤ 65536)
    (htr : publishTr c (rangePages (rdPair c o.a 0) (rd c o.b 0)) c.s = .ok s1)
    (hleaves : rangeLeaves s1 c.tm.ctx (rdPair c o.a 0) (rd c o.b 0) = true) :
    publishRes c h o = .wait (publishTaken h o c s1) := by
  simp [publishRes, publishTaken, hcanon, halign, hpos, Nat.not_lt.2 hmax, htr, hleaves]

/-- The effect of `publish` in a context: the checks first, the stamp once it is at the hub. -/
def publishStep (h : Hdr) (o : OpR) (c : Ctx) : Res :=
  match c.f.stage with
  | .publish id => publishEnd c o id
  | _ => if acts c then publishRes c h o else noEffect c

theorem exec_publish (h : Hdr) (o : OpR) (s : State) : exec (.publish h o) s =
    run (.publish h o) h mSysC ([dstP o.d, srcP o.a, src o.b].map Opnd.inUni) [] (publishStep h o) s :=
  Eq.refl (execPublish h o s)

/-- A publish that issues waits where its checks leave it. -/
theorem publish_waits (h : Hdr) (o : OpR) {s s1 : State} {c : Ctx} (hr : readyFor s (.publish h o) = some c) (ha : acts c = true)
    (hstage : c.f.stage = .fresh) (hres : publishRes c h o = .wait s1) : exec (.publish h o) s = .next s1 := by
  have hstep : publishStep h o c = .wait s1 := by simp only [publishStep, hstage, ha, if_true, hres]
  rw [exec_publish]
  exact run_wait (ready_of_readyFor (x := ⟨h, mSysC, _, _, _⟩) rfl hr) hstep

/-- Once the hub has given its stamp, the publish returns it. -/
theorem publish_completes (h : Hdr) (o : OpR) (id : Nat) (p : Publish) (t : Nat) :
    completes (.publish h o)
      (fun c => c.f.stage = .publish id ∧ c.s.publishes.find? (fun q => q.id == id) = some p ∧ p.stamp = some t)
      (fun c => { c.s with publishes := c.s.publishes.filter (fun q => q.id != id) })
      (fun c => wrLanes c o.d 2 (fun _ => t)) (fun _ => []) :=
  completes_of_done rfl (exec_publish h o) fun _ ⟨hstage, hfind, ht⟩ => by
    simp only [publishStep, hstage, publishEnd, hfind, ht]

end Sys2Proof.Claims

/-- Settles O18: each instruction's effect ends as its lemma above says, by the state of its handle; a publish first waits at the hub
and completes once it has its stamp. -/
theorem Sys2Proof.handleInstructionsComplete : Obligations.HandleInstructionsComplete := by
  unfold Obligations.HandleInstructionsComplete
  exact fun h o => ⟨Claims.halloc_effects h o, Claims.hfree_effects h o, Claims.hwaitTake_effects h o, Claims.hwaitTake_released h o,
    Claims.hwaitPeek_effects h o, Claims.hwaitPeek_released h o, Claims.hstat_completes h o,
    fun _ _ _ hr ha hstage hcanon halign hpos hmax htr hleaves =>
      Claims.publish_waits h o hr ha hstage (Claims.publishRes_wait h hcanon halign hpos hmax htr hleaves),
    Claims.publish_completes h o⟩
end

section
/-! Transforms (15 R301 to R306): each sends one request to the pipe, with the results that it has formed. -/

namespace Sys2Proof.Claims

open Sys2Proof.Machine Sys2Proof.Machine.Ops

/-- A transform between a destination run and a source run sends its request wherever some lane is guarded. -/
theorem requests_of_runXf {i : Instr} {h : Hdr} {o : OpR} {dspan aspan : Nat} {more : List Opnd} {f : Ctx → Nat → Num.FRes}
    (hx : shapeOf i = some (.plain h (Shape.runs o dspan aspan ++ more))) (he : ∀ s, exec i s = runXf i h o dspan aspan more f s) :
    requests i o dspan f :=
  issues_of_issued hx he fun c ha => by simp only [sendXf, ha, Bool.not_true, Bool.false_eq_true, if_false]

end Sys2Proof.Claims

open Sys2Proof.Machine in
/-- Settles O7: each transform sends the request of its two runs by the one lemma about them. -/
theorem Sys2Proof.transformInstructionsComplete : Obligations.TransformInstructionsComplete := by
  unfold Obligations.TransformInstructionsComplete
  exact fun h o => ⟨Claims.requests_of_runXf rfl fun s => Eq.refl (execXfCvt h o s),
    Claims.requests_of_runXf rfl fun s => Eq.refl (execXfQuant h o s),
    Claims.requests_of_runXf rfl fun s => Eq.refl (execXfDequant h o s),
    Claims.requests_of_runXf rfl fun s => Eq.refl (execXfRkey h o s),
    Claims.requests_of_runXf rfl fun s => Eq.refl (execXfHash h o s),
    Claims.requests_of_runXf rfl fun s => Eq.refl (execXfPenc h o s)⟩
end

section
/-! `neval` and `nevstat` (16 R313 to R316, R328): the requests that pass every check enter the station. -/

namespace Sys2Proof.Claims

open Sys2Proof.Machine Sys2Proof.Machine.Ops Sys2Proof.Bits

/-- A check that every lane passes fails nothing. -/
theorem nevFail_none {c : Ctx} {s : State} {ok : Nat → Bool} (h : (lanesOf c.pass).all ok = true) : nevFail c s ok = none := by
  have hbad : (lanesOf c.pass).filter (fun l => !ok l) = [] :=
    List.filter_eq_nil_iff.2 fun l hl => by simp [List.all_eq_true.1 h l hl]
  simp only [nevFail, hbad, List.isEmpty_nil, if_true]

section
variable {c : Ctx} {o : OpR} {entry : Nat → Nat} {net : Nat → List Byte} {s : State}

/-- Checks 6 and 7 of R315 pass in every lane: the runs lie within the group's registers. -/
def runsFit (c : Ctx) (o : OpR) (net : Nat → List Byte) : Bool :=
  (lanesOf c.pass).all (fun l =>
    decide (regNo o.a + netInRegs (net l) ≤ c.g.nv) && decide (regNo o.d + netOutRegs (net l) ≤ c.g.nv))

/-- Requests for which the station and its ring have room enter, and their windows open. -/
theorem nevEnter_issued (hfit : runsFit c o net = true) (hfree : (nevNames c o net).any (fun n => (held c.g).contains n) = false) :
    let k := c.tm.core
    let reqs := (lanesOf c.pass).map (nevReq c o s.uid entry net)
    let s2 := refillStation s k
    let r := admitReqs (s2.uid + 16) (nevQuota s2 k) reqs (Ops.core s2 k)
    let spilled := r.1.nspill.length - (Ops.core s2 k).nspill.length
    r.2 = [] → nevPending (Ops.core s2 k) + reqs.length ≤ 4096 → ringReaches s2 k spilled = true →
      nevEnter c o entry net s = .issued (openNev c (writeRing (setCore { s2 with uid := s2.uid + 17 } k r.1) k spilled)
        (reqs.map (fun q => (q, netOutRegs q.net)))) := by
  intro k reqs s2 r spilled hall hroom hring
  simp only [nevEnter, nevFail_none hfit, hfree, Bool.and_false, Bool.false_eq_true, if_false]
  exact (if_neg (by rw [hall]; decide)).trans ((if_neg (Nat.not_lt.2 hroom)).trans (if_neg (by rw [hring]; decide)))

/-- The checks of R315 lead to the entry. -/
theorem nevalRes_of_nets {x : Context} (ha : acts c = true) (hx : Maps.find? c.tm.ctx c.s.contexts = some x)
    (hn : nevNets c x (rd c o.b) = .ok (entry, net, s)) : nevalRes c o = nevEnter c o entry net s := by
  simp only [nevalRes, ha, hx, hn, Bool.not_true, Bool.false_eq_true, if_false]

end

/-- A `neval` whose effect enters its requests completes without a result of its own. -/
theorem exec_neval_of_issued (h : Hdr) {o : OpR} {s s1 : State} {c : Ctx} (hr : readyFor s (.neval h o) = some c)
    (hb : nevalRes c o = .issued s1) :
    exec (.neval h o) s = .next (retire { c with h := { c.h with la := 0 } } mMemC s1 (nextSlot c.f.pc) [] []) :=
  (Eq.refl (execNeval h o s)).trans (run_issued (ready_of_readyFor (x := ⟨h, mMemC, _, _, _⟩) rfl hr) hb)

theorem nevstatCnt_done (h : Hdr) (o : OpR) : done (.nevstatCnt h o) (fun c => wrLanes c o.d 1 (fun _ => unlanded c.g)) :=
  completes_of_done rfl (fun s => Eq.refl (execNevstatCnt h o s)) fun _ _ => rfl

/-- The kick makes slots eligible only where a guarded lane has requests of its group to wait for. -/
theorem nevstatKick_completes (h : Hdr) (o : OpR) :
    completes (.nevstatKick h o) (fun _ => True)
      (fun c => if acts c = true ∧ unlanded c.g ≠ 0 then kickSlots c.s c.tm.core (fun r => r.group == c.key) else c.s)
      (fun c => wrLanes c o.d 1 (fun _ => unlanded c.g)) (fun _ => []) :=
  completes_of_done rfl (fun s => Eq.refl (execNevstatKick h o s)) fun c _ => by
    by_cases ha : acts c = true <;> by_cases hn : unlanded c.g = 0 <;> simp [ha, hn]

end Sys2Proof.Claims

/-- Settles O20: the checks of a `neval` lead to the entry of its requests, which have room; `nevstat` counts, and kicks. -/
theorem Sys2Proof.nevalInstructionsComplete : Obligations.NevalInstructionsComplete := by
  unfold Obligations.NevalInstructionsComplete
  exact fun h o => ⟨fun _ _ _ _ _ _ hr ha hx hn hfit hfree hall hroom hring =>
      Claims.exec_neval_of_issued h hr ((Claims.nevalRes_of_nets ha hx hn).trans (Claims.nevEnter_issued hfit hfree hall hroom hring)),
    Claims.nevstatCnt_done h o, Claims.nevstatKick_completes h o⟩
end

section
/-! Matrix streams (15 R292 to R300): what each instruction completes with in the sequencer that executes it. -/

namespace Sys2Proof.Claims

open Sys2Proof.Machine Sys2Proof.Machine.Ops Sys2Proof.Bits

section
variable {i : Instr} {o : OpX} {arrives : Bool} {body : Nat → Team → Seq → State → SRes} {s s1 s2 : State} {t : Nat} {tm : Team}
  {q : Seq}

/-- A stream instruction whose effect is done moves SPC to the next slot. -/
theorem exec_of_seqDone (he : exec i s = runSeq o arrives body s) (hr : streamReady s o arrives = some (t, tm, q, s1))
    (hb : body t tm q s1 = .done s2) : exec i s = .next (moveSeq s2 t nextSlot) := by
  rw [he, runSeq_ready hr, hb]
  rfl

theorem streamDone_of_done {ok : Nat → Team → Seq → State → Prop} {next : Nat → Team → Seq → State → State}
    (he : ∀ s, exec i s = runSeq o arrives body s) (hb : ∀ t tm q s, ok t tm q s → body t tm q s = .done (next t tm q s)) :
    streamDone i o arrives ok next :=
  fun s _ _ _ _ hr hk => exec_of_seqDone (he s) hr (hb _ _ _ _ hk)

end

/-! ### Operands in scratch and the B latch (R295, R296) -/

section
variable {o : OpX} {t : Nat} {tm : Team} {s : State}

/-- A latch is filled from the four groups that hold its quarters. -/
theorem mldbRes_done {fmt : Nat} {g0 g1 g2 g3 : Group} (hteam : o.cnt.toNat + 3 < teamGroups tm)
    (h0 : group? s (groupKey t o.cnt.toNat) = some g0) (h1 : group? s (groupKey t (o.cnt.toNat + 1)) = some g1)
    (h2 : group? s (groupKey t (o.cnt.toNat + 2)) = some g2) (h3 : group? s (groupKey t (o.cnt.toNat + 3)) = some g3)
    (hbase : field o.w.toNat 0 8 % 8 = 0)
    (hgroups : [g0, g1, g2, g3].all (fun g => decide (field o.w.toNat 0 8 + quarterRegs fmt ≤ g.nv) &&
      !resultDue g (field o.w.toNat 0 8) (quarterRegs fmt)) = true)
    (hblock : fmt = 9 ∨ scaleBlockOk tm o.y.toNat 64 = true) :
    mldbRes fmt o t tm s = .done (modSeq s t (fun q => { q with
      latch := latchOf fmt false ([g0, g1, g2, g3].flatMap (fun g => quarterBytes g (field o.w.toNat 0 8) (quarterRegs fmt)))
        (if fmt = 9 then 0 else 64) (if fmt = 9 then [] else seqBytes tm o.y.toNat 192) })) := by
  have hgs : (upto 4).filterMap (fun j => group? s (groupKey t (o.cnt.toNat + j))) = [g0, g1, g2, g3] := by
    simp [upto, List.range_succ, h0, h1, h2, h3]
  simp only [List.all_eq_true, Bool.and_eq_true, decide_eq_true_eq, Bool.not_eq_true'] at hgroups
  have hfits : [g0, g1, g2, g3].any (fun g => decide (g.nv < field o.w.toNat 0 8 + quarterRegs fmt)) = false :=
    List.any_eq_false.2 fun g hg => by simpa using (hgroups g hg).1
  have hdue : [g0, g1, g2, g3].any (fun g => resultDue g (field o.w.toNat 0 8) (quarterRegs fmt)) = false :=
    List.any_eq_false.2 fun g hg => by simp [(hgroups g hg).2]
  have hlegal : ¬(teamGroups tm ≤ o.cnt.toNat + 3 ∨ [g0, g1, g2, g3].length ≠ 4 ∨ field o.w.toNat 0 8 % 8 ≠ 0 ∨
      [g0, g1, g2, g3].any (fun g => decide (g.nv < field o.w.toNat 0 8 + quarterRegs fmt)) = true) := by
    simp only [hfits]
    simp [Nat.not_le.2 hteam, hbase]
  simp only [mldbRes, hgs, if_neg hlegal, hdue]
  by_cases hf : fmt = 9
  · simp only [hf, if_true]
    rfl
  · simp only [if_neg hf, hblock.resolve_left hf]
    rfl

/-- A latch is filled from an image in scratch and the scale block behind it. -/
theorem mldbsRes_done {fmt : Nat} :
    let batched := o.cnt == 1
    let rows := if batched then 256 else 32
    let bytes := imageBytes fmt (if batched then 16 else 64)
    let cols := if fmt = 9 then 0 else if batched then 256 else 64
    let z := if fmt = 9 then 2 else 1
    let y := o.y.toNat
    let w := o.w.toNat
    y % z = 0 → w % z = 0 → inScratch tm (y + (rows - 1) * w) bytes = true →
      (fmt = 9 ∨ scaleBlockOk tm (y + rows * w) cols = true) →
      mldbsRes fmt o t tm s = .done (modSeq s t (fun q => { q with
        latch := latchOf fmt batched ((upto rows).flatMap (fun r => seqBytes tm (y + r * w) bytes)) cols
          (seqBytes tm (y + rows * w) (3 * cols)) })) := by
  intro batched rows bytes cols z y w hy hw himage hblock
  refine (if_neg ?_).trans rfl
  rintro (h | h | h | ⟨hf, h⟩)
  · exact h hy
  · exact h hw
  · rw [himage] at h
    cases h
  · rw [hblock.resolve_left hf] at h
    cases h

theorem mscaleRes_done (hblock : scaleBlockOk tm o.y.toNat (if o.cnt = 1 then 256 else 64) = true) :
    let n := if o.cnt = 1 then 256 else 64
    let block := seqBytes tm o.y.toNat (3 * n)
    mscaleRes o t tm s = .done (modSeq s t (fun q => { q with
      saScale := Maps.putAll 0 0 (blockScales block n) q.saScale, saZero := Maps.putAll 0 0 (blockZeros block n) q.saZero })) := by
  simp only [mscaleRes, hblock, Bool.not_true, Bool.false_eq_true, if_false]

end

/-! ### Tiles (R297, R298) -/

section
variable {o : OpX} {t phys : Nat} {tm : Team} {q : Seq} {s s2 : State}

/-- An MMA that has the array adds its product to its tile and moves on along A. -/
theorem mmaRes_done {batched : Bool} (hok : mmaOk tm q batched = true) (htile : o.tile.toNat < tm.hdr.acc)
    (hc : claims t tm q o s phys s2) (hg : q.granted = true) :
    mmaRes batched o t tm q s = .done (modSeq
      (putTile s2 tm.core phys (mmaTile tm q batched (tileWords (Ops.core s2 tm.core) phys).toArray)) t
      (fun x => { x with aoff := BitVec.ofNat 32 (wrap 32 ((q.aoff.toNat : Int) + sext 24 o.y.toNat)) })) := by
  unfold claims at hc
  simp only [mmaRes, hok, Nat.not_le.2 htile, hc, hg]
  rfl

theorem mzeroRes_done (hc : claims t tm q o s phys s2) :
    mzeroRes o t tm q s = .done (putTile s2 tm.core phys (List.replicate 4096 0)) := by
  unfold claims at hc
  simp only [mzeroRes, hc]

/-- A tile is stored in scratch row by row. -/
theorem mstaccRes_done (hok : moveOk tm o = true) (hc : claims t tm q o s phys s2) :
    let ws := (tileWords (Ops.core s2 tm.core) phys).toArray
    let elem (i : Nat) : List Byte :=
      if o.cnt = 1 then toBytes 2 (bfOf (ws.getD i 0).toNat) else toBytes 4 (ws.getD i 0).toNat
    mstaccRes o t tm q s = .done (modTeam s2 t (fun x => { x with
      scratch := (upto 64).foldl (fun sc m => Maps.putAll 0 (o.y.toNat + m * o.w.toNat)
        ((upto 64).flatMap (fun n => elem (64 * m + n))) sc) x.scratch })) := by
  unfold claims at hc
  simp only [mstaccRes, hok, hc]
  rfl

/-- A tile is loaded from scratch row by row. -/
theorem mldaccRes_done (hok : moveOk tm o = true) (hc : claims t tm q o s phys s2) :
    let z := moveSize o
    let elem (m n : Nat) : Nat := ofBytes (((seqBytes tm (o.y.toNat + m * o.w.toNat) (64 * z)).drop (z * n)).take z)
    mldaccRes o t tm q s = .done (putTile s2 tm.core phys ((upto 64).flatMap (fun m => (upto 64).map (fun n =>
      BitVec.ofNat 32 (if z = 2 then (Num.toF32 Num.bf16 (elem m n)).bits else elem m n))))) := by
  unfold claims at hc
  simp only [mldaccRes, hok, hc]
  rfl

end

/-! ### Loops and meetings (R299, R300) -/

/-- The passes that a loop has left when its `mloop` is reached: its count at the first, its entry of the loop stack later. -/
def passesLeft (o : OpX) (q : Seq) : Nat :=
  if q.depth = field o.w.toNat 0 2 then o.cnt.toNat else Maps.get 0 (field o.w.toNat 0 2) q.lstk

/-- The target of the back edge of an `mloop`. -/
def backEdge (o : OpX) (q : Seq) : DWord :=
  BitVec.ofNat 64 (wrap 64 ((lineOf q.spc : Int) + 64 * sext 24 o.y.toNat) + o.sl.toNat)

section
variable {o : OpX} {t : Nat} {tm : Team} {q : Seq} {s s2 : State}

/-- What `mloop` does at a depth that is legal, by the passes left. -/
theorem mloopRes_eq (hd : q.depth = field o.w.toNat 0 2 ∨ q.depth = field o.w.toNat 0 2 + 1) :
    mloopRes o t tm q s =
      if passesLeft o q - 1 = 0 then
        .done (modSeq s t (fun q => { q with lstk := Maps.set 0 (field o.w.toNat 0 2) 0 q.lstk, depth := field o.w.toNat 0 2 }))
      else match checkStreamTarget tm (backEdge o q) s with
        | .error r => r
        | .ok s1 => .to_ (backEdge o q) (modSeq s1 t (fun x => { x with
            lstk := Maps.set 0 (field o.w.toNat 0 2) (passesLeft o q - 1) x.lstk, depth := field o.w.toNat 0 2 + 1 })) :=
  if_neg fun ⟨h, h1⟩ => hd.elim h h1

/-- The last pass of a loop leaves it. -/
theorem mloopRes_leaves (hd : q.depth = field o.w.toNat 0 2 ∨ q.depth = field o.w.toNat 0 2 + 1) (hn : passesLeft o q ≤ 1) :
    mloopRes o t tm q s = .done (modSeq s t (fun q => { q with
      lstk := Maps.set 0 (field o.w.toNat 0 2) 0 q.lstk, depth := field o.w.toNat 0 2 })) := by
  rw [mloopRes_eq hd, if_pos (Nat.sub_eq_zero_of_le hn)]

/-- Any other pass goes back to a target that passes its checks. -/
theorem mloopRes_goesBack (hd : q.depth = field o.w.toNat 0 2 ∨ q.depth = field o.w.toNat 0 2 + 1) (hn : passesLeft o q - 1 ≠ 0)
    (ht : checkStreamTarget tm (backEdge o q) s = .ok s2) :
    mloopRes o t tm q s = .to_ (backEdge o q) (modSeq s2 t (fun x => { x with
      lstk := Maps.set 0 (field o.w.toNat 0 2) (passesLeft o q - 1) x.lstk, depth := field o.w.toNat 0 2 + 1 })) := by
  rw [mloopRes_eq hd, if_neg hn, ht]

/-- An arrival that its point can count is counted. -/
theorem marrRes_done (hi : (rp tm o.rp.toNat).init = true)
    (hroom : (rp tm o.rp.toNat).arr < (rp tm o.rp.toNat).count ∨ (rp tm o.rp.toNat).next < (rp tm o.rp.toNat).count) :
    marrRes o t tm s = .done (countArrival
      { s with uid := s.uid + 1, arrivals := s.arrivals ++ [{ id := s.uid, team := t, rp := o.rp.toNat }] }
      { id := s.uid, team := t, rp := o.rp.toNat }) := by
  have hfull : (decide ((rp tm o.rp.toNat).count ≤ (rp tm o.rp.toNat).arr) &&
      decide ((rp tm o.rp.toNat).count ≤ (rp tm o.rp.toNat).next)) = false := by
    simpa [imp_iff_not_or] using hroom
  simp only [marrRes, hi, hfull]
  rfl

end

/-! ### The instructions -/

section
variable (h : Hdr) (o : OpX) {s s1 s2 : State} {t phys : Nat} {tm : Team} {q : Seq}

theorem mlda_done : streamDone (.mlda h o) o false (fun _ _ _ _ => True) (fun t _ _ s => modSeq s t (fun q => { q with
    aoff := BitVec.ofNat 32 o.y.toNat, astride := o.w.toNat, afmt := Checks.fmt h })) :=
  streamDone_of_done (fun s => Eq.refl (execMlda h o s)) fun _ _ _ _ _ => rfl

theorem mwait_done : streamDone (.mwait h o) o false (fun _ _ _ _ => True) (fun _ _ _ s => s) :=
  streamDone_of_done (fun s => Eq.refl (execMwait h o s)) fun _ _ _ _ _ => rfl

/-- Both forms of MMA, once they are granted the array. -/
theorem exec_mma (batched : Bool) (hr : streamReady s o false = some (t, tm, q, s1)) (hok : mmaOk tm q batched = true)
    (htile : o.tile.toNat < tm.hdr.acc) (hc : claims t tm q o s1 phys s2) (hg : q.granted = true) :
    exec (if batched then .mmaBat h o else .mma h o) s = .next (moveSeq
      (modSeq (putTile s2 tm.core phys (mmaTile tm q batched (tileWords (Ops.core s2 tm.core) phys).toArray)) t
        (fun x => { x with aoff := BitVec.ofNat 32 (wrap 32 ((q.aoff.toNat : Int) + sext 24 o.y.toNat)) })) t nextSlot) := by
  have he : exec (if batched then .mmaBat h o else .mma h o) s = runSeq o false (mmaRes batched o) s := by
    cases batched
    · exact Eq.refl (execMma h o s)
    · exact Eq.refl (execMmaBat h o s)
  exact exec_of_seqDone he hr (mmaRes_done hok htile hc hg)

/-- A loop that goes back takes SPC to the target of its back edge. -/
theorem exec_mloop_goesBack (hr : streamReady s o false = some (t, tm, q, s1))
    (hd : q.depth = field o.w.toNat 0 2 ∨ q.depth = field o.w.toNat 0 2 + 1) (hn : passesLeft o q - 1 ≠ 0)
    (ht : checkStreamTarget tm (backEdge o q) s1 = .ok s2) :
    exec (.mloop h o) s = .next (moveSeq (modSeq s2 t (fun x => { x with
      lstk := Maps.set 0 (field o.w.toNat 0 2) (passesLeft o q - 1) x.lstk, depth := field o.w.toNat 0 2 + 1 })) t
      (fun _ => backEdge o q)) := by
  change execMloop h o s = _
  rw [execMloop, runSeq_ready hr, mloopRes_goesBack hd hn ht]
  rfl

/-- The sequencer ends, and with it the team where nothing else of it remains. -/
theorem exec_mend (hr : streamReady s o false = some (t, tm, q, s1)) :
    exec (.mend h o) s = .next (settleTeam (modSeq s1 t (fun q => { q with ended := true })) t) := by
  change execMend h o s = _
  rw [execMend, runSeq_ready hr]
  rfl

end

end Sys2Proof.Claims

open Sys2Proof.Machine in
/-- Settles O23: each instruction's effect is done as its lemma above says, which moves SPC on; a loop that goes back and the end
of the sequencer move it themselves. -/
theorem Sys2Proof.streamInstructionsComplete : Obligations.StreamInstructionsComplete := by
  unfold Obligations.StreamInstructionsComplete
  intro h o
  refine ⟨Claims.mlda_done h o, ?mldb, ?mldbs, ?mscale, fun batched _ _ _ _ _ _ _ => Claims.exec_mma h o batched, ?mzero, ?mstacc,
    ?mldacc, ?last, ?back, ?marr, Claims.mwait_done h o, fun _ _ _ _ _ => Claims.exec_mend h o⟩
  case mldb =>
    exact fun s _ _ _ _ _ _ _ _ hr hteam h0 h1 h2 h3 hbase hgroups hblock =>
      Claims.exec_of_seqDone (Eq.refl (execMldb h o s)) hr (Claims.mldbRes_done hteam h0 h1 h2 h3 hbase hgroups hblock)
  case mldbs =>
    exact Claims.streamDone_of_done (fun s => Eq.refl (execMldbs h o s)) fun _ _ _ _ ⟨hy, hw, himage, hblock⟩ =>
      Claims.mldbsRes_done hy hw himage hblock
  case mscale =>
    exact Claims.streamDone_of_done (fun s => Eq.refl (execMscale h o s)) fun _ _ _ _ => Claims.mscaleRes_done
  case mzero =>
    exact fun s _ _ _ _ _ _ hr hc => Claims.exec_of_seqDone (Eq.refl (execMzero h o s)) hr (Claims.mzeroRes_done hc)
  case mstacc =>
    exact fun s _ _ _ _ _ _ hr hok hc => Claims.exec_of_seqDone (Eq.refl (execMstacc h o s)) hr (Claims.mstaccRes_done hok hc)
  case mldacc =>
    exact fun s _ _ _ _ _ _ hr hok hc => Claims.exec_of_seqDone (Eq.refl (execMldacc h o s)) hr (Claims.mldaccRes_done hok hc)
  case last =>
    exact fun s _ _ _ _ hr hd hn => Claims.exec_of_seqDone (Eq.refl (execMloop h o s)) hr (Claims.mloopRes_leaves hd hn)
  case back =>
    rintro s t tm q s1 s2 _ _ hr hd rfl hn rfl ht
    exact Claims.exec_mloop_goesBack h o hr hd hn ht
  case marr =>
    exact Claims.streamDone_of_done (fun s => Eq.refl (execMarr h o s)) fun _ _ _ _ ⟨hi, hroom⟩ => Claims.marrRes_done hi hroom
end

section
/-! The Almanac (24 R426 to R433): what each instruction completes with, and the stages through which a `stcm` goes. -/

namespace Sys2Proof.Claims

open Sys2Proof.Machine Sys2Proof.Machine.Ops Sys2Proof.Bits

/-! ### Reading and awaiting the interval (R430, R433) -/

theorem alm_completes (h : Hdr) (o : OpR) :
    let k (c : Ctx) : Die := die c.s (dieOf c.tm.core)
    completes (.alm h o) (fun _ => True)
      (fun c => if acts c = true then modGroup c.s c.key (fun g => { g with almE := (k c).e, almL := (k c).l }) else c.s)
      (fun c => wrLanes c o.d 2 (fun _ => (k c).e) ++ wrLanes c o.c 2 (fun _ => (k c).l)) (fun _ => []) :=
  completes_of_done rfl (fun s => Eq.refl (execAlm h o s)) fun _ _ => rfl

theorem almhz_completes (h : Hdr) (o : OpR) :
    let k (c : Ctx) : Die := die c.s (dieOf c.tm.core)
    completes (.almhz h o) (fun _ => True)
      (fun c => if acts c = true then modGroup c.s c.key (fun g => { g with almH := (k c).h }) else c.s)
      (fun c => wrLanes c o.d 2 (fun _ => (k c).h)) (fun _ => []) :=
  completes_of_done rfl (fun s => Eq.refl (execAlmhz h o s)) fun _ _ => rfl

theorem almwait_effects (h : Hdr) (x : OpS) :
    effects (.almwait h x) (fun c => acts c = true → passed c.s (dieOf c.tm.core) (rdPair c x.a 0) = true) (fun c => c.s) :=
  completes_of_done rfl (fun s => Eq.refl (execAlmwait h x s)) fun c hp => if_pos (by
    cases ha : acts c with
    | false => rfl
    | true => exact hp ha)

/-! ### The width check (R426) -/

/-- An interval within the limit passes the check at once, also at the end of a wait for it. -/
theorem widthWait_narrow {c : Ctx} {st : Nat → Stage} {s : State}
    (hw : width? s (dieOf c.tm.core) ≤ (die s (dieOf c.tm.core)).almlimit.toNat) : widthWait c st s = none := by
  have hwide : decide ((die s (dieOf c.tm.core)).almlimit.toNat < width? s (dieOf c.tm.core)) = false :=
    decide_eq_false (Nat.not_lt.2 hw)
  simp only [widthWait, hwide]
  cases widthEnd c.f.stage <;> rfl

/-! ### `stcm` (R431) -/

/-- The lanes that a page's policy keeps from storing. -/
def discardedLanes (ps : List (Acc × Place)) : Nat :=
  maskOf ((ps.filter (fun e => match e.2 with | .mem _ _ => false | _ => true)).map (fun e => e.1.lane))

/-- The effect of `stcm` in a context, by the stage at which its fragment stands. -/
def stcmStep (o : OpM) (c : Ctx) : Res :=
  match c.f.stage with
  | .commit stamp discarded =>
    if (ownLanes c c.s).any (laneLost c.s) then .kill 0x1F c.s
    else if (ownLanes c c.s).all (laneVisible c.s) then commitDone c o stamp discarded c.s
    else .wait c.s
  | .sending id => if released c.s id then stcmSend c o else .wait c.s
  | .sendWidth _ ps => if placesLost c ps then .kill 0x1F c.s else stcmWidth c o ps c.s
  | _ =>
    if !acts c then noEffect c
    else if accessOpen c.s c.key then .wait c.s
    else .wait (setStage c (beginRelease c.s c 6 0).2 (.sending (beginRelease c.s c 6 0).1))

theorem exec_stcm (h : Hdr) (o : OpM) (s : State) :
    exec (.stcm h o) s = run (.stcm h o) h mStoreC ([dstP o.data] ++ addrOpnds o) [] (stcmStep o) s := Eq.refl (execStcm h o s)

section
variable {o : OpM} {c : Ctx} {ps : List (Acc × Place)} {s1 : State}

/-- Past a width check that passes, the lanes are sent with the die's L as their stamp. -/
theorem stcmWidth_sends (hw : width? s1 (dieOf c.tm.core) ≤ (die s1 (dieOf c.tm.core)).almlimit.toNat)
    (hd : discardedLanes ps ≠ c.pass) : stcmWidth c o ps s1 =
      .wait (setStage c (sendLanes c o ps s1) (.commit (die s1 (dieOf c.tm.core)).l (discardedLanes ps))) := by
  simp only [stcmWidth, widthWait_narrow hw]
  exact if_neg hd

/-- Places that are all stamped go on to the width check. -/
theorem stcmSend_of_access (ha : access c o stcmNeeds (laneAccs c o 8) = .ok (ps, s1)) (hs : unstamped ps = 0) :
    stcmSend c o = stcmWidth c o ps s1 := by
  simp only [stcmSend, stcmPlaces, ha, hs, ne_eq, not_true_eq_false, if_false]

/-- Once its release has completed, or its wait for the width is over, `stcm` comes to the width check with its places. -/
theorem stcmStep_width
    (hc : (∃ id, c.f.stage = .sending id ∧ released c.s id = true ∧ access c o stcmNeeds (laneAccs c o 8) = .ok (ps, s1) ∧
        unstamped ps = 0) ∨
      (∃ t, c.f.stage = .sendWidth t ps ∧ placesLost c ps = false ∧ s1 = c.s)) : stcmStep o c = stcmWidth c o ps s1 := by
  obtain ⟨id, hstage, hrel, ha, hs⟩ | ⟨t, hstage, hlost, rfl⟩ := hc
  · simp only [stcmStep, hstage, hrel, if_true, stcmSend_of_access ha hs]
  · simp only [stcmStep, hstage, hlost, Bool.false_eq_true, if_false]

end

/-- A `stcm` begins with its release, numbered by the next fresh number. -/
theorem stcm_releases (h : Hdr) (o : OpM) :
    waits (.stcm h o) (fun c => c.f.stage = .fresh ∧ acts c = true ∧ accessOpen c.s c.key = false)
      (fun c => setStage c (beginRelease c.s c 6 0).2 (.sending c.s.uid)) :=
  waits_of_wait rfl (exec_stcm h o) fun c ⟨hstage, ha, hopen⟩ => by
    simp only [stcmStep, hstage, ha, hopen, Bool.not_true, Bool.false_eq_true, if_false]
    rfl

theorem stcm_sends (h : Hdr) {o : OpM} {s s1 : State} {c : Ctx} {ps : List (Acc × Place)} (hr : readyFor s (.stcm h o) = some c)
    (hc : (∃ id, c.f.stage = .sending id ∧ released c.s id = true ∧ access c o stcmNeeds (laneAccs c o 8) = .ok (ps, s1) ∧
        unstamped ps = 0) ∨
      (∃ t, c.f.stage = .sendWidth t ps ∧ placesLost c ps = false ∧ s1 = c.s))
    (hw : width? s1 (dieOf c.tm.core) ≤ (die s1 (dieOf c.tm.core)).almlimit.toNat) (hd : discardedLanes ps ≠ c.pass) :
    exec (.stcm h o) s =
      .next (setStage c (sendLanes c o ps s1) (.commit (die s1 (dieOf c.tm.core)).l (discardedLanes ps))) := by
  rw [exec_stcm]
  exact run_wait (ready_of_readyFor (x := ⟨h, mStoreC, _, _, _⟩) rfl hr) ((stcmStep_width hc).trans (stcmWidth_sends hw hd))

/-- A `stcm` completes once all its lanes are visible. -/
theorem stcm_commits (h : Hdr) {o : OpM} {s : State} {c : Ctx} {stamp d : Nat} (hr : readyFor s (.stcm h o) = some c)
    (hstage : c.f.stage = .commit stamp d) (hlost : (ownLanes c c.s).any (laneLost c.s) = false)
    (hall : (ownLanes c c.s).all (laneVisible c.s) = true) : finishesWith (.stcm h o) s c (commitDone c o stamp d c.s) := by
  refine ⟨_, _, _, rfl, exec_of_done (x := ⟨h, mStoreC, _, _, _⟩) rfl (exec_stcm h o s) hr ?_⟩
  simp only [stcmStep, hstage, hlost, hall, Bool.false_eq_true, if_false, if_true]
  rfl

/-! ### `ldasof` (R432) -/

/-- The effect of `ldasof` in a context. -/
def ldasofStep (o : OpR) (c : Ctx) : Res :=
  let d := dieOf c.tm.core
  let t := rdPair c o.b 0
  if !acts c then noEffect c
  else if (die c.s d).l + 2 ^ 40 ≤ t then illegal c c.s
  else match c.f.stage with
    | .horizon => if (die c.s d).h ≤ t then .wait c.s else asofLoad c o t c.s
    | _ => match widthWait c .width c.s with
      | some r => r
      | none =>
        let s1 := setStage c c.s .horizon
        if (die c.s d).h ≤ t then .wait s1 else asofLoad c o t s1

theorem exec_ldasof (h : Hdr) (o : OpR) (s : State) : exec (.ldasof h o) s = run (.ldasof h o) h mMem
    [{ reg := o.d, count := 4, align := 4, file := .vec, dest := true }, srcP o.a, (srcP o.b).inUni] [] (ldasofStep o) s :=
  Eq.refl (execLdasof h o s)

section
variable {o : OpR} {c : Ctx} {s0 s1 : State} {t : Nat} {ps : List (Acc × Place)}

/-- Once the horizon has passed its time, `ldasof` loads. -/
theorem ldasofStep_loads (ha : acts c = true) (ht : rdPair c o.b 0 < (die c.s (dieOf c.tm.core)).l + 2 ^ 40)
    (hc : (c.f.stage = .horizon ∧ s0 = c.s) ∨
      (c.f.stage ≠ .horizon ∧ width? c.s (dieOf c.tm.core) ≤ (die c.s (dieOf c.tm.core)).almlimit.toNat ∧
        s0 = setStage c c.s .horizon))
    (hh : rdPair c o.b 0 < (die c.s (dieOf c.tm.core)).h) : ldasofStep o c = asofLoad c o (rdPair c o.b 0) s0 := by
  simp only [ldasofStep, ha, Nat.not_le.2 ht, Nat.not_le.2 hh, Bool.not_true, Bool.false_eq_true, if_false]
  obtain ⟨hstage, rfl⟩ | ⟨hstage, hw, rfl⟩ := hc
  · simp only [hstage]
  · simp only [widthWait_narrow hw]

/-- The load as of a time of which every line still has a version (R432). -/
theorem asofLoad_done (hres : resolve c s0 0 0 { spaces := [0], rd := 1, access := 1, ctrl := false }
      ((lanesOf c.pass).map (fun l => { lane := l, ea := rdPair c o.a l, n := 8 })) = .ok (ps, s1))
    (hs : unstamped ps = 0) (hold : maskOf ((ps.filter (fun e => evicted s1 t e.2)).map (fun e => e.1.lane)) = 0) :
    asofLoad c o t s0 = .done s1 (ps.flatMap (fun e => wrN o.d 4 e.1.lane (asofValue s1 t e.2)))
      ((ps.map (fun e => (e.1.lane, policyFlags e.2))).filter (fun e => e.2 != 0)) := by
  simp only [asofLoad, hres, hs, hold, ne_eq, not_true_eq_false, if_false]

end

end Sys2Proof.Claims

open Sys2Proof.Machine Sys2Proof.Machine.Ops in
/-- Settles O19: `stcm` goes from its release over the width check to its commit, `ldasof` loads past the horizon, and the other
instructions read or await the die's interval. -/
theorem Sys2Proof.almanacInstructionsComplete : Obligations.AlmanacInstructionsComplete := by
  unfold Obligations.AlmanacInstructionsComplete
  intro h o m x
  refine ⟨Claims.alm_completes h o, Claims.almhz_completes h o, Claims.stcm_releases h m, fun _ _ _ _ => Claims.stcm_sends h,
    fun _ _ _ _ => Claims.stcm_commits h, ?ldasof, Claims.almwait_effects h x⟩
  case ldasof =>
    exact fun s _ _ _ _ hr ha ht hc hh hres hs hold =>
      Claims.exec_of_done (x := ⟨h, mMem, _, _, _⟩) rfl (Claims.exec_ldasof h o s) hr
        ((Claims.ldasofStep_loads ha ht hc hh).trans (Claims.asofLoad_done hres hs hold))
end

section
/-! Sample sets (18 R365 to R373): what each instruction completes with once its record is reached. -/

namespace Sys2Proof.Claims

open Sys2Proof.Machine Sys2Proof.Machine.Ops Sys2Proof.Bits

/-! ### From the record to the end of the instruction -/

section
variable {i : Instr} {x : Shape} {o : OpG} {writes : Bool} {body : Ctx → Nat → Nat → List Byte → State → Res} {s s1 s2 : State}
  {c : Ctx} {h pa leaf : Nat} {w : List RegWrite} {fl : List (Nat × Nat)}

/-- An instruction that reaches its record acts on the bytes that it reads there. -/
theorem withRecord_of_atRecord (hat : atRecord c o writes h pa leaf s1) (body : Nat → Nat → List Byte → State → Res) :
    withRecord c o c.active writes body = body h pa (seenBytes s1 pa 256) s1 := by
  obtain ⟨ha, rfl, hcanon, halign, htr, hreach, hstamp, hfree⟩ := hat
  simp only [withRecord, ha, hcanon, halign, htr, hreach, hstamp, hfree]
  rfl

/-- An effect that is done ends its instruction. -/
theorem finishesWith_of_done {eff : Ctx → Res} {r : Res} (hx : shapeOf i = some x)
    (he : exec i s = run i x.hdr x.marks x.opnds x.preds eff s) (hr : readyFor s i = some c) (hb : eff c = r)
    (hd : ∃ s2 w fl, r = .done s2 w fl) : finishesWith i s c r := by
  obtain ⟨s2, w, fl, rfl⟩ := hd
  exact ⟨s2, w, fl, rfl, by rw [marksOf_eq hx]; exact exec_of_done hx he hr hb⟩

/-- An instruction at a record completes as its effect there does. -/
theorem exec_atRecord (hx : shapeOf i = some x)
    (he : exec i s = run i x.hdr x.marks x.opnds x.preds (fun c => withRecord c o c.active writes (body c)) s)
    (hr : readyFor s i = some c) (hat : atRecord c o writes h pa leaf s1)
    (hb : body c h pa (seenBytes s1 pa 256) s1 = .done s2 w fl) :
    exec i s = .next (retire c x.marks s2 (nextSlot c.f.pc) w fl) :=
  exec_of_done hx he hr ((withRecord_of_atRecord hat (body c)).trans hb)

theorem finishesWith_atRecord {r : Res} (hx : shapeOf i = some x)
    (he : exec i s = run i x.hdr x.marks x.opnds x.preds (fun c => withRecord c o c.active writes (body c)) s)
    (hr : readyFor s i = some c) (hat : atRecord c o writes h pa leaf s1) (hb : body c h pa (seenBytes s1 pa 256) s1 = r)
    (hd : ∃ s2 w fl, r = .done s2 w fl) : finishesWith i s c r :=
  finishesWith_of_done hx he hr ((withRecord_of_atRecord hat (body c)).trans hb) hd

end

/-! ### `ssnew` (R367) -/

/-- The effect of `ssnew` at its record. -/
def newSet (c : Ctx) (o : OpG) (h pa : Nat) (rec : List Byte) (s : State) : Res :=
  if recState rec ≠ 0 || !paramsOk rec then illegal c s
  else if recKind rec = 0 then newGrid c o h pa rec s
  else .done (putSet (setWrite c s pa (putState (freshRecord rec) 1)) c h { ctx := c.tm.ctx, handle := h })
    (wrLanes c o.d 1 (fun _ => 0)) []

theorem exec_ssnew (hd : Hdr) (o : OpG) (s : State) : exec (.ssnew hd o) s = run (.ssnew hd o) hd mMemC [dst o.d, setOpnd o] []
    (fun c => withRecord c o c.active true (newSet c o)) s := Eq.refl (execSsnew hd o s)

section
variable {c : Ctx} {o : OpG} {h pa : Nat} {rec : List Byte} {s : State}

theorem newSet_of_free (hstate : recState rec = 0) (hparams : paramsOk rec = true) : newSet c o h pa rec s =
    if recKind rec = 0 then newGrid c o h pa rec s
    else .done (putSet (setWrite c s pa (putState (freshRecord rec) 1)) c h { ctx := c.tm.ctx, handle := h })
      (wrLanes c o.d 1 (fun _ => 0)) [] :=
  if_neg (by simp [hstate, hparams])

/-- A lattice whose samples and index can be written is made. -/
theorem newGrid_done {g : Grid} {ws ix : List (Nat × Nat)}
    (hg : g = topGrid (recCellreq rec) (latticePoints (recGw rec) (recCap rec))) (hcode : buildCode rec g (recCap rec) = 0)
    (hws : setRange c s 0 1 c.active (recSamples rec) (64 * recCap rec) = .ok ws)
    (hix : setRange c s 0 1 c.active (recIndex rec) (indexBytes g (recCap rec)) = .ok ix) :
    ∃ s2 w fl, newGrid c o h pa rec s = .done s2 w fl := by
  subst hg
  simp only [newGrid, hcode, hws, hix, ne_eq, not_true_eq_false, if_false]
  exact ⟨_, _, _, rfl⟩

end

/-! ### `ssadd` and `ssbuild` (R368, R369) -/

section
variable {c : Ctx} {o : OpG} {h pa : Nat} {rec : List Byte} {s : State}

/-- Samples that can all be written are added. -/
theorem addLanes_adds (hrun : Opnd.legal c.g (addRun o (recFp rec)) = true)
    (hheld : (addRun o (recFp rec)).names.any (fun n => (held c.g).contains n) = false) (hstate : recState rec ≠ 0)
    (hadd : addable c rec s) :
    addLanes c o h pa rec s = addSamples c o h pa rec (addPlan c rec s).1 (addPlan c rec s).2 := by
  obtain ⟨hcanon, hjudge, hfree⟩ := hadd
  unfold addTrs addPlan at *
  simp only [addLanes, hrun, hheld, hstate, hcanon, hjudge, hfree, Bool.not_true, Bool.and_false, Bool.false_eq_true, if_false,
    ne_eq, not_true_eq_false]

theorem addSamples_done (plan : List (Nat × Option (Acc × Tr × Nat))) : ∃ s2 w fl, addSamples c o h pa rec plan s = .done s2 w fl :=
  ⟨_, _, _, rfl⟩

end

theorem exec_ssadd (hd : Hdr) (o : OpG) (s : State) : exec (.ssadd hd o) s =
    run (.ssadd hd o) hd mMemC [(dst o.d).inVec, (src o.a).inVec, setOpnd o] []
      (fun c => withRecord c o c.active true (addLanes c o)) s := Eq.refl (execSsadd hd o s)

/-- The effect of `ssbuild` at its record. -/
def buildSet (c : Ctx) (o : OpG) (h pa : Nat) (rec : List Byte) (s : State) : Res :=
  if recState rec = 0 ∨ recState rec = 3 then illegal c s
  else match planBuild c s rec with
    | .error e => e
    | .ok b => .done (applyBuild c h pa b s) (wrLanes c o.d 1 (fun _ => b.code)) []

theorem exec_ssbuild (hd : Hdr) (o : OpG) (s : State) : exec (.ssbuild hd o) s =
    run (.ssbuild hd o) hd mMemC [dst o.d, setOpnd o] [] (fun c => withRecord c o c.active true (buildSet c o)) s :=
  Eq.refl (execSsbuild hd o s)

theorem buildSet_done {c : Ctx} {o : OpG} {h pa : Nat} {rec : List Byte} {s : State} {b : Built} (hfree : recState rec ≠ 0)
    (hbound : recState rec ≠ 3) (hb : planBuild c s rec = .ok b) :
    buildSet c o h pa rec s = .done (applyBuild c h pa b s) (wrLanes c o.d 1 (fun _ => b.code)) [] := by
  simp only [buildSet, hfree, hbound, or_self, if_false, hb]

/-! ### `ssbind` and `ssrebind` (R370, R371) -/

section
variable {c : Ctx} {o : OpG} {h pa heads : Nat} {rec : List Byte} {s : State} {hdr : Header} {b : Built} {ws : List (Nat × List Byte)}

theorem applyBind_done (a : BindArgs) : ∃ s2 w fl, applyBind c o h pa rec a hdr ws s = .done s2 w fl := ⟨_, _, _, rfl⟩

/-- A bind that began the pass for which the set is bound returns its number (R371). -/
theorem bindSet_replayed {again : Bool} (hrep : bindReplayed c s h rec = true) :
    bindSet again c o h pa rec s = .done s (wrLanes c o.d 1 (fun _ => recPass rec)) [] := if_pos hrep

theorem ssbind_binds (hrep : bindReplayed c s h rec = false) (hchecks : bindChecks c s rec (bindArgs c o) = .ok (heads, hdr))
    (hplan : planBind c s rec (bindArgs c o) heads = .ok ws) :
    bindSet false c o h pa rec s = applyBind c o h pa rec (bindArgs c o) hdr ws s := by
  simp [bindSet, hrep, hchecks, hplan]

/-- A rebuild that does not come out leaves the set unbound. -/
theorem ssrebind_refused (hrep : bindReplayed c s h rec = false) (hchecks : bindChecks c s rec (bindArgs c o) = .ok (heads, hdr))
    (hbuild : planBuild c s rec = .ok b) (hcode : b.code ≠ 0) :
    bindSet true c o h pa rec s = .done (applyBuild c h pa b s) (wrLanes c o.d 1 (fun _ => 0xFFFFFFFF)) [] := by
  simp [bindSet, hrep, hchecks, hbuild, hcode]

/-- A rebuild that comes out is bound as it left the record. -/
theorem ssrebind_binds (hrep : bindReplayed c s h rec = false) (hchecks : bindChecks c s rec (bindArgs c o) = .ok (heads, hdr))
    (hbuild : planBuild c s rec = .ok b) (hcode : b.code = 0) (hplan : planBind c s b.out (bindArgs c o) heads = .ok ws) :
    bindSet true c o h pa rec s = applyBind c o h pa b.out (bindArgs c o) hdr ws (applyBuild c h pa b s) := by
  simp [bindSet, hrep, hchecks, hbuild, hcode, hplan]

end

section
variable (hd : Hdr) (o : OpG)

/-- The shape of both forms of bind. -/
def bindShape : Shape := { hdr := hd, marks := mMem, opnds := bindOpnds o }

theorem exec_ssbind (s : State) : exec (.ssbind hd o) s = run (.ssbind hd o) hd mMem (bindOpnds o) []
    (fun c => withRecord c o c.active true (bindSet false c o)) s := Eq.refl (execSsbind hd o s)

theorem exec_ssrebind (s : State) : exec (.ssrebind hd o) s = run (.ssrebind hd o) hd mMem (bindOpnds o) []
    (fun c => withRecord c o c.active true (bindSet true c o)) s := Eq.refl (execSsrebind hd o s)

/-- Either form that began the pass for which its set is bound completes with the number of the pass. -/
theorem exec_bind_replayed (again : Bool) {s s1 : State} {c : Ctx} {x pa leaf : Nat}
    (hr : readyFor s (if again then .ssrebind hd o else .ssbind hd o) = some c) (hat : atRecord c o true x pa leaf s1)
    (hrep : bindReplayed c s1 x (seenBytes s1 pa 256) = true) :
    exec (if again then .ssrebind hd o else .ssbind hd o) s = .next (retire c mMem s1 (nextSlot c.f.pc)
      (wrLanes c o.d 1 (fun _ => recPass (seenBytes s1 pa 256))) []) := by
  cases again <;> simp only [Bool.false_eq_true, if_false, if_true] at hr ⊢
  · exact exec_atRecord (x := bindShape hd o) rfl (exec_ssbind hd o s) hr hat (bindSet_replayed hrep)
  · exact exec_atRecord (x := bindShape hd o) rfl (exec_ssrebind hd o s) hr hat (bindSet_replayed hrep)

end

/-! ### `ssfree` and `ssget` (R372, R373) -/

/-- The effect of `ssfree` in a context. -/
def freeStep (o : OpG) (c : Ctx) : Res :=
  match c.f.stage with
  | .released => noEffect c
  | _ => withRecord c o c.active true (freeLanes c)

theorem exec_ssfree (hd : Hdr) (o : OpG) (s : State) :
    exec (.ssfree hd o) s = run (.ssfree hd o) hd mMemC [setOpnd o] [] (freeStep o) s := Eq.refl (execSsfree hd o s)

theorem freeStep_eq {o : OpG} {c : Ctx} (hs : c.f.stage ≠ .released) :
    freeStep o c = withRecord c o c.active true (freeLanes c) := by
  unfold freeStep
  split
  · next h => exact absurd h hs
  · rfl

section
variable {c : Ctx} {h pa : Nat} {rec : List Byte} {s : State}

/-- A set that is neither free nor bound is freed for one that has not waited, or whom nobody is before. -/
theorem freeLanes_first (hfree : recState rec ≠ 0) (hbound : recState rec ≠ 3)
    (hw : ticketOf c.f.stage = none ∨ (setSt s c h).freers = []) : freeLanes c h pa rec s = .done (freeSet c h pa s) [] [] := by
  simp only [freeLanes, hfree, hbound, if_false]
  obtain hw | hw := hw <;> rw [hw]
  cases ticketOf c.f.stage <;> rfl

/-- It is freed for one that waits, once its turn has come or its place has been given up. -/
theorem freeLanes_turn {t : Nat} {f : Nat × Nat} {fs : List (Nat × Nat)} (hfree : recState rec ≠ 0) (hbound : recState rec ≠ 3)
    (ht : ticketOf c.f.stage = some t) (hq : (setSt s c h).freers = f :: fs)
    (hturn : f.1 = t ∨ (f :: fs).all (fun e => e.1 != t) = true) :
    freeLanes c h pa rec s = .done (freeSet c h pa s) [] [] := by
  have hgo : f.1 = t ∨ (!(f :: fs).any (fun e => e.1 == t)) = true := hturn.imp id fun h => by simpa using h
  simp only [freeLanes, hfree, hbound, if_false, ht, hq]
  exact if_pos hgo

theorem exec_ssfree_of_done {hd : Hdr} {o : OpG} {x leaf : Nat} {s0 : State} (hr : readyFor s0 (.ssfree hd o) = some c)
    (hat : atRecord c o true x pa leaf s) (hs : c.f.stage ≠ .released)
    (hb : freeLanes c x pa (seenBytes s pa 256) s = .done (freeSet c x pa s) [] []) :
    exec (.ssfree hd o) s0 = .next (retire c mMemC (freeSet c x pa s) (nextSlot c.f.pc) [] []) :=
  exec_of_done (x := ⟨hd, mMemC, _, _, _⟩) rfl (exec_ssfree hd o s0) hr
    ((freeStep_eq hs).trans ((withRecord_of_atRecord hat _).trans hb))

end

theorem stage_ne_released_of_ticket {st : Stage} {t : Nat} (h : ticketOf st = some t) : st ≠ .released := by
  rintro rfl
  cases h

/-- An `ssfree` whose set the end of its pass has freed only advances (R372). -/
theorem ssfree_released (hd : Hdr) (o : OpG) : effects (.ssfree hd o) (fun c => c.f.stage = .released) (fun c => c.s) :=
  completes_of_done rfl (exec_ssfree hd o) fun c hs => by simp only [freeStep, hs, noEffect]

theorem exec_ssget (hd : Hdr) (o : OpG) (s : State) : exec (.ssget hd o) s = run (.ssget hd o) hd mMem [dst o.d, setOpnd o] []
    (fun c => withRecord c o c.active false (fun _ _ rec s => .done s (wrLanes c o.d 1 (fun _ => getField rec o.sub.toNat)) [])) s :=
  Eq.refl (execSsget hd o s)

end Sys2Proof.Claims

open Sys2Proof.Machine Sys2Proof.Machine.Ops in
/-- Settles O21: each instruction acts on the bytes of its record, and its effect there is done as its lemma above says. -/
theorem Sys2Proof.sampleSetInstructionsComplete : Obligations.SampleSetInstructionsComplete := by
  unfold Obligations.SampleSetInstructionsComplete
  intro h o
  refine ⟨?list, ?grid, ?add, ?build, fun again _ _ _ _ _ _ => Claims.exec_bind_replayed h o again, ?bind, ?rebind,
    Claims.ssfree_released h o, ?first, ?turn, ?get⟩
  case list =>
    exact fun s c _ _ _ _ hr hat hstate hparams hkind =>
      Claims.exec_atRecord (x := ⟨h, mMemC, _, _, _⟩) rfl (Claims.exec_ssnew h o s) hr hat
        ((Claims.newSet_of_free hstate hparams).trans (if_neg hkind))
  case grid =>
    exact fun s c _ _ _ _ _ _ hr hat hstate hparams hkind hcode hws hix =>
      Claims.finishesWith_atRecord (x := ⟨h, mMemC, _, _, _⟩) rfl (Claims.exec_ssnew h o s) hr hat
        ((Claims.newSet_of_free hstate hparams).trans (if_pos hkind)) (Claims.newGrid_done rfl hcode hws hix)
  case add =>
    exact fun s c _ _ _ _ hr hat hrun hheld hstate hadd =>
      Claims.finishesWith_atRecord (x := ⟨h, mMemC, _, _, _⟩) rfl (Claims.exec_ssadd h o s) hr hat
        (Claims.addLanes_adds hrun hheld hstate hadd) (Claims.addSamples_done _)
  case build =>
    exact fun s c _ _ _ _ _ hr hat hfree hbound hb =>
      Claims.exec_atRecord (x := ⟨h, mMemC, _, _, _⟩) rfl (Claims.exec_ssbuild h o s) hr hat (Claims.buildSet_done hfree hbound hb)
  case bind =>
    exact fun s c _ _ _ _ _ _ _ hr hat hrep hchecks hplan =>
      Claims.finishesWith_atRecord (x := Claims.bindShape h o) rfl (Claims.exec_ssbind h o s) hr hat
        (Claims.ssbind_binds hrep hchecks hplan) (Claims.applyBind_done _)
  case rebind =>
    exact fun s c _ _ _ _ _ _ _ _ hr hat hrep hchecks hbuild =>
      ⟨fun hcode => Claims.exec_atRecord (x := Claims.bindShape h o) rfl (Claims.exec_ssrebind h o s) hr hat
          (Claims.ssrebind_refused hrep hchecks hbuild hcode),
        fun hcode hplan => Claims.finishesWith_atRecord (x := Claims.bindShape h o) rfl (Claims.exec_ssrebind h o s) hr hat
          (Claims.ssrebind_binds hrep hchecks hbuild hcode hplan) (Claims.applyBind_done _)⟩
  case first =>
    exact fun s c _ _ _ _ hr hat hs hfree hbound hw =>
      Claims.exec_ssfree_of_done hr hat hs (Claims.freeLanes_first hfree hbound hw)
  case turn =>
    exact fun s c _ _ _ _ _ _ _ hr hat hfree hbound ht hq hturn =>
      Claims.exec_ssfree_of_done hr hat (Claims.stage_ne_released_of_ticket ht) (Claims.freeLanes_turn hfree hbound ht hq hturn)
  case get =>
    exact fun s c _ _ _ _ hr hat => Claims.exec_atRecord (x := ⟨h, mMem, _, _, _⟩) rfl (Claims.exec_ssget h o s) hr hat rfl
end

section
/-! Emissions, `rflush` and the instructions of fragment kernels (18 R374 to R378): what each completes with. -/

namespace Sys2Proof.Claims

open Sys2Proof.Machine Sys2Proof.Machine.Ops Sys2Proof.Bits

/-! ### Emissions (R374, R375) -/

section
variable {c : Ctx} {o : OpG} {h : Nat} {rec : List Byte} {s : State}

/-- An emission whose run is accessible acts at its record. -/
theorem withRun_of_atRecord {n pa leaf : Nat} (hat : atRecord c o false h pa leaf s) (hrun : runOk c o n)
    (body : Nat → Nat → List Byte → State → Res) : withRun c o n body = body h pa (seenBytes s pa 256) s := by
  unfold runOk at hrun
  rw [withRun, withRecord_of_atRecord hat, hrun]
  rfl

/-- Vertices that no enabled trap refuses are stored. -/
theorem emitVertices_done (hb : emitsTo s c h rec = true) (ht : emitTrap c (vertexPlan c) s = none) :
    ∃ s2 w fl, emitVertices c o h rec s = .done s2 w fl := by
  unfold vertexPlan at ht
  simp only [emitVertices, hb, ht]
  exact ⟨_, _, _, rfl⟩

/-- Primitives that no enabled trap refuses go to the binner. -/
theorem emitPrims_done {splat : Bool} {bad : Nat → Bool} {verts : Nat → List (List Word)} (hb : emitsTo s c h rec = true)
    (ht : emitTrap c (emitPlan bad c.tm.hdr.primLimit (lanesOf c.pass) c.g.pc) s = none) :
    ∃ s2 w fl, emitPrims c o splat bad verts h rec s = .done s2 w fl := by
  simp only [emitPrims, hb, ht]
  exact ⟨_, _, _, rfl⟩

end

/-- An emission completes as its effect at the record does, wherever that is done. -/
theorem emits_of_done {i : Instr} {x : Shape} {o : OpG} {n : Nat} {plan : Ctx → List (Nat × Emitted)}
    {body : Ctx → Nat → List Byte → State → Res} (hx : shapeOf i = some x)
    (he : ∀ s, exec i s = run i x.hdr x.marks x.opnds x.preds (fun c => withRun c o n (fun h _ rec s => body c h rec s)) s)
    (hd : ∀ {c h rec s}, emitsTo s c h rec = true → emitTrap c (plan c) s = none → ∃ s2 w fl, body c h rec s = .done s2 w fl) :
    emits i o n plan body := fun s _ _ _ _ _ hr hat hrun hb ht =>
  finishesWith_of_done hx (he s) hr (withRun_of_atRecord hat hrun _) (hd hb ht)

/-! ### `rflush` (R376) -/

/-- The state after a flush has taken its place among the work of its pass's binner. -/
def flushSent (c : Ctx) (o : OpG) (h : Nat) (s : State) : State :=
  let d := (setSt s c h).binner
  let s1 := if o.imm16 == 1 then putSet s c h { setSt s c h with ending := true } else s
  let s2 := sendWork s1 d { ctx := c.tm.ctx, set := setKey c.tm.ctx h, owner := c.key, ending := o.imm16 == 1 }
  { s2 with agenda := s2.agenda ++ [.event (.binnerInsert d)] }

/-- The effect of `rflush` at its record. -/
def flushSet (c : Ctx) (o : OpG) (h : Nat) (rec : List Byte) (s : State) : Res :=
  if !emitsTo s c h rec then illegal c s else .done (flushSent c o h s) [] []

theorem exec_rflush (hd : Hdr) (o : OpG) (s : State) : exec (.rflush hd o) s = run (.rflush hd o) hd mMemC [setOpnd o] []
    (fun c => withRecord c o c.active false (fun h _ rec s => flushSet c o h rec s)) s := Eq.refl (execRflush hd o s)

theorem flushSet_done {c : Ctx} {o : OpG} {h : Nat} {rec : List Byte} {s : State} (hb : emitsTo s c h rec = true) :
    flushSet c o h rec s = .done (flushSent c o h s) [] [] := if_neg (by simp [hb])

/-! ### Fragment kernels (R377, R378) -/

theorem exec_fin (h : Hdr) (o : OpG) (s : State) :
    let n := if finPair o.sub.toNat then 2 else 1
    exec (.fin h o) s = run (.fin h o) h mSys [(dstW (32 * n) o.d).inVec] []
      (fun c => doneN c o.d n (fragInput c.g o.sub.toNat o.imm16.toNat)) s := Eq.refl (execFin h o s)

theorem fin_done (h : Hdr) (o : OpG) : done (.fin h o)
    (fun c => wrLanes c o.d (if finPair o.sub.toNat then 2 else 1) (fragInput c.g o.sub.toNat o.imm16.toNat)) :=
  completes_of_done rfl (exec_fin h o) fun _ _ => rfl

/-- What the sample lanes record of a channel. -/
def channelRecorded (o : OpG) (c : Ctx) : State :=
  recordLanes c (fun l x => { x with channels := Maps.insert o.sub.toNat (BitVec.ofNat 32 (rd c o.a l)) x.channels })

theorem exec_fout (h : Hdr) (o : OpG) (s : State) : exec (.fout h o) s = run (.fout h o) h mSys [(src o.a).inVec] []
    (fun c => if acts c && decide ((shadeOf c.g).nch ≤ o.sub.toNat) then illegal c c.s else .done (channelRecorded o c) [] []) s :=
  Eq.refl (execFout h o s)

/-- A `fout` checks its channel only where some lane acts. -/
theorem fout_effects (h : Hdr) (o : OpG) :
    effects (.fout h o) (fun c => acts c = true → o.sub.toNat < (shadeOf c.g).nch) (channelRecorded o) :=
  completes_of_done rfl (exec_fout h o) fun c hch => if_neg fun hbad => by
    obtain ⟨ha, hle⟩ := Bool.and_eq_true_iff.1 hbad
    exact Nat.not_le.2 (hch ha) (of_decide_eq_true hle)

theorem fdep_effects (h : Hdr) (o : OpG) : effects (.fdep h o) (fun _ => True)
    (fun c => recordLanes c (fun l x => { x with depth := some (BitVec.ofNat 32 (rd c o.a l)) })) :=
  completes_of_done rfl (fun s => Eq.refl (execFdep h o s)) fun _ _ => rfl

theorem disc_effects (h : Hdr) (o : OpG) : effects (.disc h o) (fun _ => True) (fun c =>
    (lanesOf c.pass).foldl (fun s l => modGroup s c.key (modFragLane l (fun x => { x with demoted := true }))) c.s) :=
  completes_of_done rfl (fun s => Eq.refl (execDisc h o s)) fun _ _ => rfl

end Sys2Proof.Claims

open Sys2Proof.Machine Sys2Proof.Machine.Ops in
/-- Settles O22: emissions and `rflush` act at the record of a bound set, and the instructions of fragment kernels on their lanes. -/
theorem Sys2Proof.emissionAndFragmentInstructionsComplete : Obligations.EmissionAndFragmentInstructionsComplete := by
  unfold Obligations.EmissionAndFragmentInstructionsComplete
  exact fun h o => ⟨
    Claims.emits_of_done (x := ⟨h, mMemC, _, _, _⟩) rfl (fun s => Eq.refl (execEmitv h o s)) Claims.emitVertices_done,
    Claims.emits_of_done (x := ⟨h, mMemC, _, _, _⟩) rfl (fun s => Eq.refl (execEmit h o s)) Claims.emitPrims_done,
    Claims.emits_of_done (x := ⟨h, mMemC, _, _, _⟩) rfl (fun s => Eq.refl (execEmitsp h o s)) Claims.emitPrims_done,
    fun s _ _ _ _ _ hr hat hb => Claims.exec_atRecord (x := ⟨h, mMemC, _, _, _⟩) rfl (Claims.exec_rflush h o s) hr hat
      (Claims.flushSet_done hb),
    Claims.fin_done h o, Claims.fout_effects h o, Claims.fdep_effects h o, Claims.disc_effects h o⟩
end

section
/-! Events of the matrix arrays and the gather stations (14 R284, R290; 16 R321 to R327): each finds what it names, and comes to the
operation of its engine; those of the control region are writes of a core's block. -/

namespace Sys2Proof.Machine

open Sys2Proof.Bits
open Ops

namespace Ops

/-! ### The registers of a core's block (R284, R321) -/

section
variable {s : State} {k t : Nat}

theorem ctlTarget_nvspillb (hk : k < 512) : ctlTarget (coreOff k + 0x308) 8 = some (.nvspillb k) :=
  ctlTarget_of (ws := [8]) ((ctlReg_core k 0x308 hk (by decide)).trans rfl) rfl

/-- The tags stand at 0x400, eight bytes for each tile. -/
theorem coreReg_acctag (ht : t < 14) : coreReg k (0x400 + 8 * t) = some ([8], .acctag k t) := by
  have hquot : (0x400 + 8 * t - 0x400) / 8 = t := by omega
  have hrange : 0x400 ≤ 0x400 + 8 * t ∧ 0x400 + 8 * t < 0x480 ∧ (0x400 + 8 * t) % 8 = 0 := by omega
  unfold coreReg
  iterate 4 rw [if_neg (by omega)]
  rw [if_pos hrange, hquot]

theorem ctlTarget_acctag (hk : k < 512) (ht : t < 14) : ctlTarget (coreOff k + 0x400 + 8 * t) 8 = some (.acctag k t) := by
  rw [Nat.add_assoc]
  exact ctlTarget_of ((ctlReg_core k _ hk (by omega)).trans (coreReg_acctag ht)) rfl

/-- The tile windows stand at 0x10000, 16 KiB for each tile. -/
theorem coreReg_tile {a : Nat} (ht : t < 14) (ha : a < 0x4000) (h4 : a % 4 = 0) :
    coreReg k (0x10000 + 0x4000 * t + a) = some ([4], .tile k t (a / 4)) := by
  have hquot : (0x10000 + 0x4000 * t + a - 0x10000) / 0x4000 = t := by omega
  have hrem : (0x10000 + 0x4000 * t + a - 0x10000) % 0x4000 = a := by omega
  have hrange : 0x10000 ≤ 0x10000 + 0x4000 * t + a ∧ 0x10000 + 0x4000 * t + a < 0x50000 ∧
      (0x10000 + 0x4000 * t + a) % 4 = 0 := by omega
  unfold coreReg
  iterate 5 rw [if_neg (by omega)]
  rw [if_pos hrange, hquot, hrem]

theorem ctlTarget_tile {a : Nat} (hk : k < 512) (ht : t < 14) (ha : a < 0x4000) (h4 : a % 4 = 0) :
    ctlTarget (coreOff k + 0x10000 + 0x4000 * t + a) 4 = some (.tile k t (a / 4)) := by
  rw [Nat.add_assoc, Nat.add_assoc, ← Nat.add_assoc 0x10000]
  exact ctlTarget_of ((ctlReg_core k _ hk (by omega)).trans (coreReg_tile ht ha h4)) rfl

end

end Ops

section
variable {s : State} {n k : Nat}

theorem exec_acctagWrite {a : Nat} (hp : s.power ≠ 4) (hn : n < 512) (hk : k < 14) :
    exec (.acctagWrite n k a) s = .next (setCore s n { Ops.core s n with
      tags := Maps.insert k ({ ctx := field a 48 16, tkey := field a 24 24, ltile := field a 20 4, valid := a.testBit 0 } : AccTag)
        (Ops.core s n).tags }) := by
  change execAcctagWrite n k a s = _
  simp only [execAcctagWrite, ctlWrite, if_neg hp, ctlTarget_acctag hn hk, writeAcctag, if_neg (Nat.not_le.2 hk)]

theorem exec_accWindowWrite {a b : Nat} (hp : s.power ≠ 4) (hn : n < 512) (hk : k < 14) (ha : a < 0x4000) (h4 : a % 4 = 0) :
    exec (.accWindowWrite n k a b) s = .next (setCore s n
      { Ops.core s n with tiles := Maps.set 0 (k * 4096 + a / 4) (BitVec.ofNat 32 b) (Ops.core s n).tiles }) := by
  change execAccWindowWrite n k a b s = _
  simp only [execAccWindowWrite, ctlWrite, if_neg hp, ctlTarget_tile hn hk ha h4, writeTileWord, if_neg (Nat.not_le.2 hk)]

/-- While the station's ring is empty, a write keeps the bits of the base. -/
theorem exec_nvspillbWrite (hp : s.power ≠ 4) (hn : n < 512) (hr : (Ops.core s n).nspill = []) :
    exec (.nvspillbWrite n k) s = .next (setCtl s (coreOff n + 0x308) (k &&& (2 ^ 52 - 2 ^ 12))) := by
  change execNvspillbWrite n k s = _
  simp only [execNvspillbWrite, ctlWrite, if_neg hp, ctlTarget_nvspillb hn, hr, List.isEmpty_nil, if_true]

/-- A tile that has the array, and layers left, runs its next layer. -/
theorem exec_nevalLayer {t : NevTile} (ht : (Ops.core s n).ntiles.find? (fun x => x.tile == k) = some t) (hp : t.parked = none)
    (hg : t.granted = true) (hd : tileDone t = false) : exec (.nevalLayer n k) s = .next (doLayer s n t) := by
  change execNevalLayer n k s = _
  simp [execNevalLayer, ht, hp, hg, hd]

/-- A tile that has its results lands them. -/
theorem exec_nevalLanding {t : NevTile} (ht : (Ops.core s n).ntiles.find? (fun x => x.tile == k) = some t)
    (hd : tileDone t = true) : exec (.nevalLanding n k) s = .next (landTile s n t) := by
  change execNevalLanding n k s = _
  simp only [execNevalLanding, ht, hd, if_true]

end

end Sys2Proof.Machine

/-- Settles O25: a write of a core's block finds its register there, a tile is found by its number, and the other events are the
operations themselves. -/
theorem Sys2Proof.matrixEventsComplete : Obligations.MatrixEventsComplete := by
  unfold Obligations.MatrixEventsComplete
  intro s n k a b
  exact ⟨Eq.refl (Machine.execMatrixArbiterGrant n s), Machine.exec_acctagWrite, Machine.exec_accWindowWrite,
    Eq.refl (Machine.execNevalTimerExpiry n k s), Eq.refl (Machine.execNevalTileFire n s), fun _ => Machine.exec_nevalLayer,
    fun _ => Machine.exec_nevalLanding, Machine.exec_nvspillbWrite⟩
end

section
/-! Events of the raster pipeline and of the Almanac (17 R344 to R361; 18 R366; 24 R418 to R426; 26 R445): an advance that is in order
is made, and a die that has been silent too long is given up. -/

namespace Sys2Proof.Machine

open Ops

section
variable {s : State} {n k a b : Nat}

theorem exec_almanacAdvance (h : advanceOk s n k a b = true) : exec (.almanacAdvance n k a b) s = .next
    (let s1 := setDie { s with now := n } k { Ops.die s k with e := a, l := b, floorTime := n }
     { s1 with agenda := widthWaiters s1 k ++ (widthDue s1 ++ s1.agenda) }) := by
  change execAlmanacAdvance n k a b s = _
  rw [execAlmanacAdvance, h]
  rfl

/-- The width waits of the group that are over make their check again. -/
theorem exec_almWideTimeout {g : Group} (hg : group? s n = some g) : exec (.almWideTimeout n) s = .next { s with
      agenda := s.agenda ++
        ((widthWaits { s with groups := [(n, g)] } (fun _ => true)).filter (fun e => decide (e.1 ≤ s.now))).map Prod.snd } := by
  change execAlmWideTimeout n s = _
  simp only [execAlmWideTimeout, hg]

/-- A die that has reported no floor for 2^22 ticks is no longer available, and the contexts with a team there end. -/
theorem exec_dieSilentTimeout (hn : n < 8) (ha : (Ops.die s n).available = true) (ht : (Ops.die s n).floorTime + 2 ^ 22 ≤ s.now) :
    exec (.dieSilentTimeout n) s = .next
      (((s.teams.filter (fun (e : Nat × Team) => dieOf e.2.core == n && !e.2.out)).map (fun e => e.2.ctx)).eraseDups.foldl
        (fun s ctx => terminate s ctx 0x1F) (devlog (setDie s n { Ops.die s n with available := false }) 0x84 0 0 n)) := by
  change execDieSilentTimeout n s = _
  exact congrArg Host.Outcome.next (if_pos ⟨hn, ha, ht⟩)

end

end Sys2Proof.Machine

/-- Settles O26: the conditions of an advance and of a silent die are those of their lemmas above, and the other events are the
operations themselves. -/
theorem Sys2Proof.graphicsAndTimeEventsComplete : Obligations.GraphicsAndTimeEventsComplete := by
  unfold Obligations.GraphicsAndTimeEventsComplete
  intro s n k a b copies
  exact ⟨Eq.refl (Machine.execBinnerInsert n s), Eq.refl (Machine.execFlushComplete n s), Eq.refl (Machine.execFragmentLaunch n k a s),
    Eq.refl (Machine.execBlendApply n k s), Eq.refl (Machine.execPassEnd n s), Eq.refl (Machine.execStcmRecord n s),
    Eq.refl (Machine.execHorizonUpdate copies s), Machine.exec_almanacAdvance, fun _ => Machine.exec_almWideTimeout,
    Machine.exec_dieSilentTimeout⟩
end

section
/-! Events of the hub (21 R388 to R409; 11 R226, R227; 10 R198, R207; 26 R437 to R448): those that write a control register find it at
its offset, where a device that is off takes none. -/

namespace Sys2Proof.Machine

open Sys2Proof.Bits
open Ops

namespace Ops

/-! ### The registers of the hub, die and cluster blocks -/

theorem ctlTarget_invctl : ctlTarget 0x48 8 = some .invctl := ctlTarget_of (ws := [8]) rfl rfl
theorem ctlTarget_replay : ctlTarget 0x50 8 = some .replay := ctlTarget_of (ws := [8]) rfl rfl
theorem ctlTarget_preempt : ctlTarget 0x60 8 = some .preempt := ctlTarget_of (ws := [8]) rfl rfl
theorem ctlTarget_resume : ctlTarget 0x68 8 = some .resume := ctlTarget_of (ws := [8]) rfl rfl
theorem ctlTarget_migctl : ctlTarget 0x88 8 = some .migctl := ctlTarget_of (ws := [8]) rfl rfl
theorem ctlTarget_ctxcmd : ctlTarget 0x108 8 = some .ctxcmd := ctlTarget_of (ws := [8]) rfl rfl
theorem ctlTarget_qcmd : ctlTarget 0x118 8 = some .qcmd := ctlTarget_of (ws := [8]) rfl rfl

/-- The memory map stands at 0x1000, eight bytes for each region. -/
theorem hubReg_memmap {r : Nat} (hr : r < 1024) : hubReg (0x1000 + 8 * r) = some ([8], .memmap r) := by
  have hquot : (0x1000 + 8 * r - 0x1000) / 8 = r := by omega
  have hrange : 0x1000 ≤ 0x1000 + 8 * r ∧ 0x1000 + 8 * r < 0x3000 ∧ (0x1000 + 8 * r) % 8 = 0 := by omega
  unfold hubReg
  iterate 20 rw [if_neg (by omega)]
  rw [if_pos hrange, hquot]

theorem ctlTarget_memmap {r : Nat} (hr : r < 1024) : ctlTarget (0x1000 + 8 * r) 8 = some (.memmap r) :=
  ctlTarget_of ((if_pos (by omega)).trans (hubReg_memmap hr)) rfl

/-- The class registers of a die's L2 stand at 0x100, four bytes for each class. -/
theorem ctlTarget_l2cls {d c : Nat} (hd : d < 8) (hc : c < 4) : ctlTarget (dieOff d + 0x100 + 4 * c) 4 = some (.l2cls d c) := by
  have hquot : (0x100 + 4 * c - 0x100) / 4 = c := by omega
  have hreg : dieReg d (0x100 + 4 * c) = some ([4], .l2cls d c) := by rw [dieReg, if_pos (by omega), hquot]
  rw [Nat.add_assoc]
  exact ctlTarget_of ((ctlReg_die d _ hd (by omega)).trans ((if_pos (by omega)).trans hreg)) rfl

/-- The error counters of a die stand at 0x180. -/
theorem ctlTarget_counter {d c : Nat} (hd : d < 8) (hc : c < 8) : ctlTarget (dieOff d + 0x180 + 4 * c) 4 = some .counter := by
  have hreg : dieReg d (0x180 + 4 * c) = some ([4], .counter) := by
    rw [dieReg, if_neg (by omega), if_neg (by omega), if_pos (by omega)]
  rw [Nat.add_assoc]
  exact ctlTarget_of ((ctlReg_die d _ hd (by omega)).trans ((if_pos (by omega)).trans hreg)) rfl

/-- The bank modes stand at the start of a cluster's block. -/
theorem ctlTarget_bankmode {c b : Nat} (hc : c < 64) (hb : b < 32) : ctlTarget (clusterOff c + 4 * b) 4 = some (.bankmode c b) := by
  have hreg : clusterReg c (4 * b) = some ([4], .bankmode c b) := by
    rw [clusterReg, if_pos (by omega), Nat.mul_div_cancel_left b (by decide)]
  exact ctlTarget_of ((ctlReg_cluster c _ hc (by omega)).trans hreg) rfl

/-! ### What each register does with its write -/

/-- A device that is off takes no write (26 R448). -/
theorem ctlWrite_off {s : State} (hp : s.power = 4) (host : Bool) (off size value : Nat) : ctlWrite s host off size value = s :=
  if_pos hp

section
variable {s : State} {v : Nat}

/-- A write of a command register replaces its OP field. -/
theorem field_command (n : Nat) {op : Nat} (ho : op < 4) : field (n - field n 0 2 + op) 0 2 = op := by
  simp only [field]
  omega

theorem writeInvctl_go (hv : v.testBit 0 = true) : writeInvctl s v =
    setCtl { s with sweeps := s.sweeps ++ [invctlOf v 0 + 2 ^ 64 * ctl s 0x40] } 0x48 (invctlOf v 0) := if_pos hv

theorem writePreempt_go (hv : v.testBit 0 = true) : writePreempt s v = settlePreempts (s.preempts.length + 1)
    (let s1 := setCtl { s with preempts := s.preempts ++ [field v 48 16] } 0x60 (field v 48 16 * 2 ^ 48)
     if s.preempts = [] then stopTeams s1 (field v 48 16) else s1) := by
  simp only [writePreempt, hv, if_true, List.isEmpty_iff]

theorem writeResume_go (hv : v.testBit 0 = true) : writeResume s v = settleResumes (s.resumes.length + 1)
    (setCtl { s with resumes := s.resumes ++ [field v 48 16] } 0x68 (field v 48 16 * 2 ^ 48)) := if_pos hv

/-- A migration begins while none is under way (11 R227). -/
theorem writeMigctl_go (hm : s.migration = none) (hv : v.testBit 0 = true) : writeMigctl s v = migrationGo s (field v 48 16) := by
  rw [writeMigctl, hv, hm]
  rfl

/-- The fields of a write of REPLAY. -/
theorem field_replay {ctx act seq : Nat} (hc : ctx < 2 ^ 16) (ha : act < 4) (hs : seq < 2 ^ 32) :
    let v := ctx * 2 ^ 48 + act * 2 ^ 32 + seq
    field v 48 16 = ctx ∧ field v 0 34 = act * 2 ^ 32 + seq ∧ field v 32 2 = act ∧ field v 0 32 = seq := by
  simp only [field]
  omega

theorem writeReplay_replays {ctx seq : Nat} (hc : ctx < 2 ^ 16) (hs : seq < 2 ^ 32) :
    writeReplay s (ctx * 2 ^ 48 + seq) = replayRec (setCtl s 0x50 (ctx * 2 ^ 48 + seq)) ctx seq := by
  obtain ⟨hctx, hlow, hact, hseq⟩ := field_replay hc (act := 0) (by decide) hs
  simp only [Nat.zero_mul, Nat.add_zero, Nat.zero_add] at hctx hlow hact hseq
  simp only [writeReplay, hctx, hlow, hact, hseq, if_true]

theorem writeReplay_abandons {ctx seq : Nat} (hc : ctx < 2 ^ 16) (hs : seq < 2 ^ 32) :
    writeReplay s (ctx * 2 ^ 48 + 2 ^ 32 + seq) = abandonRec (setCtl s 0x50 (ctx * 2 ^ 48 + 2 ^ 32 + seq)) ctx seq := by
  obtain ⟨hctx, hlow, hact, hseq⟩ := field_replay hc (act := 1) (by decide) hs
  simp only [Nat.one_mul] at hctx hlow hact hseq
  simp only [writeReplay, hctx, hlow, hact, hseq, one_ne_zero, if_false, if_true]
  rw [← Nat.add_assoc]

end

end Ops

/-! ### The events -/

section
variable {s : State} {n k a : Nat}

/-- An event of the hub in a device that is off changes nothing (26 R448). -/
theorem exec_hubEvent_off (hp : s.power = 4) :
    ∀ i ∈ ([.replayRecord n k, .abandonRecord n k, .tlbSweepStart n, .preemptRequest n, .resumeRequest n, .migrationGo n,
      .bankModeRequest n k a, .l2clsWrite n k a, .contextRegister n, .contextUnregister n, .queueRegister n, .queueUnregister n,
      .memmapWrite n k, .errorCounterClear n k, .acctagWrite n k a, .cespillbWrite n k, .nvspillbWrite n k, .bootctlRestart n,
      .powerStateRequest n, .registerWrite n k a] : List Instr), exec i s = .next s := by
  have hwrite (off size v : Nat) : (.next (ctlWrite s true off size v) : Host.Outcome State Fault Refusal) = .next s :=
    congrArg _ (ctlWrite_off hp _ _ _ _)
  have hguarded (p : Prop) [Decidable p] (off size v : Nat) :
      (.next (if p then ctlWrite s true off size v else s) : Host.Outcome State Fault Refusal) = .next s := by
    rw [ctlWrite_off hp, ite_self]
  simp only [List.forall_mem_cons, List.not_mem_nil, false_imp_iff, implies_true, and_true]
  exact ⟨hwrite _ _ _, hwrite _ _ _, hwrite _ _ _, hwrite _ _ _, hwrite _ _ _, hwrite _ _ _, hguarded _ _ _ _, hguarded _ _ _ _,
    hwrite _ _ _, hwrite _ _ _, hwrite _ _ _, hwrite _ _ _, hguarded _ _ _ _, hguarded _ _ _ _, hwrite _ _ _, hwrite _ _ _,
    hwrite _ _ _, hwrite _ _ _, hwrite _ _ _, hwrite _ _ _⟩

/-- A line that fails its parity is fetched once more. -/
theorem exec_lineParityRefetch {bs : List Byte} (hl : Maps.find? k (Ops.core s n).ilines = some bs) (hb : parityOk bs = false) :
    exec (.lineParityRefetch n k) s = .next (fetchPhys s n k).2 := by
  change execLineParityRefetch n k s = _
  simp only [execLineParityRefetch, hl, hb, Bool.false_eq_true, if_false]

section
variable (hp : s.power ≠ 4)
include hp

theorem exec_replayRecord (hn : n < 2 ^ 16) (hk : k < 2 ^ 32) :
    exec (.replayRecord n k) s = .next (replayRec (setCtl s 0x50 (n * 2 ^ 48 + k)) n k) := by
  change execReplayRecord n k s = _
  simp only [execReplayRecord, ctlWrite, if_neg hp, ctlTarget_replay, Nat.mod_eq_of_lt hn, Nat.mod_eq_of_lt hk,
    writeReplay_replays hn hk]

theorem exec_abandonRecord (hn : n < 2 ^ 16) (hk : k < 2 ^ 32) :
    exec (.abandonRecord n k) s = .next (abandonRec (setCtl s 0x50 (n * 2 ^ 48 + 2 ^ 32 + k)) n k) := by
  change execAbandonRecord n k s = _
  simp only [execAbandonRecord, ctlWrite, if_neg hp, ctlTarget_replay, Nat.mod_eq_of_lt hn, Nat.mod_eq_of_lt hk,
    writeReplay_abandons hn hk]

theorem exec_tlbSweepStart (hv : n.testBit 0 = true) : exec (.tlbSweepStart n) s = .next
    (setCtl { s with sweeps := s.sweeps ++ [invctlOf n 0 + 2 ^ 64 * ctl s 0x40] } 0x48 (invctlOf n 0)) := by
  change execTlbSweepStart n s = _
  simp only [execTlbSweepStart, ctlWrite, if_neg hp, ctlTarget_invctl, writeInvctl_go hv]

theorem exec_preemptRequest (hv : n.testBit 0 = true) : exec (.preemptRequest n) s = .next (settlePreempts (s.preempts.length + 1)
    (let s1 := setCtl { s with preempts := s.preempts ++ [field n 48 16] } 0x60 (field n 48 16 * 2 ^ 48)
     if s.preempts = [] then stopTeams s1 (field n 48 16) else s1)) := by
  change execPreemptRequest n s = _
  simp only [execPreemptRequest, ctlWrite, if_neg hp, ctlTarget_preempt, writePreempt_go hv]

theorem exec_resumeRequest (hv : n.testBit 0 = true) : exec (.resumeRequest n) s = .next (settleResumes (s.resumes.length + 1)
    (setCtl { s with resumes := s.resumes ++ [field n 48 16] } 0x68 (field n 48 16 * 2 ^ 48))) := by
  change execResumeRequest n s = _
  simp only [execResumeRequest, ctlWrite, if_neg hp, ctlTarget_resume, writeResume_go hv]

theorem exec_migrationGo (hm : s.migration = none) (hv : n.testBit 0 = true) :
    exec (.migrationGo n) s = .next (migrationGo s (field n 48 16)) := by
  change execMigrationGo n s = _
  simp only [execMigrationGo, ctlWrite, if_neg hp, ctlTarget_migctl, writeMigctl_go hm hv]

theorem exec_bankModeRequest (hn : n < 64) (hk : k < 32) : exec (.bankModeRequest n k a) s = .next (requestMode s n k a none) := by
  change execBankModeRequest n k a s = _
  simp only [execBankModeRequest, hn, hk, and_self, if_true, ctlWrite, if_neg hp, ctlTarget_bankmode hn hk]

theorem exec_l2clsWrite (hn : n < 8) (hk : k < 4) : exec (.l2clsWrite n k a) s = .next (writeL2cls s n k a) := by
  change execL2clsWrite n k a s = _
  simp only [execL2clsWrite, hn, hk, and_self, if_true, ctlWrite, if_neg hp, ctlTarget_l2cls hn hk]

theorem exec_contextRegister : exec (.contextRegister n) s = .next (registerContext s (n - field n 0 2 + 1)) := by
  change execContextRegister n s = _
  simp only [execContextRegister, ctlWrite, if_neg hp, ctlTarget_ctxcmd, writeCtxcmd, field_command n (op := 1) (by decide), if_true]

theorem exec_contextUnregister : exec (.contextUnregister n) s = .next (unregisterContext s (n - field n 0 2 + 2)) := by
  change execContextUnregister n s = _
  simp only [execContextUnregister, ctlWrite, if_neg hp, ctlTarget_ctxcmd, writeCtxcmd, field_command n (op := 2) (by decide)]
  rfl

theorem exec_queueRegister : exec (.queueRegister n) s = .next (registerQueue s (n - field n 0 2 + 1)) := by
  change execQueueRegister n s = _
  simp only [execQueueRegister, ctlWrite, if_neg hp, ctlTarget_qcmd, writeQcmd, field_command n (op := 1) (by decide), if_true]

theorem exec_queueUnregister : exec (.queueUnregister n) s = .next (unregisterQueue s (n - field n 0 2 + 2)) := by
  change execQueueUnregister n s = _
  simp only [execQueueUnregister, ctlWrite, if_neg hp, ctlTarget_qcmd, writeQcmd, field_command n (op := 2) (by decide)]
  rfl

theorem exec_memmapWrite (hn : n < 1024) : exec (.memmapWrite n k) s = .next (writeMemmap s n k) := by
  change execMemmapWrite n k s = _
  simp only [execMemmapWrite, hn, if_true, ctlWrite, if_neg hp, ctlTarget_memmap hn]

theorem exec_errorCounterClear (hn : n < 8) (hk : k < 8) :
    exec (.errorCounterClear n k) s = .next (setCtl s (dieOff n + 0x180 + 4 * k) 0) := by
  change execErrorCounterClear n k s = _
  simp only [execErrorCounterClear, hn, hk, and_self, if_true, ctlWrite, if_neg hp, ctlTarget_counter hn hk]

end

end

end Sys2Proof.Machine

/-- Settles O27: a device that is off takes no write; in any other each register takes its own as its lemma above says, and the other
events are the operations themselves. -/
theorem Sys2Proof.hubEventsComplete : Obligations.HubEventsComplete := by
  unfold Obligations.HubEventsComplete
  refine ⟨fun _ _ _ _ hp => Machine.exec_hubEvent_off hp, fun s n k a hp => ?_⟩
  exact ⟨fun _ => Machine.exec_lineParityRefetch, Eq.refl (Machine.execEventRecordWrite n s), Machine.exec_replayRecord hp,
    Machine.exec_abandonRecord hp, Machine.exec_tlbSweepStart hp, Eq.refl (Machine.execTlbSweepDone s), Machine.exec_preemptRequest hp,
    Eq.refl (Machine.execTeamSwitchOut n s), Machine.exec_resumeRequest hp, Eq.refl (Machine.execTeamResume n k a s),
    Machine.exec_migrationGo hp, Eq.refl (Machine.execMigrationSwap s), Machine.exec_bankModeRequest hp,
    Eq.refl (Machine.execBankModeChange n k s), Eq.refl (Machine.execBankModeTimeout n k s), Machine.exec_l2clsWrite hp,
    Machine.exec_contextRegister hp, Machine.exec_contextUnregister hp, Machine.exec_queueRegister hp, Machine.exec_queueUnregister hp,
    Machine.exec_memmapWrite hp, Machine.exec_errorCounterClear hp⟩
end

section
/-! Traps that cannot be delivered (21 R384 to R387): a context whose handler cannot be entered ends with DOUBLE_TRAP. -/

namespace Sys2Proof.Machine.Ops

/-- Without a vector table no trap has an entry (R384). -/
theorem vectorEntry_noTable {s : State} {x : Context} {ctx d code : Nat} (h : x.tvec = 0) : vectorEntry s x ctx d code = none :=
  if_pos h

section
variable {s : State} {key frag : Nat} {t : Trap} {saved : DWord} {defer : Bool} {g : Group} {tm : Team} {x : Context}
  (hg : group? s key = some g) (ht : team? s g.team = some tm) (hx : Maps.find? tm.ctx s.contexts = some x)
include hg ht hx

theorem takeTrap_underInh (hi : inh g = true) : takeTrap s key frag t saved defer = terminate s tm.ctx 0x1E := by
  simp only [takeTrap, hg, ht, hx, hi, if_true]

theorem takeTrap_withoutEntry (hv : vectorEntry s x tm.ctx (tm.core / 64) t.code = none) :
    takeTrap s key frag t saved defer = terminate s tm.ctx 0x1E := by
  simp only [takeTrap, hg, ht, hx, hv, ite_self]

/-- An entry that is no program counter, or lies in no canonical line, cannot be entered. -/
theorem takeTrap_entryMalformed {e : Nat} (hv : vectorEntry s x tm.ctx (tm.core / 64) t.code = some e)
    (he : pcFormOk (BitVec.ofNat 64 e) = false ∨ canonical (lineOf (BitVec.ofNat 64 e)) = false) :
    takeTrap s key frag t saved defer = terminate s tm.ctx 0x1E := by
  have hbad : (!pcFormOk (BitVec.ofNat 64 e) || !canonical (lineOf (BitVec.ofNat 64 e))) = true := by simpa using he
  simp only [takeTrap, hg, ht, hx, hv, hbad, if_true, ite_self]

/-- An entry whose line lacks the mark ends the context after the fetch. -/
theorem takeTrap_entryUnmarked {e : Nat} {bs : List Byte} {s1 : State} (hi : inh g = false)
    (hv : vectorEntry s x tm.ctx (tm.core / 64) t.code = some e) (hform : pcFormOk (BitVec.ofNat 64 e) = true)
    (hcanon : canonical (lineOf (BitVec.ofNat 64 e)) = true)
    (hline : fetchLine s tm.core tm.ctx (lineOf (BitVec.ofNat 64 e)) = (.line bs, s1))
    (hmark : marked (lineWord bs) (slotOf (BitVec.ofNat 64 e)) = false) :
    takeTrap s key frag t saved defer = terminate s1 tm.ctx 0x1E := by
  simp only [takeTrap, hg, ht, hx, hi, hv, hform, hcanon, hline, hmark, Bool.not_true, Bool.or_self, Bool.not_false, Bool.false_eq_true,
    if_false, if_true]

end

end Sys2Proof.Machine.Ops

open Sys2Proof.Machine.Ops in
/-- Settles O57: under INH, without an entry, with an entry of a wrong form and without a mark the trap comes to the termination by
the lemmas above, and a context without a table has no entry. -/
theorem Sys2Proof.doubleTrapTerminates : Obligations.DoubleTrapTerminates := by
  unfold Obligations.DoubleTrapTerminates
  refine fun s key frag t saved defer g tm x hg ht hx => ⟨?_, fun _ _ _ => takeTrap_entryUnmarked hg ht hx, vectorEntry_noTable⟩
  rintro (hi | hv | ⟨e, hv, he⟩)
  · exact takeTrap_underInh hg ht hx hi
  · exact takeTrap_withoutEntry hg ht hx hv
  · exact takeTrap_entryMalformed hg ht hx hv he
end

section
/-! What a list with rising keys holds under a key (Machine/Maps). -/

namespace Sys2Proof.Maps

variable {α : Type} {k : Nat} {v : α} {m : List (Nat × α)} {a b e : Nat × α}

theorem find?_of_mem {lo : Nat} (h : risingFrom lo m = true) (he : e ∈ m) : find? e.1 m = some e.2 := by
  induction m generalizing lo with
  | nil => cases he
  | cons x m ih =>
    simp only [risingFrom, Bool.and_eq_true, decide_eq_true_eq] at h
    rcases List.mem_cons.1 he with rfl | he
    · exact if_pos rfl
    · have hlt : x.1 < e.1 := le_of_mem h.2 he
      exact (if_neg (Nat.ne_of_lt hlt)).trans ((if_neg (Nat.lt_asymm hlt)).trans (ih h.2 he))

theorem eq_of_mem_of_rising (h : rising m = true) (ha : a ∈ m) (hb : b ∈ m) (hk : a.1 = b.1) : a = b := by
  have hvalue : some a.2 = some b.2 := by rw [← find?_of_mem h ha, hk, find?_of_mem h hb]
  exact Prod.ext hk (Option.some.inj hvalue)

/-- What an insertion leaves of the entries before it stands under other keys. -/
theorem mem_insert_of_rising (h : rising m = true) (he : e ∈ insert k v m) : e = (k, v) ∨ (e ∈ m ∧ e.1 ≠ k) := by
  by_cases hk : e.1 = k
  · have hvalue : some e.2 = some v := by rw [← find?_of_mem (insert_rising h) he, hk, find?_insert_self]
    exact .inl (Prod.ext hk (Option.some.inj hvalue))
  · exact (mem_insert he).imp_right fun hm => ⟨hm, hk⟩

end Sys2Proof.Maps
end

section
/-! The end of a context (21 R410): what each part of a termination removes, and what it leaves as it was. -/

namespace Sys2Proof.Machine.Ops

/-! ### Parts that leave the agents alone -/

/-- What a state holds of contexts, teams and agents is the same in another: only memory, the control region, launches, records and the
agenda may differ. -/
structure SameAgents (s t : State) : Prop where
  contexts : t.contexts = s.contexts
  teams : t.teams = s.teams
  groups : t.groups = s.groups
  stores : t.stores = s.stores
  clusters : t.clusters = s.clusters
  cores : t.cores = s.cores
  dies : t.dies = s.dies

namespace SameAgents

theorem refl (s : State) : SameAgents s s := ⟨rfl, rfl, rfl, rfl, rfl, rfl, rfl⟩

theorem trans {s t u : State} (h : SameAgents s t) (k : SameAgents t u) : SameAgents s u :=
  ⟨k.contexts.trans h.contexts, k.teams.trans h.teams, k.groups.trans h.groups, k.stores.trans h.stores,
    k.clusters.trans h.clusters, k.cores.trans h.cores, k.dies.trans h.dies⟩

theorem foldl {α : Type} {f : State → α → State} (hf : ∀ s a, SameAgents s (f s a)) (l : List α) (s : State) :
    SameAgents s (l.foldl f s) := by
  induction l generalizing s with
  | nil => exact refl s
  | cons a l ih => exact (hf s a).trans (ih _)

end SameAgents

theorem sameAgents_kickBanks (s : State) (c : Nat) : SameAgents s (kickBanks s c) := ⟨rfl, rfl, rfl, rfl, rfl, rfl, rfl⟩

theorem sameAgents_kickAll (s : State) : SameAgents s (kickAll s) := by
  unfold kickAll
  exact SameAgents.foldl (fun s (e : Nat × Cluster) => sameAgents_kickBanks s e.1) _ s

theorem sameAgents_setCtl (s : State) (off v : Nat) : SameAgents s (setCtl s off v) := ⟨rfl, rfl, rfl, rfl, rfl, rfl, rfl⟩

theorem sameAgents_setLaunch (s : State) (k : Nat) (l : Launch) : SameAgents s (setLaunch s k l) := ⟨rfl, rfl, rfl, rfl, rfl, rfl, rfl⟩

theorem sameAgents_hubWrite (s : State) (pa : Nat) (bs : List Byte) : SameAgents s (hubWrite s pa bs) := by
  obtain h | ⟨_, _, _, h⟩ := hubWrite_cases s pa bs <;> rw [h] <;> exact ⟨rfl, rfl, rfl, rfl, rfl, rfl, rfl⟩

theorem sameAgents_devlog (s : State) (code ctx place detail : Nat) : SameAgents s (devlog s code ctx place detail) := by
  unfold devlog
  dsimp only
  split
  · exact sameAgents_setCtl s _ _
  · exact (sameAgents_hubWrite s _ _).trans (sameAgents_setCtl _ _ _)

theorem sameAgents_completeLaunch (s : State) (k : Nat) (l : Launch) : SameAgents s (completeLaunch s k l) := by
  unfold completeLaunch
  dsimp only
  split
  · exact (sameAgents_setLaunch s _ _).trans (sameAgents_hubWrite _ _ _)
  · split
    · exact sameAgents_setLaunch s _ _
    · exact (sameAgents_setLaunch s _ _).trans (sameAgents_devlog _ _ _ _ _)

theorem sameAgents_failLaunch (code ctx : Nat) (s : State) (e : Nat × Launch) : SameAgents s (failLaunch code ctx s e) := by
  unfold failLaunch
  split
  · dsimp only
    split
    · exact sameAgents_completeLaunch s _ _
    · exact sameAgents_setLaunch s _ _
  · exact .refl s

theorem sameAgents_lastRecord (s : State) (ctx code : Nat) : SameAgents s (lastRecord s ctx code) := by
  unfold lastRecord
  split
  · exact .refl s
  · exact ⟨rfl, rfl, rfl, rfl, rfl, rfl, rfl⟩

/-! ### What goes with the context -/

/-- The teams of a context, and their groups, by their keys. -/
def teamsOf (s : State) (ctx : Nat) : List Nat := (s.teams.filter (fun (e : Nat × Team) => e.2.ctx == ctx)).map Prod.fst
def groupsOfContext (s : State) (ctx : Nat) : List Nat :=
  (s.groups.filter (fun (e : Nat × Group) => (teamsOf s ctx).contains e.2.team)).map Prod.fst

section
variable {s : State} {ctx : Nat}

theorem mem_teamsOf {k : Nat} : k ∈ teamsOf s ctx ↔ ∃ m ∈ s.teams, m.1 = k ∧ m.2.ctx = ctx := by
  simp only [teamsOf, List.mem_map, List.mem_filter, beq_iff_eq]
  exact exists_congr fun m => ⟨fun ⟨⟨hm, hc⟩, hk⟩ => ⟨hm, hk, hc⟩, fun ⟨hm, hk, hc⟩ => ⟨⟨hm, hc⟩, hk⟩⟩

theorem mem_groupsOfContext {k : Nat} : k ∈ groupsOfContext s ctx ↔ ∃ e ∈ s.groups, e.1 = k ∧ e.2.team ∈ teamsOf s ctx := by
  simp only [groupsOfContext, List.mem_map, List.mem_filter, List.contains_iff_mem]
  exact exists_congr fun e => ⟨fun ⟨⟨he, ht⟩, hk⟩ => ⟨he, hk, ht⟩, fun ⟨he, hk, ht⟩ => ⟨⟨he, ht⟩, hk⟩⟩

end

section
variable (s : State) (ctx : Nat)

theorem dropContext_teams : (dropContext s ctx).teams = s.teams.filter (fun e => e.2.ctx != ctx) := (sameAgents_kickAll _).teams

theorem dropContext_stores : (dropContext s ctx).stores = s.stores.filter (fun p => p.ctx != ctx) := (sameAgents_kickAll _).stores

theorem dropContext_groups :
    (dropContext s ctx).groups = s.groups.filter (fun e => !(groupsOfContext s ctx).contains e.1) := (sameAgents_kickAll _).groups

theorem dropContext_clusters :
    (dropContext s ctx).clusters = s.clusters.map (fun e => (e.1, dropCluster ctx (groupsOfContext s ctx) e.2)) :=
  (sameAgents_kickAll _).clusters

theorem dropContext_cores :
    (dropContext s ctx).cores = s.cores.map (fun e => (e.1, dropCore s.uid ctx (groupsOfContext s ctx) e.2)) :=
  (sameAgents_kickAll _).cores

theorem dropContext_dies : (dropContext s ctx).dies =
    s.dies.map (fun e => (e.1, { e.2 with binner := e.2.binner.filter (fun w => w.ctx != ctx) })) := (sameAgents_kickAll _).dies

theorem kickAll_launches : (kickAll s).launches = s.launches := by
  unfold kickAll
  generalize s.clusters = cs
  induction cs generalizing s with
  | nil => rfl
  | cons e cs ih => exact ih _

theorem dropContext_launches : (dropContext s ctx).launches = s.launches := kickAll_launches _

end

/-- A group of none of the context's teams stays, since no other group has its key. -/
theorem mem_dropContext_groups {s : State} {ctx : Nat} (hr : Maps.rising s.groups = true) {e : Nat × Group} (he : e ∈ s.groups)
    (hn : e.2.team ∉ teamsOf s ctx) : e ∈ (dropContext s ctx).groups := by
  have hkey : e.1 ∉ groupsOfContext s ctx := fun h => by
    obtain ⟨e', he', hk, ht⟩ := mem_groupsOfContext.1 h
    exact hn (Maps.eq_of_mem_of_rising hr he' he hk ▸ ht)
  rw [dropContext_groups]
  exact List.mem_filter.2 ⟨he, by simpa using hkey⟩

theorem team_of_mem_dropContext_groups {s : State} {ctx : Nat} {e : Nat × Group} (he : e ∈ (dropContext s ctx).groups) :
    e.2.team ∉ teamsOf s ctx := fun ht => by
  rw [dropContext_groups, List.mem_filter] at he
  have hkey : e.1 ∈ groupsOfContext s ctx := mem_groupsOfContext.2 ⟨e, he.1, rfl, ht⟩
  simp [hkey] at he

/-! ### The gather station (16 R320 to R322) -/

/-- A core's slots, tiles and tags hold nothing of a context, and no request of it is spilled. -/
structure FreeOf (ctx : Nat) (k : Core) : Prop where
  slots : ∀ q ∈ k.slots, q.ctx ≠ ctx
  ntiles : ∀ t ∈ k.ntiles, t.ctx ≠ ctx
  nspill : ∀ r ∈ k.nspill, r.ctx ≠ ctx
  tags : ∀ e ∈ k.tags, e.2.ctx = ctx → e.2.valid = false

theorem slotFull_ctx (n : Nat) (q : NevSlot) : (slotFull n q).ctx = q.ctx := by
  unfold slotFull
  split <;> rfl

namespace FreeOf

variable {ctx : Nat} {k : Core}

theorem enterSlot (h : FreeOf ctx k) (n : Nat) {r : NevReq} (hr : r.ctx ≠ ctx) : FreeOf ctx (enterSlot n k r) := by
  unfold Ops.enterSlot
  split
  · next q _ =>
    refine ⟨fun y hy => ?_, h.ntiles, h.nspill, h.tags⟩
    obtain ⟨x, hx, rfl⟩ := List.mem_map.1 hy
    split
    · rw [slotFull_ctx]
      exact h.slots x hx
    · exact h.slots x hx
  · refine ⟨fun y hy => ?_, h.ntiles, h.nspill, h.tags⟩
    rcases List.mem_append.1 hy with hy | hy
    · exact h.slots y hy
    · rw [List.mem_singleton.1 hy]
      exact hr

/-- The spilled requests that take freed slots are of other contexts. -/
theorem refillCore (h : FreeOf ctx k) (n fuel : Nat) : FreeOf ctx (refillCore n fuel k) := by
  induction fuel generalizing k with
  | zero => exact h
  | succ fuel ih =>
    unfold Ops.refillCore
    split
    · exact h
    · split
      · exact h
      · next r hr =>
        have hless : FreeOf ctx { k with nspill := k.nspill.filter (fun x => x.id != r.id) } :=
          ⟨h.slots, h.ntiles, fun x hx => h.nspill x (List.mem_of_mem_filter hx), h.tags⟩
        exact ih (hless.enterSlot n (h.nspill r (List.mem_of_find?_eq_some hr)))

end FreeOf

theorem clearTags_invalid {ctx : Nat} {k : Core} {e : Nat × AccTag} (he : e ∈ (clearTags ctx k).tags) (hc : e.2.ctx = ctx) :
    e.2.valid = false := by
  obtain ⟨x, -, rfl⟩ := List.mem_map.1 he
  by_cases hx : x.2.ctx = ctx
  · simp only [if_pos hx]
  · simp only [if_neg hx] at hc
    exact absurd hc hx

theorem freeOf_dropCore (n ctx : Nat) (gs : List Nat) (k : Core) : FreeOf ctx (dropCore n ctx gs k) := by
  have hfilter {α : Type} (f : α → Nat) (l : List α) : ∀ y ∈ l.filter (fun x => f x != ctx), f y ≠ ctx :=
    fun y hy => by simpa using (List.mem_filter.1 hy).2
  unfold dropCore
  refine FreeOf.refillCore ⟨?_, ?_, ?_, ?_⟩ n _
  · exact hfilter NevSlot.ctx _
  · exact hfilter NevTile.ctx _
  · exact hfilter NevReq.ctx _
  · exact fun _ => clearTags_invalid

/-! ### Requests to switch teams (R406) -/

/-- No team is of the context. -/
def NoTeamOf (ctx : Nat) (s : State) : Prop := ∀ e ∈ s.teams, e.2.ctx ≠ ctx

theorem noTeamOf_setCtl {ctx : Nat} {s : State} (h : NoTeamOf ctx s) (off v : Nat) : NoTeamOf ctx (setCtl s off v) := by
  rw [NoTeamOf, setCtl_teams]
  exact h

theorem noTeamOf_preempts {ctx : Nat} {s : State} (h : NoTeamOf ctx s) (p : List Nat) : NoTeamOf ctx { s with preempts := p } := h

theorem noTeamOf_resumes {ctx : Nat} {s : State} (h : NoTeamOf ctx s) (r : List Nat) : NoTeamOf ctx { s with resumes := r } := h

theorem noTeamOf_stopTeams {ctx : Nat} {s : State} (h : NoTeamOf ctx s) (c : Nat) : NoTeamOf ctx (stopTeams s c) := fun e he => by
  obtain ⟨x, hx, rfl⟩ := List.mem_map.1 he
  split <;> exact h x hx

theorem noTeamOf_settlePreempts {ctx : Nat} (fuel : Nat) {s : State} (h : NoTeamOf ctx s) : NoTeamOf ctx (settlePreempts fuel s) := by
  induction fuel generalizing s with
  | zero => exact h
  | succ fuel ih =>
    unfold settlePreempts
    split
    · exact h
    · split
      · exact h
      · dsimp only
        split
        · exact noTeamOf_setCtl (noTeamOf_preempts h _) _ _
        · exact ih (noTeamOf_stopTeams (noTeamOf_preempts h _) _)

theorem noTeamOf_settleResumes {ctx : Nat} (fuel : Nat) {s : State} (h : NoTeamOf ctx s) : NoTeamOf ctx (settleResumes fuel s) := by
  induction fuel generalizing s with
  | zero => exact h
  | succ fuel ih =>
    unfold settleResumes
    split
    · exact h
    · split
      · exact h
      · dsimp only
        split
        · exact noTeamOf_setCtl (noTeamOf_resumes h _) _ _
        · exact ih (noTeamOf_resumes h _)

theorem noTeamOf_settleSwitches {ctx : Nat} {s : State} (h : NoTeamOf ctx s) : NoTeamOf ctx (settleSwitches s) :=
  noTeamOf_settleResumes _ (noTeamOf_settlePreempts _ h)

theorem noTeamOf_dropContext (s : State) (ctx : Nat) : NoTeamOf ctx (dropContext s ctx) := fun e he => by
  rw [dropContext_teams, List.mem_filter] at he
  simpa using he.2

/-! ### Launches (08 R163) -/

/-- A launch has its record, or keeps the code that its record is to report. -/
def reported (code : Nat) (l : Launch) : Prop := l.done = true ∨ (l.status = 0x30 ∧ l.detail = code)

theorem hubWrite_launches (s : State) (pa : Nat) (bs : List Byte) : (hubWrite s pa bs).launches = s.launches := by
  obtain h | ⟨_, _, _, h⟩ := hubWrite_cases s pa bs <;> rw [h]
  rfl

theorem devlog_launches (s : State) (code ctx place detail : Nat) : (devlog s code ctx place detail).launches = s.launches := by
  unfold devlog
  dsimp only
  split
  · exact setCtl_launches ..
  · rw [setCtl_launches, hubWrite_launches]

theorem completeLaunch_launches (s : State) (k : Nat) (l : Launch) :
    (completeLaunch s k l).launches = Maps.insert k { l with done := true } s.launches := by
  unfold completeLaunch
  dsimp only
  split
  · exact hubWrite_launches _ _ _
  · split
    · rfl
    · exact devlog_launches _ _ _ _ _

/-- A launch that is not of the context, or is done, stays; any other is listed as it is to be reported. -/
theorem failLaunch_launches (code ctx : Nat) (s : State) (e : Nat × Launch) :
    ((e.2.ctx = ctx → e.2.done = true) ∧ (failLaunch code ctx s e).launches = s.launches) ∨
      ∃ l, reported code l ∧ (failLaunch code ctx s e).launches = Maps.insert e.1 l s.launches := by
  unfold failLaunch
  by_cases h : e.2.ctx = ctx ∧ (!e.2.done) = true
  · rw [if_pos h]
    dsimp only
    split
    · exact .inr ⟨_, .inl rfl, completeLaunch_launches s _ _⟩
    · exact .inr ⟨_, .inr ⟨rfl, rfl⟩, rfl⟩
  · rw [if_neg h]
    exact .inl ⟨fun hc => by simpa [hc] using h, rfl⟩

/-- Once every launch has been tried, those of the context are reported; `todo` are those that are still to be tried. -/
theorem reported_foldl_failLaunch {code ctx : Nat} (todo : List (Nat × Launch)) {s : State} (hr : Maps.rising s.launches = true)
    (hs : ∀ e ∈ s.launches, e.2.ctx = ctx → reported code e.2 ∨ e ∈ todo) :
    ∀ e ∈ (todo.foldl (failLaunch code ctx) s).launches, e.2.ctx = ctx → reported code e.2 := by
  induction todo generalizing s with
  | nil => exact fun e he hc => (hs e he hc).resolve_right List.not_mem_nil
  | cons x todo ih =>
    obtain ⟨hdone, hsame⟩ | ⟨l, hl, hins⟩ := failLaunch_launches code ctx s x
    · refine ih (by rwa [hsame]) fun e he hc => ?_
      rw [hsame] at he
      obtain h | h := hs e he hc
      · exact .inl h
      · obtain rfl | h := List.mem_cons.1 h
        · exact .inl (.inl (hdone hc))
        · exact .inr h
    · refine ih (by rw [hins]; exact Maps.insert_rising hr) fun e he hc => ?_
      rw [hins] at he
      obtain rfl | ⟨he, hk⟩ := Maps.mem_insert_of_rising hr he
      · exact .inl hl
      · exact (hs e he hc).imp_right fun h => (List.mem_cons.1 h).resolve_left fun heq => hk (congrArg Prod.fst heq)

/-- A launch of the context is still open, or the record of its end has been raised (R410 step 4). -/
theorem lastRecord_reports (s : State) (ctx code : Nat) :
    (∃ e ∈ (lastRecord s ctx code).launches, e.2.ctx = ctx ∧ e.2.done = false) ∨
      ∃ r ∈ (lastRecord s ctx code).recs, r.ctx = ctx ∧ r.code = 0x20 ∧ r.cause = code ∧ r.source = 5 := by
  unfold lastRecord
  by_cases h : launchesOpen s ctx = true
  · rw [if_pos h]
    obtain ⟨e, he, hopen⟩ := List.any_eq_true.1 h
    exact .inl ⟨e, he, by simpa using hopen⟩
  · rw [if_neg h]
    exact .inr ⟨_, List.mem_append_right _ (List.mem_singleton.2 rfl), rfl, rfl, rfl, rfl⟩

theorem lastRecord_launches (s : State) (ctx code : Nat) : (lastRecord s ctx code).launches = s.launches := by
  unfold lastRecord
  split <;> rfl

/-! ### The termination -/

/-- The state once the context is dead and everything of it is gone, before its launches are reported. -/
def contextDropped (s : State) (ctx code : Nat) (x : Context) : State :=
  setContext (settleSwitches (dropContext s ctx)) ctx { x with dead := some code }

section
variable {s : State} {ctx code : Nat} {x : Context}

theorem terminate_eq (hx : Maps.find? ctx s.contexts = some x) (hd : x.dead = none) : terminate s ctx code =
    lastRecord ((contextDropped s ctx code x).launches.foldl (failLaunch code ctx) (contextDropped s ctx code x)) ctx code := by
  simp only [terminate, hx, hd, Option.isSome_none, Bool.false_eq_true, if_false, contextDropped]

/-- The reports of a termination leave the agents as the drop of the context has them. -/
theorem sameAgents_terminate (hx : Maps.find? ctx s.contexts = some x) (hd : x.dead = none) :
    SameAgents (contextDropped s ctx code x) (terminate s ctx code) := by
  rw [terminate_eq hx hd]
  exact (SameAgents.foldl (sameAgents_failLaunch code ctx) _ _).trans (sameAgents_lastRecord _ _ _)

theorem contextDropped_contexts : ∃ y, Maps.find? ctx (contextDropped s ctx code x).contexts = some y ∧ y.dead = some code :=
  ⟨_, Maps.find?_insert_self _ _ _, rfl⟩

theorem contextDropped_noTeam : NoTeamOf ctx (contextDropped s ctx code x) := noTeamOf_settleSwitches (noTeamOf_dropContext s ctx)

theorem contextDropped_keepsTeam {e : Nat × Team} (he : e ∈ s.teams) (hc : e.2.ctx ≠ ctx) :
    ∃ m ∈ (contextDropped s ctx code x).teams, m.1 = e.1 ∧ { m.2 with stopping := e.2.stopping } = e.2 := by
  refine (switchOnly_settleSwitches (dropContext s ctx)).2 e ?_
  rw [dropContext_teams]
  exact List.mem_filter.2 ⟨he, by simpa using hc⟩

/-- Beside the teams' stops the drop of the context is that of its agents. -/
theorem contextDropped_fields :
    let t := contextDropped s ctx code x
    let d := dropContext s ctx
    t.groups = d.groups ∧ t.stores = d.stores ∧ t.clusters = d.clusters ∧ t.cores = d.cores ∧ t.dies = d.dies ∧
      t.launches = d.launches := by
  obtain ⟨⟨_, _, _, _, h⟩, -⟩ := switchOnly_settleSwitches (dropContext s ctx)
  simp only [contextDropped, h]
  exact ⟨rfl, rfl, rfl, rfl, rfl, rfl⟩

end

end Sys2Proof.Machine.Ops

open Sys2Proof.Machine.Ops in
/-- Settles O58: what goes with the context goes in the drop of the context, the settling of requests changes the teams' stops
alone, and the reports leave every agent as it is. -/
theorem Sys2Proof.terminationRemovesTheContext : Obligations.TerminationRemovesTheContext := by
  unfold Obligations.TerminationRemovesTheContext
  intro s ctx code x hx hd t
  have hsame : SameAgents (contextDropped s ctx code x) t := sameAgents_terminate hx hd
  obtain ⟨hgroups, hstores, hclusters, hcores, hdies, hlaunches⟩ := contextDropped_fields (s := s) (ctx := ctx) (code := code) (x := x)
  rw [hsame.contexts, hsame.teams, hsame.groups, hsame.stores, hsame.clusters, hsame.cores, hsame.dies, hgroups, hstores, hclusters,
    hcores, hdies]
  refine ⟨contextDropped_contexts, contextDropped_noTeam, ?stores, ?groupsGone, ?groupsKept, fun _ => contextDropped_keepsTeam,
    ?storesKept, ?clusters, ?cores, ?dies, ?launches, ?record⟩
  case stores =>
    intro p hp
    rw [dropContext_stores, List.mem_filter] at hp
    simpa using hp.2
  case groupsGone => exact fun e he m hm hk hc => team_of_mem_dropContext_groups he (mem_teamsOf.2 ⟨m, hm, hk, hc⟩)
  case groupsKept =>
    refine fun hr e he hother => mem_dropContext_groups hr he fun ht => ?_
    obtain ⟨m, hm, hk, hc⟩ := mem_teamsOf.1 ht
    exact hother m hm hk hc
  case storesKept =>
    intro p hp hc
    rw [dropContext_stores]
    exact List.mem_filter.2 ⟨hp, by simpa using hc⟩
  case clusters =>
    intro e he
    rw [dropContext_clusters] at he
    obtain ⟨e', -, rfl⟩ := List.mem_map.1 he
    exact ⟨fun y hy => by simpa using (List.mem_filter.1 hy).2, fun y hy => by simpa using (List.mem_filter.1 hy).2⟩
  case cores =>
    intro e he
    rw [dropContext_cores] at he
    obtain ⟨e', -, rfl⟩ := List.mem_map.1 he
    obtain ⟨hslots, htiles, -, htags⟩ := freeOf_dropCore s.uid ctx (groupsOfContext s ctx) e'.2
    exact ⟨hslots, htiles, htags⟩
  case dies =>
    intro e he w hw
    rw [dropContext_dies] at he
    obtain ⟨e', -, rfl⟩ := List.mem_map.1 he
    simpa using (List.mem_filter.1 hw).2
  case launches =>
    intro hr
    have hsame : (contextDropped s ctx code x).launches = s.launches := hlaunches.trans (dropContext_launches s ctx)
    rw [show t = _ from terminate_eq hx hd, lastRecord_launches]
    exact reported_foldl_failLaunch _ (by rwa [hsame]) fun _ he _ => .inr he
  case record =>
    rw [show t = _ from terminate_eq hx hd]
    exact lastRecord_reports _ ctx code
end
